-- ==== Sys2Proof/Word.lean ====
section
/-!
DEFINITION. The words of the Torane T9 and the small closed vocabularies its manual fixes: operand codes (R16), element
types (R29), rounding modes (R200), engine classes (R132), calendar slot kinds (R108).
-/

namespace Sys2Proof

abbrev Byte := BitVec 8
/-- An instruction word, a header, a literal, or one 32-bit register of one thread (R15, R20). -/
abbrev Word := BitVec 32
/-- A scalar register, an address, a control register (R6, R295). -/
abbrev DWord := BitVec 64

/-- An operand field after decoding (R16). `lit` carries the literal word that the field claims (R17). `res` is one of
the reserved codes 0xF4 to 0xFF. -/
inductive Opnd where
  | vec (n : Nat)
  | sca (n : Nat)
  | zero
  | lit (w : Word)
  | one
  | tid
  | res (n : Nat)
  deriving DecidableEq, Repr

/-- Element types, in the order of their codes 0 to 15 (R29). -/
inductive EType where
  | i32 | n32 | i64 | n64 | i16 | n16 | i8 | n8 | f32 | f64 | f16 | bf16 | e4m3 | e5m2 | e2m1 | i4
  deriving DecidableEq, Repr

/-- The rounding modes of R200, codes 1 to 5. -/
inductive RMode where
  | rne | rtz | rup | rdn | rna
  deriving DecidableEq, Repr

/-- The four classes with an outstanding counter (R118, R132), codes 0 to 3 of WAITC. -/
inductive EngClass where
  | copy | gather | matrix | atomic
  deriving DecidableEq, Repr

/-- Calendar slot kinds (R108), codes 0 to 2 of SLOTQ (R298). -/
inductive SlotKind where
  | refresh | sweep | calibration
  deriving DecidableEq, Repr

/-- R151, R383: what a host access through the device-memory window does: PCIe reads, writes and AtomicOps, with the bytes that they carry;
a CAS carries the value that it compares with, then the new one. -/
inductive WindowOp where
  | read
  | write (bytes : List Byte)
  | fetchAdd (x : List Byte)
  | swap (x : List Byte)
  | cas (cmp new : List Byte)
  deriving DecidableEq, Repr

/-- `n` as a 32-bit word. -/
abbrev word (n : Nat) : Word := BitVec.ofNat 32 n
/-- `n` as a 64-bit word. -/
abbrev dword (n : Nat) : DWord := BitVec.ofNat 64 n
/-- `n` as a byte. -/
abbrev byte (n : Nat) : Byte := BitVec.ofNat 8 n

end Sys2Proof
end

