-- ==== Sys2Proof/Syntax.lean ====
section
/-!
DEFINITION. The rows of spec/opcode_table.json. The first part holds the instruction words of the opcode map (R38), each
with its fields as R15 to R17 name them; a field that an entry leaves unused keeps its bits (`u`), because R18 faults on
them. The second part holds the steps and events of the machine, which have no encoding.
-/

namespace Sys2Proof

inductive Instr where
  -- 0x00 to 0x02
  | ill
  | illCode (code : BitVec 24)
  | mov (d a : Opnd) (u : Byte)
  | sel (d a b : Opnd) (ctl : Word)
  -- integer arithmetic, logic and bit fields (R220 to R225)
  | add (d a b : Opnd)
  | sub (d a b : Opnd)
  | addc (d a b : Opnd)
  | subb (d a b : Opnd)
  | mul (d a b : Opnd)
  | mulh (d a b : Opnd)
  | mad (d a b : Opnd)
  | madw (d a b : Opnd)
  | neg (d a : Opnd) (u : Byte)
  | abs (d a : Opnd) (u : Byte)
  | min (d a b : Opnd)
  | max (d a b : Opnd)
  | adds (d a b : Opnd)
  | subs (d a b : Opnd)
  | and (d a b : Opnd)
  | or (d a b : Opnd)
  | xor (d a b : Opnd)
  | andn (d a b : Opnd)
  | not (d a : Opnd) (u : Byte)
  | shl (d a b : Opnd)
  | shr (d a b : Opnd)
  | shra (d a b : Opnd)
  | rotl (d a b : Opnd)
  | bfx (d a b : Opnd)
  | bfi (d a b : Opnd)
  | popc (d a : Opnd) (u : Byte)
  | clz (d a : Opnd) (u : Byte)
  | ctz (d a : Opnd) (u : Byte)
  | brev (d a : Opnd) (u : Byte)
  -- compares, addresses and predicates (R226 to R229)
  | icmpeq (d : Byte) (a b : Opnd)
  | icmpne (d : Byte) (a b : Opnd)
  | icmplt (d : Byte) (a b : Opnd)
  | icmple (d : Byte) (a b : Opnd)
  | lea (d a b : Opnd)
  | movp (d : Opnd) (p u : Byte)
  | pand (d p q : Byte)
  | por (d p q : Byte)
  | pxor (d p q : Byte)
  | pnot (d p u : Byte)
  | pset (d : Byte) (v : BitVec 16)
  | pmov (d : Byte) (a : Opnd) (u : Byte)
  -- control (R230 to R237, R290)
  | bra (c : Opnd) (off : BitVec 16)
  | brd (u : Byte) (off : BitVec 16) (join : Word)
  | join (u : BitVec 24)
  | call (d : Opnd) (off : BitVec 16)
  | ret (a : Opnd) (u : BitVec 16)
  | exit (u : BitVec 24)
  | yield (u : BitVec 24)
  | parkBarrier (u : Byte) (off : BitVec 16) (cond : Word)
  | parkCounter (u : Byte) (off : BitVec 16) (cond : Word)
  | trapSoftware (blk : Opnd) (code : BitVec 16)
  | trapServiceCall (blk : Opnd) (code : BitVec 16)
  | nop (u : BitVec 24)
  -- cross-lane (R238 to R243)
  | shfl (d a b : Opnd)
  | shflu (d a b : Opnd)
  | shfld (d a b : Opnd)
  | shflx (d a b : Opnd)
  | votea (d p u : Byte)
  | votey (d p u : Byte)
  | ballot (d : Opnd) (p u : Byte)
  | matchv (d a : Opnd) (u : Byte)
  | gredadd (d a : Opnd) (u : Byte)
  | gredmin (d a : Opnd) (u : Byte)
  | gredmax (d a : Opnd) (u : Byte)
  | gscan (d a : Opnd) (op : Byte)
  | reord (u : Byte) (key mask : Opnd)
  | elect (d : Byte) (u : BitVec 16)
  -- floating point (R249 to R257)
  | fadd (d a b : Opnd)
  | fsub (d a b : Opnd)
  | fmul (d a b : Opnd)
  | ffma (d a b : Opnd)
  | ffms (d a b : Opnd)
  | ffnma (d a b : Opnd)
  | fdiv (d a b : Opnd)
  | fsqrt (d a : Opnd) (u : Byte)
  | frcp (d a : Opnd) (u : Byte)
  | frsq (d a : Opnd) (u : Byte)
  | fmin (d a b : Opnd)
  | fmax (d a b : Opnd)
  | fminm (d a b : Opnd)
  | fmaxm (d a b : Opnd)
  | fabs (d a : Opnd) (u : Byte)
  | fneg (d a : Opnd) (u : Byte)
  | fcpsgn (d a b : Opnd)
  | fcmpeq (d : Byte) (a b : Opnd)
  | fcmplt (d : Byte) (a b : Opnd)
  | fcmple (d : Byte) (a b : Opnd)
  | fcmpun (d : Byte) (a b : Opnd)
  | fclass (d a : Opnd) (u : Byte)
  | frnd (d a : Opnd) (u : Byte)
  | fscale (d a b : Opnd)
  | fgexp (d a : Opnd) (u : Byte)
  | fgmant (d a : Opnd) (u : Byte)
  | fex2 (d a : Opnd) (u : Byte)
  | flg2 (d a : Opnd) (u : Byte)
  | fsin (d a : Opnd) (u : Byte)
  | fcos (d a : Opnd) (u : Byte)
  -- conversions and packed instructions (R258 to R262)
  | cvt (d a : Opnd) (t : Byte)
  | cvtn (d a : Opnd) (t : Byte)
  | cvtw (d a : Opnd) (t : Byte)
  | hadd2 (d a b : Opnd)
  | hmul2 (d a b : Opnd)
  | hfma2 (d a b : Opnd)
  | pdot4 (d a b : Opnd)
  | pdot8 (d a b : Opnd)
  | pdot2 (d a b : Opnd)
  -- local loads, stores and atomics (R89, R143)
  | ld (d base off : Opnd)
  | st (x base off : Opnd)
  | ld2 (d base off : Opnd)
  | ld4 (d base off : Opnd)
  | st2 (x base off : Opnd)
  | st4 (x base off : Opnd)
  | atladd (d addr x : Opnd)
  | atlmin (d addr x : Opnd)
  | atlmax (d addr x : Opnd)
  | atland (d addr x : Opnd)
  | atlor (d addr x : Opnd)
  | atlxor (d addr x : Opnd)
  | atlxch (d addr x : Opnd)
  | atlcas (d addr x : Opnd)
  -- the copy class, gathers, scatters, prefetch, home atomics (R94, R103, R107, R147)
  | bcopy (blk : Opnd) (u : BitVec 16)
  | bcopyr (blk : Opnd) (u : BitVec 16)
  | bcast (blk : Opnd) (u : BitVec 16)
  | gather (d base off : Opnd)
  | scatter (x base off : Opnd)
  | pref (base len : Opnd) (u : Byte)
  | atom (v base off : Opnd) (ctl : Word)
  | ared (x base off : Opnd) (ctl : Word)
  | aprog (v base off : Opnd) (ctl : Word)
  -- ordering and sheaves (R130 to R132, R158)
  | fence (d : Opnd) (scope mask : Byte)
  | fwait (tok : Opnd) (u : BitVec 16)
  | waitc (cls : Byte) (n : BitVec 16)
  | shopen (d name : Opnd) (u : Byte)
  | shseal (h : Opnd) (u : BitVec 16)
  | shabort (h : Opnd) (u : BitVec 16)
  | shread (d blk : Opnd) (u : Byte)
  | shver (d name : Opnd) (u : Byte)
  -- matrix unit (R272, R278, R280)
  | mloop (frag blk : Opnd)
  | mloopQuill (frag blk : Opnd) (grp : Byte)
  | mzero (frag blk : Opnd) (u : Byte)
  -- barriers (R287 to R289)
  | bar (ua ub b : Byte)
  | bara (ua ub b : Byte)
  | barw (ua ub b : Byte)
  | barx (ua : Byte) (n : Opnd) (b : Byte)
  | barq (d : Opnd) (ub b : Byte)
  -- quill, register blocks, forms, control registers, tasks, system (R292 to R303)
  | dqpush (ua : Byte) (v : Opnd) (u : Byte)
  | dqpop (d : Opnd) (u : BitVec 16)
  | regget (d mask : Opnd) (u : Byte)
  | regput (ua : Byte) (mask : Opnd) (u : Byte)
  | form (f : Byte) (v : Opnd) (u : Byte)
  | ctlr (d : Opnd) (ub reg : Byte)
  | ctlw (ua : Byte) (v : Opnd) (reg : Byte)
  | slotq (d : Opnd) (ub kind : Byte)
  | taskq (blk : Opnd) (u : BitVec 16)
  | taskdone (ua : Byte) (t : Opnd) (u : Byte)
  | eret (ua ub mode : Byte)
  | halt (ua : Byte) (code : BitVec 16)
  | signal (addr v : Opnd) (op : Byte)
  -- steps of the ordering machine (R118 to R142)
  | clauseIssue (g n : Nat)
  | longLatencyWriteback (g l : Nat)
  | drain (g : Nat)
  | propagate (core : Nat)
  | load (g : Nat)
  | atl (g : Nat)
  | start (op : Nat)
  | send (q : Nat)
  | arrive (q : Nat)
  | serve (q : Nat)
  | land (q : Nat)
  | peerRefusal (q : Nat)
  | retire (g : Nat) (c : EngClass)
  | swrite (q : Nat)
  | sealManifestWrite (e : Nat)
  | seal (e home : Nat)
  | abort (e home : Nat)
  | shreadLook (op line : Nat)
  | shreadList (op line : Nat)
  | shreadFetch (op line : Nat)
  | pf (line : Nat)
  | pwrite (q : Nat)
  | pread (q : Nat)
  | promote (duc k home : Nat)
  | discard (duc k home : Nat)
  | matrixStep (unit : Nat)
  | registerLineFill (g reg : Nat)
  | reggetGrant (sub : Nat)
  | reordComplete (g : Nat)
  | parkReactivate (g n : Nat)
  | groupRetire (g : Nat)
  -- the maintenance calendar, power and scheduling (R108 to R117, R331 to R350)
  | drainWindowClose
  | slotStart
  | slotEnd
  | calendarOverrun (unfinished : Nat)
  | cooldownExpiry (core : Nat)
  | budgetExpiry (slice : Nat)
  | budgetTrap (g n : Nat)
  | clusterClockGate (cl : Nat)
  | clusterResume (cl : Nat)
  | admission (die : Nat)
  -- translation faults, invalidation, control page (R54 to R69, R152 to R157)
  | faultRecordWrite (fn : Nat)
  | replayAll (fn : Nat)
  | replaySeq (fn seq : Nat)
  | invalidateAll (fn : Nat)
  | invalidateRange (fn pages : Nat)
  | invalidationComplete (fn : Nat)
  | contextAutoReturn (fn : Nat)
  | routineTableInstall (fn : Nat)
  | routineTableInstallDone (fn : Nat)
  | sdfree (fn name : Nat)
  -- the command front end (R306 to R330)
  | queueDoorbell (fn q v : Nat)
  | qctlWrite (fn q v : Nat)
  | qstatRead (fn q : Nat)
  | commandArrival (fn q : Nat)
  | predictionCompare (fn q : Nat)
  | predictionStart (fn q : Nat)
  | launchPromotion (fn q : Nat)
  | cutOver (l : Nat)
  | launch (fn q : Nat)
  | copyCommand (fn q : Nat)
  | signalCommand (fn q : Nat)
  | waitCommand (fn q : Nat)
  | waitPollRead (fn q : Nat)
  | waitTimeout (fn q : Nat)
  | ductusRead (fn q : Nat)
  | completionRecordWrite (fn q : Nat)
  | taskLaunchEnd (l : Nat)
  -- pools, pre-emption, services, reset (R342, R361 to R374)
  | classChangeRequest (cl v : Nat)
  | operatingPointMove (cl : Nat)
  | classChangeComplete (cl : Nat)
  | contextSwitchOut (fn : Nat)
  | switchOutComplete (fn : Nat)
  | contextSwitchIn (fn : Nat)
  | functionRemove (fn : Nat)
  | serviceRequestPost (g : Nat)
  | serviceReply (fn idx : Nat)
  | functionReset (fn : Nat)
  | functionResetComplete (fn : Nat)
  | collectiveStall (c fn : Nat)
  | memberWithdrawn (c dev fn : Nat)
  -- owners, links, start-up (R70 to R75, R378 to R388)
  | deviceMemoryWindowAccess (fn off len : Nat) (wr : WindowOp)
  | keySlotBind (owner : Nat)
  | keySlotRetire (slot : Nat)
  | scrubLine (line : Nat)
  | tlpIntegrityFail (fn : Nat)
  | pauseFlit (port cc : Nat)
  | flitCrcRetry (port : Nat)
  | linkDownTimeout (port : Nat)
  | inletOvertemp (t : Nat)
  | packageStart (primaryFails alternateFails stackFails : Nat)
  | measurementExtend (i : Nat) (image : List Byte)
  | quoteRequest (nonce : List Byte)
  | registerWrite (page idx off v : Nat)
  | linkReturn (port : Nat)
  | inletTemperatureFall (t : Nat)
  | partitionChange (islands part : List Nat)
  | spdmKeyExchange (fn : Nat) (key : List Byte)
  deriving DecidableEq, Repr

end Sys2Proof
end

