-- ==== Sys2Proof/WellFormed.lean ====
section
/-!
DEFINITION. Which terms of `Instr` are instruction words of the T9: every field fits its bits, and a row that is told apart
from its neighbour by a field holds that field's values. Misuse that the manual gives a fault (R18, R34) is well formed: it
is an instruction word, and executing it takes the fault.
-/

namespace Sys2Proof

/-- The operand is one that an 8-bit operand code names (R16). -/
def Opnd.ok : Opnd → Bool
  | .vec n => n < 192
  | .sca n => n < 48
  | .res n => n < 12
  | _ => true

/-- The rows of the opcode table that have an encoding; the others are steps and events of the machine. -/
def Instr.isWord : Instr → Bool
  | .clauseIssue .. | .longLatencyWriteback .. | .drain .. | .propagate .. | .load .. | .atl .. | .start .. | .send ..
  | .arrive .. | .serve .. | .land .. | .peerRefusal .. | .retire .. | .swrite .. | .sealManifestWrite .. | .seal ..
  | .abort .. | .shreadLook .. | .shreadList .. | .shreadFetch .. | .pf .. | .pwrite .. | .pread .. | .promote ..
  | .discard .. | .matrixStep .. | .registerLineFill .. | .reggetGrant .. | .reordComplete .. | .parkReactivate ..
  | .groupRetire .. | .drainWindowClose | .slotStart | .slotEnd | .calendarOverrun .. | .cooldownExpiry ..
  | .budgetExpiry .. | .budgetTrap .. | .clusterClockGate .. | .clusterResume .. | .admission .. | .faultRecordWrite ..
  | .replayAll .. | .replaySeq .. | .invalidateAll .. | .invalidateRange .. | .invalidationComplete ..
  | .contextAutoReturn .. | .routineTableInstall .. | .routineTableInstallDone .. | .sdfree .. | .queueDoorbell ..
  | .qctlWrite .. | .qstatRead .. | .commandArrival .. | .predictionCompare .. | .predictionStart .. | .launchPromotion ..
  | .cutOver .. | .launch .. | .copyCommand .. | .signalCommand .. | .waitCommand .. | .waitPollRead .. | .waitTimeout ..
  | .ductusRead .. | .completionRecordWrite .. | .taskLaunchEnd .. | .classChangeRequest .. | .operatingPointMove ..
  | .classChangeComplete .. | .contextSwitchOut .. | .switchOutComplete .. | .contextSwitchIn .. | .functionRemove ..
  | .serviceRequestPost .. | .serviceReply .. | .functionReset .. | .functionResetComplete .. | .collectiveStall ..
  | .memberWithdrawn .. | .keySlotBind .. | .keySlotRetire .. | .scrubLine .. | .deviceMemoryWindowAccess ..
  | .tlpIntegrityFail .. | .pauseFlit .. | .flitCrcRetry .. | .linkDownTimeout .. | .inletOvertemp .. | .packageStart ..
  | .measurementExtend .. | .quoteRequest .. | .registerWrite .. | .linkReturn .. | .inletTemperatureFall ..
  | .partitionChange .. | .spdmKeyExchange .. => false
  | _ => true

/-- The operand-code fields of an instruction word, in the order A, B, C. -/
def Instr.operands : Instr → List Opnd
  | .mov d a _ | .neg d a _ | .abs d a _ | .not d a _ | .popc d a _ | .clz d a _ | .ctz d a _ | .brev d a _
  | .matchv d a _ | .gredadd d a _ | .gredmin d a _ | .gredmax d a _ | .gscan d a _ | .fsqrt d a _ | .frcp d a _
  | .frsq d a _ | .fabs d a _ | .fneg d a _ | .fclass d a _ | .frnd d a _ | .fgexp d a _ | .fgmant d a _ | .fex2 d a _
  | .flg2 d a _ | .fsin d a _ | .fcos d a _ | .cvt d a _ | .cvtn d a _ | .cvtw d a _ | .pref d a _ | .shopen d a _
  | .shread d a _ | .shver d a _ | .mloop d a | .mloopQuill d a _ | .mzero d a _ | .regget d a _ | .reord _ d a
  | .signal d a _ => [d, a]
  | .sel d a b _ | .add d a b | .sub d a b | .addc d a b | .subb d a b | .mul d a b | .mulh d a b | .mad d a b
  | .madw d a b | .min d a b | .max d a b | .adds d a b | .subs d a b | .and d a b | .or d a b | .xor d a b
  | .andn d a b | .shl d a b | .shr d a b | .shra d a b | .rotl d a b | .bfx d a b | .bfi d a b | .lea d a b
  | .shfl d a b | .shflu d a b | .shfld d a b | .shflx d a b | .fadd d a b | .fsub d a b | .fmul d a b | .ffma d a b
  | .ffms d a b | .ffnma d a b | .fdiv d a b | .fmin d a b | .fmax d a b | .fminm d a b | .fmaxm d a b | .fcpsgn d a b
  | .fscale d a b | .hadd2 d a b | .hmul2 d a b | .hfma2 d a b | .pdot4 d a b | .pdot8 d a b | .pdot2 d a b
  | .ld d a b | .st d a b | .ld2 d a b | .ld4 d a b | .st2 d a b | .st4 d a b | .atladd d a b | .atlmin d a b
  | .atlmax d a b | .atland d a b | .atlor d a b | .atlxor d a b | .atlxch d a b | .atlcas d a b | .gather d a b
  | .scatter d a b | .atom d a b _ | .ared d a b _ | .aprog d a b _ => [d, a, b]
  | .icmpeq _ a b | .icmpne _ a b | .icmplt _ a b | .icmple _ a b | .fcmpeq _ a b | .fcmplt _ a b | .fcmple _ a b
  | .fcmpun _ a b => [a, b]
  | .movp d _ _ | .ballot d _ _ | .bra d _ | .call d _ | .ret d _ | .trapSoftware d _ | .trapServiceCall d _
  | .pmov _ d _ | .bcopy d _ | .bcopyr d _ | .bcast d _ | .fence d _ _ | .fwait d _ | .shseal d _ | .shabort d _
  | .barx _ d _ | .barq d _ _ | .dqpush _ d _ | .dqpop d _ | .regput _ d _ | .form _ d _ | .ctlr d _ _ | .ctlw _ d _
  | .slotq d _ _ | .taskq d _ | .taskdone _ d _ => [d]
  | _ => []

/-- What a row requires beyond its operands: the field that tells it from the row that shares its opcode (R37, R237,
R272, R290). -/
def Instr.rowOk : Instr → Bool
  | .illCode c => c ≠ 0
  | .trapSoftware _ c => c.toNat < 0x8000
  | .trapServiceCall _ c => 0x8000 ≤ c.toNat
  | .mloopQuill _ _ g => g ≠ 0
  | .parkBarrier _ _ w => w.toNat < 0x80000000
  | .parkCounter _ _ w => 0x80000000 ≤ w.toNat
  | _ => true

/-- The instruction is one that some instruction word, with its literal words, encodes. -/
def Instr.wf (i : Instr) : Bool := i.isWord && i.operands.all Opnd.ok && i.rowOk

/-- The number of literal words that the operands claim (R17, item 2). -/
def Opnd.lits : Opnd → Nat
  | .lit _ => 1
  | _ => 0

/-- Mandatory literal words (R17, item 1). -/
def Instr.mandatory : Instr → Nat
  | .sel .. | .brd .. | .parkBarrier .. | .parkCounter .. | .atom .. | .ared .. | .aprog .. => 1
  | _ => 0

/-- Words of the instruction, its literals included. -/
def Instr.words (i : Instr) : Nat := 1 + i.mandatory + (i.operands.map Opnd.lits).sum

end Sys2Proof
end

