-- ==== Sys2Proof/Decode.lean ====
section
/-!
DEFINITION. From words to instructions and back: the operand codes of R16, the literal words of R17, the opcode map of R38.
The decoder is total on any list of words and on any bytes; it rejects by name. The encoder follows it and is written from
the same tables.
-/

namespace Sys2Proof

/-- Why a word is no instruction of the map. -/
inductive DecodeError where
  /-- R39: the opcode is shown as "—" in the map of R38. -/
  | badOpcode (op : Nat)
  /-- R22: the literal words run past the words that are there. -/
  | missingLiteral
  /-- No four bytes are left. -/
  | truncated
  deriving DecidableEq, Repr

/-- R16: an operand code, with the literal word it claims. -/
def Opnd.ofCode (c : Byte) (l : Word) : Opnd :=
  if c.toNat < 192 then .vec c.toNat
  else if c.toNat < 240 then .sca (c.toNat - 192)
  else if c.toNat = 240 then .zero
  else if c.toNat = 241 then .lit l
  else if c.toNat = 242 then .one
  else if c.toNat = 243 then .tid
  else .res (c.toNat - 244)

/-- R16, from operand to code. -/
def Opnd.code : Opnd → Byte
  | .vec n => byte n
  | .sca n => byte (192 + n)
  | .zero => 240
  | .lit _ => 241
  | .one => 242
  | .tid => 243
  | .res n => byte (244 + n)

/-- The literal word that the operand claims, if any. -/
def Opnd.litWords : Opnd → List Word
  | .lit w => [w]
  | _ => []

/-- How the scan of R22 counts one opcode: which of A, B, C are operand codes (R17, item 2), mandatory literals (item 1),
and the marks L and E of R38. -/
structure Shape where
  a : Bool
  b : Bool
  c : Bool
  mandatory : Nat
  long : Bool
  last : Bool
  deriving DecidableEq, Repr

/-- R38: the opcode map. -/
def opcodeMap : List (Nat × Shape) :=
  [(0x00, ⟨false, false, false, 0, false, false⟩),
   (0x01, ⟨true, true, false, 0, false, false⟩),
   (0x02, ⟨true, true, true, 1, false, false⟩),
   (0x03, ⟨true, true, true, 0, false, false⟩),
   (0x04, ⟨true, true, true, 0, false, false⟩),
   (0x05, ⟨true, true, true, 0, false, false⟩),
   (0x06, ⟨true, true, true, 0, false, false⟩),
   (0x07, ⟨true, true, true, 0, false, false⟩),
   (0x08, ⟨true, true, true, 0, false, false⟩),
   (0x09, ⟨true, true, true, 0, false, false⟩),
   (0x0A, ⟨true, true, true, 0, false, false⟩),
   (0x0B, ⟨true, true, false, 0, false, false⟩),
   (0x0C, ⟨true, true, false, 0, false, false⟩),
   (0x0D, ⟨true, true, true, 0, false, false⟩),
   (0x0E, ⟨true, true, true, 0, false, false⟩),
   (0x0F, ⟨true, true, true, 0, false, false⟩),
   (0x10, ⟨true, true, true, 0, false, false⟩),
   (0x12, ⟨true, true, true, 0, false, false⟩),
   (0x13, ⟨true, true, true, 0, false, false⟩),
   (0x14, ⟨true, true, true, 0, false, false⟩),
   (0x15, ⟨true, true, true, 0, false, false⟩),
   (0x16, ⟨true, true, false, 0, false, false⟩),
   (0x17, ⟨true, true, true, 0, false, false⟩),
   (0x18, ⟨true, true, true, 0, false, false⟩)] ++
  [(0x19, ⟨true, true, true, 0, false, false⟩),
   (0x1A, ⟨true, true, true, 0, false, false⟩),
   (0x1B, ⟨true, true, true, 0, false, false⟩),
   (0x1C, ⟨true, true, true, 0, false, false⟩),
   (0x1D, ⟨true, true, false, 0, false, false⟩),
   (0x1E, ⟨true, true, false, 0, false, false⟩),
   (0x1F, ⟨true, true, false, 0, false, false⟩),
   (0x20, ⟨true, true, false, 0, false, false⟩),
   (0x22, ⟨false, true, true, 0, false, false⟩),
   (0x23, ⟨false, true, true, 0, false, false⟩),
   (0x24, ⟨false, true, true, 0, false, false⟩),
   (0x25, ⟨false, true, true, 0, false, false⟩),
   (0x26, ⟨true, true, true, 0, false, false⟩),
   (0x27, ⟨true, false, false, 0, false, false⟩),
   (0x28, ⟨false, false, false, 0, false, false⟩),
   (0x29, ⟨false, false, false, 0, false, false⟩),
   (0x2A, ⟨false, false, false, 0, false, false⟩),
   (0x2B, ⟨false, false, false, 0, false, false⟩),
   (0x2C, ⟨false, false, false, 0, false, false⟩),
   (0x2D, ⟨false, true, false, 0, false, false⟩),
   (0x40, ⟨true, false, false, 0, false, true⟩),
   (0x41, ⟨false, false, false, 1, false, true⟩),
   (0x42, ⟨false, false, false, 0, false, false⟩),
   (0x43, ⟨true, false, false, 0, false, true⟩)] ++
  [(0x44, ⟨true, false, false, 0, false, true⟩),
   (0x45, ⟨false, false, false, 0, false, true⟩),
   (0x46, ⟨false, false, false, 0, false, true⟩),
   (0x47, ⟨false, false, false, 1, false, true⟩),
   (0x48, ⟨true, false, false, 0, false, true⟩),
   (0x49, ⟨false, false, false, 0, false, false⟩),
   (0x4A, ⟨true, true, true, 0, false, false⟩),
   (0x4B, ⟨true, true, true, 0, false, false⟩),
   (0x4C, ⟨true, true, true, 0, false, false⟩),
   (0x4D, ⟨true, true, true, 0, false, false⟩),
   (0x4E, ⟨false, false, false, 0, false, false⟩),
   (0x4F, ⟨false, false, false, 0, false, false⟩),
   (0x50, ⟨true, false, false, 0, false, false⟩),
   (0x51, ⟨true, true, false, 0, false, false⟩),
   (0x52, ⟨true, true, false, 0, false, false⟩),
   (0x53, ⟨true, true, false, 0, false, false⟩),
   (0x54, ⟨true, true, false, 0, false, false⟩),
   (0x55, ⟨true, true, false, 0, false, false⟩),
   (0x56, ⟨false, true, true, 0, false, true⟩),
   (0x57, ⟨false, false, false, 0, false, false⟩),
   (0x60, ⟨true, true, true, 0, false, false⟩),
   (0x61, ⟨true, true, true, 0, false, false⟩),
   (0x62, ⟨true, true, true, 0, false, false⟩),
   (0x63, ⟨true, true, true, 0, false, false⟩)] ++
  [(0x64, ⟨true, true, true, 0, false, false⟩),
   (0x65, ⟨true, true, true, 0, false, false⟩),
   (0x66, ⟨true, true, true, 0, true, false⟩),
   (0x67, ⟨true, true, false, 0, true, false⟩),
   (0x68, ⟨true, true, false, 0, true, false⟩),
   (0x69, ⟨true, true, false, 0, true, false⟩),
   (0x6A, ⟨true, true, true, 0, false, false⟩),
   (0x6B, ⟨true, true, true, 0, false, false⟩),
   (0x6C, ⟨true, true, true, 0, false, false⟩),
   (0x6D, ⟨true, true, true, 0, false, false⟩),
   (0x6E, ⟨true, true, false, 0, false, false⟩),
   (0x6F, ⟨true, true, false, 0, false, false⟩),
   (0x70, ⟨true, true, true, 0, false, false⟩),
   (0x71, ⟨false, true, true, 0, false, false⟩),
   (0x72, ⟨false, true, true, 0, false, false⟩),
   (0x73, ⟨false, true, true, 0, false, false⟩),
   (0x74, ⟨false, true, true, 0, false, false⟩),
   (0x75, ⟨true, true, false, 0, false, false⟩),
   (0x76, ⟨true, true, false, 0, false, false⟩),
   (0x77, ⟨true, true, true, 0, false, false⟩),
   (0x78, ⟨true, true, false, 0, false, false⟩),
   (0x79, ⟨true, true, false, 0, false, false⟩),
   (0x7A, ⟨true, true, false, 0, true, false⟩),
   (0x7B, ⟨true, true, false, 0, true, false⟩)] ++
  [(0x7C, ⟨true, true, false, 0, true, false⟩),
   (0x7D, ⟨true, true, false, 0, true, false⟩),
   (0x80, ⟨true, true, false, 0, false, false⟩),
   (0x81, ⟨true, true, false, 0, false, false⟩),
   (0x82, ⟨true, true, false, 0, false, false⟩),
   (0x83, ⟨true, true, true, 0, false, false⟩),
   (0x84, ⟨true, true, true, 0, false, false⟩),
   (0x85, ⟨true, true, true, 0, false, false⟩),
   (0x86, ⟨true, true, true, 0, false, false⟩),
   (0x87, ⟨true, true, true, 0, false, false⟩),
   (0x88, ⟨true, true, true, 0, false, false⟩),
   (0xA0, ⟨true, true, true, 0, true, false⟩),
   (0xA1, ⟨true, true, true, 0, false, false⟩),
   (0xA2, ⟨true, true, true, 0, true, false⟩),
   (0xA3, ⟨true, true, true, 0, true, false⟩),
   (0xA4, ⟨true, true, true, 0, false, false⟩),
   (0xA5, ⟨true, true, true, 0, false, false⟩),
   (0xA6, ⟨true, true, true, 0, true, false⟩),
   (0xA7, ⟨true, true, true, 0, true, false⟩),
   (0xA8, ⟨true, true, true, 0, true, false⟩),
   (0xA9, ⟨true, true, true, 0, true, false⟩),
   (0xAA, ⟨true, true, true, 0, true, false⟩),
   (0xAB, ⟨true, true, true, 0, true, false⟩),
   (0xAC, ⟨true, true, true, 0, true, false⟩)] ++
  [(0xAD, ⟨true, true, true, 0, true, false⟩),
   (0xB0, ⟨true, false, false, 0, false, false⟩),
   (0xB1, ⟨true, false, false, 0, false, false⟩),
   (0xB2, ⟨true, false, false, 0, false, false⟩),
   (0xB3, ⟨true, true, true, 0, false, false⟩),
   (0xB4, ⟨true, true, true, 0, false, false⟩),
   (0xB5, ⟨true, true, false, 0, false, false⟩),
   (0xB6, ⟨true, true, true, 1, false, false⟩),
   (0xB7, ⟨true, true, true, 1, false, false⟩),
   (0xB8, ⟨true, true, true, 1, false, false⟩),
   (0xC0, ⟨true, false, false, 0, false, false⟩),
   (0xC1, ⟨true, false, false, 0, false, false⟩),
   (0xC2, ⟨false, false, false, 0, false, false⟩),
   (0xC3, ⟨true, true, false, 0, true, false⟩),
   (0xC4, ⟨true, false, false, 0, false, false⟩),
   (0xC5, ⟨true, false, false, 0, false, false⟩),
   (0xC6, ⟨true, true, false, 0, false, false⟩),
   (0xC7, ⟨true, true, false, 0, true, false⟩),
   (0xD0, ⟨true, true, false, 0, false, false⟩),
   (0xD1, ⟨true, true, false, 0, false, false⟩),
   (0xD2, ⟨false, false, false, 0, false, false⟩),
   (0xD3, ⟨false, false, false, 0, false, false⟩),
   (0xD4, ⟨false, false, false, 0, false, false⟩),
   (0xD5, ⟨false, true, false, 0, false, false⟩)] ++
  [(0xD6, ⟨true, false, false, 0, false, false⟩),
   (0xE0, ⟨false, true, false, 0, false, false⟩),
   (0xE1, ⟨true, false, false, 0, true, false⟩),
   (0xE2, ⟨true, true, false, 0, true, false⟩),
   (0xE3, ⟨false, true, false, 0, false, false⟩),
   (0xE4, ⟨false, true, false, 0, false, false⟩),
   (0xE5, ⟨true, false, false, 0, false, false⟩),
   (0xE6, ⟨false, true, false, 0, false, false⟩),
   (0xE7, ⟨true, false, false, 0, true, false⟩),
   (0xE8, ⟨true, false, false, 0, false, false⟩),
   (0xE9, ⟨false, true, false, 0, false, false⟩),
   (0xEA, ⟨false, false, false, 0, false, true⟩),
   (0xEB, ⟨false, false, false, 0, false, true⟩),
   (0xEC, ⟨true, true, false, 0, false, false⟩)]

def Shape.find : List (Nat × Shape) → Nat → Option Shape
  | [], _ => none
  | (k, v) :: r, op => if k = op then some v else Shape.find r op

/-- R38, R39: the shape of an opcode of the map. -/
def shapeOf (op : Nat) : Option Shape := Shape.find opcodeMap op

/-- R15: the word with opcode `op` and fields A, B, C. -/
def mkWord (op a b c : Byte) : Word := op ++ a ++ b ++ c

def opField (w : Word) : Byte := w.extractLsb' 24 8
def aField (w : Word) : Byte := w.extractLsb' 16 8
def bField (w : Word) : Byte := w.extractLsb' 8 8
def cField (w : Word) : Byte := w.extractLsb' 0 8
def hiByte (w : BitVec 16) : Byte := w.extractLsb' 8 8
def loByte (w : BitVec 16) : Byte := w.extractLsb' 0 8

/-- The instruction of opcode `op` with fields `a b c`, the same fields read as operand codes `x y z`, and mandatory
literal `m` (R38 and the entries). -/
def build (op : Nat) (a b c : Byte) (x y z : Opnd) (m : Word) : Option Instr :=
  match op with
  | 0x00 => if a ++ b ++ c = (0 : BitVec 24) then some .ill else some (.illCode (a ++ b ++ c))
  | 0x47 => if m.toNat < 0x80000000 then some (.parkBarrier a (b ++ c) m) else some (.parkCounter a (b ++ c) m)
  | 0x48 => if (b ++ c : BitVec 16).toNat < 0x8000 then some (.trapSoftware x (b ++ c)) else some (.trapServiceCall x (b ++ c))
  | 0xD0 => if c = 0 then some (.mloop x y) else some (.mloopQuill x y c)
  | 0x01 => some (.mov x y c)
  | 0x02 => some (.sel x y z m)
  | 0x03 => some (.add x y z)
  | 0x04 => some (.sub x y z)
  | 0x05 => some (.addc x y z)
  | 0x06 => some (.subb x y z)
  | 0x07 => some (.mul x y z)
  | 0x08 => some (.mulh x y z)
  | 0x09 => some (.mad x y z)
  | 0x0A => some (.madw x y z)
  | 0x0B => some (.neg x y c)
  | 0x0C => some (.abs x y c)
  | 0x0D => some (.min x y z)
  | 0x0E => some (.max x y z)
  | 0x0F => some (.adds x y z)
  | 0x10 => some (.subs x y z)
  | 0x12 => some (.and x y z)
  | 0x13 => some (.or x y z)
  | 0x14 => some (.xor x y z)
  | 0x15 => some (.andn x y z)
  | 0x16 => some (.not x y c)
  | 0x17 => some (.shl x y z)
  | 0x18 => some (.shr x y z)
  | 0x19 => some (.shra x y z)
  | 0x1A => some (.rotl x y z)
  | 0x1B => some (.bfx x y z)
  | 0x1C => some (.bfi x y z)
  | 0x1D => some (.popc x y c)
  | 0x1E => some (.clz x y c)
  | 0x1F => some (.ctz x y c)
  | 0x20 => some (.brev x y c)
  | 0x22 => some (.icmpeq a y z)
  | 0x23 => some (.icmpne a y z)
  | 0x24 => some (.icmplt a y z)
  | 0x25 => some (.icmple a y z)
  | 0x26 => some (.lea x y z)
  | 0x27 => some (.movp x b c)
  | 0x28 => some (.pand a b c)
  | 0x29 => some (.por a b c)
  | 0x2A => some (.pxor a b c)
  | 0x2B => some (.pnot a b c)
  | 0x2C => some (.pset a (b ++ c))
  | 0x2D => some (.pmov a y c)
  | 0x40 => some (.bra x (b ++ c))
  | 0x41 => some (.brd a (b ++ c) m)
  | 0x42 => some (.join (a ++ b ++ c))
  | 0x43 => some (.call x (b ++ c))
  | 0x44 => some (.ret x (b ++ c))
  | 0x45 => some (.exit (a ++ b ++ c))
  | 0x46 => some (.yield (a ++ b ++ c))
  | 0x49 => some (.nop (a ++ b ++ c))
  | 0x4A => some (.shfl x y z)
  | 0x4B => some (.shflu x y z)
  | 0x4C => some (.shfld x y z)
  | 0x4D => some (.shflx x y z)
  | 0x4E => some (.votea a b c)
  | 0x4F => some (.votey a b c)
  | 0x50 => some (.ballot x b c)
  | 0x51 => some (.matchv x y c)
  | 0x52 => some (.gredadd x y c)
  | 0x53 => some (.gredmin x y c)
  | 0x54 => some (.gredmax x y c)
  | 0x55 => some (.gscan x y c)
  | 0x56 => some (.reord a y z)
  | 0x57 => some (.elect a (b ++ c))
  | 0x60 => some (.fadd x y z)
  | 0x61 => some (.fsub x y z)
  | 0x62 => some (.fmul x y z)
  | 0x63 => some (.ffma x y z)
  | 0x64 => some (.ffms x y z)
  | 0x65 => some (.ffnma x y z)
  | 0x66 => some (.fdiv x y z)
  | 0x67 => some (.fsqrt x y c)
  | 0x68 => some (.frcp x y c)
  | 0x69 => some (.frsq x y c)
  | 0x6A => some (.fmin x y z)
  | 0x6B => some (.fmax x y z)
  | 0x6C => some (.fminm x y z)
  | 0x6D => some (.fmaxm x y z)
  | 0x6E => some (.fabs x y c)
  | 0x6F => some (.fneg x y c)
  | 0x70 => some (.fcpsgn x y z)
  | 0x71 => some (.fcmpeq a y z)
  | 0x72 => some (.fcmplt a y z)
  | 0x73 => some (.fcmple a y z)
  | 0x74 => some (.fcmpun a y z)
  | 0x75 => some (.fclass x y c)
  | 0x76 => some (.frnd x y c)
  | 0x77 => some (.fscale x y z)
  | 0x78 => some (.fgexp x y c)
  | 0x79 => some (.fgmant x y c)
  | 0x7A => some (.fex2 x y c)
  | 0x7B => some (.flg2 x y c)
  | 0x7C => some (.fsin x y c)
  | 0x7D => some (.fcos x y c)
  | 0x80 => some (.cvt x y c)
  | 0x81 => some (.cvtn x y c)
  | 0x82 => some (.cvtw x y c)
  | 0x83 => some (.hadd2 x y z)
  | 0x84 => some (.hmul2 x y z)
  | 0x85 => some (.hfma2 x y z)
  | 0x86 => some (.pdot4 x y z)
  | 0x87 => some (.pdot8 x y z)
  | 0x88 => some (.pdot2 x y z)
  | 0xA0 => some (.ld x y z)
  | 0xA1 => some (.st x y z)
  | 0xA2 => some (.ld2 x y z)
  | 0xA3 => some (.ld4 x y z)
  | 0xA4 => some (.st2 x y z)
  | 0xA5 => some (.st4 x y z)
  | 0xA6 => some (.atladd x y z)
  | 0xA7 => some (.atlmin x y z)
  | 0xA8 => some (.atlmax x y z)
  | 0xA9 => some (.atland x y z)
  | 0xAA => some (.atlor x y z)
  | 0xAB => some (.atlxor x y z)
  | 0xAC => some (.atlxch x y z)
  | 0xAD => some (.atlcas x y z)
  | 0xB0 => some (.bcopy x (b ++ c))
  | 0xB1 => some (.bcopyr x (b ++ c))
  | 0xB2 => some (.bcast x (b ++ c))
  | 0xB3 => some (.gather x y z)
  | 0xB4 => some (.scatter x y z)
  | 0xB5 => some (.pref x y c)
  | 0xB6 => some (.atom x y z m)
  | 0xB7 => some (.ared x y z m)
  | 0xB8 => some (.aprog x y z m)
  | 0xC0 => some (.fence x b c)
  | 0xC1 => some (.fwait x (b ++ c))
  | 0xC2 => some (.waitc a (b ++ c))
  | 0xC3 => some (.shopen x y c)
  | 0xC4 => some (.shseal x (b ++ c))
  | 0xC5 => some (.shabort x (b ++ c))
  | 0xC6 => some (.shread x y c)
  | 0xC7 => some (.shver x y c)
  | 0xD1 => some (.mzero x y c)
  | 0xD2 => some (.bar a b c)
  | 0xD3 => some (.bara a b c)
  | 0xD4 => some (.barw a b c)
  | 0xD5 => some (.barx a y c)
  | 0xD6 => some (.barq x b c)
  | 0xE0 => some (.dqpush a y c)
  | 0xE1 => some (.dqpop x (b ++ c))
  | 0xE2 => some (.regget x y c)
  | 0xE3 => some (.regput a y c)
  | 0xE4 => some (.form a y c)
  | 0xE5 => some (.ctlr x b c)
  | 0xE6 => some (.ctlw a y c)
  | 0xE7 => some (.slotq x b c)
  | 0xE8 => some (.taskq x (b ++ c))
  | 0xE9 => some (.taskdone a y c)
  | 0xEA => some (.eret a b c)
  | 0xEB => some (.halt a (b ++ c))
  | 0xEC => some (.signal x y c)
  | _ => none

/-- R17: the literal word of one field: the next unread word if the field is an operand code that holds 0xF1. -/
def takeLit (isOp : Bool) (c : Byte) (ws : List Word) : Option (Word × List Word) :=
  if isOp && c == 0xF1 then
    match ws with
    | [] => none
    | w :: r => some (w, r)
  else some (0, ws)

/-- R17: the instruction at the head of the words of a clause, and the words after its literals. -/
def decode : List Word → Except DecodeError (Instr × List Word)
  | [] => .error .truncated
  | w :: r =>
    match shapeOf (opField w).toNat with
    | none => .error (.badOpcode (opField w).toNat)
    | some sh =>
      match (if sh.mandatory = 0 then some ((0 : Word), r) else takeLit true 0xF1 r) with
      | none => .error .missingLiteral
      | some (m, r0) =>
        match takeLit sh.a (aField w) r0 with
        | none => .error .missingLiteral
        | some (la, r1) =>
          match takeLit sh.b (bField w) r1 with
          | none => .error .missingLiteral
          | some (lb, r2) =>
            match takeLit sh.c (cField w) r2 with
            | none => .error .missingLiteral
            | some (lc, r3) =>
              match build (opField w).toNat (aField w) (bField w) (cField w) (.ofCode (aField w) la)
                  (.ofCode (bField w) lb) (.ofCode (cField w) lc) m with
              | none => .error (.badOpcode (opField w).toNat)
              | some i => .ok (i, r3)

/-- R6: little-endian words from bytes; a tail shorter than a word gives none. -/
def wordsOfBytes : List Byte → List Word
  | b0 :: b1 :: b2 :: b3 :: r => (b3 ++ b2 ++ b1 ++ b0) :: wordsOfBytes r
  | _ => []

/-- R6: the four bytes of a word, lowest address first. -/
def bytesOfWord (w : Word) : List Byte :=
  [w.extractLsb' 0 8, w.extractLsb' 8 8, w.extractLsb' 16 8, w.extractLsb' 24 8]

/-- The instruction at the head of a byte sequence. -/
def decodeBytes (bs : List Byte) : Except DecodeError (Instr × List Word) := decode (wordsOfBytes bs)

/-- The bytes of a table instruction: `w` laid out little-endian in its first word, and zeros up to the longest
instruction, a word with a mandatory literal and three literal operands. -/
def tableBytes (w : Nat) : List Byte :=
  (bytesOfWord (word w) ++ bytesOfWord (word (w / 2 ^ 32))) ++ List.replicate 24 0

/-- What the decoder reads from an instruction whose bits are `w` as the opcode table numbers them. -/
def decodeTableWord (nbits w : Nat) : Option Instr :=
  match decodeBytes (tableBytes (w % 2 ^ nbits)) with
  | .ok (i, _) => some i
  | .error _ => none

/-- The words of a well-formed instruction: its word, its mandatory literal, and the literals of A, B and C (R15, R17). A
step or an event of the machine has none. -/
def encode : Instr → List Word
  | .ill => [0]
  | .illCode w => [(0 : Byte) ++ w]
  | .parkBarrier a w m => mkWord 0x47 a (hiByte w) (loByte w) :: [m]
  | .parkCounter a w m => mkWord 0x47 a (hiByte w) (loByte w) :: [m]
  | .trapSoftware x w => mkWord 0x48 x.code (hiByte w) (loByte w) :: x.litWords
  | .trapServiceCall x w => mkWord 0x48 x.code (hiByte w) (loByte w) :: x.litWords
  | .mloop x y => mkWord 0xD0 x.code y.code 0 :: (x.litWords ++ y.litWords)
  | .mloopQuill x y c => mkWord 0xD0 x.code y.code c :: (x.litWords ++ y.litWords)
  | .mov x y c => mkWord 0x01 x.code y.code c :: (x.litWords ++ y.litWords)
  | .sel x y z m => mkWord 0x02 x.code y.code z.code :: ([m] ++ x.litWords ++ y.litWords ++ z.litWords)
  | .add x y z => mkWord 0x03 x.code y.code z.code :: (x.litWords ++ y.litWords ++ z.litWords)
  | .sub x y z => mkWord 0x04 x.code y.code z.code :: (x.litWords ++ y.litWords ++ z.litWords)
  | .addc x y z => mkWord 0x05 x.code y.code z.code :: (x.litWords ++ y.litWords ++ z.litWords)
  | .subb x y z => mkWord 0x06 x.code y.code z.code :: (x.litWords ++ y.litWords ++ z.litWords)
  | .mul x y z => mkWord 0x07 x.code y.code z.code :: (x.litWords ++ y.litWords ++ z.litWords)
  | .mulh x y z => mkWord 0x08 x.code y.code z.code :: (x.litWords ++ y.litWords ++ z.litWords)
  | .mad x y z => mkWord 0x09 x.code y.code z.code :: (x.litWords ++ y.litWords ++ z.litWords)
  | .madw x y z => mkWord 0x0A x.code y.code z.code :: (x.litWords ++ y.litWords ++ z.litWords)
  | .neg x y c => mkWord 0x0B x.code y.code c :: (x.litWords ++ y.litWords)
  | .abs x y c => mkWord 0x0C x.code y.code c :: (x.litWords ++ y.litWords)
  | .min x y z => mkWord 0x0D x.code y.code z.code :: (x.litWords ++ y.litWords ++ z.litWords)
  | .max x y z => mkWord 0x0E x.code y.code z.code :: (x.litWords ++ y.litWords ++ z.litWords)
  | .adds x y z => mkWord 0x0F x.code y.code z.code :: (x.litWords ++ y.litWords ++ z.litWords)
  | .subs x y z => mkWord 0x10 x.code y.code z.code :: (x.litWords ++ y.litWords ++ z.litWords)
  | .and x y z => mkWord 0x12 x.code y.code z.code :: (x.litWords ++ y.litWords ++ z.litWords)
  | .or x y z => mkWord 0x13 x.code y.code z.code :: (x.litWords ++ y.litWords ++ z.litWords)
  | .xor x y z => mkWord 0x14 x.code y.code z.code :: (x.litWords ++ y.litWords ++ z.litWords)
  | .andn x y z => mkWord 0x15 x.code y.code z.code :: (x.litWords ++ y.litWords ++ z.litWords)
  | .not x y c => mkWord 0x16 x.code y.code c :: (x.litWords ++ y.litWords)
  | .shl x y z => mkWord 0x17 x.code y.code z.code :: (x.litWords ++ y.litWords ++ z.litWords)
  | .shr x y z => mkWord 0x18 x.code y.code z.code :: (x.litWords ++ y.litWords ++ z.litWords)
  | .shra x y z => mkWord 0x19 x.code y.code z.code :: (x.litWords ++ y.litWords ++ z.litWords)
  | .rotl x y z => mkWord 0x1A x.code y.code z.code :: (x.litWords ++ y.litWords ++ z.litWords)
  | .bfx x y z => mkWord 0x1B x.code y.code z.code :: (x.litWords ++ y.litWords ++ z.litWords)
  | .bfi x y z => mkWord 0x1C x.code y.code z.code :: (x.litWords ++ y.litWords ++ z.litWords)
  | .popc x y c => mkWord 0x1D x.code y.code c :: (x.litWords ++ y.litWords)
  | .clz x y c => mkWord 0x1E x.code y.code c :: (x.litWords ++ y.litWords)
  | .ctz x y c => mkWord 0x1F x.code y.code c :: (x.litWords ++ y.litWords)
  | .brev x y c => mkWord 0x20 x.code y.code c :: (x.litWords ++ y.litWords)
  | .icmpeq a y z => mkWord 0x22 a y.code z.code :: (y.litWords ++ z.litWords)
  | .icmpne a y z => mkWord 0x23 a y.code z.code :: (y.litWords ++ z.litWords)
  | .icmplt a y z => mkWord 0x24 a y.code z.code :: (y.litWords ++ z.litWords)
  | .icmple a y z => mkWord 0x25 a y.code z.code :: (y.litWords ++ z.litWords)
  | .lea x y z => mkWord 0x26 x.code y.code z.code :: (x.litWords ++ y.litWords ++ z.litWords)
  | .movp x b c => mkWord 0x27 x.code b c :: (x.litWords)
  | .pand a b c => mkWord 0x28 a b c :: ([])
  | .por a b c => mkWord 0x29 a b c :: ([])
  | .pxor a b c => mkWord 0x2A a b c :: ([])
  | .pnot a b c => mkWord 0x2B a b c :: ([])
  | .pset a w => mkWord 0x2C a (hiByte w) (loByte w) :: ([])
  | .pmov a y c => mkWord 0x2D a y.code c :: (y.litWords)
  | .bra x w => mkWord 0x40 x.code (hiByte w) (loByte w) :: (x.litWords)
  | .brd a w m => mkWord 0x41 a (hiByte w) (loByte w) :: ([m])
  | .join w => mkWord 0x42 (w.extractLsb' 16 8) (w.extractLsb' 8 8) (w.extractLsb' 0 8) :: ([])
  | .call x w => mkWord 0x43 x.code (hiByte w) (loByte w) :: (x.litWords)
  | .ret x w => mkWord 0x44 x.code (hiByte w) (loByte w) :: (x.litWords)
  | .exit w => mkWord 0x45 (w.extractLsb' 16 8) (w.extractLsb' 8 8) (w.extractLsb' 0 8) :: ([])
  | .yield w => mkWord 0x46 (w.extractLsb' 16 8) (w.extractLsb' 8 8) (w.extractLsb' 0 8) :: ([])
  | .nop w => mkWord 0x49 (w.extractLsb' 16 8) (w.extractLsb' 8 8) (w.extractLsb' 0 8) :: ([])
  | .shfl x y z => mkWord 0x4A x.code y.code z.code :: (x.litWords ++ y.litWords ++ z.litWords)
  | .shflu x y z => mkWord 0x4B x.code y.code z.code :: (x.litWords ++ y.litWords ++ z.litWords)
  | .shfld x y z => mkWord 0x4C x.code y.code z.code :: (x.litWords ++ y.litWords ++ z.litWords)
  | .shflx x y z => mkWord 0x4D x.code y.code z.code :: (x.litWords ++ y.litWords ++ z.litWords)
  | .votea a b c => mkWord 0x4E a b c :: ([])
  | .votey a b c => mkWord 0x4F a b c :: ([])
  | .ballot x b c => mkWord 0x50 x.code b c :: (x.litWords)
  | .matchv x y c => mkWord 0x51 x.code y.code c :: (x.litWords ++ y.litWords)
  | .gredadd x y c => mkWord 0x52 x.code y.code c :: (x.litWords ++ y.litWords)
  | .gredmin x y c => mkWord 0x53 x.code y.code c :: (x.litWords ++ y.litWords)
  | .gredmax x y c => mkWord 0x54 x.code y.code c :: (x.litWords ++ y.litWords)
  | .gscan x y c => mkWord 0x55 x.code y.code c :: (x.litWords ++ y.litWords)
  | .reord a y z => mkWord 0x56 a y.code z.code :: (y.litWords ++ z.litWords)
  | .elect a w => mkWord 0x57 a (hiByte w) (loByte w) :: ([])
  | .fadd x y z => mkWord 0x60 x.code y.code z.code :: (x.litWords ++ y.litWords ++ z.litWords)
  | .fsub x y z => mkWord 0x61 x.code y.code z.code :: (x.litWords ++ y.litWords ++ z.litWords)
  | .fmul x y z => mkWord 0x62 x.code y.code z.code :: (x.litWords ++ y.litWords ++ z.litWords)
  | .ffma x y z => mkWord 0x63 x.code y.code z.code :: (x.litWords ++ y.litWords ++ z.litWords)
  | .ffms x y z => mkWord 0x64 x.code y.code z.code :: (x.litWords ++ y.litWords ++ z.litWords)
  | .ffnma x y z => mkWord 0x65 x.code y.code z.code :: (x.litWords ++ y.litWords ++ z.litWords)
  | .fdiv x y z => mkWord 0x66 x.code y.code z.code :: (x.litWords ++ y.litWords ++ z.litWords)
  | .fsqrt x y c => mkWord 0x67 x.code y.code c :: (x.litWords ++ y.litWords)
  | .frcp x y c => mkWord 0x68 x.code y.code c :: (x.litWords ++ y.litWords)
  | .frsq x y c => mkWord 0x69 x.code y.code c :: (x.litWords ++ y.litWords)
  | .fmin x y z => mkWord 0x6A x.code y.code z.code :: (x.litWords ++ y.litWords ++ z.litWords)
  | .fmax x y z => mkWord 0x6B x.code y.code z.code :: (x.litWords ++ y.litWords ++ z.litWords)
  | .fminm x y z => mkWord 0x6C x.code y.code z.code :: (x.litWords ++ y.litWords ++ z.litWords)
  | .fmaxm x y z => mkWord 0x6D x.code y.code z.code :: (x.litWords ++ y.litWords ++ z.litWords)
  | .fabs x y c => mkWord 0x6E x.code y.code c :: (x.litWords ++ y.litWords)
  | .fneg x y c => mkWord 0x6F x.code y.code c :: (x.litWords ++ y.litWords)
  | .fcpsgn x y z => mkWord 0x70 x.code y.code z.code :: (x.litWords ++ y.litWords ++ z.litWords)
  | .fcmpeq a y z => mkWord 0x71 a y.code z.code :: (y.litWords ++ z.litWords)
  | .fcmplt a y z => mkWord 0x72 a y.code z.code :: (y.litWords ++ z.litWords)
  | .fcmple a y z => mkWord 0x73 a y.code z.code :: (y.litWords ++ z.litWords)
  | .fcmpun a y z => mkWord 0x74 a y.code z.code :: (y.litWords ++ z.litWords)
  | .fclass x y c => mkWord 0x75 x.code y.code c :: (x.litWords ++ y.litWords)
  | .frnd x y c => mkWord 0x76 x.code y.code c :: (x.litWords ++ y.litWords)
  | .fscale x y z => mkWord 0x77 x.code y.code z.code :: (x.litWords ++ y.litWords ++ z.litWords)
  | .fgexp x y c => mkWord 0x78 x.code y.code c :: (x.litWords ++ y.litWords)
  | .fgmant x y c => mkWord 0x79 x.code y.code c :: (x.litWords ++ y.litWords)
  | .fex2 x y c => mkWord 0x7A x.code y.code c :: (x.litWords ++ y.litWords)
  | .flg2 x y c => mkWord 0x7B x.code y.code c :: (x.litWords ++ y.litWords)
  | .fsin x y c => mkWord 0x7C x.code y.code c :: (x.litWords ++ y.litWords)
  | .fcos x y c => mkWord 0x7D x.code y.code c :: (x.litWords ++ y.litWords)
  | .cvt x y c => mkWord 0x80 x.code y.code c :: (x.litWords ++ y.litWords)
  | .cvtn x y c => mkWord 0x81 x.code y.code c :: (x.litWords ++ y.litWords)
  | .cvtw x y c => mkWord 0x82 x.code y.code c :: (x.litWords ++ y.litWords)
  | .hadd2 x y z => mkWord 0x83 x.code y.code z.code :: (x.litWords ++ y.litWords ++ z.litWords)
  | .hmul2 x y z => mkWord 0x84 x.code y.code z.code :: (x.litWords ++ y.litWords ++ z.litWords)
  | .hfma2 x y z => mkWord 0x85 x.code y.code z.code :: (x.litWords ++ y.litWords ++ z.litWords)
  | .pdot4 x y z => mkWord 0x86 x.code y.code z.code :: (x.litWords ++ y.litWords ++ z.litWords)
  | .pdot8 x y z => mkWord 0x87 x.code y.code z.code :: (x.litWords ++ y.litWords ++ z.litWords)
  | .pdot2 x y z => mkWord 0x88 x.code y.code z.code :: (x.litWords ++ y.litWords ++ z.litWords)
  | .ld x y z => mkWord 0xA0 x.code y.code z.code :: (x.litWords ++ y.litWords ++ z.litWords)
  | .st x y z => mkWord 0xA1 x.code y.code z.code :: (x.litWords ++ y.litWords ++ z.litWords)
  | .ld2 x y z => mkWord 0xA2 x.code y.code z.code :: (x.litWords ++ y.litWords ++ z.litWords)
  | .ld4 x y z => mkWord 0xA3 x.code y.code z.code :: (x.litWords ++ y.litWords ++ z.litWords)
  | .st2 x y z => mkWord 0xA4 x.code y.code z.code :: (x.litWords ++ y.litWords ++ z.litWords)
  | .st4 x y z => mkWord 0xA5 x.code y.code z.code :: (x.litWords ++ y.litWords ++ z.litWords)
  | .atladd x y z => mkWord 0xA6 x.code y.code z.code :: (x.litWords ++ y.litWords ++ z.litWords)
  | .atlmin x y z => mkWord 0xA7 x.code y.code z.code :: (x.litWords ++ y.litWords ++ z.litWords)
  | .atlmax x y z => mkWord 0xA8 x.code y.code z.code :: (x.litWords ++ y.litWords ++ z.litWords)
  | .atland x y z => mkWord 0xA9 x.code y.code z.code :: (x.litWords ++ y.litWords ++ z.litWords)
  | .atlor x y z => mkWord 0xAA x.code y.code z.code :: (x.litWords ++ y.litWords ++ z.litWords)
  | .atlxor x y z => mkWord 0xAB x.code y.code z.code :: (x.litWords ++ y.litWords ++ z.litWords)
  | .atlxch x y z => mkWord 0xAC x.code y.code z.code :: (x.litWords ++ y.litWords ++ z.litWords)
  | .atlcas x y z => mkWord 0xAD x.code y.code z.code :: (x.litWords ++ y.litWords ++ z.litWords)
  | .bcopy x w => mkWord 0xB0 x.code (hiByte w) (loByte w) :: (x.litWords)
  | .bcopyr x w => mkWord 0xB1 x.code (hiByte w) (loByte w) :: (x.litWords)
  | .bcast x w => mkWord 0xB2 x.code (hiByte w) (loByte w) :: (x.litWords)
  | .gather x y z => mkWord 0xB3 x.code y.code z.code :: (x.litWords ++ y.litWords ++ z.litWords)
  | .scatter x y z => mkWord 0xB4 x.code y.code z.code :: (x.litWords ++ y.litWords ++ z.litWords)
  | .pref x y c => mkWord 0xB5 x.code y.code c :: (x.litWords ++ y.litWords)
  | .atom x y z m => mkWord 0xB6 x.code y.code z.code :: ([m] ++ x.litWords ++ y.litWords ++ z.litWords)
  | .ared x y z m => mkWord 0xB7 x.code y.code z.code :: ([m] ++ x.litWords ++ y.litWords ++ z.litWords)
  | .aprog x y z m => mkWord 0xB8 x.code y.code z.code :: ([m] ++ x.litWords ++ y.litWords ++ z.litWords)
  | .fence x b c => mkWord 0xC0 x.code b c :: (x.litWords)
  | .fwait x w => mkWord 0xC1 x.code (hiByte w) (loByte w) :: (x.litWords)
  | .waitc a w => mkWord 0xC2 a (hiByte w) (loByte w) :: ([])
  | .shopen x y c => mkWord 0xC3 x.code y.code c :: (x.litWords ++ y.litWords)
  | .shseal x w => mkWord 0xC4 x.code (hiByte w) (loByte w) :: (x.litWords)
  | .shabort x w => mkWord 0xC5 x.code (hiByte w) (loByte w) :: (x.litWords)
  | .shread x y c => mkWord 0xC6 x.code y.code c :: (x.litWords ++ y.litWords)
  | .shver x y c => mkWord 0xC7 x.code y.code c :: (x.litWords ++ y.litWords)
  | .mzero x y c => mkWord 0xD1 x.code y.code c :: (x.litWords ++ y.litWords)
  | .bar a b c => mkWord 0xD2 a b c :: ([])
  | .bara a b c => mkWord 0xD3 a b c :: ([])
  | .barw a b c => mkWord 0xD4 a b c :: ([])
  | .barx a y c => mkWord 0xD5 a y.code c :: (y.litWords)
  | .barq x b c => mkWord 0xD6 x.code b c :: (x.litWords)
  | .dqpush a y c => mkWord 0xE0 a y.code c :: (y.litWords)
  | .dqpop x w => mkWord 0xE1 x.code (hiByte w) (loByte w) :: (x.litWords)
  | .regget x y c => mkWord 0xE2 x.code y.code c :: (x.litWords ++ y.litWords)
  | .regput a y c => mkWord 0xE3 a y.code c :: (y.litWords)
  | .form a y c => mkWord 0xE4 a y.code c :: (y.litWords)
  | .ctlr x b c => mkWord 0xE5 x.code b c :: (x.litWords)
  | .ctlw a y c => mkWord 0xE6 a y.code c :: (y.litWords)
  | .slotq x b c => mkWord 0xE7 x.code b c :: (x.litWords)
  | .taskq x w => mkWord 0xE8 x.code (hiByte w) (loByte w) :: (x.litWords)
  | .taskdone a y c => mkWord 0xE9 a y.code c :: (y.litWords)
  | .eret a b c => mkWord 0xEA a b c :: ([])
  | .halt a w => mkWord 0xEB a (hiByte w) (loByte w) :: ([])
  | .signal x y c => mkWord 0xEC x.code y.code c :: (x.litWords ++ y.litWords)
  | _ => []

end Sys2Proof
end

