-- ==== Sys2Proof/Config.lean ====
section
/-!
DEFINITION. What one T9 fixes (sizes of R1, R3, R108, R191) and the free values: values the manual leaves open, each an
opaque constant, so that nothing can be proved of the value itself.
-/

namespace Sys2Proof.Config

/-- Calendar cycles before a slot at which its drain window opens (R110). -/
def drainLead : Nat := 600
/-- Period of each slot kind, in calendar cycles (R108). -/
def slotPeriod : SlotKind → Nat
  | .refresh => 8000
  | .sweep => 256000
  | .calibration => 4000000
/-- Length of each slot kind (R108). -/
def slotLength : SlotKind → Nat
  | .refresh => 320
  | .sweep => 2000
  | .calibration => 12000
/-- Phase of each slot kind: CALN mod period at its start (R108). -/
def slotPhase : SlotKind → Nat
  | .refresh => 0
  | .sweep => 4000
  | .calibration => 0

/-- R45: device numbers 0 to 2,303 are valid. -/
def devices : Nat := 2304
/-- R46: bytes of HBM4E on an undivided package. -/
def hbmBytes : Nat := 768000000000
/-- R367: bytes of HBM of one stack. -/
def stackBytes : Nat := 64000000000
/-- R54: entries of a core's TLB and of a die's shared one. -/
def coreTlb : Nat := 2048
def dieTlb : Nat := 32768
/-- R58: entries of a die's fault buffer. -/
def faultEntries : Nat := 4096
/-- R79: lines of a register cache. -/
def registerLines : Nat := 2048
/-- R88, R166: ways of a memory-side cache set, and those that provisional versions may take. -/
def cacheWays : Nat := 16
def versionWays : Nat := 8
/-- R88: sets of a slice's memory-side cache: 2 MiB in lines of 128 bytes, 16 ways. -/
def cacheSets : Nat := 1024
/-- R41: bytes of one die's scratch. -/
def scratchBytes : Nat := 0x4000000
/-- R46: first local address of the scratch window. -/
def scratchWindow : Nat := 0x080000000000
/-- R46: first local address of the host window. -/
def hostWindow : Nat := 0x800000000000

/-- FREE VALUE (log 4): calendar cycles that the `n`-th step of the model takes. The manual gives no instruction a time
in calendar cycles. -/
opaque elapsed : Nat → Nat
/-- FREE VALUE (log 4): cluster clocks that the `n`-th step of the model takes (R296, GCYC). -/
opaque elapsedClocks : Nat → Nat
/-- FREE VALUE (log 5): which of the two adjacent values FRSQ delivers: a fixed function of type and operand (R251). -/
opaque frsqUpper : EType → Nat → Bool
/-- FREE VALUE (log 6): which of the values within the bound FEX2, FLG2, FSIN and FCOS (0 to 3) deliver: a fixed function
of the instruction, the type and the operand (R257). The model takes it modulo the number of values within the bound. -/
opaque transcChoice : Nat → EType → Nat → Nat
/-- FREE VALUE (log 7): a byte of second-tier memory last written under another key, or never written (R74). -/
opaque secondTierByte : Nat → Nat → BitVec 8
/-- FREE VALUE (log 69): a byte of a context image whose layout the manual does not give, by the step that saves it and its place
(R359). -/
opaque contextByte : Nat → Nat → BitVec 8
/-- FREE VALUE (log 69): what a changed byte of such a part restores, by the step that restores it and its place (R359). -/
opaque contextRestored : Nat → Nat → Nat
/-- FREE VALUE (log 8): which entry of an inconsistent 64 KiB group translates an access (R52). -/
opaque groupEntry : Nat → Nat → Nat
/-- FREE VALUE (log 9): the ECDSA P-521 signature over a quote, bytes 592 to 723 (R381); the key never leaves the die. -/
opaque quoteSignature : List (BitVec 8) → List (BitVec 8)
/-- FREE VALUE (log 10): a device whose reading the outside world fixes: temperature and droop of core `c` at the `n`-th
sweep (R343). -/
opaque sensorTemp : Nat → Nat → Nat
opaque sensorDroop : Nat → Nat → Nat
/-- FREE VALUE (log 10): module power over the `n`-th sweep period, in W (R386). -/
opaque modulePower : Nat → Nat
/-- FREE VALUE (log 18): whether a home slice finds a version way free for a provisional version at the `n`-th step (R166). -/
opaque wayFree : Nat → Bool
/-- FREE VALUE (log 19): the address of a routine's first word as its RV64IM core sees it (R154: x1 and AUIPC). -/
opaque routineBase : BitVec 64
/-- FREE VALUE (log 24): whether a peer refuses a request of this device at a domain physical address in the model's `n`-th step,
because it is absent, or for its key slots and import ranges (R64). -/
opaque peerRefuses : Nat → Nat → Bool

/-- FREE VALUE (log 24): whether a CXL expander returns a second-tier line as poisoned in the model's `n`-th step (R384). -/
opaque tierPoison : Nat → Nat → Bool

/-- FREE VALUE (log 27): how long the housekeeping of a slot that is unfinished at its scheduled end takes on, taken modulo the
slot's length (R113). -/
opaque extension : Nat → Nat

/-- FREE VALUE (log 30): status, detail and code with which a COPY command completes when a request of it is refused. -/
opaque refusedCopy : Nat × Nat × Nat

/-- FREE VALUE (log 31): the ENDC of a ductus that ends because its queue's EN is cleared (R324, R327). -/
opaque enEnd : Nat → Nat

/-- FREE VALUE (log 32): word 0 of a collective-stall record, which stands for no slot (R114, R373). -/
opaque stallRecordCaln : Nat → BitVec 64

/-- FREE VALUE (log 89): the device number that start-up gives the package (R45, R378). -/
opaque deviceNumber : Nat
/-- FREE VALUE (log 89): the boot firmware that step 0 of a start-up measures (R378, R380). -/
opaque bootFirmware : List (BitVec 8)
/-- FREE VALUE (log 89): the recovery image, the management firmware and the home-slice firmware (R378, R380). -/
opaque recoveryImage : List (BitVec 8)
opaque managementFirmware : List (BitVec 8)
opaque homeFirmware : List (BitVec 8)
/-- FREE VALUE (log 89): whether this package, of the device number given, is the end with the lower device number of the links of a port
(R388). -/
opaque lowerEnd : Nat → Nat → Bool
/-- FREE VALUE (log 35): bytes of second-tier memory that a CXL port finds populated at start-up (R46). -/
opaque cxlPopulated : Nat → Nat
/-- FREE VALUE (log 107): a byte of a team's memory that is free again, as an operation that outlives the team on its core reads it
(R84, R188). -/
opaque freedByte : Nat → BitVec 8
/-- FREE VALUE (log 117): whether in the model's `n`-th step the fetch of a command slot is still under way (R308, R329). -/
opaque fetching : Nat → Bool
/-- FREE VALUE (log 121): whether, where a later instruction wrote a long-latency instruction's destination first, the result that the
model's `n`-th step brings replaces its value; by step, register and thread (R93, R248). -/
opaque lateResult : Nat → Nat → Nat → Bool
/-- FREE VALUE (log 34): the owner to which software has given a second-tier line that is scrubbed (R74). -/
opaque newOwner : Nat → Nat

/-- FREE VALUE (log 27): the stacks or links whose housekeeping is unfinished at a slot's scheduled end, by the model's step; 0: none
(R113). -/
opaque housekeeping : Nat → Nat

end Sys2Proof.Config
end

