-- ==== Sys2Proof/Machine/State.lean ====
section
/-!
DEFINITION. Everything the manual gives the machine, as plain data: one package (R1) with its cores, teams, groups and
quill contexts, the memories of R120, the parts of the ordering machine (R118), the command front end (R306 to R330), the
calendar, the owners and the management registers. `State.reset` is the package with every register at its reset value, nothing
resident and the calendar at 0.

Numbers that name a thing: device core 48d + c (R339), die d = core / 48, cluster = core / 4 (R1), sub-core unit
8 × core + s, function 0 to 15 (R366). Groups and quill contexts share one numbering of contexts (`gid`), in the order of
admission, so that a smaller number is older (R350).
-/

namespace Sys2Proof.Machine

/-- Values by key, keys rising; an unlisted key holds the default that the reader names. -/
abbrev KMap (α : Type) := List (Nat × α)

/-- Bytes by address in the canonical form of `Mem.wf` (Machine/Maps.lean): an unlisted address reads 0 (log 2). -/
abbrev Mem := List Host.Cell

/-- The 64 values of one vector register, thread 0 first; a missing tail reads 0. -/
abbrev Lanes := List Word

/-- R172: kinds of divergence-stack entry. -/
inductive DivKind where
  | x | p | w
  deriving DecidableEq, Repr

/-- R172: one entry of a nib's divergence stack. -/
structure DivEntry where
  kind : DivKind
  number : BitVec 16
  join : DWord
  target : DWord
  mask : BitVec 16
  deriving DecidableEq, Repr

/-- R171 to R172, R283: one nib. `live` is false for a nib that was never launched. `phase` holds the 32 phase bits in
the order of R359. -/
structure Nib where
  live : Bool
  mask : BitVec 16
  stack : List DivEntry
  phase : BitVec 32
  deriving DecidableEq, Repr

/-- R20 to R23: the clause a gang executes. `words` are the words after the header; `cur` is the index of the instruction
being executed and `next` of the one after it; `form` is the form register's value, read when the first instruction issues, which
`formed` says has happened. -/
structure ClauseBuf where
  addr : DWord
  hdr : Word
  words : List Word
  cur : Nat
  next : Nat
  form : Word
  serial : Nat
  longs : Nat
  formed : Bool
  deriving DecidableEq, Repr

/-- R290: the condition of a parked gang; `met` once its barrier's phase has completed, `ready` once its counter has stood low
enough. -/
inductive ParkCond where
  | barrier (b : Byte)
  | met (b : Byte)
  | counter (c : EngClass) (n : Nat)
  | ready
  deriving DecidableEq, Repr

/-- Why a gang does not issue (R350). `retry` holds the gang at its instruction, which is issued again and decides for
itself whether the wait is over. -/
inductive Hold where
  | none
  | retry
  | barrier (b : Byte)
  | park (c : ParkCond) (cont : DWord)
  | join (at_ : DWord) (number : BitVec 16)
  | reord (mask : BitVec 24) (keys : List Nat)
  | regget (d : Opnd) (want : BitVec 24)
  | dqpop (d : Opnd)
  | result (l : Nat)
  | service (blk : Opnd) (code : BitVec 16)
  | offCore (idx : Nat) (blk : Opnd)
  | stall (cause : Nat)
  | fetch (f : Nat)
  deriving DecidableEq, Repr

/-- R171, R177, R180: a gang: its nibs in ascending order, its program counter (the address of its clause header), the
clause in execution, its hold, the region snapshot it stands in, and the step and the clock of its cluster at which it last issued. -/
structure Gang where
  nibs : List Nat
  pc : DWord
  clause : Option ClauseBuf
  hold : Hold
  snap : Nat
  lastIssue : Nat
  clock : Nat
  deriving DecidableEq, Repr

/-- R25, R180: what a region snapshot records of one nib, with the region entry that stands beside its program counter. A nib recorded at a
JOIN has another `pc`. -/
structure SnapNib where
  nib : Nat
  pc : DWord
  entry : DWord
  mask : BitVec 16
  stack : List DivEntry
  deriving DecidableEq, Repr

/-- R25, R180: a region entry with its snapshot. -/
structure Snapshot where
  id : Nat
  entry : DWord
  nibs : List SnapNib
  deriving DecidableEq, Repr

/-- R41, R120: where a local byte has its one place of record. -/
inductive Place where
  | team (team core : Nat)
  | scratch (die : Nat)
  | stack (gid t : Nat)
  deriving DecidableEq, Repr

/-- A register write that a result carries. -/
inductive RegWrite where
  | vec (n t : Nat) (w : Word)
  | sca (n : Nat) (w : DWord)
  | flags (t : Nat) (f : BitVec 5)
  deriving DecidableEq, Repr

/-- R138: one sector piece of a local access of thread `t`: `len` bytes from offset `off` of a place, byte `elOff` on of
element `el`; `got` holds the bytes once the LOAD or ATL step has taken them. `x` and `y` are the operands of an atomic. -/
structure LPiece where
  t : Nat
  el : Nat
  elOff : Nat
  place : Place
  off : Nat
  len : Nat
  x : Nat
  y : Nat
  got : Option (List Byte)
  deriving DecidableEq, Repr

/-- What an outstanding long-latency instruction will write (R12, R21, R91, R145); `float` of one that R205 names. -/
inductive LongKind where
  | load (d : Opnd) (ty : EType) (pieces : List LPiece)
  | atomic (d : Opnd) (ty : EType) (op : Nat) (pieces : List LPiece)
  | result (writes : List RegWrite)
  | float (writes : List RegWrite)
  deriving DecidableEq, Repr

/-- A long-latency instruction in flight: the clause that issued it and its ordinal there (R21), its place in the
group's issue order, the energy that its write-back charges (R348), and what its destinations held when it issued, by which a later
instruction's write of them is told (R93, R248). -/
structure LongOp where
  id : Nat
  clause : Nat
  ord : Nat
  seq : Nat
  kind : LongKind
  cost : Nat
  was : List RegWrite
  deriving DecidableEq, Repr

/-- R21: a flag raised by a clause: cleared when all of the clause's long-latency results (`second` false), or its second
one, have been written. -/
structure Raise where
  flag : Nat
  clause : Nat
  second : Bool
  deriving DecidableEq, Repr

/-- R121, R124: an entry of a store FIFO, `seq` its place in the group's issue order. `atl` stands for a local atomic's
piece. -/
inductive FifoKind where
  | store (place : Place) (bytes : List (Nat × Byte))
  | atl (l i : Nat)
  deriving DecidableEq, Repr

structure FifoEntry where
  seq : Nat
  kind : FifoKind
  deriving DecidableEq, Repr

/-- R122: an entry of a core's outbound queue. -/
structure OqEntry where
  gid : Nat
  seq : Nat
  place : Place
  bytes : List (Nat × Byte)
  deriving DecidableEq, Repr

/-- R130: a fence token slot. -/
structure FenceSlot where
  serial : Nat
  scope : Nat
  ops : List Nat
  stores : List Nat
  loads : List Nat
  deriving DecidableEq, Repr

/-- R64, R352: an operation that completed as failed and whose deferred fault has not been taken. `ord` is its ordinal
in its class. -/
structure FailedOp where
  id : Nat
  cls : EngClass
  ord : Nat
  cause : Nat
  detail : Nat
  info : Nat
  pc : DWord
  deriving DecidableEq, Repr

/-- R354: the handler save area; `since` is the clause serial at entry, below every clause of the handler. -/
structure SaveArea where
  since : Nat
  nibs : List SnapNib
  gang : Gang
  snap : Snapshot
  forms : List Word
  s46 : DWord
  s47 : DWord
  deriving DecidableEq, Repr

/-- R363: whether a context is resident, is being switched out, or has been saved. -/
inductive Presence where
  | here | leaving | away
  deriving DecidableEq, Repr

/-- R193, R186: the state of one group, or of one quill context (`quill`), which holds the part that R186 names. `team` is the key of its
team, `teamNo` the team's number within the grid, which a quill context keeps when its team has retired (R61, R188). `age` is the
step of its admission (R350), `yielded` that of a YIELD whose turn is still owed (R235), `yld` says that its last clause set YLD
(R24); `chosen` and `chosenClock` are the step and the clock of its cluster at which it was chosen last, or was admitted (R350).
`hostWrites` lists the writes to the host window that no flushing read has made sure of yet, by operation and class (R129). `skew`
and `gidnAs` are what a written context image has put into the engine-class counters, beyond the operations, and into GIDN (R359). `owed`
holds, by the lowest nib of a gang, the cost of an instruction that it has issued and that still holds it (R348). -/
structure Group where
  quill : Bool
  launch : Nat
  team : Nat
  teamNo : Nat
  grp : Nat
  role : Nat
  rgrp : Nat
  core : Nat
  sub : Nat
  slot : Nat
  slice : Nat
  launched : BitVec 64
  partner : Option Nat
  minBlocks : Nat
  window : Nat
  stackSize : Nat
  v : KMap Lanes
  s : KMap DWord
  p : KMap (BitVec 64)
  xflg : List (BitVec 5)
  nibs : List Nib
  gangs : List Gang
  snaps : List Snapshot
  nextSnap : Nat
  instCtr : BitVec 16
  forms : List Word
  raises : List Raise
  clauseSerial : Nat
  longs : List LongOp
  nextSeq : Nat
  fifo : List FifoEntry
  issued : KMap Nat
  failed : List FailedOp
  fences : List FenceSlot
  arrived : KMap (BitVec 64)
  stack : Mem
  blocks : BitVec 24
  actl : DWord
  trpc : DWord
  tcau : DWord
  tnib : DWord
  tmsk : DWord
  trgn : DWord
  gcyc : DWord
  enrg : DWord
  h : Bool
  save : Option SaveArea
  faultParked : Bool
  offCore : Bool
  budgetDue : Bool
  ended : Bool
  stopped : Bool
  presence : Presence
  age : Nat
  chosen : Nat
  chosenClock : Nat
  yielded : Option Nat
  yld : Bool
  hostWrites : List (Nat × EngClass)
  skew : KMap Nat
  gidnAs : Option DWord
  owed : KMap Nat
  deriving DecidableEq, Repr

/-- R282, R283: a barrier's owner: gb by group (or the lower group of a pair), tb by team, cb by cluster set, xb by
launch. -/
inductive BarKey where
  | gb (gid i : Nat)
  | tb (team i : Nat)
  | cb (launch set i : Nat)
  | xb (launch i : Nat)
  deriving DecidableEq, Repr

/-- R283: a barrier's state; `late` counts the threads whose deduction waits for the completion step. -/
structure Bar where
  e : Nat
  a : Nat
  c : Int
  p : Nat
  late : Nat
  deriving DecidableEq, Repr

/-- R84, R181, R188: a resident team. `tmem` holds the byte at offset o of core c's team memory at key c × 2^20 + o;
`dq` the decision queue of each core, and `popped` the place in the order of R292 of the last DQPOP there. `cores` are those on which some
group of it is resident; `spread` says that it was placed on several (R182). -/
structure Team where
  launch : Nat
  number : Nat
  cores : List Nat
  tmemSize : Nat
  tmem : Mem
  dq : KMap (List DWord)
  slice : Nat
  spread : Bool
  popped : KMap Nat
  deriving DecidableEq, Repr

/-- R313: a role descriptor. -/
structure Role where
  lastT : Nat
  win : Nat
  partner : Nat
  paired : Bool
  minBlk : Nat
  groups : Nat
  deriving DecidableEq, Repr

/-- R313: a launch record. -/
structure LaunchRec where
  code : DWord
  quill : DWord
  traph : DWord
  stack : Nat
  tmem : Nat
  roles : List Role
  tbm : Nat
  oclass : Nat
  coop : Bool
  cset : Nat
  xbm : Nat
  cbm : Nat
  deadline : Nat
  budget : Nat
  deriving DecidableEq, Repr

/-- R310, R331: where a launch comes from. -/
inductive JobKind where
  | queue (fn q : Nat)
  | task (fn n : Nat)
  deriving DecidableEq, Repr

/-- R317, R322: a predicted launch; `cutting` while it is being cut over. -/
structure Pred where
  duc : Nat
  k : Nat
  confirmed : Bool
  cutting : Bool
  promoted : Bool
  deriving DecidableEq, Repr

/-- R302, R308, R331: a launch. `use` is the turn at which its task table entry, if it has one, was taken (R338);
`unread` belongs to a launch whose record has not been taken: a predicted one that has stalled before, with the point of R319, the record's
address and TGRP; or a task's, with point 0 (R117). Its `deadline` is until then the CALN of its start. `ender` is the issuer number of the sub-core of the group that retired last (R338). -/
structure Launch where
  job : JobKind
  use : Nat
  fn : Nat
  record : LaunchRec
  args : List DWord
  tag : Nat
  caddr : DWord
  teams : Nat
  next : Nat
  retired : Nat
  privileged : Bool
  deadline : Nat
  status : Option (Nat × Nat × Nat)
  pred : Option Pred
  unread : Option (Nat × DWord × Nat)
  ready : Bool
  ender : Nat
  deriving DecidableEq, Repr

/-- R331, R335: a slice's budget; `at_` is the cluster clock that was charged last. -/
structure Slice where
  launch : Nat
  cluster : Nat
  budget : Nat
  left : Nat
  at_ : Option Nat
  deriving DecidableEq, Repr

/-- R95: a copy's control block, as the engine reads it at issue. -/
structure CopyBlk where
  src : DWord
  dst : DWord
  ext : List Nat
  ss : List Nat
  ds : List Nat
  esz : Nat
  mcm : Nat
  rtype : Nat
  rop : Nat
  sspc : Nat
  dspc : Nat
  bind : Bool
  bar : Nat
  shf : Bool
  sloc : Bool
  dloc : Bool
  handle : DWord
  rsvd : Bool
  deriving DecidableEq, Repr

/-- R268: a matrix control block. -/
structure MatBlk where
  aadr : DWord
  badr : DWord
  ainc : DWord
  binc : DWord
  bsinc : Int
  asinc : Int
  rsvd : Bool
  shape : Nat
  steps : Nat
  spa : Bool
  acc : Nat
  scl : Bool
  blk : Bool
  bfmt : EType
  afmt : EType
  asca : DWord
  bsca : DWord
  deriving DecidableEq, Repr

/-- R45 to R48: where a translated byte lies. `dpa` is a domain physical address of HBM or second-tier memory, `place`
local storage, `host` a host bus address. -/
inductive Loc where
  | dpa (a : Nat)
  | place (p : Place) (off : Nat)
  | host (a : Nat)
  deriving DecidableEq, Repr

/-- What an engine operation does (R94 to R107, R147 to R165, R272, R280, R303); `flush` is the flushing read of R129, with the
host-window writes that it pushes ahead of it. -/
inductive OpKind where
  | copy (b : CopyBlk)
  | copyr (b : CopyBlk)
  | bcast (b : CopyBlk)
  | shread (d : Nat) (b : CopyBlk)
  | gather (d : Nat) (ty : EType) (addrs : List (Nat × DWord))
  | scatter (ty : EType) (handle : DWord) (elems : List (Nat × DWord × Nat))
  | atom (d : Option Nat) (ty : EType) (opc : Nat) (handle : DWord) (elems : List (Nat × DWord × Nat × Nat))
  | prog (d : Nat) (routine : Nat) (elems : List (Nat × DWord × Nat × Nat))
  | seal (e : Nat)
  | abort (e : Nat)
  | signal (addr v : DWord) (op : Nat) (irq : Bool)
  | mloop (target frag : Nat) (b : MatBlk) (mode : RMode) (teuf : Bool) (step : Nat) (acc : List (List Nat)) (fl : List (BitVec 5))
  | mzero (frag n w : Nat)
  | flush (writes : List Nat)
  deriving DecidableEq, Repr

/-- R140, R164: what an SHREAD has seen of one line: a source line by its virtual line number, or the manifest line or a
companion by its domain line number; its version, name, manifest, sidecar state and current data; `got` is the retained
copy once it has been fetched. -/
structure Seen where
  addr : Nat
  source : Bool
  ver : Nat
  name : Nat
  man : Nat
  state : Nat
  data : List Byte
  got : Option (List Byte)
  deriving DecidableEq, Repr

/-- R140, R164: the progress of one SHREAD; `delivered` holds the version that each group delivered, by its manifest. -/
structure ShProg where
  lines : List Seen
  restarts : KMap Nat
  gaveUp : List Nat
  refused : List Nat
  plain : Bool
  delivered : KMap Nat
  deriving DecidableEq, Repr

/-- R118, R125: an engine operation from ISSUE to RETIRE. `dev` is the device that issued it: another device's operation is an
inbound peer request (R75), whose issuer has no group here. `nib` is the lowest nib of the gang that issued it (R319). `made` counts the sector pieces that START has turned into requests,
`started` says that none is left (R58). `cost` is the energy that its retirement charges (R348). -/
structure EngOp where
  gid : Nat
  cls : EngClass
  ord : Nat
  kind : OpKind
  pc : DWord
  started : Bool
  failed : Option (Nat × Nat × Nat)
  buf : Mem
  have_ : List Nat
  bar : Option BarKey
  sh : Option ShProg
  fn : Nat
  optag : Nat
  swept : Bool
  nib : Nat
  dev : Nat
  made : Nat
  cost : Nat
  deriving DecidableEq, Repr

/-- What a request does at its place of record, as (distance from the request's address, index of the byte in its
operation) pairs for a copy or a gather, and (distance, byte) for data known at issue. -/
inductive ReqKind where
  | read (pairs : List (Nat × Nat))
  | write (bytes : List (Nat × Nat))
  | store (bytes : List (Nat × Byte))
  | combine (rop : Nat) (ty : EType) (keys : List (Nat × Nat))
  | rmw (t : Nat) (ty : EType) (opc x y : Nat) (reply : Bool)
  | prog (t : Nat) (routine a0 a1 : Nat)
  | signal (v op : Nat) (irq : Bool)
  deriving DecidableEq, Repr

/-- R58, R125: where a request stands. -/
inductive Stage where
  | waiting
  | created
  | held (faults : List Nat)
  | fabric
  | queued
  | answered (data : List Byte)
  | landing (fn : Nat)
  | done
  | refused
  deriving DecidableEq, Repr

/-- R118: one request of an engine operation: one sector piece. `va` is the virtual address, or none for local storage.
`dst` says that it writes the destination; `handle` is its sheaf handle. `bits` is the page size of its translation (R56). A
reducing copy's element that lies in two sectors is one request with a second sector, at `far` and `farLoc` (R101, R138). -/
structure Req where
  op : Nat
  kind : ReqKind
  va : Option Nat
  loc : Option Loc
  len : Nat
  dst : Bool
  handle : DWord
  stage : Stage
  deferred : Bool
  tag : Option (Nat × Nat)
  owner : Nat
  gen : Nat
  bits : Nat
  far : Option Nat
  farLoc : Option Loc
  deriving DecidableEq, Repr

/-- R58, R61: an entry of a die's fault buffer: one faulting page of one operation, or one faulting clause fetch. `again` marks a replay
that waits for its context (R69). -/
structure FaultEntry where
  fn : Nat
  die : Nat
  op : Option Nat
  gid : Nat
  gang : Nat
  page : Nat
  vaddr : Nat
  dst : Bool
  acc : Nat
  kind : Nat
  lvl : Nat
  seq : Option Nat
  caln : Nat
  optag : Nat
  cls : Nat
  again : Bool
  deriving DecidableEq, Repr

/-- R54: a cached translation: the TLB that holds it (core c, or die d as 192 + d), function, virtual page number and page size
in bits, and the leaf. -/
structure TlbEntry where
  unit : Nat
  fn : Nat
  vpn : Nat
  bits : Nat
  leaf : DWord
  deriving DecidableEq, Repr

/-- R159 to R163: an entry of the sheaf table. `writes` lists the operations that carry the handle; `homes` the homes
whose SEAL or ABORT step is still to come, `late` those among them that a slot found outstanding (R135). -/
structure SheafEntry where
  open_ : Bool
  closing : Bool
  aborting : Bool
  serial : Nat
  fn : Nat
  gen : Nat
  launch : Nat
  name : Nat
  manifest : List Byte
  man : Nat
  broken : Bool
  lines : List Nat
  writes : List Nat
  closer : Option Nat
  sent : Bool
  homes : List Nat
  late : List Nat
  deriving DecidableEq, Repr

/-- R142, R166: a provisional version of a line of function `fn`, in a version way or in the chaff region. -/
structure Version where
  duc : Nat
  k : Nat
  line : Nat
  fn : Nat
  chaff : Bool
  bytes : List (Nat × Byte)
  deriving DecidableEq, Repr

/-- R309, R310: a command as fetched: its sixteen words. -/
abbrev Cmd := List DWord

/-- R316: the rule of one argument of a ductus. -/
inductive ArgRule where
  | constant (x : DWord)
  | affine (x s : DWord)
  | cycle (xs : List DWord)
  | unused
  deriving DecidableEq, Repr

/-- R315 to R327: a ductus. `watch` holds page numbers, and dies as 2^40 + d. -/
structure Ductus where
  d : Nat
  template : Cmd
  rules : List ArgRule
  nextK : Nat
  oldK : Nat
  conf : Nat
  watch : List Nat
  endc : Nat
  open_ : Bool
  deriving DecidableEq, Repr

/-- R310: a WAIT in progress; `hit` once a read of its word has met the condition. -/
structure WaitSt where
  hit : Bool
  addr : DWord
  value : DWord
  cond : Nat
  timeout : Nat
  since : Nat
  deriving DecidableEq, Repr

/-- R306, R307: one command queue. `arrived` holds the commands fetched and not yet started, `current` the command in
execution with its outcome (status, detail, code) once it is known, `run` the LAUNCH commands of the run of R315. `starts` says that
a prediction's start was enabled before the next arrival was (R329). -/
structure Queue where
  qbase : DWord
  inf : Bool
  depth : Nat
  en : Bool
  size : Nat
  qhead : Nat
  qtail : Nat
  ferr : Bool
  clost : Bool
  arrived : List Cmd
  compared : Bool
  current : Option Cmd
  launchId : Option Nat
  opId : Option Nat
  wait : Option WaitSt
  outcome : Option (Nat × Nat × Nat)
  run : List Cmd
  ductus : Option Ductus
  starts : Bool
  records : List (Cmd × Nat × Nat × Nat)
  deriving DecidableEq, Repr

/-- R337: states of a task table entry. -/
inductive TaskSt where
  | free | waiting | ready | running | done
  deriving DecidableEq, Repr

/-- R337: a task table entry; `use` is the turn at which it was last taken from FREE or DONE (R338). -/
structure Task where
  use : Nat
  st : TaskSt
  ctr : Nat
  succ : List Nat
  record : DWord
  args : DWord
  deriving DecidableEq, Repr

/-- R153: one installed routine. -/
structure Routine where
  valid : Bool
  code : List Word
  deriving DecidableEq, Repr

/-- R360, R361: a request that waits for its reply, by its SEQ: the index of its ring entry, and `replied` when the reply came while the
context was out. -/
structure Service where
  idx : Nat
  gid : Nat
  gang : Nat
  mask : BitVec 64
  blk : Opnd
  gen : Nat
  replied : Bool
  deriving DecidableEq, Repr

/-- R362, R363, R68: OUT of CTXCTL, and whether the switch out came under R68; the contexts that are away say so themselves. -/
structure Saved where
  out : Bool
  auto : Bool
  deriving DecidableEq, Repr

/-- R78: a context's image: its local address, while the context is away what each field of the image's control part was saved as, and
the lines (by offset divided by 128) that have been written back to it. -/
structure Image where
  base : Nat
  saved : List Nat
  back : List Nat
  deriving DecidableEq, Repr

/-- R79: one line of a register cache: the context and the line of its image, and whether it is dirty. The bytes of a line
that is present are the registers that Group holds. -/
structure RegLine where
  gid : Nat
  line : Nat
  dirty : Bool
  deriving DecidableEq, Repr

/-- R55, R62, R78, R152, R306, R340, R360, R362, R370, R383: one function; `ctxBase` and `ctxSize` are its context region. `invOps` lists the requests that a running invalidation
waits for, `resetting` the CALN at which a reset began, `streamErr` that its host stream has failed (R382). -/
structure Func where
  ttbase : DWord
  fqbase : DWord
  fqIrq : Bool
  fqOvf : Bool
  fqEn : Bool
  fqSize : Nat
  fqHead : Nat
  fqTail : Nat
  invaddr : DWord
  invRange : Bool
  invPages : Nat
  invBusy : Bool
  invOps : List Nat
  hwbase : DWord
  aptbase : DWord
  aptBusy : Bool
  aptErr : Bool
  aptFail : Nat
  sdbase : DWord
  quota : Nat
  sdsize : Nat
  chbase : DWord
  chsize : Nat
  chNext : Option (DWord × Nat)
  ktbase : DWord
  tfail : DWord
  srbase : DWord
  srErr : Bool
  srIrq : Bool
  srSize : Nat
  srHead : Nat
  srTail : Nat
  srSeq : Nat
  services : KMap Service
  dmwin : DWord
  ctxGo : Bool
  ctxOp : Nat
  saved : Saved
  gen : Nat
  resetting : Option Nat
  owner : Nat
  nextSeq : Nat
  nextOptag : Nat
  queues : KMap Queue
  tasks : KMap Task
  ideKey : List Byte
  ctxBase : Nat
  ctxSize : Nat
  streamErr : Bool
  deriving DecidableEq, Repr

/-- R70, R73: one key slot. -/
structure KeySlot where
  owner : Option Nat
  retired : Bool
  imports : List (Nat × Nat)
  deriving DecidableEq, Repr

/-- R108 to R113: a slot from the start of its drain window to its end: its kind, start and end, what its housekeeping had left at
its scheduled end once it has been extended, and whether the slot itself has begun. -/
structure Slot where
  kind : SlotKind
  start : Nat
  stop : Nat
  ext : Option Nat
  on : Bool
  deriving DecidableEq, Repr

/-- R341 to R349: one cluster's power and class registers, its idle clock, and the clocks that it has been given. -/
structure Cluster where
  vstep : Nat
  chg : Bool
  moved : Bool
  cur : Nat
  cls : Nat
  cap : Nat
  refill : Nat
  balance : Nat
  clenrg : DWord
  gated : Bool
  wanted : Bool
  idle : Nat
  service : Bool
  clock : Nat
  deriving DecidableEq, Repr

/-- R343: one core's HOTCTL; R67: its PARKTH. -/
structure CoreReg where
  temp : Nat
  droop : Nat
  hot : Bool
  dth : Nat
  tth : Nat
  cool : Option Nat
  parkth : Nat
  deriving DecidableEq, Repr

/-- R387, R388: one Plahoard port. `paused` is the end that the last pause flit from the other end announced, while
the link is away; `told` the one that the last pause flit of this end did, which carried the cc to it (R388). -/
structure Port where
  up : Bool
  told : Option Nat
  paused : Option Nat
  heldFlits : Nat
  resent : Nat
  deriving DecidableEq, Repr

/-- R372: a collective: its member functions by device and function, and their landing ranges: device, function, first local
address and the address after the last. -/
structure Collective where
  members : List (Nat × Nat)
  ranges : List (Nat × Nat × Nat × Nat)
  deriving DecidableEq, Repr

/-- The interrupts that the manual names (R62, R115, R303, R308, R338, R361, R373, R386). -/
inductive Irq where
  | fault (fn : Nat)
  | signal (fn : Nat)
  | queueError (fn : Nat)
  | taskFailure (fn : Nat)
  | service (fn : Nat)
  | management
  | calendarFault
  | thermal
  | integrity (fn : Nat)
  deriving DecidableEq, Repr

/-- Which context, by number, and which of its gangs, by its lowest nib, issues the instruction being executed. -/
structure Cur where
  gid : Nat
  gang : Nat
  deriving DecidableEq, Repr

/-- The machine stops. -/
inductive Fault where
  /-- Raised by every instruction meaning when the state names no issuing gang: no such step exists in the machine, so
  the stop is SAFE (it shuts out no behaviour). -/
  | noIssuer
  deriving DecidableEq, Repr

/-- An instruction with no meaning. -/
inductive Refusal where
  /-- Raised by an arm of exec for an instruction that is not modelled; SAFE: it shuts out no behaviour that is claimed. -/
  | notModelled (mnemonic : String)
  deriving DecidableEq, Repr

/-- R111, R138, R375: a line fetch or host access that a slot holds, what is still to come of a host access over several sectors, or a host
write that waits behind those: the DMWIN of its function when it came, and the bytes that its sectors have read so far, or of the value of a write of
INVCTL. -/
structure HeldStep where
  step : Instr
  win : DWord
  got : List Byte
  deriving DecidableEq, Repr

structure State where
  -- the steps to take next, in order, ahead of the model's own choice (log 3)
  agenda : List Instr
  -- counts the steps taken; the free values of time are drawn at it (log 4)
  turn : Nat
  -- the issuing context and gang of the instruction in execution
  cur : Option Cur
  devnum : Nat
  caln : Nat
  -- the slots that stand in their drain windows or in progress; more than one only beside an extension (R113)
  slots : List Slot
  sweeps : Nat
  remainder : KMap Nat
  -- memories
  mem : Mem
  tags : KMap Nat
  scratch : Mem
  host : Mem
  -- R88: the lines that the home slices hold, the one used longest ago first
  cached : List Nat
  -- R74: the key under which each 64 KiB granule was last written
  tier : KMap Nat
  -- contexts
  groups : KMap Group
  nextGid : Nat
  images : KMap Image
  -- R79: the register cache of each sub-core, by 8 × core + sub
  regLines : KMap (List RegLine)
  teams : KMap Team
  nextTeam : Nat
  launches : KMap Launch
  nextLaunch : Nat
  slices : KMap Slice
  nextSlice : Nat
  -- R339: the CALN of the last TASKDONE step that reached the task table, and its issuer number
  table : Option (Nat × Nat)
  bars : List (BarKey × Bar)
  oq : KMap (List OqEntry)
  reserve : KMap Bool
  passed : List (Nat × Nat × Nat)
  -- engines and fabric
  ops : KMap EngOp
  nextOp : Nat
  reqs : KMap Req
  nextReq : Nat
  closed : Bool
  faults : KMap FaultEntry
  nextFault : Nat
  tlb : List TlbEntry
  -- R373: held sectors (collective, member) by request; sectors that wait for room, with the CALN since when, until reported
  landing : KMap (Nat × Nat)
  landWait : KMap (Nat × Nat × Option Nat)
  -- sheaves and provisional versions
  shlo : Nat
  shhi : Nat
  shsh : Nat
  sheaves : KMap SheafEntry
  versions : List Version
  nextDuc : Nat
  -- functions, owners, routines, collectives
  funcs : KMap Func
  fnpriv : BitVec 16
  keys : KMap KeySlot
  routines : List (Nat × Nat × Routine)
  collectives : KMap Collective
  cstall : Nat
  -- package
  classSteps : List Nat
  clusters : KMap Cluster
  cores : KMap CoreReg
  islands : List Nat
  partitions : KMap Nat
  cxlLen : List Nat
  ports : KMap Port
  lastC : Nat
  window : Nat
  admitted : Nat
  energy : KMap Nat
  mpl : Nat
  factor : Nat
  hotInlet : Bool
  clogBase : DWord
  clogOvf : Bool
  clogIrq : Bool
  clogSize : Nat
  clogHead : Nat
  clogTail : Nat
  bootLast : Nat
  bootAlt : BitVec 16
  bootFail : BitVec 16
  bootDone : BitVec 16
  -- R379: management firmware has ordered a cold power-up, which the next start is
  coldDue : Bool
  meas : KMap (List Byte)
  quote : List Byte
  irqs : List Irq
  hostRead : List Byte
  hostStatus : Nat
  heldSteps : List HeldStep
  deriving DecidableEq, Repr

/-- R55, R62, R152, R306, R340, R360, R362, R383: a function's registers at reset. The owner binding of function f is f + 1
(log 12). -/
def Func.reset (fn : Nat) : Func where
  ttbase := 0; fqbase := 0; fqIrq := false; fqOvf := false; fqEn := false; fqSize := 6; fqHead := 0; fqTail := 0
  invaddr := 0; invRange := false; invPages := 0; invBusy := false; invOps := []; hwbase := 0
  aptbase := 0; aptBusy := false; aptErr := false; aptFail := 0
  sdbase := 0; quota := 0; sdsize := 0; chbase := 0; chsize := 0; chNext := none; ktbase := 0; tfail := 0
  srbase := 0; srErr := false; srIrq := false; srSize := 0; srHead := 0; srTail := 0; srSeq := 0; services := []
  dmwin := 0; ctxGo := false; ctxOp := 0; saved := ⟨false, false⟩; gen := 0; resetting := none
  owner := fn + 1; nextSeq := 0; nextOptag := 0; queues := []; tasks := []; ideKey := []
  ctxBase := 0; ctxSize := 0; streamErr := false

/-- R306, R307: a queue at reset. -/
def Queue.reset : Queue where
  qbase := 0; inf := true; depth := 4; en := false; size := 6; qhead := 0; qtail := 0; ferr := false; clost := false
  arrived := []; compared := false; current := none; launchId := none; opId := none; wait := none; outcome := none; run := []
  ductus := none; starts := false; records := []

/-- R341, R345: a cluster at reset. -/
def Cluster.reset : Cluster where
  vstep := 9; chg := false; moved := false; cur := 2; cls := 2; cap := 0x00100000; refill := 100000
  balance := 0x00100000; clenrg := 0; gated := false; wanted := false; idle := 0; service := true; clock := 0

/-- R67, R343: a core's registers at reset. -/
def CoreReg.reset : CoreReg where
  temp := 0; droop := 0; hot := false; dth := 60; tth := 95; cool := none; parkth := 12

/-- R387: a port at reset. -/
def Port.reset : Port where
  up := true; told := none; paused := none; heldFlits := 0; resent := 0

/-- R337: a task table entry at reset. -/
def Task.reset : Task where
  use := 0; st := .free; ctr := 0; succ := []; record := 0; args := 0

/-- R70, R73: a key slot at reset. -/
def KeySlot.reset : KeySlot where
  owner := none; retired := false; imports := []

/-- The package at reset: CALN 0, nothing resident, every register at the reset value of its field map, BOOTPR among them (R379), and
every resource in service, as a start without a failure leaves it (log 83). A function, a queue, a cluster, a core, a port and a key slot
that its map does not list stand at the reset values above. -/
def State.reset : State where
  agenda := []; turn := 0; cur := none; devnum := 0; caln := 0; slots := []; sweeps := 0
  remainder := []
  mem := []; tags := []; scratch := []; host := []; cached := []; tier := []
  groups := []; nextGid := 0; images := []; regLines := []; teams := []; nextTeam := 0; launches := []; nextLaunch := 0; slices := []; nextSlice := 0; table := none
  bars := []; oq := []; reserve := []; passed := []
  ops := []; nextOp := 0; reqs := []; nextReq := 0; closed := false; faults := []; nextFault := 0; tlb := []; landing := []; landWait := []
  shlo := 0; shhi := 0; shsh := 0; sheaves := []; versions := []; nextDuc := 0
  funcs := []; fnpriv := 0; keys := []; routines := []; collectives := []; cstall := 1000
  classSteps := [3, 6, 9, 13]; clusters := []; cores := []; islands := [0, 1, 2, 3]; partitions := []; cxlLen := [0, 0]; ports := []
  lastC := 0; window := 0; admitted := 0; energy := []; mpl := 3600; factor := 8; hotInlet := false
  clogBase := 0; clogOvf := false; clogIrq := false; clogSize := 6; clogHead := 0; clogTail := 0
  bootLast := 0; bootAlt := 0; bootFail := 0; bootDone := 0; coldDue := false
  meas := []; quote := []; irqs := []; hostRead := []; hostStatus := 0; heldSteps := []

end Sys2Proof.Machine
end

