-- ==== Sys2Proof/Machine/Maps.lean ====
section
/-!
DEFINITION. The two collections that State is made of: values by key, keys rising, and bytes by address in canonical form
(R6: bytes are little-endian; log 2: an address that is not listed reads 0).
-/

namespace Sys2Proof.Machine

/-- The value at key `k`, if one is listed. -/
def KMap.get {α : Type} : KMap α → Nat → Option α
  | [], _ => none
  | (a, x) :: m, k => if k = a then some x else KMap.get m k

/-- The value at key `k`, or `d`. -/
def KMap.getD {α : Type} (m : KMap α) (k : Nat) (d : α) : α := (KMap.get m k).getD d

/-- `m` with `x` at key `k`. -/
def KMap.put {α : Type} : KMap α → Nat → α → KMap α
  | [], k, x => [(k, x)]
  | (a, y) :: m, k, x =>
    if k = a then (a, x) :: m else if k < a then (k, x) :: (a, y) :: m else (a, y) :: KMap.put m k x

/-- `m` without key `k`. -/
def KMap.del {α : Type} (m : KMap α) (k : Nat) : KMap α := m.filter fun e => e.1 ≠ k

/-- `m` with the value at key `k`, if one is listed, replaced by `f` of it. -/
def KMap.adjust {α : Type} (m : KMap α) (k : Nat) (f : α → α) : KMap α :=
  m.map fun e => if e.1 = k then (e.1, f e.2) else e

def KMap.keys {α : Type} (m : KMap α) : List Nat := m.map Prod.fst
def KMap.vals {α : Type} (m : KMap α) : List α := m.map Prod.snd

/-- The first listed key whose entry satisfies `p`. -/
def KMap.findKey {α : Type} (m : KMap α) (p : Nat → α → Bool) : Option Nat :=
  (m.find? fun e => p e.1 e.2).map Prod.fst

/-- Addresses rise strictly, each above `lo` when it is given, and no listed byte is 0. -/
def Mem.wfFrom : Option Nat → Mem → Bool
  | _, [] => true
  | lo, (a, b) :: m => (match lo with | none => true | some l => decide (l < a)) && decide (b ≠ 0) && Mem.wfFrom (some a) m

/-- The canonical form: addresses strictly rising, no entry equal to what an unlisted address reads as. -/
def Mem.wf (m : Mem) : Bool := Mem.wfFrom none m

/-- What an address that is not listed reads as (log 2). -/
def Mem.unlisted : Byte := 0

/-- The byte at address `a`. -/
def Mem.get : Mem → Nat → Byte
  | [], _ => Mem.unlisted
  | (k, b) :: m, a => if a = k then b else if a < k then Mem.unlisted else Mem.get m a

/-- `m` with byte `b` at address `a`. -/
def Mem.set : Mem → Nat → Byte → Mem
  | [], a, b => if b = Mem.unlisted then [] else [(a, b)]
  | (k, c) :: m, a, b =>
    if a = k then (if b = Mem.unlisted then m else (k, b) :: m)
    else if a < k then (if b = Mem.unlisted then (k, c) :: m else (a, b) :: (k, c) :: m)
    else (k, c) :: Mem.set m a b

/-- The bytes at the listed addresses. -/
def Mem.readAt (m : Mem) (as : List Nat) : List Byte := as.map (Mem.get m)

/-- `n` bytes from address `a`. -/
def Mem.read (m : Mem) (a n : Nat) : List Byte := (List.range n).map fun i => Mem.get m (a + i)

/-- Bytes written each at its address, in list order. -/
def Mem.writeAt (m : Mem) (bs : List (Nat × Byte)) : Mem := bs.foldl (fun m e => Mem.set m e.1 e.2) m

/-- Consecutive bytes from address `a`. -/
def Mem.write (m : Mem) (a : Nat) : List Byte → Mem
  | [] => m
  | b :: bs => Mem.write (Mem.set m a b) (a + 1) bs

/-- The memory without its bytes at `lo` up to, not including, `hi`: those read 0. -/
def Mem.clear (m : Mem) (lo hi : Nat) : Mem := m.filter fun e => e.1 < lo || hi ≤ e.1

/-- R6: the little-endian value of a list of bytes. -/
def leVal : List Byte → Nat
  | [] => 0
  | b :: bs => b.toNat + 256 * leVal bs

/-- R6: the low `n` bytes of a value, least significant first. -/
def leBytes (v : Nat) : Nat → List Byte
  | 0 => []
  | n + 1 => byte v :: leBytes (v / 256) n

/-- A little-endian value of `n` bytes at address `a`. -/
def Mem.readVal (m : Mem) (a n : Nat) : Nat := leVal (Mem.read m a n)

/-- A little-endian value of `n` bytes written at address `a`. -/
def Mem.writeVal (m : Mem) (a n v : Nat) : Mem := Mem.write m a (leBytes v n)

/-- A list with the element at `i` replaced by `x`; a shorter list is filled up with `d`. -/
def listSet {α : Type} (d x : α) : List α → Nat → List α
  | [], 0 => [x]
  | [], i + 1 => d :: listSet d x [] i
  | _ :: l, 0 => x :: l
  | y :: l, i + 1 => y :: listSet d x l i

/-- `l` with `f` applied at position `i`. -/
def listModify {α : Type} (f : α → α) : List α → Nat → List α
  | [], _ => []
  | y :: l, 0 => f y :: l
  | y :: l, i + 1 => y :: listModify f l i

/-- Bits `hi` down to `lo` of a natural number. -/
def bitsOf (x hi lo : Nat) : Nat := (x >>> lo) % 2 ^ (hi + 1 - lo)

/-- `x` with its bits `hi` down to `lo` replaced by the low bits of `v`. -/
def setBits (x hi lo v : Nat) : Nat :=
  x - bitsOf x hi lo * 2 ^ lo + (v % 2 ^ (hi + 1 - lo)) * 2 ^ lo

/-- The thread numbers of a 64-bit mask, ascending. -/
def threadsOf (m : BitVec 64) : List Nat := (List.range 64).filter fun t => m.getLsbD t

/-- The mask of a list of threads. -/
def maskOf (ts : List Nat) : BitVec 64 := ts.foldl (fun m t => m ||| (1#64 <<< t)) 0

/-- `l` inserted by a key, after entries of the same key: stable insertion. -/
def insertBy {α : Type} (key : α → Nat) (x : α) : List α → List α
  | [] => [x]
  | y :: l => if key x < key y then x :: y :: l else y :: insertBy key x l

/-- Stable sort by a key, ascending. -/
def sortBy {α : Type} (key : α → Nat) (l : List α) : List α := l.foldl (fun acc x => insertBy key x acc) []

/-- `l` without repeats, first occurrences kept. -/
def nubBy {α : Type} [DecidableEq α] (l : List α) : List α :=
  l.foldl (fun acc x => if acc.contains x then acc else acc ++ [x]) []

end Sys2Proof.Machine
end

