-- ==== Sys2Proof/Machine/Numeric.lean ====
section
/-!
DEFINITION. Number formats, rounding, exceptions and conversions (R195 to R210, R213), as functions on bit patterns. An
exact real is a sign, a natural significand and a power of two; a quotient or a root adds a sticky bit.
-/

namespace Sys2Proof.Machine

/-- R195, R197: the width of a type in bits. -/
def widthOf : EType → Nat
  | .i32 | .n32 | .f32 => 32
  | .i64 | .n64 | .f64 => 64
  | .i16 | .n16 | .f16 | .bf16 => 16
  | .i8 | .n8 | .e4m3 | .e5m2 => 8
  | .e2m1 | .i4 => 4

def isSigned : EType → Bool
  | .i32 | .i64 | .i16 | .i8 | .i4 => true
  | _ => false

def isInt : EType → Bool
  | .i32 | .n32 | .i64 | .n64 | .i16 | .n16 | .i8 | .n8 | .i4 => true
  | _ => false

def isFloat (t : EType) : Bool := !isInt t

/-- R29: the type of a code. -/
def etypeOf (c : Nat) : EType :=
  match c % 16 with
  | 0 => .i32 | 1 => .n32 | 2 => .i64 | 3 => .n64 | 4 => .i16 | 5 => .n16 | 6 => .i8 | 7 => .n8
  | 8 => .f32 | 9 => .f64 | 10 => .f16 | 11 => .bf16 | 12 => .e4m3 | 13 => .e5m2 | 14 => .e2m1 | _ => .i4

/-- R29: the code of a type. -/
def etypeCode : EType → Nat
  | .i32 => 0 | .n32 => 1 | .i64 => 2 | .n64 => 3 | .i16 => 4 | .n16 => 5 | .i8 => 6 | .n8 => 7
  | .f32 => 8 | .f64 => 9 | .f16 => 10 | .bf16 => 11 | .e4m3 => 12 | .e5m2 => 13 | .e2m1 => 14 | .i4 => 15

/-- R200, R201: the mode of a code 1 to 5; any other code, which a restored image may leave in DRND, rounds to nearest even (log 131). -/
def rmodeOf (c : Nat) : RMode :=
  match c with
  | 2 => .rtz | 3 => .rup | 4 => .rdn | 5 => .rna | _ => .rne

/-- R215: val of a w-bit pattern. -/
def valOf (t : EType) (x : Nat) : Int :=
  let w := widthOf t
  let p := x % 2 ^ w
  if isSigned t && decide (2 ^ (w - 1) ≤ p) then (p : Int) - (2 ^ w : Nat) else (p : Int)

/-- R215: wrap. -/
def wrapT (t : EType) (v : Int) : Nat := (v % ((2 ^ widthOf t : Nat) : Int)).toNat

/-- R195: the least value of an integer type. -/
def minOf (t : EType) : Int := if isSigned t then -((2 ^ (widthOf t - 1) : Nat) : Int) else 0
/-- R195: the greatest value of an integer type. -/
def maxOf (t : EType) : Int :=
  if isSigned t then ((2 ^ (widthOf t - 1) : Nat) : Int) - 1 else ((2 ^ widthOf t : Nat) : Int) - 1

/-- R215: sat. -/
def satT (t : EType) (v : Int) : Nat := wrapT t (max (minOf t) (min (maxOf t) v))

/-- R19: a w-bit pattern extended to `n` bits: i types by their sign, the rest with zeros. -/
def extendTo (t : EType) (n : Nat) (x : Nat) : Nat :=
  let w := widthOf t
  let p := x % 2 ^ w
  if isSigned t && decide (2 ^ (w - 1) ≤ p) && decide (w < n) then p + 2 ^ n - 2 ^ w else p

/-- Bits of a natural number: 0 for 0. -/
def bitLen (n : Nat) : Nat := if n = 0 then 0 else Nat.log2 n + 1

/-- R197: exponent bits, fraction bits and bias. -/
structure Fmt where
  eb : Nat
  fb : Nat
  bias : Nat

def fmtOf : EType → Fmt
  | .f64 => ⟨11, 52, 1023⟩
  | .f16 => ⟨5, 10, 15⟩
  | .bf16 => ⟨8, 7, 127⟩
  | .e5m2 => ⟨5, 2, 15⟩
  | .e4m3 => ⟨4, 3, 7⟩
  | .e2m1 => ⟨2, 1, 1⟩
  | _ => ⟨8, 23, 127⟩

/-- The exponent of the last place of the subnormals. -/
def Fmt.emin (f : Fmt) : Int := 1 - (f.bias : Int) - f.fb

/-- The exponent of the smallest normal. -/
def Fmt.enorm (f : Fmt) : Int := 1 - (f.bias : Int)

/-- R197: the pattern of the largest finite value, its sign clear. -/
def maxFinite : EType → Nat
  | .f64 => 0x7FEFFFFFFFFFFFFF
  | .f16 => 0x7BFF
  | .bf16 => 0x7F7F
  | .e5m2 => 0x7B
  | .e4m3 => 0x7E
  | .e2m1 => 0x7
  | _ => 0x7F7FFFFF

/-- R198: the default NaN; e2m1 has none and reads +0 (R209). -/
def defaultNaN : EType → Nat
  | .f64 => 0x7FF8000000000000
  | .f16 => 0x7E00
  | .bf16 => 0x7FC0
  | .e5m2 => 0x7E
  | .e4m3 => 0x7F
  | .e2m1 => 0
  | _ => 0x7FC00000

/-- R197: the pattern of +infinity, where the type has one. -/
def infBits (t : EType) : Nat :=
  let f := fmtOf t
  (2 ^ f.eb - 1) * 2 ^ f.fb

/-- The sign bit of a pattern. -/
def signBit (t : EType) (neg : Bool) : Nat := if neg then 2 ^ (widthOf t - 1) else 0

/-- What a pattern stands for. `fin neg m e` is (-1)^neg × m × 2^e. -/
inductive FVal where
  | nan (neg : Bool) (frac : Nat) (signalling : Bool)
  | inf (neg : Bool)
  | fin (neg : Bool) (m : Nat) (e : Int)
  deriving DecidableEq, Repr

/-- R197, R198: the value of a pattern of a floating type. -/
def fval (t : EType) (x : Nat) : FVal :=
  let f := fmtOf t
  let neg := x.testBit (widthOf t - 1)
  let ex := bitsOf x (f.fb + f.eb - 1) f.fb
  let fr := x % 2 ^ f.fb
  match t with
  | .e4m3 => if ex = 15 ∧ fr = 7 then .nan neg fr false
             else if ex = 0 then .fin neg fr f.emin else .fin neg (fr + 8) (f.emin + (ex - 1 : Nat))
  | .e2m1 => if ex = 0 then .fin neg fr f.emin else .fin neg (fr + 2) (f.emin + (ex - 1 : Nat))
  | _ =>
    if ex = 2 ^ f.eb - 1 then
      (if fr = 0 then .inf neg else .nan neg fr (decide (fr < 2 ^ (f.fb - 1))))
    else if ex = 0 then .fin neg fr f.emin
    else .fin neg (fr + 2 ^ f.fb) (f.emin + (ex - 1 : Nat))

def FVal.isNan : FVal → Bool
  | .nan .. => true
  | _ => false
def FVal.isSnan : FVal → Bool
  | .nan _ _ s => s
  | _ => false
def FVal.neg : FVal → Bool
  | .nan n _ _ => n
  | .inf n => n
  | .fin n _ _ => n
def FVal.isZero : FVal → Bool
  | .fin _ 0 _ => true
  | _ => false

/-- R203: the five flags, in XFLG's bit order. -/
abbrev Flags := BitVec 5
def flNV : Flags := 1
def flDZ : Flags := 2
def flOF : Flags := 4
def flUF : Flags := 8
def flNX : Flags := 16
def flIf (b : Bool) (f : Flags) : Flags := if b then f else 0

/-- A result: its pattern and the flags it raised. -/
abbrev FRes := Nat × Flags

/-- R200 step 2: does the magnitude go up, given the last kept bit and how the rest compares with one half? -/
def roundsUp (mode : RMode) (neg odd above tie inexact : Bool) : Bool :=
  match mode with
  | .rne => above || (tie && odd)
  | .rna => above || tie
  | .rtz => false
  | .rup => inexact && !neg
  | .rdn => inexact && neg

/-- R200 step 2 at last-place exponent `le`: ±(m × 2^e), with something more below when `sticky`, becomes q × 2^le; and
whether that is inexact. A sticky significand must have bits below `le`. -/
def roundAt (mode : RMode) (neg : Bool) (m : Nat) (e : Int) (sticky : Bool) (le : Int) : Nat × Bool :=
  if le ≤ e then (m * 2 ^ (e - le).toNat, sticky)
  else
    let sh := (le - e).toNat
    let q := m / 2 ^ sh
    let r := m % 2 ^ sh
    let half := 2 ^ (sh - 1)
    let inexact := sticky || decide (r ≠ 0)
    let above := decide (half < r) || (decide (r = half) && sticky)
    let tie := decide (r = half) && !sticky
    (if roundsUp mode neg (q % 2 = 1) above tie inexact then q + 1 else q, inexact)

/-- The pattern, sign clear, of q × 2^le, a value of the type's precision that lies within its range. -/
def encodeFin (t : EType) (q : Nat) (le : Int) : Nat :=
  let f := fmtOf t
  if q = 0 then 0
  else
    let top := (bitLen q : Int) - 1 + le
    if top < f.enorm then q * 2 ^ (le - f.emin).toNat
    else
      let k := bitLen q - 1
      let sig := if k ≤ f.fb then q * 2 ^ (f.fb - k) else q / 2 ^ (k - f.fb)
      (top + f.bias).toNat * 2 ^ f.fb + (sig - 2 ^ f.fb)

/-- Is q1 × 2^e1 above q2 × 2^e2? -/
def gtDyadic (q1 : Nat) (e1 : Int) (q2 : Nat) (e2 : Int) : Bool :=
  if e1 ≤ e2 then decide (q2 * 2 ^ (e2 - e1).toNat < q1) else decide (q2 < q1 * 2 ^ (e1 - e2).toNat)

/-- R200 step 3 and R209: the pattern that an overflow delivers. -/
def overflowBits (t : EType) (mode : RMode) (sat neg : Bool) : Nat :=
  let lim := maxFinite t
  signBit t neg + match t with
  | .e4m3 => if sat then lim else 0x7F
  | .e2m1 => lim
  | _ =>
    if t = .e5m2 ∧ sat then lim
    else match mode with
      | .rne | .rna => infBits t
      | .rtz => lim
      | .rup => if neg then lim else infBits t
      | .rdn => if neg then infBits t else lim

/-- R200, R203, R209: an exact non-zero real rounded into a type, with OF, UF and NX. `teuf` is ACTL's TEUF. -/
def roundFin (t : EType) (mode : RMode) (sat teuf neg : Bool) (m : Nat) (e : Int) (sticky : Bool) : FRes :=
  let f := fmtOf t
  let free : Int := bitLen m + e - (f.fb + 1)
  let le := max free f.emin
  let (q, inexact) := roundAt mode neg m e sticky le
  let (qu, _) := roundAt mode neg m e sticky free
  let tiny := decide ((bitLen qu : Int) + free - 1 < f.enorm)
  match fval t (maxFinite t) with
  | .fin _ mx ex =>
    if gtDyadic q le mx ex then (overflowBits t mode sat neg, flOF ||| flNX)
    else (signBit t neg + encodeFin t q le, flIf (tiny && (inexact || teuf)) flUF ||| flIf inexact flNX)
  | _ => (0, 0)

/-- Rounding of an exact dyadic, zero included: the zero keeps the sign given. -/
def roundDy (t : EType) (mode : RMode) (sat teuf neg : Bool) (m : Nat) (e : Int) : FRes :=
  if m = 0 then (signBit t neg, 0) else roundFin t mode sat teuf neg m e false

/-- R207: a NaN of type `src` delivered in type `t`, quieted: its fraction is placed in a wider fraction, or cut to a narrower one, also
between types of one width (log 112). -/
def nanInto (src t : EType) (neg : Bool) (frac : Nat) : Nat :=
  match t with
  | .e4m3 => signBit t neg + 0x7F
  | .e2m1 => 0
  | _ =>
    let a := (fmtOf src).fb
    let b := (fmtOf t).fb
    let fr := if a ≤ b then frac * 2 ^ (b - a) else frac / 2 ^ (a - b)
    signBit t neg + infBits t + (fr ||| 2 ^ (b - 1))

/-- R207: the pattern `x` quieted, in its own type. -/
def quieted (t : EType) (x : Nat) : Nat :=
  match fval t x with
  | .nan neg fr _ => nanInto t t neg fr
  | _ => x

/-- R207: the first NaN among sources, delivered in `t`. -/
def firstNan (t : EType) : List (EType × Nat) → Option Nat
  | [] => none
  | (src, x) :: l =>
    match fval src x with
    | .nan neg fr _ => some (nanInto src t neg fr)
    | _ => firstNan t l

def anySnan (l : List (EType × Nat)) : Bool := l.any fun p => (fval p.1 p.2).isSnan

/-- A signed dyadic. -/
structure Dy where
  neg : Bool
  m : Nat
  e : Int
  deriving DecidableEq, Repr

def Dy.mul (a b : Dy) : Dy := ⟨a.neg != b.neg, a.m * b.m, a.e + b.e⟩
def Dy.flip (a : Dy) : Dy := { a with neg := !a.neg }

/-- The integer that `a` is at scale 2^e, for `e` at or below its own exponent. -/
def Dy.at (a : Dy) (e : Int) : Int :=
  let v : Int := (a.m * 2 ^ (a.e - e).toNat : Nat)
  if a.neg then -v else v

/-- The least exponent among the non-zero terms, or 0. -/
def Dy.low : List Dy → Int
  | [] => 0
  | [a] => a.e
  | a :: l => min a.e (Dy.low l)

/-- R210, R213: the exact sum of terms: its sign, magnitude and exponent. An exact zero takes the sign of R213. -/
def Dy.sum (mode : RMode) (l : List Dy) : Dy :=
  let e := Dy.low l
  let s := l.foldl (fun acc a => acc + a.at e) (0 : Int)
  if s = 0 then
    let neg := if l.all fun a => a.neg && a.m == 0 then true
               else if l.all fun a => !a.neg && a.m == 0 then false
               else decide (mode = .rdn)
    ⟨neg, 0, 0⟩
  else ⟨decide (s < 0), s.natAbs, e⟩

/-- A term of a sum of products: a NaN, an infinity, or a dyadic. -/
inductive Term where
  | nan
  | inf (neg : Bool)
  | fin (d : Dy)
  deriving DecidableEq, Repr

def termOf : FVal → Term
  | .nan .. => .nan
  | .inf n => .inf n
  | .fin n m e => .fin ⟨n, m, e⟩

/-- A product of two values; 0 × ∞ is a NaN (R203, R212). -/
def termMul (a b : FVal) : Term :=
  match a, b with
  | .nan .., _ => .nan
  | _, .nan .. => .nan
  | .inf n, y => if y.isZero then .nan else .inf (n != y.neg)
  | x, .inf n => if x.isZero then .nan else .inf (x.neg != n)
  | .fin n m e, .fin n' m' e' => .fin (Dy.mul ⟨n, m, e⟩ ⟨n', m', e'⟩)

def Term.flip : Term → Term
  | .nan => .nan
  | .inf n => .inf (!n)
  | .fin d => .fin d.flip

/-- R212: the exact sum of terms: none for a NaN (a NaN term, or infinities of both signs). -/
def termSum (mode : RMode) (l : List Term) : Option Term :=
  if l.any (fun t => t == .nan) then none
  else if l.contains (.inf true) && l.contains (.inf false) then none
  else if l.contains (.inf true) then some (.inf true)
  else if l.contains (.inf false) then some (.inf false)
  else some (.fin (Dy.sum mode (l.filterMap fun t => match t with | .fin d => some d | _ => none)))

/-- R210, R247: one sum rounded once. `srcs` lists the NaN sources in order, `terms` the exact terms. A NaN among the
terms that no source explains is an invalid operation; one that a quiet NaN explains is not, whatever infinities stand beside it (log 132). -/
def sumRounded (t : EType) (mode : RMode) (teuf : Bool) (srcs : List (EType × Nat)) (terms : List Term)
    (invalid : Bool) : FRes :=
  let nv := flIf (invalid || anySnan srcs) flNV
  match firstNan t srcs with
  | some x => (x, nv)
  | none =>
    match termSum mode terms with
    | none => (defaultNaN t, flNV)
    | some (.inf n) => (signBit t n + infBits t, nv)
    | some (.fin d) => roundDy t mode false teuf d.neg d.m d.e
    | some .nan => (defaultNaN t, flNV)

/-- 0 × ∞ in either order. -/
def zeroTimesInf (a b : FVal) : Bool :=
  match a, b with
  | .inf _, y => y.isZero
  | x, .inf _ => x.isZero
  | _, _ => false

/-- R249. -/
def fpAdd (t : EType) (mode : RMode) (teuf : Bool) (a b : Nat) : FRes :=
  sumRounded t mode teuf [(t, a), (t, b)] [termOf (fval t a), termOf (fval t b)] false

/-- R249. -/
def fpSub (t : EType) (mode : RMode) (teuf : Bool) (a b : Nat) : FRes :=
  sumRounded t mode teuf [(t, a), (t, b)] [termOf (fval t a), (termOf (fval t b)).flip] false

/-- R249. -/
def fpMul (t : EType) (mode : RMode) (teuf : Bool) (a b : Nat) : FRes :=
  let x := fval t a
  let y := fval t b
  sumRounded t mode teuf [(t, a), (t, b)] [termMul x y] (zeroTimesInf x y)

/-- R250: (±a × b) + (±d), rounded once. 0 × ∞ and ∞ − ∞ raise NV even beside a quiet NaN d only in the first case. -/
def fpFma (t : EType) (mode : RMode) (teuf negP negD : Bool) (a b d : Nat) : FRes :=
  let x := fval t a
  let y := fval t b
  let p := termMul x y
  let q := termOf (fval t d)
  sumRounded t mode teuf [(t, a), (t, b), (t, d)]
    [if negP then p.flip else p, if negD then q.flip else q] (zeroTimesInf x y)

/-- R251. -/
def fpDiv (t : EType) (mode : RMode) (teuf : Bool) (a b : Nat) : FRes :=
  let x := fval t a
  let y := fval t b
  match firstNan t [(t, a), (t, b)] with
  | some n => (n, flIf (x.isSnan || y.isSnan) flNV)
  | none =>
    let s := x.neg != y.neg
    match x, y with
    | .inf _, .inf _ => (defaultNaN t, flNV)
    | .inf _, _ => (signBit t s + infBits t, 0)
    | _, .inf _ => (signBit t s, 0)
    | .fin _ m e, .fin _ m' e' =>
      if m' = 0 then (if m = 0 then (defaultNaN t, flNV) else (signBit t s + infBits t, flDZ))
      else if m = 0 then (signBit t s, 0)
      else
        let k := (fmtOf t).fb + 4 + bitLen m'
        let n := m * 2 ^ k
        roundFin t mode false teuf s (n / m') (e - e' - k) (n % m' ≠ 0)
    | _, _ => (defaultNaN t, flNV)

/-- The integer square root, bit by bit from bit `i − 1` down. -/
def isqrtFrom (n : Nat) : Nat → Nat → Nat
  | 0, r => r
  | i + 1, r => if (r + 2 ^ i) * (r + 2 ^ i) ≤ n then isqrtFrom n i (r + 2 ^ i) else isqrtFrom n i r

/-- The integer square root, rounded down. -/
def isqrt (n : Nat) : Nat := isqrtFrom n (bitLen n / 2 + 1) 0

/-- R251. -/
def fpSqrt (t : EType) (mode : RMode) (teuf : Bool) (a : Nat) : FRes :=
  match fval t a with
  | .nan neg fr s => (nanInto t t neg fr, flIf s flNV)
  | .inf neg => if neg then (defaultNaN t, flNV) else (infBits t, 0)
  | .fin neg m e =>
    if m = 0 then (signBit t neg, 0)
    else if neg then (defaultNaN t, flNV)
    else
      let k := 2 * ((fmtOf t).fb + 4) + (e % 2).toNat
      let n := m * 2 ^ k
      let r := isqrt n
      roundFin t mode false teuf false r ((e - k) / 2) (r * r ≠ n)

/-- R251. -/
def fpRcp (t : EType) (mode : RMode) (teuf : Bool) (a : Nat) : FRes :=
  match fval t a with
  | .nan neg fr s => (nanInto t t neg fr, flIf s flNV)
  | _ => fpDiv t mode teuf ((fmtOf t).bias * 2 ^ (fmtOf t).fb) a

/-- R251: the exact result where it is representable, else one of the two adjacent values (log 5). -/
def fpRsq (t : EType) (a : Nat) : FRes :=
  match fval t a with
  | .nan neg fr s => (nanInto t t neg fr, flIf s flNV)
  | .inf neg => if neg then (defaultNaN t, flNV) else (0, 0)
  | .fin neg m e =>
    if m = 0 then (signBit t neg + infBits t, flDZ)
    else if neg then (defaultNaN t, flNV)
    else
      let m1 := m * 2 ^ (e % 2).toNat
      let h := (e - e % 2) / 2
      let n := (fmtOf t).fb + 4 + bitLen m1
      let q := 2 ^ (2 * n) / m1
      let r := isqrt q
      let exact := decide (r * r * m1 = 2 ^ (2 * n))
      let up := Config.frsqUpper t a
      ((roundFin t (if up then .rup else .rdn) false false false r (-h - n) (!exact)).1, flIf (!exact) flNX)

/-- The key that orders the numbers of a type: −0 below +0 (R252). -/
def ordKey (t : EType) (x : Nat) : Int :=
  let w := widthOf t
  let mag : Int := (x % 2 ^ (w - 1) : Nat)
  if x.testBit (w - 1) then -mag - 1 else mag

/-- R252. `number` says minimumNumber or maximumNumber, `big` says maximum. -/
def fpMinMax (t : EType) (number big : Bool) (a b : Nat) : FRes :=
  let x := fval t a
  let y := fval t b
  let nv := flIf (x.isSnan || y.isSnan) flNV
  if x.isNan && y.isNan then (quieted t a, nv)
  else if x.isNan then (if number then b else quieted t a, nv)
  else if y.isNan then (if number then a else quieted t b, nv)
  else
    let lt := decide (ordKey t a < ordKey t b)
    (if lt != big then a else b, nv)

/-- R254: −1, 0 or 1 for two numbers; none with a NaN. −0 equals +0. -/
def fpCompare (t : EType) (a b : Nat) : Option Int :=
  let x := fval t a
  let y := fval t b
  if x.isNan || y.isNan then none
  else if x.isZero && y.isZero then some 0
  else
    let d := ordKey t a - ordKey t b
    some (if d < 0 then -1 else if d = 0 then 0 else 1)

/-- R255. -/
def fpClass (t : EType) (a : Nat) : Nat :=
  match fval t a with
  | .nan _ _ s => if s then 0x100 else 0x200
  | .inf neg => if neg then 0x001 else 0x080
  | .fin neg m e =>
    if m = 0 then (if neg then 0x008 else 0x010)
    else if (bitLen m : Int) - 1 + e < (fmtOf t).enorm then (if neg then 0x004 else 0x020)
    else (if neg then 0x002 else 0x040)

/-- R256: FRND. -/
def fpRnd (t : EType) (mode : RMode) (a : Nat) : FRes :=
  match fval t a with
  | .nan neg fr s => (nanInto t t neg fr, flIf s flNV)
  | .inf _ => (a, 0)
  | .fin neg m e =>
    if m = 0 ∨ 0 ≤ e then (a, 0)
    else
      let (q, _) := roundAt mode neg m e false 0
      (signBit t neg + encodeFin t q 0, 0)

/-- R256: FSCALE. Beyond ±8192 every non-zero value of every type overflows or vanishes alike, so n is clamped there. -/
def fpScale (t : EType) (mode : RMode) (teuf : Bool) (a : Nat) (n : Int) : FRes :=
  match fval t a with
  | .nan neg fr s => (nanInto t t neg fr, flIf s flNV)
  | .inf _ => (a, 0)
  | .fin neg m e => if m = 0 then (a, 0) else roundFin t mode false teuf neg m (e + max (-8192) (min 8192 n)) false

/-- R256: FGEXP. -/
def fpGexp (t : EType) (a : Nat) : FRes :=
  match fval t a with
  | .nan neg fr s => (nanInto t t neg fr, flIf s flNV)
  | .inf _ => (infBits t, 0)
  | .fin _ m e =>
    if m = 0 then (signBit t true + infBits t, flDZ)
    else
      let k := (bitLen m : Int) - 1 + e
      ((roundDy t .rne false false (decide (k < 0)) k.natAbs 0).1, 0)

/-- R256: FGMANT. -/
def fpGmant (t : EType) (a : Nat) : FRes :=
  match fval t a with
  | .nan neg fr s => (nanInto t t neg fr, flIf s flNV)
  | .inf _ => (a, 0)
  | .fin neg m _ =>
    if m = 0 then (a, 0) else ((roundDy t .rne false false neg m (1 - (bitLen m : Int))).1, 0)

/-- R208: an integer converted to a floating type. -/
def intToFp (t : EType) (mode : RMode) (sat teuf : Bool) (v : Int) : FRes :=
  roundDy t mode sat teuf (decide (v < 0)) v.natAbs 0

/-- R208: floating to integer. -/
def fpToInt (src dst : EType) (mode : RMode) (a : Nat) : FRes :=
  match fval src a with
  | .nan .. => (0, flNV)
  | .inf neg => (wrapT dst (if neg then minOf dst else maxOf dst), flNV)
  | .fin neg m e =>
    let (q, inexact) := roundAt mode neg m e false 0
    let y : Int := if neg then -(q : Int) else q
    if y < minOf dst then (wrapT dst (minOf dst), flNV)
    else if maxOf dst < y then (wrapT dst (maxOf dst), flNV)
    else (wrapT dst y, flIf inexact flNX)

/-- R208, R258: every value of the first type is one of the second. -/
def holdsAll (src dst : EType) : Bool :=
  let a := fmtOf src
  let b := fmtOf dst
  decide (a.fb ≤ b.fb) && decide (b.emin ≤ a.emin) && decide (a.bias ≤ b.bias)

/-- R203, R208, R209, R258: floating to floating, the types differing. A narrow source that the destination holds raises no flag; any other
tiny result raises UF while TEUF is set. -/
def fpToFp (src dst : EType) (mode : RMode) (sat teuf : Bool) (a : Nat) : FRes :=
  match fval src a with
  | .nan neg fr s => (nanInto src dst neg fr, flIf (s || decide (dst = .e2m1)) flNV)
  | .inf neg =>
    match dst with
    | .e4m3 => if sat then (signBit dst neg + maxFinite dst, flOF ||| flNX) else (signBit dst neg + 0x7F, flNV)
    | .e2m1 => (signBit dst neg + maxFinite dst, flOF ||| flNX)
    | _ => if dst = .e5m2 ∧ sat then (signBit dst neg + maxFinite dst, flOF ||| flNX)
           else (signBit dst neg + infBits dst, 0)
  | .fin neg m e => roundDy dst mode sat (teuf && !(decide (widthOf src ≤ 8) && holdsAll src dst)) neg m e

/-- R208, R209, R258: the one conversion function. -/
def cvtVal (src dst : EType) (mode : RMode) (sat teuf : Bool) (a : Nat) : FRes :=
  if isInt src then
    if isInt dst then
      (if widthOf src ≤ widthOf dst ∨ sat = false then wrapT dst (valOf src a) else satT dst (valOf src a), 0)
    else intToFp dst mode sat teuf (valOf src a)
  else if isInt dst then fpToInt src dst mode a
  else if src = dst then (quieted src a, flIf (fval src a).isSnan flNV)
  else fpToFp src dst mode sat teuf a

/-- R16: one in a type. -/
def oneOf (t : EType) : Nat := if isInt t then 1 else (fmtOf t).bias * 2 ^ (fmtOf t).fb

/-- R16: the thread index in a type, converted with the clause's rounding under a floating type. In a type that does not hold every index it is
rounded, in i4 reduced modulo 16, and the conversion of the operand raises no flag (R258; log 140, DESIGN CHOICE). -/
def tidOf (t : EType) (mode : RMode) (i : Nat) : Nat :=
  if isInt t then i % 2 ^ widthOf t else (intToFp t mode false false i).1

end Sys2Proof.Machine
end

