-- ==== Sys2Proof/Machine/Transc.lean ====
section
/-!
DEFINITION. FEX2, FLG2, FSIN and FCOS (R257). The exact result y is irrational outside the exact cases. It is enclosed
between two dyadics by integer series; the delivered value is one of those within the bound, by a free choice that is a
fixed function of instruction, type and operand (log 6).
-/

namespace Sys2Proof.Machine

/-- Working precision: fixed-point values are integers at scale 2^-workBits. -/
def workBits : Nat := 400

/-- Taylor terms of e^x for 0 ≤ x < 1, x at scale 2^-workBits: the sum from term `k` on, `term` being the last one. -/
def expSeries (x : Nat) : Nat → Nat → Nat → Nat
  | 0, _, _ => 0
  | n + 1, k, term =>
    let next := term * x / 2 ^ workBits / k
    next + expSeries x n (k + 1) next

/-- e^x at scale 2^-workBits, below by less than 2^9 units. -/
def expFix (x : Nat) : Nat := 2 ^ workBits + expSeries x 100 1 (2 ^ workBits)

/-- The odd series z + z^3/3 + … (`alt` false) or z − z^3/3 + … (`alt` true), z at scale 2^-p, `zz` its square. -/
def oddSeries (p : Nat) (alt : Bool) (zz : Nat) : Nat → Nat → Nat → Int
  | 0, _, _ => 0
  | n + 1, k, pow =>
    let rest := oddSeries p alt zz n (k + 2) (pow * zz / 2 ^ p)
    (pow / k : Nat) + (if alt then -rest else rest)

/-- ln m for 1 ≤ m < 2, m at scale 2^-workBits: 2 artanh ((m − 1) / (m + 1)), within 2^9 units. -/
def lnFix (m : Nat) : Nat :=
  let z := (m - 2 ^ workBits) * 2 ^ workBits / (m + 2 ^ workBits)
  (2 * oddSeries workBits false (z * z / 2 ^ workBits) 140 1 z).toNat

/-- ln 2, within 2^9 units. -/
def ln2Fix : Nat :=
  let z := 2 ^ workBits / 3
  (2 * oddSeries workBits false (z * z / 2 ^ workBits) 140 1 z).toNat

/-- Bits of π that the reduction of the largest f64 argument needs. -/
def piBits : Nat := 1600

/-- π at scale 2^-piBits, within 2^14 units: 16 arctan (1/5) − 4 arctan (1/239). -/
def piFix : Nat :=
  let a := 2 ^ piBits / 5
  let b := 2 ^ piBits / 239
  (16 * oddSeries piBits true (a * a / 2 ^ piBits) 360 1 a - 4 * oddSeries piBits true (b * b / 2 ^ piBits) 110 1 b).toNat

/-- sin (`k` from 2) or cos (`k` from 1) by its alternating series, x at scale 2^-workBits: the sum from `term` on. -/
def trigSeries (xx : Nat) : Nat → Nat → Nat → Int
  | 0, _, _ => 0
  | n + 1, k, term => (term : Int) - trigSeries xx n (k + 2) (term * xx / 2 ^ workBits / (k * (k + 1)))

/-- An enclosure lo × 2^e < |y| < hi × 2^e of the magnitude of a result, with its sign. -/
structure Encl where
  neg : Bool
  lo : Nat
  hi : Nat
  e : Int
  deriving DecidableEq, Repr

/-- The enclosure of a fixed-point magnitude that is off by less than 2^20 units. -/
def Encl.ofFix (neg : Bool) (x : Nat) : Encl := ⟨neg, x - 2 ^ 20, x + 2 ^ 20, -(workBits : Int)⟩

/-- Floor of m × 2^e at scale 2^-workBits. -/
def fixOf (m : Nat) (e : Int) : Nat :=
  let s := e + workBits
  if 0 ≤ s then m * 2 ^ s.toNat else m / 2 ^ (-s).toNat

/-- 2^a for a = ±m × 2^e, not an integer, |a| < 4096. -/
def encloseExp2 (neg : Bool) (m : Nat) (e : Int) : Encl :=
  if (bitLen m : Int) + e < -200 then
    (if neg then ⟨false, 2 ^ workBits - 2 ^ 201, 2 ^ workBits, -(workBits : Int)⟩
     else ⟨false, 2 ^ workBits, 2 ^ workBits + 2 ^ 201, -(workBits : Int)⟩)
  else
    let x := fixOf m e
    let a : Int := if neg then -(x : Int) else x
    let k := a / (2 ^ workBits : Nat)
    let f := (a % (2 ^ workBits : Nat)).toNat
    let r := Encl.ofFix false (expFix (f * ln2Fix / 2 ^ workBits))
    { r with e := r.e + k }

/-- log2 of m × 2^e, not a power of two. -/
def encloseLog2 (m : Nat) (e : Int) : Encl :=
  let k : Int := (bitLen m : Int) - 1 + e
  let mant := fixOf m (1 - (bitLen m : Int))
  let y : Int := k * (2 ^ workBits : Nat) + ((lnFix mant * 2 ^ workBits / ln2Fix : Nat) : Int)
  Encl.ofFix (decide (y < 0)) y.natAbs

/-- sin (`cosine` false) or cos of ±m × 2^e, m ≠ 0. -/
def encloseTrig (cosine neg : Bool) (m : Nat) (e : Int) : Encl :=
  if (bitLen m : Int) + e < -100 then
    (if cosine then ⟨false, 2 ^ workBits - 2 ^ 201, 2 ^ workBits, -(workBits : Int)⟩
     else ⟨neg, m * 2 ^ 100 - m, m * 2 ^ 100, e - 100⟩)
  else
    let s := e + piBits
    let x := if 0 ≤ s then m * 2 ^ s.toNat else m / 2 ^ (-s).toNat
    let half := piFix / 2
    let q := (2 * x + half) / (2 * half)
    let r : Int := (x : Int) - (q * half : Nat)
    let rn := decide (r < 0)
    let v := r.natAbs / 2 ^ (piBits - workBits)
    let vv := v * v / 2 ^ workBits
    let sinV := (trigSeries vv 60 2 v).toNat
    let cosV := (trigSeries vv 60 1 (2 ^ workBits)).toNat
    let quad := (q + if cosine then 1 else 0) % 4
    let useCos := quad % 2 = 1
    let base := if useCos then false else rn
    let flip := decide (2 ≤ quad)
    let odd := if cosine then false else neg
    Encl.ofFix ((base != flip) != odd) (if useCos then cosV else sinV)

/-- The patterns of one sign, consecutive from `lo` to `hi`. -/
def patterns (lo hi : Nat) : List Nat := (List.range (hi + 1 - lo)).map (lo + ·)

/-- The magnitudes of the type within `bound` units of the enclosed result: `a` and `b` bracket it; a pattern further out
stands only if its distance may be within the bound. -/
def candidates (t : EType) (bound : Nat) (y : Encl) : List Nat :=
  let f := fmtOf t
  let le : Int := max ((bitLen y.lo : Int) + y.e - (f.fb + 1)) f.emin
  let (qa, _) := roundAt .rtz false y.lo y.e false le
  let (qb, _) := roundAt .rup false y.hi y.e false le
  let a := encodeFin t qa le
  let b := encodeFin t qb le
  let ulp : Dy := ⟨false, bound, le⟩
  (patterns (a - 2 * bound) (b + 2 * bound)).filter fun x =>
    decide (x ≤ maxFinite t) &&
    match fval t x with
    | .fin _ m e =>
      decide (a ≤ x ∧ x ≤ b) ||
      (let z := min (min le e) y.e
       let r := Dy.at ⟨false, m, e⟩ z
       let u := ulp.at z
       let lo := Dy.at ⟨false, y.lo, y.e⟩ z
       let hi := Dy.at ⟨false, y.hi, y.e⟩ z
       decide (lo < r + u) && decide (r < hi + u))
    | _ => false

/-- R203, R257: the exact result is tiny: rounded to the type's precision, to nearest (log 87), it lies below the smallest normal. -/
def Encl.tiny (t : EType) (y : Encl) : Bool :=
  let f := fmtOf t
  let free : Int := bitLen y.lo + y.e - (f.fb + 1)
  let (q, _) := roundAt .rne false y.lo y.e true free
  decide ((bitLen q : Int) + free - 1 < f.enorm)

/-- R257: the value delivered, and its flags. It has the sign of the exact value (log 133). -/
def deliver (fn : Nat) (t : EType) (bound a : Nat) (y : Encl) : FRes :=
  let cs := candidates t bound y
  let r := cs.getD (Config.transcChoice fn t a % cs.length) 0
  (signBit t y.neg + r, flNX ||| flIf (y.tiny t) flUF)

/-- R257: a result that lies below the smallest subnormal by more than the bound allows; the model draws the line at half of it
(log 87). -/
def farBelow : FRes := (0, flUF ||| flNX)

/-- The exponent of the largest binade. -/
def emaxOf (t : EType) : Int := (fmtOf t).bias

/-- R257: FEX2. -/
def fpEx2 (t : EType) (a : Nat) : FRes :=
  match fval t a with
  | .nan neg fr s => (nanInto t t neg fr, flIf s flNV)
  | .inf neg => (if neg then 0 else infBits t, 0)
  | .fin neg m e =>
    if m = 0 then (oneOf t, 0)
    else if 13 < (bitLen m : Int) + e then
      (if neg then farBelow else (infBits t, flOF ||| flNX))
    else
      let whole := if 0 ≤ e then true else decide (m % 2 ^ (-e).toNat = 0)
      let n : Int := if 0 ≤ e then (m * 2 ^ e.toNat : Nat) else (m / 2 ^ (-e).toNat : Nat)
      if !neg && decide (emaxOf t < n) then (infBits t, flOF ||| flNX)
      else if whole then
        let k := if neg then -n else n
        if k < (fmtOf t).emin then farBelow
        else (encodeFin t 1 (max k (fmtOf t).emin), 0)
      else if neg && decide (-n < (fmtOf t).emin) then farBelow
      else deliver 0 t 1 a (encloseExp2 neg m e)

/-- R257: FLG2. -/
def fpLg2 (t : EType) (a : Nat) : FRes :=
  match fval t a with
  | .nan neg fr s => (nanInto t t neg fr, flIf s flNV)
  | .inf neg => if neg then (defaultNaN t, flNV) else (infBits t, 0)
  | .fin neg m e =>
    if m = 0 then (signBit t true + infBits t, flDZ)
    else if neg then (defaultNaN t, flNV)
    else if m = 2 ^ (bitLen m - 1) then
      let k := (bitLen m : Int) - 1 + e
      ((roundDy t .rne false false (decide (k < 0)) k.natAbs 0).1, 0)
    else deliver 1 t 1 a (encloseLog2 m e)

/-- R257: the bound of FSIN and FCOS. -/
def trigBound (t : EType) : Nat := if widthOf t = 16 then 1 else 2

/-- R257: FSIN. -/
def fpSin (t : EType) (a : Nat) : FRes :=
  match fval t a with
  | .nan neg fr s => (nanInto t t neg fr, flIf s flNV)
  | .inf _ => (defaultNaN t, flNV)
  | .fin neg m e => if m = 0 then (a, 0) else deliver 2 t (trigBound t) a (encloseTrig false neg m e)

/-- R257: FCOS. -/
def fpCos (t : EType) (a : Nat) : FRes :=
  match fval t a with
  | .nan neg fr s => (nanInto t t neg fr, flIf s flNV)
  | .inf _ => (defaultNaN t, flNV)
  | .fin neg m e => if m = 0 then (oneOf t, 0) else deliver 3 t (trigBound t) a (encloseTrig true neg m e)

end Sys2Proof.Machine
end

