-- ==== Sys2Proof/Machine/Ops.lean ====
section
/-!
DEFINITION. The named operations over State: contexts, gangs and nibs (R171 to R180), the issuing gang and its clause,
holds, the end of a launch (R302), taking a trap (R354) and returning from it (R355), barriers (R282 to R286), region
snapshots (R180), and the counters of the engine classes (R118, R132).
-/

namespace Sys2Proof.Machine

abbrev Out := Host.Outcome State Fault Refusal

def State.group (s : State) (g : Nat) : Option Group := KMap.get s.groups g
def State.setGroup (s : State) (g : Nat) (x : Group) : State := { s with groups := KMap.put s.groups g x }
def State.modGroup (s : State) (g : Nat) (f : Group → Group) : State := { s with groups := KMap.adjust s.groups g f }
def State.func (s : State) (f : Nat) : Func := KMap.getD s.funcs f (Func.reset f)
def State.modFunc (s : State) (f : Nat) (g : Func → Func) : State := { s with funcs := KMap.put s.funcs f (g (s.func f)) }
def State.cluster (s : State) (c : Nat) : Cluster := KMap.getD s.clusters c Cluster.reset
def State.modCluster (s : State) (c : Nat) (g : Cluster → Cluster) : State :=
  { s with clusters := KMap.put s.clusters c (g (s.cluster c)) }
def State.coreReg (s : State) (c : Nat) : CoreReg := KMap.getD s.cores c CoreReg.reset
def State.modCoreReg (s : State) (c : Nat) (g : CoreReg → CoreReg) : State :=
  { s with cores := KMap.put s.cores c (g (s.coreReg c)) }
def State.port (s : State) (p : Nat) : Port := KMap.getD s.ports p Port.reset
def State.modPort (s : State) (p : Nat) (g : Port → Port) : State := { s with ports := KMap.put s.ports p (g (s.port p)) }
def State.keySlot (s : State) (k : Nat) : KeySlot := KMap.getD s.keys k KeySlot.reset
def Func.queue (f : Func) (q : Nat) : Queue := KMap.getD f.queues q Queue.reset
def State.queue (s : State) (f q : Nat) : Queue := (s.func f).queue q
def State.modQueue (s : State) (f q : Nat) (g : Queue → Queue) : State :=
  s.modFunc f fun x => { x with queues := KMap.put x.queues q (g (x.queue q)) }
def Func.task (f : Func) (n : Nat) : Task := KMap.getD f.tasks n Task.reset
def State.modTask (s : State) (f n : Nat) (g : Task → Task) : State :=
  s.modFunc f fun x => { x with tasks := KMap.put x.tasks n (g (x.task n)) }
def State.launchOf (s : State) (g : Group) : Option Launch := KMap.get s.launches g.launch
def State.teamOf (s : State) (g : Group) : Option Team := KMap.get s.teams g.team
def State.modLaunch (s : State) (l : Nat) (f : Launch → Launch) : State := { s with launches := KMap.adjust s.launches l f }
def State.modTeam (s : State) (t : Nat) (f : Team → Team) : State := { s with teams := KMap.adjust s.teams t f }
def State.modOp (s : State) (o : Nat) (f : EngOp → EngOp) : State := { s with ops := KMap.adjust s.ops o f }
def State.modReq (s : State) (q : Nat) (f : Req → Req) : State := { s with reqs := KMap.adjust s.reqs q f }

/-- R369: the function of a context's launch. -/
def State.fnOf (s : State) (g : Group) : Nat := match s.launchOf g with | some l => l.fn | none => 0
/-- R369: privilege is the launch's. -/
def State.privileged (s : State) (g : Group) : Bool := match s.launchOf g with | some l => l.privileged | none => false
/-- R317, R322: the launch is predicted and not yet promoted or cut over. -/
def State.speculative (s : State) (g : Group) : Bool :=
  match s.launchOf g with
  | some l => (match l.pred with | some p => !p.promoted | none => false)
  | none => false

/-! ### Nibs and gangs -/

/-- R339: the issuer number of a context; a quill context's sub-core number is 8. -/
def Group.issuer (g : Group) : Nat := 12 * g.core + g.sub

/-- R171: a nib whose threads were never launched. -/
def Nib.dead : Nib := ⟨false, 0, [], 0⟩

def Group.nib (g : Group) (n : Nat) : Nib := g.nibs.getD n Nib.dead
def Group.modNib (g : Group) (n : Nat) (f : Nib → Nib) : Group := { g with nibs := listModify f g.nibs n }

/-- R172: the live threads of a nib. -/
def Nib.liveMask (n : Nib) : BitVec 16 :=
  n.stack.foldl (fun m e => match e.kind with | .x => m | .p => m ||| e.mask | .w => m ||| e.mask) n.mask

/-- R172: some live thread is not active. -/
def Nib.masked (n : Nib) : Bool := n.liveMask != n.mask

/-- Nib n's 16 bits at their place among 64 threads (R169). -/
def nibBits (n : Nat) (m : BitVec 16) : BitVec 64 := (m.setWidth 64) <<< (16 * n)

/-- Nib n's part of a 64-thread mask. -/
def nibPart (n : Nat) (m : BitVec 64) : BitVec 16 := (m >>> (16 * n)).setWidth 16

/-- R34: the active threads of every nib of a gang. -/
def Group.active (g : Group) (k : Gang) : BitVec 64 :=
  k.nibs.foldl (fun m n => m ||| nibBits n (g.nib n).mask) 0

/-- R172: the live threads of a group. Inside a handler the threads that are masked in the saved stacks of the trapping nibs do not count, so that
a shuffle reads 0 from them (R238; log 138, DESIGN CHOICE). -/
def Group.liveAll (g : Group) : BitVec 64 :=
  (List.range 4).foldl (fun m n => m ||| nibBits n (g.nib n).liveMask) 0

/-- A gang's name: its lowest-numbered nib. -/
def Gang.id (k : Gang) : Nat := k.nibs.headD 0

/-- The nibs of a gang in ascending order. -/
def Gang.eachNib (k : Gang) : List Nat := (List.range 4).filter k.nibs.contains

def Group.gang (g : Group) (n : Nat) : Option Gang := g.gangs.find? fun k => k.id == n

def Group.modGang (g : Group) (n : Nat) (f : Gang → Gang) : Group :=
  { g with gangs := g.gangs.map fun k => if k.id = n then f k else k }

def Group.dropGang (g : Group) (n : Nat) : Group := { g with gangs := g.gangs.filter fun k => k.id ≠ n }

/-- The gangs with `k` among them, in the order of their lowest nibs; a gang of no nib is none. -/
def Group.addGang (g : Group) (k : Gang) : Group :=
  if k.nibs = [] then g else { g with gangs := insertBy Gang.id k g.gangs }

/-! ### The issuing gang -/

/-- The gang that executes, its context and its clause. -/
structure Iss where
  gid : Nat
  g : Group
  gang : Gang
  cl : ClauseBuf

/-- The issuing gang that the state names, if it exists and executes a clause. -/
def State.issuer (s : State) : Option Iss :=
  match s.cur with
  | none => none
  | some c =>
    match s.group c.gid with
    | none => none
    | some g =>
      match g.gang c.gang with
      | none => none
      | some k =>
        match k.clause with
        | none => none
        | some cl => some ⟨c.gid, g, k, cl⟩

/-- R15: the address of the instruction's word. -/
def Iss.pc (i : Iss) : DWord := i.cl.addr + dword (4 * (1 + i.cl.cur))
/-- The address of the header that follows the clause (R233). -/
def ClauseBuf.after (c : ClauseBuf) : DWord := c.addr + dword (4 * (bitsOf c.hdr.toNat 11 9 + 2))

def Iss.fm (i : Iss) : Nat := i.cl.form.toNat
/-- R28: the form's element type. -/
def Iss.ty (i : Iss) : EType := etypeOf (bitsOf i.fm 8 5)
def Iss.sat (i : Iss) : Bool := i.fm.testBit 12
def Iss.space (i : Iss) : Nat := bitsOf i.fm 14 13
/-- R30: the rounding mode. -/
def Iss.mode (i : Iss) : RMode :=
  let r := bitsOf i.fm 11 9
  if r = 0 then rmodeOf (bitsOf i.g.actl.toNat 2 0) else rmodeOf r
/-- R201: the trap enables, in XFLG's bit order. -/
def Iss.enables (i : Iss) : Flags := BitVec.ofNat 5 (bitsOf i.g.actl.toNat 8 4)
/-- R203: TEUF. -/
def Iss.teuf (i : Iss) : Bool := i.g.actl.toNat.testBit 7

/-- A predicate register, bit t for thread t; missing reads 0 (R228). -/
def Group.pred (g : Group) (n : Nat) : BitVec 64 := KMap.getD g.p n 0

/-- R31: g(t) for every thread. -/
def Iss.guard (i : Iss) : BitVec 64 :=
  let gu := bitsOf i.fm 3 0
  if gu < 8 then i.g.pred gu ^^^ (if i.fm.testBit 4 then BitVec.allOnes 64 else 0) else BitVec.allOnes 64

/-- R34: the active threads of the issuing gang. -/
def Iss.active (i : Iss) : BitVec 64 := i.g.active i.gang
/-- R31, R238: active and passing the guard. -/
def Iss.run (i : Iss) : BitVec 64 := i.active &&& i.guard

/-- Changes the issuing gang. -/
def State.modGang (s : State) (i : Iss) (f : Gang → Gang) : State := s.modGroup i.gid fun g => g.modGang i.gang.id f
/-- Changes the issuing context. -/
def State.modIss (s : State) (i : Iss) (f : Group → Group) : State := s.modGroup i.gid f

/-- The gang stays at its instruction, which holds it. While that instruction is issued again the gang still has this hold, but the place in its
clause has moved on. -/
def Gang.waits (k : Gang) : Bool := k.hold == .retry && k.clause.any fun c => c.next == c.cur

/-- The gang stays at its instruction, which is issued again when step judges it. -/
def State.retry (s : State) (i : Iss) : State :=
  s.modGang i fun k => { k with hold := .retry, clause := k.clause.map fun c => { c with next := c.cur } }

/-- R23, R125: the ISSUE of the gang's instruction is not enabled. The gang stays at it, and a clause of which it is the first instruction has
not read its form yet. -/
def State.unissued (s : State) (i : Iss) : State :=
  s.modGang i fun k =>
    { k with hold := .retry, clause := k.clause.map fun c => { c with next := c.cur, formed := c.formed && c.cur != 0 } }

/-- R319: the gang stalls at its instruction, with no effect; it keeps the form that it has read (log 144, DEDUCED). `p` numbers the point in the
table of R319. -/
def State.stall (s : State) (i : Iss) (p : Nat) : State :=
  s.modGang i fun k => { k with hold := .stall p, clause := k.clause.map fun c => { c with next := c.cur } }

/-- The gang continues at an address: its clause is over. -/
def State.goTo (s : State) (i : Iss) (a : DWord) : State := s.modGang i fun k => { k with pc := a, clause := none }

/-! ### Region snapshots (R25, R180) -/

def Group.snapNib (g : Group) (pc : DWord) (n : Nat) : SnapNib := ⟨n, pc, pc, (g.nib n).mask, (g.nib n).stack⟩

/-- The snapshots that some gang still uses; the handler save area keeps a copy of its own. -/
def Group.gcSnaps (g : Group) : Group :=
  { g with snaps := g.snaps.filter fun p => g.gangs.any fun k => k.snap == p.id }

/-- R180: a region opens for gang `n` at `entry`. -/
def Group.openRegion (g : Group) (n : Nat) (entry : DWord) : Group :=
  match g.gang n with
  | none => g
  | some k =>
    let p : Snapshot := ⟨g.nextSnap, entry, k.nibs.map (g.snapNib entry)⟩
    ({ g with snaps := g.snaps ++ [p], nextSnap := g.nextSnap + 1 }.modGang n fun k => { k with snap := p.id }).gcSnaps

def Group.snapOf (g : Group) (k : Gang) : Snapshot :=
  (g.snaps.find? fun p => p.id == k.snap).getD ⟨k.snap, k.pc, []⟩

/-- R25: the region entry of a nib of gang `k`. -/
def Group.entryOf (g : Group) (k : Gang) (n : Nat) : DWord :=
  (((g.snapOf k).nibs.find? fun r => r.nib == n).map SnapNib.entry).getD (g.snapOf k).entry

/-- R180: a recorded nib without the threads that have exited since. -/
def SnapNib.without (live : BitVec 16) (p : SnapNib) : SnapNib :=
  { p with mask := p.mask &&& live, stack := p.stack.map fun e => { e with mask := e.mask &&& live } }

/-- R180: the nibs of one snapshot, restored: those recorded at one entry form one gang (a restored image may have given them several, R359),
one recorded at a JOIN is held
there until its siblings arrive. -/
def Group.restoreSnap (g : Group) (p : Snapshot) (nibs : List Nat) (last : Nat) : Group :=
  let recs := (p.nibs.filter fun r => nibs.contains r.nib).map fun r => r.without (g.nib r.nib).liveMask
  let g1 := recs.foldl (fun g r => g.modNib r.nib fun n => { n with mask := r.mask, stack := r.stack }) g
  let alive := recs.filter fun r => (g1.nib r.nib).liveMask != 0
  let entered := alive.filter fun r => r.pc == r.entry
  let g2 := (nubBy (entered.map SnapNib.entry)).foldl (fun g e =>
    g.addGang ⟨sortBy id ((entered.filter fun r => r.entry == e).map SnapNib.nib), e, none, .none, p.id, last, 0⟩) g1
  (alive.filter fun r => r.pc != r.entry).foldl
    (fun g r => g.addGang ⟨[r.nib], r.pc, none,
      match r.stack.head? with | some e => .join r.pc e.number | none => .none, p.id, last, 0⟩) g2

/-! ### Re-ganging (R174, R180) -/

/-- R174: the nibs that hold an X entry of an instance, on their stack or on the one that the handler save area keeps (R354). -/
def Group.holders (g : Group) (num : BitVec 16) : List Nat :=
  let has (st : List DivEntry) : Bool := st.any fun e => e.kind == .x && e.number == num
  (List.range 4).filter fun n => has (g.nib n).stack || match g.save with
    | some sv => sv.nibs.any fun r => r.nib == n && has r.stack
    | none => false

/-- R174: nib n has the X entry of the instance on top and is held at the join. -/
def Group.arrivedAt (g : Group) (at_ : DWord) (num : BitVec 16) (n : Nat) : Bool :=
  (match (g.nib n).stack.head? with | some e => e.kind == .x && e.number == num | none => false) &&
  g.gangs.any fun k => k.nibs.contains n && k.hold == .join at_ num

/-- R174, R180: when every holder of the instance is held at the join, its entry is popped from each; they form one gang at the
JOIN, which it takes again and then goes on with the rest of the clause, with the snapshot of the lowest-numbered nib, to which
the others are added as they arrived. A flag that one of their clauses raised waits for the one clause that goes on as well as for
whatever still executes under its own (log 42). -/
def Group.mergeAt (g : Group) (at_ : DWord) (num : BitVec 16) : Group :=
  let ns := g.holders num
  if ns ≠ [] ∧ ns.all (g.arrivedAt at_ num) then
    let joined := g.gangs.filter fun k => k.nibs.any ns.contains
    let lead := (joined.find? fun k => k.nibs.contains (ns.headD 0)).getD ⟨[], at_, none, .none, 0, 0, 0⟩
    let cls := joined.filterMap Gang.clause
    let cl := lead.clause.or cls.head?
    let serials := cls.map ClauseBuf.serial
    let recs := ns.map fun n => { g.snapNib at_ n with entry := g.entryOf lead (ns.headD 0) }
    let g1 : Group := { g with
      snaps := g.snaps.map fun p => if p.id = lead.snap
        then { p with nibs := p.nibs ++ recs.filter fun r => !p.nibs.any fun q => q.nib == r.nib } else p
      raises := g.raises.flatMap fun r => match cl with
        | some c => if serials.contains r.clause ∧ r.clause ≠ c.serial then [r, { r with clause := c.serial }] else [r]
        | none => [r]
      gangs := (g.gangs.map fun k => { k with nibs := k.nibs.filter fun n => !ns.contains n }).filter fun k => k.nibs ≠ [] }
    let g2 := ns.foldl (fun g n => g.modNib n fun x => { x with stack := x.stack.drop 1 }) g1
    (g2.addGang { lead with nibs := ns, pc := at_, clause := cl.map fun c => { c with next := 0 }, hold := .none }).gcSnaps
  else g

/-- R174, R175: every held nib whose siblings no longer keep it waiting is merged. -/
def Group.mergeAll (g : Group) : Group :=
  (g.gangs.filterMap fun k => match k.hold with | .join a n => some (a, n) | _ => none).foldl
    (fun g h => g.mergeAt h.1 h.2) g

/-- R59, R180: every gang resumes at its region entry, from its own snapshot; a gang held for a REORD stays (R244). Nibs held at a
JOIN whose siblings have exited since go on (R175). The gangs count as never having issued (log 130). -/
def Group.resumeAll (g : Group) : Group :=
  let moved := g.gangs.filter fun k => match k.hold with | .reord .. => false | _ => true
  let kept := g.gangs.filter fun k => match k.hold with | .reord .. => true | _ => false
  let ids := nubBy (moved.map Gang.snap)
  (ids.foldl (fun (h : Group) i =>
      let ks := moved.filter fun (k : Gang) => k.snap == i
      h.restoreSnap (g.snapOf (ks.headD ⟨[], 0, none, .none, i, 0, 0⟩)) (ks.flatMap Gang.nibs) 0)
    { g with gangs := kept, owed := g.owed.filter fun e => kept.any fun k => k.nibs.contains e.1 }).mergeAll

/-! ### Unwinding (R175) -/

/-- R175: the loop that a nib with an empty mask takes, with the pc it ends at. -/
def unwind : List DivEntry → BitVec 16 × List DivEntry × Option DWord
  | [] => (0, [], none)
  | e :: r =>
    match e.kind with
    | .p => if e.mask = 0 then unwind r
            else (e.mask, { e with kind := .w, mask := 0 } :: r, some e.target)
    | .w => if e.mask = 0 then unwind r else (e.mask, r, some e.join)
    | .x => unwind r

/-! ### The end of a launch (R302) -/

/-- A context stops: it issues no more; its engine operations run on. -/
def Group.halt (g : Group) : Group := { g with gangs := [], ended := true, stopped := true, faultParked := false }

/-- R163, R302: an open sheaf of the launch begins to abort. -/
def SheafEntry.autoAbort (l : Nat) (e : SheafEntry) : SheafEntry :=
  if e.launch = l ∧ e.open_ then { e with open_ := false, closing := true, aborting := true } else e

/-- R302: every context of the launch stops, no further team is admitted, open sheaves abort, the service requests that its contexts
posted are dropped (R361), and the launch keeps the status of its first stop. -/
def State.stopLaunch (s : State) (l : Nat) (status : Nat × Nat × Nat) : State :=
  { s with
    launches := KMap.adjust s.launches l fun x => { x with status := x.status.orElse fun _ => some status, next := x.teams }
    groups := s.groups.map fun e => if e.2.launch = l then (e.1, e.2.halt) else e
    sheaves := s.sheaves.map fun e => (e.1, e.2.autoAbort l)
    funcs := s.funcs.map fun f => (f.1, { f.2 with services := f.2.services.filter fun x =>
      !((s.group x.2.gid).any fun g => g.launch == l) }) }

/-! ### Traps (R34, R354 to R356) -/

/-- What a trap reports: TCAU's fields, the threads that TMSK names and the address for TRPC. -/
structure TrapReq where
  cause : Nat
  detail : Nat
  info : Nat
  mask : BitVec 64
  pc : DWord

/-- R296: TCAU. -/
def TrapReq.tcau (r : TrapReq) : DWord := dword (r.cause % 256 + (r.detail % 256) * 256 + (r.info % 65536) * 65536)

/-- R296: TNIB. -/
def tnibOf (nibs : List Nat) : DWord := dword (nibs.headD 0 + 16 * nibs.foldl (fun m n => m + 2 ^ n) 0)

/-- R34, R296: the trap registers of a group name the trap of gang `k`. -/
def Group.recordTrap (g : Group) (k : Gang) (r : TrapReq) : Group :=
  { g with tcau := r.tcau, trpc := r.pc, tmsk := r.mask, tnib := tnibOf k.nibs, trgn := g.entryOf k (k.nibs.headD 0) }

/-- R354, steps 2 to 4, for gang `k` of context `g`. The handler's entry is a region entry even before its first clause has been
fetched (R356). -/
def Group.enterHandler (g : Group) (k : Gang) (traph : DWord) (r : TrapReq) : Group :=
  let serial := match k.clause with | some c => c.serial | none => g.clauseSerial + 1
  let snap := g.snapOf k
  let save : SaveArea :=
    { since := g.clauseSerial, nibs := k.nibs.map (g.snapNib k.pc), gang := k, snap := snap, forms := g.forms
      s46 := KMap.getD g.s 46 0, s47 := KMap.getD g.s 47 0 }
  let g1 := { g with
    raises := g.raises.filter fun x => x.clause ≠ serial, save := some save, h := true
    owed := k.nibs.foldl KMap.del g.owed }
  let g2 := if g.quill then { g1 with s := KMap.put (KMap.put g1.s 46 r.tcau) 47 r.pc } else g1.recordTrap k r
  let g3 := k.nibs.foldl (fun g n => g.modNib n fun x => { x with stack := [] }) g2
  (g3.modGang k.id fun k => { k with pc := traph, clause := none, hold := .none }).openRegion k.id traph

/-- R312, R314, R356, R374: how the launch ends by a fault that no handler takes; `h` says that the fault came inside one. -/
def TrapReq.endStatus (r : TrapReq) (h : Bool) : Nat × Nat × Nat :=
  if r.cause = 5 ∧ r.detail = 1 ∧ !h then (5, 1, r.cause % 256 + (r.detail % 256) * 256)
  else (2, 0, r.cause % 256 + (r.detail % 256) * 256)

/-- THE operation that takes a trap, for gang `n` of context `gid`. A predicted launch stalls before it (R36, R319);
without a handler, or inside one, the launch ends and the trap registers name the trap (R314, R356, log 37); otherwise R354. -/
def State.takeTrap (s : State) (gid n : Nat) (r : TrapReq) : State :=
  match s.group gid with
  | none => s
  | some g =>
    match g.gang n with
    | none => s
    | some k =>
      if s.speculative g then
        s.modGroup gid fun g => g.modGang n fun k =>
          { k with hold := .stall (if r.cause ≤ 3 then 7 else 6), clause := k.clause.map fun c => { c with next := c.cur } }
      else
        let traph := match s.launchOf g with | some l => l.record.traph | none => 0
        if traph = 0 ∨ g.h then
          (s.modGroup gid fun g => if g.quill then g else g.recordTrap k r).stopLaunch g.launch (r.endStatus g.h)
        else s.modGroup gid fun g => g.enterHandler k traph r

/-- A trap of the issuing gang at its instruction. -/
def State.trap (s : State) (i : Iss) (cause detail : Nat) : State :=
  s.takeTrap i.gid i.gang.id ⟨cause, detail, 0, i.active, i.pc⟩

/-- The same, naming the threads of `mask` (R34, R42, R205). -/
def State.trapOn (s : State) (i : Iss) (cause detail : Nat) (mask : BitVec 64) : State :=
  s.takeTrap i.gid i.gang.id ⟨cause, detail, 0, mask, i.pc⟩

/-- R301, R355: the return from the handler. The saved nibs, and under mode 0 every nib that shares their snapshot (R180), leave
whatever gang holds them; threads that exited in the handler stay exited (log 13). -/
def Group.eret (g : Group) (mode : Nat) (last : Nat) : Group :=
  match g.save with
  | none => g
  | some sv =>
    let own := sv.nibs.map SnapNib.nib
    let nibs := if mode = 0 then own ++ ((g.gangs.filter fun k => k.snap == sv.snap.id).flatMap Gang.nibs).filter fun n => !own.contains n
      else own
    let live (n : Nat) : BitVec 16 := (g.nib n).liveMask
    let base : Group :=
      { g with h := false, save := none, forms := sv.forms
               gangs := (g.gangs.map fun k => { k with nibs := k.nibs.filter fun n => !nibs.contains n }).filter
                 fun k => k.nibs ≠ [] }
    let base := if g.quill then { base with s := KMap.put (KMap.put base.s 46 sv.s46) 47 sv.s47 } else base
    let snaps := if base.snaps.any fun p => p.id == sv.snap.id then base.snaps else base.snaps ++ [sv.snap]
    let saved := sv.nibs.map fun r => { r with mask := r.mask &&& live r.nib }
    let g1 := saved.foldl (fun g r => g.modNib r.nib fun x => { x with mask := r.mask, stack := r.stack })
      { base with snaps := snaps }
    if mode = 0 then (g1.restoreSnap sv.snap nibs last).mergeAll.gcSnaps
    else
      let pc := match sv.gang.clause with | some c => c.after | none => sv.gang.pc
      let there := sortBy id ((saved.filter fun r => r.mask != 0).map SnapNib.nib)
      let g2 := g1.addGang ⟨there, pc, none, .none, sv.snap.id, last, 0⟩
      (saved.filter fun r => r.mask == 0).foldl (fun g r =>
        let (m, st, at_) := unwind (g.nib r.nib).stack
        let g := g.modNib r.nib fun x => { x with mask := m, stack := st }
        match at_ with
        | some a => g.addGang ⟨[r.nib], a, none, .none, sv.snap.id, last, 0⟩
        | none => g) g2

/-! ### Barriers (R282 to R286) -/

/-- R282: the kinds of barrier code. -/
inductive BarCode where
  | gb (i : Nat)
  | tb (i : Nat)
  | cb (i : Nat)
  | xb (i : Nat)
  deriving DecidableEq, Repr

def barCode (b : Byte) : Option BarCode :=
  let n := b.toNat
  if n < 4 then some (.gb n) else if n < 0x10 then none else if n < 0x20 then some (.tb (n - 0x10))
  else if n < 0x28 then some (.cb (n - 0x20)) else if n < 0x30 then none else if n < 0x34 then some (.xb (n - 0x30))
  else none

/-- R359: the place of a barrier's phase bit. -/
def BarCode.bit : BarCode → Nat
  | .gb i => i
  | .tb i => 4 + i
  | .cb i => 20 + i
  | .xb i => 28 + i

/-- R282: the role mask of a barrier under a launch record; group barriers are always enabled. -/
def BarCode.roles (r : LaunchRec) : BarCode → Nat
  | .gb _ => 15
  | .tb i => bitsOf r.tbm (4 * i + 3) (4 * i)
  | .cb i => if r.cset = 0 then 0 else bitsOf r.cbm (4 * i + 3) (4 * i)
  | .xb i => if r.coop then bitsOf r.xbm (4 * i + 3) (4 * i) else 0

/-- R184: the contexts that share their slots' end with a context: itself alone, the pair, or all the groups that are paired with one
partner and that partner (log 95). -/
def State.family (s : State) (gid : Nat) (g : Group) : List Nat :=
  match g.partner with
  | none => [gid]
  | some p => (s.groups.filter fun e =>
      e.1 == gid || e.1 == p || e.2.partner == some gid || e.2.partner == some p).map Prod.fst

/-- R282: which barrier a code names for a context; a group barrier goes by the lowest number of the pair, or of what stands for it
(log 95). -/
def State.barKey (s : State) (gid : Nat) (g : Group) : BarCode → BarKey
  | .gb i => .gb ((s.family gid g).foldl min gid) i
  | .tb i => .tb g.team i
  | .cb i =>
    let set := match s.teamOf g, s.launchOf g with
      | some t, some l => t.number / max 1 l.record.cset
      | _, _ => 0
    .cb g.launch set i
  | .xb i => .xb g.launch i

/-- R97, R286: the barrier is enabled for the context's launch. -/
def State.barEnabled (s : State) (g : Group) (c : BarCode) : Bool :=
  match s.launchOf g with
  | some l => c.roles l.record ≠ 0
  | none => match c with | .gb _ => true | _ => false

/-- R282: the context's group is a member. -/
def State.barMember (s : State) (g : Group) (c : BarCode) : Bool :=
  match s.launchOf g with
  | some l => (c.roles l.record).testBit g.role
  | none => match c with | .gb _ => true | _ => false

def Bar.zero : Bar := ⟨0, 0, 0, 0, 0⟩
def State.bar (s : State) (k : BarKey) : Bar := ((s.bars.find? fun e => e.1 == k).map Prod.snd).getD Bar.zero
def State.setBar (s : State) (k : BarKey) (b : Bar) : State :=
  if s.bars.any fun e => e.1 == k then { s with bars := s.bars.map fun e => if e.1 = k then (k, b) else e }
  else { s with bars := s.bars ++ [(k, b)] }

/-- R285: gang `k` of a context leaves its wait on the completed barrier: each nib's phase bit toggles and the gang
proceeds; a parked gang is marked, and its bits toggle at its reactivation (R290). -/
def Group.released (g : Group) (c : BarCode) (b : Byte) : Group :=
  let freed := g.gangs.filter fun k => k.hold == .barrier b
  let g1 := (freed.flatMap Gang.nibs).foldl
    (fun g n => g.modNib n fun x => { x with phase := x.phase ^^^ (1#32 <<< c.bit) }) g
  { g1 with
    gangs := g1.gangs.map fun k => match k.hold with
      | .barrier b' => if b' = b then { k with hold := .none } else k
      | .park (.barrier b') cont => if b' = b then { k with hold := .park (.met b) cont } else k
      | _ => k
    arrived := KMap.del g1.arrived c.bit }

/-- The barrier codes of R282. -/
def allBarCodes : List Byte :=
  ((List.range 4) ++ (List.range 16).map (0x10 + ·) ++ (List.range 8).map (0x20 + ·) ++ (List.range 4).map (0x30 + ·)).map byte

/-- R284: the completion step, if the phase is complete. `fell` says that C has just become 0 from another value. -/
def State.barCheck (s : State) (k : BarKey) (fell : Bool) : State :=
  let b := s.bar k
  if (b.a = b.e ∧ 0 < b.e ∧ b.c = 0) ∨ (b.e = 0 ∧ fell ∧ b.c = 0) then
    let s1 := s.setBar k { b with p := (b.p + 1) % 65536, a := 0, e := b.e - b.late, late := 0 }
    { s1 with groups := s1.groups.map fun e =>
        (e.1, allBarCodes.foldl (fun g code => match barCode code with
          | some c => if s.barKey e.1 e.2 c = k then g.released c code else g
          | none => g) e.2) }
  else s

/-- R284, R288: C changes by `d`, and completion is judged. Below −2^31 it stays there (R286). -/
def State.barBytes (s : State) (k : BarKey) (d : Int) : State :=
  let b := s.bar k
  let c := max (-2147483648) (b.c + d)
  (s.setBar k { b with c := c }).barCheck k (decide (b.c ≠ 0))

/-- R283, R287: the threads of `m` arrive, as many as the phase still needs; then completion is judged. -/
def State.barArrive (s : State) (gid : Nat) (c : BarCode) (k : BarKey) (m : BitVec 64) : State :=
  let b := s.bar k
  let ts := (threadsOf m).take (b.e - b.a)
  let s1 := s.modGroup gid fun g => { g with arrived := KMap.put g.arrived c.bit (KMap.getD g.arrived c.bit 0 ||| maskOf ts) }
  (s1.setBar k { b with a := b.a + ts.length }).barCheck k false

/-- R283: the threads of `m` exit: each barrier of which the group is a member loses those that have not arrived, and
defers the others to its completion step. -/
def State.barExit (s : State) (gid : Nat) (m : BitVec 64) : State :=
  allBarCodes.foldl (fun s code =>
    match barCode code, s.group gid with
    | some c, some g =>
      if s.barEnabled g c ∧ s.barMember g c then
        let k := s.barKey gid g c
        let b := s.bar k
        let came := (threadsOf (m &&& KMap.getD g.arrived c.bit 0)).length
        let left := (threadsOf m).length - came
        (s.setBar k { b with e := b.e - left, late := b.late + came }).barCheck k false
      else s
    | _, _ => s) s

/-- R285: may nib `n` proceed past barrier `c` now? -/
def State.barOpen (s : State) (g : Group) (c : BarCode) (k : BarKey) (n : Nat) : Bool :=
  decide ((s.bar k).p % 2 = 1) != (g.nib n).phase.getLsbD c.bit

/-- R285, R290: the issuing gang waits on a barrier. The nibs that may proceed go on as one gang, at `onward` if given and
at the next instruction otherwise; the rest form one gang that holds with `hold`. -/
def State.barWait (s : State) (i : Iss) (c : BarCode) (hold : Hold) (onward : Option DWord) : State :=
  let k := s.barKey i.gid i.g c
  match s.group i.gid with
  | none => s
  | some g =>
    match g.gang i.gang.id with
    | none => s
    | some gang =>
      let go := gang.eachNib.filter fun n => s.barOpen g c k n
      let stay := gang.eachNib.filter fun n => !s.barOpen g c k n
      let g1 := go.foldl (fun g n => g.modNib n fun x => { x with phase := x.phase ^^^ (1#32 <<< c.bit) }) g
      let cl : Option ClauseBuf := match onward with | some _ => none | none => gang.clause
      let pc := match onward with | some a => a | none => gang.pc
      let g2 := ((g1.dropGang gang.id).addGang { gang with nibs := go, pc := pc, clause := cl }).addGang
        { gang with nibs := stay, hold := hold, clause := cl }
      s.setGroup i.gid g2

/-- R348: `cost` joins the context's ENRG and its cluster's accumulator. -/
def State.addEnergy (s : State) (gid cost : Nat) : State :=
  match s.group gid with
  | none => s
  | some g => (s.modGroup gid fun g => { g with enrg := g.enrg + dword cost }).modCluster (g.core / 4) fun c =>
      { c with clenrg := c.clenrg + dword cost }

/-! ### Engine classes (R118, R125, R132) -/

/-- The operations of a class of a context that have not retired, in issue order. -/
def State.opsOf (s : State) (gid : Nat) (c : EngClass) : List Nat :=
  (s.ops.filter fun e => e.2.gid == gid && e.2.cls == c).map Prod.fst

def classIndex : EngClass → Nat
  | .copy => 0
  | .gather => 1
  | .matrix => 2
  | .atomic => 3

/-- R132: counter(G, class): the operations; a counter that a written image has restored differs from them (R359). -/
def State.counter (s : State) (gid : Nat) (c : EngClass) : Nat :=
  let n := (s.opsOf gid c).length
  match (s.group gid).map fun g => KMap.getD g.skew (classIndex c) 0 with
  | none | some 0 => n
  | some k => (n + k) % 64

/-- R234: the four class counters of a context are zero. -/
def State.countsZero (s : State) (gid : Nat) : Bool := [EngClass.copy, .gather, .matrix, .atomic].all fun c => s.counter gid c == 0

/-- Every outstanding operation of a context. -/
def State.opsAll (s : State) (gid : Nat) : List Nat := (s.ops.filter fun e => e.2.gid == gid).map Prod.fst

def classOf (c : Nat) : Option EngClass :=
  match c with
  | 0 => some .copy
  | 1 => some .gather
  | 2 => some .matrix
  | 3 => some .atomic
  | _ => none

/-- R59, R162: the operation has a request held in a fault buffer entry; a seal or an abort is held by the writes of its sheaf
that are. -/
def State.isHeld (s : State) (o : Nat) : Bool :=
  let held (x : Nat) : Bool := s.faults.any fun e => e.2.op == some x
  held o || match (KMap.get s.ops o).map EngOp.kind with
    | some (.seal e) | some (.abort e) => ((KMap.get s.sheaves e).map SheafEntry.writes).any fun ws => ws.any held
    | _ => false

/-- No local store of the context waits in its FIFO or its core's OQ (R125); a local atomic that waits is no store. -/
def State.storesOut (s : State) (gid : Nat) (g : Group) : Bool :=
  !(g.fifo.any fun e => match e.kind with | .store .. => true | .atl .. => false) &&
  !((KMap.getD s.oq g.core []).any fun e => e.gid == gid)

/-- R363, steps 1 and 2: the contexts of a function that `p` picks halt and are to be saved. -/
def State.leave (s : State) (fn : Nat) (p : Group → Bool) : State :=
  { s with groups := s.groups.map fun e =>
      (e.1, if s.fnOf e.2 = fn ∧ e.2.presence = .here ∧ p e.2 then { e.2 with presence := .leaving } else e.2) }

/-- R59, R68: the context is fault-parked. When the parked share of the function on the core reaches the threshold, the
function's context on the core is switched out; a group that leaves or is out is none on the core, and its parking makes no test. A group that
has ended and waits to retire is none of the resident groups counted
(log 104). -/
def State.faultPark (s : State) (gid : Nat) : State :=
  match s.group gid with
  | none => s
  | some g =>
    let s1 := s.setGroup gid { g with faultParked := true }
    let fn := s.fnOf g
    let mine := s1.groups.filter fun e => !e.2.quill && !e.2.ended && e.2.presence == .here && e.2.core == g.core && s1.fnOf e.2 == fn
    let parked := mine.filter fun e => e.2.faultParked
    let thr := (s.coreReg g.core).parkth
    if thr ≠ 0 ∧ !g.quill ∧ g.presence = .here ∧ thr * mine.length ≤ 16 * parked.length then
      (s1.leave fn fun x => x.core == g.core).modFunc fn fun f => { f with saved := { f.saved with auto := true } }
    else s1

/-- R336, R356: gang `k` may take the trap: it is held by nothing, waits to issue, or is held in DQPOP, and its context is in no handler. -/
def Group.budgetReady (g : Group) (k : Gang) : Bool :=
  g.budgetDue && !g.h && !g.faultParked && !g.offCore && g.presence == .here && (match k.hold with | .none | .retry | .dqpop _ => true | _ => false)

/-- R59: a gang of the context stands at a barrier wait or in a PARK whose condition has not become true. -/
def Group.waitsHeld (g : Group) : Bool := g.gangs.any fun k => match k.hold with
  | .barrier _ | .park (.barrier _) _ | .park (.counter ..) _ => true
  | _ => false

/-- R59: an operation of the context has become held while one of its gangs waits at a barrier or in a PARK. -/
def State.parkWaiting (s : State) (gid : Nat) : State :=
  match s.group gid with
  | some g => if g.waitsHeld ∧ !g.faultParked ∧ !g.ended then s.faultPark gid else s
  | none => s

/-- R59, R352: a wait of the issuing gang that covers operations `ops` (outstanding) and failed ones `failed`. A held operation fault-parks
the context; an outstanding one holds the gang; a failed one gives its deferred fault, before which a predicted launch stalls with the failure
still to report (R319); otherwise the wait is over and `k` follows. -/
def State.awaitOps (s : State) (i : Iss) (ops : List Nat) (failed : List FailedOp) (k : State → State) : State :=
  if ops.any s.isHeld then (s.retry i).faultPark i.gid
  else if ops ≠ [] then s.retry i
  else match failed.head? with
    | some f =>
      let s1 := if s.speculative i.g then s else s.modIss i fun g => { g with failed := g.failed.filter fun x => x.id ≠ f.id }
      s1.takeTrap i.gid i.gang.id ⟨f.cause, f.detail, f.info, i.active, f.pc⟩
    | none => k s

/-- R378: no step failed whose failure leaves the device with management requests only. -/
def State.enabled (s : State) : Bool := s.bootFail &&& 0x0123 == 0

/-- What a host access of a function does, on a device that answers more than management requests. -/
def State.ifEnabled (s : State) (t : State) : State := if s.enabled then t else s

/-- R111, R375: a host access to device memory. -/
def isWindowAccess : Instr → Bool
  | .deviceMemoryWindowAccess .. => true
  | _ => false

/-- R375: a host access to device memory has come and has not performed. -/
def State.behindWindow (s : State) : Bool := s.heldSteps.any fun h => isWindowAccess h.step

/-- A step is held, behind those that are. -/
def State.holdStep (s : State) (h : HeldStep) : State := { s with heldSteps := s.heldSteps ++ [h] }

/-- R375: a host write of REPLAY or INVCTL takes effect after the host accesses to device memory that a slot still holds. -/
def State.afterWindow (s : State) (i : Instr) (t : State) : State :=
  if s.behindWindow then s.holdStep ⟨i, 0, []⟩ else s.ifEnabled t

/-! ### Time -/

/-- R108: the next start of a kind at or after CALN `c`; starts at CALN 0 are not held. -/
def nextStart (k : SlotKind) (c : Nat) : Nat :=
  let per := Config.slotPeriod k
  let ph := Config.slotPhase k
  let n := if c ≤ ph then ph else ph + ((c - ph + per - 1) / per) * per
  if n = 0 then per else n

/-- R109: a refresh or sweep start that a calibration slot absorbs. -/
def absorbed (start : Nat) : Bool :=
  let cal := start / 4000000 * 4000000
  decide (0 < cal) && decide (start < cal + Config.slotLength .calibration)

/-- The next start of kind `k` that occurs on its own, at or after `c`. -/
def nextOwn (k : SlotKind) : Nat → Nat → Nat
  | 0, c => nextStart k c
  | n + 1, c =>
    let a := nextStart k c
    match k with
    | .calibration => a
    | _ => if absorbed a then nextOwn k n (a + 1) else a

def kindIndex : SlotKind → Nat
  | .refresh => 0
  | .sweep => 1
  | .calibration => 2

/-- The slot that comes next at or after `c`: the earliest start among the three kinds. -/
def nextSlot (c : Nat) : SlotKind × Nat :=
  let r := nextOwn .refresh 3 c
  let w := nextOwn .sweep 3 c
  let l := nextOwn .calibration 3 c
  if l ≤ r ∧ l ≤ w then (.calibration, l) else if r ≤ w then (.refresh, r) else (.sweep, w)

/-- R116: CALN stands in a drain window or its slot. -/
def State.inDrainOrSlot (s : State) : Bool := !s.slots.isEmpty

/-- R135: CALN stands in a slot. -/
def State.inSlotNow (s : State) : Bool := s.slots.any Slot.on

end Sys2Proof.Machine
end

