-- ==== Sys2Proof/Machine/Addr.lean ====
section
/-!
DEFINITION. Places of record (R41, R120), domain physical memory under owner tags (R70 to R75), page walks and the TLB
(R43 to R57).
-/

namespace Sys2Proof.Machine

/-! ### Local storage -/

/-- R41: the place and offset of the byte at offset `off` of a local space, for thread `t` of a context; none when it lies
out of bounds. -/
def State.localByte (s : State) (gid : Nat) (g : Group) (space t off : Nat) : Option (Place × Nat) :=
  match space with
  | 0 =>
    match s.teamOf g with
    | some tm => if tm.cores.contains g.core ∧ off < tm.tmemSize then some (.team g.team g.core, off) else none
    | none => none
  | 1 =>
    let core := 4 * (g.core / 4) + off / 0x100000
    match s.teamOf g with
    | some tm =>
      if off < 0x400000 ∧ tm.cores.contains core ∧ off % 0x100000 < tm.tmemSize
      then some (.team g.team core, off % 0x100000) else none
    | none => none
  | 2 => if off < Config.scratchBytes then some (.scratch (g.core / 48), off) else none
  | _ => if !g.quill ∧ off < g.stackSize then some (.stack gid t, off) else none

/-- R42: every byte of an access lies within the space. -/
def State.localOk (s : State) (gid : Nat) (g : Group) (space t off len : Nat) : Bool :=
  (List.range len).all fun k => (s.localByte gid g space t (off + k)).isSome

/-- The byte at a place of record. -/
def State.placeGet (s : State) (p : Place) (off : Nat) : Byte :=
  match p with
  | .team tm c => match KMap.get s.teams tm with | some t => Mem.get t.tmem (c * 0x100000 + off) | none => 0
  | .scratch d => Mem.get s.scratch (d * Config.scratchBytes + off)
  | .stack g t => match s.group g with | some x => Mem.get x.stack (t * 65536 + off) | none => 0

/-- Bytes written at a place of record, each at its offset. -/
def State.placePut (s : State) (p : Place) (bs : List (Nat × Byte)) : State :=
  match p with
  | .team tm c => s.modTeam tm fun t => { t with tmem := Mem.writeAt t.tmem (bs.map fun e => (c * 0x100000 + e.1, e.2)) }
  | .scratch d => { s with scratch := Mem.writeAt s.scratch (bs.map fun e => (d * Config.scratchBytes + e.1, e.2)) }
  | .stack g t => s.modGroup g fun x => { x with stack := Mem.writeAt x.stack (bs.map fun e => (t * 65536 + e.1, e.2)) }

/-! ### Owners and domain memory -/

/-- R366: the partition of an island and of a function. -/
def State.islandPart (s : State) (i : Nat) : Nat := KMap.getD s.partitions i 0
def State.fnPart (s : State) (f : Nat) : Nat := KMap.getD s.partitions (16 + f) 0
/-- R367: the islands of a partition. -/
def State.partIslands (s : State) (p : Nat) : List Nat := s.islands.filter fun i => s.islandPart i == p
/-- R367: the end of the local HBM that a partition owns, and of that which a function's partition owns. -/
def State.partTop (s : State) (p : Nat) : Nat := 3 * (s.partIslands p).length * Config.stackBytes
def State.hbmTop (s : State) (fn : Nat) : Nat := s.partTop (s.fnPart fn)

def devOf (dpa : Nat) : Nat := dpa / 2 ^ 48
/-- A line's local address; two partitions use the same HBM addresses for different bytes (R367), so bits [41:40] of an HBM
address hold the partition. -/
def localOf (dpa : Nat) : Nat := dpa % 2 ^ 48
/-- R46: the local address without the partition. -/
def bareOf (dpa : Nat) : Nat := if localOf dpa < 2 ^ 42 then localOf dpa % 2 ^ 40 else localOf dpa

/-- R70, R367: a local address of partition `p` of this device. -/
def State.keyIn (s : State) (p localAddr : Nat) : Nat :=
  s.devnum * 2 ^ 48 + localAddr + (if localAddr < 2 ^ 40 then p * 2 ^ 40 else 0)
/-- A local address as function `fn` names it. -/
def State.dpaOf (s : State) (fn localAddr : Nat) : Nat := s.keyIn (s.fnPart fn) localAddr

/-- R46: second-tier addresses. -/
def isSecondTier (localAddr : Nat) : Bool := decide (0x040000000000 ≤ localAddr) && decide (localAddr < 0x080000000000)
/-- R46: the HBM region. -/
def isHbm (dpa : Nat) : Bool := decide (localOf dpa < 2 ^ 42)
/-- R46, R367, R384: an address of this device at which there is memory: of the HBM of its partition, or of the populated length of a CXL
port. -/
def State.inHere (s : State) (dpa : Nat) : Bool :=
  if isHbm dpa then decide (bareOf dpa < s.partTop (localOf dpa / 2 ^ 40))
  else isSecondTier (localOf dpa) && decide (localOf dpa % 2 ^ 41 < s.cxlLen.getD ((localOf dpa - 2 ^ 42) / 2 ^ 41) 0)

/-- R87, R367: the home slice of a line, with its device: slice h of device v is 192v + h. A line of the second tier is homed in the
partition of the function that reaches it. -/
def State.homeOf (s : State) (fn dpa : Nat) : Nat :=
  let part := if isHbm dpa then localOf dpa / 2 ^ 40 else s.fnPart fn
  let isles := if devOf dpa = s.devnum then s.partIslands part else [0, 1, 2, 3]
  let hbms := isles.flatMap fun i => [3 * i, 3 * i + 1, 3 * i + 2]
  let n := max 1 hbms.length
  let a := bareOf dpa
  192 * devOf dpa +
    (if isHbm dpa then
      let u := a / 4096
      let q := u / n
      16 * hbms.getD (u % n) 0 + ((bitsOf a 10 7) ^^^ (q % 16))
    else
      let k := a / 128 % (16 * n)
      16 * hbms.getD (k / 16) 0 + k % 16)

/-- R70 to R72: the tag under which owner `o` reads and writes: its key slot; an owner that no slot holds has a tag of its
own (log 14). -/
def State.tagOf (s : State) (dev o : Nat) : Nat :=
  match (if dev = s.devnum then KMap.findKey s.keys fun _ k => k.owner == some o && !k.retired else none) with
  | some k => k
  | none => 64 + o

/-- R71: the tag of a line, CLEAR (63) for a line never written. -/
def State.lineTag (s : State) (line : Nat) : Nat := KMap.getD s.tags line 63

/-! ### Slots of sheaf lines (R155, R156) -/

/-- R155: the address lies in the sheaf region; every device has this one's region and shadow area (log 17). -/
def State.inSheafRegion (s : State) (dpa : Nat) : Bool :=
  isHbm dpa && decide (s.shlo ≤ bareOf dpa) && decide (bareOf dpa < s.shhi)
/-- R155: the other slot of the line that holds `dpa`. -/
def State.otherSlot (s : State) (dpa : Nat) : Nat :=
  dpa - bareOf dpa + s.shsh + 160 * ((bareOf dpa - s.shlo) / 128)
/-- R155: the sidecar of the line. -/
def State.sidecarAt (s : State) (dpa : Nat) : Nat := s.otherSlot dpa + 128
/-- R156: word `w` of the line's sidecar. -/
def State.sidecar (s : State) (dpa w : Nat) : Nat := Mem.readVal s.mem (s.sidecarAt dpa + 8 * w) 8
def State.putSidecar (s : State) (dpa w v : Nat) : State :=
  { s with mem := Mem.writeVal s.mem (s.sidecarAt dpa + 8 * w) 8 v }
/-- R156: CUR: the other slot is current. -/
def State.curIsOther (s : State) (dpa : Nat) : Bool := s.inSheafRegion dpa && (s.sidecar dpa 2).testBit 17
/-- Where byte `dpa` of a line stands in the slot that is current (`cur`), or in the other one. -/
def State.slotAddr (s : State) (cur : Bool) (dpa : Nat) : Nat :=
  if s.curIsOther dpa = cur then (if s.inSheafRegion dpa then s.otherSlot dpa + dpa % 128 else dpa) else dpa

/-- R72, R74, R156: the byte at a domain address, as owner `o` reads it: that of the current slot. -/
def State.memGet (s : State) (o dpa : Nat) : Byte :=
  if s.lineTag (dpa / 128) = s.tagOf (devOf dpa) o then Mem.get s.mem (s.slotAddr true dpa)
  else if isSecondTier (localOf dpa) then Config.secondTierByte dpa o
  else 0

/-- R72, R74, R156: bytes of one line written by owner `o` into its current slot. A line under another tag is first taken as
zeros; in the second tier its other bytes become unpredictable, and the port notes who wrote the granule of 64 KiB (R74). -/
def State.memPut (s : State) (o line : Nat) (bs : List (Nat × Byte)) : State :=
  let tag := s.tagOf (devOf (line * 128)) o
  let put := bs.map fun e => (s.slotAddr true e.1, e.2)
  let far := isSecondTier (localOf (line * 128))
  let tier := if far then KMap.put s.tier (line / 512) tag else s.tier
  if s.lineTag line = tag then { s with mem := Mem.writeAt s.mem put, tier := tier }
  else
    let base :=
      if far then
        Mem.writeAt s.mem ((List.range 128).map fun i => (line * 128 + i, Config.secondTierByte (line * 128 + i) o))
      else Mem.clear s.mem (s.slotAddr true (line * 128)) (s.slotAddr true (line * 128) + 128)
    { s with mem := Mem.writeAt base put, tags := KMap.put s.tags line tag, tier := tier }

/-- Bytes of any lines written by owner `o`, in order. -/
def State.memPutAll (s : State) (o : Nat) (bs : List (Nat × Byte)) : State :=
  bs.foldl (fun s e => s.memPut o (e.1 / 128) [e]) s

/-- `n` bytes from a domain address. -/
def State.memRead (s : State) (o dpa n : Nat) : List Byte := (List.range n).map fun i => s.memGet o (dpa + i)
def State.memVal (s : State) (o dpa n : Nat) : Nat := leVal (s.memRead o dpa n)
def State.memWrite (s : State) (o dpa : Nat) (bs : List Byte) : State :=
  s.memPutAll o ((List.range bs.length).map fun i => (dpa + i, bs.getD i 0))

/-! ### Where an address lies -/

/-- R47, R48: the location of a domain physical address that function `fn` reaches. A host address is not wrapped to 64 bits (log 128). -/
def State.locOf (s : State) (fn dpa : Nat) : Loc :=
  let a := localOf dpa
  if devOf dpa ≠ s.devnum then .dpa dpa
  else if Config.hostWindow ≤ a then .host ((s.func fn).hwbase.toNat + (a - Config.hostWindow))
  else if Config.scratchWindow ≤ a ∧ a < Config.scratchWindow + 4 * Config.scratchBytes then
    .place (.scratch ((a - Config.scratchWindow) / Config.scratchBytes)) ((a - Config.scratchWindow) % Config.scratchBytes)
  else .dpa (s.dpaOf fn a)

/-- The location `k` bytes on, within one sector. -/
def Loc.plus : Loc → Nat → Loc
  | .dpa a, k => .dpa (a + k)
  | .place p o, k => .place p (o + k)
  | .host a, k => .host (a + k)

/-- The byte at a location, as owner `o` reads it. -/
def State.locGet (s : State) (o : Nat) : Loc → Byte
  | .dpa a => s.memGet o a
  | .place p off => s.placeGet p off
  | .host a => Mem.get s.host a

/-- Bytes written at a location, each at its distance from it; all of them lie in one sector (R137). -/
def State.locPut (s : State) (o : Nat) (l : Loc) (bs : List (Nat × Byte)) : State :=
  match l with
  | .dpa a => s.memPut o (a / 128) (bs.map fun e => (a + e.1, e.2))
  | .place p off => s.placePut p (bs.map fun e => (off + e.1, e.2))
  | .host a => { s with host := Mem.writeAt s.host (bs.map fun e => (a + e.1, e.2)) }

/-! ### Translation (R43 to R57) -/

/-- R43: bits [63:52] equal bit 51. -/
def canonical (va : Nat) : Bool :=
  let hi := va / 2 ^ 51
  decide (hi = 0) || decide (hi = 2 ^ 13 - 1)

/-- R46, R51: a page of a local leaf lies wholly inside a region that a leaf may name. -/
def State.leafTarget (s : State) (fn base size : Nat) : Bool :=
  let last := base + size
  decide (last ≤ s.hbmTop fn) ||
  (decide (0x040000000000 ≤ base) && decide (last ≤ 0x040000000000 + s.cxlLen.getD 0 0)) ||
  (decide (0x060000000000 ≤ base) && decide (last ≤ 0x060000000000 + s.cxlLen.getD 1 0)) ||
  (decide (Config.scratchWindow ≤ base) && decide (last ≤ Config.scratchWindow + 4 * Config.scratchBytes)) ||
  (decide (Config.hostWindow ≤ base) && decide (last ≤ 2 ^ 48))

/-- R50: fields of a table entry. -/
def pteV (e : Nat) : Bool := e.testBit 0
def pteT (e : Nat) : Bool := e.testBit 1
def pteW (e : Nat) : Bool := e.testBit 2
def pteX (e : Nat) : Bool := e.testBit 3
def pteSC (e : Nat) : Bool := e.testBit 4
def pteG (e : Nat) : Bool := e.testBit 5
def pteDev (e : Nat) : Nat := bitsOf e 59 48
def pteAddr (e : Nat) : Nat := bitsOf e 47 12 * 4096

/-- R49: the page size in bits of a leaf at a level; a level-3 leaf marked G64 is one of 64 KiB. -/
def leafBits (lvl e : Nat) : Nat :=
  match lvl with
  | 1 => 30
  | 2 => 21
  | _ => if pteG e then 16 else 12

/-- R51: the entry at index `idx` of a level-`lvl` table is malformed; a leaf's page is the whole one that it translates. -/
def State.malformed (s : State) (fn lvl idx e : Nat) : Bool :=
  let bits := match lvl with | 1 => 30 | 2 => 21 | _ => 12
  let base := pteAddr e
  let size := 2 ^ leafBits lvl e
  let page := base / size * size
  decide (bitsOf e 63 60 ≠ 0) || decide (bitsOf e 11 6 ≠ 0) ||
  (!pteT e && lvl == 0) || (pteT e && lvl == 3) ||
  (pteT e && (decide (pteDev e ≠ 0) || pteG e || pteSC e || pteX e || pteW e)) ||
  (!pteT e && decide (base % 2 ^ bits ≠ 0)) ||
  (pteG e && decide (lvl ≠ 3)) ||
  (pteG e && lvl == 3 && decide (bitsOf e 15 12 ≠ idx % 16)) ||
  decide (Config.devices ≤ pteDev e) ||
  (!pteT e && lvl != 0 && decide (pteDev e = s.devnum) && !s.leafTarget fn page size) ||
  (pteSC e && !decide (page + size ≤ (if pteDev e = s.devnum then s.hbmTop fn else Config.hbmBytes)))

/-- What a walk finds: a leaf with its page size in bits, or a failure with KIND 1 or 4 and its level (R57, R61). -/
inductive Walk where
  | leaf (e bits : Nat)
  | fail (kind lvl : Nat)
  deriving DecidableEq, Repr

/-- R49: the index of a virtual address at a level. -/
def vaIndex (va lvl : Nat) : Nat :=
  match lvl with
  | 0 => bitsOf va 51 39
  | 1 => bitsOf va 38 30
  | 2 => bitsOf va 29 21
  | _ => bitsOf va 20 12

/-- A table entry, read through its home by the walker (R54); one outside the local HBM reads what stands there in the memory (log 126). -/
def State.pte (s : State) (fn base idx : Nat) : Nat := s.memVal (s.func fn).owner (s.dpaOf fn (base + 8 * idx)) 8

/-- R52: the entry of an inconsistent 64 KiB group that translates the access, if the sixteen entries around index `idx`
hold a G64 leaf and differ: one of those with V = 1 and G64 = 1 (log 8). -/
def State.groupPick (s : State) (fn base idx va : Nat) : Option (Nat × Nat) :=
  let first := idx / 16 * 16
  let es := (List.range 16).map fun j => (first + j, s.pte fn base (first + j))
  let marked := es.filter fun p => pteV p.2 && pteG p.2
  let same := es.all fun p => setBits p.2 15 12 0 == setBits (es.headD (0, 0)).2 15 12 0
  if marked = [] ∨ same then none
  else some (marked.getD (Config.groupEntry (va / 65536) s.turn % marked.length) (idx, 0))

/-- R49 to R51: the walk from level `lvl`, with `fuel` levels to go. -/
def State.walkFrom (s : State) (fn va : Nat) : Nat → Nat → Nat → Walk
  | 0, _, lvl => .fail 4 lvl
  | fuel + 1, base, lvl =>
    let idx0 := vaIndex va lvl
    let (idx, e) := match (if lvl = 3 then s.groupPick fn base idx0 va else none) with
      | some p => p
      | none => (idx0, s.pte fn base idx0)
    if !pteV e then .fail 1 lvl
    else if s.malformed fn lvl idx e then .fail 4 lvl
    else if pteT e then s.walkFrom fn va fuel (pteAddr e) (lvl + 1)
    else .leaf e (leafBits lvl e)

/-- R54, R88: the domain addresses of the table entries that a walk reads, through their homes. -/
def State.walkPath (s : State) (fn va : Nat) : Nat → Nat → Nat → List Nat
  | 0, _, _ => []
  | fuel + 1, base, lvl =>
    let e := s.pte fn base (vaIndex va lvl)
    s.dpaOf fn (base + 8 * vaIndex va lvl) ::
      if pteV e ∧ pteT e ∧ !s.malformed fn lvl (vaIndex va lvl) e then s.walkPath fn va fuel (pteAddr e) (lvl + 1) else []

def State.walkLines (s : State) (fn va : Nat) : List Nat :=
  let tt := (s.func fn).ttbase.toNat
  if tt.testBit 0 then s.walkPath fn (va % 2 ^ 52) 4 (bitsOf tt 47 16 * 65536) 0 else []

/-- R54: the TLBs that a translation made for unit `u` looks into: a core's own and then its die's, or a die's (192 + d). -/
def tlbUnits (u : Nat) : List Nat := if u < 192 then [u, 192 + u / 48] else [u]

/-- R54, R55: the translation of a canonical address for unit `u`: a cached one, or a walk. With EN = 0 it is not present at level 0. -/
def State.lookup (s : State) (u fn va : Nat) : Walk :=
  let v := va % 2 ^ 52
  let tt := (s.func fn).ttbase.toNat
  if tt.testBit 0 then
    match (tlbUnits u).findSome? fun w => s.tlb.find? fun e => e.unit == w && e.fn == fn && e.vpn == v / 2 ^ e.bits with
    | some e => .leaf e.leaf.toNat e.bits
    | none => s.walkFrom fn v 4 (bitsOf tt 47 16 * 65536) 0
  else .fail 1 0

/-- R54: an entry joins its TLB; in a full one it takes the place of the oldest (log 90). -/
def tlbAdd (l : List TlbEntry) (x : TlbEntry) : List TlbEntry :=
  if l.contains x then l
  else if (l.filter fun e => e.unit == x.unit).length < (if x.unit < 192 then Config.coreTlb else Config.dieTlb) then l ++ [x]
  else l.eraseP (fun e => e.unit == x.unit) ++ [x]

/-- R54: a successful walk is cached, in the unit's TLB and in its die's. -/
def State.cacheLookup (s : State) (u fn va : Nat) : State :=
  match s.lookup u fn va with
  | .leaf e bits =>
    { s with tlb := (tlbUnits u).foldl (fun l w => tlbAdd l ⟨w, fn, va % 2 ^ 52 / 2 ^ bits, bits, dword e⟩) s.tlb }
  | .fail .. => s

/-- What an access finds: its domain physical address, or a translation fault with KIND and LVL. -/
inductive Xlate where
  | ok (dpa : Nat)
  | fault (kind lvl : Nat)
  deriving DecidableEq, Repr

/-- R53, R57: translation of one access made for unit `u`; ACC as in R61. -/
def State.translateAt (s : State) (u fn va acc : Nat) : Xlate :=
  match s.lookup u fn va with
  | .fail k l => .fault k l
  | .leaf e bits =>
    let lvl := if bits = 30 then 1 else if bits = 21 then 2 else 3
    if (acc = 1 ∨ acc = 2 ∨ acc = 4) ∧ !pteW e then .fault 2 lvl
    else if acc = 3 ∧ !pteX e then .fault 3 lvl
    else if acc = 4 ∧ !pteSC e then .fault 5 lvl
    else .ok (pteDev e * 2 ^ 48 + (pteAddr e / 2 ^ bits * 2 ^ bits + va % 2 ^ bits))

/-- The front end's translations, which die 0 makes (log 90). -/
def State.translate (s : State) (fn va acc : Nat) : Xlate := s.translateAt 192 fn va acc

/-- The page size of a translation, in bits. -/
def State.pageBits (s : State) (u fn va : Nat) : Nat := match s.lookup u fn va with | .leaf _ b => b | .fail .. => 12

/-- Bytes at distances from a location, which may leave its sector. -/
def State.poke (s : State) (o : Nat) (l : Loc) (bs : List (Nat × Byte)) : State :=
  bs.foldl (fun s e => s.locPut o (l.plus e.1) [(0, e.2)]) s
/-- `n` bytes from a location. -/
def State.peek (s : State) (o : Nat) (l : Loc) (n : Nat) : List Byte := (List.range n).map fun i => s.locGet o (l.plus i)

end Sys2Proof.Machine
end

