-- ==== Sys2Proof/Machine/Predict.lean ====
section
/-!
DEFINITION. Predicted launches towards memory: the watch set (R318, R320), provisional versions (R142, R166), the removal of
a launch's contexts, and refutation (R324).
-/

namespace Sys2Proof.Machine

/-- R317: the prediction that a context runs for, until it is promoted or cut over. -/
def State.predOf (s : State) (g : Group) : Option Pred :=
  match s.launchOf g with
  | some l => (match l.pred with | some p => if p.promoted then none else some p | none => none)
  | none => none

/-- Every queue of every function. -/
def State.allQueues (s : State) : List (Nat × Nat × Queue) :=
  s.funcs.flatMap fun f => f.2.queues.map fun q => (f.1, q.1, q.2)

/-- R315: the queue that holds ductus `d`. -/
def State.ductusAt (s : State) (d : Nat) : Option (Nat × Nat × Ductus) :=
  (s.allQueues.filterMap fun q => match q.2.2.ductus with
    | some x => if x.d = d ∧ x.open_ then some (q.1, q.2.1, x) else none
    | none => none).head?

/-- R318: the watch-set entry of a page of a local address or of a die's scratch. -/
def Loc.watchKey (dev : Nat) : Loc → Option Nat
  | .dpa a => if devOf a = dev then some (a / 4096) else none
  | .place (.scratch d) _ => some (2 ^ 40 + d)
  | _ => none

/-- R318: the watch set holds `keys` or has room for them. -/
def State.watchRoom (s : State) (d : Nat) (keys : List Nat) : Bool :=
  match s.ductusAt d with
  | some (_, _, x) => decide (x.watch.length + ((nubBy keys).filter fun k => !x.watch.contains k).length ≤ 1024)
  | none => true

def State.watchAdd (s : State) (d : Nat) (keys : List Nat) : State :=
  match s.ductusAt d with
  | some (f, q, x) => s.modQueue f q fun y =>
      { y with ductus := some { x with watch := x.watch ++ (nubBy keys).filter fun k => !x.watch.contains k } }
  | none => s

/-- R318: the access of a context touches watch-set entries: none when there is no room. -/
def State.watch (s : State) (g : Group) (keys : List Nat) : Option State :=
  match s.predOf g with
  | some p => if s.watchRoom p.duc keys then some (s.watchAdd p.duc keys) else none
  | none => some s

/-! ### Removal and refutation -/

def BarKey.of (gids teams ls : List Nat) : BarKey → Bool
  | .gb g _ => gids.contains g
  | .tb t _ => teams.contains t
  | .cb l _ _ => ls.contains l
  | .xb l _ => ls.contains l

/-- The contexts, teams, slices, barriers, operations, requests, held faults and service entries of launches are removed. -/
def State.removeLaunches (s : State) (ls : List Nat) : State :=
  let gids := (s.groups.filter fun e => ls.contains e.2.launch).map Prod.fst
  let tids := (s.teams.filter fun e => ls.contains e.2.launch).map Prod.fst
  let ops := (s.ops.filter fun e => gids.contains e.2.gid).map Prod.fst
  { s with
    groups := s.groups.filter fun e => !ls.contains e.2.launch
    teams := s.teams.filter fun e => !ls.contains e.2.launch
    slices := s.slices.filter fun e => !ls.contains e.2.launch
    launches := s.launches.filter fun e => !ls.contains e.1
    bars := s.bars.filter fun e => !e.1.of gids tids ls
    oq := s.oq.map fun e => (e.1, e.2.filter fun x => !gids.contains x.gid)
    reserve := s.groups.foldl (fun m e => if ls.contains e.2.launch ∧ !e.2.quill then KMap.put m (8 * e.2.core + e.2.sub) false else m) s.reserve
    ops := s.ops.filter fun e => !gids.contains e.2.gid
    reqs := s.reqs.filter fun e => !ops.contains e.2.op
    faults := s.faults.filter fun e => !gids.contains e.2.gid
    passed := s.passed.filter fun e => !ls.contains e.2.1
    funcs := s.funcs.map fun e => (e.1, { e.2 with services := e.2.services.filter fun x => !gids.contains x.2.gid }) }

/-- R321: the unconfirmed predictions of a ductus, by prediction number ascending. -/
def State.openPreds (s : State) (d : Nat) : List (Nat × Nat) :=
  sortBy Prod.snd (s.launches.filterMap fun e => match e.2.pred with
    | some p => if p.duc = d ∧ !p.confirmed then some (e.1, p.k) else none
    | none => none)

/-- R306: a change of the chaff region takes effect when no ductus of the function is open. -/
def Func.settleChaff (f : Func) : Func :=
  match f.chNext with
  | some (b, n) =>
    if f.queues.any fun q => match q.2.ductus with | some x => x.open_ | none => false then f
    else { f with chbase := b, chsize := n, chNext := none }
  | none => f

/-- R324: the ductus of a queue ends. -/
def State.endDuctus (s : State) (fn q endc : Nat) : State :=
  (s.modQueue fn q fun y => { y with ductus := y.ductus.map fun x =>
    if x.open_ then { x with open_ := false, endc := endc, watch := [] } else x }).modFunc fn Func.settleChaff

/-- R324: prediction `k` of the queue's ductus `d` and every later one are refuted. -/
def State.refute (s : State) (fn q d k endc : Nat) : State :=
  (s.removeLaunches (((s.openPreds d).filter fun p => decide (k ≤ p.2)).map Prod.fst)).endDuctus fn q endc

/-- R320: a write to a watched entry from outside the ductus (`duc` names the ductus it comes from). -/
def State.touchKey (s : State) (duc : Option Nat) (key : Nat) : State :=
  (s.allQueues.filterMap fun q => match q.2.2.ductus with
    | some x => if x.open_ ∧ x.watch.contains key ∧ duc ≠ some x.d then some (q.1, q.2.1, x.d) else none
    | none => none).foldl
    (fun s q => match (s.openPreds q.2.2).head? with
      | some p => s.refute q.1 q.2.1 q.2.2 p.2 2
      | none => s) s

/-- R310: the condition of a WAIT holds of its word. -/
def WaitSt.holds (w : WaitSt) (x : Nat) : Bool :=
  match w.cond with
  | 0 => decide (x = w.value.toNat)
  | 1 => decide (w.value.toNat ≤ x)
  | _ => decide (x ≠ w.value.toNat)

/-- R310: a WAIT whose word lies in the local line that has just been written reads it. -/
def State.waitSees (s : State) (fn line : Nat) (w : WaitSt) : WaitSt :=
  match s.translate fn w.addr.toNat 0 with
  | .ok a => (match s.locOf fn a with
    | .dpa b => if b / 128 = line ∧ w.holds (s.memVal (s.func fn).owner b 8) then { w with hit := true } else w
    | _ => w)
  | .fault .. => w

/-- R310: a write to a local line of main memory has been served: the WAITs that stand on it read their words. -/
def State.pollWaits (s : State) (line : Nat) : State :=
  if s.allQueues.any fun q => q.2.2.wait.isSome then
    { s with funcs := s.funcs.map fun f => (f.1, { f.2 with queues := f.2.queues.map fun q =>
        (q.1, { q.2 with wait := q.2.wait.map (s.waitSees f.1 line) }) }) }
  else s

/-- A write has been served at a location: it refutes what it must (R320), and the WAITs on it look (R310). -/
def State.touch (s : State) (duc : Option Nat) (l : Loc) : State :=
  let s1 := match l with | .dpa a => if devOf a = s.devnum then s.pollWaits (a / 128) else s | _ => s
  match l.watchKey s.devnum with
  | some k => s1.touchKey duc k
  | none => s1

/-- The lines of `n` bytes from a location of main memory. -/
def Loc.span (l : Loc) (n : Nat) : List Loc :=
  match l with
  | .dpa a => (List.range ((a % 128 + n + 127) / 128)).map fun k => .dpa ((a / 128 + k) * 128)
  | l => [l]

/-- A write of `n` bytes from a location has been served, in each of its lines. -/
def State.touchSpan (s : State) (duc : Option Nat) (l : Loc) (n : Nat) : State := (l.span n).foldl (fun s x => s.touch duc x) s

/-- The same for bytes of local memory, line by line. -/
def State.touchLines (s : State) (bs : List (Nat × Byte)) : State :=
  (nubBy (bs.map fun b => b.1 / 128)).foldl (fun s l => s.touch none (.dpa (l * 128))) s

/-! ### Provisional versions (R142, R166) -/

/-- R142: the version from which prediction `k` of ductus `d` reads the byte at `a`. -/
def State.specAt (s : State) (d k a : Nat) : Option Version :=
  (sortBy Version.k (s.versions.filter fun v => v.duc == d && decide (v.k ≤ k) && v.line == a / 128 &&
    v.bytes.any fun b => b.1 == a % 128)).getLast?

/-- R142: the byte that prediction `k` of ductus `d` reads, as owner `o`. -/
def State.specGet (s : State) (o d k a : Nat) : Byte :=
  match s.specAt d k a with
  | some v => ((v.bytes.find? fun b => b.1 == a % 128).map Prod.snd).getD 0
  | none => s.memGet o a

/-- The byte at a location as owner `o` reads it: a prediction, if one reads, sees its ductus's versions of main memory (R142, R318). -/
def State.predGet (s : State) (p : Option (Nat × Nat)) (o : Nat) (l : Loc) : Byte :=
  match p, l with
  | some (d, k), .dpa a => s.specGet o d k a
  | _, x => s.locGet o x

/-- R166: a byte of a line that a prediction reads stands in the chaff region, which no home holds (log 91). -/
def State.inChaff (s : State) (p : Option (Nat × Nat)) (line : Nat) : Bool :=
  p.any fun p => (List.range 128).any fun i => (s.specAt p.1 p.2 (line * 128 + i)).any Version.chaff

/-- R167: a version of the line that prediction `k` sees. -/
def State.hasVersion (s : State) (d k line : Nat) : Bool :=
  s.versions.any fun v => v.duc == d && decide (v.k ≤ k) && v.line == line

/-- R166: provisional versions that the function's chaff region may hold: 160 bytes each. -/
def State.chaffRoom (s : State) (fn : Nat) : Bool :=
  decide (160 * ((s.versions.filter fun v => v.fn == fn && v.chaff).length + 1) ≤ (s.func fn).chsize * 65536)

/-- Alternate slots are numbered from here in `cached`. -/
def alternates : Nat := 2 ^ 60

/-- R88: the set of the memory-side cache in which a line, or its alternate slot, lies, over all slices: its address by 2,048, modulo 1,024 (log 91,
DESIGN CHOICE). -/
def State.cacheSet (s : State) (fn x : Nat) : Nat :=
  let a := x % alternates * 128
  s.homeOf fn a * Config.cacheSets + bareOf a / 2048 % Config.cacheSets

/-- R166: the version ways that provisional versions take in the set of a line. -/
def State.waysUsed (s : State) (fn line : Nat) : Nat :=
  (s.versions.filter fun v => !v.chaff && s.cacheSet v.fn v.line == s.cacheSet fn line).length

/-- R166: a way of the set is free for a version: fewer than 8 are taken, and the slice gives it one (log 18). -/
def State.wayOpen (s : State) (fn line : Nat) : Bool :=
  decide (s.waysUsed fn line < Config.versionWays) && Config.wayFree s.turn

/-- R166: the version that prediction `k` writes exists, or a way or the chaff region has room for it. -/
def State.specRoom (s : State) (fn d k line : Nat) : Bool :=
  s.versions.any (fun v => v.duc == d && v.k == k && v.line == line) || s.wayOpen fn line || s.chaffRoom fn

/-- R88: a way of a line's set is free for what comes: in a full set the line used longest ago leaves, to be read from memory when it is
next named (log 91). -/
def State.freeWay (s : State) (fn line : Nat) : State :=
  let mates := s.cached.filter fun l => s.cacheSet fn l == s.cacheSet fn line
  if mates.length + s.waysUsed fn line < Config.cacheWays then s else { s with cached := s.cached.erase (mates.headD line) }

/-- R142: bytes of one line, by their place in it, written into the version (d, k), which in a version way takes a way of its set. -/
def State.specPut (s : State) (fn d k line : Nat) (bs : List (Nat × Byte)) : State :=
  let merge (old : List (Nat × Byte)) : List (Nat × Byte) :=
    bs.foldl (fun m b => KMap.put m b.1 b.2) old
  if s.versions.any fun v => v.duc == d && v.k == k && v.line == line then
    { s with versions := s.versions.map fun v =>
        if v.duc = d ∧ v.k = k ∧ v.line = line then { v with bytes := merge v.bytes } else v }
  else
    let way := s.wayOpen fn line
    { s with
      cached := if way then (s.freeWay fn line).cached else s.cached
      versions := s.versions ++ [⟨d, k, line, fn, !way, merge []⟩] }

/-- R88: what has a way of the set of `line` is brought to its home slice, or used there: it is the youngest of its set. -/
def State.enterWay (s : State) (fn line key : Nat) : State :=
  if s.cached.contains key then { s with cached := s.cached.erase key ++ [key] }
  else { s with cached := (s.freeWay fn line).cached ++ [key] }

/-- R88, R156: the number in `cached` of the slot of a line that is current (`cur`), or of the other one: the line's own, beyond `alternates`
for the slot in the shadow area. -/
def State.slotKey (s : State) (cur : Bool) (a : Nat) : Nat :=
  if s.inSheafRegion a ∧ s.curIsOther a = cur then alternates + a / 128 else a / 128

/-- R88: a line of this device is brought to its home slice, or used there. -/
def State.cacheLine (s : State) (fn a : Nat) : State := if devOf a ≠ s.devnum then s else s.enterWay fn (a / 128) (s.slotKey true a)

/-- R88: the other slot of a sheaf line takes a way of the line's set. -/
def State.cacheAlternate (s : State) (a : Nat) : State := if devOf a ≠ s.devnum then s else s.enterWay 0 (a / 128) (s.slotKey false a)

/-- R111, R135: a slot of a line of local HBM that its home slice does not hold, while the calendar stands in a slot; its sidecar goes with
it (log 91). -/
def State.slotShut (s : State) (cur : Bool) (a : Nat) : Bool :=
  s.inSlotNow && devOf a == s.devnum && isHbm a && !s.cached.contains (s.slotKey cur a)

/-- R111: the line itself, in its current slot; and the other slot of a sheaf line. -/
def State.hbmShut (s : State) (a : Nat) : Bool := s.slotShut true a
def State.altShut (s : State) (a : Nat) : Bool := s.slotShut false a

end Sys2Proof.Machine
end

