-- ==== Sys2Proof/Machine/Operands.lean ====
section
/-!
DEFINITION. Operand fields: the checks of R16 to R18 in the order of R35, reads and writes of registers, scalars and
predicates (R16 to R19, R185, R215, R245), uniformity (R19), and the frame that every instruction's meaning fills in.
-/

namespace Sys2Proof.Machine

/-! ### Registers -/

/-- Thread t's 32 bits of vector register n; a register never written reads 0 (R80). -/
def Group.vreg (g : Group) (n t : Nat) : Word := (KMap.getD g.v n []).getD t 0
/-- Scalar n (R13). -/
def Group.sreg (g : Group) (n : Nat) : DWord := KMap.getD g.s n 0

/-- Register n with `f t` in the threads where it is given. -/
def Group.setV (g : Group) (n : Nat) (f : Nat → Option Word) : Group :=
  { g with v := KMap.put g.v n ((List.range 64).map fun t => (f t).getD (g.vreg n t)) }

/-- R185: the first register of the queue window. -/
def Group.windowFrom (g : Group) : Nat := 192 - 8 * g.window

/-- A write to vector register n of a context; a window register is the partner's as well (R185). -/
def State.writeV (s : State) (gid n : Nat) (f : Nat → Option Word) : State :=
  match s.group gid with
  | none => s
  | some g =>
    let s1 := s.setGroup gid (g.setV n f)
    match g.partner with
    | some p => if g.windowFrom ≤ n then s1.modGroup p fun x => x.setV n f else s1
    | none => s1

def State.writeS (s : State) (gid n : Nat) (v : DWord) : State := s.modGroup gid fun g => { g with s := KMap.put g.s n v }

/-- R31: predicate n takes `res` in the threads of `run`. -/
def State.writeP (s : State) (gid n : Nat) (run res : BitVec 64) : State :=
  s.modGroup gid fun g => { g with p := KMap.put g.p n ((g.pred n &&& ~~~run) ||| (res &&& run)) }

/-- R18, R80: the block of register n is held. -/
def Group.holds (g : Group) (n : Nat) : Bool := g.blocks.getLsbD (n / 8)

/-- R18: registers n to n + run − 1 exist and lie in held blocks. -/
def Group.runOk (g : Group) (n run : Nat) : Bool :=
  decide (n + run ≤ 192) && (List.range run).all fun k => g.holds (n + k)

/-! ### Checks (R18, R35) -/

/-- The cause and detail of a failing check. -/
abbrev Chk := Option (Nat × Nat)

def firstChk : List Chk → Chk
  | [] => none
  | some x :: _ => some x
  | none :: l => firstChk l

def failIf (b : Bool) (cause detail : Nat) : Chk := if b then some (cause, detail) else none

/-- R29: the type is one that the instruction accepts. -/
def typeChk (ok : Bool) : Chk := failIf (!ok) 1 1
/-- R18: an unused field holds 0x00. -/
def zeroChk (fld : Nat) (u : Byte) : Chk := failIf (decide (u ≠ 0)) 2 fld

def Opnd.isUni : Opnd → Bool
  | .sca _ | .zero | .one | .lit _ => true
  | _ => false
def Opnd.isSca : Opnd → Bool
  | .sca _ => true
  | _ => false
def Opnd.isVec : Opnd → Bool
  | .vec _ => true
  | _ => false

/-- R19: uniform: a scalar destination, every source a scalar, literal, zero or one. -/
def uniform (d : Opnd) (srcs : List Opnd) : Bool := Opnd.isSca d && srcs.all Opnd.isUni

/-- R187: what a quill context does not execute. -/
def quillChk (i : Iss) (available : Bool) : Chk := failIf (i.g.quill && !available) 1 3

/-- R16 to R18: a source of `run` registers (2 for a pair, which must be even); `f64lit` says that it is read as f64. -/
def srcChk (i : Iss) (fld : Nat) (o : Opnd) (pair f64lit : Bool) : Chk :=
  match o with
  | .vec n => failIf ((pair && n % 2 == 1) || !i.g.runOk n (if pair then 2 else 1)) 2 fld
  | .lit _ => failIf f64lit 2 fld
  | .res _ => some (2, fld)
  | _ => none

/-- R18: with a scalar destination, a vector or thread-index source faults at its field. -/
def pairedChk (fld : Nat) (d o : Opnd) : Chk := failIf (Opnd.isSca d && !Opnd.isUni o && match o with | .res _ => false | _ => true) 2 fld

/-- R16, R18: a destination: a vector register (or pair), a scalar, or zero. -/
def dstChk (i : Iss) (fld : Nat) (o : Opnd) (pair : Bool) : Chk :=
  match o with
  | .vec n => failIf ((pair && n % 2 == 1) || !i.g.runOk n (if pair then 2 else 1)) 2 fld
  | .sca _ | .zero => none
  | _ => some (2, fld)

/-- A field that must be a scalar. -/
def scaChk (fld : Nat) (o : Opnd) : Chk := failIf (!Opnd.isSca o) 2 fld
/-- A field that must be a vector register, or a pair. -/
def vecChk (i : Iss) (fld : Nat) (o : Opnd) (pair : Bool) : Chk :=
  match o with
  | .vec _ => dstChk i fld o pair
  | _ => some (2, fld)
/-- R229: a predicate number. -/
def predChk (fld : Nat) (p : Byte) : Chk := failIf (decide (7 < p.toNat)) 2 fld

def Opnd.isLit : Opnd → Bool
  | .lit _ => true
  | _ => false

/-- R34, R35: a fault caused by the value supplied through a field names the field, and is found among the field's own checks. -/
def valueChk (fld : Nat) (o : Opnd) (bad : Bool) : Chk := failIf (!Opnd.isLit o && bad) 2 fld
/-- R34, R35: where the field holds 0xF1, it names the literal, and is found after all fields. -/
def litChk (o : Opnd) (bad : Bool) : Chk := failIf (Opnd.isLit o && bad) 2 4

/-! ### Values -/

/-- R14, R17: a literal read as 64 bits. -/
def litWide (w : Word) : Nat := (w.signExtend 64).toNat

/-- R16 to R19: the w-bit pattern that an operand supplies in thread t, read in type `ty`. -/
def Iss.src (i : Iss) (ty : EType) (o : Opnd) (t : Nat) : Nat :=
  let w := widthOf ty
  match o with
  | .vec n => if w = 64 then (i.g.vreg n t).toNat + (i.g.vreg (n + 1) t).toNat * 2 ^ 32 else (i.g.vreg n t).toNat % 2 ^ w
  | .sca n => (i.g.sreg n).toNat % 2 ^ w
  | .zero => 0
  | .one => oneOf ty
  | .tid => tidOf ty i.mode t
  | .lit l => litWide l % 2 ^ w
  | .res _ => 0

/-- A uniform operand read as 64 bits: a scalar, a literal (R14), zero or one, which in an instruction that has no type is the integer 1
(log 124). -/
def Iss.uni64 (i : Iss) (o : Opnd) : DWord :=
  match o with
  | .sca n => i.g.sreg n
  | .lit l => l.signExtend 64
  | .one => 1
  | _ => 0

/-- A uniform operand read as n32. -/
def Iss.uni32 (i : Iss) (o : Opnd) : Nat := (i.uni64 o).toNat % 2 ^ 32

/-- R19: results `f t` of type `ty` written to a destination in the threads of `run`. -/
def State.putVec (s : State) (gid : Nat) (ty : EType) (d : Opnd) (run : BitVec 64) (f : Nat → Nat) : State :=
  match d with
  | .vec n =>
    let r := (List.range 64).map fun t => if run.getLsbD t then some (extendTo ty (max 32 (widthOf ty)) (f t)) else none
    let at_ (t : Nat) : Option Nat := r.getD t none
    if widthOf ty = 64 then
      (s.writeV gid n fun t => (at_ t).map word).writeV gid (n + 1) fun t => (at_ t).map fun x => word (x / 2 ^ 32)
    else s.writeV gid n fun t => (at_ t).map word
  | _ => s

/-- R19: one result of type `ty` written to a scalar. -/
def State.putSca (s : State) (gid : Nat) (ty : EType) (d : Opnd) (x : Nat) : State :=
  match d with
  | .sca n => s.writeS gid n (dword (extendTo ty 64 x))
  | _ => s

/-- R19, R216: a result per thread, or one when the instruction is uniform. -/
def State.put (s : State) (i : Iss) (ty : EType) (d : Opnd) (uni : Bool) (f : Nat → Nat) : State :=
  if uni then s.putSca i.gid ty d (f 0) else s.putVec i.gid ty d i.run f

/-! ### The frame of a meaning -/

/-- An instruction: its checks in the order of R35, then its effect. Without an issuing gang there is no such step. -/
def State.insn (s : State) (chk : Iss → List Chk) (body : Iss → State) : Out :=
  match s.issuer with
  | none => .fault .noIssuer
  | some i =>
    match firstChk (chk i) with
    | some (c, d) => .next (s.trap i c d)
    | none => .next (body i)

/-- R19: which threads of a group an operand width pairs. -/
def wide (t : EType) : Bool := widthOf t == 64

/-- R215 to R217: an instruction with destination d and sources a, b of the form's type. -/
def aluChk (i : Iss) (ok : Bool) (d : Opnd) (srcs : List (Nat × Opnd × Bool)) : List Chk :=
  let w := wide i.ty
  [typeChk ok, quillChk i (uniform d (srcs.map fun x => x.2.1)), dstChk i 1 d w] ++
  srcs.flatMap fun x => [pairedChk x.1 d x.2.1, srcChk i x.1 x.2.1 (w && x.2.2) (i.ty == .f64 && x.2.2)]

/-- R215: the integer types of the integer instructions. -/
def intTy (t : EType) : Bool := isInt t && t != .i4

end Sys2Proof.Machine
end

