-- ==== Sys2Proof/Machine/Lines.lean ====
section
/-!
DEFINITION. Register caches (R79 to R83): which lines of a context's image (R78) a sub-core's register cache holds, their fills,
write-backs and evictions. The registers and the stack that Group holds are the truth for every line that is present; for a line that
has been evicted it is the image in memory (log 69).

Lines are numbered by their offset in the image divided by 128: 16 to 18 hold the scalars, 19 the predicates, 32 + 2n and 33 + 2n
vector register n, and those from 416 the spill stack.
-/

namespace Sys2Proof.Machine

/-- The first line of the spill stack. -/
def stackFirst : Nat := 416

/-- R78: the image byte at offset `o` that the group's registers and stack give. -/
def Group.imageByte (g : Group) (o : Nat) : Byte :=
  if o < 0x800 then 0
  else if o < 0x980 then byte ((g.sreg ((o - 0x800) / 8)).toNat / 256 ^ (o % 8))
  else if o < 0x9C0 then byte ((g.pred ((o - 0x980) / 8)).toNat / 256 ^ (o % 8))
  else if o < 0x1000 then 0
  else if o < 0xD000 then byte ((g.vreg ((o - 0x1000) / 256) (o % 256 / 4)).toNat / 256 ^ (o % 4))
  else Mem.get g.stack (o % 256 / 4 * 65536 + (o - 0xD000) / 256 * 4 + o % 4)

/-- R78: the 128 bytes of a line. -/
def Group.lineBytes (g : Group) (line : Nat) : List Byte := (List.range 128).map fun j => g.imageByte (128 * line + j)

/-- The same bytes read back into registers and stack. -/
def Group.setLine (g : Group) (line : Nat) (bs : List Byte) : Group :=
  let val (at_ n : Nat) : Nat := leVal ((List.range n).map fun j => bs.getD (at_ + j) 0)
  if line < 16 then g
  else if line < 19 then
    { g with s := (List.range 16).foldl (fun m k => KMap.put m (16 * (line - 16) + k) (dword (val (8 * k) 8))) g.s }
  else if line = 19 then { g with p := (List.range 8).foldl (fun m k => KMap.put m k (dword (val (8 * k) 8))) g.p }
  else if line < 32 then g
  else if line < stackFirst then
    let half := (line - 32) % 2
    g.setV ((line - 32) / 2) fun t => if t / 32 = half then some (word (val (4 * (t % 32)) 4)) else none
  else
    let o := 128 * (line - stackFirst)
    { g with stack := Mem.writeAt g.stack ((List.range 128).map fun j =>
        ((o + j) % 256 / 4 * 65536 + (o + j) / 256 * 4 + j % 4, bs.getD j 0)) }

/-- R78, R80: the image of the group has the line, and the group holds its registers. -/
def Group.hasLine (g : Group) (line : Nat) : Bool :=
  (decide (16 ≤ line) && decide (line < 20)) ||
  (decide (32 ≤ line) && decide (line < stackFirst) && g.holds ((line - 32) / 2)) ||
  (decide (stackFirst ≤ line) && decide (2 * (line - stackFirst) < g.stackSize))

/-- The lines of a register block. -/
def blockLines (b : Nat) : List Nat := (List.range 16).map fun k => 32 + 16 * b + k

/-- R78: the line of the stack byte that Group.stack holds at `a`. -/
def stackLine (a : Nat) : Nat := stackFirst + (a % 65536 / 4 * 256 + a / 65536 * 4) / 128

/-! ### What a cache holds -/

/-- The sub-core, or the quill processor, of a context. -/
def Group.cacheUnit (g : Group) : Nat := 8 * g.core + g.sub

/-- When a context was last chosen (R350). -/
def Group.lastChosen (g : Group) : Nat := max g.age g.chosen

def State.unitLines (s : State) (u : Nat) : List RegLine := KMap.getD s.regLines u []

/-- R79: the line is present. -/
def State.lineHere (s : State) (gid : Nat) (g : Group) (line : Nat) : Bool :=
  (s.unitLines g.cacheUnit).any fun l => l.gid == gid && l.line == line

/-- R79: of `ls`, the lines that a group with an image still needs. -/
def State.absentLines (s : State) (gid : Nat) (g : Group) (ls : List Nat) : List Nat :=
  if g.quill ∨ (KMap.get s.images gid).isNone then []
  else (nubBy ls).filter fun l => g.hasLine l && !s.lineHere gid g l

/-- R78: the domain address of a line. -/
def State.lineAt (s : State) (g : Group) (im : Image) (line : Nat) : Nat := s.dpaOf (s.fnOf g) im.base + 128 * line

/-- R79: a dirty line is written back to its image, through its home. -/
def State.writeLine (s : State) (l : RegLine) : State :=
  match s.group l.gid, KMap.get s.images l.gid with
  | some g, some im =>
    let a := s.lineAt g im l.line
    let bs := (List.range 128).map fun j => (a + j, (g.lineBytes l.line).getD j 0)
    let s1 := ((s.cacheLine (s.fnOf g) a).memPutAll (s.func (s.fnOf g)).owner bs).touchLines bs
    { s1 with images := KMap.put s1.images l.gid { im with back := if im.back.contains l.line then im.back else im.back ++ [l.line] } }
  | _, _ => s

/-- R79: the order of eviction: lines of groups that are not resident, or off-core (R361), then by how long their groups have gone without
issue. -/
def State.lineRank (s : State) (l : RegLine) : Nat :=
  match s.group l.gid with
  | none => 0
  | some g => if g.presence ≠ .here ∨ g.offCore then 0 else 1 + g.lastChosen

/-- R79, R111: the line may leave now: it is clean, or its write-back would be served. -/
def State.mayLeave (s : State) (l : RegLine) : Bool :=
  !l.dirty || match s.group l.gid, KMap.get s.images l.gid with
    | some g, some im => !s.hbmShut (s.lineAt g im l.line)
    | _, _ => true

/-- R79: a line leaves the cache of unit `u`, written back first when it is dirty. -/
def State.evict (u : Nat) (s : State) (l : RegLine) : State :=
  let s1 := if l.dirty then s.writeLine l else s
  { s1 with regLines := KMap.adjust s1.regLines u fun ls => ls.erase l }

/-- R79: the line of the cache of unit `u` that leaves next: one of the lowest rank that may leave now. The lines `keep`, by context and number,
do not leave; where a slot holds up every write-back of that rank, it holds up the later ranks as well. -/
def State.firstOut (s : State) (u : Nat) (keep : List (Nat × Nat)) : Option RegLine :=
  match (s.unitLines u).filter fun l => !keep.contains (l.gid, l.line) with
  | [] => none
  | x :: ls =>
    let rank := ls.foldl (fun r l => min r (s.lineRank l)) (s.lineRank x)
    (x :: ls).find? fun l => s.lineRank l == rank && s.mayLeave l

/-- R79: as many as `n` lines leave the cache of unit `u`. -/
def State.makeRoom (u : Nat) (keep : List (Nat × Nat)) : Nat → State → State
  | 0, s => s
  | n + 1, s => match s.firstOut u keep with
    | some l => State.makeRoom u keep n (State.evict u s l)
    | none => s

/-- R79: the cache of unit `u` after as many lines have left it in their order as one more line needs. -/
def State.evicted (s : State) (u : Nat) (keep : List (Nat × Nat)) : State :=
  State.makeRoom u keep ((s.unitLines u).length + 1 - Config.registerLines) s

/-- R79: a place for one more line in the cache of unit `u`: none when too few may leave. -/
def State.lineRoom (s : State) (u : Nat) (keep : List (Nat × Nat)) : Option State :=
  let t := s.evicted u keep
  if (t.unitLines u).length < Config.registerLines then some t else none

/-- A line of the group is entered in its cache. -/
def State.enterLine (s : State) (gid : Nat) (g : Group) (line : Nat) (dirty : Bool) : State :=
  { s with regLines := KMap.put s.regLines g.cacheUnit (s.unitLines g.cacheUnit ++ [⟨gid, line, dirty⟩]) }

/-! ### What an instruction names, and fills -/

/-- Vector registers that an element of a type takes (R16). -/
def regsOf (t : EType) : Nat := if wide t then 2 else 1

/-- R263: registers of a fragment of a shape. -/
def fragRegs (shape : Nat) : Nat := if shape = 1 then 64 else 32
def fragLines (frag n : Nat) : List Nat := (List.range (2 * n)).map fun k => 32 + 2 * frag + k

/-- The lines of an operand field that takes `v` vector registers, or `n` scalars. -/
def Opnd.lines (o : Opnd) (v n : Nat) : List Nat :=
  match o with
  | .vec r => fragLines r v
  | .sca r => (List.range n).map fun k => 16 + (r + k) / 16
  | _ => []

/-- R79: how many vector registers, or scalars, each operand field of an instruction takes under a form of type `t`, in the order of
Instr.operands: as a rule one element of the form's type. -/
def Instr.spans (g : Group) (t : EType) (i : Instr) : List (Nat × Nat) :=
  let one := (1, 1)
  let typed := (regsOf t, 1)
  let run (n : Nat) := (n * regsOf t, n)
  let of (c : Byte) := (regsOf (etypeOf (c.toNat % 16)), 1)
  let ofCtl (c : Word) := regsOf (etypeOf (bitsOf c.toNat 11 8))
  let frag (b : Opnd) := match b with | .sca n => (fragRegs (bitsOf (g.sreg (n + 4)).toNat 17 16), 1) | _ => one
  match i with
  | .shl .. | .shr .. | .shra .. | .rotl .. | .bfx .. | .bfi .. | .shfl .. | .shflu .. | .shfld .. | .shflx .. | .fscale .. =>
    [typed, typed, one]
  | .lea .. | .hadd2 .. | .hmul2 .. | .hfma2 .. | .pdot4 .. | .pdot8 .. | .pdot2 .. | .reord .. | .pmov .. | .pref .. => [one, one, one]
  | .madw .. => [(2, 1), one, one]
  | .matchv .. => [(2, 1), typed]
  | .fclass .. => [one, typed]
  | .cvt _ _ c => [typed, of c]
  | .cvtn _ _ c => [one, of c]
  | .cvtw .. => [typed, one]
  | .ld .. | .st .. | .gather .. => [typed, one, one]
  | .ld2 .. | .st2 .. => [run 2, one, one]
  | .ld4 .. | .st4 .. => [run 4, one, one]
  | .atladd .. | .atlmin .. | .atlmax .. | .atland .. | .atlor .. | .atlxor .. | .atlxch .. => [typed, one, typed]
  | .atlcas .. => [typed, one, run 2]
  | .scatter .. => [typed, (1, 2), one]
  | .ared _ _ _ c => [(ofCtl c, 1), (1, 2), one]
  | .atom _ _ _ c => [((if bitsOf c.toNat 15 12 = 7 then 2 else 1) * ofCtl c, 1), (1, 2), one]
  | .aprog .. => [(4, 1), one, one]
  | .bcopy .. | .bcopyr .. | .bcast .. | .trapServiceCall .. => [(8, 8)]
  | .shread .. => [one, (1, 8)]
  | .mloop _ b | .mloopQuill _ b _ | .mzero _ b _ => [frag b, (1, 8)]
  | .taskq .. => [(1, 3)]
  | .ctlr _ _ reg => [if reg = 1 then one else typed]
  | .ctlw .. => [one]
  | .trapSoftware .. => [(0, 0)]
  | _ => [typed, typed, typed]

/-- R226, R240: what a field names that selects a predicate or a scalar. -/
def selLines (d : Byte) : List Nat :=
  if d.toNat < 8 then [19] else if 0xC0 ≤ d.toNat ∧ d.toNat < 0xF0 then [16 + (d.toNat - 0xC0) / 16] else []

/-- R229: what the fields of an instruction name besides its operands: predicates, and the scalar of a compare or a vote. -/
def Instr.otherLines : Instr → List Nat
  | .sel .. | .addc .. | .subb .. | .movp .. | .pand .. | .por .. | .pxor .. | .pnot .. | .pset .. | .pmov .. | .ballot .. => [19]
  | .votea d _ _ | .votey d _ _ => 19 :: selLines d
  | .icmpeq d _ _ | .icmpne d _ _ | .icmplt d _ _ | .icmple d _ _ | .fcmpeq d _ _ | .fcmplt d _ _ | .fcmple d _ _ | .fcmpun d _ _
  | .elect d _ => selLines d
  | _ => []

/-- R79: the lines that an instruction names under a form; its guard names a predicate (R31). -/
def instrLines (g : Group) (form : Word) (i : Instr) : List Nat :=
  ((i.operands.zip (Instr.spans g (etypeOf (bitsOf form.toNat 8 5)) i)).flatMap fun x => Opnd.lines x.1 x.2.1 x.2.2) ++
    Instr.otherLines i ++
    if bitsOf form.toNat 3 0 < 8 then [19] else []

/-- The lines that the instructions among a clause's words name. -/
def linesOfWords (g : Group) (form : Word) : Nat → List Word → List Nat
  | 0, _ => []
  | fuel + 1, ws =>
    match decode ws with
    | .ok (i, r) => instrLines g form i ++ linesOfWords g form fuel r
    | .error _ => []

def hdrForm (h : Word) : Nat := bitsOf h.toNat 8 7

/-- R23: the form under which the clause's next instruction issues. -/
def ClauseBuf.formNow (c : ClauseBuf) (forms : List Word) : Word := if c.formed then c.form else forms.getD (hdrForm c.hdr) 8

/-- The lines that the rest of a clause of the group names; those of a resident register only (`hasLine`) count. -/
def Group.clauseLines (g : Group) (c : ClauseBuf) : List Nat := linesOfWords g (c.formNow g.forms) 8 (c.words.drop c.next)

/-- R79, R274: the fragment on which the unit's matrix operation works: its instruction stands in the operand-read stage until the unit is
done with it (log 69). -/
def State.unitFragment (s : State) (u : Nat) : List (Nat × Nat) :=
  let lines (t frag n : Nat) : Option (List (Nat × Nat)) := match s.group t with
    | some g => if g.cacheUnit = u ∧ g.presence ≠ .away then some ((fragLines frag n).map fun l => (t, l)) else none
    | none => none
  (s.ops.findSome? fun e => match e.2.kind with
    | .mloop t frag b _ _ j .. => if e.2.failed.isSome ∨ b.steps ≤ j then none else lines t frag (fragRegs b.shape)
    | .mzero frag n _ => if e.2.swept then none else lines e.2.gid frag n
    | _ => none).getD []

/-- R79: the lines that do not leave for a line of the group that an instruction waits for: those that its own begun clauses and matrix
operations name, and what the unit works on (log 69). -/
def State.operandLines (s : State) (gid : Nat) (g : Group) : List (Nat × Nat) :=
  ((g.gangs.flatMap fun k => match k.clause with | some c => g.clauseLines c | none => []) ++
  s.ops.flatMap fun e => match e.2.kind with
    | .mloop t frag b .. => if t = gid then fragLines frag (fragRegs b.shape) else []
    | .mzero frag n _ => if e.2.gid = gid then fragLines frag n else []
    | _ => []).map (fun l => (gid, l)) ++ s.unitFragment g.cacheUnit

/-- R79: the lines of the instruction that issues in the step from `s` to `t`: it stands in the operand-read stage in that step (log 69). -/
def State.readLines (s t : State) : List (Nat × Nat) :=
  s.groups.flatMap fun e => match t.group e.1 with
    | some h => e.2.gangs.flatMap fun k =>
        if h.gangs.any fun x => x.lastIssue == s.turn && x.nibs.any k.nibs.contains then
          match k.clause with
          | some c => (linesOfWords e.2 (c.formNow e.2.forms) 1 (c.words.drop c.next)).map fun l => (e.1, l)
          | none => []
        else []
    | none => []

/-- R80: a line that the T9 installs, or that has been written, is present and dirty; the lines `keep` do not leave for it. A step in
which too few lines may leave for it does not come (State.linesFit). -/
def State.dirtyLine (keep : List (Nat × Nat)) (s : State) (gid line : Nat) : State :=
  match s.group gid with
  | none => s
  | some g =>
    if s.lineHere gid g line then
      { s with regLines := KMap.adjust s.regLines g.cacheUnit fun ls => ls.map fun l =>
          if l.gid = gid ∧ l.line = line then { l with dirty := true } else l }
    else (s.evicted g.cacheUnit ((gid, line) :: keep ++ s.unitFragment g.cacheUnit)).enterLine gid g line true

/-- REGISTER_LINE_FILL: a line that is not present arrives from its home (R79), which in a slot must hold it (R111). A line that was
never written back is as the group has it (R80, R83). -/
def State.fillLine (s : State) (gid line : Nat) : State :=
  match s.group gid, KMap.get s.images gid with
  | some g, some im =>
    let a := s.lineAt g im line
    if g.quill ∨ g.presence ≠ .here ∨ !g.hasLine line ∨ s.lineHere gid g line ∨ s.hbmShut a then s
    else match s.lineRoom g.cacheUnit (s.operandLines gid g) with
      | none => s
      | some s1 =>
        let fn := s.fnOf g
        let s2 := if im.back.contains line then
            let s2 := s1.cacheLine fn a
            s2.modGroup gid fun g => g.setLine line (s2.memRead (s2.func fn).owner a 128)
          else s1
        s2.enterLine gid g line false
  | _, _ => s

/-! ### What a step leaves -/

/-- The lines whose contents differ between two states of a group. -/
def changedLines (g h : Group) : List Nat :=
  (if g.s = h.s then [] else (List.range 48).filterMap fun n => if g.sreg n = h.sreg n then none else some (16 + n / 16)) ++
  (if g.p = h.p then [] else if (List.range 8).all fun n => g.pred n == h.pred n then [] else [19]) ++
  (if g.v = h.v then [] else (nubBy (KMap.keys g.v ++ KMap.keys h.v)).flatMap fun n => (List.range 2).filterMap fun j =>
    if (List.range 32).all fun t => g.vreg n (32 * j + t) == h.vreg n (32 * j + t) then none else some (32 + 2 * n + j)) ++
  (if g.stack = h.stack then [] else ((g.stack.filter fun c => Mem.get h.stack c.1 ≠ c.2) ++
    h.stack.filter fun c => Mem.get g.stack c.1 ≠ c.2).map fun c => stackLine c.1)

/-- The blocks of a mask. -/
def blocksOf (m : BitVec 24) : List Nat := (List.range 24).filter fun b => m.getLsbD b

/-- R79, R80: the lines that the group writes or is granted between two states; at admission its scalars, its predicates and the
blocks that it is granted. -/
def newLines (g : Option Group) (h : Group) : List Nat :=
  match g with
  | none => [16, 17, 18, 19] ++ (blocksOf h.blocks).flatMap blockLines
  | some g => nubBy ((blocksOf (h.blocks &&& ~~~g.blocks)).flatMap blockLines ++ changedLines g h)

/-- The register caches after a step from `s` that has brought `t`: lines of contexts that are gone and of blocks that were returned
are dropped, and what the step wrote or granted is present and dirty. -/
def State.settleLines (s t : State) : State :=
  if t.images = [] then { t with regLines := [] }
  else
    let kept (l : RegLine) : Bool := (KMap.get t.images l.gid).isSome && match t.group l.gid with
      | some g => g.hasLine l.line
      | none => false
    let t1 : State := { t with regLines := t.regLines.map fun e => (e.1, e.2.filter kept) }
    let reads := s.readLines t
    t.images.foldl (fun r e => match t.group e.1 with
      | none => r
      | some h => if h.quill then r
        else (newLines (if (KMap.get s.images e.1).isSome then s.group e.1 else none) h).foldl (fun r l => State.dirtyLine reads r e.1 l) r) t1

/-- R79: every register cache is within its capacity. -/
def State.linesFit (s : State) : Bool := s.regLines.all fun e => decide (e.2.length ≤ Config.registerLines)

end Sys2Proof.Machine
end

