-- ==== Sys2Proof/Machine/Flags.lean ====
section
/-!
DEFINITION. Exception flags and floating traps (R203 to R205, R246 to R248), and the long-latency results and completion
flags of a group (R12, R21).
-/

namespace Sys2Proof.Machine

/-- Thread t's exception flags. -/
def Group.flagsOf (g : Group) (t : Nat) : Flags := g.xflg.getD t 0

/-- R204: `f t` is ORed into XFLG of every thread. -/
def Group.orFlags (g : Group) (f : Nat → Flags) : Group :=
  { g with xflg := (List.range 64).map fun t => g.flagsOf t ||| f t }

/-! ### Long-latency results (R12, R21) -/

/-- The opcodes of the instructions among a clause's words, of which at most `fuel` follow (R17, R22). -/
def opsIn : Nat → List Word → List Nat
  | 0, _ => []
  | fuel + 1, ws =>
    match ws with
    | [] => []
    | w :: r =>
      let op := (opField w).toNat
      match shapeOf op with
      | none => op :: opsIn fuel r
      | some sh =>
        let c := sh.mandatory + (if sh.a && aField w == 241 then 1 else 0) + (if sh.b && bField w == 241 then 1 else 0)
          + (if sh.c && cField w == 241 then 1 else 0)
        op :: opsIn fuel (r.drop c)

/-- R38: an opcode marked L. -/
def longOp (op : Nat) : Bool := match shapeOf op with | some sh => sh.long | none => false

/-- The long-latency instructions among a clause's words (R21, R38). -/
def longsIn (fuel : Nat) (ws : List Word) : Nat := ((opsIn fuel ws).filter longOp).length

/-- R21: long-latency instructions of the clause that have not issued yet. -/
def ClauseBuf.longsLeft (c : ClauseBuf) : Nat := longsIn 8 (c.words.drop c.next)

/-- R21: a result that a raise waits for is in flight or still to issue. -/
def Group.awaited (g : Group) (r : Raise) : Bool :=
  (g.longs.any fun l => l.clause == r.clause && (!r.second || l.ord == 2)) ||
  g.gangs.any fun k => match k.clause with
    | some c => c.serial == r.clause && decide (0 < c.longsLeft) && (!r.second || decide (c.longs < 2))
    | none => false

/-- R21: a raise stands while a result that it waits for is awaited; one whose clause is abandoned before its long-latency instruction
issues no longer stands (log 86). A flag that a written image has set (R359) has no clause, and stands until the clauses that raised it since
have had their results written (log 69). -/
def Group.raiseStands (g : Group) (r : Raise) : Bool :=
  if r.clause = 0 then
    let since := g.raises.filter fun x => x.flag == r.flag && x.clause != 0
    since.isEmpty || since.any g.awaited
  else g.awaited r

/-- R21: flags whose results have been written are clear. -/
def Group.settle (g : Group) : Group := { g with raises := g.raises.filter g.raiseStands }

/-- R12, R21: completion flag k is clear. -/
def Group.flagClear (g : Group) (k : Nat) : Bool := !g.raises.any fun r => r.flag == k

/-- One register write of a result. -/
def State.regWrite (s : State) (gid : Nat) : RegWrite → State
  | .vec n t w => s.writeV gid n fun u => if u = t then some w else none
  | .sca n w => s.writeS gid n w
  | .flags t f => s.modGroup gid fun g => g.orFlags fun u => if u = t then f else 0

def State.regWrites (s : State) (gid : Nat) (ws : List RegWrite) : State := ws.foldl (fun s w => s.regWrite gid w) s

/-- The register writes of a result of type `ty` in one thread. -/
def vecWrites (ty : EType) (d : Opnd) (t x : Nat) : List RegWrite :=
  match d with
  | .vec n =>
    let y := extendTo ty (max 32 (widthOf ty)) x
    .vec n t (word y) :: (if widthOf ty = 64 then [.vec (n + 1) t (word (y / 2 ^ 32))] else [])
  | _ => []

def scaWrites (ty : EType) (d : Opnd) (x : Nat) : List RegWrite :=
  match d with
  | .sca n => [.sca n (dword (extendTo ty 64 x))]
  | _ => []

/-- R91, R92: the registers that element k of an operand takes. -/
def elemOpnd (ty : EType) (o : Opnd) (k : Nat) : Opnd :=
  match o with
  | .vec n => .vec (n + k * (if wide ty then 2 else 1))
  | .sca n => .sca (n + k)
  | o => o

/-- The value of an element from its pieces. -/
def elemVal (ps : List LPiece) (t el : Nat) : Nat :=
  ((ps.filter fun p => p.t == t && p.el == el).map fun p => leVal (p.got.getD []) * 2 ^ (8 * p.elOff)).sum

/-- The registers that a long-latency operation writes, with their values as far as its pieces have performed. -/
def LongKind.targets : LongKind → List RegWrite
  | .result ws | .float ws => ws
  | .load d ty ps | .atomic d ty _ ps =>
    (nubBy (ps.map fun p => (p.t, p.el))).flatMap fun q =>
      let x := elemVal ps q.1 q.2
      match elemOpnd ty d q.2 with
      | .sca n => scaWrites ty (.sca n) x
      | o => vecWrites ty o q.1 x

/-- What the destination of a register write holds now. -/
def RegWrite.now (g : Group) : RegWrite → RegWrite
  | .vec n t _ => .vec n t (g.vreg n t)
  | .sca n _ => .sca n (g.sreg n)
  | .flags t f => .flags t f

/-- A long-latency result of the issuing clause comes under way. -/
def State.addLong (s : State) (i : Iss) (kind : LongKind) : State :=
  s.modIss i fun g =>
    let ord := match g.gang i.gang.id with
      | some k => (match k.clause with | some c => c.longs + 1 | none => 1)
      | none => 1
    let g1 : Group :=
      { g with longs := g.longs ++ [⟨g.nextSeq, i.cl.serial, ord, g.nextSeq, kind, 0, kind.targets.map (RegWrite.now i.g)⟩], nextSeq := g.nextSeq + 1 }
    g1.modGang i.gang.id fun k => { k with clause := k.clause.map fun c => { c with longs := c.longs + 1 } }

/-! ### Floating results (R205, R246 to R248) -/

/-- What each performing thread's operation gave. A uniform operation is performed once, and its flags go to every active
thread (R246). -/
def fpThreads (i : Iss) (uni : Bool) (f : Nat → FRes) : List (Nat × FRes) :=
  if uni then let r := f 0; (threadsOf i.active).map fun t => (t, r) else (threadsOf i.run).map fun t => (t, f t)

/-- R205: the threads that trap. -/
def trappers (i : Iss) (rs : List (Nat × FRes)) : List (Nat × FRes) := rs.filter fun r => r.2.2 &&& i.enables ≠ 0

/-- R204: the flags that each thread raised are ORed into its XFLG; a quill context holds none (R246). -/
def State.fpFlags (s : State) (i : Iss) (rs : List (Nat × FRes)) : State :=
  if i.g.quill then s
  else s.modIss i fun g => g.orFlags fun t => rs.foldl (fun m r => if r.1 = t then m ||| r.2.2 else m) 0

/-- R205: the flags are ORed in and the trap is taken; no destination is written. -/
def State.fpTrap (s : State) (i : Iss) (rs : List (Nat × FRes)) : State :=
  let tr := trappers i rs
  let fl := tr.foldl (fun m r => m ||| (r.2.2 &&& i.enables)) 0
  (s.fpFlags i rs).trapOn i 0x0B fl.toNat (maskOf (tr.map Prod.fst))

/-- In a quill context no thread carries the flags: the one performance is what may trap. -/
def fpPerformed (i : Iss) (uni : Bool) (f : Nat → FRes) : List (Nat × FRes) :=
  if i.g.quill then [(0, f 0)] else fpThreads i uni f

/-- R205, R247: results, flags and traps of a floating instruction of fixed latency, delivered by `store`. -/
def State.fpStore (s : State) (i : Iss) (uni : Bool) (f : Nat → FRes) (store : State → (Nat → Nat) → State) : State :=
  let rs := fpPerformed i uni f
  if trappers i rs ≠ [] then s.fpTrap i rs
  else
    let vs := (List.range 64).map fun t => ((rs.find? fun r => r.1 == t).map fun r => r.2.1).getD 0
    let vs0 := (rs.head?.map fun r => r.2.1).getD ((f 0).1)
    store (s.fpFlags i rs) (if uni then fun _ => vs0 else fun t => vs.getD t 0)

/-- R247: the usual floating instruction. -/
def State.fpPut (s : State) (i : Iss) (ty : EType) (d : Opnd) (uni : Bool) (f : Nat → FRes) : State :=
  s.fpStore i uni f fun s g => s.put i ty d uni g

/-- R248: a long-latency floating instruction: the trap is judged at issue (log 46); otherwise the result, with its flags, comes
under way, and while an enable is set it holds the instructions that follow it. -/
def State.fpLong (s : State) (i : Iss) (ty : EType) (d : Opnd) (uni : Bool) (f : Nat → FRes) : State :=
  let rs := fpPerformed i uni f
  if trappers i rs ≠ [] then s.fpTrap i rs
  else
    let fl := if i.g.quill then [] else rs.map fun r => RegWrite.flags r.1 r.2.2
    let ws := if uni then scaWrites ty d ((rs.head?.map fun r => r.2.1).getD ((f 0).1))
              else rs.flatMap fun r => vecWrites ty d r.1 r.2.1
    let s1 := s.addLong i (.float (ws ++ fl))
    if i.enables = 0 then s1 else s1.modGang i fun k => { k with hold := .result i.g.nextSeq }

end Sys2Proof.Machine
end

