-- ==== Sys2Proof/Machine/Integer.lean ====
section
/-!
DEFINITION. ILL (R37), moves, selection, integer arithmetic, logic, bit fields, compares, addresses and predicates (R215 to
R229).
-/

namespace Sys2Proof.Machine

/-! ### ILL -/

/-- R37: an illegal-instruction fault, detail 0. -/
def State.illegal (s : State) : Out := s.insn (fun _ => [some (1, 0)]) fun _ => s

def execIll (s : State) : Out := s.illegal
def execIllCode (_ : BitVec 24) (s : State) : Out := s.illegal

/-! ### Moves (R218, R219) -/

/-- R218: the 32 bits, or the pair, that a source moves into a vector register. -/
def Iss.moved (i : Iss) (a : Opnd) (t : Nat) : Nat :=
  match a with
  | .vec n => if wide i.ty then (i.g.vreg n t).toNat + (i.g.vreg (n + 1) t).toNat * 2 ^ 32 else (i.g.vreg n t).toNat
  | _ => extendTo i.ty (max 32 (widthOf i.ty)) (i.src i.ty a t)

/-- The type under which a moved value is stored whole. -/
def moveTy (t : EType) : EType := if wide t then .n64 else .n32

/-- R218: the value of a scalar MOV. -/
def Iss.movedSca (i : Iss) (a : Opnd) : DWord :=
  match a with
  | .one => dword (oneOf i.ty)
  | _ => i.uni64 a

def execMov (d a : Opnd) (u : Byte) (s : State) : Out :=
  s.insn (fun i => [quillChk i (uniform d [a]), dstChk i 1 d (wide i.ty), pairedChk 2 d a,
      srcChk i 2 a (wide i.ty) (i.ty == .f64 && !Opnd.isSca d), zeroChk 3 u]) fun i =>
    match d with
    | .sca n => s.writeS i.gid n (i.movedSca a)
    | _ => s.putVec i.gid (moveTy i.ty) d i.run (i.moved a)

/-- R219: the predicate that SEL reads, with its sense. -/
def Iss.selector (i : Iss) (ctl : Word) : BitVec 64 :=
  i.g.pred (ctl.toNat % 8) ^^^ (if ctl.toNat.testBit 3 then BitVec.allOnes 64 else 0)

def execSel (d a b : Opnd) (ctl : Word) (s : State) : Out :=
  s.insn (fun i => [quillChk i false, failIf (Opnd.isSca d) 2 1, dstChk i 1 d (wide i.ty),
      srcChk i 2 a (wide i.ty) (i.ty == .f64), srcChk i 3 b (wide i.ty) (i.ty == .f64),
      failIf (decide (16 ≤ ctl.toNat)) 2 4]) fun i =>
    s.putVec i.gid (moveTy i.ty) d i.run fun t => if (i.selector ctl).getLsbD t then i.moved a t else i.moved b t

/-! ### Arithmetic, logic and bit fields (R220 to R225) -/

/-- An instruction of form OP d, a, b, with d read as well; `bTyped` says that b is read in the form's type, and as n32
otherwise (R224, R225). -/
def State.int3 (s : State) (d a b : Opnd) (bTyped : Bool) (f : Iss → Nat → Nat → Nat → Nat) : Out :=
  s.insn (fun i => aluChk i (intTy i.ty) d [(2, a, true), (3, b, bTyped)]) fun i =>
    s.put i i.ty d (uniform d [a, b]) fun t =>
      f i (i.src i.ty d t) (i.src i.ty a t) (i.src (if bTyped then i.ty else .n32) b t)

/-- An instruction of form OP d, a. -/
def State.int2 (s : State) (d a : Opnd) (u : Byte) (f : Iss → Nat → Nat) : Out :=
  s.insn (fun i => aluChk i (intTy i.ty) d [(2, a, true)] ++ [zeroChk 3 u]) fun i =>
    s.put i i.ty d (uniform d [a]) fun t => f i (i.src i.ty a t)

/-- R220: wrap, or sat under SAT. -/
def Iss.wrapSat (i : Iss) (v : Int) : Nat := if i.sat then satT i.ty v else wrapT i.ty v

def execAdd (d a b : Opnd) (s : State) : Out :=
  s.int3 d a b true fun i _ x y => wrapT i.ty (valOf i.ty x + valOf i.ty y)
def execSub (d a b : Opnd) (s : State) : Out :=
  s.int3 d a b true fun i _ x y => wrapT i.ty (valOf i.ty x - valOf i.ty y)
def execMul (d a b : Opnd) (s : State) : Out :=
  s.int3 d a b true fun i _ x y => wrapT i.ty (valOf i.ty x * valOf i.ty y)
def execMulh (d a b : Opnd) (s : State) : Out :=
  s.int3 d a b true fun i _ x y => wrapT i.ty (valOf i.ty x * valOf i.ty y / ((2 ^ widthOf i.ty : Nat) : Int))
def execMad (d a b : Opnd) (s : State) : Out :=
  s.int3 d a b true fun i z x y => i.wrapSat (valOf i.ty z + valOf i.ty x * valOf i.ty y)
def execNeg (d a : Opnd) (u : Byte) (s : State) : Out := s.int2 d a u fun i x => i.wrapSat (-valOf i.ty x)
def execAbs (d a : Opnd) (u : Byte) (s : State) : Out := s.int2 d a u fun i x => i.wrapSat (valOf i.ty x).natAbs
def execMin (d a b : Opnd) (s : State) : Out :=
  s.int3 d a b true fun i _ x y => if valOf i.ty y < valOf i.ty x then y else x
def execMax (d a b : Opnd) (s : State) : Out :=
  s.int3 d a b true fun i _ x y => if valOf i.ty x < valOf i.ty y then y else x
def execAdds (d a b : Opnd) (s : State) : Out :=
  s.int3 d a b true fun i _ x y => satT i.ty (valOf i.ty x + valOf i.ty y)
def execSubs (d a b : Opnd) (s : State) : Out :=
  s.int3 d a b true fun i _ x y => satT i.ty (valOf i.ty x - valOf i.ty y)

/-- R223: the complement of a w-bit pattern. -/
def notT (t : EType) (x : Nat) : Nat := 2 ^ widthOf t - 1 - x % 2 ^ widthOf t

def execAnd (d a b : Opnd) (s : State) : Out := s.int3 d a b true fun _ _ x y => x &&& y
def execOr (d a b : Opnd) (s : State) : Out := s.int3 d a b true fun _ _ x y => x ||| y
def execXor (d a b : Opnd) (s : State) : Out := s.int3 d a b true fun _ _ x y => x ^^^ y
def execAndn (d a b : Opnd) (s : State) : Out := s.int3 d a b true fun i _ x y => x &&& notT i.ty y
def execNot (d a : Opnd) (u : Byte) (s : State) : Out := s.int2 d a u fun i x => notT i.ty x

/-- R224: the shifts of a w-bit pattern by a count. -/
def shlT (t : EType) (x c : Nat) : Nat := if widthOf t ≤ c then 0 else x * 2 ^ c % 2 ^ widthOf t
def shrT (t : EType) (x c : Nat) : Nat := if widthOf t ≤ c then 0 else x / 2 ^ c
def shraT (t : EType) (x c : Nat) : Nat :=
  let w := widthOf t
  let k := min c w
  let fill := if x.testBit (w - 1) then 2 ^ w - 2 ^ (w - k) else 0
  x / 2 ^ k + fill
def rotlT (t : EType) (x c : Nat) : Nat :=
  let w := widthOf t
  let k := c % w
  (x * 2 ^ k % 2 ^ w) + x / 2 ^ (w - k)

def execShl (d a b : Opnd) (s : State) : Out := s.int3 d a b false fun i _ x c => shlT i.ty x c
def execShr (d a b : Opnd) (s : State) : Out := s.int3 d a b false fun i _ x c => shrT i.ty x c
def execShra (d a b : Opnd) (s : State) : Out := s.int3 d a b false fun i _ x c => shraT i.ty x c
def execRotl (d a b : Opnd) (s : State) : Out := s.int3 d a b false fun i _ x c => rotlT i.ty x c

/-- R225: BFX. The value's own extension supplies the positions at or above w. -/
def bfxT (t : EType) (x ctl : Nat) : Nat :=
  let pos := bitsOf ctl 7 0
  let len := min (bitsOf ctl 15 8) (widthOf t)
  let f := (valOf t x / ((2 ^ pos : Nat) : Int) % ((2 ^ len : Nat) : Int)).toNat
  if len = 0 then 0
  else if isSigned t && f.testBit (len - 1) then f + 2 ^ widthOf t - 2 ^ len else f

/-- R225: BFI. -/
def bfiT (t : EType) (d x ctl : Nat) : Nat :=
  let pos := bitsOf ctl 7 0
  let w := widthOf t
  let len := min (bitsOf ctl 15 8) (w - pos)
  if w ≤ pos then d
  else d - (d / 2 ^ pos % 2 ^ len) * 2 ^ pos + (x % 2 ^ len) * 2 ^ pos

/-- R225. With `pos` at or above the width BFI rewrites its destination from the low bits, extended as every result is (R19, R215; log 137,
DESIGN CHOICE). -/
def execBfi (d a b : Opnd) (s : State) : Out := s.int3 d a b false fun i z x c => bfiT i.ty z x c
def execBfx (d a b : Opnd) (s : State) : Out := s.int3 d a b false fun i _ x c => bfxT i.ty x c

/-- R223: counts over the low `n` bits. -/
def popCount (x : Nat) : Nat → Nat
  | 0 => 0
  | n + 1 => (if x.testBit n then 1 else 0) + popCount x n
def trailingZeros (x : Nat) : Nat → Nat → Nat
  | 0, k => k
  | n + 1, k => if x.testBit k then k else trailingZeros x n (k + 1)

/-- Bit i of the result is bit w − 1 − i. -/
def brevT (w x : Nat) : Nat := (List.range w).foldl (fun r k => r + if x.testBit k then 2 ^ (w - 1 - k) else 0) 0

def execPopc (d a : Opnd) (u : Byte) (s : State) : Out := s.int2 d a u fun i x => popCount x (widthOf i.ty)
def execClz (d a : Opnd) (u : Byte) (s : State) : Out := s.int2 d a u fun i x => widthOf i.ty - bitLen x
def execCtz (d a : Opnd) (u : Byte) (s : State) : Out := s.int2 d a u fun i x => trailingZeros x (widthOf i.ty) 0
def execBrev (d a : Opnd) (u : Byte) (s : State) : Out := s.int2 d a u fun i x => brevT (widthOf i.ty) x

/-- R222: ADDC and SUBB through p7: a value at least 2^w carries, one below 0 borrows. -/
def State.carryOp (s : State) (d a b : Opnd) (f : Int → Int → Int → Int) : Out :=
  s.insn (fun i =>
      [typeChk (i.ty == .i32 || i.ty == .n32 || i.ty == .i64 || i.ty == .n64), quillChk i false, failIf (Opnd.isSca d) 2 1,
       dstChk i 1 d (wide i.ty), srcChk i 2 a (wide i.ty) false, srcChk i 3 b (wide i.ty) false]) fun i =>
    let w := widthOf i.ty
    let x (t : Nat) : Int := f (i.src i.ty a t) (i.src i.ty b t) (if (i.g.pred 7).getLsbD t then 1 else 0)
    let out := maskOf ((threadsOf i.run).filter fun t => decide (x t < 0) || decide (((2 ^ w : Nat) : Int) ≤ x t))
    (s.putVec i.gid i.ty d i.run fun t => wrapT i.ty (x t)).writeP i.gid 7 i.run out

def execAddc (d a b : Opnd) (s : State) : Out := s.carryOp d a b fun x y c => x + y + c
def execSubb (d a b : Opnd) (s : State) : Out := s.carryOp d a b fun x y c => x - y - c

/-- R221: the accumulator's type. -/
def madwTy (t : EType) : EType := if t = .i32 then .i64 else .n64

def execMadw (d a b : Opnd) (s : State) : Out :=
  s.insn (fun i =>
      [typeChk (i.ty == .i32 || i.ty == .n32), quillChk i (uniform d [a, b]), dstChk i 1 d true,
       pairedChk 2 d a, srcChk i 2 a false false, pairedChk 3 d b, srcChk i 3 b false false]) fun i =>
    let dt := madwTy i.ty
    s.put i dt d (uniform d [a, b]) fun t =>
      let v := valOf dt (i.src dt d t) + valOf i.ty (i.src i.ty a t) * valOf i.ty (i.src i.ty b t)
      if i.sat then satT dt v else wrapT dt v

/-! ### Compares (R226) -/

/-- R226: the destination selector of the compares: a predicate, a scalar, or neither. -/
inductive Sel where
  | pred (n : Nat)
  | sca (n : Nat)
  | bad
  deriving DecidableEq, Repr

def selOf (d : Byte) : Sel :=
  let n := d.toNat
  if n < 8 then .pred n else if 0xC0 ≤ n ∧ n < 0xF0 then .sca (n - 0xC0) else .bad

/-- The selector as an operand, for the rules that a scalar destination brings. -/
def selOpnd (d : Byte) : Opnd :=
  match selOf d with
  | .sca n => .sca n
  | _ => .zero

/-- R226, R254: the checks of a compare. -/
def cmpChk (i : Iss) (ok : Bool) (d : Byte) (a b : Opnd) : List Chk :=
  let o := selOpnd d
  [typeChk ok, quillChk i (uniform o [a, b]), failIf (selOf d == .bad) 2 1, pairedChk 2 o a,
   srcChk i 2 a (wide i.ty) (i.ty == .f64), pairedChk 3 o b, srcChk i 3 b (wide i.ty) (i.ty == .f64)]

/-- R226: a condition written to a predicate per thread, or to a scalar as 1 or 0. -/
def State.putSel (s : State) (i : Iss) (d : Byte) (f : Nat → Bool) : State :=
  match selOf d with
  | .pred n => s.writeP i.gid n i.run (maskOf ((threadsOf i.run).filter f))
  | .sca n => s.writeS i.gid n (if f 0 then 1 else 0)
  | .bad => s

def State.icmp (s : State) (d : Byte) (a b : Opnd) (f : Int → Int → Bool) : Out :=
  s.insn (fun i => cmpChk i (intTy i.ty) d a b) fun i =>
    s.putSel i d fun t => f (valOf i.ty (i.src i.ty a t)) (valOf i.ty (i.src i.ty b t))

def execIcmpeq (d : Byte) (a b : Opnd) (s : State) : Out := s.icmp d a b fun x y => decide (x = y)
def execIcmpne (d : Byte) (a b : Opnd) (s : State) : Out := s.icmp d a b fun x y => decide (x ≠ y)
def execIcmplt (d : Byte) (a b : Opnd) (s : State) : Out := s.icmp d a b fun x y => decide (x < y)
def execIcmple (d : Byte) (a b : Opnd) (s : State) : Out := s.icmp d a b fun x y => decide (x ≤ y)

/-- R89: the types whose elements have a byte width. -/
def byteTy (t : EType) : Bool := t != .e2m1 && t != .i4
/-- R89: the element size. -/
def elemBytes (t : EType) : Nat := widthOf t / 8

def execLea (d a b : Opnd) (s : State) : Out :=
  s.insn (fun i =>
      [typeChk (byteTy i.ty), quillChk i (uniform d [a, b]), dstChk i 1 d false, pairedChk 2 d a, srcChk i 2 a false false,
       pairedChk 3 d b, srcChk i 3 b false false]) fun i =>
    match d with
    | .sca n => s.writeS i.gid n (i.uni64 a + i.uni64 b * dword (elemBytes i.ty))
    | _ => s.putVec i.gid .n32 d i.run fun t => (i.src .n32 a t + i.src .n32 b t * elemBytes i.ty) % 2 ^ 32

/-! ### Predicates (R229) -/

def execMovp (d : Opnd) (p u : Byte) (s : State) : Out :=
  s.insn (fun i => [typeChk (!Opnd.isVec d || intTy i.ty), quillChk i false, dstChk i 1 d (wide i.ty), predChk 2 p,
      zeroChk 3 u]) fun i =>
    match d with
    | .sca n => s.writeS i.gid n (i.g.pred p.toNat)
    | _ => s.putVec i.gid i.ty d i.run fun t => if (i.g.pred p.toNat).getLsbD t then 1 else 0

/-- R229: a predicate computed from two. -/
def State.plogic (s : State) (d p : Byte) (q : Byte) (f : BitVec 64 → BitVec 64 → BitVec 64) : Out :=
  s.insn (fun i => [quillChk i false, predChk 1 d, predChk 2 p, predChk 3 q]) fun i =>
    s.writeP i.gid d.toNat i.run (f (i.g.pred p.toNat) (i.g.pred q.toNat))

def execPand (d p q : Byte) (s : State) : Out := s.plogic d p q fun x y => x &&& y
def execPor (d p q : Byte) (s : State) : Out := s.plogic d p q fun x y => x ||| y
def execPxor (d p q : Byte) (s : State) : Out := s.plogic d p q fun x y => x ^^^ y
def execPnot (d p u : Byte) (s : State) : Out :=
  s.insn (fun i => [quillChk i false, predChk 1 d, predChk 2 p, zeroChk 3 u]) fun i =>
    s.writeP i.gid d.toNat i.run (~~~(i.g.pred p.toNat))

def execPset (d : Byte) (v : BitVec 16) (s : State) : Out :=
  s.insn (fun i => [quillChk i false, predChk 1 d, failIf (decide (1 < v.toNat)) 2 2]) fun i =>
    s.writeP i.gid d.toNat (BitVec.allOnes 64) (if v.getLsbD 0 then BitVec.allOnes 64 else 0)

/-- R229: the predicate that PMOV forms from an operand. -/
def Iss.asPred (i : Iss) (a : Opnd) : BitVec 64 :=
  match a with
  | .vec n => maskOf ((List.range 64).filter fun t => i.g.vreg n t ≠ 0)
  | .tid => ~~~(1#64)
  | _ => i.uni64 a

def execPmov (d : Byte) (a : Opnd) (u : Byte) (s : State) : Out :=
  s.insn (fun i => [quillChk i false, predChk 1 d, srcChk i 2 a false false, zeroChk 3 u]) fun i =>
    s.writeP i.gid d.toNat i.run (i.asPred a)

end Sys2Proof.Machine
end

