-- ==== Sys2Proof/Machine/Control.lean ====
section
/-!
DEFINITION. Branches, joins, calls, exits and traps (R230 to R237), with the divergence rules of R171 to R178.
-/

namespace Sys2Proof.Machine

/-- R26: the address at a word offset from the clause's header. -/
def Iss.target (i : Iss) (off : Int) : DWord := i.cl.addr + BitVec.ofInt 64 (4 * off)

/-- R217: fields of a 16-bit or 24-bit span that must hold 0. -/
def zero16 (u : BitVec 16) : List Chk := [zeroChk 2 (hiByte u), zeroChk 3 (loByte u)]
def zero24 (u : BitVec 24) : List Chk :=
  [zeroChk 1 (u.extractLsb' 16 8), zeroChk 2 (u.extractLsb' 8 8), zeroChk 3 (u.extractLsb' 0 8)]

/-- R187: an operand code for a vector register or the thread index in a quill context. -/
def quillOpnds (i : Iss) (os : List Opnd) : Chk :=
  failIf (i.g.quill && os.any fun o => match o with | .vec _ => true | .tid => true | _ => false) 1 3

/-! ### BRA, CALL, RET -/

/-- R230: a condition: a scalar, zero or one. -/
def condChk (c : Opnd) : Chk :=
  match c with
  | .sca _ | .zero | .one => none
  | _ => some (2, 1)

def execBra (c : Opnd) (off : BitVec 16) (s : State) : Out :=
  s.insn (fun i => [quillOpnds i [c], condChk c]) fun i =>
    s.goTo i (if i.uni64 c ≠ 0 then i.target off.toInt else i.cl.after)

def execCall (d : Opnd) (off : BitVec 16) (s : State) : Out :=
  s.insn (fun i => [quillOpnds i [d], scaChk 1 d]) fun i =>
    match d with
    | .sca n => (s.writeS i.gid n i.cl.after).goTo i (i.target off.toInt)
    | _ => s

def execRet (a : Opnd) (u : BitVec 16) (s : State) : Out :=
  s.insn (fun i => [quillOpnds i [a], scaChk 1 a, failIf (decide ((i.uni64 a).toNat % 4 ≠ 0)) 2 1] ++ zero16 u ++
      [failIf (!canonical (i.uni64 a).toNat) 4 2]) fun i => s.goTo i (i.uni64 a)

/-! ### BRD (R173, R176) -/

/-- R176: the next instance number that no stack entry and no snapshot of the group holds, those of the handler save area (R354)
among them. -/
def freshFrom (used : List (BitVec 16)) : Nat → BitVec 16 → BitVec 16
  | 0, c => c
  | n + 1, c => if used.contains c then freshFrom used n (c + 1) else c

/-- R176: the numbers that the group holds. -/
def Group.numbers (g : Group) : List (BitVec 16) :=
  let ofNibs (rs : List SnapNib) : List (BitVec 16) := rs.flatMap fun r => r.stack.map DivEntry.number
  (g.nibs.flatMap fun n => n.stack.map DivEntry.number) ++ (g.snaps.flatMap fun p => ofNibs p.nibs) ++
    match g.save with | some sv => ofNibs sv.nibs ++ ofNibs sv.snap.nibs | none => []

def Group.fresh (g : Group) : BitVec 16 := freshFrom g.numbers (g.numbers.length + 1) (g.instCtr + 1)

/-- R173: the taken and the falling threads of a nib. -/
def Iss.taken (i : Iss) (n : Nat) : BitVec 16 := (i.g.nib n).mask &&& nibPart n i.guard
def Iss.falling (i : Iss) (n : Nat) : BitVec 16 := (i.g.nib n).mask &&& ~~~(nibPart n i.guard)

/-- R173: entries that the split pushes on a nib. -/
def Iss.need (i : Iss) (n : Nat) : Nat := if i.taken n ≠ 0 ∧ i.falling n ≠ 0 then 2 else 1

/-- R173: the split of the issuing gang. -/
def State.split (s : State) (i : Iss) (target join : DWord) : State :=
  let num := i.g.fresh
  let push (g : Group) (n : Nat) : Group := g.modNib n fun x =>
    let st : List DivEntry := ⟨.x, num, join, 0, 0⟩ :: x.stack
    if i.taken n ≠ 0 ∧ i.falling n ≠ 0 then { x with stack := ⟨.p, num, join, target, i.taken n⟩ :: st, mask := i.falling n }
    else { x with stack := st }
  s.modIss i fun g =>
    let g1 := i.gang.eachNib.foldl push { g with instCtr := num }
    let far := i.gang.eachNib.filter fun n => i.falling n == 0
    let near := i.gang.eachNib.filter fun n => i.falling n != 0
    ((g1.dropGang i.gang.id).addGang { i.gang with nibs := far, pc := target, clause := none }).addGang
      { i.gang with nibs := near, pc := i.cl.after, clause := none }

def execBrd (u : Byte) (off : BitVec 16) (join : Word) (s : State) : Out :=
  s.insn (fun i => [quillChk i false, zeroChk 1 u]) fun i =>
    if i.gang.nibs.all fun n => i.taken n == 0 then s.goTo i i.cl.after
    else if i.gang.nibs.all fun n => i.falling n == 0 then s.goTo i (i.target off.toInt)
    else if i.gang.nibs.any fun n => decide (16 < (i.g.nib n).stack.length + i.need n) then s.trap i 0x0A 1
    else s.split i (i.target off.toInt) (i.target join.toInt)

/-! ### JOIN (R174, R180) -/

/-- What becomes of one nib at a JOIN. -/
inductive JoinOut where
  | goesOn
  | redirected (a : DWord)
  | held (num : BitVec 16)
  deriving DecidableEq, Repr

/-- R174: the loop of one nib with active threads `m`: its mask, its stack and its outcome. -/
def joinNib (a : DWord) (m : BitVec 16) : List DivEntry → BitVec 16 × List DivEntry × JoinOut
  | [] => (m, [], .goesOn)
  | e :: r =>
    if e.join ≠ a then (m, e :: r, .goesOn)
    else match e.kind with
      | .p => (e.mask, { e with kind := .w, mask := m } :: r, .redirected e.target)
      | .w => joinNib a (m ||| e.mask) r
      | .x => (m, e :: r, .held e.number)

def Nib.join (x : Nib) (a : DWord) : Nib × JoinOut :=
  let r := joinNib a x.mask x.stack
  ({ x with mask := r.1, stack := r.2.1 }, r.2.2)

/-- R174: what becomes of each nib of the issuing gang. -/
def Iss.joins (i : Iss) : List (Nat × Nib × JoinOut) := i.gang.eachNib.map fun n => (n, (i.g.nib n).join i.cl.addr)

/-- R174: the nibs that go on with the clause, and those that the P case redirects to a target. -/
def Iss.goers (i : Iss) : List Nat := (i.joins.filter fun o => o.2.2 == .goesOn).map Prod.fst
def Iss.redirects (i : Iss) (t : DWord) : List Nat := (i.joins.filter fun o => o.2.2 == .redirected t).map Prod.fst

/-- R174: the nibs of one outcome form one gang; a held nib is a gang of its own. -/
def Iss.joinGang (i : Iss) (g : Group) : Group :=
  let targets := nubBy (i.joins.filterMap fun o => match o.2.2 with | .redirected t => some t | _ => none)
  let g1 := i.joins.foldl (fun g o => g.modNib o.1 fun _ => o.2.1) g
  let g2 := (g1.dropGang i.gang.id).addGang { i.gang with nibs := i.goers }
  let g3 := targets.foldl (fun g t => g.addGang { i.gang with nibs := i.redirects t, pc := t, clause := none }) g2
  i.joins.foldl (fun g o => match o.2.2 with
    | .held num => g.addGang
        { i.gang with nibs := [o.1], pc := i.cl.addr, clause := some { i.cl with next := 0 }, hold := .join i.cl.addr num }
    | _ => g) g3

/-- R174: JOIN acts as NOP when no nib has an entry for this clause on top; otherwise its nibs re-gang, and held nibs merge whose
siblings have all come. -/
def State.joinStep (s : State) (i : Iss) : State :=
  if i.joins.all fun o => o.2 == (i.g.nib o.1, .goesOn) then s
  else
    let s1 := s.modIss i fun g => (i.joinGang g).mergeAll
    { s1 with cur := s1.cur.map fun c => { c with gang := i.goers.headD c.gang } }

def execJoin (u : BitVec 24) (s : State) : Out :=
  s.insn (fun i => [quillChk i false] ++ zero24 u) fun i => s.joinStep i

/-! ### EXIT (R175, R234) -/

/-- R175: a nib after its active threads have ended, with the pc it goes on at. -/
def exitNib (x : Nib) : Nib × Option DWord :=
  let (m, st, a) := unwind x.stack
  ({ x with mask := m, stack := st }, a)

/-- R175: the nibs of a gang end their active threads and unwind; those left at one pc form one gang. -/
def Group.exitNibs (g : Group) (k : Gang) : Group :=
  let outs := k.eachNib.map fun n => (n, exitNib (g.nib n))
  let moved (a : DWord) : List Nat := (outs.filter fun o => o.2.2 == some a).map Prod.fst
  let g1 := outs.foldl (fun g o => g.modNib o.1 fun _ => o.2.1) g
  (nubBy (outs.filterMap fun o => o.2.2)).foldl (fun g a => g.addGang
    { k with nibs := moved a, pc := a, clause := none, hold := .none }) (g1.dropGang k.id)

/-- R175: the same, and held nibs whose siblings no longer hold their entry merge. -/
def Group.exitGang (g : Group) (k : Gang) : Group := (g.exitNibs k).mergeAll

/-- R234: the EXIT would end the group's last live nib. -/
def Iss.lastExit (i : Iss) : Bool := (i.g.exitGang i.gang).liveAll == 0

/-- R234: a context all of whose nibs have ended has ended. -/
def Group.endIfDone (g : Group) : Group := if g.liveAll = 0 then { g with ended := true, gangs := [] } else g

/-- R175, R283: EXIT takes effect. -/
def State.exitStep (s : State) (i : Iss) : State :=
  let s1 := if i.g.quill then s else s.barExit i.gid i.active
  s1.modIss i fun g => ((g.exitGang ((g.gang i.gang.id).getD i.gang)).endIfDone).gcSnaps

def execExit (u : BitVec 24) (s : State) : Out :=
  s.insn (fun _ => zero24 u) fun i =>
    if i.lastExit then
      s.awaitOps i (s.opsAll i.gid) (if s.countsZero i.gid then i.g.failed else []) fun s =>
        if s.countsZero i.gid then s.exitStep i else s.retry i
    else s.exitStep i

/-! ### YIELD, NOP, TRAP (R235 to R237) -/

/-- R235: no architectural effect. -/
def execYield (u : BitVec 24) (s : State) : Out := s.insn (fun _ => zero24 u) fun i => s.modIss i fun g => { g with yielded := some s.turn }

/-- R236. -/
def execNop (u : BitVec 24) (s : State) : Out := s.insn (fun _ => zero24 u) fun _ => s

def execTrapSoftware (blk : Opnd) (_ : BitVec 16) (s : State) : Out :=
  s.insn (fun _ => [failIf (blk != .vec 0) 2 1]) fun i => s.trap i 0x0C 0

/-- R237: the block that a service call names. -/
def blockChk (i : Iss) (blk : Opnd) : Chk :=
  match blk with
  | .vec n => failIf (decide (n % 8 ≠ 0) || !i.g.runOk n 8) 2 1
  | .sca n => failIf (decide (40 < n)) 2 1
  | _ => some (2, 1)

/-- R237, R361: the gang waits for its request to be posted; a predicted launch stalls. -/
def execTrapServiceCall (blk : Opnd) (code : BitVec 16) (s : State) : Out :=
  s.insn (fun i => [quillOpnds i [blk], blockChk i blk]) fun i =>
    if s.speculative i.g then s.stall i 5
    else s.modGang i fun k => { k with hold := .service blk code, pc := i.cl.after, clause := none }

end Sys2Proof.Machine
end

