-- ==== Sys2Proof/Machine/CrossLane.lean ====
section
/-!
DEFINITION. The cross-lane instructions: shuffles, votes, ballot, match, election, reductions, scan and REORD (R238 to
R244). None of them runs in a quill context and none is uniform.
-/

namespace Sys2Proof.Machine

/-! ### Shuffles (R239) -/

/-- R238: what a shuffle reads from thread u: 0 from an exited or never launched thread. -/
def Iss.laneVal (i : Iss) (a : Opnd) (u : Nat) : Nat := if i.g.liveAll.getLsbD u then i.moved a u else 0

def State.shuffle (s : State) (d a b : Opnd) (from_ : Nat → Nat → Nat) : Out :=
  s.insn (fun i => [quillChk i false, failIf (Opnd.isSca d) 2 1, dstChk i 1 d (wide i.ty), failIf (Opnd.isSca a) 2 2,
      srcChk i 2 a (wide i.ty) (i.ty == .f64), srcChk i 3 b false false]) fun i =>
    s.putVec i.gid (moveTy i.ty) d i.run fun t => i.laneVal a (from_ t (i.src .n32 b t))

def execShfl (d a b : Opnd) (s : State) : Out := s.shuffle d a b fun _ x => x % 64
def execShflu (d a b : Opnd) (s : State) : Out := s.shuffle d a b fun t x => if x ≤ t then t - x else t
def execShfld (d a b : Opnd) (s : State) : Out := s.shuffle d a b fun t x => if t + x ≤ 63 then t + x else t
def execShflx (d a b : Opnd) (s : State) : Out := s.shuffle d a b fun t x => t ^^^ (x % 64)

/-! ### Votes, ballot, match, election (R240) -/

/-- R240: a predicate destination takes `f t` in the contributing threads; a scalar receives r, whatever they are. -/
def State.putVote (s : State) (i : Iss) (d : Byte) (r : DWord) (f : Nat → Bool) : State :=
  match selOf d with
  | .pred n => s.writeP i.gid n i.run (maskOf ((threadsOf i.run).filter f))
  | .sca n => s.writeS i.gid n r
  | .bad => s

def State.vote (s : State) (d p u : Byte) (f : BitVec 64 → BitVec 64 → Bool) : Out :=
  s.insn (fun i => [quillChk i false, failIf (selOf d == .bad) 2 1, predChk 2 p, zeroChk 3 u]) fun i =>
    let r := f i.run (i.g.pred p.toNat)
    s.putVote i d (if r then 1 else 0) fun _ => r

def execVotea (d p u : Byte) (s : State) : Out := s.vote d p u fun c x => c &&& ~~~x == 0
def execVotey (d p u : Byte) (s : State) : Out := s.vote d p u fun c x => c &&& x != 0

def execBallot (d : Opnd) (p u : Byte) (s : State) : Out :=
  s.insn (fun i => [quillChk i false, scaChk 1 d, predChk 2 p, zeroChk 3 u]) fun i =>
    s.putSca i.gid .n64 d (i.run &&& i.g.pred p.toNat).toNat

def execElect (d : Byte) (u : BitVec 16) (s : State) : Out :=
  s.insn (fun i => [quillChk i false, failIf (selOf d == .bad) 2 1] ++ zero16 u) fun i =>
    match (threadsOf i.run).head? with
    | some r => s.putVote i d (dword r) fun t => t == r
    | none => s.putVote i d (BitVec.allOnes 64) fun _ => false

def execMatchv (d a : Opnd) (u : Byte) (s : State) : Out :=
  s.insn (fun i => [quillChk i false, vecChk i 1 d true, vecChk i 2 a (wide i.ty), zeroChk 3 u]) fun i =>
    let vs := (threadsOf i.run).map fun t => (t, i.src i.ty a t)
    s.putVec i.gid .n64 d i.run fun t =>
      (maskOf ((vs.filter fun p => p.2 == i.src i.ty a t).map Prod.fst)).toNat

/-! ### Reductions and scan (R241, R242) -/

/-- R241, R242: the operators. -/
inductive RedOp where
  | add | min | max
  deriving DecidableEq, Repr

/-- R241: the types of reductions and scans. -/
def redTy (t : EType) : Bool := intTy t || t == .f32 || t == .f64

/-- R241: the result over the contributions, in ascending thread order. -/
def Iss.reduce (i : Iss) (op : RedOp) (vs : List Nat) : FRes :=
  let t := i.ty
  if isInt t then
    let xs := vs.map (valOf t)
    match op with
    | .add => (i.wrapSat (xs.foldl (fun a x => a + x) 0), 0)
    | .min => (wrapT t (xs.foldl min (maxOf t)), 0)
    | .max => (wrapT t (xs.foldl max (minOf t)), 0)
  else
    match op, vs with
    | .add, [] => (0, 0)
    | .add, _ => sumRounded t i.mode i.teuf (vs.map fun x => (t, x)) (vs.map fun x => termOf (fval t x)) false
    | .min, [] => (infBits t, 0)
    | .max, [] => (signBit t true + infBits t, 0)
    | op, x :: r =>
      r.foldl (fun acc y => let z := fpMinMax t true (op == .max) acc.1 y; (z.1, acc.2 ||| z.2))
        (quieted t x, flIf (fval t x).isSnan flNV)

def State.gred (s : State) (d a : Opnd) (u : Byte) (op : RedOp) : Out :=
  s.insn (fun i => [typeChk (redTy i.ty), quillChk i false, dstChk i 1 d (wide i.ty),
      srcChk i 2 a (wide i.ty) (i.ty == .f64), zeroChk 3 u]) fun i =>
    let c := threadsOf i.run
    let r := i.reduce op (c.map (i.src i.ty a))
    let rs := c.map fun t => (t, r)
    if trappers i rs ≠ [] then s.fpTrap i rs
    else (s.fpFlags i rs).put i i.ty d (Opnd.isSca d) fun _ => r.1

def execGredadd (d a : Opnd) (u : Byte) (s : State) : Out := s.gred d a u .add
def execGredmin (d a : Opnd) (u : Byte) (s : State) : Out := s.gred d a u .min
def execGredmax (d a : Opnd) (u : Byte) (s : State) : Out := s.gred d a u .max

/-- R242: the operator of GSCAN's field; 3 is reserved. -/
def scanOp (c : Byte) : Option RedOp :=
  match c.toNat % 4 with
  | 0 => some .add
  | 1 => some .min
  | 2 => some .max
  | _ => none

def execGscan (d a : Opnd) (op : Byte) (s : State) : Out :=
  s.insn (fun i => [typeChk (redTy i.ty), quillChk i false, vecChk i 1 d (wide i.ty),
      srcChk i 2 a (wide i.ty) (i.ty == .f64), failIf (scanOp op == none || decide (8 ≤ op.toNat)) 2 3]) fun i =>
    match scanOp op with
    | none => s
    | some o =>
      let c := (threadsOf i.run).map fun t => (t, i.src i.ty a t)
      let excl := op.getLsbD 2
      let rs := c.map fun p => (p.1, i.reduce o ((c.filter fun q => if excl then q.1 < p.1 else q.1 ≤ p.1).map Prod.snd))
      if trappers i rs ≠ [] then s.fpTrap i rs
      else (s.fpFlags i rs).putVec i.gid i.ty d i.run fun t => ((rs.find? fun r => r.1 == t).map fun r => r.2.1).getD 0

/-! ### REORD (R189, R243, R244) -/

/-- R243: the live mask: a scalar, a literal read as 32 bits, or zero; one is refused as a vector is (log 113). -/
def maskChk (o : Opnd) : Chk :=
  match o with
  | .sca _ | .lit _ | .zero => none
  | _ => some (2, 3)
def Iss.liveMask (i : Iss) (o : Opnd) : Nat :=
  match o with
  | .sca n => (i.g.sreg n).toNat
  | .lit w => w.toNat
  | _ => 0

/-- R185: the blocks of the queue window. -/
def Group.windowMask (g : Group) : BitVec 24 := BitVec.ofNat 24 (2 ^ 24 - 2 ^ (24 - g.window))

/-- R243: mask bits at or above 24, a window block, or a block that the group does not hold. -/
def Iss.maskBad (i : Iss) (o : Opnd) : Bool :=
  let m := i.liveMask o
  decide (2 ^ 24 ≤ m) || BitVec.ofNat 24 m &&& i.g.windowMask != 0 || BitVec.ofNat 24 m &&& ~~~i.g.blocks != 0

/-- R189: one gang, and every divergence stack empty. -/
def Group.convergent (g : Group) : Bool := g.gangs.length == 1 && g.nibs.all fun n => n.stack.isEmpty

def execReord (u : Byte) (key mask : Opnd) (s : State) : Out :=
  s.insn (fun i => [quillChk i false, zeroChk 1 u, srcChk i 2 key false false, maskChk mask,
      valueChk 3 mask (i.maskBad mask), litChk mask (i.maskBad mask), failIf (!i.g.convergent) 0x0A 3]) fun i =>
    let keys := (List.range 64).map fun t => i.src .n16 key t
    s.modGang i fun k =>
      { k with hold := .reord (BitVec.ofNat 24 (i.liveMask mask)) keys, pc := i.cl.after, clause := none }

end Sys2Proof.Machine
end

