-- ==== Sys2Proof/Machine/Float.lean ====
section
/-!
DEFINITION. The floating-point instructions FADD to FCOS (R245 to R257).
-/

namespace Sys2Proof.Machine

/-- R245: the types of FADD to FCOS. -/
def fpTy (t : EType) : Bool := t == .f32 || t == .f64 || t == .f16 || t == .bf16

/-- OP d, a, b with d read as well, of fixed latency. -/
def State.fp3 (s : State) (d a b : Opnd) (f : Iss → Nat → Nat → Nat → FRes) : Out :=
  s.insn (fun i => aluChk i (fpTy i.ty) d [(2, a, true), (3, b, true)]) fun i =>
    s.fpPut i i.ty d (uniform d [a, b]) fun t => f i (i.src i.ty d t) (i.src i.ty a t) (i.src i.ty b t)

/-- OP d, a, of fixed latency. -/
def State.fp2 (s : State) (d a : Opnd) (u : Byte) (f : Iss → Nat → FRes) : Out :=
  s.insn (fun i => aluChk i (fpTy i.ty) d [(2, a, true)] ++ [zeroChk 3 u]) fun i =>
    s.fpPut i i.ty d (uniform d [a]) fun t => f i (i.src i.ty a t)

/-- OP d, a, long-latency. -/
def State.fpL (s : State) (d a : Opnd) (u : Byte) (f : Iss → Nat → FRes) : Out :=
  s.insn (fun i => aluChk i (fpTy i.ty) d [(2, a, true)] ++ [zeroChk 3 u]) fun i =>
    s.fpLong i i.ty d (uniform d [a]) fun t => f i (i.src i.ty a t)

/-! ### Arithmetic (R249 to R251) -/

def execFadd (d a b : Opnd) (s : State) : Out := s.fp3 d a b fun i _ x y => fpAdd i.ty i.mode i.teuf x y
def execFsub (d a b : Opnd) (s : State) : Out := s.fp3 d a b fun i _ x y => fpSub i.ty i.mode i.teuf x y
def execFmul (d a b : Opnd) (s : State) : Out := s.fp3 d a b fun i _ x y => fpMul i.ty i.mode i.teuf x y
def execFfma (d a b : Opnd) (s : State) : Out :=
  s.fp3 d a b fun i z x y => fpFma i.ty i.mode i.teuf false false x y z
def execFfms (d a b : Opnd) (s : State) : Out :=
  s.fp3 d a b fun i z x y => fpFma i.ty i.mode i.teuf false true x y z
def execFfnma (d a b : Opnd) (s : State) : Out :=
  s.fp3 d a b fun i z x y => fpFma i.ty i.mode i.teuf true false x y z

def execFdiv (d a b : Opnd) (s : State) : Out :=
  s.insn (fun i => aluChk i (fpTy i.ty) d [(2, a, true), (3, b, true)]) fun i =>
    s.fpLong i i.ty d (uniform d [a, b]) fun t => fpDiv i.ty i.mode i.teuf (i.src i.ty a t) (i.src i.ty b t)
def execFsqrt (d a : Opnd) (u : Byte) (s : State) : Out := s.fpL d a u fun i x => fpSqrt i.ty i.mode i.teuf x
def execFrcp (d a : Opnd) (u : Byte) (s : State) : Out := s.fpL d a u fun i x => fpRcp i.ty i.mode i.teuf x
def execFrsq (d a : Opnd) (u : Byte) (s : State) : Out := s.fpL d a u fun i x => fpRsq i.ty x

/-! ### Minimum, maximum, signs (R252, R253) -/

def execFmin (d a b : Opnd) (s : State) : Out := s.fp3 d a b fun i _ x y => fpMinMax i.ty true false x y
def execFmax (d a b : Opnd) (s : State) : Out := s.fp3 d a b fun i _ x y => fpMinMax i.ty true true x y
def execFminm (d a b : Opnd) (s : State) : Out := s.fp3 d a b fun i _ x y => fpMinMax i.ty false false x y
def execFmaxm (d a b : Opnd) (s : State) : Out := s.fp3 d a b fun i _ x y => fpMinMax i.ty false true x y

/-- The bits below the sign. -/
def magBits (t : EType) (x : Nat) : Nat := x % 2 ^ (widthOf t - 1)
def signOf (t : EType) (x : Nat) : Bool := x.testBit (widthOf t - 1)

def execFabs (d a : Opnd) (u : Byte) (s : State) : Out := s.fp2 d a u fun i x => (magBits i.ty x, 0)
def execFneg (d a : Opnd) (u : Byte) (s : State) : Out :=
  s.fp2 d a u fun i x => (signBit i.ty (!signOf i.ty x) + magBits i.ty x, 0)
def execFcpsgn (d a b : Opnd) (s : State) : Out :=
  s.fp3 d a b fun i _ x y => (signBit i.ty (signOf i.ty y) + magBits i.ty x, 0)

/-! ### Compares and classification (R254, R255) -/

/-- R254: a compare; `ordered` compares raise NV for every NaN. -/
def State.fcmp (s : State) (d : Byte) (a b : Opnd) (ordered : Bool) (f : Option Int → Bool) : Out :=
  s.insn (fun i => cmpChk i (fpTy i.ty) d a b) fun i =>
    s.fpStore i (uniform (selOpnd d) [a, b])
      (fun t =>
        let x := i.src i.ty a t
        let y := i.src i.ty b t
        let c := fpCompare i.ty x y
        (if f c then 1 else 0, flIf ((ordered && c.isNone) || anySnan [(i.ty, x), (i.ty, y)]) flNV))
      fun s g => s.putSel i d fun t => g t == 1

def execFcmpeq (d : Byte) (a b : Opnd) (s : State) : Out := s.fcmp d a b false fun c => c == some 0
def execFcmplt (d : Byte) (a b : Opnd) (s : State) : Out := s.fcmp d a b true fun c => c == some (-1)
def execFcmple (d : Byte) (a b : Opnd) (s : State) : Out := s.fcmp d a b true fun c => c == some (-1) || c == some 0
def execFcmpun (d : Byte) (a b : Opnd) (s : State) : Out := s.fcmp d a b false fun c => c.isNone

def execFclass (d a : Opnd) (u : Byte) (s : State) : Out :=
  s.insn (fun i => [typeChk (fpTy i.ty), quillChk i (uniform d [a]), dstChk i 1 d false, pairedChk 2 d a,
      srcChk i 2 a (wide i.ty) (i.ty == .f64), zeroChk 3 u]) fun i =>
    s.put i .n32 d (uniform d [a]) fun t => fpClass i.ty (i.src i.ty a t)

/-! ### Exponents (R256) and transcendentals (R257) -/

def execFrnd (d a : Opnd) (u : Byte) (s : State) : Out := s.fp2 d a u fun i x => fpRnd i.ty i.mode x

/-- R256. `b` is an i32 under every form: the operand one is the integer 1 there, and the thread index the integer t (log 139, DESIGN CHOICE). -/
def execFscale (d a b : Opnd) (s : State) : Out :=
  s.insn (fun i => aluChk i (fpTy i.ty) d [(2, a, true), (3, b, false)]) fun i =>
    s.fpPut i i.ty d (uniform d [a, b]) fun t =>
      fpScale i.ty i.mode i.teuf (i.src i.ty a t) (valOf .i32 (i.src .i32 b t))

def execFgexp (d a : Opnd) (u : Byte) (s : State) : Out := s.fp2 d a u fun i x => fpGexp i.ty x
def execFgmant (d a : Opnd) (u : Byte) (s : State) : Out := s.fp2 d a u fun i x => fpGmant i.ty x
def execFex2 (d a : Opnd) (u : Byte) (s : State) : Out := s.fpL d a u fun i x => fpEx2 i.ty x
def execFlg2 (d a : Opnd) (u : Byte) (s : State) : Out := s.fpL d a u fun i x => fpLg2 i.ty x
def execFsin (d a : Opnd) (u : Byte) (s : State) : Out := s.fpL d a u fun i x => fpSin i.ty x
def execFcos (d a : Opnd) (u : Byte) (s : State) : Out := s.fpL d a u fun i x => fpCos i.ty x

end Sys2Proof.Machine
end

