-- ==== Sys2Proof/Machine/Convert.lean ====
section
/-!
DEFINITION. Conversions and packed instructions: CVT, CVTN, CVTW, HADD2 to HFMA2, PDOT4 to PDOT2 (R258 to R262).
-/

namespace Sys2Proof.Machine

/-- The source type of a conversion's C field. -/
def cvtSrc (c : Byte) : EType := etypeOf (c.toNat % 16)
/-- R259, R260: the element index of a conversion's C field. -/
def cvtIdx (c : Byte) : Nat := bitsOf c.toNat 7 5

/-- R258: conversion of the value that an operand supplies, in the mode of the form, which a conversion into an integer type reads
too (R208; log 88). -/
def Iss.cvt (i : Iss) (st : EType) (x : Nat) : FRes := cvtVal st i.ty i.mode i.sat i.teuf x

def execCvt (d a : Opnd) (c : Byte) (s : State) : Out :=
  s.insn (fun i => [quillChk i (uniform d [a]), dstChk i 1 d (wide i.ty), pairedChk 2 d a,
      srcChk i 2 a (wide (cvtSrc c)) (cvtSrc c == .f64), failIf (decide (16 ≤ c.toNat)) 2 3]) fun i =>
    s.fpPut i i.ty d (uniform d [a]) fun t => i.cvt (cvtSrc c) (i.src (cvtSrc c) a t)

/-- R259: a destination that is a register or a scalar. -/
def regChk (i : Iss) (fld : Nat) (o : Opnd) : Chk :=
  match o with
  | .zero => some (2, fld)
  | _ => dstChk i fld o false

/-- Element k of width w of a 32-bit word replaced by y. -/
def putElem (w k x y : Nat) : Nat := setBits x (w * k + w - 1) (w * k) y
/-- Element k of width w of a 32-bit word (R196). -/
def getElem (w k x : Nat) : Nat := x / 2 ^ (w * k) % 2 ^ w

def execCvtn (d a : Opnd) (c : Byte) (s : State) : Out :=
  s.insn (fun i => [typeChk (decide (widthOf i.ty ≤ 16)), quillChk i (uniform d [a]), regChk i 1 d, pairedChk 2 d a,
      srcChk i 2 a (wide (cvtSrc c)) (cvtSrc c == .f64),
      failIf (c.getLsbD 4 || decide (32 ≤ widthOf i.ty * cvtIdx c)) 2 3]) fun i =>
    s.fpStore i (uniform d [a]) (fun t => i.cvt (cvtSrc c) (i.src (cvtSrc c) a t)) fun s g =>
      s.put i .n32 d (uniform d [a]) fun t => putElem (widthOf i.ty) (cvtIdx c) (i.src .n32 d t) (g t)

/-- R260 to R262: a packed operand: a register, the low half of a scalar, a literal word, zero, or one. -/
def packedChk (i : Iss) (fld : Nat) (o : Opnd) : Chk :=
  match o with
  | .tid => some (2, fld)
  | _ => srcChk i fld o false false

/-- Element k of a packed operand of elements of type `ty`. -/
def Iss.elem (i : Iss) (ty : EType) (o : Opnd) (t k : Nat) : Nat :=
  match o with
  | .one => oneOf ty
  | _ => getElem (widthOf ty) k (i.src .n32 o t)

def execCvtw (d a : Opnd) (c : Byte) (s : State) : Out :=
  s.insn (fun i => [quillChk i (uniform d [a]), dstChk i 1 d (wide i.ty), pairedChk 2 d a, packedChk i 2 a,
      failIf (c.getLsbD 4 || decide (16 < widthOf (cvtSrc c)) || decide (32 ≤ widthOf (cvtSrc c) * cvtIdx c)) 2 3]) fun i =>
    s.fpPut i i.ty d (uniform d [a]) fun t => i.cvt (cvtSrc c) (i.elem (cvtSrc c) a t (cvtIdx c))

/-! ### Two 16-bit elements (R261) -/

/-- R261: both elements of a packed result, and the OR of their flags. -/
def packTwo (lo hi : FRes) : FRes := (lo.1 % 2 ^ 16 + hi.1 * 2 ^ 16, lo.2 ||| hi.2)

def State.pair2 (s : State) (d a b : Opnd) (f : Iss → Nat → Nat → Nat → FRes) : Out :=
  s.insn (fun i => [typeChk (i.ty == .f16 || i.ty == .bf16), quillChk i (uniform d [a, b]), dstChk i 1 d false,
      pairedChk 2 d a, packedChk i 2 a, pairedChk 3 d b, packedChk i 3 b]) fun i =>
    s.fpPut i .n32 d (uniform d [a, b]) fun t =>
      packTwo (f i (i.elem i.ty d t 0) (i.elem i.ty a t 0) (i.elem i.ty b t 0))
        (f i (i.elem i.ty d t 1) (i.elem i.ty a t 1) (i.elem i.ty b t 1))

def execHadd2 (d a b : Opnd) (s : State) : Out := s.pair2 d a b fun i _ x y => fpAdd i.ty i.mode i.teuf x y
def execHmul2 (d a b : Opnd) (s : State) : Out := s.pair2 d a b fun i _ x y => fpMul i.ty i.mode i.teuf x y
def execHfma2 (d a b : Opnd) (s : State) : Out :=
  s.pair2 d a b fun i z x y => fpFma i.ty i.mode i.teuf false false x y z

/-! ### Packed dot products (R210, R262) -/

/-- R262: floating inputs: the accumulator and every product, summed exactly and rounded once. -/
def Iss.dotFp (i : Iss) (acc : Nat) (xs ys : List Nat) : FRes :=
  let ty := i.ty
  let vs := (xs.zip ys).map fun p => (fval ty p.1, fval ty p.2)
  let terms := termOf (fval .f32 acc) :: vs.map fun p => termMul p.1 p.2
  let srcs := (EType.f32, acc) :: ((xs ++ ys).map fun x => (ty, x))
  let both := terms.contains (.inf true) && terms.contains (.inf false)
  sumRounded .f32 i.mode i.teuf srcs terms (both || vs.any fun p => zeroTimesInf p.1 p.2)

/-- R262: integer inputs: the exact sum, wrapped or clamped into i32. -/
def Iss.dotInt (i : Iss) (acc : Nat) (xs ys : List Nat) : FRes :=
  let v := (xs.zip ys).foldl (fun a p => a + valOf i.ty p.1 * valOf i.ty p.2) (valOf .i32 acc)
  (if i.sat then satT .i32 v else wrapT .i32 v, 0)

def State.pdot (s : State) (d a b : Opnd) (n : Nat) (ok : EType → Bool) : Out :=
  s.insn (fun i => [typeChk (ok i.ty), quillChk i (uniform d [a, b]), regChk i 1 d,
      pairedChk 2 d a, packedChk i 2 a, pairedChk 3 d b, packedChk i 3 b]) fun i =>
    s.fpPut i (if isInt i.ty then .i32 else .n32) d (uniform d [a, b]) fun t =>
      let xs := (List.range n).map (i.elem i.ty a t)
      let ys := (List.range n).map (i.elem i.ty b t)
      if isInt i.ty then i.dotInt (i.src .n32 d t) xs ys else i.dotFp (i.src .n32 d t) xs ys

def execPdot4 (d a b : Opnd) (s : State) : Out :=
  s.pdot d a b 4 fun t => t == .e4m3 || t == .e5m2 || t == .i8 || t == .n8
def execPdot8 (d a b : Opnd) (s : State) : Out := s.pdot d a b 8 fun t => t == .e2m1 || t == .i4
def execPdot2 (d a b : Opnd) (s : State) : Out := s.pdot d a b 2 fun t => t == .f16 || t == .bf16

end Sys2Proof.Machine
end

