-- ==== Sys2Proof/Machine/LocalMem.lean ====
section
/-!
DEFINITION. Local loads, stores and atomics (R89 to R93, R143 to R146), and the local steps LOAD, ATL, DRAIN, PROPAGATE and
LONG_LATENCY_WRITEBACK (R12, R121 to R124).
-/

namespace Sys2Proof.Machine

/-- R90: a thread's address. -/
def Iss.localAddr (i : Iss) (base off : Opnd) (t : Nat) : Nat := (i.src .n32 base t + i.src .n32 off t) % 2 ^ 32

/-- R138: the pieces (offset from the start, length) of `len` bytes from offset `off`, one per 32-byte sector. -/
def sectorPieces (off len : Nat) : List (Nat × Nat) :=
  (List.range (len / 32 + 2)).filterMap fun k =>
    let lo := max off ((off / 32 + k) * 32)
    let hi := min (off + len) ((off / 32 + k + 1) * 32)
    if lo < hi then some (lo - off, hi - lo) else none

/-- R93: a run of n elements from a register or a scalar. -/
def runChk (i : Iss) (fld : Nat) (o : Opnd) (ty : EType) (n : Nat) : Chk :=
  match o with
  | .vec r => failIf ((wide ty && r % 2 == 1) || !i.g.runOk r (n * (if wide ty then 2 else 1))) 2 fld
  | .sca r => failIf (decide (48 < r + n)) 2 fld
  | _ => some (2, fld)

/-- The threads for which a local access is made: each passing thread, or one when it is uniform; a uniform access of the
spill stack is that of the lowest active thread (log 15). -/
def Iss.accessThreads (i : Iss) (uni : Bool) : List Nat :=
  if uni then [if i.space = 3 then (threadsOf i.active).headD 0 else 0] else threadsOf i.run

/-- R42: the threads whose access of `len` bytes lies out of bounds. -/
def State.outOfBounds (s : State) (i : Iss) (ts : List Nat) (addr : Nat → Nat) (len : Nat) : List Nat :=
  ts.filter fun t => !s.localOk i.gid i.g i.space t (addr t) len

/-- The threads that a fault of a load names: of a uniform one, which ignores the guard (R31), every active one. -/
def Iss.blame (i : Iss) (uni : Bool) (ts : List Nat) : BitVec 64 := if uni then i.active else maskOf ts

/-- R42, R92, R143: the threads that a fault of a store or an atomic names: of a uniform one those that it stands for, which pass the
guard; a quill context has none to choose from. -/
def Iss.blameRun (i : Iss) (uni : Bool) (ts : List Nat) : BitVec 64 :=
  if uni then (if i.g.quill then i.active else i.run) else maskOf ts

/-- R138: the pieces of one thread's element. -/
def State.piecesOf (s : State) (i : Iss) (t el addr len : Nat) : List LPiece :=
  (sectorPieces addr len).filterMap fun p =>
    (s.localByte i.gid i.g i.space t (addr + p.1)).map fun b =>
      { t := t, el := el, elOff := p.1, place := b.1, off := b.2, len := p.2, x := 0, y := 0, got := none }

/-! ### Loads and stores (R89 to R93) -/

def State.loadN (s : State) (n : Nat) (d base off : Opnd) : Out :=
  s.insn (fun i => [typeChk (byteTy i.ty), quillChk i (uniform d [base, off]), runChk i 1 d i.ty n,
      pairedChk 2 d base, srcChk i 2 base false false, pairedChk 3 d off, srcChk i 3 off false false]) fun i =>
    let uni := Opnd.isSca d
    let e := elemBytes i.ty
    let ts := i.accessThreads uni
    let bad := s.outOfBounds i ts (i.localAddr base off) (n * e)
    if bad ≠ [] then s.trapOn i 4 1 (i.blame uni bad)
    else match s.watch i.g (if i.space = 2 ∧ ts ≠ [] then [2 ^ 40 + i.g.core / 48] else []) with
      | none => s.stall i 11
      | some s1 => s1.addLong i (.load d i.ty (ts.flatMap fun t =>
        (List.range n).flatMap fun k => s.piecesOf i t k (i.localAddr base off t + k * e) e))

def execLd (d base off : Opnd) (s : State) : Out := s.loadN 1 d base off
def execLd2 (d base off : Opnd) (s : State) : Out := s.loadN 2 d base off
def execLd4 (d base off : Opnd) (s : State) : Out := s.loadN 4 d base off

/-- R121: local stores enter the FIFO, each sector piece as an entry of its own: the model merges none (log 94). -/
def State.pushStores (s : State) (i : Iss) (ps : List (Place × List (Nat × Byte))) : State :=
  s.modIss i fun g =>
    { g with fifo := g.fifo ++ (List.range ps.length).map fun k =>
               let p := ps.getD k (.scratch 0, [])
               ⟨g.nextSeq + k, .store p.1 p.2⟩
             nextSeq := g.nextSeq + ps.length }

/-- R92: the pieces that one thread stores. -/
def State.storePieces (s : State) (i : Iss) (x : Opnd) (n t addr : Nat) : List (Place × List (Nat × Byte)) :=
  let e := elemBytes i.ty
  (List.range n).flatMap fun k =>
    let bytes := leBytes (i.src i.ty (elemOpnd i.ty x k) t) e
    (s.piecesOf i t k (addr + k * e) e).map fun p =>
      (p.place, (List.range p.len).map fun j => (p.off + j, bytes.getD (p.elOff + j) 0))

/-- R92, R93: the data operand of a store. -/
def dataChk (i : Iss) (x : Opnd) (n : Nat) : Chk :=
  match x with
  | .vec _ | .sca _ => runChk i 1 x i.ty n
  | _ => if n = 1 then srcChk i 1 x false (i.ty == .f64) else some (2, 1)

def State.storeN (s : State) (n : Nat) (x base off : Opnd) : Out :=
  s.insn (fun i => [typeChk (byteTy i.ty), quillChk i (Opnd.isUni x && Opnd.isUni base && Opnd.isUni off), dataChk i x n,
      srcChk i 2 base false false, srcChk i 3 off false false]) fun i =>
    let uni := Opnd.isUni x && Opnd.isUni base && Opnd.isUni off && (i.g.quill || i.space != 3)
    let ts := if uni then (if i.g.quill || i.run != 0 then [0] else []) else threadsOf i.run
    let bad := s.outOfBounds i ts (i.localAddr base off) (n * elemBytes i.ty)
    if bad ≠ [] then s.trapOn i 4 1 (i.blameRun uni bad)
    else if s.speculative i.g ∧ i.space = 2 ∧ ts ≠ [] then s.stall i 3
    else s.pushStores i (ts.flatMap fun t => s.storePieces i x n t (i.localAddr base off t))

def execSt (x base off : Opnd) (s : State) : Out := s.storeN 1 x base off
def execSt2 (x base off : Opnd) (s : State) : Out := s.storeN 2 x base off
def execSt4 (x base off : Opnd) (s : State) : Out := s.storeN 4 x base off

/-! ### Local atomics (R143 to R146) -/

/-- R143, R144: f(old, x) of an operation code of R148 (0 add to 7 cas; y is the swap value), for local and home atomics. -/
def atomF (ty : EType) (opc old x y : Nat) : Nat :=
  match opc with
  | 0 => if isInt ty then wrapT ty (valOf ty old + valOf ty x) else (fpAdd ty .rne false old x).1
  | 1 => if isInt ty then (if valOf ty x < valOf ty old then x else old) else (fpMinMax ty true false old x).1
  | 2 => if isInt ty then (if valOf ty old < valOf ty x then x else old) else (fpMinMax ty true true old x).1
  | 3 => old &&& x
  | 4 => old ||| x
  | 5 => old ^^^ x
  | 6 => x
  | _ => if old = x then y else old

/-- R144, R148: the types of an operation. -/
def atomTy (opc : Nat) (ty : EType) : Bool :=
  let intOk := ty == .i32 || ty == .n32 || ty == .i64 || ty == .n64
  if opc = 0 ∨ opc = 1 ∨ opc = 2 ∨ opc = 6 then intOk || ty == .f32 || ty == .f64 else intOk

/-- R143, R146: the operand C. -/
def atlChk (i : Iss) (cas : Bool) (x : Opnd) : Chk :=
  if cas then runChk i 3 x i.ty 2 else srcChk i 3 x (wide i.ty) (i.ty == .f64)

/-- A local atomic. Of several address faults the one in the spill stack comes first, then the crossing of a sector, then the
bounds (log 92); that of the spill stack, as the others, is raised for a thread that performs (log 111). -/
def State.atlOp (s : State) (opc : Nat) (d addr x : Opnd) : Out :=
  s.insn (fun i => [typeChk (atomTy opc i.ty), quillChk i (uniform d [addr, x]), dstChk i 1 d (wide i.ty),
      pairedChk 2 d addr, srcChk i 2 addr false false, pairedChk 3 d x, atlChk i (opc == 7) x]) fun i =>
    let uni := uniform d [addr, x]
    let e := elemBytes i.ty
    let ts := if uni then (if i.g.quill || i.run != 0 then [0] else []) else threadsOf i.run
    let at_ (t : Nat) : Nat := i.src .n32 addr t
    let cross := ts.filter fun t => decide (32 < at_ t % 32 + e)
    let bad := s.outOfBounds i ts at_ e
    if i.space = 3 ∧ ts ≠ [] then s.trapOn i 4 4 (i.blameRun uni ts)
    else if cross ≠ [] then s.trapOn i 4 3 (i.blameRun uni cross)
    else if bad ≠ [] then s.trapOn i 4 1 (i.blameRun uni bad)
    else if s.speculative i.g ∧ i.space = 2 ∧ ts ≠ [] then s.stall i 3
    else
      let ps := ts.flatMap fun t => (s.piecesOf i t 0 (at_ t) e).map fun p =>
        { p with x := i.src i.ty x t, y := if opc = 7 then i.src i.ty (elemOpnd i.ty x 1) t else 0 }
      let l := i.g.nextSeq
      (s.addLong i (.atomic d i.ty opc ps)).modIss i fun g =>
        { g with fifo := g.fifo ++ (List.range ps.length).map fun k => ⟨l, .atl l k⟩ }

def execAtladd (d addr x : Opnd) (s : State) : Out := s.atlOp 0 d addr x
def execAtlmin (d addr x : Opnd) (s : State) : Out := s.atlOp 1 d addr x
def execAtlmax (d addr x : Opnd) (s : State) : Out := s.atlOp 2 d addr x
def execAtland (d addr x : Opnd) (s : State) : Out := s.atlOp 3 d addr x
def execAtlor (d addr x : Opnd) (s : State) : Out := s.atlOp 4 d addr x
def execAtlxor (d addr x : Opnd) (s : State) : Out := s.atlOp 5 d addr x
def execAtlxch (d addr x : Opnd) (s : State) : Out := s.atlOp 6 d addr x
def execAtlcas (d addr x : Opnd) (s : State) : Out := s.atlOp 7 d addr x

/-! ### The local steps (R122 to R124) -/

def LongKind.pieces : LongKind → List LPiece
  | .load _ _ ps => ps
  | .atomic _ _ _ ps => ps
  | .result _ | .float _ => []

def LongKind.setPiece (k : LongKind) (j : Nat) (f : LPiece → LPiece) : LongKind :=
  match k with
  | .load d ty ps => .load d ty (listModify f ps j)
  | .atomic d ty o ps => .atomic d ty o (listModify f ps j)
  | k => k

/-- The index of the first piece that has not performed. -/
def nextPiece (ps : List LPiece) : Option Nat := ps.findIdx? fun p => p.got.isNone

/-- R123, R124: the oldest local access of the group that still has a piece to perform. -/
def Group.nextAccess (g : Group) : Option (LongOp × Nat) :=
  (g.longs.filterMap fun l => (nextPiece l.kind.pieces).map fun j => (l, j)).head?

/-- The youngest byte for an offset of a place among stores, listed oldest first. -/
def youngest (es : List (Place × List (Nat × Byte))) (p : Place) (off : Nat) : Option Byte :=
  es.foldl (fun r e => if e.1 = p then (match (e.2.reverse.find? fun b => b.1 == off) with | some b => some b.2 | none => r) else r)
    none

/-- R123: what a load of the group, `seq` its place in issue order, reads at an offset of a place. -/
def State.loadByte (s : State) (g : Group) (seq : Nat) (p : Place) (off : Nat) : Byte :=
  let own := g.fifo.filterMap fun e => match e.kind with
    | .store q bs => if e.seq < seq then some (q, bs) else none
    | _ => none
  match youngest own p off with
  | some b => b
  | none =>
    match youngest ((KMap.getD s.oq g.core []).map fun e => (e.place, e.bytes)) p off with
    | some b => b
    | none => s.placeGet p off

/-- A piece of a long-latency operation has its bytes. -/
def Group.fillPiece (g : Group) (l j : Nat) (bs : List Byte) : Group :=
  { g with longs := g.longs.map fun x =>
      if x.id = l then { x with kind := x.kind.setPiece j fun p => { p with got := some bs } } else x }

/-- R123: LOAD, enabled when the group's next local access is a load. -/
def State.loadStep (s : State) (gid : Nat) : State :=
  match s.group gid with
  | none => s
  | some g =>
    match g.nextAccess with
    | some (l, j) =>
      match l.kind with
      | .load _ _ ps =>
        let p := ps.getD j ⟨0, 0, 0, .scratch 0, 0, 0, 0, 0, none⟩
        let bs := (List.range p.len).map fun k => s.loadByte g l.seq p.place (p.off + k)
        s.modGroup gid fun g => g.fillPiece l.id j bs
      | _ => s
    | none => s

/-- R124: ATL, enabled when its entry is the head of the FIFO and nothing of the group is left in the OQ. -/
def State.atlStep (s : State) (gid : Nat) : State :=
  match s.group gid with
  | none => s
  | some g =>
    match g.nextAccess, g.fifo.head? with
    | some (l, j), some e =>
      match l.kind with
      | .atomic _ ty opc ps =>
        if e.kind = .atl l.id j ∧ !((KMap.getD s.oq g.core []).any fun x => x.gid == gid) then
          let p := ps.getD j ⟨0, 0, 0, .scratch 0, 0, 0, 0, 0, none⟩
          let old := (List.range p.len).map fun k => s.placeGet p.place (p.off + k)
          let new := leBytes (atomF ty opc (leVal old) p.x p.y) p.len
          ((s.placePut p.place ((List.range p.len).map fun k => (p.off + k, new.getD k 0))).modGroup gid fun g =>
            { g.fillPiece l.id j old with fifo := g.fifo.drop 1 }).touch none (.place p.place p.off)
        else s
      | _ => s
    | _, _ => s

/-- R122: DRAIN, enabled when the head of the FIFO is a store that no older load of the group still waits behind
(log 16). -/
def State.drainHead (s : State) (gid : Nat) : Option (Group × Nat × Place × List (Nat × Byte)) :=
  match s.group gid with
  | none => none
  | some g =>
    match g.fifo.head? with
    | some ⟨seq, .store p bs⟩ =>
      if g.longs.any fun l => decide (l.seq < seq) && (nextPiece l.kind.pieces).isSome then none else some (g, seq, p, bs)
    | _ => none

def State.drainStep (s : State) (gid : Nat) : State :=
  match s.drainHead gid with
  | none => s
  | some (g, seq, p, bs) =>
    let s1 := s.modGroup gid fun g => { g with fifo := g.fifo.drop 1 }
    if p = .team g.team g.core then s1.placePut p bs
    else { s1 with oq := KMap.put s1.oq g.core (KMap.getD s1.oq g.core [] ++ [⟨gid, seq, p, bs⟩]) }

/-- R122: PROPAGATE. -/
def State.propagateStep (s : State) (core : Nat) : State :=
  match KMap.getD s.oq core [] with
  | [] => s
  | e :: r => (({ s with oq := KMap.put s.oq core r }).placePut e.place e.bytes).touch none (.place e.place 0)

/-! ### Results (R12, R21, R91) -/

/-- The register writes of a finished long-latency operation; none while a piece has not performed. -/
def LongKind.writes (k : LongKind) : Option (List RegWrite) := if (nextPiece k.pieces).isSome then none else some k.targets

/-- R93, R248: a write of the result `x`, or, where another instruction has changed its destination since `x` issued, in each thread this
value or that one (log 121). -/
def State.lateWrite (s : State) (g : Group) (x : LongOp) (w : RegWrite) : RegWrite :=
  match w with
  | .flags .. => w
  | .vec n t _ => if x.was.contains (w.now g) || Config.lateResult s.turn n t then w else w.now g
  | .sca n _ => if x.was.contains (w.now g) || Config.lateResult s.turn (192 + n) 0 then w else w.now g

/-- A younger result takes the place of an older one's, which is no later instruction. -/
def LongOp.follow (g h : Group) (ws : List RegWrite) (x y : LongOp) : LongOp :=
  if x.seq < y.seq then { y with was := y.was.map fun v => if ws.any fun w => w.now g == v.now g then v.now h else v } else y

/-- LONG_LATENCY_WRITEBACK: the destinations are written, the energy is charged (R348), and the flags whose results are then all written are clear. -/
def State.writeback (s : State) (gid l : Nat) : State :=
  match s.group gid with
  | none => s
  | some g =>
    match g.longs.find? fun x => x.id == l with
    | none => s
    | some x =>
      match x.kind.writes with
      | none => s
      | some ws =>
        ((s.regWrites gid (ws.map (s.lateWrite g x))).addEnergy gid x.cost).modGroup gid fun h =>
          ({ h with longs := (h.longs.filter fun y => y.id ≠ l).map (LongOp.follow g h ws x)
                    gangs := h.gangs.map fun k => if k.hold = .result l then { k with hold := .none } else k } : Group).settle

end Sys2Proof.Machine
end

