-- ==== Sys2Proof/Machine/Engine.lean ====
section
/-!
DEFINITION. Engine operations: control blocks and their checks (R94 to R102), gathers, scatters and PREF (R103 to R107),
the issue of home atomics (R147 to R150), and the requests that START creates, page by page (R58, R125).
-/

namespace Sys2Proof.Machine

/-! ### Issue (R125) -/

/-- R125: ISSUE is enabled: the counter is below 63 and every earlier local store has been written. -/
def State.canIssue (s : State) (i : Iss) (c : EngClass) : Bool :=
  decide (s.counter i.gid c < 63) && s.storesOut i.gid i.g

/-- The ordinal of the next operation of a class. -/
def Group.nextOrd (g : Group) (c : EngClass) : Nat := KMap.getD g.issued (classIndex c) 0 + 1

/-- R125: ISSUE: the operation joins its class queue. -/
def State.issueOp (s : State) (i : Iss) (c : EngClass) (k : OpKind) (bar : Option BarKey) : State :=
  let fn := s.fnOf i.g
  let op : EngOp :=
    { gid := i.gid, cls := c, ord := i.g.nextOrd c, kind := k, pc := i.pc, started := false, failed := none, buf := [],
      have_ := [], bar := bar, sh := none, fn := fn, optag := (s.func fn).nextOptag, swept := false, nib := i.gang.id, dev := s.devnum, made := 0,
      cost := 0 }
  let s1 := s.modFunc fn fun f => { f with nextOptag := (f.nextOptag + 1) % 2 ^ 32 }
  { s1 with ops := KMap.put s1.ops s1.nextOp op, nextOp := s1.nextOp + 1 }.modGroup i.gid fun g =>
    { g with issued := KMap.put g.issued (classIndex c) (g.nextOrd c) }

/-- ISSUE when it is enabled; otherwise the issue waits. -/
def State.issueWhenReady (s : State) (i : Iss) (c : EngClass) (k : OpKind) (bar : Option BarKey) : State :=
  if s.canIssue i c then s.issueOp i c k bar else s.unissued i

/-! ### Copy control blocks (R95 to R97) -/

/-- R95: the control block in eight words. -/
def copyBlkOf (x : Nat → DWord) : CopyBlk :=
  let w (k : Nat) : Nat := (x k).toNat
  let f := w 6
  { src := x 0, dst := x 1
    ext := [bitsOf (w 2) 15 0, bitsOf (w 2) 31 16, bitsOf (w 2) 47 32, bitsOf (w 2) 63 48]
    ss := [bitsOf (w 3) 20 0, bitsOf (w 3) 41 21, bitsOf (w 3) 62 42]
    ds := [bitsOf (w 4) 20 0, bitsOf (w 4) 41 21, bitsOf (w 4) 62 42]
    esz := bitsOf (w 5) 7 0, mcm := bitsOf f 47 32, rtype := bitsOf f 23 20, rop := bitsOf f 19 16
    sspc := bitsOf f 12 11, dspc := bitsOf f 10 9, bind := f.testBit 8, bar := bitsOf f 7 4, shf := f.testBit 2
    sloc := f.testBit 1, dloc := f.testBit 0, handle := x 7
    rsvd := decide (bitsOf (w 3) 63 63 ≠ 0) || decide (bitsOf (w 4) 63 63 ≠ 0) || decide (bitsOf (w 5) 63 8 ≠ 0) ||
      decide (bitsOf f 63 48 ≠ 0) || decide (bitsOf f 31 24 ≠ 0) || decide (bitsOf f 15 13 ≠ 0) || f.testBit 3 }

/-- R95: the control block in scalars sb to sb + 7. -/
def Iss.copyBlk (i : Iss) (sb : Nat) : CopyBlk := copyBlkOf fun k => i.g.sreg (sb + k)

def CopyBlk.extent (b : CopyBlk) (k : Nat) : Nat := b.ext.getD k 0 + 1
/-- R96: the copy's size in bytes. -/
def CopyBlk.size (b : CopyBlk) : Nat := b.esz * b.extent 0 * b.extent 1 * b.extent 2 * b.extent 3
/-- R44, R97: the distance from an endpoint's lowest to its highest byte. -/
def CopyBlk.span (b : CopyBlk) (strides : List Nat) : Nat :=
  b.esz * (b.ext.getD 0 0 + b.ext.getD 1 0 * strides.getD 0 0 + b.ext.getD 2 0 * strides.getD 1 0 +
    b.ext.getD 3 0 * strides.getD 2 0) + b.esz - 1

/-- R101: the reduction types of an operator. -/
def reduceTy (rop : Nat) (t : EType) : Bool :=
  if rop ≤ 3 then t == .i32 || t == .n32 || t == .i64 || t == .n64 || t == .f32 || t == .f64 || t == .f16 || t == .bf16
  else t == .i32 || t == .n32 || t == .i64 || t == .n64

/-- Which of the copy class. -/
inductive CopyOp where
  | copy | copyr | bcast | shread
  deriving DecidableEq, Repr

/-- R97: the first failing detail. SHREAD's own conditions come after those of R97 (R164). -/
def CopyBlk.bad (b : CopyBlk) (o : CopyOp) : Option Nat :=
  if !([1, 2, 4, 8, 16, 32, 64, 128].contains b.esz) then some 1
  else if b.rsvd ∨ b.sspc = 3 ∨ b.dspc = 3 then some 2
  else if (b.sloc ∧ 2 ^ 32 ≤ b.src.toNat) ∨ (b.dloc ∧ 2 ^ 32 ≤ b.dst.toNat) then some 3
  else if 2 ^ 32 ≤ b.size then some 4
  else if (o = .copy ∨ o = .bcast) ∧ b.rop ≠ 0 ∨ o = .copyr ∧ (b.rop = 0 ∨ 7 ≤ b.rop) then some 5
  else if o = .copyr ∧ (!reduceTy b.rop (etypeOf b.rtype) ∨ b.esz * 8 ≠ widthOf (etypeOf b.rtype)) then some 6
  else if b.shf ∧ (b.dloc ∨ o = .copyr ∨ o = .bcast) then some 7
  else if o = .bcast ∧ (!b.dloc ∨ b.dspc = 1 ∨ b.mcm = 0 ∨ 16 ≤ b.mcm) then some 8
  else if (o = .copy ∨ o = .copyr) ∧ b.mcm ≠ 0 then some 9
  else if o = .shread ∧ (b.sloc ∨ b.esz ≠ 128 ∨ b.src.toNat % 128 ≠ 0 ∨ b.rop ≠ 0 ∨ b.shf ∨ b.mcm ≠ 0 ∨ 131072 < b.size)
  then some 10
  else none

/-- R102: the places that a BCAST names, with whether each exists for this team. -/
def State.bcastDests (s : State) (i : Iss) (b : CopyBlk) : List (Place × Bool) :=
  ((List.range 4).filter fun c => b.mcm.testBit c).map fun c =>
    if b.dspc = 2 then
      (.scratch c, s.islands.contains c && s.islandPart c == s.fnPart (s.fnOf i.g))
    else
      let core := 4 * (i.g.core / 4) + c
      (.team i.g.team core, match s.teamOf i.g with | some t => t.cores.contains core && decide (0 < t.tmemSize) | none => false)

/-- R42, R44, R102: the address fault of a copy at issue: non-canonical (2) or out of bounds (1). The highest byte of a local endpoint
is judged as it stands: beyond 2^32 it is out of bounds, where the offsets of R96 go round (log 105). -/
def State.copyAddr (s : State) (i : Iss) (b : CopyBlk) (o : CopyOp) : Option Nat :=
  let ends (isLocal : Bool) (a : Nat) (strides : List Nat) : Bool :=
    !isLocal && !(canonical a && canonical ((a + b.span strides) % 2 ^ 64))
  let bound (isLocal : Bool) (spc a : Nat) (strides : List Nat) : Bool :=
    isLocal && !((s.localByte i.gid i.g spc 0 a).isSome && (s.localByte i.gid i.g spc 0 (a + b.span strides)).isSome)
  if ends b.sloc b.src.toNat b.ss || ends b.dloc b.dst.toNat b.ds then some 2
  else if bound b.sloc b.sspc b.src.toNat b.ss then some 1
  else if o = .bcast then
    (if (s.bcastDests i b).any fun p => !p.2 then some 1
     else
      let top := b.dst.toNat + b.span b.ds
      let limit := if b.dspc = 2 then Config.scratchBytes else match s.teamOf i.g with | some t => t.tmemSize | none => 0
      if limit ≤ top then some 1 else none)
  else if bound b.dloc b.dspc b.dst.toNat b.ds then some 1
  else none

/-! ### Handles (R159) -/

/-- R159: the entry that a valid handle names. -/
def State.handleEntry (s : State) (fn : Nat) (h : DWord) : Option Nat :=
  let n := h.toNat
  let idx := bitsOf n 43 32
  match KMap.get s.sheaves idx with
  | some e =>
    if e.open_ ∧ e.serial = bitsOf n 31 0 ∧ bitsOf n 63 56 = (s.func fn).gen ∧ e.fn = fn ∧ bitsOf n 55 44 = s.devnum
    then some idx else none
  | none => none

/-- R161: the operation is a sheaf write of its handle's entry. -/
def State.noteSheafWrite (s : State) (e : Option Nat) : State :=
  match e with
  | none => s
  | some x => { s with sheaves := KMap.adjust s.sheaves x fun y => { y with writes := y.writes ++ [s.nextOp - 1] } }

/-- R97, R98: the checks and the issue of a copy, a reducing copy or a broadcast. -/
def State.copyIssue (s : State) (i : Iss) (sb : Nat) (o : CopyOp) (mk : CopyBlk → OpKind) : State :=
  let b := i.copyBlk sb
  let code := barCode (byte (0x10 + b.bar))
  let entry := if b.shf then s.handleEntry (s.fnOf i.g) b.handle else none
  match b.bad o with
  | some d => s.trap i 6 d
  | none =>
    match s.copyAddr i b o with
    | some d => s.trap i 4 d
    | none =>
      if b.bind ∧ !(match code with | some c => s.barEnabled i.g c | none => false) then s.trap i 0x0E 1
      else if b.shf ∧ entry = none then s.trap i 9 1
      else if s.speculative i.g ∧ (b.dloc ∧ b.dspc = 2) then s.stall i 3
      else if s.speculative i.g ∧ (b.shf ∨ o = .shread ∧ b.dloc) then s.stall i 4
      else if s.canIssue i .copy then
        let bar := if b.bind then code.map fun c => s.barKey i.gid i.g c else none
        (s.issueOp i .copy (mk b) bar).noteSheafWrite entry
      else s.unissued i

/-- R94: sb is s0 to s40. -/
def sbChk (fld : Nat) (o : Opnd) : Chk :=
  match o with
  | .sca n => failIf (decide (40 < n)) 2 fld
  | _ => some (2, fld)

def scaNo (o : Opnd) : Nat :=
  match o with
  | .sca n => n
  | _ => 0

def execBcopy (blk : Opnd) (u : BitVec 16) (s : State) : Out :=
  s.insn (fun i => [quillOpnds i [blk], sbChk 1 blk] ++ zero16 u) fun i => s.copyIssue i (scaNo blk) .copy .copy
def execBcopyr (blk : Opnd) (u : BitVec 16) (s : State) : Out :=
  s.insn (fun i => [quillOpnds i [blk], sbChk 1 blk] ++ zero16 u) fun i => s.copyIssue i (scaNo blk) .copyr .copyr
def execBcast (blk : Opnd) (u : BitVec 16) (s : State) : Out :=
  s.insn (fun i => [quillOpnds i [blk], sbChk 1 blk] ++ zero16 u) fun i => s.copyIssue i (scaNo blk) .bcast .bcast

/-! ### Gathers, scatters, PREF (R103 to R107) -/

/-- R103: base: a scalar or zero. -/
def baseChk (fld : Nat) (o : Opnd) : Chk :=
  match o with
  | .sca _ | .zero => none
  | _ => some (2, fld)
/-- R103, R147: base: an even scalar with its neighbour, or zero. -/
def pairBaseChk (fld : Nat) (o : Opnd) : Chk :=
  match o with
  | .sca n => failIf (n % 2 == 1) 2 fld
  | .zero => none
  | _ => some (2, fld)
/-- R103: an offset operand: a vector, a scalar, a literal, zero or the thread index. -/
def offChk (i : Iss) (fld : Nat) (o : Opnd) : Chk :=
  match o with
  | .one => some (2, fld)
  | _ => srcChk i fld o false false

/-- R103: thread t's virtual address. -/
def Iss.virtAddr (i : Iss) (base off : Opnd) (t : Nat) : DWord := i.uni64 base + BitVec.ofInt 64 (valOf .i32 (i.src .i32 off t))

/-- R103: the sheaf handle beside the base. -/
def Iss.handleAt (i : Iss) (base : Opnd) : DWord :=
  match base with
  | .sca n => i.g.sreg (n + 1)
  | _ => 0

/-- R44: the passing threads whose address is not canonical. -/
def Iss.nonCanonical (i : Iss) (addr : Nat → DWord) : List Nat :=
  (threadsOf i.run).filter fun t => !canonical (addr t).toNat

def execGather (d base off : Opnd) (s : State) : Out :=
  s.insn (fun i => [typeChk (byteTy i.ty), quillChk i false, vecChk i 1 d (wide i.ty), baseChk 2 base, offChk i 3 off]) fun i =>
    let bad := i.nonCanonical (i.virtAddr base off)
    if bad ≠ [] then s.trapOn i 4 2 (maskOf bad)
    else
      let dn := match d with | .vec n => n | _ => 0
      s.issueWhenReady i .gather (.gather dn i.ty ((threadsOf i.run).map fun t => (t, i.virtAddr base off t))) none

/-- R103, R159: a handle that is not 0 must be valid. -/
def State.badHandle (s : State) (i : Iss) (h : DWord) : Bool := h != 0 && (s.handleEntry (s.fnOf i.g) h).isNone

def execScatter (x base off : Opnd) (s : State) : Out :=
  s.insn (fun i => [typeChk (byteTy i.ty), quillChk i false, srcChk i 1 x (wide i.ty) (i.ty == .f64), pairBaseChk 2 base,
      offChk i 3 off]) fun i =>
    let bad := i.nonCanonical (i.virtAddr base off)
    let h := i.handleAt base
    if bad ≠ [] then s.trapOn i 4 2 (maskOf bad)
    else if s.badHandle i h then s.trap i 9 1
    else if s.speculative i.g ∧ h ≠ 0 then s.stall i 4
    else if s.canIssue i .gather then
      (s.issueOp i .gather (.scatter i.ty h ((threadsOf i.run).map fun t => (t, i.virtAddr base off t, i.src i.ty x t)))
        none).noteSheafWrite (s.handleEntry (s.fnOf i.g) h)
    else s.unissued i

/-- R107: the lines that a PREF asks for. -/
def prefLines (base : DWord) (len : Nat) : List Nat :=
  let n := min len 0x1000000
  if n = 0 then [] else
    let first := base.toNat / 128
    (List.range ((base.toNat + n - 1) / 128 + 1 - first)).map fun k => first + k

/-- R65, R107: the line of a virtual line that may be fetched: translated, not in the host window. -/
def State.prefTarget (s : State) (unit fn vline : Nat) : Option Nat :=
  if !canonical (vline * 128) then none else
  match s.translateAt unit fn (vline * 128) 0 with
  | .ok d => (match s.locOf fn d with | .dpa a => some (a / 128) | _ => none)
  | .fault .. => none

/-- A PF names a line and the function that asks, by whose partition a second-tier line has its home (R367). -/
def prefBound : Nat := 2 ^ 53
def prefName (fn line : Nat) : Nat := fn * prefBound + line

def execPref (base len : Opnd) (u : Byte) (s : State) : Out :=
  s.insn (fun i => [quillOpnds i [base, len], baseChk 1 base, failIf (!Opnd.isUni len) 2 2, zeroChk 3 u]) fun i =>
    let a := i.uni64 base
    if !canonical a.toNat then s
    else { s with agenda := s.agenda ++ (prefLines a (i.uni64 len).toNat).filterMap fun l =>
      (s.prefTarget i.g.core (s.fnOf i.g) l).map fun x => .pf (prefName (s.fnOf i.g) x) }

/-! ### Home atomics (R147 to R150) -/

/-- R148: OPC and TYPE of the literal word, if it is legal. -/
def atomCtl (w : Word) (reply : Bool) : Option (Nat × EType) :=
  let n := w.toNat
  let opc := bitsOf n 15 12
  let ty := etypeOf (bitsOf n 11 8)
  if bitsOf n 31 16 ≠ 0 ∨ bitsOf n 7 0 ≠ 0 ∨ 8 ≤ opc ∨ !atomTy opc ty ∨ (!reply ∧ 6 ≤ opc) then none else some (opc, ty)

/-- R150: registers of the operand: a pair for 64-bit types, two operands for cas. -/
def atomRunChk (i : Iss) (v : Opnd) (ctl : Word) : Chk :=
  match v with
  | .vec n =>
    match atomCtl ctl true with
    | some (opc, ty) =>
      failIf ((wide ty && n % 2 == 1) || !i.g.runOk n ((if opc = 7 then 2 else 1) * (if wide ty then 2 else 1))) 2 1
    | none => failIf (!i.g.runOk n 1) 2 1
  | _ => some (2, 1)

/-- R150: the passing threads whose element is not naturally aligned. -/
def Iss.misaligned (i : Iss) (addr : Nat → DWord) (e : Nat) : List Nat :=
  (threadsOf i.run).filter fun t => decide ((addr t).toNat % e ≠ 0)

/-- R149: the issue of a home atomic. `opnd` gives each thread's operand and swap value. Of several faults the non-canonical address
comes first, then the misaligned one, then the handle (log 92); a guarded ARED of a quill context sends what its guard, with every
predicate 0, lets pass (log 93). -/
def State.atomIssue (s : State) (i : Iss) (d : Option Nat) (ctl : Word) (base off : Opnd) (reply : Bool)
    (opnd : EType → Nat → Nat × Nat) : State :=
  match atomCtl ctl reply with
  | none => s.trap i 2 4
  | some (opc, ty) =>
    let h := i.handleAt base
    let mis := i.misaligned (i.virtAddr base off) (elemBytes ty)
    let bad := i.nonCanonical (i.virtAddr base off)
    if bad ≠ [] then s.trapOn i 4 2 (maskOf bad)
    else if mis ≠ [] then s.trapOn i 4 5 (maskOf mis)
    else if s.badHandle i h then s.trap i 9 1
    else if s.speculative i.g ∧ h ≠ 0 then s.stall i 4
    else if s.canIssue i .atomic then
      (s.issueOp i .atomic (.atom d ty opc h ((threadsOf i.run).map fun t =>
        (t, i.virtAddr base off t, (opnd ty t).1, (opnd ty t).2))) none).noteSheafWrite (s.handleEntry (s.fnOf i.g) h)
    else s.unissued i

def execAtom (v base off : Opnd) (ctl : Word) (s : State) : Out :=
  s.insn (fun i => [quillChk i false, atomRunChk i v ctl, pairBaseChk 2 base, offChk i 3 off,
      failIf (atomCtl ctl true).isNone 2 4]) fun i =>
    s.atomIssue i (match v with | .vec n => some n | _ => none) ctl base off true fun ty t =>
      (i.src ty v t, i.src ty (elemOpnd ty v 1) t)

def execAred (x base off : Opnd) (ctl : Word) (s : State) : Out :=
  let ty := match atomCtl ctl false with | some p => p.2 | none => .i32
  s.insn (fun i => [quillOpnds i [x, base, off], srcChk i 1 x (wide ty) (ty == .f64), pairBaseChk 2 base, offChk i 3 off,
      failIf (atomCtl ctl false).isNone 2 4]) fun i =>
    s.atomIssue i none ctl base off false fun ty t => (i.src ty x t, 0)

/-- R150, R154: APROG's arguments: vA to vA + 3, A a multiple of 4. -/
def progChk (i : Iss) (v : Opnd) : Chk :=
  match v with
  | .vec n => failIf (decide (n % 4 ≠ 0) || !i.g.runOk n 4) 2 1
  | _ => some (2, 1)

def execAprog (v base off : Opnd) (ctl : Word) (s : State) : Out :=
  s.insn (fun i => [quillChk i false, progChk i v, baseChk 2 base, offChk i 3 off,
      failIf (decide (256 ≤ ctl.toNat)) 2 4]) fun i =>
    let bad := i.nonCanonical (i.virtAddr base off)
    if bad ≠ [] then s.trapOn i 4 2 (maskOf bad)
    else
      let n := match v with | .vec n => n | _ => 0
      s.issueWhenReady i .atomic (.prog n ctl.toNat ((threadsOf i.run).map fun t =>
        (t, i.virtAddr base off t, i.src .n64 (.vec n) t, i.src .n64 (.vec (n + 2)) t))) none

/-! ### Requests (R58, R125) -/

/-- R151: a home's atomic unit serves the request. -/
def ReqKind.atomic : ReqKind → Bool
  | .rmw .. | .prog .. | .signal .. | .combine .. => true
  | _ => false

/-- A request before its page is resolved: what it does, where (a virtual address, or a location), ACC of R61, and the second
sector that a reducing copy's element reaches (R101, R138). -/
structure Plan where
  kind : ReqKind
  va : Option Nat
  loc : Option Loc
  dst : Bool
  acc : Nat
  handle : DWord
  far : Option Nat
  farLoc : Option Loc

/-- R96: every element's index, dimension 0 fastest. -/
def CopyBlk.indices (b : CopyBlk) : List (Nat × Nat × Nat × Nat) :=
  (List.range (b.extent 3)).flatMap fun i3 => (List.range (b.extent 2)).flatMap fun i2 =>
    (List.range (b.extent 1)).flatMap fun i1 => (List.range (b.extent 0)).map fun i0 => (i0, i1, i2, i3)

/-- R96: the address of an element. -/
def CopyBlk.elemAt (b : CopyBlk) (base : Nat) (strides : List Nat) (isLocal : Bool) (x : Nat × Nat × Nat × Nat) : Nat :=
  (base + b.esz * (x.1 + x.2.1 * strides.getD 0 0 + x.2.2.1 * strides.getD 1 0 + x.2.2.2 * strides.getD 2 0)) %
    2 ^ (if isLocal then 32 else 64)

/-- The addresses of every byte of an endpoint, with the byte's index in the copy. -/
def CopyBlk.bytesAt (b : CopyBlk) (base : Nat) (strides : List Nat) (isLocal : Bool) : List (Nat × Nat) :=
  let es := b.indices.map (b.elemAt base strides isLocal)
  (List.range es.length).flatMap fun k => (List.range b.esz).map fun j =>
    ((es.getD k 0 + j) % 2 ^ (if isLocal then 32 else 64), k * b.esz + j)

/-- The bytes of one endpoint by 32-byte sector: sector number, and each byte's distance in it with its index. -/
def bySector (bs : List (Nat × Nat)) : List (Nat × List (Nat × Nat)) :=
  (nubBy (bs.map fun p => p.1 / 32)).map fun sec =>
    (sec, (bs.filter fun p => p.1 / 32 == sec).map fun p => (p.1 % 32, p.2))

/-- The location of a local sector of a space for a context. Its own core's team memory and its die's scratch existed at the issue;
R188: an operation of a quill context outlives the team on its core. -/
def State.localLoc (s : State) (gid spc off : Nat) : Option Loc :=
  match s.group gid with
  | none => none
  | some g =>
    if spc = 0 then some (.place (.team g.team g.core) off)
    else (s.localByte gid g spc 0 off).map fun p => .place p.1 p.2

/-- The bytes of a copy, by index, whose source exists: in the cluster view a core of the range may hold none of the team's memory
(log 44). -/
def State.copyHas (s : State) (gid : Nat) (b : CopyBlk) (k : Nat) : Bool :=
  !b.sloc || (b.sspc != 1) ||
    (let es := b.esz * (k / b.esz)
     let x := k / b.esz
     let e0 := b.extent 0
     let e1 := b.extent 1
     let e2 := b.extent 2
     (s.localLoc gid b.sspc ((b.elemAt b.src.toNat b.ss true (x % e0, x / e0 % e1, x / (e0 * e1) % e2, x / (e0 * e1 * e2)) +
       (k - es)) / 32 * 32)).isSome)

/-- The read requests of a copy's source. -/
def State.copyReads (s : State) (gid : Nat) (b : CopyBlk) : List Plan :=
  (bySector (b.bytesAt b.src.toNat b.ss b.sloc)).filterMap fun p =>
    if b.sloc then (s.localLoc gid b.sspc (p.1 * 32)).map fun l => ⟨.read p.2, none, some l, false, 0, 0, none, none⟩
    else some ⟨.read p.2, some (p.1 * 32), none, false, 0, 0, none, none⟩

/-- The write requests of a copy's destination, one per sector and place, of the bytes that have a source. -/
def State.copyWrites (s : State) (gid : Nat) (b : CopyBlk) (dests : List Place) : List Plan :=
  (bySector ((b.bytesAt b.dst.toNat b.ds b.dloc).filter fun p => s.copyHas gid b p.2)).flatMap fun p =>
    if dests ≠ [] then dests.map fun d => ⟨.write p.2, none, some (.place d (p.1 * 32)), true, 1, 0, none, none⟩
    else if b.dloc then ((s.localLoc gid b.dspc (p.1 * 32)).map fun l => ⟨.write p.2, none, some l, true, 1, 0, none, none⟩).toList
    else [⟨.write p.2, some (p.1 * 32), none, true, if b.shf then 4 else 1, if b.shf then b.handle else 0, none, none⟩]

/-- R101, R138: the combining requests of a reducing copy: one for the elements that lie whole in one sector, and one for each
element that reaches into the next. -/
def State.copyCombines (s : State) (gid : Nat) (b : CopyBlk) : List Plan :=
  let es := b.indices.map (b.elemAt b.dst.toNat b.ds b.dloc)
  let keyed := ((List.range es.length).map fun k => (es.getD k 0, k * b.esz)).filter fun p => s.copyHas gid b p.2
  let crosses (p : Nat × Nat) : Bool := decide (32 < p.1 % 32 + b.esz)
  let groups := (bySector (keyed.filter fun p => !crosses p)).map (fun p => (p, false)) ++
    (keyed.filter crosses).map fun p => ((p.1 / 32, [(p.1 % 32, p.2)]), true)
  groups.filterMap fun x =>
    let p := x.1
    let k : ReqKind := .combine b.rop (etypeOf b.rtype) p.2
    let next := (p.1 * 32 + 32) % 2 ^ (if b.dloc then 32 else 64)
    if b.dloc then (s.localLoc gid b.dspc (p.1 * 32)).map fun l =>
      ⟨k, none, some l, true, 1, 0, none, if x.2 then s.localLoc gid b.dspc next else none⟩
    else some ⟨k, some (p.1 * 32), none, true, 1, 0, if x.2 then some next else none, none⟩

/-- Bytes of elements at virtual addresses, with index 8 × thread + byte. -/
def elemBytesAt (e : Nat) (addrs : List (Nat × DWord)) : List (Nat × Nat) :=
  addrs.flatMap fun p => (List.range e).map fun j => ((p.2.toNat + j) % 2 ^ 64, 8 * p.1 + j)

/-- R104, R105: the requests of a scatter: one masked write per sector, a higher thread's byte last. -/
def scatterPlans (e : Nat) (h : DWord) (elems : List (Nat × DWord × Nat)) : List Plan :=
  let bs := elemBytesAt e (elems.map fun x => (x.1, x.2.1))
  let val (k : Nat) : Byte := match elems.find? fun x => x.1 == k / 8 with
    | some x => byte (x.2.2 / 2 ^ (8 * (k % 8)))
    | none => 0
  (bySector bs).map fun p =>
    ⟨.store (p.2.map fun q => (q.1, val q.2)), some (p.1 * 32), none, true, if h = 0 then 1 else 4, h, none, none⟩

/-- START: the requests of an operation. -/
def State.plans (s : State) (o : EngOp) : List Plan :=
  match o.kind with
  | .copy b => s.copyReads o.gid b ++ s.copyWrites o.gid b []
  | .copyr b => s.copyReads o.gid b ++ s.copyCombines o.gid b
  | .bcast b =>
    match s.group o.gid with
    | some g =>
      s.copyReads o.gid b ++ s.copyWrites o.gid b (((List.range 4).filter fun c => b.mcm.testBit c).map fun c =>
        if b.dspc = 2 then .scratch c else .team g.team (4 * (g.core / 4) + c))
    | none => []
  | .shread _ b =>
    ((b.bytesAt b.src.toNat b.ss false).foldl (fun (acc : List (Nat × List (Nat × Nat))) p =>
        match acc.find? fun e => e.1 == p.1 / 128 with
        | some _ => acc.map fun e => if e.1 = p.1 / 128 then (e.1, e.2 ++ [(p.1 % 128, p.2)]) else e
        | none => acc ++ [(p.1 / 128, [(p.1 % 128, p.2)])]) []).map
      (fun p => ⟨.read p.2, some (p.1 * 128), none, false, 0, 0, none, none⟩) ++ s.copyWrites o.gid b []
  | .gather _ ty as => (bySector (elemBytesAt (elemBytes ty) as)).map fun p => ⟨.read p.2, some (p.1 * 32), none, false, 0, 0, none, none⟩
  | .scatter ty h es => scatterPlans (elemBytes ty) h es
  | .atom d ty opc h es =>
    es.map fun x => ⟨.rmw x.1 ty opc x.2.2.1 x.2.2.2 d.isSome, some x.2.1.toNat, none, true, if h = 0 then 2 else 4, h, none, none⟩
  | .prog _ r es => es.map fun x => ⟨.prog x.1 r x.2.2.1 x.2.2.2, some x.2.1.toNat, none, true, 2, 0, none, none⟩
  | .flush _ => [⟨.read [], none, some (.host (s.func o.fn).hwbase.toNat), false, 0, 0, none, none⟩]
  | .signal a v op irq => [⟨.signal v.toNat op irq, some a.toNat, none, true, 2, 0, none, none⟩]
  | _ => []

/-- The first stage of a resolved request: a copy's write waits for its bytes. -/
def firstStage (k : ReqKind) : Stage :=
  match k with
  | .write _ | .combine .. => .waiting
  | _ => .created

/-- R61: the CLASS of a fault record. -/
def faultClass : EngClass → Nat
  | .copy => 0
  | .gather => 1
  | _ => 2

/-- A request in the table. -/
def State.addReq (s : State) (r : Req) : State := { s with reqs := KMap.put s.reqs s.nextReq r, nextReq := s.nextReq + 1 }

/-! ### Admission of sheaf writes (R157, R161) -/

/-- R157: extent `i` of a manifest line: device, block, first line, lines minus one. -/
def extentOf (m : List Byte) (i : Nat) : Nat × Nat × Nat × Nat :=
  let e := leVal ((m.drop (16 + 7 * i)).take 7)
  (bitsOf e 55 44, bitsOf e 43 17, bitsOf e 16 11, bitsOf e 10 5)

def putBytes (m : List Byte) (at_ : Nat) (bs : List Byte) : List Byte :=
  m.take at_ ++ bs ++ m.drop (at_ + bs.length)

def putExtent (m : List Byte) (i : Nat) (x : Nat × Nat × Nat × Nat) : List Byte :=
  putBytes m (16 + 7 * i) (leBytes (x.1 * 2 ^ 44 + x.2.1 * 2 ^ 17 + x.2.2.1 * 2 ^ 11 + x.2.2.2 * 2 ^ 5) 7)

/-- R157: NEXT. -/
def manNext (m : List Byte) : Nat := (m.getD 8 0).toNat

/-- R161: the manifest with the line of a domain address among its runs; none when it cannot be admitted. -/
def admitLine (m : List Byte) (dpa : Nat) : Option (List Byte) :=
  let dev := devOf dpa
  let blk := bareOf dpa / 8192
  let ln := bareOf dpa / 128 % 64
  let same (x : Nat × Nat × Nat × Nat) : Bool := x.1 == dev && x.2.1 == blk
  let is := List.range (min 16 (manNext m))
  if is.any fun i => let x := extentOf m i
      same x && decide (x.2.2.1 ≤ ln) && decide (ln ≤ x.2.2.1 + x.2.2.2) then some m
  else
    match is.find? fun i => let x := extentOf m i
        same x && decide (x.2.2.2 < 63) && (ln == x.2.2.1 + x.2.2.2 + 1 || ln + 1 == x.2.2.1) with
    | some i =>
      let x := extentOf m i
      some (putExtent m i (x.1, x.2.1, min ln x.2.2.1, x.2.2.2 + 1))
    | none =>
      if manNext m < 16 then some (putBytes (putExtent m (manNext m) (dev, blk, ln, 0)) 8 [byte (manNext m + 1)]) else none

/-- R159: an entry's number in `sheaves`: its IDX in this device's own table; that of another device's entry, whose writes and messages come
in (R305), is beyond those of the devices before it (log 103). -/
def State.sheafKey (s : State) (dev idx : Nat) : Nat := if dev = s.devnum then idx else 4096 * (dev + 1) + idx
/-- R156: PDEV and PIDX of an entry. -/
def State.sheafDev (s : State) (x : Nat) : Nat := if x < 4096 then s.devnum else x / 4096 - 1
def sheafIdx (x : Nat) : Nat := x % 4096

/-- R159: the entry that a handle names, open or closing. -/
def State.sheafOf (s : State) (h : DWord) : Option (Nat × SheafEntry) :=
  let x := s.sheafKey (bitsOf h.toNat 55 44) (bitsOf h.toNat 43 32)
  match KMap.get s.sheaves x with
  | some e => if (e.open_ ∨ e.closing) ∧ e.serial = bitsOf h.toNat 31 0 then some (x, e) else none
  | none => none

/-- R162: the sheaf that a handle names becomes broken. -/
def State.breakSheaf (s : State) (h : DWord) : State :=
  match s.sheafOf h with
  | some (i, _) => { s with sheaves := KMap.adjust s.sheaves i fun e => { e with broken := true } }
  | none => s

/-- R64: an operation completes as failed, with the fault that its wait will take. -/
def State.failOp (s : State) (o cause detail info : Nat) : State :=
  s.modOp o fun x => { x with failed := x.failed.orElse fun _ => some (cause, detail, info) }

/-- R161: a resolved request of a sheaf write, admitted by the table or refused. -/
def State.addSheafReq (s : State) (r : Req) : State :=
  match r.loc, s.sheafOf r.handle with
  | some (.dpa a), some (i, e) =>
    (match admitLine e.manifest a with
    | some m =>
      { s with sheaves := KMap.adjust s.sheaves i fun e => { e with manifest := m } }.addReq r
    | none => ((s.addReq { r with stage := .refused }).breakSheaf r.handle).failOp r.op 9 5 0)
  | _, _ => ((s.addReq { r with stage := .refused }).breakSheaf r.handle).failOp r.op 5 0 0

/-- R58, R161: a request whose page has translated. -/
def State.addResolved (s : State) (r : Req) : State := if r.handle = 0 then s.addReq r else s.addSheafReq r

/-- R54: the TLB unit through which an operation translates. -/
def State.opUnit (s : State) (o : EngOp) : Nat := match s.group o.gid with | some g => g.core | none => 192

/-- R58: the die whose fault buffer an operation uses; a queue's COPY, which has no group, uses die 0's (log 106). -/
def State.opDie (s : State) (o : EngOp) : Nat := match s.group o.gid with | some g => g.core / 48 | none => 0

/-- R53: a request with the locations that its addresses translate to, or the first address whose translation faults, with KIND and
LVL. -/
def State.resolve (s : State) (o : EngOp) (acc : Nat) (r : Req) : Except (Nat × Nat × Nat) Req :=
  let u := s.opUnit o
  match r.va with
  | none => .ok r
  | some va =>
    match s.translateAt u o.fn va acc with
    | .fault k l => .error (va, k, l)
    | .ok d =>
      let r1 := { r with loc := some (s.locOf o.fn d), bits := s.pageBits u o.fn va }
      match r.far with
      | none => .ok r1
      | some w => match s.translateAt u o.fn w acc with
        | .fault k l => .error (w, k, l)
        | .ok d => .ok { r1 with farLoc := some (s.locOf o.fn d), bits := max r1.bits (s.pageBits u o.fn w) }

/-- R58, R376: every address of a request whose translation faults, with KIND and LVL: both sectors of an element may. -/
def State.failures (s : State) (o : EngOp) (acc : Nat) (r : Req) : List (Nat × Nat × Nat) :=
  (r.va.toList ++ r.far.toList).filterMap fun va => match s.translateAt (s.opUnit o) o.fn va acc with
    | .fault k l => some (va, k, l)
    | .ok _ => none

/-- R54: what the request's translations leave in the TLBs. -/
def State.cacheReq (s : State) (o : EngOp) (r : Req) : State :=
  let s1 := match r.va with | some va => s.cacheLookup (s.opUnit o) o.fn va | none => s
  match r.far with | some w => s1.cacheLookup (s.opUnit o) o.fn w | none => s1

/-- The request of a plan. -/
def State.planReq (s : State) (opId : Nat) (o : EngOp) (tag : Option (Nat × Nat)) (p : Plan) : Req :=
  let f := s.func o.fn
  { op := opId, kind := p.kind, va := p.va, loc := p.loc, len := match o.kind with | .shread .. => 128 | _ => 32, dst := p.dst, handle := p.handle, stage := firstStage p.kind,
    deferred := false, tag := tag, owner := f.owner, gen := f.gen, bits := 12, far := p.far, farLoc := p.farLoc }

/-- R49, R58: the faulting page of an operation that holds an address, by the number of its first 4 KiB: as large as the leaf that refuses
the access, or 4 KiB where the walk has met none. -/
def State.faultPage (s : State) (o : EngOp) (va : Nat) : Nat :=
  let n := 2 ^ s.pageBits (s.opUnit o) o.fn va
  va / n * n / 4096

/-- R58, R376: the fault buffer entry of an operation for a page and a side of it. -/
def State.entryFor (s : State) (opId page : Nat) (dst : Bool) : Option Nat :=
  KMap.findKey s.faults fun _ e => e.op == some opId && e.page == page && e.dst == dst

/-- R58: the entries of a die's fault buffer. -/
def State.dieFaults (s : State) (die : Nat) : Nat := (s.faults.filter fun e => e.2.die == die).length

/-- R58, R61: a page of an operation faults at `x` (address, KIND, LVL): its entry, which shows the lowest of the addresses held in it until
its record is written (R376), or a new one. -/
def State.faultAt (s : State) (opId : Nat) (o : EngOp) (dst : Bool) (acc : Nat) (x : Nat × Nat × Nat) : State :=
  let low := x.1 / 32 * 32
  match s.entryFor opId (s.faultPage o x.1) dst with
  | some e => { s with faults := KMap.adjust s.faults e fun y => if y.seq.isSome then y else { y with vaddr := min y.vaddr low } }
  | none =>
    let e : FaultEntry :=
      { fn := o.fn, die := s.opDie o, op := some opId, gid := o.gid, gang := 0, page := s.faultPage o x.1, vaddr := low, dst := dst,
        acc := acc, kind := x.2.1, lvl := x.2.2, seq := none, caln := s.caln, optag := o.optag, cls := faultClass o.cls, again := false }
    { s with faults := KMap.put s.faults s.nextFault e, nextFault := s.nextFault + 1 }

/-- R58, R376: the pages of a request that fault have their entries, in all of which the request is held, with those of `es`. A new entry
fault-parks a context that waits (R59). -/
def State.holdIn (s : State) (q : Nat) (opId : Nat) (o : EngOp) (dst : Bool) (acc : Nat) (bad : List (Nat × Nat × Nat)) (es : List Nat) : State :=
  let s1 := bad.foldl (fun s x => s.faultAt opId o dst acc x) s
  let s2 := s1.modReq q fun r =>
    { r with stage := .held (nubBy (es ++ bad.filterMap fun x => s1.entryFor opId (s1.faultPage o x.1) dst)) }
  if s1.nextFault = s.nextFault then s2 else s2.parkWaiting o.gid

/-- R58: the die's fault buffer has room for the entries that the failures `bad` of one request need. -/
def State.faultRoom (s : State) (opId : Nat) (o : EngOp) (dst : Bool) (bad : List (Nat × Nat × Nat)) : Bool :=
  let new := (nubBy (bad.map fun x => s.faultPage o x.1)).filter fun page => (s.entryFor opId page dst).isNone
  new.isEmpty || decide (s.dieFaults (s.opDie o) + new.length ≤ Config.faultEntries)

/-- R58: one planned request: resolved, or held in the entries of its pages; none when the die's fault buffer has no entry for one of them. -/
def State.addPlan (s : State) (opId : Nat) (o : EngOp) (tag : Option (Nat × Nat)) (p : Plan) : Option State :=
  match s.resolve o p.acc (s.planReq opId o tag p) with
  | .ok r => some (if p.va.isNone then s.addReq r else (s.cacheReq o r).addResolved r)
  | .error _ =>
    let bad := s.failures o p.acc (s.planReq opId o tag p)
    if s.faultRoom opId o p.dst bad then some ((s.addReq (s.planReq opId o tag p)).holdIn s.nextReq opId o p.dst p.acc bad []) else none

/-- R58: the plans become requests, as far as the fault buffer lets them. -/
def State.addPlans (s : State) (opId : Nat) (o : EngOp) (tag : Option (Nat × Nat)) : List Plan → State
  | [] => s.modOp opId fun o => { o with started := true }
  | p :: ps => match s.addPlan opId o tag p with
    | some s1 => (s1.modOp opId fun o => { o with made := o.made + 1 }).addPlans opId o tag ps
    | none => s

/-- The launch of an operation's context. -/
def State.opGroup (s : State) (o : EngOp) : Option Group := s.group o.gid

/-- R142, R317: the tag (ductus, prediction) of an operation of a predicted launch. -/
def State.opTag (s : State) (o : EngOp) : Option (Nat × Nat) :=
  match s.opGroup o with
  | some g => (match s.launchOf g with
    | some l => (match l.pred with | some p => if p.promoted then none else some (p.duc, p.k) | none => none)
    | none => none)
  | none => none

/-- R318: the watch-set entries that an operation's requests touch. -/
def State.planKeys (s : State) (o : EngOp) (ps : List Plan) : List Nat :=
  let key (p : Plan) (l : Loc) : Option Nat := match l with
    | .place (.scratch d) _ => if p.dst then none else some (2 ^ 40 + d)
    | l => l.watchKey s.devnum
  nubBy (ps.flatMap fun p => match s.resolve o p.acc (s.planReq 0 o none p) with
    | .ok r => (r.loc.toList ++ r.farLoc.toList).filterMap (key p)
    | .error _ => [])

/-- R66, R167, R319: the irrevocable point, numbered as in the table of R319, at which a predicted launch's operation stalls:
a page would fault, a request would reach the host, a peer or a scratch window's write, an atomic would meet a line with no
version of its ductus, or the watch set is full. It is tested at START alone (log 129). -/
def State.specBlocked (s : State) (o : EngOp) (tag : Option (Nat × Nat)) (ps : List Plan) : Option Nat :=
  match tag with
  | none => none
  | some (d, k) =>
    let at_ (p : Plan) (l : Loc) : Option Nat := match l with
      | .host _ => some (if p.dst then 1 else 2)
      | .place (.scratch _) _ => if p.dst then some 3 else none
      | .place .. => none
      | .dpa x =>
        if devOf x ≠ s.devnum then some (if p.dst then 1 else 2)
        else if p.kind.atomic ∧ p.va.isSome ∧ !s.hasVersion d k (x / 128) then some 4 else none
    let point (p : Plan) : Option Nat := match s.resolve o p.acc (s.planReq 0 o none p) with
      | .error _ => some 8
      | .ok r => (r.loc.toList ++ r.farLoc.toList).findSome? (at_ p)
    match ps.findSome? point with
    | some x => some x
    | none => if s.watchRoom d (s.planKeys o ps) then none else some 11

end Sys2Proof.Machine
end

