-- ==== Sys2Proof/Machine/Rv64.lean ====
section
/-!
DEFINITION. The RV64IM routines of programmable atomics (R152 to R154): which words pass the check of R153, and how a routine
runs on one line. The encodings of RV64IM are those of the RISC-V base specification, which the manual names (log 19).
-/

namespace Sys2Proof.Machine

def rvOp (w : Word) : Nat := bitsOf w.toNat 6 0
def rvRd (w : Word) : Nat := bitsOf w.toNat 11 7
def rvF3 (w : Word) : Nat := bitsOf w.toNat 14 12
def rvRs1 (w : Word) : Nat := bitsOf w.toNat 19 15
def rvRs2 (w : Word) : Nat := bitsOf w.toNat 24 20
def rvF7 (w : Word) : Nat := bitsOf w.toNat 31 25

def rvImmI (w : Word) : Int := (w.extractLsb' 20 12).toInt
def rvImmS (w : Word) : Int := (w.extractLsb' 25 7 ++ w.extractLsb' 7 5).toInt
def rvImmB (w : Word) : Int :=
  (w.extractLsb' 31 1 ++ w.extractLsb' 7 1 ++ w.extractLsb' 25 6 ++ w.extractLsb' 8 4 ++ (0#1)).toInt
def rvImmU (w : Word) : Int := (w.extractLsb' 12 20 ++ (0#12)).toInt
def rvImmJ (w : Word) : Int :=
  (w.extractLsb' 31 1 ++ w.extractLsb' 12 8 ++ w.extractLsb' 20 1 ++ w.extractLsb' 21 10 ++ (0#1)).toInt

/-- JALR x0, 0(x1), which ends a routine. -/
def rvEnd : Word := 0x00008067#32

/-- R153: a target lies further on within a routine of `len` words, or just past its last word. -/
def rvForward (i len : Nat) (off : Int) : Bool :=
  decide (0 < off) && decide (off % 4 = 0) && decide ((i : Int) + off / 4 ≤ len)

/-- R153: word `i` of a routine of `len` words is one that a routine may hold. -/
def rvWordOk (i len : Nat) (w : Word) : Bool :=
  let f3 := rvF3 w
  let f7 := rvF7 w
  match rvOp w with
  | 0x37 | 0x17 => true
  | 0x6F => rvRd w == 0 && rvForward i len (rvImmJ w)
  | 0x67 => w == rvEnd
  | 0x63 => (f3 != 2 && f3 != 3) && rvForward i len (rvImmB w)
  | 0x03 => f3 != 7
  | 0x23 => decide (f3 ≤ 3)
  | 0x13 => if f3 = 1 then bitsOf w.toNat 31 26 == 0 else if f3 = 5 then bitsOf w.toNat 31 26 == 0 || bitsOf w.toNat 31 26 == 16 else true
  | 0x1B => if f3 = 0 then true else if f3 = 1 then f7 == 0 else if f3 = 5 then f7 == 0 || f7 == 32 else false
  | 0x33 => f7 == 0 || f7 == 1 || (f7 == 32 && (f3 == 0 || f3 == 5))
  | 0x3B =>
    (f7 == 0 && (f3 == 0 || f3 == 1 || f3 == 5)) || (f7 == 32 && (f3 == 0 || f3 == 5)) ||
      (f7 == 1 && (f3 == 0 || decide (4 ≤ f3)))
  | _ => false

/-- R153: the routine passes. -/
def rvCodeOk (code : List Word) : Bool :=
  (List.range code.length).all fun i => rvWordOk i code.length (code.getD i 0)

/-- The state of a routine: registers x1 to x31, the line, and the index of the next word. -/
structure RvSt where
  x : KMap DWord
  line : List Byte
  i : Nat

def RvSt.get (r : RvSt) (n : Nat) : DWord := if n = 0 then 0 else KMap.getD r.x n 0
def RvSt.set (r : RvSt) (n : Nat) (v : DWord) : RvSt := { r with x := KMap.put r.x n v, i := r.i + 1 }

/-- The integer operations of OP and OP-IMM; `w` is 64, or 32 for the word forms. -/
def rvAlu (f3 : Nat) (alt : Bool) (w : Nat) (a b : BitVec w) : BitVec w :=
  match f3 with
  | 0 => if alt then a - b else a + b
  | 1 => a <<< (b.toNat % w)
  | 2 => if a.toInt < b.toInt then 1 else 0
  | 3 => if a.toNat < b.toNat then 1 else 0
  | 4 => a ^^^ b
  | 5 => if alt then a.sshiftRight (b.toNat % w) else a >>> (b.toNat % w)
  | 6 => a ||| b
  | _ => a &&& b

/-- The M extension: division by zero gives all ones or the dividend, and overflow the dividend or 0. -/
def rvMul (f3 : Nat) (w : Nat) (a b : BitVec w) : BitVec w :=
  match f3 with
  | 0 => a * b
  | 1 => BitVec.ofInt w (a.toInt * b.toInt / 2 ^ w)
  | 2 => BitVec.ofInt w (a.toInt * b.toNat / 2 ^ w)
  | 3 => BitVec.ofNat w (a.toNat * b.toNat / 2 ^ w)
  | 4 => if b = 0 then BitVec.allOnes w else BitVec.ofInt w (a.toInt.tdiv b.toInt)
  | 5 => if b = 0 then BitVec.allOnes w else a / b
  | 6 => if b = 0 then a else BitVec.ofInt w (a.toInt.tmod b.toInt)
  | _ => if b = 0 then a else a % b

def rvTaken (f3 : Nat) (a b : DWord) : Bool :=
  match f3 with
  | 0 => a == b
  | 1 => a != b
  | 4 => decide (a.toInt < b.toInt)
  | 5 => decide (b.toInt ≤ a.toInt)
  | 6 => decide (a.toNat < b.toNat)
  | _ => decide (b.toNat ≤ a.toNat)

/-- R154: the fault of an access of `n` bytes at a data address. -/
def rvAddrFault (a : DWord) (n : Nat) : Option Nat :=
  if 128 < a.toNat + n then some 2 else if a.toNat % n ≠ 0 then some 3 else none

/-- One word of a routine: its next state, or the detail of its fault. -/
def rvStep (w : Word) (r : RvSt) : Except Nat RvSt :=
  let f3 := rvF3 w
  let alt := rvF7 w == 32
  let a := r.get (rvRs1 w)
  let b := r.get (rvRs2 w)
  let pc := Config.routineBase + dword (4 * r.i)
  match rvOp w with
  | 0x37 => .ok (r.set (rvRd w) (BitVec.ofInt 64 (rvImmU w)))
  | 0x17 => .ok (r.set (rvRd w) (pc + BitVec.ofInt 64 (rvImmU w)))
  | 0x6F => .ok { r with i := r.i + (rvImmJ w / 4).toNat }
  | 0x63 => .ok { r with i := if rvTaken f3 a b then r.i + (rvImmB w / 4).toNat else r.i + 1 }
  | 0x03 =>
    let ad := a + BitVec.ofInt 64 (rvImmI w)
    let n := 2 ^ (f3 % 4)
    match rvAddrFault ad n with
    | some d => .error d
    | none =>
      let v := leVal ((r.line.drop ad.toNat).take n)
      .ok (r.set (rvRd w) (if f3 < 4 then (BitVec.ofNat (8 * n) v).signExtend 64 else dword v))
  | 0x23 =>
    let ad := a + BitVec.ofInt 64 (rvImmS w)
    let n := 2 ^ f3
    match rvAddrFault ad n with
    | some d => .error d
    | none =>
      let bs := leBytes b.toNat n
      .ok { r with line := r.line.take ad.toNat ++ bs ++ r.line.drop (ad.toNat + n), i := r.i + 1 }
  | 0x13 => .ok (r.set (rvRd w) (rvAlu f3 (f3 == 5 && bitsOf w.toNat 31 26 == 16) 64 a (BitVec.ofInt 64 (rvImmI w))))
  | 0x1B =>
    .ok (r.set (rvRd w) ((rvAlu f3 (f3 == 5 && alt) 32 (a.setWidth 32) (BitVec.ofInt 32 (rvImmI w))).signExtend 64))
  | 0x33 => .ok (r.set (rvRd w) (if rvF7 w = 1 then rvMul f3 64 a b else rvAlu f3 alt 64 a b))
  | 0x3B =>
    let x := a.setWidth 32
    let y := b.setWidth 32
    .ok (r.set (rvRd w) ((if rvF7 w = 1 then rvMul f3 32 x y else rvAlu f3 alt 32 x y).signExtend 64))
  | _ => .ok { r with i := r.i + 1 }

/-- R154: the routine from its present word on: the line and x10, or the detail of the fault. -/
def rvRun (code : List Word) : Nat → RvSt → Except Nat (List Byte × DWord)
  | 0, r => .ok (r.line, r.get 10)
  | fuel + 1, r =>
    match code[r.i]? with
    | none => .ok (r.line, r.get 10)
    | some w =>
      if w = rvEnd then .ok (r.line, r.get 10)
      else match rvStep w r with
        | .error d => .error d
        | .ok r' => rvRun code fuel r'

/-- R154: a routine on a line: x10 and x11 hold the arguments, x12 the address in the line, x1 the end address. -/
def runRoutine (code : List Word) (line : List Byte) (a0 a1 at_ : Nat) : Except Nat (List Byte × DWord) :=
  rvRun code 17
    { x := [(1, Config.routineBase + dword (4 * code.length)), (10, dword a0), (11, dword a1), (12, dword at_)]
      line := line, i := 0 }

/-- R152, R154: routine `n` of an owner. -/
def State.routine (s : State) (o n : Nat) : Option Routine :=
  (s.routines.find? fun e => e.1 == o && e.2.1 == n).map fun e => e.2.2

end Sys2Proof.Machine
end

