-- ==== Sys2Proof/Machine/Fabric.lean ====
section
/-!
DEFINITION. The engine steps of R125 and their kin: START, SEND, ARRIVE, SERVE, LAND, RETIRE, the refusals of R64, sheaf
writes (R139, R161), and the steps of predicted launches (R142, R168).
-/

namespace Sys2Proof.Machine

/-! ### Requests and their bytes -/

/-- The prediction whose versions a request reads and writes. -/
def Req.spec (r : Req) : Loc → Option (Nat × Nat)
  | .dpa _ => r.tag
  | _ => none

/-- R84, R188: team memory that was free again before the operation that names it was over; its contents are lost (log 107). -/
def State.freedAt (s : State) : Loc → Option Nat
  | .place (.team tm c) off => if (KMap.get s.teams tm).any fun t => t.cores.contains c then none else some (c * 0x100000 + off)
  | _ => none

/-- R142: `n` bytes from a location, as a request reads them. -/
def State.reqRead (s : State) (r : Req) (l : Loc) (n : Nat) : List Byte :=
  (List.range n).map fun i => match s.freedAt (l.plus i) with
    | some a => Config.freedByte a
    | none => s.predGet r.tag r.owner (l.plus i)

/-- R137, R142, R320: bytes at distances from a location, as a request of function `fn` writes them. -/
def State.reqWrite (s : State) (fn : Nat) (r : Req) (l : Loc) (bs : List (Nat × Byte)) : State :=
  match r.tag, l with
  | some (d, k), .dpa a => bs.foldl (fun s b => s.specPut fn d k ((a + b.1) / 128) [((a + b.1) % 128, b.2)]) s
  | tag, _ => (s.poke r.owner l bs).touch (tag.map Prod.fst) l

/-- R98, R284: the bytes that a request carries count on the bound barrier. -/
def State.countBytes (s : State) (o : EngOp) (n : Nat) : State :=
  match o.bar with
  | some k => s.barBytes k (-(n : Int))
  | none => s

def State.setStage (s : State) (q : Nat) (st : Stage) : State := s.modReq q fun r => { r with stage := st, deferred := false }

/-- The bytes of its operation that a request needs. -/
def ReqKind.needs : ReqKind → List Nat
  | .write ps => ps.map Prod.snd
  | .combine _ ty ks => ks.flatMap fun k => (List.range (elemBytes ty)).map fun j => k.2 + j
  | _ => []

/-- The byte indices that a read delivers. -/
def ReqKind.gives : ReqKind → List Nat
  | .read ps => ps.map Prod.snd
  | _ => []

/-- The request writes. -/
def ReqKind.writes : ReqKind → Bool
  | .read _ => false
  | _ => true

/-- R64, R99: the destination sector lacks a byte that a refused read of its operation would have brought. -/
def State.lacks (s : State) (r : Req) : Bool :=
  s.reqs.any fun e => e.2.op == r.op && e.2.stage == .refused && e.2.kind.gives.any (r.kind.needs.contains ·)

/-- R64: the destination sectors of an operation that are never written. -/
def State.dropLacking (s : State) (op : Nat) : State :=
  { s with reqs := s.reqs.map fun e =>
      (e.1, if e.2.op = op ∧ e.2.stage = .waiting ∧ s.lacks e.2 then { e.2 with stage := .refused } else e.2) }

/-- R64: a request is refused: its operation completes as failed. A destination sector that lacks a refused source byte is
never written. -/
def State.refuse (s : State) (q cause detail info : Nat) : State :=
  match KMap.get s.reqs q with
  | none => s
  | some r =>
    let s1 := (s.setStage q .refused).failOp r.op cause detail info
    match r.kind with
    | .read _ => s1.dropLacking r.op
    | _ => if r.handle = 0 then s1 else s1.breakSheaf r.handle

/-! ### START (R125, R58) -/

/-- R363: the operation's context is away; what a stopped one still has in flight completes (R365). -/
def State.opAway (s : State) (o : EngOp) : Bool := match s.group o.gid with | some g => g.presence == .away && !g.stopped | none => false

/-- R69: the operation's context is out, and the operation writes local storage or registers of it. -/
def State.opNeedsContext (s : State) (o : EngOp) : Bool :=
  s.opAway o &&
    match o.kind with
    | .copy b | .copyr b | .shread _ b => b.dloc
    | .scatter .. | .signal .. | .seal _ | .abort _ => false
    | .atom d .. => d.isSome
    | _ => true

/-- R322: while a launch is being cut over, its engines start no new request. -/
def State.opCutting (s : State) (o : EngOp) : Bool :=
  match s.opGroup o with
  | some g => (match s.launchOf g with
    | some l => (match l.pred with | some p => p.cutting | none => false)
    | none => false)
  | none => false

/-- R127: what is still to perform of an operation, as far as its requests tell. -/
def State.opUnposted (s : State) (opId : Nat) : Bool :=
  match KMap.get s.ops opId with
  | some o => !o.started || s.reqs.any fun e => e.2.op == opId && e.2.stage != .done && e.2.stage != .refused
  | none => false

/-- R61, R376: ACC of a request; a reducing copy's is a copy's. -/
def Req.acc (r : Req) : Nat :=
  if r.handle ≠ 0 then 4 else match r.kind with
    | .read _ => 0
    | .write _ | .store _ | .combine .. => 1
    | _ => 2

/-- R58: a request that found no room in the fault buffer when its walk failed on another page: it is held in no entry, and its operation
pauses. -/
def Req.pausedIn (r : Req) (opId : Nat) : Bool := r.op == opId && r.stage == .held []

/-- R63, R376: a request of `o`, still held in the entries `es`, is walked again: it proceeds, stays in `es`, or is held in the entries of the
pages that fail now, for which the fault buffer may have no room: then it waits for its operation's next START (R58; log 148, DEDUCED). -/
def State.walkAgain (s : State) (q : Nat) (o : EngOp) (r : Req) (es : List Nat) : State :=
  match s.resolve o r.acc r with
  | .ok r1 =>
    if es = [] then
      ((({ s with reqs := KMap.del s.reqs q } : State).cacheReq o r).addResolved { r1 with stage := firstStage r.kind }).dropLacking r.op
    else s.modReq q fun r => { r with stage := .held es }
  | .error _ =>
    let bad := s.failures o r.acc r
    if s.faultRoom r.op o r.dst bad then s.holdIn q r.op o r.dst r.acc bad es else s.modReq q fun r => { r with stage := .held es }

/-- START is enabled: the operation, with the plans that no START has turned into requests yet, none of one that goes on only with
requests that paused (R58). A flushing read is posted behind the writes that it flushes (R129). -/
def State.canStart (s : State) (opId : Nat) : Option (EngOp × List Plan) :=
  match KMap.get s.ops opId with
  | none => none
  | some o =>
    let early : Bool := match o.kind with | .flush ws => ws.any s.opUnposted | _ => false
    if (o.started ∧ !s.reqs.any fun e => e.2.pausedIn opId) ∨ s.closed ∨ s.opNeedsContext o ∨ s.opCutting o ∨ early then none
    else some (o, (s.plans o).drop o.made)

/-- R319: the gang that issued the operation stalls at the point that the operation has met. -/
def State.stallIssuer (s : State) (o : EngOp) (p : Nat) : State :=
  let stop (k : Gang) : Gang := if k.nibs.contains o.nib ∧ (k.hold = .none ∨ k.hold = .retry) then { k with hold := .stall p } else k
  s.modGroup o.gid fun g => { g with gangs := g.gangs.map stop }

def State.startStep (s : State) (opId : Nat) : State :=
  match s.canStart opId with
  | none => s
  | some (o, ps) =>
    let tag := s.opTag o
    match s.specBlocked o tag ps with
    | some p => s.stallIssuer o p
    | none =>
      let s := (s.reqs.filter fun e => e.2.pausedIn opId).foldl (fun s e => s.walkAgain e.1 o e.2 []) s
      let s1 := match tag with | some (d, _) => s.watchAdd d (s.planKeys o ps) | none => s
      let sh : Option ShProg := match o.kind with | .shread .. => some (o.sh.getD ⟨[], [], [], [], false, []⟩) | _ => none
      ((s1.modOp opId fun o => { o with sh := sh }).addPlans opId o tag ps).dropLacking opId

/-! ### SEND and ARRIVE (R125, R126, R387, R388) -/

/-- R387: the port of a request to a peer; another port stands in for one that is down (R388). -/
def State.portOf (s : State) (dpa : Nat) : Option Nat :=
  let p := (localOf dpa / 128 + devOf dpa) % 36
  ((List.range 36).map fun k => (p + k) % 36).find? fun p => (s.port p).up

/-- R117: this end retrains the link of a port: from the pause flit (R388) to the end of its calibration slot, if its device number is the
lower one. -/
def State.retrains (s : State) (p : Nat) : Bool := (s.slots.any fun x => x.kind == .calibration) && Config.lowerEnd s.devnum p

/-- R388: the port to the home of an address is paused by the package at its other end, which holds that home and stands in its calibration
slot or before it. -/
def State.peerPauses (s : State) (dpa : Nat) : Bool := devOf dpa != s.devnum && (s.portOf dpa).any fun p => (s.port p).paused.isSome

/-- R117, R388: nothing crosses the link to the home of an address now, in either direction: its port is paused, or this end retrains it. A
response takes the port of its request (log 123). -/
def State.linkOut (s : State) (dpa : Nat) : Bool :=
  devOf dpa != s.devnum && (s.portOf dpa).any fun p => (s.port p).paused.isSome || s.retrains p

/-- R110, R117, R388: a new message to the home of an address cannot leave now: the link transmitters are closed, or the link is out. With no
port up it is refused (R64). -/
def State.linkShut (s : State) (dpa : Nat) : Bool := devOf dpa != s.devnum && s.closed || s.linkOut dpa

/-- R111, R117, R135: a clause fetch from a location, or the front end's access to it, waits: for a slot's end, or for a link that is shut. -/
def State.locShut (s : State) : Loc → Bool
  | .dpa a => s.hbmShut a || s.linkShut a
  | _ => false

/-- The same for `n` bytes from a virtual address, if it has a location. -/
def State.virtShut (s : State) (fn va acc n : Nat) : Bool :=
  match s.translate fn va acc with
  | .ok a => ((s.locOf fn a).span n).any s.locShut
  | .fault .. => false

/-- The port that a request's flits leave by; none for a request that stays on the package. -/
def State.reqPort (s : State) (r : Req) : Option (Option Nat) :=
  match r.loc with
  | some (.dpa a) => if devOf a = s.devnum then none else some (s.portOf a)
  | _ => none

/-- The ports that a request's flits leave by: those of its two sectors. -/
def State.reqPorts (s : State) (r : Req) : List Nat :=
  nubBy ((r.loc.toList ++ r.farLoc.toList).filterMap fun l => match l with
    | .dpa a => if devOf a = s.devnum then none else s.portOf a
    | _ => none)

/-- R376: a request that is held on both sides: a copy's read all of whose destination requests are held for their translations. -/
def State.heldBothSides (s : State) (r : Req) : Bool :=
  let users := s.reqs.filter fun e => e.2.op == r.op && e.2.kind.needs.any (r.kind.gives.contains ·)
  !users.isEmpty && users.all fun e => match e.2.stage with | .held _ => true | _ => false

/-- R110: a request that is part of one already in flight: the write of a copy's bytes into local storage once they are there. -/
def Req.completes (r : Req) : Bool :=
  r.va.isNone && r.stage == .waiting && match r.loc with | some (.place ..) => true | _ => false

/-- SEND is enabled: a waiting write has its bytes, a read is not held with its destination, the engine accepts, and a transmitter takes the
flit, or none is up to take it. Between CLOSE and the slot what is in flight goes on (R110); in the slot it is set aside (R112). -/
def State.canSend (s : State) (q : Nat) : Option Req :=
  match KMap.get s.reqs q with
  | none => none
  | some r =>
    match KMap.get s.ops r.op with
    | none => none
    | some o =>
      let ready : Bool := match r.stage with
        | .created => !s.heldBothSides r
        | .waiting => r.kind.writes && r.kind.needs.all (o.have_.contains ·)
        | _ => false
      let room := (s.reqPorts r).all fun p => (s.port p).paused.isNone || decide ((s.port p).heldFlits < 512)
      if ready ∧ room ∧ (!s.closed ∨ r.completes ∧ !s.inSlotNow) ∧ !r.deferred ∧ !s.opCutting o ∧ !s.opNeedsContext o then some r else none

/-- R388: a port holds the flit of a request that leaves by it while it is paused. -/
def State.holdFlit (s : State) (p : Nat) : State :=
  if (s.port p).paused.isSome then s.modPort p fun x => { x with heldFlits := x.heldFlits + 1 } else s

def State.sendStep (s : State) (q : Nat) : State :=
  match s.canSend q with
  | none => s
  | some r => (s.reqPorts r).foldl State.holdFlit (s.setStage q .fabric)

/-- R384: the expander returns a line of this device's second tier as poisoned; a line that its home holds is not read there. -/
def State.poisoned (s : State) (a : Nat) : Bool :=
  devOf a == s.devnum && isSecondTier (localOf a) && !s.cached.contains (a / 128) && Config.tierPoison (a / 128) s.turn

/-- R46, R47, R64: what is refused of a request to a peer: a peer that no port reaches, an address outside its HBM and its second tier, and
what it cannot serve (log 24). -/
def State.peerRefuses (s : State) (dpa : Nat) : Bool :=
  (devOf dpa != s.devnum && (s.portOf dpa).isNone) || !(decide (localOf dpa < Config.hbmBytes) || isSecondTier (localOf dpa)) ||
    Config.peerRefuses dpa s.turn

/-- R64: a request at a location is refused: at a peer, or at a scratch that is not the function's (R47). -/
def State.locRefused (s : State) (fn : Nat) : Loc → Bool
  | .dpa a => devOf a != s.devnum && s.peerRefuses a
  | .place (.scratch d) _ => !(s.islands.contains d && s.islandPart d == s.fnPart fn)
  | _ => false

/-- R64, R384: a read at a location is refused. -/
def State.readRefused (s : State) (fn : Nat) (l : Loc) : Bool :=
  s.locRefused fn l || match l with | .dpa a => s.poisoned a | _ => false

/-- Bytes from a virtual address, as a prediction if one reads them, each page translated for itself; the first failing page's fault
otherwise, with KIND 0 for one whose read is refused (R64). -/
def State.readVirt (s : State) (pr : Option (Nat × Nat)) (fn va acc : Nat) : Nat → Except (Nat × Nat × Nat) (List Byte)
  | 0 => .ok []
  | n + 1 =>
    match s.translate fn va acc with
    | .fault k l => .error (k, l, va)
    | .ok d =>
      if s.readRefused fn (s.locOf fn d) then .error (0, 0, va) else
      match s.readVirt pr fn ((va + 1) % 2 ^ 64) acc n with
      | .error e => .error e
      | .ok r => .ok (s.predGet pr (s.func fn).owner (s.locOf fn d) :: r)

/-- R151, R303: what the host window does not serve. -/
def hostRefuses : ReqKind → Bool
  | .rmw _ ty opc _ _ reply => !(reply && isInt ty && (opc == 0 || opc == 6 || opc == 7))
  | .prog .. => true
  | .signal _ op _ => op == 2
  | .combine rop ty _ => !(rop == 1 && isInt ty)
  | _ => false

/-- R303: SIGNAL's update. -/
def signalF (op old v : Nat) : Nat :=
  match op with
  | 0 => v
  | 1 => (old + v) % 2 ^ 64
  | _ => max old v

/-- The byte `d` on from a request's address: beyond its sector it lies in its second one. -/
def Req.spot (r : Req) (l : Loc) (d : Nat) : Loc :=
  if d < 32 then l.plus d else match r.farLoc with | some f => f.plus (d - 32) | none => l.plus d

/-- R75: the function of this device that has a request's owner. -/
def State.ownerFn (s : State) (o : EngOp) (r : Req) : Nat :=
  if o.dev = s.devnum then o.fn else ((List.range 16).find? fun f => (s.func f).owner == r.owner).getD 0

/-- A request is performed at its place of record: what it reads, writes and answers. A byte that two elements of a copy are mapped onto
counts once on the bound barrier (R98, log 108). -/
def State.perform (s : State) (q : Nat) (r : Req) (o : EngOp) (l : Loc) : State :=
  match r.kind with
  | .read _ => s.setStage q (.answered (s.reqRead r l r.len))
  | .write ps =>
    ((s.reqWrite o.fn r l (ps.map fun p => (p.1, Mem.get o.buf p.2))).countBytes o (nubBy (ps.map Prod.fst)).length).setStage q .done
  | .store bs => (s.reqWrite o.fn r l bs).setStage q .done
  | .combine rop ty ks =>
    let e := elemBytes ty
    let s1 := ks.foldl (fun s k =>
      let old := leVal ((List.range e).flatMap fun j => s.reqRead r (r.spot l (k.1 + j)) 1)
      let new := leBytes (atomF ty (rop - 1) old (leVal (Mem.read o.buf k.2 e)) 0) e
      let bs := (List.range e).map fun j => (k.1 + j, new.getD j 0)
      let s1 := s.reqWrite o.fn r l (bs.filter fun b => decide (b.1 < 32))
      match bs.filter fun b => decide (32 ≤ b.1), r.farLoc with
      | [], _ | _, none => s1
      | rest, some f => s1.reqWrite o.fn r f (rest.map fun b => (b.1 - 32, b.2))) s
    (s1.countBytes o (nubBy (ks.flatMap fun k => (List.range e).map fun j => k.1 + j)).length).setStage q .done
  | .rmw _ ty opc x y reply =>
    let e := elemBytes ty
    let old := s.reqRead r l e
    let new := leBytes (atomF ty opc (leVal old) x y) e
    (s.reqWrite o.fn r l ((List.range e).map fun j => (j, new.getD j 0))).setStage q (if reply then .answered old else .done)
  | .prog _ n a0 a1 =>
    (match l with
    | .dpa a =>
      let line := Loc.dpa (a / 128 * 128)
      let run : Except Nat (List Byte × DWord) := match s.routine r.owner n with
        | some x => if x.valid ∧ (s.func (s.ownerFn o r)).aptbase.toNat.testBit 0
            then runRoutine x.code (s.reqRead r line 128) a0 a1 (a % 128) else .error 1
        | none => .error 1
      (match run with
      | .error d => s.refuse q 8 d 0
      | .ok (bs, x10) =>
        (s.reqWrite o.fn r line ((List.range 128).map fun j => (j, bs.getD j 0))).setStage q (.answered (leBytes x10.toNat 8)))
    | _ => s.refuse q 5 0 0)
  | .signal v op irq =>
    let s1 := s.reqWrite o.fn r l (let b := leBytes (signalF op (leVal (s.reqRead r l 8)) v) 8
      (List.range 8).map fun j => (j, b.getD j 0))
    (if irq ∧ o.dev = s.devnum then { s1 with irqs := s1.irqs ++ [.signal o.fn] } else s1).setStage q .done

/-- R372: a domain address lies in a landing range. -/
def State.inRange (s : State) (x : Nat × Nat × Nat × Nat) (a : Nat) : Bool :=
  x.1 == devOf a && decide (x.2.2.1 ≤ bareOf a) && decide (bareOf a < x.2.2.2) &&
    (x.1 != s.devnum || s.fnPart x.2.1 == localOf a / 2 ^ 40)

/-- R373: what a landing range takes: copies, reducing copies, scatters and ARED. -/
def ReqKind.lands : ReqKind → Bool
  | .write _ | .store _ | .combine .. => true
  | .rmw _ _ _ _ _ reply => !reply
  | _ => false

/-- The domain addresses that a request at `a` reaches: one in each of its sectors. -/
def Req.dpas (r : Req) (a : Nat) : List Nat := a :: match r.farLoc with | some (.dpa b) => [b] | _ => []

/-- R373: the collective and member whose landing range a request writes, while that member's context is out: another
member of the collective, or another function of this device, sends it. -/
def State.landingOf (s : State) (r : Req) (o : EngOp) (a : Nat) : Option (Nat × Nat) :=
  if !r.kind.lands then none else
  (s.collectives.filterMap fun c =>
    (c.2.ranges.find? fun x => (r.dpas a).any (s.inRange x) && x.1 == s.devnum && (s.func x.2.1).saved.out && !(o.dev == s.devnum && x.2.1 == o.fn) &&
        c.2.members.contains (o.dev, o.fn)).map fun x => (c.1, x.2.1)).head?

/-- R64, R75, R372: what this device refuses of another's requests: an address at which it has no memory, an owner that no key slot holds, and
an address outside the slot's import ranges and the landing ranges of that owner's functions. -/
def State.inboundRefused (s : State) (r : Req) (a : Nat) : Bool :=
  match s.keys.find? fun k => k.2.owner == some r.owner && !k.2.retired with
  | none => true
  | some (_, k) =>
    !s.inHere a ||
    !(k.imports.any (fun x => decide (x.1 ≤ bareOf a) && decide (bareOf a < x.2)) ||
      r.kind.writes && s.collectives.any fun c => c.2.ranges.any fun x => s.inRange x a && (s.func x.2.1).owner == r.owner)

/-- A request whose first sector lies in a local storage or at the host performs as it arrives; its second sector may lie at a home, which does
not serve it now. -/
def State.farShut (s : State) (r : Req) : Bool :=
  match r.loc, r.farLoc with
  | some (.dpa _), _ => false
  | _, some (.dpa b) => s.hbmShut b || s.closed && devOf b == s.devnum
  | _, _ => false

/-- ARRIVE is enabled: its flits have crossed. -/
def State.canArrive (s : State) (q : Nat) : Option (Req × EngOp × Loc) :=
  match KMap.get s.reqs q with
  | none => none
  | some r =>
    match KMap.get s.ops r.op, r.loc with
    | some o, some l =>
      let held := (s.reqPorts r).any fun p => (s.port p).paused.isSome
      if r.stage = .fabric ∧ !held ∧ !s.farShut r ∧ !r.deferred then some (r, o, l) else none
    | _, _ => none

/-- R129: a write to the host window has been posted; no flushing read has come back behind it. -/
def State.notePosted (s : State) (r : Req) (o : EngOp) : State :=
  if !r.kind.writes then s
  else s.modGroup o.gid fun g =>
    if g.hostWrites.contains (r.op, o.cls) then g else { g with hostWrites := g.hostWrites ++ [(r.op, o.cls)] }

/-- R47, R64, R75: a request is refused where one of its sectors lies. -/
def State.sectorRefused (s : State) (r : Req) (o : EngOp) : Loc → Bool
  | .host _ => r.handle != 0 || hostRefuses r.kind
  | .place p _ => r.handle != 0 || match p with
    | .scratch d => r.va.isSome && !(s.islands.contains d && s.islandPart d == s.fnPart o.fn)
    | _ => false
  | .dpa a => (devOf a != s.devnum && s.peerRefuses a) || (o.dev != s.devnum && s.inboundRefused r a)

/-- R373: what the landing buffer has taken of an operation retires without it: the sector goes on as an operation of its own, which no
context counts and which `landedGid` names. Its place in a class is that of no operation: `ord` is 1 more than the launch that waits for it
(R308), and 0 for one of another device or a queue. -/
def landedGid (op : Nat) : Nat := 2 ^ 49 + op
def State.landed (s : State) (q : Nat) (r : Req) (o : EngOp) : State :=
  if landedGid 0 ≤ o.gid then s else
  let launch := if o.dev = s.devnum then ((s.group o.gid).map fun g => g.launch + 1).getD 0 else 0
  let own : EngOp := { o with gid := landedGid r.op, ord := launch, started := true, failed := none, cost := 0 }
  let note (ws : List Nat) : List Nat := if ws.contains r.op then ws ++ [s.nextOp] else ws
  let s1 : State := { s with
    ops := KMap.put s.ops s.nextOp own
    nextOp := s.nextOp + 1
    sheaves := s.sheaves.map fun e => (e.1, { e.2 with writes := note e.2.writes }) }
  s1.modReq q fun r => { r with op := s.nextOp }

/-- R373: the landing buffer takes a sector for member function `f` of collective `c`, or the sector waits in its sender's engine. -/
def State.landingTake (s : State) (q : Nat) (r : Req) (o : EngOp) (c f : Nat) : State :=
  if s.landing.length < 65536 then
    { (s.setStage q (.landing f)).landed q r o with landing := KMap.put s.landing q (c, f), landWait := KMap.del s.landWait q }
  else
    { s.setStage q .fabric with
      landWait := if (KMap.get s.landWait q).isSome then s.landWait else KMap.put s.landWait q (c, f, some s.caln) }

/-- R384: the request reads its line. -/
def ReqKind.reads : ReqKind → Bool
  | .write _ | .store _ => false
  | _ => true

/-- R140, R164: the operation is an SHREAD, and the request one of its reads, which the steps look, list and fetch serve. -/
def EngOp.readsSheaf (o : EngOp) (r : Req) : Bool := !r.kind.writes && match o.kind with | .shread .. => true | _ => false

/-- R140: a source line of an SHREAD has been looked at. -/
def State.looked (s : State) (r : Req) : Bool :=
  ((KMap.get s.ops r.op).bind EngOp.sh).any fun p => p.lines.any fun x => x.source && some (x.addr * 128) == r.va

/-- R384: the second sector of a request that performs as it arrives is read as poisoned. -/
def State.farPoisoned (s : State) (r : Req) : Bool :=
  r.kind.reads && match r.farLoc with | some (.dpa b) => s.poisoned b | _ => false
/-- R88: the line of that sector is used at its home. -/
def State.useFar (s : State) (o : EngOp) (r : Req) : State := match r.farLoc with | some (.dpa b) => s.cacheLine o.fn b | _ => s

/-- ARRIVE: at a home's queue, at a local storage, or at the host, which performs what it accepts in the same step; a read of an SHREAD is
judged and served by the steps of R140. -/
def State.arriveStep (s : State) (q : Nat) : State :=
  match s.canArrive q with
  | none => s
  | some (r, o, l) =>
    if o.readsSheaf r then s.setStage q .queued
    else if (l :: r.farLoc.toList).any (s.sectorRefused r o) then s.refuse q 5 0 0
    else match l with
    | .host _ => if s.farPoisoned r then s.refuse q 5 0 0 else ((s.useFar o r).perform q r o l).notePosted r o
    | .place .. => if s.farPoisoned r then s.refuse q 5 0 0 else (s.useFar o r).perform q r o l
    | .dpa a => match s.landingOf r o a with
        | some (c, f) => s.landingTake q r o c f
        | none => s.setStage q .queued

/-! ### SERVE, PWRITE, PREAD, SWRITE (R125, R135, R139, R142, R151) -/

/-- The bytes that a request at `a` reads. -/
def Req.readsAt (r : Req) (a : Nat) : List Loc :=
  match r.kind with
  | .read _ => (List.range r.len).map (Loc.dpa a).plus
  | .combine _ ty ks => ks.flatMap fun k => (List.range (elemBytes ty)).map fun j => r.spot (.dpa a) (k.1 + j)
  | .rmw _ ty .. => (List.range (elemBytes ty)).map (Loc.dpa a).plus
  | .prog .. => (List.range 128).map (Loc.dpa (a / 128 * 128)).plus
  | .signal .. => (List.range 8).map (Loc.dpa a).plus
  | .write _ | .store _ => []

/-- R88, R142: the lines that a request uses at their homes: those that it names; of a prediction's request those from which it reads a
byte that no version holds. -/
def State.linesUsed (s : State) (r : Req) (a : Nat) : List Nat :=
  match r.tag with
  | none => r.dpas a
  | some (d, k) => nubBy ((r.readsAt a).filterMap fun l => match l with
    | .dpa b => if (s.specAt d k b).isSome then none else some (b / 128 * 128)
    | _ => none)

/-- R88: the lines that a request uses are brought to their homes, or used there. -/
def State.useLines (s : State) (o : EngOp) (r : Req) (a : Nat) : State := (s.linesUsed r a).foldl (fun s b => s.cacheLine o.fn b) s

/-- R142, R166: a prediction's request reads or writes a version in the chaff region, or puts one there. -/
def State.usesChaff (s : State) (r : Req) (o : EngOp) (a : Nat) : Bool :=
  match r.tag with
  | none => false
  | some (d, k) =>
    ((r.readsAt a).any fun l => match l with | .dpa b => (s.specAt d k b).any Version.chaff | _ => false) ||
    r.kind.writes && (r.dpas a).any fun b => match s.versions.find? fun v => v.duc == d && v.k == k && v.line == b / 128 with
      | some v => v.chaff
      | none => !s.wayOpen o.fn (b / 128)

/-- R156: the STATE of a line, and whether its pending version is that of entry `i`. -/
def State.lineState (s : State) (a : Nat) : Nat := bitsOf (s.sidecar a 2) 19 18
def State.pendingOf (s : State) (a i serial : Nat) : Bool :=
  s.lineState a == 2 && bitsOf (s.sidecar a 2) 63 32 == serial && bitsOf (s.sidecar a 2) 31 20 == s.sheafDev i &&
    bitsOf (s.sidecar a 3) 11 0 == sheafIdx i

/-- R111, R135: in a slot a request waits for HBM: for a line that it uses, for the other slot of a line whose pending version a sheaf write
goes on with, or for the chaff region, which no home holds (log 91). -/
def State.serveShut (s : State) (r : Req) (o : EngOp) (a : Nat) : Bool :=
  s.inSlotNow &&
    (if (s.sheafOf r.handle).any fun e => r.handle != 0 && s.pendingOf a e.1 e.2.serial then s.altShut a
     else (s.linesUsed r a).any s.hbmShut || s.usesChaff r o a)

/-- A home may perform the request now. -/
def State.canServe (s : State) (q : Nat) : Option (Req × EngOp × Nat) :=
  match KMap.get s.reqs q with
  | none => none
  | some r =>
    match KMap.get s.ops r.op, r.loc with
    | some o, some (.dpa a) =>
      if r.stage = .queued ∧ !r.deferred ∧ !o.readsSheaf r ∧ !(r.kind.atomic && s.closed && (r.dpas a).any fun b => devOf b == s.devnum) ∧
          !s.serveShut r o a
      then some (r, o, a) else none
    | _, _ => none

/-- R384: a line that the request reads is poisoned. -/
def State.reqPoisoned (s : State) (r : Req) (a : Nat) : Bool := r.kind.reads && (r.dpas a).any s.poisoned

/-- SERVE of a request that is neither a sheaf write nor tagged. -/
def State.serveStep (s : State) (q : Nat) : State :=
  match s.canServe q with
  | none => s
  | some (r, o, a) =>
    if r.handle ≠ 0 ∨ r.tag.isSome then s
    else if s.reqPoisoned r a then s.refuse q 5 0 0
    else (s.useLines o r a).perform q r o (.dpa a)

/-- PREAD: a read by a prediction. -/
def State.preadStep (s : State) (q : Nat) : State :=
  match s.canServe q with
  | none => s
  | some (r, o, a) =>
    if r.tag.isSome ∧ r.handle = 0 ∧ !r.kind.writes then
      (if s.reqPoisoned r a then s.refuse q 5 0 0 else (s.useLines o r a).perform q r o (.dpa a))
    else s

/-- R166: every version that a request would write has room, the second beside the first. -/
def State.reqRoom (s : State) (r : Req) (o : EngOp) (d k a : Nat) : Bool :=
  s.specRoom o.fn d k (a / 128) && match r.farLoc with
    | some (.dpa b) => (s.specPut o.fn d k (a / 128) []).specRoom o.fn d k (b / 128)
    | _ => true

/-- R325: space has come for a write of the operation: the gang that stalled for want of it goes on. -/
def State.freeIssuer (s : State) (o : EngOp) : State :=
  let go (k : Gang) : Gang := if k.nibs.contains o.nib ∧ k.hold = .stall 10 then { k with hold := .none } else k
  s.modGroup o.gid fun g => { g with gangs := g.gangs.map go }

/-- PWRITE: a write or an update by a prediction, where its version has room (R166); without room the gang that issued it stalls (R319). -/
def State.pwriteStep (s : State) (q : Nat) : State :=
  match s.canServe q with
  | none => s
  | some (r, o, a) =>
    match r.tag with
    | some (d, k) =>
      if r.handle ≠ 0 ∨ !r.kind.writes then s
      else if s.reqPoisoned r a then s.refuse q 5 0 0
      else if s.reqRoom r o d k a then ((s.useLines o r a).perform q r o (.dpa a)).freeIssuer o
      else s.stallIssuer o 10
    | none => s

/-- R161: the first sheaf write to a line: the other slot takes the current data, and the sidecar names the sheaf. The line
is first taken under the writer's owner (R72). -/
def State.openPending (s : State) (o a i serial : Nat) : State :=
  let base := a / 128 * 128
  if s.pendingOf a i serial then s.cacheAlternate base
  else
    let s0 := (s.cacheLine 0 base).memPut o (a / 128) []
    let cur := s0.slotAddr true base
    let other := s0.slotAddr false base
    let s1 := { s0.cacheAlternate base with mem := Mem.write s0.mem other (Mem.read s0.mem cur 128) }
    let w2 := setBits (setBits (setBits (s1.sidecar a 2) 63 32 serial) 31 20 (s1.sheafDev i)) 19 18 2
    (s1.putSidecar a 2 w2).putSidecar a 3 (setBits (s1.sidecar a 3) 11 0 (sheafIdx i))

/-- Bytes of the pending version of a line. -/
def State.pendingRead (s : State) (a n : Nat) : List Byte := (List.range n).map fun j => Mem.get s.mem (s.slotAddr false (a + j))
def State.pendingWrite (s : State) (a : Nat) (bs : List (Nat × Byte)) : State :=
  { s with mem := Mem.writeAt s.mem (bs.map fun b => (s.slotAddr false (a + b.1), b.2)) }

/-- SWRITE: a sheaf-carrying write or atomic acts on the pending version of its line (R151, R161). -/
def State.swriteStep (s : State) (q : Nat) : State :=
  match s.canServe q with
  | none => s
  | some (r, o, a) =>
    if r.handle = 0 then s
    else match s.sheafOf r.handle with
    | none => s.refuse q 5 0 0
    | some (i, e) =>
      if !s.inSheafRegion a then s.refuse q 5 0 0
      else
        let name := bitsOf (s.sidecar a 0) 31 0
        if name ≠ 0 ∧ name ≠ e.name then s.refuse q 9 7 0
        else
          let s1 := s.openPending r.owner a i e.serial
          let note (e : SheafEntry) : SheafEntry :=
            { e with lines := if e.lines.contains (a / 128) then e.lines else e.lines ++ [a / 128] }
          let s2 : State := { s1 with sheaves := KMap.adjust s1.sheaves i note }
          match r.kind with
          | .write ps =>
            ((s2.pendingWrite a (ps.map fun p => (p.1, Mem.get o.buf p.2))).countBytes o (nubBy (ps.map Prod.fst)).length).setStage q .done
          | .store bs => (s2.pendingWrite a bs).setStage q .done
          | .rmw _ ty opc x y reply =>
            let n := elemBytes ty
            let old := s2.pendingRead a n
            let new := leBytes (atomF ty opc (leVal old) x y) n
            (s2.pendingWrite a ((List.range n).map fun j => (j, new.getD j 0))).setStage q (if reply then .answered old else .done)
          | _ => s2.setStage q .done

/-! ### LAND, PEER_REFUSAL, RETIRE (R64, R125, R127, R370) -/

/-- R104: bytes of elements land in a gather's registers: an element whose bytes have all landed is written whole, extended
under R19; a part of one otherwise changes only its own bytes. -/
def State.landGather (s : State) (gid n : Nat) (ty : EType) (have_ : List Nat) (buf : Mem) (keys : List Nat) : State :=
  let e := elemBytes ty
  (nubBy (keys.map (· / 8))).foldl (fun s t =>
    match s.group gid with
    | none => s
    | some g =>
      let whole := (List.range e).all fun j => have_.contains (8 * t + j)
      let x := leVal (Mem.read buf (8 * t) e)
      if whole then s.regWrites gid (vecWrites ty (.vec n) t x)
      else keys.foldl (fun s k =>
        if k / 8 = t then
          let j := k % 8
          let old := ((s.group gid).getD g).vreg (n + j / 4) t
          let new := word (setBits old.toNat (8 * (j % 4) + 7) (8 * (j % 4)) (Mem.get buf k).toNat)
          s.regWrite gid (.vec (n + j / 4) t new)
        else s) s) s

/-- R117: the response of a peer waits for its link. -/
def State.answerOut (s : State) (r : Req) : Bool := match r.loc with | some (.dpa a) => s.linkOut a | _ => false

/-- LAND. A response of an older generation is discarded (R370). -/
def State.landStep (s : State) (q : Nat) : State :=
  match KMap.get s.reqs q with
  | none => s
  | some r =>
    match r.stage, KMap.get s.ops r.op with
    | .answered bs, some o =>
      if s.answerOut r then s
      else if o.dev = s.devnum ∧ r.gen ≠ (s.func o.fn).gen then s.setStage q .done
      else
        let s1 := s.setStage q .done
        (match r.kind with
        | .read ps =>
          let got := ps.map fun p => (p.2, bs.getD p.1 0)
          let o1 := { o with buf := Mem.writeAt o.buf got, have_ := o.have_ ++ got.map Prod.fst }
          let s2 := s1.modOp r.op fun _ => o1
          (match o.kind with
          | .gather n ty _ => s2.landGather o.gid n ty o1.have_ o1.buf (got.map Prod.fst)
          | .flush ws => s2.modGroup (o.gid - 2 ^ 48) fun g => { g with hostWrites := g.hostWrites.filter fun w => !ws.contains w.1 }
          | _ => s2)
        | .rmw t ty _ _ _ _ =>
          (match o.kind with
          | .atom (some n) .. => s1.regWrites o.gid (vecWrites ty (.vec n) t (leVal bs))
          | _ => s1)
        | .prog t _ _ _ =>
          (match o.kind with
          | .prog n _ _ => s1.regWrites o.gid (vecWrites .n64 (.vec n) t (leVal bs))
          | _ => s1)
        | _ => s1)
    | _, _ => s

/-- R127: every request of the operation has performed and landed, or has been refused. -/
def State.reqsOver (s : State) (opId : Nat) : Bool :=
  s.reqs.all fun e => e.2.op != opId || e.2.stage == .done || e.2.stage == .refused

/-- R164: what SHREAD returns. The version is 0 too where the group of the lowest source line gave up or was refused and so delivered
none (log 109). -/
def shreadResult (p : ShProg) : Nat :=
  let src := p.lines.filter fun x => x.source
  let low := (sortBy Seen.addr src).head?
  let first := match low with
    | some x => if x.name = 0 then 0 else KMap.getD p.delivered x.man 0
    | none => 0
  let mans := nubBy ((src.filter fun x => x.name != 0).map Seen.man)
  let restarts := (p.restarts.map Prod.snd).sum
  first * 2 ^ 32 + min restarts 65535 * 2 ^ 16 + (if p.refused ≠ [] then 8 else 0) + (if p.plain then 4 else 0) +
    (if 1 < mans.length then 2 else 0) + (if p.gaveUp ≠ [] then 1 else 0)

/-- R127, R162: what is still to come of the operation. -/
def State.opOver (s : State) (opId : Nat) (o : EngOp) : Bool :=
  match o.kind with
  | .seal e | .abort e =>
    (match KMap.get s.sheaves e with
    | some x => x.closer != some opId || (x.sent && x.homes.isEmpty)
    | none => true)
  | .mloop _ _ b _ _ step _ _ => o.failed.isSome || decide (b.steps ≤ step)
  | .mzero .. => o.swept
  | _ => o.started && s.reqsOver opId

/-- R162: the entry of a sheaf that has sealed or aborted is free. -/
def State.freeSheaf (s : State) (e : Nat) : State :=
  { s with sheaves := KMap.adjust s.sheaves e fun x =>
      { x with open_ := false, closing := false, aborting := false, broken := false, lines := [], writes := [], closer := none,
               sent := false, homes := [], late := [] } }

/-- R310: a queue's COPY that failed completes with a status that the manual does not state (log 30). -/
def State.noteCommand (s : State) (opId : Nat) : State :=
  { s with funcs := s.funcs.map fun f => (f.1, { f.2 with queues := f.2.queues.map fun q =>
      (q.1, if q.2.opId = some opId then { q.2 with outcome := some Config.refusedCopy } else q.2) }) }

/-- R290, R291: the counter conditions of a context's parked gangs that have become true; they stay so. -/
def State.settleParks (s : State) (gid : Nat) (c : EngClass) : State :=
  let n := s.counter gid c
  s.modGroup gid fun g => { g with gangs := g.gangs.map fun k => match k.hold with
    | .park (.counter c' m) cont => if c' = c ∧ n ≤ m then { k with hold := .park .ready cont } else k
    | _ => k }

/-- RETIRE of the oldest operation of a class (R125): the counter falls, a failure is kept for its wait (R64), an SHREAD
writes its result (R164), and an MLOOP's flags join XFLG (R206). -/
def State.retireStep (s : State) (gid : Nat) (c : EngClass) : State :=
  match (s.opsOf gid c).head? with
  | none => s
  | some opId =>
    match KMap.get s.ops opId with
    | none => s
    | some o =>
      if !s.opOver opId o then s
      else
        let s0 : State := { s with
          ops := KMap.del s.ops opId
          reqs := s.reqs.filter fun e => e.2.op != opId
          faults := s.faults.filter fun e => e.2.op != some opId
          sheaves := s.sheaves.map fun e => (e.1, { e.2 with writes := e.2.writes.filter (· != opId) }) }
        let s1 := s0.settleParks gid c
        let s2 := match o.failed with
          | some (cause, detail, info) => (s1.noteCommand opId).modGroup gid fun g =>
              { g with failed := g.failed ++ [⟨opId, c, o.ord, cause, detail, info, o.pc⟩] }
          | none => s1.addEnergy gid o.cost
        match o.kind, o.sh with
        | .shread d _, some p => s2.writeS gid d (dword (shreadResult p))
        | .seal e, _ | .abort e, _ => s2.freeSheaf e
        | .mloop t _ _ _ _ _ _ fl, _ => s2.modGroup t fun g => g.orFlags fun m => fl.getD m 0
        | _, _ => s2

/-! ### PROMOTE and DISCARD (R142, R168) -/

/-- R325: a write of a prediction that has found no space stands as one that has not been sent. -/
def State.stuck (s : State) (r : Req) : Bool :=
  r.stage == .queued && r.handle == 0 && r.kind.writes && match r.tag, r.loc, KMap.get s.ops r.op with
    | some (d, k), some (.dpa a), some o => !s.reqRoom r o d k a
    | _, _, _ => false

/-- R318, R319: a list of a predicted SHREAD that meets a peer or a full watch set, at which its gang stalls, stands as one that has not been
sent. -/
def State.listStalls (s : State) (r : Req) : Bool :=
  r.stage == .queued && r.va.isNone && r.kind.gives.isEmpty && (KMap.get s.ops r.op).any (fun o => o.readsSheaf r) &&
    match r.tag, r.loc with
    | some (d, _), some (.dpa a) => devOf a != s.devnum || !s.watchRoom d (((Loc.dpa a).watchKey s.devnum).toList)
    | _, _ => false

/-- R322: no request of a prediction is still to perform. -/
def State.tagQuiet (s : State) (d k : Nat) : Bool :=
  s.reqs.all fun e => s.stuck e.2 || s.listStalls e.2 || (e.2.stage == .queued && s.looked e.2) || e.2.tag != some (d, k) || e.2.stage == .done || e.2.stage == .refused ||
    e.2.stage == .waiting || e.2.stage == .created || (match e.2.stage with | .held _ => true | _ => false)

/-- The launch of a prediction. -/
def State.predLaunch (s : State) (d k : Nat) : Option (Nat × Launch) :=
  s.launches.find? fun e => match e.2.pred with | some p => p.duc == d && p.k == k | none => false

/-- R322: the versions of a prediction may be promoted: its launch is confirmed and has completed, or is being cut over, and
no older prediction still holds versions. -/
def State.mayPromote (s : State) (d k : Nat) : Bool :=
  match s.predLaunch d k with
  | some (_, l) =>
    (match l.pred with | some p => p.confirmed && (p.cutting || l.ready) | none => false) && s.tagQuiet d k && !s.closed &&
      !s.versions.any (fun v => v.duc == d && decide (v.k < k))
  | none => false

/-- PROMOTE(h, d, k): at one home, the bytes of each version enter the line's current slot, and the version is freed. -/
def State.promoteStep (s : State) (d k home : Nat) : State :=
  if s.mayPromote d k then
    let vs := s.versions.filter fun v => v.duc == d && v.k == k && s.homeOf v.fn (v.line * 128) == home
    let s1 := vs.foldl (fun s v =>
      (s.memPut (s.func v.fn).owner v.line (v.bytes.map fun b => (v.line * 128 + b.1, b.2))).touch (some d) (.dpa (v.line * 128))) s
    { s1 with versions := s1.versions.filter fun v => !(v.duc == d && v.k == k && s.homeOf v.fn (v.line * 128) == home) }
  else s

/-- R324: a refuted prediction has no launch any more. -/
def State.mayDiscard (s : State) (d k : Nat) : Bool := (s.predLaunch d k).isNone && s.tagQuiet d k && !s.closed

/-- DISCARD(h, d, k). -/
def State.discardStep (s : State) (d k home : Nat) : State :=
  if s.mayDiscard d k then
    { s with versions := s.versions.filter fun v => !(v.duc == d && v.k == k && s.homeOf v.fn (v.line * 128) == home) }
  else s

/-! ### The steps by name -/

def execStart (op : Nat) (s : State) : Out := .next (s.startStep op)
def execSend (q : Nat) (s : State) : Out := .next (s.sendStep q)
def execArrive (q : Nat) (s : State) : Out := .next (s.arriveStep q)
def execServe (q : Nat) (s : State) : Out := .next (s.serveStep q)
def execSwrite (q : Nat) (s : State) : Out := .next (s.swriteStep q)
def execPwrite (q : Nat) (s : State) : Out := .next (s.pwriteStep q)
def execPread (q : Nat) (s : State) : Out := .next (s.preadStep q)
def execLand (q : Nat) (s : State) : Out := .next (s.landStep q)
def execRetire (g : Nat) (c : EngClass) (s : State) : Out := .next (s.retireStep g c)
def execPromote (duc k home : Nat) (s : State) : Out := .next (s.promoteStep duc k home)
def execDiscard (duc k home : Nat) (s : State) : Out := .next (s.discardStep duc k home)

/-- R107, R141: PF brings a line, which it names with the function that asks for it (`prefName`), into its home cache; in a slot a line that
must come from HBM waits for the slot's end (R111), and one that comes back as poisoned is not fetched (R384). -/
def execPf (x : Nat) (s : State) : Out :=
  let a := x % prefBound * 128
  .next (if s.hbmShut a then s.holdStep ⟨.pf x, 0, []⟩
    else if s.poisoned a then s else s.cacheLine (x / prefBound) a)

end Sys2Proof.Machine
end

