-- ==== Sys2Proof/Machine/Sheaf.lean ====
section
/-!
DEFINITION. Sheaves (R155 to R165): SHOPEN, SHSEAL, SHABORT, SHREAD, SHVER, the steps SEAL_MANIFEST_WRITE, SEAL, ABORT and
SHREAD's look, list and fetch (R139, R140), and the freeing of a name (R157).
-/

namespace Sys2Proof.Machine

/-! ### Directory and manifest (R157) -/

/-- R157: the directory line of a name. -/
def State.dirLine (s : State) (fn name : Nat) : Nat :=
  let f := s.func fn
  s.dpaOf fn (bitsOf f.sdbase.toNat 47 7 * 128 + name % 2 ^ f.sdsize * 128)

/-- R157: the name that a manifest holds, and its version. -/
def manifestHead (m : List Byte) : Nat × Nat := (leVal (m.take 4), leVal ((m.drop 4).take 4))

/-- R160: the current manifest of a name: its bytes, the name that the line holds, and its version. -/
def State.manifestOf (s : State) (fn name : Nat) : List Byte × Nat × Nat :=
  let m := s.memRead (s.func fn).owner (s.dirLine fn name) 128
  (m, manifestHead m)

/-- R157: the domain address of line `j` of an extent, as function `fn` names it. -/
def State.memberAt (s : State) (fn : Nat) (x : Nat × Nat × Nat × Nat) (j : Nat) : Nat :=
  let a := x.2.1 * 8192 + (x.2.2.1 + j) * 128
  if x.1 = s.devnum then s.dpaOf fn a else x.1 * 2 ^ 48 + a

/-- R157: the members that a manifest lists: domain address, extent, place in it. -/
def State.members (s : State) (fn : Nat) (m : List Byte) : List (Nat × Nat × Nat) :=
  (List.range (min 16 (manNext m))).flatMap fun i =>
    let x := extentOf m i
    (List.range (x.2.2.2 + 1)).map fun j => (s.memberAt fn x j, i, j)

/-- R160: the name has an entry that is open or still sealing; one that is aborting counts as well (log 85). -/
def State.nameBusy (s : State) (fn name : Nat) : Bool :=
  s.sheaves.any fun e => e.2.fn == fn && e.2.name == name && (e.2.open_ || e.2.closing)

/-! ### SHOPEN and SHVER (R158, R160, R165) -/

/-- R158: a name: a scalar, a literal or zero. -/
def nameChk (fld : Nat) (o : Opnd) : Chk :=
  match o with
  | .sca _ | .lit _ | .zero => none
  | _ => some (2, fld)

/-- R160: the entry that SHOPEN takes: the lowest free one (log 20). -/
def State.freeEntry (s : State) : Option Nat :=
  (List.range 4096).find? fun i => match KMap.get s.sheaves i with
    | some e => !(e.open_ || e.closing)
    | none => true

/-- R159: a handle. -/
def handleOf (gen dev idx ser : Nat) : DWord := dword (gen % 256 * 2 ^ 56 + dev * 2 ^ 44 + idx * 2 ^ 32 + ser % 2 ^ 32)

/-- R160: SHOPEN's effect and its handle, or the detail of its fault. -/
def State.shopen (s : State) (g : Group) (name : Nat) : Except Nat (State × DWord) :=
  let fn := s.fnOf g
  let f := s.func fn
  let (m, held, ver) := s.manifestOf fn name
  let mine := (s.sheaves.filter fun e => e.2.fn == fn && (e.2.open_ || e.2.closing)).length
  if f.sdsize = 0 then .error 9
  else if name = 0 ∨ (held ≠ 0 ∧ held ≠ name) then .error 2
  else if s.nameBusy fn name then .error 3
  else if f.quota ≠ 0 ∧ 256 * f.quota ≤ mine then .error 4
  else match s.freeEntry with
    | none => .error 4
    | some i =>
      if held = name ∧ ver = 0xFFFFFFFF then .error 8
      else
        let base := if held = 0 then List.replicate 128 0 else m
        let v := if held = 0 then 0 else ver
        let ser := ((match KMap.get s.sheaves i with | some e => e.serial | none => 0) + 1) % 2 ^ 32
        let e : SheafEntry :=
          { open_ := true, closing := false, aborting := false, serial := ser, fn := fn, gen := f.gen, launch := g.launch,
            name := name, manifest := putBytes (putBytes base 0 (leBytes name 4)) 4 (leBytes (v + 1) 4),
            man := s.dirLine fn name, broken := false, lines := [], writes := [], closer := none, sent := false, homes := [], late := [] }
        .ok ({ s with sheaves := KMap.put s.sheaves i e }, handleOf f.gen s.devnum i ser)

/-- R160, R165: the result comes under way, and the gang is held until it has been written. -/
def State.heldResult (s : State) (i : Iss) (d : Opnd) (v : DWord) : State :=
  (s.addLong i (.result [.sca (scaNo d) v])).modGang i fun k => { k with hold := .result i.g.nextSeq }

def execShopen (d name : Opnd) (u : Byte) (s : State) : Out :=
  s.insn (fun i => [quillOpnds i [d, name], scaChk 1 d, nameChk 2 name, zeroChk 3 u]) fun i =>
    if s.speculative i.g then s.stall i 4
    else if s.closed then s.retry i
    else match s.shopen i.g (i.uni32 name) with
      | .error det => s.trap i 9 det
      | .ok (s1, h) => s1.heldResult i d h

/-- R165; a predicted launch reads its ductus's version of the directory line (R142, R318). -/
def State.shver (s : State) (g : Group) (name : Nat) : DWord :=
  let fn := s.fnOf g
  let seen := (List.range 8).map fun j =>
    s.predGet ((s.predOf g).map fun p => (p.duc, p.k)) (s.func fn).owner (.dpa (s.dirLine fn name + j))
  let (held, ver) := manifestHead seen
  let other := held ≠ 0 ∧ held ≠ name
  dword ((if s.sheaves.any (fun e => e.2.fn == fn && e.2.name == name && e.2.open_) then 2 ^ 63 else 0) + (if other then 2 ^ 62 else 0) + (if other ∨ held = 0 then 0 else ver))

def execShver (d name : Opnd) (u : Byte) (s : State) : Out :=
  s.insn (fun i => [quillOpnds i [d, name], scaChk 1 d, nameChk 2 name, zeroChk 3 u]) fun i =>
    if s.closed then s.retry i
    else if (s.func (s.fnOf i.g)).sdsize = 0 then s.trap i 9 9
    else match s.watch i.g [s.dirLine (s.fnOf i.g) (i.uni32 name) / 4096] with
      | none => s.stall i 11
      | some s1 => s1.heldResult i d (s.shver i.g (i.uni32 name))

/-! ### SHSEAL and SHABORT (R162, R163) -/

def State.closeSheaf (s : State) (i : Iss) (h : Opnd) (aborting : Bool) : State :=
  if s.speculative i.g then s.stall i 4
  else match s.handleEntry (s.fnOf i.g) (i.uni64 h) with
    | none => s.trap i 9 1
    | some e =>
      if s.canIssue i .atomic then
        let s1 := s.issueOp i .atomic (if aborting then .abort e else .seal e) none
        { s1 with sheaves := KMap.adjust s1.sheaves e fun x =>
            { x with open_ := false, closing := true, aborting := aborting, closer := some (s1.nextOp - 1) } }
      else s.unissued i

def execShseal (h : Opnd) (u : BitVec 16) (s : State) : Out :=
  s.insn (fun i => [quillOpnds i [h], scaChk 1 h] ++ zero16 u) fun i => s.closeSheaf i h false
def execShabort (h : Opnd) (u : BitVec 16) (s : State) : Out :=
  s.insn (fun i => [quillOpnds i [h], scaChk 1 h] ++ zero16 u) fun i => s.closeSheaf i h true

/-- R162: every write that carries the handle has performed or been refused. -/
def State.writesOver (s : State) (e : SheafEntry) : Bool :=
  e.writes.all fun o => match KMap.get s.ops o with
    | none => true
    | some x => x.started && s.reqs.all fun r => r.2.op != o ||
        (match r.2.stage with | .done | .refused | .answered _ => true | _ => false)

/-- R162: homes of the members and of the manifest. -/
def State.sheafHomes (s : State) (e : SheafEntry) : List Nat :=
  nubBy (s.homeOf e.fn e.man :: (s.members e.fn e.manifest).map fun x => s.homeOf e.fn x.1)

/-- SEAL_MANIFEST_WRITE (R162, step 2): the pending manifest enters the manifest line's other slot, and the seal messages go
out. A broken sheaf has none: it aborts. -/
def State.manifestStep (s : State) (x : Nat) : State :=
  match KMap.get s.sheaves x with
  | none => s
  | some e =>
    if e.closing ∧ !e.aborting ∧ !e.sent ∧ s.writesOver e ∧ !s.closed then
      if e.broken then
        let s1 := match e.closer with | some o => s.failOp o 9 6 0 | none => s
        { s1 with sheaves := KMap.adjust s1.sheaves x fun e => { e with aborting := true } }
      else
        let s1 := (s.openPending (s.func e.fn).owner e.man x e.serial).pendingWrite e.man
          ((List.range 128).map fun j => (j, e.manifest.getD j 0))
        { s1 with sheaves := KMap.adjust s1.sheaves x fun e => { e with sent := true, homes := s.sheafHomes e } }
    else s

/-- R162, step 4, for one line. The manifest line, which is in no extent, takes EXT and LINE 0 (log 110). -/
def State.sealLine (s : State) (x : Nat) (e : SheafEntry) (a ext line : Nat) : State :=
  let ver := leVal ((e.manifest.drop 4).take 4)
  let w2 := s.sidecar a 2
  let w2 := if s.pendingOf a x e.serial
    then setBits (setBits w2 17 17 (1 - bitsOf w2 17 17)) 19 18 1 else setBits w2 19 18 3
  let w2 := setBits (setBits w2 9 6 ext) 5 0 line
  ((s.putSidecar a 0 (e.name + ver * 2 ^ 32)).putSidecar a 1 (e.man / 128 * 128)).putSidecar a 2 w2

/-- A home has taken its step: an entry that no operation waits for is freed with the last one. -/
def State.homeDone (s : State) (x home : Nat) : State :=
  let s1 : State := { s with sheaves := KMap.adjust s.sheaves x fun e =>
    { e with sent := true, homes := e.homes.filter (· != home), late := e.late.filter (· != home) } }
  match KMap.get s1.sheaves x with
  | some e =>
    if e.homes = [] ∧ !(match e.closer with | some o => (KMap.get s1.ops o).isSome | none => false) then s1.freeSheaf x else s1
  | none => s1

/-- R305: a home cannot take a seal or an abort step now: a home of this package between its CLOSE and its OPEN, a home of a peer while
that package pauses the link (R388), which is what it shows of its calendar (log 122). The messages have left by then (R110), so that the
calendar of this package holds none of them. `as` are addresses
homed there. -/
def State.homeShut (s : State) (home : Nat) (as : List Nat) : Bool :=
  if home / 192 = s.devnum then s.closed else match as.head? with | some a => s.peerPauses a | none => false

/-- R162: the lines of a sealing entry at one home: the members, then the manifest. -/
def State.sealMembers (s : State) (e : SheafEntry) (home : Nat) : List (Nat × Nat × Nat) :=
  (s.members e.fn e.manifest).filter fun m => s.homeOf e.fn m.1 == home

/-- SEAL(h, s), one step at home h (R139, R162). -/
def State.sealStep (s : State) (x home : Nat) : State :=
  match KMap.get s.sheaves x with
  | none => s
  | some e =>
    let ls := s.sealMembers e home
    let own : Bool := s.homeOf e.fn e.man == home
    if e.sent ∧ !e.aborting ∧ e.homes.contains home ∧ !s.homeShut home (ls.map Prod.fst ++ if own then [e.man] else []) then
      let s1 := ls.foldl (fun s m => (s.sealLine x e m.1 m.2.1 m.2.2).touch none (.dpa m.1)) s
      let s2 := if own then (s1.sealLine x e e.man 0 0).touch none (.dpa e.man) else s1
      s2.homeDone x home
    else s

/-- R163: an aborting entry with the homes whose step is to come: those of its written lines and of its manifest. -/
def State.abortEntry (s : State) (e : SheafEntry) : SheafEntry :=
  if e.sent then e else { e with homes := nubBy (s.homeOf e.fn e.man :: e.lines.map fun l => s.homeOf e.fn (l * 128)) }

/-- ABORT(h, s), one step at home h (R139, R163): pending versions of the sheaf are dropped. -/
def State.abortStep (s : State) (x home : Nat) : State :=
  match KMap.get s.sheaves x with
  | none => s
  | some e0 =>
    let e := s.abortEntry e0
    let at_ := (e.lines.map (· * 128)).filter fun a => s.homeOf e.fn a == home
    if e.aborting ∧ e.closing ∧ s.writesOver e ∧ e.homes.contains home ∧ !s.homeShut home (at_ ++ [e.man]) then
      let s1 := (at_.filter fun a => s.pendingOf a x e.serial).foldl (fun s a => s.putSidecar a 2 (setBits (s.sidecar a 2) 19 18 0)) s
      ({ s1 with sheaves := KMap.put s1.sheaves x e }).homeDone x home
    else s

/-- R135: the homes of this package at which a seal or an abort message of an entry stands untaken. -/
def State.untaken (s : State) (e : SheafEntry) : List Nat :=
  if !e.closing then []
  else if e.aborting then (if s.writesOver e then (s.abortEntry e).homes.filter fun h => h / 192 == s.devnum else [])
  else if e.sent then e.homes.filter fun h => h / 192 == s.devnum else []

/-! ### SHREAD (R140, R164) -/

def execShread (d blk : Opnd) (u : Byte) (s : State) : Out :=
  s.insn (fun i => [quillOpnds i [d, blk], scaChk 1 d, sbChk 2 blk, zeroChk 3 u]) fun i =>
    s.copyIssue i (scaNo blk) .shread (.shread (scaNo d))

/-- The request for a source line of an SHREAD: at its home (R126), its data not delivered. -/
def State.shReq (s : State) (op vline : Nat) : Option (Nat × Req) :=
  s.reqs.find? fun e => e.2.op == op && e.2.stage == .queued && !e.2.deferred && e.2.va == some (vline * 128) && !e.2.kind.gives.isEmpty &&
    e.2.loc.isSome

/-- A request of a list (of a line) or a fetch (of a source line, which `va` names) stands at its home. It carries no byte of the copy. -/
def Req.asks (r : Req) (op a : Nat) (va : Option Nat) : Bool :=
  r.op == op && !r.kind.writes && r.kind.gives.isEmpty && r.va == va && r.loc == some (.dpa a)
def State.shAsked (s : State) (op a : Nat) (va : Option Nat) : Bool :=
  s.reqs.any fun e => e.2.asks op a va && e.2.stage == .queued && !e.2.deferred

/-- R64, R164, R384: a request for a line that a step of an SHREAD needs is refused. -/
def State.shRefused (s : State) (a : Nat) : Bool := (devOf a != s.devnum && s.peerRefuses a) || s.poisoned a

/-- Data of a source line is delivered to the engine. -/
def State.shDeliver (s : State) (q : Nat) (r : Req) (bs : List Byte) : State :=
  match r.kind with
  | .read ps =>
    let got := ps.map fun p => (p.2, bs.getD p.1 0)
    (s.setStage q .done).modOp r.op fun o => { o with buf := Mem.writeAt o.buf got, have_ := o.have_ ++ got.map Prod.fst }
  | _ => s

def State.modSh (s : State) (op : Nat) (f : ShProg → ShProg) : State := s.modOp op fun o => { o with sh := o.sh.map f }

/-- LOOK: one source line's current data and sidecar. A line in no sheaf is read plainly. A look that is refused is lost with its group
(R164, `State.settleShread`). -/
def State.lookStep (s : State) (op vline : Nat) : State :=
  match s.shReq op vline, (KMap.get s.ops op).bind EngOp.sh with
  | some (q, r), some p =>
    if p.lines.any fun x => x.source && x.addr == vline then s
    else match r.loc with
      | some l =>
        let data := s.reqRead r l 128
        (match l with
        | .dpa a =>
          if s.hbmShut a ∨ s.peerPauses a ∨ (s.inSlotNow ∧ s.inChaff r.tag (a / 128)) then s
          else if s.shRefused a then s.refuse q 5 0 0
          else
            let w0 := s.sidecar a 0
            if s.inSheafRegion a ∧ bitsOf w0 31 0 ≠ 0 then
              (s.cacheLine ((KMap.get s.ops op).elim 0 EngOp.fn) a).modSh op fun p => { p with lines := p.lines ++
                [⟨vline, true, bitsOf w0 63 32, bitsOf w0 31 0, bitsOf (s.sidecar a 1) 59 7 * 128, s.lineState a, data, none⟩] }
            else ((s.cacheLine ((KMap.get s.ops op).elim 0 EngOp.fn) a).shDeliver q r data).modSh op fun p => { p with plain := true, lines := p.lines ++
                [⟨vline, true, 0, 0, 0, 0, [], none⟩] }
        | l => if s.locRefused ((KMap.get s.ops op).elim 0 EngOp.fn) l then s.refuse q 5 0 0
            else (s.shDeliver q r data).modSh op fun p => { p with plain := true, lines := p.lines ++
                [⟨vline, true, 0, 0, 0, 0, [], none⟩] })
      | none => s
  | _, _ => s

/-- The requests of the source lines of one group that have not been delivered. -/
def State.shGroup (s : State) (op : Nat) (p : ShProg) (man : Nat) : List (Nat × Req × Seen) :=
  (p.lines.filter fun x => x.source && x.name != 0 && x.man == man).filterMap fun x =>
    (s.shReq op x.addr).map fun q => (q.1, q.2, x)

/-- R164: the group takes no further step and delivers nothing; what depends on its data is never written. -/
def State.shDrop (s : State) (op man : Nat) (p : ShProg) : State :=
  let qs := (s.shGroup op p man).map fun x => x.1
  let lost := (s.shGroup op p man).flatMap fun x => x.2.1.kind.gives
  { s with reqs := s.reqs.map fun e =>
      if qs.contains e.1 ∨ (e.2.op = op ∧ e.2.stage = .waiting ∧ e.2.kind.needs.any (lost.contains ·))
      then (e.1, { e.2 with stage := .refused }) else e }

/-- R164: restart of a group, or its giving up after 64 restarts. -/
def State.shRestart (s : State) (op man : Nat) (p : ShProg) : State :=
  let n := KMap.getD p.restarts man 0
  if 64 ≤ n then (s.shDrop op man p).modSh op fun p => { p with gaveUp := p.gaveUp ++ [man] }
  else
    let again := (s.shGroup op p man).map fun x => x.1
    let s1 : State := { s with reqs := s.reqs.map fun e => (e.1, if again.contains e.1 then { e.2 with stage := .created } else e.2) }
    s1.modSh op fun p =>
      { p with restarts := KMap.put p.restarts man (n + 1), lines := p.lines.filter fun x => x.man != man || x.name == 0 }

/-- R164: the lowest version that a group has seen. -/
def ShProg.lowest (p : ShProg) (man : Nat) : Nat :=
  let seen := p.lines.filter fun x => x.name != 0 && x.man == man
  seen.foldl (fun m x => min m x.ver) ((seen.head?.map Seen.ver).getD 0)

/-- R164: compare, and deliver version `v` once every source line has its data. -/
def State.shCompare (s : State) (op man : Nat) : State :=
  match (KMap.get s.ops op).bind EngOp.sh with
  | none => s
  | some p =>
    let seen := p.lines.filter fun x => x.name != 0 && x.man == man
    let v := p.lowest man
    if seen.any fun x => decide (v + 1 < x.ver) then s.shRestart op man p
    else if seen.any fun x => x.source && x.ver == v + 1 && x.got.isNone then s
    else ((s.shGroup op p man).foldl (fun s x => s.shDeliver x.1 x.2.1 (x.2.2.got.getD x.2.2.data)) s).modSh op fun p =>
      { p with delivered := KMap.put p.delivered man v }

/-- R164: what a group still has to list: its manifest line first, then every member that the manifest lists. -/
def State.shToList (s : State) (fn : Nat) (p : ShProg) (man : Nat) : List Nat :=
  match p.lines.find? fun x => !x.source && x.man == man && x.addr == man / 128 with
  | none => [man / 128]
  | some m => (nubBy ((s.members fn m.data).map fun x => x.1 / 128)).filter fun l =>
      !p.lines.any fun x => !x.source && x.man == man && x.addr == l

/-- The groups of an SHREAD that are neither delivered nor given up. A line that is seen again after a restart and then names a group that has
delivered is neither delivered nor ends that group: R164 is silent there (log 135, DESIGN CHOICE). -/
def ShProg.openGroups (p : ShProg) : List Nat :=
  (nubBy ((p.lines.filter fun x => x.source && x.name != 0).map Seen.man)).filter fun m =>
    (KMap.get p.delivered m).isNone && !p.gaveUp.contains m && !p.refused.contains m

/-- Every source line has been looked at. -/
def State.shLooked (s : State) (op : Nat) (p : ShProg) : Bool :=
  s.reqs.all fun e => e.2.op != op || e.2.kind.gives.isEmpty || e.2.stage == .done || e.2.stage == .refused ||
    p.lines.any fun x => x.source && some (x.addr * 128) == e.2.va

/-- R142: bytes of a line as an operation reads them. -/
def State.opRead (s : State) (o : EngOp) (a n : Nat) : List Byte :=
  match s.opTag o with
  | some (d, k) => (List.range n).map fun i => s.specGet (s.func o.fn).owner d k (a + i)
  | none => s.memRead (s.func o.fn).owner a n

/-- What LIST reads of a line joins what its group has seen. -/
def State.listLine (s : State) (op : Nat) (o : EngOp) (p : ShProg) (man line : Nat) : State :=
  let a := line * 128
  let seen : Seen := ⟨line, false, bitsOf (s.sidecar a 0) 63 32, 1, man, s.lineState a,
    if line = man / 128 then s.opRead o a 128 else [], none⟩
  let s1 := (s.cacheLine o.fn a).modSh op fun p => { p with lines := p.lines ++ [seen] }
  if s1.shToList o.fn { p with lines := p.lines ++ [seen] } man = [] then s1.shCompare op man else s1

/-- R164: a step of a group was refused: the group takes no further step and delivers nothing, and the SHREAD completes as failed. -/
def State.shGroupRefused (s : State) (op man : Nat) (p : ShProg) : State :=
  ((s.shDrop op man p).failOp op 5 0 0).modSh op fun p => { p with refused := p.refused ++ [man] }

/-- LIST: the manifest line, or one companion's sidecar; the last of them leads to the comparison. A predicted launch's read enters
the watch set, or stalls its nib when that is full (R318, R319). -/
def State.listStep (s : State) (op line : Nat) : State :=
  match KMap.get s.ops op with
  | none => s
  | some o =>
    match o.sh with
    | none => s
    | some p =>
      let a := line * 128
      if !s.shLooked op p ∨ !s.shAsked op a none ∨ s.hbmShut a ∨ s.peerPauses a then s
      else match p.openGroups.find? fun m => (s.shToList o.fn p m).contains line with
        | none => s
        | some man =>
          if line = man / 128 ∧ s.inSlotNow ∧ s.inChaff (s.opTag o) line then s
          else if s.shRefused a then s.shGroupRefused op man p
          else
            let keys := ((Loc.dpa a).watchKey s.devnum).toList
            match s.opTag o with
            | some (d, _) =>
              if devOf a ≠ s.devnum then s.stallIssuer o 2
              else if s.watchRoom d keys then (s.watchAdd d keys).listLine op o p man line else s.stallIssuer o 11
            | none => s.listLine op o p man line

/-- FETCH: the retained copy of a source line seen at v + 1, v being the lowest version that its group has seen (R164). -/
def State.fetchStep (s : State) (op vline : Nat) : State :=
  match KMap.get s.ops op, s.shReq op vline with
  | some o, some (_, r) =>
    (match o.sh, r.loc with
    | some p, some (.dpa a) =>
      (match p.lines.find? fun x => x.source && x.addr == vline && x.name != 0 with
      | some x =>
        if p.openGroups.contains x.man ∧ s.shToList o.fn p x.man = [] ∧ s.shLooked op p ∧ x.got.isNone ∧ x.ver = p.lowest x.man + 1 ∧
            s.shAsked op a (some (vline * 128)) ∧ !(if s.lineState a = 3 then s.hbmShut a else s.altShut a) ∧ !s.peerPauses a then
          if s.shRefused a then s.shGroupRefused op x.man p
          else
            let ver := bitsOf (s.sidecar a 0) 63 32
            let st := s.lineState a
            if ver = x.ver ∧ (st = 1 ∨ st = 3) then
              let own := s.lineTag (a / 128) == s.tagOf (devOf a) r.owner
              let data := (List.range 128).map fun j =>
                if own then Mem.get s.mem (s.slotAddr (st == 3) (a + j)) else 0
              ((if st = 3 then s.cacheLine o.fn a else s.cacheAlternate a).modSh op fun p => { p with lines := p.lines.map fun y =>
                if y.source && y.addr == vline then { y with got := some data } else y }).shCompare op x.man
            else s.shRestart op x.man p
        else s
      | none => s)
    | _, _ => s)
  | _, _ => s

/-! ### What an SHREAD's engine does between the steps (R125, R164, R305) -/

/-- R164: the group of a source line, by its manifest: as the SHREAD saw it, or as its sidecar stands; 0 for a line in no sheaf (log 52). -/
def State.shGroupOf (s : State) (p : ShProg) (r : Req) : Nat :=
  match p.lines.find? fun x => x.source && some (x.addr * 128) == r.va, r.loc with
  | some x, _ => if x.name = 0 then 0 else x.man
  | none, some (.dpa a) => if s.inSheafRegion a ∧ bitsOf (s.sidecar a 0) 31 0 ≠ 0 then bitsOf (s.sidecar a 1) 59 7 * 128 else 0
  | none, _ => 0

/-- R164: the lines that the SHREAD has to list, and the source lines that it has to fetch, now: domain address, and for a fetch the
virtual address. -/
def State.shWants (s : State) (op : Nat) (o : EngOp) (p : ShProg) : List (Nat × Option Nat) :=
  if !s.shLooked op p then []
  else p.openGroups.flatMap fun m => match s.shToList o.fn p m with
    | [] => (s.shGroup op p m).filterMap fun x =>
        if x.2.2.got.isNone ∧ x.2.2.ver = p.lowest m + 1 then
          (match x.2.1.loc with | some (.dpa a) => some (a, some (x.2.2.addr * 128)) | _ => none)
        else none
    | ls => ls.map fun l => (l * 128, none)

/-- The request of a list or a fetch. -/
def State.shAsk (s : State) (op : Nat) (o : EngOp) (w : Nat × Option Nat) : State :=
  let f := s.func o.fn
  s.addReq { op := op, kind := .read [], va := w.2, loc := some (.dpa w.1), len := 128, dst := false, handle := 0, stage := .created,
             deferred := false, tag := s.opTag o, owner := f.owner, gen := f.gen, bits := 12, far := none, farLoc := none }

/-- R164: the groups that a refused look, list or fetch takes down. -/
def State.shLost (s : State) (op : Nat) (o : EngOp) (p : ShProg) : List Nat :=
  let bad := s.reqs.filter fun e => e.2.op == op && !e.2.kind.writes && e.2.stage == .refused
  let mans := bad.flatMap fun e => if e.2.kind.gives.isEmpty
    then p.openGroups.filter fun m => (s.shWants op o p).any fun w => e.2.asks op w.1 w.2 &&
      ((s.shToList o.fn p m).contains (w.1 / 128) || (s.shGroup op p m).any fun x => some (x.2.2.addr * 128) == w.2)
    else [s.shGroupOf p e.2]
  (nubBy mans).filter fun m => m != 0 && !p.refused.contains m && !p.gaveUp.contains m

/-- R164: the source lines whose look has been refused, each as its sidecar stands: what the result says of the source lines counts them
(log 52). -/
def State.shUnseen (s : State) (op : Nat) (p : ShProg) : List Seen :=
  (s.reqs.filter fun e => e.2.op == op && !e.2.kind.gives.isEmpty && e.2.stage == .refused).filterMap fun e =>
    match e.2.va with
    | some v =>
      if p.lines.any fun x => x.source && x.addr == v / 128 then none
      else
        let man := s.shGroupOf p e.2
        match e.2.loc with
        | some (.dpa a) => if man = 0 then some ⟨v / 128, true, 0, 0, 0, 0, [], none⟩
          else some ⟨v / 128, true, bitsOf (s.sidecar a 0) 63 32, bitsOf (s.sidecar a 0) 31 0, man, s.lineState a, [], none⟩
        | _ => some ⟨v / 128, true, 0, 0, 0, 0, [], none⟩
    | none => none

/-- R164: a group of which a request was refused takes no further step; what is left of it, and of one that gave up, is dropped. The
requests that the next list or fetch needs are made, and those that are not needed any more are over. -/
def State.settleShread (s : State) (op : Nat) : State :=
  match KMap.get s.ops op with
  | none => s
  | some o => match o.sh with
    | none => s
    | some p0 =>
      let un := s.shUnseen op p0
      let p : ShProg := { p0 with plain := p0.plain || un.any fun x => x.name == 0, lines := p0.lines ++ un }
      let p1 : ShProg := { p with refused := p.refused ++ s.shLost op o p }
      let s1 := (p1.refused ++ p1.gaveUp).foldl (fun s m => if m = 0 ∨ (s.shGroup op p1 m).isEmpty then s else s.shDrop op m p1)
        (s.modSh op fun _ => p1)
      let wants := s1.shWants op o p1
      let over_ (r : Req) : Bool := r.op == op && !r.kind.writes && r.kind.gives.isEmpty && r.stage != .done && r.stage != .refused &&
        !wants.any fun w => r.asks op w.1 w.2
      let s2 : State := { s1 with reqs := s1.reqs.map fun e => (e.1, if over_ e.2 then { e.2 with stage := .done, deferred := false } else e.2) }
      (wants.filter fun w => !s2.reqs.any fun e => e.2.asks op w.1 w.2 && e.2.stage != .done && e.2.stage != .refused).foldl
        (fun s w => s.shAsk op o w) s2

def State.settleShreads (s : State) : State := (s.ops.filter fun e => e.2.sh.isSome).foldl (fun s e => s.settleShread e.1) s

/-! ### Events -/

def execSealManifestWrite (e : Nat) (s : State) : Out := .next (s.manifestStep e)
def execSeal (e home : Nat) (s : State) : Out := .next (s.sealStep e home)
def execAbort (e home : Nat) (s : State) : Out := .next (s.abortStep e home)
def execShreadLook (op line : Nat) (s : State) : Out := .next (s.lookStep op line)
def execShreadList (op line : Nat) (s : State) : Out := .next (s.listStep op line)
def execShreadFetch (op line : Nat) (s : State) : Out := .next (s.fetchStep op line)

/-- R64: a peer, or a poisoned second-tier line (R384), refuses a request that has been sent and not performed, or a step of
an SHREAD; a flit that is still held has not reached the peer (R117). -/
def execPeerRefusal (q : Nat) (s : State) : Out :=
  .next (match KMap.get s.reqs q with
    | some r =>
      (match r.loc with
      | some (.dpa a) =>
        if s.linkOut a then s
        else if devOf a ≠ s.devnum ∨ (isSecondTier (localOf a) ∧ r.kind.reads) then
          if r.stage = .fabric ∨ r.stage = .queued then s.refuse q 5 0 0 else s
        else s
      | _ => s)
    | none => s)

/-- R156: the sidecar of a line is cleared. -/
def State.clearSidecar (s : State) (a : Nat) : State := (List.range 4).foldl (fun s w => s.putSidecar a w 0) s

/-- R157, R320: the members' sidecars and the directory line are cleared. -/
def State.freeName (s : State) (fn name : Nat) (ls : List Nat) : State :=
  let d := s.dirLine fn name
  let s1 := ls.foldl State.clearSidecar s
  ((if s.inSheafRegion d then s1.clearSidecar d else s1).memWrite (s.func fn).owner d (List.replicate 128 0)).touchLines
    ((ls ++ [d]).map fun a => (a, 0))

/-- R157: SDFREE; it waits for lines that a slot keeps from their homes (R135), and for links (R117). -/
def execSdfree (fn name : Nat) (s : State) : Out :=
  .next (
    let (m, held, _) := s.manifestOf fn name
    let ls := (s.members fn m).map Prod.fst
    if (s.func fn).sdsize = 0 ∨ name = 0 ∨ held ≠ name ∨ s.nameBusy fn name then s
    else if (ls ++ [s.dirLine fn name]).any (fun a => s.hbmShut a || s.linkShut a) then s.holdStep ⟨.sdfree fn name, 0, []⟩
    else s.freeName fn name ls)

end Sys2Proof.Machine
end

