-- ==== Sys2Proof/Machine/Order.lean ====
section
/-!
DEFINITION. FENCE, FWAIT and WAITC (R129 to R133), and which of a context's accesses have performed at a scope.
-/

namespace Sys2Proof.Machine

/-! ### What has performed (R127, R129) -/

/-- R129: a local store, by its place in the issue order, has not performed at a scope (0 group, 1 team, 2 and more: cluster
to system). At team scope DRAIN suffices when the team lives on one core. -/
def State.storePending (s : State) (gid : Nat) (g : Group) (scope seq : Nat) : Bool :=
  let inFifo := g.fifo.any fun e => e.seq == seq && (match e.kind with | .store .. => true | _ => false)
  let inOq := (KMap.getD s.oq g.core []).any fun e => e.gid == gid && e.seq == seq
  let oneCore : Bool := match s.teamOf g with | some t => decide (t.cores.length ≤ 1) | none => true
  if scope = 0 then false else if scope = 1 ∧ oneCore then inFifo else inFifo || inOq

/-- The local stores of a context that have not performed at a scope. -/
def State.storesPending (s : State) (gid : Nat) (g : Group) (scope : Nat) : List Nat :=
  ((g.fifo.map FifoEntry.seq) ++ ((KMap.getD s.oq g.core []).filter fun e => e.gid == gid).map OqEntry.seq).filter
    fun q => s.storePending gid g scope q

/-- The local loads and atomics of a context whose steps have not all been taken. -/
def Group.loadsPending (g : Group) : List Nat :=
  (g.longs.filter fun l => (nextPiece l.kind.pieces).isSome).map LongOp.id

/-- R129: a host-window write of the operation has been posted, and no flushing read has come back behind it. -/
def Group.unflushed (g : Group) (o : Nat) : Bool := g.hostWrites.any fun w => w.1 == o

/-- R127: an engine operation has still to perform, or to retire with its failure. -/
def State.opPending (s : State) (o : Nat) : Bool :=
  match KMap.get s.ops o with
  | some x => !s.opOver o x || x.failed.isSome
  | none => false

/-! ### FENCE and FWAIT (R130, R131) -/

/-- R129, R130: the fence in a slot has completed. -/
def State.fenceDone (s : State) (gid : Nat) (g : Group) (f : FenceSlot) : Bool :=
  !f.ops.any s.opPending && !(f.scope == 6 && f.ops.any g.unflushed) && !f.stores.any (s.storePending gid g f.scope) && !f.loads.any (g.loadsPending.contains ·)

def Group.fence (g : Group) (k : Nat) : FenceSlot := g.fences.getD k ⟨0, 0, [], [], []⟩

/-- R130: the classes of a mask. -/
def maskClasses (m : Nat) : List EngClass :=
  (if m.testBit 1 then [.copy] else []) ++ (if m.testBit 2 then [.gather] else []) ++ (if m.testBit 3 then [.atomic] else []) ++
    (if m.testBit 4 then [.matrix] else [])

/-- R130: the covered set of a FENCE now. An operation that completed as failed has not performed: it is covered until its fault
has been taken (R59, log 38). At system scope a host-window write is, until a flushing read has come back. -/
def State.covered (s : State) (gid : Nat) (g : Group) (scope m serial : Nat) : FenceSlot :=
  { serial := serial, scope := scope
    ops := (((maskClasses m).flatMap fun c => s.opsOf gid c).filter s.opPending) ++
      (g.failed.filter fun f => (maskClasses m).contains f.cls).map FailedOp.id ++
      (if scope = 6 then (g.hostWrites.filter fun w => (maskClasses m).contains w.2).map Prod.fst else [])
    stores := if m.testBit 0 then s.storesPending gid g scope else []
    loads := if m.testBit 0 then g.loadsPending else [] }

/-- R130: a FENCE that had to wait for its slot waits for what it covers, and takes the deferred faults of it (R59). -/
def Iss.waited (i : Iss) : Bool := i.gang.hold == .retry

/-- The context number under which a group's flushing reads run: they count in no class of the group (log 22). -/
def flushGid (gid : Nat) : Nat := 2 ^ 48 + gid

/-- R59, R130: the held operations on which a FENCE that finds no slot waits: those that the fences in the slots cover, once none of these can
complete without one (log 119). -/
def State.fencesHeld (s : State) (g : Group) : List Nat :=
  let held (k : Nat) : List Nat := (g.fence k).ops.filter s.isHeld
  if (List.range 8).any fun k => (held k).isEmpty then [] else (List.range 8).flatMap held

/-- R129: the I/O die posts one flushing read behind the host-window writes of `ops`. -/
def State.flush (s : State) (gid : Nat) (g : Group) (ops : List Nat) : State :=
  if ops = [] then s
  else
    let op : EngOp :=
      { gid := flushGid gid, cls := .copy, ord := 0, kind := .flush ops, pc := 0, started := false, failed := none, buf := [], have_ := [],
        bar := none, sh := none, fn := s.fnOf g, optag := 0, swept := false, nib := 0, dev := s.devnum, made := 0, cost := 0 }
    { s with ops := KMap.put s.ops s.nextOp op, nextOp := s.nextOp + 1 }

def execFence (d : Opnd) (scope mask : Byte) (s : State) : Out :=
  s.insn (fun i => [quillOpnds i [d], scaChk 1 d, failIf (decide (6 < scope.toNat)) 2 2,
      failIf (decide (mask.toNat = 0) || decide (32 ≤ mask.toNat)) 2 3]) fun i =>
    let m := mask.toNat
    match (List.range 8).find? fun k => s.fenceDone i.gid i.g (i.g.fence k) with
    | none => s.awaitOps i (s.fencesHeld i.g) [] fun s => s.retry i
    | some k =>
      let serial := ((i.g.fence k).serial + 1) % 256
      let slot := s.covered i.gid i.g scope.toNat m serial
      let failed := if i.waited then i.g.failed.filter fun f => (i.g.fence k).ops.contains f.id else []
      if failed ≠ [] then s.awaitOps i [] failed fun s => s
      else
        let s1 := (s.modIss i fun g => { g with fences := listSet ⟨0, 0, [], [], []⟩ slot g.fences k }).writeS i.gid (scaNo d)
          (dword (serial * 256 + k))
        if scope.toNat = 6 then s1.flush i.gid i.g slot.ops else s1

def execFwait (tok : Opnd) (u : BitVec 16) (s : State) : Out :=
  s.insn (fun i => [quillOpnds i [tok], scaChk 1 tok,
      failIf (decide (bitsOf (i.uni64 tok).toNat 63 16 ≠ 0) || decide (bitsOf (i.uni64 tok).toNat 7 3 ≠ 0)) 2 1] ++ zero16 u) fun i =>
    let t := (i.uni64 tok).toNat
    let f := i.g.fence (bitsOf t 2 0)
    if f.serial = bitsOf t 15 8 then
      s.awaitOps i (f.ops.filter s.opPending) (i.g.failed.filter fun x => f.ops.contains x.id) fun s =>
        if s.fenceDone i.gid i.g f then s else s.retry i
    else s

/-! ### WAITC (R132) -/

def execWaitc (cls : Byte) (n : BitVec 16) (s : State) : Out :=
  s.insn (fun _ => [failIf (decide (3 < cls.toNat)) 2 1, failIf (decide (63 < n.toNat)) 2 2]) fun i =>
    match classOf cls.toNat with
    | none => s
    | some c =>
      let ops := s.opsOf i.gid c
      if ops = [] ∧ n.toNat < s.counter i.gid c then s.retry i
      else s.awaitOps i (ops.take (s.counter i.gid c - n.toNat))
        (i.g.failed.filter fun f => f.cls == c && decide (f.ord + n.toNat ≤ KMap.getD i.g.issued (classIndex c) 0)) fun s => s

end Sys2Proof.Machine
end

