-- ==== Sys2Proof/Machine/Barriers.lean ====
section
/-!
DEFINITION. Barrier instructions (R286 to R289) and PARK (R290, R291). The barriers themselves are in Machine/Ops.lean.
-/

namespace Sys2Proof.Machine

/-- R134: the scope at which a context's local stores must have performed before it arrives. -/
def BarCode.scope : BarCode → Nat
  | .gb _ => 0
  | .tb _ => 1
  | .cb _ => 2
  | .xb _ => 4

/-- R59, R352: a barrier wait or PARK covers every operation of the context: a held one fault-parks it, and a failed one gives
its deferred fault; it waits for none. -/
def State.atWait (s : State) (i : Iss) (k : State → State) : State :=
  s.awaitOps i ((s.opsAll i.gid).filter s.isHeld) i.g.failed k

/-- R282: the barrier code of a field. -/
def codeChk (fld : Nat) (b : Byte) : Chk := failIf (barCode b).isNone 2 fld

/-- R179: some nib of the issuing gang is masked. -/
def Iss.masked (i : Iss) : Bool := i.gang.nibs.any fun n => (i.g.nib n).masked

/-- R286: the misuse fault, or the effect. -/
def State.barUse (s : State) (i : Iss) (c : BarCode) (arrives : Bool) (k : State → State) : State :=
  if !s.barEnabled i.g c then s.trap i 0x0E 1
  else if arrives ∧ !s.barMember i.g c then s.trap i 0x0E 2
  else k s

/-- R134, R286, R287: the arrival of the issuing gang's active threads, and what follows it. The fault of an arrival in excess is
raised after the completion step; a predicted launch stalls before the instruction, and nothing has been counted (R36). -/
def State.arriveAt (s : State) (i : Iss) (c : BarCode) (k : State → State) : State :=
  if s.storesPending i.gid i.g c.scope ≠ [] then s.retry i
  else
    let key := s.barKey i.gid i.g c
    let b := s.bar key
    let n := (threadsOf i.active).length
    let s1 := s.barArrive i.gid c key i.active
    if n ≤ b.e - b.a then k s1 else (if s.speculative i.g then s else s1).trap i 0x0E 3

/-- R179, R282 to R286. A masked nib takes the divergence fault also where the barrier is not enabled, or the group no member (log 136, DESIGN
CHOICE); so in BARW. -/
def execBar (ua ub b : Byte) (s : State) : Out :=
  s.insn (fun i => [quillChk i false, zeroChk 1 ua, zeroChk 2 ub, codeChk 3 b, failIf i.masked 0x0A 2]) fun i =>
    match barCode b with
    | some c => s.barUse i c true fun s => s.atWait i fun s => s.arriveAt i c fun s => s.barWait i c (.barrier b) none
    | none => s

def execBara (ua ub b : Byte) (s : State) : Out :=
  s.insn (fun i => [quillChk i false, zeroChk 1 ua, zeroChk 2 ub, codeChk 3 b]) fun i =>
    match barCode b with
    | some c => s.barUse i c true fun s => s.arriveAt i c fun s => s
    | none => s

def execBarw (ua ub b : Byte) (s : State) : Out :=
  s.insn (fun i => [quillChk i false, zeroChk 1 ua, zeroChk 2 ub, codeChk 3 b, failIf i.masked 0x0A 2]) fun i =>
    match barCode b with
    | some c => s.barUse i c false fun s => s.atWait i fun s => s.barWait i c (.barrier b) none
    | none => s

/-- R288: C names a team barrier. -/
def isTeamBar (b : Byte) : Bool := match barCode b with | some (.tb _) => true | _ => false

def execBarx (ua : Byte) (n : Opnd) (b : Byte) (s : State) : Out :=
  s.insn (fun i => [quillOpnds i [n], zeroChk 1 ua, failIf (!Opnd.isUni n) 2 2,
      valueChk 2 n (decide (0x7FFFFFFF < i.uni32 n)), failIf (!isTeamBar b) 2 3, litChk n (decide (0x7FFFFFFF < i.uni32 n))]) fun i =>
    match barCode b with
    | some c => s.barUse i c false fun s =>
      let key := s.barKey i.gid i.g c
      if 2147483647 < (s.bar key).c + (i.uni32 n : Int) then s.trap i 0x0E 4 else s.barBytes key (i.uni32 n)
    | none => s

/-- R289. -/
def State.barq (s : State) (i : Iss) (c : BarCode) : Nat :=
  if s.barEnabled i.g c then
    let b := s.bar (s.barKey i.gid i.g c)
    let w := !i.g.quill && (i.g.nib i.gang.id).phase.getLsbD c.bit
    (BitVec.ofInt 32 b.c).toNat * 2 ^ 32 + b.p % 2 * 2 ^ 31 + (if w then 2 ^ 30 else 0) + (b.e - b.a) % 2 ^ 30
  else 0

def execBarq (d : Opnd) (ub b : Byte) (s : State) : Out :=
  s.insn (fun i => [quillOpnds i [d], scaChk 1 d, zeroChk 2 ub, codeChk 3 b]) fun i =>
    match barCode b with
    | some c => s.writeS i.gid (scaNo d) (dword (s.barq i c))
    | none => s

/-! ### PARK (R290) -/

/-- R290: the literal of the barrier form. -/
def parkBarChk (i : Iss) (cond : Word) : Chk :=
  failIf (decide (256 ≤ cond.toNat) || (barCode (byte cond.toNat)).isNone || i.g.quill) 2 4

def execParkBarrier (u : Byte) (off : BitVec 16) (cond : Word) (s : State) : Out :=
  s.insn (fun i => [zeroChk 1 u, parkBarChk i cond]) fun i =>
    let b := byte cond.toNat
    match barCode b with
    | some c => s.barUse i c false fun s => s.atWait i fun s =>
        s.barWait i c (.park (.barrier b) (i.target off.toInt)) (some (i.target off.toInt))
    | none => s

/-- R290: the literal of the counter form. -/
def parkCtrChk (cond : Word) : Chk :=
  let n := cond.toNat
  failIf (decide (bitsOf n 30 10 ≠ 0) || decide (bitsOf n 7 6 ≠ 0)) 2 4

def execParkCounter (u : Byte) (off : BitVec 16) (cond : Word) (s : State) : Out :=
  s.insn (fun _ => [zeroChk 1 u, parkCtrChk cond]) fun i =>
    match classOf (bitsOf cond.toNat 9 8) with
    | none => s
    | some c => s.atWait i fun s =>
      let n := bitsOf cond.toNat 5 0
      if s.counter i.gid c ≤ n then s.goTo i (i.target off.toInt)
      else s.modGang i fun k => { k with hold := .park (.counter c n) (i.target off.toInt), clause := none }

/-- R290, R291: a parked gang whose condition has become true goes on at its continuation; for a barrier each nib's phase bit toggles
(R285). -/
def Group.reactivate (g : Group) (k : Gang) : Group :=
  let go (g : Group) (cont : DWord) : Group := g.modGang k.id fun k => { k with hold := .none, pc := cont, clause := none }
  match k.hold with
  | .park (.met b) cont =>
    (match barCode b with
    | some c => go (k.eachNib.foldl (fun g n => g.modNib n fun y => { y with phase := y.phase ^^^ (1#32 <<< c.bit) }) g) cont
    | none => g)
  | .park .ready cont => go g cont
  | _ => g

/-- PARK_REACTIVATE. A gang of a context that is out waits for its return (R291). -/
def execParkReactivate (g n : Nat) (s : State) : Out :=
  .next (match s.group g with
    | none => s
    | some x =>
      if x.presence ≠ .here then s else
      match x.gang n with
      | none => s
      | some k => s.setGroup g (x.reactivate k))

end Sys2Proof.Machine
end

