-- ==== Sys2Proof/Machine/Launching.lean ====
section
/-!
DEFINITION. Context regions (R78), launch records and their checks (R313, R314), the start of a job (R308, R332), the placement of a team
(R181, R191, R344), its admission (R13, R84, R184 to R186, R194, R282, R283), and the task table (R299, R300, R337 to R339).
-/

namespace Sys2Proof.Machine

/-! ### Context regions (R78) -/

/-- R78: an image in units of 64 KiB, to which images are aligned. -/
def imageUnits (stack : Nat) : Nat := (0xD000 + 64 * stack + 65535) / 65536

/-- Up to `want` images of `units` units each among `left` units from unit `u` on, lowest first, after `skip` units (log 84). -/
def fitImages (units : Nat) (free : Nat → Bool) : Nat → Nat → Nat → Nat → List Nat
  | _, 0, _, _ => []
  | want, left + 1, u, skip + 1 => fitImages units free want left (u + 1) skip
  | 0, _ + 1, _, 0 => []
  | want + 1, left + 1, u, 0 =>
    if units ≤ left + 1 ∧ (List.range units).all (fun i => free (u + i)) then u :: fitImages units free want left (u + 1) (units - 1)
    else fitImages units free (want + 1) left (u + 1) 0

/-- The images of a function's groups: local address and size in units. -/
def State.imagesOf (s : State) (fn : Nat) : List (Nat × Nat) :=
  s.images.filterMap fun e => match s.group e.1 with
    | some g => if s.fnOf g = fn then some (e.2.base / 65536, imageUnits g.stackSize) else none
    | none => none

/-- R78: the reserved part of new images, at these local addresses, is zero. -/
def State.clearReserved (s : State) (fn : Nat) (bases : List Nat) : State :=
  bases.foldl (fun s b => (List.range 13).foldl (fun s k =>
    let line := s.dpaOf fn b / 128 + 19 + k
    s.memPut (s.func fn).owner line (((List.range 128).drop (if k = 0 then 64 else 0)).map fun j => (line * 128 + j, 0))) s) s

/-- R78: where up to `want` further images lie in a function's context region. -/
def State.imageRoom (s : State) (fn stack want : Nat) : List Nat :=
  let f := s.func fn
  let used := s.imagesOf fn
  (fitImages (imageUnits stack) (fun u => !used.any fun x => decide (x.1 ≤ u) && decide (u < x.1 + x.2)) want (f.ctxSize / 65536)
    (f.ctxBase / 65536) 0).map (65536 * ·)

/-! ### Launch records (R313, R314) -/

/-- Word `k` of a little-endian block. -/
def wordAt (bs : List Byte) (k : Nat) : Nat := leVal ((bs.drop (8 * k)).take 8)

def roleOf (x : Nat) : Role where
  lastT := bitsOf x 24 19
  win := bitsOf x 18 15
  partner := bitsOf x 14 13
  paired := x.testBit 12
  minBlk := bitsOf x 11 7
  groups := bitsOf x 6 0

/-- R314: a role is present. -/
def Role.present (r : Role) : Bool := decide (r.groups ≠ 0) || r.paired

/-- R313: the record in 256 bytes. -/
def recordOf (bs : List Byte) : LaunchRec :=
  let w := wordAt bs
  { code := dword (w 0), quill := dword (w 1), traph := dword (w 2), stack := bitsOf (w 3) 63 32, tmem := bitsOf (w 3) 31 0
    roles := [bitsOf (w 4) 31 0, bitsOf (w 4) 63 32, bitsOf (w 5) 31 0, bitsOf (w 5) 63 32].map roleOf
    tbm := w 6, oclass := bitsOf (w 7) 53 52, coop := (w 7).testBit 51, cset := bitsOf (w 7) 50 48, xbm := bitsOf (w 7) 47 32
    cbm := bitsOf (w 7) 31 0, deadline := w 8, budget := w 9 }

def LaunchRec.role (r : LaunchRec) (k : Nat) : Role := r.roles.getD k ⟨0, 0, 0, false, 0, 0⟩

/-- R310: TGRP, when it is given, is role 0's group count. -/
def LaunchRec.withTgrp (r : LaunchRec) (t : Nat) : LaunchRec :=
  if t = 0 then r else { r with roles := listModify (fun x => { x with groups := t }) r.roles 0 }

/-- R184: the groups of a role: a paired role takes its partner's count. -/
def LaunchRec.count (r : LaunchRec) (k : Nat) : Nat :=
  let x := r.role k
  if x.paired then (r.role x.partner).groups else x.groups

/-- R314, detail 2: a reserved bit is set. -/
def recReserved (bs : List Byte) : Bool :=
  let w := wordAt bs
  let raw := [bitsOf (w 4) 31 0, bitsOf (w 4) 63 32, bitsOf (w 5) 31 0, bitsOf (w 5) 63 32]
  decide (bitsOf (w 7) 63 54 ≠ 0) || ((List.range 22).any fun k => w (10 + k) != 0) ||
    raw.any fun x => (roleOf x).present && decide (bitsOf x 31 25 ≠ 0)

/-- R314, detail 3. -/
def LaunchRec.badRoles (r : LaunchRec) (first : Role) : Bool :=
  let bad (k : Nat) : Bool :=
    let x := r.role k
    let y := r.role x.partner
    x.present && (decide (x.minBlk = 0) || decide (24 < x.minBlk) || decide (8 < x.win) || (x.win != 0 && !x.paired) ||
      (x.paired && (x.partner == k || !y.present || y.paired || decide (x.minBlk < x.win) || decide (y.minBlk < x.win))))
  let total := ((List.range 4).map r.count).sum
  !first.present || (List.range 4).any bad || total == 0 || decide (96 < total)

/-- R314, detail 5. -/
def LaunchRec.badMasks (r : LaunchRec) : Bool :=
  let absent := (List.range 4).filter fun k => !(r.role k).present
  let names (m n : Nat) : Bool := (List.range n).any fun b => absent.any fun k => m.testBit (4 * b + k)
  names r.tbm 16 || names r.cbm 8 || names r.xbm 4 || r.cset == 1 || decide (4 < r.cset) || (r.cbm != 0 && r.cset == 0) ||
    (r.xbm != 0 && !r.coop)

/-- R314, detail 6. -/
def LaunchRec.badAddrs (r : LaunchRec) : Bool :=
  [r.code, r.quill, r.traph].any fun a => decide (a.toNat % 4 ≠ 0) || !canonical a.toNat

/-! ### Teams and their places (R181, R184, R185, R191) -/

/-- A group of a team to be placed: R184's numbers, its launched threads, and its minimum grant. -/
structure GroupPlan where
  grp : Nat
  role : Nat
  rgrp : Nat
  threads : Nat
  minBlk : Nat
  win : Nat
  deriving DecidableEq, Repr

/-- R184: the groups of a team, role by role. The partner of several roles holds the widest of their windows (log 95). -/
def LaunchRec.groupPlans (r : LaunchRec) : List GroupPlan :=
  let winOf (k : Nat) : Nat :=
    if (r.role k).paired then (r.role k).win
    else ((List.range 4).filter fun j => (r.role j).paired && (r.role j).partner == k).foldl (fun m j => max m (r.role j).win) 0
  let raw := (List.range 4).flatMap fun k => (List.range (r.count k)).map fun j => (k, j)
  (List.range raw.length).map fun n =>
    let (k, j) := raw.getD n (0, 0)
    let last := (r.role k).lastT
    ⟨n, k, j, if j + 1 = r.count k ∧ last ≠ 0 then last else 64, (r.role k).minBlk, winOf k⟩

/-- R184: two groups of a team belong together: a pair, or two groups paired with the same third (log 95). -/
def LaunchRec.joined (r : LaunchRec) (p q : GroupPlan) : Bool :=
  let x := r.role p.role
  let y := r.role q.role
  q.rgrp == p.rgrp && ((x.paired && x.partner == q.role) || (y.paired && y.partner == p.role) ||
    (x.paired && y.paired && x.partner == y.partner))

/-- R184: the groups that are placed together: a pair, or one group. -/
def LaunchRec.units (r : LaunchRec) : List (List GroupPlan) :=
  let ps := r.groupPlans
  ps.filterMap fun p =>
    let unit := ps.filter fun q => q == p || r.joined p q
    if unit.head? = some p then some unit else none

/-- Blocks that a unit needs: the windows, which end at one block, are held once (R185). -/
def unitBlocks (u : List GroupPlan) : Nat :=
  let wins := u.map GroupPlan.win
  (u.map GroupPlan.minBlk).sum - (wins.sum - wins.foldl max 0)

/-- What a core has left: per sub-core the free blocks and the slots in use; teams, team memory, quill contexts. -/
structure CoreUse where
  subs : List (Nat × List Nat)
  teams : Nat
  tmem : Nat
  quills : Nat
  deriving DecidableEq, Repr

/-- R191: an idle core. -/
def CoreUse.idle : CoreUse := ⟨List.replicate 8 (127, []), 0, 0, 0⟩

/-- R84: the team-memory size. -/
def LaunchRec.tmemSize (r : LaunchRec) : Nat := (r.tmem + 4095) / 4096 * 4096

/-- R185: another context of the family is the one for which the window's blocks are counted: the one of the widest window, and of
equally wide ones the lowest. -/
def State.windowElsewhere (s : State) (gid : Nat) (g : Group) : Bool :=
  (s.family gid g).any fun m => (s.group m).any fun x =>
    decide (g.window < x.window) || (x.window == g.window && decide (m < gid))

/-- R80, R185: blocks that the groups of a sub-core hold, a shared window counted once. -/
def State.blocksHeld (s : State) (core sub : Nat) : Nat :=
  ((s.groups.filter fun e => !e.2.quill && e.2.presence != .away && e.2.core == core && e.2.sub == sub).map fun e =>
    let n := ((List.range 24).filter fun b => e.2.blocks.getLsbD b).length
    if s.windowElsewhere e.1 e.2 then n - e.2.window else n).sum

/-- R81: the free blocks of a sub-core's pool, the emergency block apart. -/
def State.blocksFree (s : State) (core sub : Nat) : Nat :=
  (if KMap.getD s.reserve (8 * core + sub) false then 128 else 127) - s.blocksHeld core sub

/-- What the state leaves of a core. -/
def State.coreUse (s : State) (core : Nat) : CoreUse :=
  let ts := (s.teams.filter fun t => t.2.cores.contains core &&
    s.groups.any fun e => e.2.team == t.1 && e.2.core == core && e.2.presence != .away).map Prod.snd
  { subs := (List.range 8).map fun k =>
      (s.blocksFree core k, (s.groups.filter fun e => !e.2.quill && e.2.presence != .away && e.2.core == core && e.2.sub == k).map fun e => e.2.slot)
    teams := ts.length
    tmem := (ts.map Team.tmemSize).sum
    quills := (s.groups.filter fun e => e.2.quill && e.2.presence != .away && e.2.core == core).length }

/-- R181, R191: the core can take a team at all. -/
def CoreUse.takes (u : CoreUse) (r : LaunchRec) : Bool :=
  decide (u.teams < 16) && decide (u.tmem + r.tmemSize ≤ 0x100000) && (r.quill == 0 || decide (u.quills < 8))

/-- R191: the lowest free slots of a sub-core (log 21). -/
def freeSlots (used : List Nat) : List Nat := (List.range 12).filter fun k => !used.contains k

/-- R181: units onto one core, round-robin from sub-core `at_`, as many as fit: each group's number, sub-core and slot, and
what is left over. -/
def fillCore : List (List GroupPlan) → CoreUse → Nat → List (GroupPlan × Nat × Nat) → List (GroupPlan × Nat × Nat) × CoreUse × List (List GroupPlan)
  | [], c, _, acc => (acc, c, [])
  | u :: us, c, at_, acc =>
    let fits (k : Nat) : Bool :=
      let x := c.subs.getD k (0, [])
      decide (u.length ≤ (freeSlots x.2).length) && decide (unitBlocks u ≤ x.1)
    match ((List.range 8).map fun k => (at_ + k) % 8).find? fits with
    | none => (acc, c, u :: us)
    | some k =>
      let x := c.subs.getD k (0, [])
      let slots := (freeSlots x.2).take u.length
      let put := (List.range u.length).map fun j => (u.getD j ⟨0, 0, 0, 0, 0, 0⟩, k, slots.getD j 0)
      fillCore us { c with subs := listModify (fun _ => (x.1 - unitBlocks u, x.2 ++ slots)) c.subs k } ((k + 1) % 8) (acc ++ put)

/-- Where each group of a team goes: core, group, sub-core, slot. -/
abbrev Places := List (Nat × GroupPlan × Nat × Nat)

/-- R181: the whole team on one core. -/
def placeOnCore (r : LaunchRec) (core : Nat) (u : CoreUse) : Option Places :=
  if u.takes r then
    match fillCore r.units u 0 [] with
    | (acc, _, []) => some (acc.map fun p => (core, p))
    | _ => none
  else none

/-- R181: units over a choice of cores in ascending position, each filled as far as it goes. -/
def fillCores : List (Nat × CoreUse) → List (List GroupPlan) → Places → Option Places
  | [], [], acc => some acc
  | [], _ :: _, _ => none
  | (c, u) :: cs, us, acc =>
    let (put, _, rest) := fillCore us u 0 []
    if put = [] then none else fillCores cs rest (acc ++ put.map fun p => (c, p))

/-- R181: as few cores as suffice, at least two; among equally many, the lowest positions (log 21). -/
def spread (r : LaunchRec) (cores : List (Nat × CoreUse)) : Option Places :=
  let ok := cores.filter fun c => c.2.takes r
  let subsets := sortBy List.length (((List.range 16).map fun m =>
    (List.range ok.length).filterMap fun k => if (15 - m).testBit (3 - k) then ok[k]? else none).filter fun l => decide (2 ≤ l.length))
  (nubBy subsets).findSome? fun l => fillCores l r.units []

/-! ### Where a team may go (R334, R341, R343, R344, R366, R386) -/

/-- R343: HOT, which falls by itself when its cool-down has run out. -/
def State.hotNow (s : State) (core : Nat) : Bool :=
  let c := s.coreReg core
  c.hot && !(match c.cool with | some t => decide (t ≤ s.caln) | none => false)

def State.islandOf (core : Nat) : Nat := core / 48

/-- R344: a core that may take teams of a class now: in service, of the partition, of the pool, not changing, not hot. -/
def State.coreOpen (s : State) (fn oclass core : Nat) : Bool :=
  let c := s.cluster (core / 4)
  c.service && !c.chg && c.cur == oclass && s.islands.contains (core / 48) && s.islandPart (core / 48) == s.fnPart fn &&
    !s.hotNow core

/-- The cores of a die, or of a cluster. -/
def dieCores (die : Nat) : List Nat := (List.range 48).map fun k => 48 * die + k
def clusterCores (cl : Nat) : List Nat := (List.range 4).map fun k => 4 * cl + k

/-- R344: coolest first: temperature, droop, number. -/
def State.coolest (s : State) (cs : List Nat) : List Nat :=
  sortBy (fun c => ((s.coreReg c).temp * 256 + (s.coreReg c).droop) * 1024 + c) cs

/-- R344: the temperature by which a cluster is chosen. -/
def State.clusterHeat (s : State) (cl : Nat) : Nat :=
  ((clusterCores cl).filter fun c => !s.hotNow c).foldl (fun m c => max m (s.coreReg c).temp) 0

/-- R181, R344: one team on one core of `cores`, or else over one cluster of `cls`. -/
def State.placeTeam (s : State) (use : Nat → CoreUse) (fn : Nat) (r : LaunchRec) (cores cls : List Nat) : Option Places :=
  let open_ := cores.filter (s.coreOpen fn r.oclass)
  match (s.coolest open_).findSome? fun c => placeOnCore r c (use c) with
  | some p => some p
  | none =>
    (sortBy (fun cl => s.clusterHeat cl * 64 + cl) cls).findSome? fun cl =>
      spread r (((clusterCores cl).filter (s.coreOpen fn r.oclass)).map fun c => (c, use c))

/-! ### Capacity (R314, detail 7) -/

/-- What a placement leaves of the cores. -/
def afterPlace (use : Nat → CoreUse) (r : LaunchRec) (p : Places) (c : Nat) : CoreUse :=
  let mine := p.filter fun x => x.1 == c
  let u := use c
  if mine = [] then u
  else
    { subs := (List.range 8).map fun k =>
        let here := mine.filter fun x => x.2.2.1 == k
        let x := u.subs.getD k (0, [])
        let need := ((r.units.filter fun w => here.any fun y => w.contains y.2.1).map unitBlocks).sum
        (x.1 - need, x.2 ++ here.map fun y => y.2.2.2)
      teams := u.teams + 1, tmem := u.tmem + r.tmemSize, quills := u.quills + (if r.quill = 0 then 0 else 1) }

/-- `n` teams placed one after another on the cores and clusters given; none if one of them finds no place. -/
def State.placeMany (s : State) (fn : Nat) (r : LaunchRec) (cores cls : List Nat) : Nat → (Nat → CoreUse) → Option (List Places)
  | 0, _ => some []
  | n + 1, use =>
    match s.placeTeam use fn r cores cls with
    | none => none
    | some p => (s.placeMany fn r cores cls n (afterPlace use r p)).map (p :: ·)

/-- The clusters of a function's partition that are in service. -/
def State.partClusters (s : State) (fn : Nat) : List Nat :=
  (List.range 48).filter fun cl => (s.cluster cl).service && s.islands.contains (cl / 12) && s.islandPart (cl / 12) == s.fnPart fn

/-- R314, detail 7: on an idle device of the right class the grid, or a cluster set, would not fit. -/
def State.neverFits (s : State) (fn : Nat) (r : LaunchRec) (teams : Nat) : Bool :=
  let cls := s.partClusters fn
  let cool : State := { s with cores := [], clusters := s.clusters.map fun e => (e.1, { e.2 with chg := false, cur := r.oclass }) }
  let s' : State := { cool with clusters := cls.foldl (fun m c => KMap.put m c { cool.cluster c with cur := r.oclass }) cool.clusters }
  let idle : Nat → CoreUse := fun _ => CoreUse.idle
  (r.coop && (decide (3072 < teams) || (s'.placeMany fn r (cls.flatMap clusterCores) cls teams idle).isNone)) ||
  (r.cset != 0 && !cls.any fun cl => (s'.placeMany fn r (clusterCores cl) [cl] (min r.cset teams) idle).isSome)

/-- R314: the detail of the first failing check of a record of 256 bytes. -/
def State.recordBad (s : State) (fn : Nat) (bs : List Byte) (tgrp teams : Nat) : Option Nat :=
  let raw := recordOf bs
  let r := raw.withTgrp tgrp
  if recReserved bs then some 2
  else if r.badRoles (raw.role 0) then some 3
  else if 1048576 < r.tmem ∨ 65536 < r.stack ∨ r.stack % 4 ≠ 0 then some 4
  else if r.badMasks then some 5
  else if r.badAddrs then some 6
  else if s.neverFits fn r teams then some 7
  else none

/-- R314, R318: the record at a virtual address, as a prediction if one reads it, or the detail of its failure. -/
def State.readRecord (s : State) (pr : Option (Nat × Nat)) (fn : Nat) (addr : DWord) (tgrp teams : Nat) : Except Nat LaunchRec :=
  if !canonical addr.toNat then .error 1
  else match s.readVirt pr fn addr.toNat 0 256 with
    | .error _ => .error 1
    | .ok bs =>
      match s.recordBad fn bs tgrp teams with
      | some d => .error d
      | none => .ok ((recordOf bs).withTgrp tgrp)

/-! ### Jobs (R331, R332) -/

/-- R332: the deadline of a launch that started at CALN `c`. -/
def deadlineAt (c : Nat) (r : LaunchRec) : Nat := if r.deadline = 0 then 2 ^ 64 - 1 else c + r.deadline

/-- R332: the deadline of a launch that starts now. -/
def State.deadlineOf (s : State) (r : LaunchRec) : Nat := deadlineAt s.caln r

/-- R308, R332: a launch starts: its grid enters the ready queue. -/
def State.startLaunch (s : State) (job : JobKind) (fn : Nat) (r : LaunchRec) (args : List DWord) (tag : Nat) (caddr : DWord)
    (teams : Nat) (pred : Option Pred) (use : Nat) : State :=
  let l : Launch :=
    { job := job, use := use, fn := fn, record := r, args := args, tag := tag, caddr := caddr, teams := teams, next := 0, retired := 0
      privileged := s.fnpriv.getLsbD fn, deadline := s.deadlineOf r
      status := none, pred := pred, unread := none, ready := false, ender := 0 }
  { s with launches := KMap.put s.launches s.nextLaunch l, nextLaunch := s.nextLaunch + 1 }

/-- R331: the job number. -/
def JobKind.number : JobKind → Nat
  | .queue f q => 0x1000 + 64 * f + q
  | .task _ n => n

/-! ### Device tasks (R299, R300, R337 to R340) -/

/-- R338, R340: TFAIL records a task, and the task-failure interrupt is raised. -/
def State.taskFail (s : State) (fn n stat : Nat) : State :=
  let s1 := s.modFunc fn fun f => { f with tfail := dword (2 ^ 63 + stat % 256 * 2 ^ 16 + n) }
  { s1 with irqs := s1.irqs ++ [.taskFailure fn] }

/-- R338: the end of a task's launch with another status than 0, or of a task whose record fails. An entry that a TASKQ has taken since
(`use` is not the launch's) is left as it stands. -/
def State.taskBadEnd (s : State) (fn n stat use : Nat) : State :=
  (s.modTask fn n fun t => if t.use = use ∧ (t.st = .running ∨ t.st = .ready) then { t with st := .done, ctr := 0 } else t).taskFail
    fn n stat

/-- R117: the record of a READY task, or its arguments, cannot be read now. -/
def State.taskShut (s : State) (fn : Nat) (t : Task) : Bool :=
  s.virtShut fn t.record.toNat 0 256 || (t.args != 0 && s.virtShut fn t.args.toNat 0 96)

/-- R338: the record and the arguments of a task, read and checked. -/
def State.taskRecord (s : State) (fn : Nat) (t : Task) : Option (LaunchRec × List DWord) :=
  let args : Option (List DWord) :=
    if t.args = 0 then some [] else
    if !canonical t.args.toNat then none else
    match s.readVirt none fn t.args.toNat 0 96 with
    | .ok bs => some ((List.range 12).map fun k => dword (wordAt bs k))
    | .error _ => none
  match s.readRecord none fn t.record 0 1, args with
  | .ok r, some as => some (r, as)
  | _, _ => none

/-- R299, R332, R337, R338: a task becomes READY: its job starts and enters the ready queue in the same step. Its record and its arguments
are read now, or once they can be (`State.takeTask`). -/
def State.startTask (s : State) (fn n : Nat) : State :=
  let t := (s.func fn).task n
  let s1 := s.modTask fn n fun t => { t with st := .ready }
  if s.taskShut fn t then
    (s1.startLaunch (.task fn n) fn (recordOf []) [] 0 0 1 none t.use).modLaunch s.nextLaunch fun l =>
      { l with unread := some (0, t.record, 0), deadline := s.caln }
  else match s1.taskRecord fn t with
    | some (r, as) => s1.startLaunch (.task fn n) fn r as 0 0 1 none t.use
    | none => s1.taskBadEnd fn n 4 t.use

/-- A READY task's job takes its record and its arguments once they can be read; a record that fails its check ends it (R338). -/
def State.takeTask (s : State) (l : Nat) : State :=
  match KMap.get s.launches l with
  | some x =>
    (match x.job with
    | .task fn n =>
      let t := (s.func fn).task n
      if x.unread.isNone ∨ x.status.isSome ∨ s.taskShut fn t then s
      else match s.taskRecord fn t with
        | some (r, as) => s.modLaunch l fun x => { x with unread := none, record := r, args := as, deadline := deadlineAt x.deadline r }
        | none => ({ s with launches := KMap.del s.launches l }).taskBadEnd fn n 4 x.use
    | .queue .. => s)
  | none => s

def State.settleTasks (s : State) : State := (s.launches.filter fun e => e.2.unread.isSome).foldl (fun s e => s.takeTask e.1) s

/-- R300: the step of TASKDONE, or the detail of its fault. -/
def State.taskDone (s : State) (fn n : Nat) : Except Nat State :=
  let t := (s.func fn).task n
  let short (m : Nat) : Bool := decide (((s.func fn).task m).ctr < (t.succ.filter (· == m)).length)
  if t.st = .free ∨ t.st = .waiting then .error 2
  else if t.succ.any short then .error 1
  else
    -- R338: TASKDONE of a READY entry withdraws the job
    let s0 : State := if t.st = .ready then { s with launches := s.launches.filter fun e => e.2.job != .task fn n || e.2.use != t.use || decide (0 < e.2.next) } else s
    let s1 := s0.modTask fn n fun t => { t with st := .done, ctr := 0 }
    .ok (t.succ.foldl (fun s m =>
      let s2 := s.modTask fn m fun t => { t with ctr := t.ctr - 1 }
      let u := (s2.func fn).task m
      if u.ctr = 0 ∧ u.st = .waiting then s2.startTask fn m else s2) s1)

/-- R299: TASKQ's step. -/
def State.taskQueue (s : State) (fn n deps : Nat) (succ : List Nat) (record args : DWord) : State :=
  let s1 := s.modTask fn n fun _ => { use := s.turn, st := .waiting, ctr := deps, succ := succ, record := record, args := args }
  if deps = 0 then s1.startTask fn n else s1

/-! ### Admission of a team (R13, R84, R184 to R186, R194, R228, R282, R283) -/

/-- R10, R194: a group's state at its start. -/
def groupStart (l : Nat) (x : Launch) (team number : Nat) (core slice : Nat) (quill : Bool) (p : GroupPlan) (sub slot : Nat)
    (partner : Option Nat) : Group :=
  let threads := if quill then 1 else p.threads
  let entry := if quill then x.record.quill else x.record.code
  let nib (n : Nat) : Nib :=
    let k := min 16 (threads - 16 * n)
    ⟨decide (0 < k), BitVec.ofNat 16 (2 ^ k - 1), [], 0⟩
  let nibs := (List.range 4).map nib
  let live := (List.range 4).filter fun n => decide (16 * n < threads)
  let held := (List.range 24).filter fun b => decide (b < p.minBlk - p.win) || decide (24 - p.win ≤ b)
  let g : Group :=
    { quill := quill, launch := l, team := team, teamNo := number, grp := p.grp, role := p.role, rgrp := p.rgrp, core := core, sub := sub, slot := slot
      slice := slice, launched := BitVec.ofNat 64 (2 ^ threads - 1), partner := partner, minBlocks := p.minBlk, window := p.win
      stackSize := x.record.stack, v := [], s := (List.range x.args.length).map fun k => (k, x.args.getD k 0), p := []
      xflg := [], nibs := nibs, gangs := [⟨live, entry, none, .none, 0, 0, 0⟩], snaps := [], nextSnap := 0, instCtr := 0
      forms := [8, 8, 8, 8], raises := [], clauseSerial := 0, longs := [], nextSeq := 0, fifo := [], issued := [], failed := []
      fences := [], arrived := [], stack := [], blocks := if quill then 0 else held.foldl (fun m b => m ||| (1#24 <<< b)) 0
      actl := 1, trpc := 0, tcau := 0, tnib := 0, tmsk := 0, trgn := 0, gcyc := 0, enrg := 0, h := false, save := none
      faultParked := false, offCore := false, budgetDue := false, ended := false, stopped := false, presence := .here, age := 0, chosen := 0, chosenClock := 0, yielded := none, yld := false, hostWrites := [], skew := [], gidnAs := none
      owed := [] }
  g.openRegion (live.headD 0) entry

/-- R283: the launched threads of a new member join the expected arrivals of its barriers. -/
def State.expect (s : State) (gid : Nat) (g : Group) : State :=
  allBarCodes.foldl (fun s code => match barCode code with
    | some c => if s.barEnabled g c ∧ s.barMember g c then
        let k := s.barKey gid g c
        let b := s.bar k
        s.setBar k { b with e := b.e + (threadsOf g.launched).length } else s
    | none => s) s

/-- One team at its places: its groups with their images (R78), one quill context per core (R186), its memory clear (R84), its barriers. -/
def State.admitTeam (s : State) (lid : Nat) (l : Launch) (number slice : Nat) (ps : Places) : State :=
  let tid := s.nextTeam
  let ps := sortBy (fun p => p.2.1.grp) ps
  let cores := sortBy id (nubBy (ps.map Prod.fst))
  let team : Team := { launch := lid, number := number, cores := cores, tmemSize := l.record.tmemSize, tmem := [], dq := [], slice := slice, spread := decide (1 < cores.length), popped := [] }
  let base := s.nextGid
  -- of several groups paired with it, a partner's mate is one of the widest window; the others name it as theirs (log 95)
  let mate (p : GroupPlan) : Option Nat :=
    (ps.find? fun q => q.2.1.grp != p.grp && q.2.1.rgrp == p.rgrp &&
      (((l.record.role p.role).paired && (l.record.role p.role).partner == q.2.1.role) ||
        ((l.record.role q.2.1.role).paired && (l.record.role q.2.1.role).partner == p.role && q.2.1.win == p.win))).map
      fun q => base + q.2.1.grp
  let groups := ps.map fun p => (base + p.2.1.grp, groupStart lid l tid number p.1 slice false p.2.1 p.2.2.1 p.2.2.2 (mate p.2.1))
  let quills := if l.record.quill = 0 then [] else (List.range cores.length).map fun k =>
    let core := cores.getD k 0
    let used := (s.groups.filter fun e => e.2.quill && e.2.presence != .away && e.2.core == core).map fun e => e.2.slot
    (base + ps.length + k, groupStart lid l tid number core slice true ⟨0, 0, 0, 1, 0, 0⟩ 8
      (((List.range 8).find? fun x => !used.contains x).getD 0) none)
  let room := s.imageRoom l.fn l.record.stack groups.length
  let s1 : State := { s with
    images := (groups.zip room).foldl (fun m x => KMap.put m x.1.1 ⟨x.2, [], []⟩) (s.images.filter fun e => (s.group e.1).isSome)
    teams := KMap.put s.teams tid team, nextTeam := tid + 1
    groups := (groups ++ quills).foldl (fun m e => KMap.put m e.1 { e.2 with age := s.turn, chosenClock := (s.cluster (e.2.core / 4)).clock }) s.groups
    nextGid := base + ps.length + quills.length }
  (groups.foldl (fun s e => s.expect e.1 e.2) s1).clearReserved l.fn room

end Sys2Proof.Machine
end

