-- ==== Sys2Proof/Machine/System.lean ====
section
/-!
DEFINITION. The decision queue, register blocks, forms, control registers, SLOTQ, tasks, ERET, HALT and SIGNAL (R292 to R304),
and the steps that end their holds: DQPOP's turn, REGGET_GRANT, SERVICE_REQUEST_POST and SERVICE_REPLY (R81, R293, R361).
-/

namespace Sys2Proof.Machine

/-! ### Holds that end by another step -/

/-- The gang waits at its instruction with `h`; the instruction counts as not yet issued (R21). -/
def State.holdAt (s : State) (i : Iss) (h : Hold) : State :=
  s.modGang i fun k => { k with hold := h, clause := k.clause.map fun c => { c with next := c.cur } }

/-- Gang `n` of a context, as the issuer of the instruction that it holds at. -/
def State.issuerAt (s : State) (gid n : Nat) : Option Iss :=
  match s.group gid with
  | none => none
  | some g =>
    match g.gang n with
    | none => none
    | some k => k.clause.map fun c => ⟨gid, g, k, c⟩

/-- The index of the word that follows the instruction at `cur`. -/
def ClauseBuf.past (c : ClauseBuf) : Nat :=
  match decode (c.words.drop c.cur) with
  | .ok (_, r) => c.words.length - r.length
  | .error _ => c.cur + 1

/-- The held instruction has issued: the gang goes on behind it. -/
def State.passHold (s : State) (i : Iss) : State :=
  s.modGang i fun k => { k with hold := .none, clause := k.clause.map fun c => { c with next := c.past } }

/-! ### The decision queue (R134, R188, R292) -/

def Team.queueOf (t : Team) (core : Nat) : List DWord := KMap.getD t.dq core []

/-- R292: the place of a context's DQPOP at a clock of its cluster: by clock, then by sub-core and slot. -/
def Group.popKey (g : Group) (clock : Nat) : Nat := clock * 128 + g.sub * 16 + g.slot

/-- R292: gangs of a team on a core that wait in DQPOP, in their order, those of one group at one clock in that of their issues; one that the budget trap takes out of it waits no more (R336). -/
def State.popWaiters (s : State) (team core : Nat) : List (Nat × Nat × Opnd) :=
  let all := s.groups.flatMap fun e =>
    if e.2.team = team ∧ e.2.core = core ∧ !e.2.quill ∧ !e.2.faultParked ∧ !e.2.offCore ∧ e.2.presence = .here then
      (sortBy Gang.lastIssue e.2.gangs).filterMap fun k => match k.hold with
        | .dqpop d => if e.2.budgetReady k then none else some (e.2.popKey k.clock, e.1, k.id, d)
        | _ => none
    else []
  (sortBy Prod.fst all).map Prod.snd

/-- R292: a waiting DQPOP takes the oldest entry. -/
def State.serveOnePop (s : State) (team core : Nat) : State :=
  match KMap.get s.teams team with
  | none => s
  | some t =>
    match t.queueOf core, s.popWaiters team core with
    | x :: r, (gid, n, d) :: _ =>
      (match s.issuerAt gid n with
      | some i => (((s.modTeam team fun t => { t with dq := KMap.put t.dq core r }).addLong i
          (.result (match d with | .sca m => [.sca m x] | _ => []))).passHold i)
      | none => s)
    | _, _ => s

/-- R292: the gangs that wait take entries until none waits or the queue is empty. -/
def State.servePops (s : State) (team core : Nat) : State :=
  (s.popWaiters team core).foldl (fun s _ => s.serveOnePop team core) s

def execDqpush (ua : Byte) (v : Opnd) (u : Byte) (s : State) : Out :=
  s.insn (fun i => [failIf (!i.g.quill) 1 4, quillOpnds i [v], zeroChk 1 ua, failIf (!Opnd.isUni v) 2 2, zeroChk 3 u]) fun i =>
    match s.teamOf i.g with
    | none => s
    | some t =>
      if 64 ≤ (t.queueOf i.g.core).length ∨ s.storesPending i.gid i.g 1 ≠ [] then s.retry i
      else (s.modTeam i.g.team fun t => { t with dq := KMap.put t.dq i.g.core (t.queueOf i.g.core ++ [i.uni64 v]) }).serveOnePop
        i.g.team i.g.core

/-- A scalar, or zero. -/
def scaZeroChk (fld : Nat) (o : Opnd) : Chk :=
  match o with
  | .sca _ | .zero => none
  | _ => some (2, fld)

def execDqpop (d : Opnd) (u : BitVec 16) (s : State) : Out :=
  s.insn (fun i => [quillChk i false, scaZeroChk 1 d] ++ zero16 u) fun i =>
    ((s.holdAt i (.dqpop d)).modTeam i.g.team fun t => { t with popped := KMap.put t.popped i.g.core (i.g.popKey i.gang.clock) }).serveOnePop
      i.g.team i.g.core

/-! ### Register blocks (R81, R293) -/

/-- R293: a mask: a scalar or a literal word. -/
def blockMaskChk (fld : Nat) (o : Opnd) : Chk :=
  match o with
  | .sca _ | .lit _ => none
  | _ => some (2, fld)

/-- R293: bits at or above 24, or a window block. -/
def Iss.blocksBad (i : Iss) (o : Opnd) : Bool :=
  decide (2 ^ 24 ≤ i.uni32 o) || BitVec.ofNat 24 (i.uni32 o) &&& i.g.windowMask != 0

def blockCount (m : BitVec 24) : Nat := ((List.range 24).filter fun b => m.getLsbD b).length

/-- R80, R293: the blocks are granted, each reading zero, and the held mask comes under way. -/
def State.grantBlocks (s : State) (i : Iss) (d : Opnd) (want : BitVec 24) : State :=
  let s1 := s.modIss i fun g => { g with blocks := g.blocks ||| want, v := g.v.filter fun e => !want.getLsbD (e.1 / 8) }
  (s1.addLong i (.result (match d with
    | .sca n => [.sca n ((i.g.blocks ||| want).setWidth 64)]
    | _ => []))).passHold i

/-- R293: the gangs of a sub-core that are stalled in REGGET, oldest REGGET first: context, gang, destination, wanted. -/
def State.reggetWaiters (s : State) (unit : Nat) : List (Nat × Nat × Opnd × BitVec 24) :=
  (sortBy Prod.fst (s.groups.flatMap fun e =>
    if !e.2.quill ∧ e.2.presence = .here ∧ 8 * e.2.core + e.2.sub = unit then
      e.2.gangs.filterMap fun k => match k.hold with
        | .regget d w => some (k.lastIssue, e.1, k.id, d, w)
        | _ => none
    else [])).map Prod.snd

/-- R81: every resident group of the sub-core is stalled in REGGET; one that has ended and still holds its blocks is not. -/
def State.allStalled (s : State) (unit : Nat) : Bool :=
  (s.groups.filter fun e => !e.2.quill && e.2.presence == .here && 8 * e.2.core + e.2.sub == unit).all fun e =>
    !e.2.gangs.isEmpty && e.2.gangs.all fun k => match k.hold with | .regget .. => true | _ => false

/-- R81, R293: what the next grant of a sub-core does: the oldest stalled REGGET whole, the emergency block to the
oldest stalled group that it serves, or exhaustion for the oldest stalled group. -/
def State.reggetStep (s : State) (unit : Nat) : State :=
  let free := s.blocksFree (unit / 8) (unit % 8)
  let taken := KMap.getD s.reserve unit false
  let ws := s.reggetWaiters unit
  match ws with
  | [] => s
  | (gid, n, d, want) :: _ =>
    if blockCount want ≤ free then
      (match s.issuerAt gid n with | some i => s.grantBlocks i d want | none => s)
    else if s.allStalled unit then
      (match (sortBy (fun w : Nat × Nat × Opnd × BitVec 24 => w.1) ws).find? fun w =>
          !taken && decide (blockCount w.2.2.2 ≤ free + 1) with
      | some (gid, n, d, want) =>
        (match s.issuerAt gid n with
        | some i => ({ s with reserve := KMap.put s.reserve unit true }).grantBlocks i d want
        | none => s)
      | none =>
        let (gid, n) := match sortBy (fun w : Nat × Nat × Opnd × BitVec 24 => w.1) ws with
          | w :: _ => (w.1, w.2.1)
          | [] => (gid, n)
        (match s.issuerAt gid n with
        | some i => (s.passHold i).takeTrap gid n ⟨7, 0, 0, i.active, i.pc⟩
        | none => s))
    else s

def execReggetGrant (sub : Nat) (s : State) : Out := .next (s.reggetStep sub)

def execRegget (d mask : Opnd) (u : Byte) (s : State) : Out :=
  s.insn (fun i => [quillChk i false, scaZeroChk 1 d, blockMaskChk 2 mask, valueChk 2 mask (i.blocksBad mask),
      zeroChk 3 u, litChk mask (i.blocksBad mask)]) fun i =>
    s.holdAt i (.regget d (BitVec.ofNat 24 (i.uni32 mask) &&& ~~~i.g.blocks))

/-- R293: a REGPUT's mask names a block not held, or one of the minimum grant. -/
def Iss.putBad (i : Iss) (o : Opnd) : Bool :=
  let m := BitVec.ofNat 24 (i.uni32 o)
  m &&& ~~~i.g.blocks != 0 || (List.range 24).any fun b => m.getLsbD b && decide (b < i.g.minBlocks - i.g.window)

def execRegput (ua : Byte) (mask : Opnd) (u : Byte) (s : State) : Out :=
  s.insn (fun i => [quillChk i false, zeroChk 1 ua, blockMaskChk 2 mask,
      valueChk 2 mask (i.blocksBad mask || i.putBad mask), zeroChk 3 u, litChk mask (i.blocksBad mask || i.putBad mask)]) fun i =>
    if s.opsAll i.gid ≠ [] ∨ i.g.longs ≠ [] then s.retry i
    else
      let m := BitVec.ofNat 24 (i.uni32 mask)
      let unit := 8 * i.g.core + i.g.sub
      let s1 := s.modIss i fun g => { g with blocks := g.blocks &&& ~~~m, v := g.v.filter fun e => !m.getLsbD (e.1 / 8) }
      if m ≠ 0 then { s1 with reserve := KMap.put s1.reserve unit false } else s1

/-- R79: a register line arrives. -/
def execRegisterLineFill (g line : Nat) (s : State) : Out := .next (s.fillLine g line)

/-! ### FORM (R32, R294) -/

/-- R32: reserved bits, GUARD 9 to 15, or RND 6 or 7. -/
def badForm (v : Nat) : Bool := decide (2 ^ 15 ≤ v) || decide (8 < bitsOf v 3 0) || decide (5 < bitsOf v 11 9)

def execForm (f : Byte) (v : Opnd) (u : Byte) (s : State) : Out :=
  s.insn (fun i => [quillOpnds i [v], failIf (decide (3 < f.toNat)) 2 1, failIf (!Opnd.isUni v) 2 2,
      valueChk 2 v (badForm (i.uni32 v)), zeroChk 3 u, litChk v (badForm (i.uni32 v))]) fun i =>
    s.modIss i fun g => { g with forms := listSet 8 (word (i.uni32 v)) g.forms f.toNat }

/-! ### Control registers (R7, R67, R182, R201, R204, R295 to R297, R369) -/

/-- R182: GIDN. -/
def State.gidn (s : State) (g : Group) : DWord :=
  match g.gidnAs, s.teamOf g with
  | some x, _ => x
  | none, none => 0
  | none, some t => dword (t.number * 2 ^ 32 + (if t.spread then 2 ^ 31 else 0) + g.core % 4 * 2 ^ 29 + g.role * 2 ^ 27 +
      g.grp * 2 ^ 20 + g.rgrp * 2 ^ 13 + g.sub * 2 ^ 10 + g.slot * 2 ^ 6)

/-- R295: the value of a control register other than XFLG. -/
def State.ctlRead (s : State) (g : Group) (reg : Nat) : DWord :=
  match reg with
  | 0 => g.actl
  | 2 => g.trpc
  | 3 => g.tcau
  | 4 => g.tnib
  | 5 => g.tmsk
  | 6 => g.trgn
  | 7 => g.gcyc
  | 8 => dword s.caln
  | 9 => g.enrg
  | 10 => s.gidn g
  | 11 => if s.privileged g then dword (s.coreReg g.core).parkth else 0
  | _ => 0

/-- R295: the register code exists in this context. -/
def regCodeChk (i : Iss) (fld : Nat) (reg : Byte) : Chk :=
  let n := reg.toNat
  failIf (decide (11 < n) || (i.g.quill && !(n == 0 || n == 7 || n == 8 || n == 11))) 2 fld

/-- R295: XFLG is read into, and written from, a vector register; under a 64-bit type any other register fills an even pair. -/
def ctlrDstChk (i : Iss) (d : Opnd) (reg : Byte) : Chk :=
  if reg.toNat = 1 then vecChk i 1 d false else dstChk i 1 d (wide i.ty)

def execCtlr (d : Opnd) (ub reg : Byte) (s : State) : Out :=
  s.insn (fun i => [quillOpnds i [d], ctlrDstChk i d reg, zeroChk 2 ub, regCodeChk i 3 reg]) fun i =>
    if reg.toNat = 1 then s.putVec i.gid .n32 d i.run fun t => (i.g.flagsOf t).toNat
    else
      let v := s.ctlRead i.g reg.toNat
      match d with
      | .sca n => s.writeS i.gid n v
      | _ => s.putVec i.gid (if wide i.ty then .n64 else .n32) d i.active fun _ =>
          if wide i.ty then v.toNat else v.toNat % 2 ^ 32

/-- R7, R295: a write to a register of read-only fields, or an unprivileged write of PARKTH. -/
def ctlwPriv (s : State) (i : Iss) (reg : Byte) : Chk :=
  let n := reg.toNat
  failIf (n == 7 || n == 8 || n == 10 || (n == 11 && !s.privileged i.g)) 1 2

/-- R295: the operand of CTLW. -/
def ctlwSrcChk (i : Iss) (v : Opnd) (reg : Byte) : Chk :=
  if reg.toNat = 1 then vecChk i 2 v false else failIf (!Opnd.isUni v) 2 2

/-- R201: a DRND that names no mode. -/
def badDrnd (v : Nat) : Bool := let r := v % 8; r == 0 || r == 6 || r == 7
/-- R201: CTLW would give ACTL a DRND that names no mode. -/
def Iss.drndBad (i : Iss) (v : Opnd) (reg : Byte) : Bool := reg.toNat == 0 && badDrnd (i.uni64 v).toNat

/-- R8, R296: a write to a control register keeps to its writable fields. -/
def State.ctlWrite (s : State) (i : Iss) (reg : Nat) (v : DWord) : State :=
  match reg with
  | 0 => s.modIss i fun g => { g with actl := v &&& 0x1F7 }
  | 2 => s.modIss i fun g => { g with trpc := v }
  | 3 => s.modIss i fun g => { g with tcau := v &&& 0xFFFFFFFF }
  | 4 => s.modIss i fun g => { g with tnib := v &&& 0xF3 }
  | 5 => s.modIss i fun g => { g with tmsk := v }
  | 6 => s.modIss i fun g => { g with trgn := v }
  | 9 => s.modIss i fun g => { g with enrg := v }
  | 11 => s.modCoreReg i.g.core fun c => { c with parkth := min 16 (v.toNat % 32) }
  | _ => s

def execCtlw (ua : Byte) (v : Opnd) (reg : Byte) (s : State) : Out :=
  s.insn (fun i => [quillOpnds i [v], ctlwPriv s i reg, zeroChk 1 ua, ctlwSrcChk i v reg,
      valueChk 2 v (i.drndBad v reg), regCodeChk i 3 reg, litChk v (i.drndBad v reg)]) fun i =>
    if reg.toNat = 1 then
      let flags := (List.range 64).map fun t => if i.run.getLsbD t then BitVec.ofNat 5 (i.src .n32 v t) else i.g.flagsOf t
      s.modIss i fun g => { g with xflg := flags }
    else s.ctlWrite i reg.toNat (i.uni64 v)

/-! ### SLOTQ (R109, R298) -/

def slotKindOf (k : Nat) : Option SlotKind :=
  match k with
  | 0 => some .refresh
  | 1 => some .sweep
  | 2 => some .calibration
  | _ => none

/-- R298: what SLOTQ says of a slot: distance, in progress, length or what is left of it: of its scheduled length, or during an
extension of the extension's limit (R113). -/
def State.slotReport (s : State) (k : SlotKind) : Nat × Bool × Nat :=
  let ahead (k : SlotKind) (c : Nat) : Nat × Bool × Nat :=
    let a := nextStart k c
    if k ≠ .calibration ∧ absorbed a then (a / 4000000 * 4000000 - s.caln, false, Config.slotLength .calibration)
    else (a - s.caln, false, Config.slotLength k)
  let holds (x : Slot) : Bool := x.on && (x.kind == k || (x.kind == .calibration &&
    decide (nextStart k x.start < x.start + Config.slotLength .calibration)))
  match s.slots.find? holds with
  | some x => (0, true, (match x.ext with | none => x.stop | some _ => x.start + 2 * Config.slotLength x.kind) - s.caln)
  | none => ahead k s.caln

/-- R298: SLOTQ's result. -/
def State.slotq (s : State) (kind : Nat) : DWord :=
  let r : Nat × Bool × Nat := match slotKindOf kind with
    | some k => s.slotReport k
    | none =>
      let rs := [s.slotReport .refresh, s.slotReport .sweep, s.slotReport .calibration]
      rs.foldl (fun b r => if r.1 < b.1 || (r.2.1 && !b.2.1) then r else b) (s.slotReport .refresh)
  dword (r.1 * 2 ^ 32 + (if r.2.1 then 2 ^ 31 else 0) + (if r.2.1 || decide (r.1 ≤ 600) then 2 ^ 30 else 0) + r.2.2 % 2 ^ 30)

def execSlotq (d : Opnd) (ub kind : Byte) (s : State) : Out :=
  s.insn (fun i => [quillOpnds i [d], scaChk 1 d, zeroChk 2 ub, failIf (decide (3 < kind.toNat)) 2 3]) fun i =>
    s.addLong i (.result [.sca (scaNo d) (s.slotq kind.toNat)])

/-! ### Tasks (R299, R300) and SIGNAL (R303) -/

/-- R129: a flushing read of the context's is under way. -/
def State.flushing (s : State) (gid : Nat) : Bool := s.ops.any fun e => e.2.gid == flushGid gid

/-- R299, R300, R303: every access that the context issued before has performed, at device scope or, for SIGNAL (`sys`), at system
scope: its host-window writes wait for a flushing read, which SIGNAL has posted where no FENCE has (log 22). -/
def State.released (s : State) (i : Iss) (sys : Bool) (k : State → State) : State :=
  s.awaitOps i (s.opsAll i.gid) i.g.failed fun s =>
    if s.storesPending i.gid i.g 4 ≠ [] ∨ i.g.loadsPending ≠ [] then s.retry i
    else if sys ∧ i.g.hostWrites ≠ [] then
      (if s.flushing i.gid then s else s.flush i.gid i.g (i.g.hostWrites.map Prod.fst)).retry i
    else k s

/-- R299: sb: s0 to s44. -/
def taskBlkChk (o : Opnd) : Chk :=
  match o with
  | .sca n => failIf (decide (44 < n)) 2 1
  | _ => some (2, 1)

/-- R299: the valid successors of a TASKQ block. -/
def taskSucc (w1 w2 : Nat) : List Nat :=
  ((List.range 4).filter fun k => w1.testBit (32 + k)).map fun k => bitsOf w2 (16 * k + 15) (16 * k)

def execTaskq (blk : Opnd) (u : BitVec 16) (s : State) : Out :=
  s.insn (fun i => [quillOpnds i [blk], taskBlkChk blk] ++ zero16 u) fun i =>
    let n := scaNo blk
    let w1 := (i.g.sreg (n + 1)).toNat
    let task := bitsOf w1 15 0
    let succ := taskSucc w1 (i.g.sreg (n + 2)).toNat
    if s.speculative i.g then s.stall i 5
    else if bitsOf w1 63 36 ≠ 0 ∨ 4095 < task ∨ succ.any (fun x => decide (4095 < x)) then s.trap i 6 15
    else s.released i false fun s =>
      let st := ((s.func (s.fnOf i.g)).task task).st
      if st = .free ∨ st = .done then
        s.taskQueue (s.fnOf i.g) task (bitsOf w1 31 16) succ (i.g.sreg n) (i.g.sreg (n + 3))
      else s.trap i 6 16

def execTaskdone (ua : Byte) (t : Opnd) (u : Byte) (s : State) : Out :=
  s.insn (fun i => [quillOpnds i [t], zeroChk 1 ua, failIf (!Opnd.isUni t) 2 2,
      valueChk 2 t (decide (4095 < (i.uni64 t).toNat)), zeroChk 3 u, litChk t (decide (4095 < (i.uni64 t).toNat))]) fun i =>
    if s.speculative i.g then s.stall i 5
    else s.released i false fun s =>
      match s.taskDone (s.fnOf i.g) (i.uni64 t).toNat with
      | .ok s' => s'
      | .error d => s.trap i 0x10 d

def execSignal (addr v : Opnd) (op : Byte) (s : State) : Out :=
  s.insn (fun i => [quillOpnds i [addr, v], scaChk 1 addr, failIf (!Opnd.isUni v) 2 2,
      failIf (decide (bitsOf op.toNat 6 2 ≠ 0) || op.toNat % 4 == 3) 2 3]) fun i =>
    let a := i.uni64 addr
    if s.speculative i.g then s.stall i 5
    else if !canonical a.toNat then s.trap i 4 2
    else if a.toNat % 8 ≠ 0 then s.trap i 4 5
    else s.released i true fun s => s.issueWhenReady i .atomic (.signal a (i.uni64 v) (op.toNat % 4) (op.getLsbD 7)) none

/-! ### ERET (R301, R355) and HALT (R302) -/

/-- R355: a flag raised by a clause of the handler is not clear. -/
def Group.handlerFlags (g : Group) : Bool :=
  match g.save with
  | some sv => g.raises.any fun r => decide (sv.since < r.clause) && g.raiseStands r
  | none => false

def execEret (ua ub mode : Byte) (s : State) : Out :=
  s.insn (fun i => [failIf (!i.g.h) 1 5, zeroChk 1 ua, zeroChk 2 ub, failIf (decide (1 < mode.toNat)) 2 3]) fun i =>
    if i.g.handlerFlags then s.retry i else s.modIss i fun g => g.eret mode.toNat s.turn

def execHalt (ua : Byte) (code : BitVec 16) (s : State) : Out :=
  s.insn (fun _ => [zeroChk 1 ua]) fun i =>
    if s.speculative i.g then s.stall i 5
    else s.atWait i fun s => s.stopLaunch i.g.launch (1, 0, code.toNat)

/-! ### Service calls (R237, R360, R361) -/

/-- R310, R360: a local address in HBM, the second tier or the host window, as a function's registers name it. -/
def State.localLocOf (s : State) (fn a : Nat) : Loc := s.locOf fn (s.devnum * 2 ^ 48 + a)

/-- R360: the ring entry at index `idx`. -/
def State.ringEntry (s : State) (fn idx : Nat) : Loc := s.localLocOf fn (bitsOf (s.func fn).srbase.toNat 47 12 * 4096 + idx * 4096)

/-- R237, R360: the argument bytes of a block: (offset in the entry, byte). -/
def Group.blockBytes (g : Group) (mask : BitVec 64) (blk : Opnd) : List (Nat × Byte) :=
  match blk with
  | .vec n => (threadsOf mask).flatMap fun t => (List.range 8).flatMap fun r =>
      let b := leBytes (g.vreg (n + r) t).toNat 4
      (List.range 4).map fun j => (0x100 + 32 * t + 4 * r + j, b.getD j 0)
  | .sca n => (List.range 8).flatMap fun r =>
      let b := leBytes (g.sreg (n + r)).toNat 8
      (List.range 8).map fun j => (0x100 + 8 * r + j, b.getD j 0)
  | _ => []

/-- R360: the header of an entry. -/
def State.serviceHeader (s : State) (fn : Nat) (g : Group) (mask : BitVec 64) (blk : Opnd) (code : BitVec 16) : List Byte :=
  let first := match blk with | .vec n => n + 256 | .sca n => 0xC0 + n | _ => 0
  let team := match s.teamOf g with | some t => t.number | none => 0
  leBytes ((s.func fn).srSeq * 2 ^ 32 + code.toNat * 2 ^ 16 + first) 8 ++ leBytes mask.toNat 8 ++ leBytes (s.gidn g).toNat 8 ++
    leBytes (g.launch % 2 ^ 32 * 2 ^ 32 + team) 8 ++ leBytes s.caln 8

/-- R59, R354, R361: the context has not ended and is parked nowhere, and inside its handler only the handler's nibs go on. -/
def Group.goesOn (g : Group) (k : Gang) : Bool :=
  !g.faultParked && !g.offCore && !g.ended &&
    (match g.save with | some sv => !g.h || k.nibs.all ((sv.nibs.map SnapNib.nib).contains ·) | none => true)

/-- The gang of a context that waits for its request to be posted, at an instruction that may go on. -/
def Group.caller (g : Group) : Option (Gang × Opnd × BitVec 16) :=
  g.gangs.findSome? fun k => match k.hold with
    | .service blk code => if g.goesOn k then some (k, blk, code) else none
    | _ => none

/-- SERVICE_REQUEST_POST (R361): the entry is written, SRTAIL advances, and the group parks off-core. -/
def execServiceRequestPost (gid : Nat) (s : State) : Out :=
  .next (match s.group gid with
    | none => s
    | some g =>
      match g.caller with
      | none => s
      | some (k, blk, code) =>
        let fn := s.fnOf g
        let f := s.func fn
        let size := 2 ^ f.srSize
        if (f.srTail + 1) % size = f.srHead % size ∨ g.presence ≠ .here then s
        else
          let mask := g.active k
          let at_ := s.ringEntry fn f.srTail
          let hdr := s.serviceHeader fn g mask blk code
          let bs := ((List.range 40).map fun j => (j, hdr.getD j 0)) ++ g.blockBytes mask blk
          let s1 := (s.poke f.owner at_ bs).touchSpan none at_ 0x900
          let s2 := s1.modFunc fn fun x =>
            { x with srTail := (x.srTail + 1) % size, srSeq := (x.srSeq + 1) % 2 ^ 32,
                     services := KMap.put x.services f.srSeq ⟨f.srTail, gid, k.id, mask, blk, f.gen, false⟩ }
          let s3 := if f.srIrq then { s2 with irqs := s2.irqs ++ [.service fn] } else s2
          s3.modGroup gid fun g => { g with offCore := true }.modGang k.id fun k => { k with hold := .offCore f.srTail blk })

/-- R237: the registers that a reply rewrites. -/
def replyWrites (mask : BitVec 64) (blk : Opnd) (read : Nat → Nat → Nat) : List RegWrite :=
  match blk with
  | .vec n => (threadsOf mask).flatMap fun t => (List.range 8).map fun r => .vec (n + r) t (word (read (0x100 + 32 * t + 4 * r) 4))
  | .sca n => (List.range 8).map fun r => .sca (n + r) (dword (read (0x100 + 8 * r) 8))
  | _ => []

/-- R361: the reply to request `key` rewrites the block, and the group resumes. -/
def State.applyReply (s : State) (fn key : Nat) : State :=
  match KMap.get (s.func fn).services key with
  | none => s
  | some v =>
    let at_ := s.ringEntry fn v.idx
    let read (off n : Nat) : Nat := leVal (s.peek (s.func fn).owner (at_.plus off) n)
    let s1 := s.regWrites v.gid (replyWrites v.mask v.blk read)
    let s2 := s1.modFunc fn fun x => { x with services := KMap.del x.services key }
    let s3 := s2.modGroup v.gid fun g => { g with offCore := false }.modGang v.gang fun k => { k with hold := .none }
    match s3.group v.gid with
    | some g => s3.servePops g.team g.core
    | none => s3

/-- R361: the oldest request that waits for a reply at a ring index (log 96). -/
def Func.serviceAt (f : Func) (idx : Nat) : Option (Nat × Service) := f.services.find? fun e => e.2.idx == idx && !e.2.replied

/-- SERVICE_REPLY: a write of SRDONE (R360, R361). An entry that waits for no reply sets ERR; a reply to a context that is out
is applied on its return. -/
def execServiceReply (fn idx : Nat) (s : State) : Out :=
  .next (match (s.func fn).serviceAt idx with
    | none => s.modFunc fn fun x => { x with srErr := true }
    | some (key, v) =>
      if (s.group v.gid).any fun g => g.presence == .away then
        s.modFunc fn fun x => { x with services := KMap.put x.services key { v with replied := true } }
      else s.applyReply fn key)

end Sys2Proof.Machine
end

