-- ==== Sys2Proof/Machine/Matrix.lean ====
section
/-!
DEFINITION. The matrix unit: MLOOP, MZERO (R263 to R273, R278, R280) and MATRIX_STEP, one step of a sub-core's unit (R211 to
R214, R274 to R277).
-/

namespace Sys2Proof.Machine

/-! ### The control block (R268, R269) -/

/-- R268: the control block in scalars sb to sb + 7. -/
def Iss.matBlk (i : Iss) (sb : Nat) : MatBlk :=
  let w (k : Nat) : Nat := (i.g.sreg (sb + k)).toNat
  let i16 (x : Nat) : Int := (BitVec.ofNat 16 x).toInt
  { aadr := i.g.sreg sb, badr := i.g.sreg (sb + 1), ainc := i.g.sreg (sb + 2), binc := i.g.sreg (sb + 3)
    bsinc := i16 (bitsOf (w 4) 63 48), asinc := i16 (bitsOf (w 4) 47 32), shape := bitsOf (w 4) 17 16, steps := bitsOf (w 4) 15 0
    rsvd := decide (bitsOf (w 4) 31 18 ≠ 0) || decide (bitsOf (w 5) 63 13 ≠ 0)
    spa := (w 5).testBit 12, acc := bitsOf (w 5) 11 10, scl := (w 5).testBit 9, blk := (w 5).testBit 8
    bfmt := etypeOf (bitsOf (w 5) 7 4), afmt := etypeOf (bitsOf (w 5) 3 0), asca := i.g.sreg (sb + 6), bsca := i.g.sreg (sb + 7) }

/-- R269: an address word's space and offset. -/
def adrSpc (a : DWord) : Nat := bitsOf a.toNat 33 32
def adrOff (a : DWord) : Nat := bitsOf a.toNat 31 0

/-- R269: a reserved bit, or SPC 1 or 3. -/
def badAdr (a : DWord) : Bool := decide (2 ^ 34 ≤ a.toNat) || adrSpc a == 1 || adrSpc a == 3

/-- R263: columns of the fragment. -/
def MatBlk.cols (b : MatBlk) : Nat := match b.shape with | 0 => 32 | 1 => 64 | _ => 16
/-- R263: registers of the fragment. -/
def MatBlk.regs (b : MatBlk) : Nat := fragRegs b.shape
/-- R264: K elements of a step. -/
def MatBlk.depth (b : MatBlk) : Nat := 3072 / widthOf b.afmt
/-- R267: the block length, and the scale bytes of a row or column. -/
def MatBlk.blen (b : MatBlk) : Nat := if b.blk then 16 else 32
def MatBlk.nb (b : MatBlk) : Nat := b.depth / b.blen
/-- R266: bytes of a row of A. -/
def MatBlk.rowBytes (b : MatBlk) : Nat := if b.spa then 256 else 384
/-- R347: the width index that AFMT gives. -/
def MatBlk.widthIndex (b : MatBlk) : Nat :=
  match widthOf b.afmt with
  | 4 => 0
  | 8 => 1
  | 16 => 2
  | _ => 3
/-- R281: clocks of one step. -/
def MatBlk.clocks (b : MatBlk) : Nat :=
  if b.shape = 2 then 768
  else (if b.shape = 1 then 2 else 1) * (if b.afmt == .f32 then 384 else if b.spa then 96 else 192)
/-- R271: ACC's type. -/
def MatBlk.accTy (b : MatBlk) : EType := match b.acc with | 0 => .f32 | 1 => .i32 | _ => .f64

/-- R271: the combinations that the format word admits. -/
def MatBlk.listed (b : MatBlk) : Bool :=
  let e8 (t : EType) : Bool := t == .e4m3 || t == .e5m2
  let low : Bool := decide (b.shape < 2)
  if e8 b.afmt then e8 b.bfmt && b.acc == 0 && low
  else b.afmt == b.bfmt && match b.afmt with
    | .e2m1 => b.acc == 0 && low
    | .i8 | .i4 => b.acc == 1 && !b.scl && low
    | .f16 | .bf16 => b.acc == 0 && !b.spa && low
    | .f32 => b.acc == 0 && !b.scl && !b.spa && low
    | .f64 => b.acc == 2 && !b.scl && !b.spa && b.shape == 2
    | _ => false

/-- R280: the SHAPE and ACC pairs of R271. -/
def MatBlk.accShape (b : MatBlk) : Bool :=
  match b.acc with
  | 0 | 1 => decide (b.shape < 2)
  | 2 => b.shape == 2
  | _ => false

/-- R268: an increment is an i32, sign-extended. -/
def wideInc (x : DWord) : Bool := (x.setWidth 32 : Word).signExtend 64 == x

/-- R270: the address of a tile at step j. -/
def tileAt (a : DWord) (inc : Int) (j : Nat) : Int := (adrOff a : Int) + j * inc

/-- R273: the control-block fault of an MLOOP. -/
def MatBlk.bad (b : MatBlk) : Option Nat :=
  if b.rsvd ∨ badAdr b.aadr ∨ badAdr b.badr ∨ (b.scl ∧ (badAdr b.asca ∨ badAdr b.bsca)) ∨ !wideInc b.ainc ∨ !wideInc b.binc then some 11
  else if b.steps = 0 ∨ b.shape = 3 then some 12
  else if !b.listed then some 13
  else if adrOff b.aadr % 128 ≠ 0 ∨ adrOff b.badr % 128 ≠ 0 ∨ b.ainc.toNat % 128 ≠ 0 ∨ b.binc.toNat % 128 ≠ 0 then some 14
  else none

/-- R270: the tiles of step j, each with its space and size. -/
def MatBlk.tiles (b : MatBlk) (j : Nat) : List (Nat × Int × Nat) :=
  [(adrSpc b.aadr, tileAt b.aadr b.ainc.toInt j, 64 * b.rowBytes), (adrSpc b.badr, tileAt b.badr b.binc.toInt j, b.cols * 384)] ++
    if b.scl then [(adrSpc b.asca, tileAt b.asca b.asinc j, 64 * b.nb), (adrSpc b.bsca, tileAt b.bsca b.bsinc j, b.cols * b.nb)] else []

/-- R42, R84: the size of a space of R269 for a context. -/
def State.matLimit (s : State) (g : Group) (spc : Nat) : Nat :=
  if spc = 2 then Config.scratchBytes
  else match s.teamOf g with | some t => if t.cores.contains g.core then t.tmemSize else 0 | none => 0

/-- R273: a byte of some tile lies out of bounds. -/
def State.matOut (s : State) (g : Group) (b : MatBlk) : Bool :=
  (b.tiles 0 ++ b.tiles (b.steps - 1)).any fun t => decide (t.2.1 < 0) || decide ((s.matLimit g t.1 : Int) < t.2.1 + t.2.2)

/-! ### Issue (R272, R273, R278, R280) -/

/-- R273: field A: a multiple of 8 within v0 to v191, its blocks held by the context. -/
def fragChk (i : Iss) (o : Opnd) (regs : Nat) (skip : Bool) : Chk :=
  match o with
  | .vec n => failIf (decide (n % 8 ≠ 0) || (!skip && (decide (192 < n + regs) || (!i.g.quill && !i.g.runOk n regs)))) 2 1
  | _ => some (2, 1)

/-- R278: the group of the quill context's team and core with a GRP number. -/
def State.groupNumbered (s : State) (g : Group) (n : Nat) : Option (Nat × Group) :=
  s.groups.find? fun e => !e.2.quill && e.2.team == g.team && e.2.core == g.core && e.2.grp == n

/-- The group on whose registers an MLOOP works. -/
def State.mloopTarget (s : State) (i : Iss) (grp : Nat) : Option (Nat × Group) :=
  if i.g.quill then s.groupNumbered i.g grp else some (i.gid, i.g)

/-- R273, R278: field C. -/
def State.mloopGrpChk (s : State) (i : Iss) (frag : Opnd) (b : MatBlk) (grp : Nat) : Chk :=
  if i.g.quill then
    match s.groupNumbered i.g grp, frag with
    | some (_, g), .vec n => failIf (decide (95 < grp) || (b.shape != 3 && !g.runOk n b.regs)) 2 3
    | _, _ => some (2, 3)
  else failIf (grp != 0) 2 3

def fragNo (o : Opnd) : Nat := match o with | .vec n => n | _ => 0

/-- R187, R278: of an MLOOP in a quill context only field A may hold a vector register, and none the thread index. -/
def quillMloopChk (i : Iss) (frag blk : Opnd) : Chk := quillOpnds i (match frag with | .vec _ => [blk] | o => [o, blk])

/-- R272 to R274: the checks and the issue of an MLOOP. A predicted launch's scratch operands join its watch set (R318). Where field B names no
valid control block, the SHAPE by which field A is checked first is read from s0 on, and scalars beyond s47 read 0 (log 145, DESIGN CHOICE). -/
def State.mloopIssue (s : State) (frag blk : Opnd) (grp : Nat) : Out :=
  s.insn (fun i => let b := i.matBlk (scaNo blk)
      [quillMloopChk i frag blk, fragChk i frag b.regs (b.shape == 3), sbChk 2 blk, s.mloopGrpChk i frag b grp]) fun i =>
    let b := i.matBlk (scaNo blk)
    match b.bad with
    | some d => s.trap i 6 d
    | none =>
      if s.matOut i.g b then s.trap i 4 1
      else match s.watch i.g (if (b.tiles 0).any fun t => t.1 == 2 then [2 ^ 40 + i.g.core / 48] else []), s.mloopTarget i grp with
        | none, _ => s.stall i 11
        | some s1, some (t, _) => if s.canIssue i .matrix then s1.issueOp i .matrix (.mloop t (fragNo frag) b i.mode i.teuf 0 [] []) none
            else s.unissued i
        | some _, none => s.unissued i

def execMloop (frag blk : Opnd) (s : State) : Out := s.mloopIssue frag blk 0
def execMloopQuill (frag blk : Opnd) (grp : Byte) (s : State) : Out := s.mloopIssue frag blk grp.toNat

def execMzero (frag blk : Opnd) (u : Byte) (s : State) : Out :=
  s.insn (fun i => let b := i.matBlk (scaNo blk)
      [quillChk i false, fragChk i frag b.regs (b.shape == 3), sbChk 2 blk, zeroChk 3 u]) fun i =>
    let b := i.matBlk (scaNo blk)
    if b.rsvd then s.trap i 6 11
    else if b.shape = 3 then s.trap i 6 12
    else if !b.accShape then s.trap i 6 13
    else s.issueWhenReady i .matrix (.mzero (fragNo frag) b.regs b.widthIndex) none

/-! ### The summation (R211 to R214) -/

/-- `l` cut into pieces of `n`. -/
def cut {α : Type} (n : Nat) (l : List α) : List (List α) :=
  (List.range ((l.length + n - 1) / n)).map fun k => (l.drop (n * k)).take n

/-- R199: a term under two block scales. -/
def Term.scaled (sa sb : Byte) : Term → Term
  | .fin d => if sa = 255 ∨ sb = 255 then .nan else .fin { d with e := d.e + (sa.toNat + sb.toNat : Nat) - 254 }
  | t => if sa = 255 ∨ sb = 255 then .nan else t

/-- R212, R213: a block's terms, added to the f32 accumulator with one rounding. -/
def addBlock (mode : RMode) (teuf : Bool) (acc : Nat) (terms : List Term) : FRes :=
  match termSum mode terms with
  | none => (defaultNaN .f32, flNV)
  | some b =>
    let a := fval .f32 acc
    if a.isNan then (defaultNaN .f32, flIf a.isSnan flNV)
    else match termSum mode [termOf a, b] with
      | none => (defaultNaN .f32, flNV)
      | some (.inf n) => (signBit .f32 n + infBits .f32, 0)
      | some (.fin d) => roundDy .f32 mode false teuf d.neg d.m d.e
      | some .nan => (defaultNaN .f32, flNV)

/-- Blocks added one after another, with the flags of all. -/
def addBlocks (mode : RMode) (teuf : Bool) (acc : Nat) (blocks : List (List Term)) : FRes :=
  blocks.foldl (fun r b => let x := addBlock mode teuf r.1 b; (x.1, r.2 ||| x.2)) (acc, 0)

/-- R211: f64 products one at a time; every NaN is the default NaN (R207). -/
def fmaChain (mode : RMode) (teuf : Bool) (acc : Nat) (l : List (Nat × Nat)) : FRes :=
  l.foldl (fun r p =>
    let x := fpFma .f64 mode teuf false false p.1 p.2 r.1
    (if (fval .f64 x.1).isNan then defaultNaN .f64 else x.1, r.2 ||| x.2)) (acc, 0)

/-- R211: one element over one step: the row of A, a dropped position none, and the column of B, with their scales. -/
def matSum (b : MatBlk) (mode : RMode) (teuf : Bool) (acc : Nat) (row : List (Option Nat)) (col : List Nat) (sa sb : List Byte) : FRes :=
  let ps : List (Nat × Option Nat × Nat) := (List.range row.length).zip (row.zip col)
  let term (p : Nat × Option Nat × Nat) : Option Term := p.2.1.map fun x =>
    let t := termMul (fval b.afmt x) (fval b.bfmt p.2.2)
    if b.scl then t.scaled (sa.getD (p.1 / b.blen) 0) (sb.getD (p.1 / b.blen) 0) else t
  match b.acc with
  | 1 =>
    let v := ps.foldl (fun v p => match p.2.1 with | some x => v + valOf b.afmt x * valOf b.bfmt p.2.2 | none => v) (valOf .i32 acc)
    (wrapT .i32 v, 0)
  | 2 => fmaChain mode teuf acc (ps.filterMap fun p => p.2.1.map fun x => (x, p.2.2))
  | _ => addBlocks mode teuf acc ((cut (if b.afmt = .f32 then 8 else 32) ps).map fun l => l.filterMap term)

/-! ### Operands (R265 to R267, R276) -/

/-- R196: the elements of a run of bytes. -/
def elemsOf (ty : EType) (bs : List Byte) : List Nat :=
  if widthOf ty = 4 then bs.flatMap fun b => [b.toNat % 16, b.toNat / 16]
  else (cut (widthOf ty / 8) bs).map leVal

/-- R266, R277: a sparse line: its dense units, dropped ones none, or the detail of its fault, of several the lowest (log 143, DESIGN CHOICE). -/
def sparseUnits (ty : EType) (line : List Byte) : Except Nat (List (Option Byte)) :=
  let pos (k : Nat) : Nat := (line.getD (k / 4) 0).toNat / 4 ^ (k % 4) % 4
  if (line.getD 24 0).toNat ≠ etypeCode ty then .error 1
  else if (line.getD 25 0).toNat ≠ 48 ∨ (List.range 6).any (fun k => line.getD (26 + k) 0 != 0) then .error 2
  else if (List.range 48).any fun g => decide (pos (2 * g + 1) ≤ pos (2 * g)) then .error 3
  else .ok ((List.range 48).flatMap fun g => (List.range 4).map fun p =>
    if p = pos (2 * g) then some (line.getD (32 + 2 * g) 0)
    else if p = pos (2 * g + 1) then some (line.getD (33 + 2 * g) 0)
    else none)

/-- A row of A from its bytes. -/
def MatBlk.rowOf (b : MatBlk) (bs : List Byte) : Except Nat (List (Option Nat)) :=
  if b.spa then
    match sparseUnits b.afmt (bs.take 128), sparseUnits b.afmt (bs.drop 128) with
    | .ok l0, .ok l1 => .ok ((l0 ++ l1).flatMap fun u => match u with
        | some x => (elemsOf b.afmt [x]).map some
        | none => (elemsOf b.afmt [0]).map fun _ => none)
    | .error d, _ => .error d
    | _, .error d => .error d
  else .ok ((elemsOf b.afmt bs).map some)

/-- R120: bytes of a space of R269, at their place of record. -/
def State.matBytes (s : State) (g : Group) (spc : Nat) (off : Int) (n : Nat) : List Byte :=
  let p : Place := if spc = 2 then .scratch (g.core / 48) else .team g.team g.core
  (List.range n).map fun k => s.placeGet p (off.toNat + k)

/-- The rows of A, or the detail of the first fault by row and line (log 23). -/
def allRows : List (Except Nat (List (Option Nat))) → Except Nat (List (List (Option Nat)))
  | [] => .ok []
  | .error d :: _ => .error d
  | .ok r :: l => match allRows l with | .ok rs => .ok (r :: rs) | .error d => .error d

/-- R263: the accumulator that a fragment holds. -/
def Group.fragment (g : Group) (b : MatBlk) (frag : Nat) : List (List Nat) :=
  (List.range 64).map fun m => (List.range b.cols).map fun n =>
    if b.acc = 2 then (g.vreg (frag + 2 * n) m).toNat + (g.vreg (frag + 2 * n + 1) m).toNat * 2 ^ 32
    else (g.vreg (frag + n) m).toNat

/-- R274: every register of the fragment, in every thread. -/
def State.writeFragment (s : State) (gid : Nat) (b : MatBlk) (frag : Nat) (acc : List (List Nat)) : State :=
  (List.range b.regs).foldl (fun s r => s.writeV gid (frag + r) fun m =>
    let row := acc.getD m []
    some (if b.acc = 2 then word (row.getD (r / 2) 0 / (if r % 2 = 0 then 1 else 2 ^ 32)) else word (row.getD r 0))) s

/-- R274: one step over the whole fragment: the new accumulator and each row's flags, or a header fault. It reads all its operands at once, so that
it sees of a write to one either every piece or none (R276; log 142, DESIGN CHOICE). -/
def State.matCompute (s : State) (g : Group) (b : MatBlk) (mode : RMode) (teuf : Bool) (j : Nat) (acc : List (List Nat)) :
    Except Nat (List (List Nat) × List Flags) :=
  let rows := allRows ((List.range 64).map fun m =>
    b.rowOf (s.matBytes g (adrSpc b.aadr) (tileAt b.aadr b.ainc.toInt j + (b.rowBytes * m : Nat)) b.rowBytes))
  match rows with
  | .error d => .error d
  | .ok rs =>
    let cols := (List.range b.cols).map fun n =>
      (elemsOf b.bfmt (s.matBytes g (adrSpc b.badr) (tileAt b.badr b.binc.toInt j + (384 * n : Nat)) 384),
        if b.scl then s.matBytes g (adrSpc b.bsca) (tileAt b.bsca b.bsinc j + (b.nb * n : Nat)) b.nb else [])
    let out := (List.range 64).map fun m =>
      let sa := if b.scl then s.matBytes g (adrSpc b.asca) (tileAt b.asca b.asinc j + (b.nb * m : Nat)) b.nb else []
      (List.range b.cols).map fun n =>
        let c := cols.getD n ([], [])
        matSum b mode teuf ((acc.getD m []).getD n 0) (rs.getD m []) c.1 sa c.2
    .ok (out.map fun r => r.map Prod.fst, out.map fun r => r.foldl (fun f x => f ||| x.2) 0)

/-! ### MATRIX_STEP (R274 to R280) -/

/-- The group on whose sub-core and registers a matrix operation works. -/
def EngOp.matTarget (o : EngOp) : Option Nat :=
  match o.kind with
  | .mloop t .. => some t
  | .mzero .. => some o.gid
  | _ => none

/-- R274: the operation that a unit (8 × core + sub-core) works on: the oldest one of its sub-core; one of a context that is out
waits (R279). -/
def State.unitOp (s : State) (unit : Nat) : Option (Nat × EngOp × Nat × Group) :=
  s.ops.findSome? fun e =>
    if s.opOver e.1 e.2 ∨ s.opAway e.2 then none
    else match e.2.matTarget with
      | some t => (match s.group t with
        | some g => if 8 * g.core + g.sub = unit ∧ (g.presence = .here ∨ g.stopped) then some (e.1, e.2, t, g) else none
        | none => none)
      | none => none

/-- R79, R275: the lines of a fragment of `n` registers that the unit must fetch before it writes them. -/
def State.fragAbsent (s : State) (t : Nat) (g : Group) (frag n : Nat) : List Nat :=
  if g.presence = .here then s.absentLines t g (fragLines frag n) else []

/-- MATRIX_STEP: one step of an MLOOP, or an MZERO whole; before it, the fetch of a line of the fragment that is not present. A step writes every
element, over what the group has written to it meanwhile, and all elements show one k (R275; log 141, DESIGN CHOICE). -/
def State.matrixUnit (s : State) (unit : Nat) : State :=
  match s.unitOp unit with
  | none => s
  | some (id, o, t, g) =>
    match o.kind with
    | .mloop _ frag b mode teuf j acc fl =>
      match s.fragAbsent t g frag b.regs with
      | l :: _ => s.fillLine t l
      | [] =>
        let acc0 := if j = 0 then g.fragment b frag else acc
        match s.matCompute g b mode teuf j acc0 with
        | .error d => s.failOp id 0x0D d j
        | .ok (acc1, f1) =>
          let fl1 := (List.range 64).map fun m => fl.getD m 0 ||| f1.getD m 0
          (s.writeFragment t b frag acc1).modOp id fun o => { o with kind := .mloop t frag b mode teuf (j + 1) acc1 fl1 }
    | .mzero frag n _ =>
      match s.fragAbsent t g frag n with
      | l :: _ => s.fillLine t l
      | [] => ((List.range n).foldl (fun s r => s.writeV t (frag + r) fun _ => some 0) s).modOp id fun o => { o with swept := true }
    | _ => s

def execMatrixStep (unit : Nat) (s : State) : Out := .next (s.matrixUnit unit)

end Sys2Proof.Machine
end

