-- ==== Sys2Proof/Machine/Clause.lean ====
section
/-!
DEFINITION. CLAUSE_ISSUE (R11, R20 to R27, R32), the local steps of a group by name (R12, R21, R122 to R124), REORD_COMPLETE
(R189, R190, R244), and GROUP_RETIRE with the end of teams and launches (R163, R175, R184, R188, R234).
-/

namespace Sys2Proof.Machine

/-! ### Fetch (R27, R44, R58, R66) -/

/-- The locations of `n` words of code from a virtual address, translated for core `u`; the first failing page otherwise. -/
def State.fetchLocs (s : State) (u fn va : Nat) : Nat → Except (Nat × Nat × Nat) (List Loc)
  | 0 => .ok []
  | n + 1 =>
    match s.translateAt u fn va 3 with
    | .fault k l => .error (k, l, va)
    | .ok d =>
      match s.fetchLocs u fn ((va + 4) % 2 ^ 64) n with
      | .error e => .error e
      | .ok r => .ok (s.locOf fn d :: r)

/-- The fetch reaches a peer or the host, where a predicted launch stalls (R319). -/
def Loc.outside (dev : Nat) : Loc → Bool
  | .dpa a => devOf a != dev
  | .host _ => true
  | _ => false

/-- R58, R66: a clause fetch faults in translation: it is held in an entry of the die's fault buffer, when one is free, and the context is
fault-parked; a predicted launch stalls. -/
def State.fetchFault (s : State) (gid n : Nat) (g : Group) (k l va : Nat) : State :=
  if s.speculative g then s.modGroup gid fun g => g.modGang n fun x => { x with hold := .stall 8 }
  else if Config.faultEntries ≤ s.dieFaults (g.core / 48) then s
  else
    let fn := s.fnOf g
    let e : FaultEntry :=
      { fn := fn, die := g.core / 48, op := none, gid := gid, gang := n, page := va / 4096, vaddr := va / 32 * 32, dst := false, acc := 3, kind := k,
        lvl := l, seq := none, caln := s.caln, optag := (s.func fn).nextOptag, cls := 3, again := false }
    let s1 := s.modFunc fn fun f => { f with nextOptag := (f.nextOptag + 1) % 2 ^ 32 }
    ({ s1 with faults := KMap.put s1.faults s1.nextFault e, nextFault := s1.nextFault + 1 }.modGroup gid fun g =>
      g.modGang n fun x => { x with hold := .fetch s.nextFault }).faultPark gid

/-! ### The scan (R22, R35) -/

/-- R22: the conditions 5 to 8 that the words fail, with the count of long-latency instructions: `at_` is the index of the
next word, `len` the clause's words. -/
def scanFrom (len : Nat) : Nat → Nat → List Word → Nat × List Nat
  | 0, _, _ => (0, [])
  | fuel + 1, at_, ws =>
    match ws with
    | [] => (0, [])
    | w :: r =>
      match shapeOf (opField w).toNat with
      | none => scanFrom len fuel (at_ + 1) r
      | some sh =>
        let c := sh.mandatory + (if sh.a && aField w == 241 then 1 else 0) + (if sh.b && bField w == 241 then 1 else 0)
          + (if sh.c && cField w == 241 then 1 else 0)
        let next := at_ + 1 + c
        let here := (if len < next then [6] else []) ++ (if sh.last && decide (next < len) then [7] else []) ++
          (if (opField w).toNat = 0x42 ∧ at_ ≠ 0 then [8] else [])
        let (n, bad) := scanFrom len fuel next (r.drop c)
        (n + (if sh.long then 1 else 0), here ++ bad)

/-- R22: the first condition, 1 to 8, that a clause fails. -/
def clauseBad (hdr : Word) (words : List Word) : Option Nat :=
  let h := hdr.toNat
  let a := bitsOf h 19 16
  let b := bitsOf h 15 12
  let odd (x : Nat) : Bool := x == 12 || x == 13 || x == 14
  let (longs, bad) := scanFrom words.length 8 0 words
  let cs := [(1, decide (bitsOf h 4 0 ≠ 0)), (2, odd a || odd b), (3, b != 15 && a == 15), (4, a == b && a != 15),
    (5, b != 15 && decide (longs < 2)), (6, bad.contains 6), (7, bad.contains 7), (8, bad.contains 8)]
  (cs.find? fun c => c.2).map Prod.fst

/-- R20: fields of the header. -/
def hdrLen (h : Word) : Nat := bitsOf h.toNat 11 9 + 1

/-- R12, R20: the flags that WAIT names are clear. -/
def Group.flagsReady (g : Group) (hdr : Word) : Bool :=
  (List.range 12).all fun k => !hdr.getLsbD (20 + k) || g.flagClear k

/-- R205: the long-latency floating instructions: FDIV to FRSQ and FEX2 to FCOS. -/
def longFloat (op : Nat) : Bool := (decide (0x66 ≤ op) && decide (op ≤ 0x69)) || (decide (0x7A ≤ op) && decide (op ≤ 0x7D))

/-- R205: a long-latency floating instruction of the clause has not issued yet. -/
def ClauseBuf.floatsLeft (c : ClauseBuf) : Bool := (opsIn 8 (c.words.drop c.next)).any longFloat

/-- R205: while an enable is set, a clause that holds a long-latency floating instruction keeps the group's next clause from issuing
until its result is known: until it has issued and been written, also where the clause is held at a JOIN (log 57). -/
def Group.trapsPending (g : Group) : Bool :=
  decide (bitsOf g.actl.toNat 8 4 ≠ 0) &&
    ((g.longs.any fun l => match l.kind with | .float _ => true | _ => false) ||
      g.gangs.any fun k => (k.clause.map ClauseBuf.floatsLeft).getD false)

/-- R25: the clause opens a region: by RGN, or as an entry clause. -/
def State.opensRegion (s : State) (g : Group) (a : DWord) (hdr : Word) : Bool :=
  hdr.getLsbD 6 || match s.launchOf g with
    | some l => a == (if g.quill then l.record.quill else l.record.code) || (g.h && a == l.record.traph)
    | none => false

/-- A fault at a clause header, with the clause that ERET's mode 1 skips. -/
def State.headerTrap (s : State) (gid n : Nat) (g : Group) (a : DWord) (hdr : Word) (cause detail : Nat) : State :=
  let r : TrapReq := ⟨cause, detail, 0, match g.gang n with | some k => g.active k | none => 0, a⟩
  if s.speculative g then s.takeTrap gid n r
  else (s.modGroup gid fun g => g.modGang n fun k =>
    { k with clause := some ⟨a, hdr, [], 0, 0, 0, g.clauseSerial + 1, 0, true⟩ }).takeTrap gid n r

/-- R11, R21, R24, R25: the clause starts: its region opens, its flags are raised, its form is read. -/
def State.beginClause (s : State) (gid n : Nat) (a : DWord) (hdr : Word) (words : List Word) : State :=
  s.modGroup gid fun g =>
    let g1 := if s.opensRegion g a hdr then g.openRegion n a else g
    let serial := g1.clauseSerial + 1
    let fa := bitsOf hdr.toNat 19 16
    let fb := bitsOf hdr.toNat 15 12
    let cl : ClauseBuf := ⟨a, hdr, words, 0, 0, g1.forms.getD (hdrForm hdr) 8, serial, 0, false⟩
    let g2 := { g1 with
      clauseSerial := serial
      yld := hdr.getLsbD 5
      raises := g1.raises ++ (if fa = 15 then [] else [Raise.mk fa serial false]) ++ (if fb = 15 then [] else [Raise.mk fb serial true]) }
    (g2.modGang n fun k => { k with clause := some cl }).settle

/-- CLAUSE_ISSUE for gang `n` of context `gid`. Its words are read here, whole, and kept to the clause's end: of a sector that is written
while it may be fetched (R27) the clause has what memory holds now (log 97). The flags that WAIT names and the traps that may be pending are
waited for before the scan is judged (log 116). A fetch waits in a slot for a line that its home does not hold (R111,
R135), and from a peer while its link is shut (R117). A predicted launch fetches from its
ductus's versions (R318). -/
def State.clauseIssue (s : State) (gid n : Nat) : State :=
  match s.group gid with
  | none => s
  | some g =>
    match g.gang n with
    | none => s
    | some k =>
      if k.clause.isSome ∨ k.hold ≠ .none ∨ g.faultParked ∨ g.offCore ∨ g.presence ≠ .here then s
      else
        let fn := s.fnOf g
        let a := k.pc
        let o := (s.func fn).owner
        let pr := (s.predOf g).map fun p => (p.duc, p.k)
        let wordOf (l : Loc) : Word := word (leVal ((List.range 4).map fun j => s.predGet pr o (l.plus j)))
        let stall (p : Nat) : State := s.modGroup gid fun g => g.modGang n fun x => { x with hold := .stall p }
        if !canonical a.toNat then s.headerTrap gid n g a 0 4 2
        else match s.fetchLocs g.core fn a.toNat 1 with
          | .error (kd, l, va) => s.fetchFault gid n g kd l va
          | .ok l0 =>
            if s.speculative g ∧ l0.any (Loc.outside s.devnum) then stall 2
            else if l0.any s.locShut then s
            else if l0.any (s.readRefused fn) then s.headerTrap gid n g a 0 5 0
            else
              let hdr := wordOf (l0.headD (.host 0))
              if !g.flagsReady hdr ∨ g.trapsPending then s
              else match s.fetchLocs g.core fn ((a.toNat + 4) % 2 ^ 64) (hdrLen hdr) with
                | .error (kd, l, va) => s.fetchFault gid n g kd l va
                | .ok ls =>
                  if s.speculative g ∧ ls.any (Loc.outside s.devnum) then stall 2
                  else if ls.any s.locShut then s
                  else if ls.any (s.readRefused fn) then s.headerTrap gid n g a 0 5 0
                  else match s.watch g ((l0 ++ ls).filterMap (Loc.watchKey s.devnum)) with
                    | none => stall 11
                    | some s1 =>
                      let words := ls.map wordOf
                      match clauseBad hdr words with
                      | some c => s1.headerTrap gid n g a hdr 3 (c + 1)
                      | none =>
                        if badForm (g.forms.getD (hdrForm hdr) 8).toNat then s1.headerTrap gid n g a hdr 2 5
                        else (((s1.cacheLookup g.core fn a.toNat).cacheLookup g.core fn ((a.toNat + 4 * hdrLen hdr) % 2 ^ 64)).beginClause gid n a hdr words)

def execClauseIssue (g n : Nat) (s : State) : Out := .next (s.clauseIssue g n)
def execLongLatencyWriteback (g l : Nat) (s : State) : Out := .next (s.writeback g l)
def execDrain (g : Nat) (s : State) : Out := .next (s.drainStep g)
def execPropagate (core : Nat) (s : State) : Out := .next (s.propagateStep core)
def execLoad (g : Nat) (s : State) : Out := .next (s.loadStep g)
def execAtl (g : Nat) (s : State) : Out := .next (s.atlStep g)

/-! ### REORD_COMPLETE (R189, R190, R243, R244) -/

/-- R189: the participants of the REORD of context `gid`, by group number: the resident groups of its role and team on its
core that have not ended (log 25). -/
def State.reordParties (s : State) (g : Group) : List (Nat × Group) :=
  sortBy (fun e => e.2.grp) (s.groups.filter fun e =>
    !e.2.quill && !e.2.ended && e.2.team == g.team && e.2.core == g.core && e.2.role == g.role)

/-- The mask and keys with which a participant arrived. -/
def Group.reordHold (g : Group) : Option (BitVec 24 × List Nat) :=
  g.gangs.findSome? fun k => match k.hold with | .reord m ks => some (m, ks) | _ => none

/-- R244: a participant has arrived, and its gather, atomic and matrix counters are zero and its flags clear. -/
def State.reordQuiet (s : State) (gid : Nat) (g : Group) : Bool :=
  g.reordHold.isSome && [EngClass.gather, .atomic, .matrix].all (fun c => s.counter gid c == 0) && g.raises.isEmpty

/-- What moves with a thread, and the thread's state. -/
structure Mover where
  grp : Group
  t : Nat
  key : Nat
  live : Bool

/-- R190: a participant with new threads in its 64 positions. -/
def Group.takeMovers (g : Group) (mask : BitVec 24) (ms : List Mover) : Group :=
  let src (t : Nat) : Mover := ms.getD t ⟨g, t, 0, false⟩
  let regs := (List.range 192).filter fun n => mask.getLsbD (n / 8)
  let liveMask := maskOf ((List.range 64).filter fun t => (src t).live)
  let launched := maskOf ((List.range 64).filter fun t => (src t).grp.launched.getLsbD (src t).t)
  let v := regs.foldl (fun v n => KMap.put v n ((List.range 64).map fun t => (src t).grp.vreg n (src t).t)) g.v
  let p := (List.range 8).map fun n => (n, maskOf ((List.range 64).filter fun t => ((src t).grp.pred n).getLsbD (src t).t))
  { g with
    v := v, p := p, launched := launched
    xflg := (List.range 64).map fun t => (src t).grp.flagsOf (src t).t
    nibs := (List.range 4).map fun n =>
      { g.nib n with live := decide (nibPart n launched ≠ 0), mask := nibPart n liveMask, stack := [] } }

/-- R244: a participant goes on at the clause after its REORD's, which opens a region. -/
def Group.afterReord (g : Group) : Group :=
  match g.gangs.head? with
  | none => g
  | some k =>
    let ns := (List.range 4).filter fun n => decide ((g.nib n).mask ≠ 0)
    let g1 := { g with gangs := [] }.addGang { k with nibs := ns, hold := .none, clause := none }
    (g1.openRegion (ns.headD 0) k.pc).endIfDone

/-- REORD_COMPLETE. The live mask is that of the participant with the lowest number (log 26). -/
def State.reordComplete (s : State) (gid : Nat) : State :=
  match s.group gid with
  | none => s
  | some g =>
    let ps := s.reordParties g
    if ps = [] ∨ !ps.all (fun e => s.reordQuiet e.1 e.2 && e.2.presence == .here) then s
    else
      let mask := (ps.findSome? fun e => e.2.reordHold.map Prod.fst).getD 0
      let all : List Mover := ps.flatMap fun e =>
        let keys := match e.2.reordHold with | some h => h.2 | none => []
        (List.range 64).map fun t => ⟨e.2, t, keys.getD t 0, e.2.liveAll.getLsbD t⟩
      let order := sortBy Mover.key (all.filter Mover.live) ++ all.filter fun m => !m.live
      let new := (List.range ps.length).map fun j =>
        let e := ps.getD j (gid, g)
        (e.1, (e.2.takeMovers mask ((order.drop (64 * j)).take 64)).afterReord)
      new.foldl (fun s e => s.setGroup e.1 e.2) s

def execReordComplete (g : Nat) (s : State) : Out := .next (s.reordComplete g)

/-! ### GROUP_RETIRE (R84, R163, R175, R184, R188, R234) -/

/-- The contexts that retire together: a group, with the others of its pair (R184). -/
def State.retiring (s : State) (gid : Nat) (g : Group) : List (Nat × Group) :=
  (gid, g) :: (((s.family gid g).filter fun m => m != gid).filterMap fun m => (s.group m).map fun x => (m, x))

/-- R234, R278: a context has ended and nothing of it is outstanding. -/
def State.mayRetire (s : State) (gid : Nat) (g : Group) : Bool :=
  g.ended && g.fifo.isEmpty && (s.opsAll gid).isEmpty && s.ops.all fun e => e.2.matTarget != some gid

/-- R308: every team of the launch has retired and none is to come: it may complete; its open sheaves begin to abort (R163). -/
def State.settleLaunch (s : State) (l : Nat) : State :=
  match KMap.get s.launches l with
  | some x =>
    if x.next = x.teams ∧ !s.teams.any (fun t => t.2.launch == l) then
      { s with launches := KMap.adjust s.launches l fun x => { x with ready := true }
               sheaves := s.sheaves.map fun e => (e.1, e.2.autoAbort l) }
    else s
  | none => s

/-- The last group of a team on a core has gone: its team memory there is free and its quill context stops (R84, R188). -/
def State.leaveCore (s : State) (team core : Nat) : State :=
  if s.groups.any fun e => !e.2.quill && e.2.team == team && e.2.core == core then s
  else
    let halted : State := { s with groups := s.groups.map fun e =>
      if e.2.quill ∧ e.2.team = team ∧ e.2.core = core then (e.1, e.2.halt) else e }
    halted.modTeam team fun t => { t with cores := t.cores.filter (· != core), dq := KMap.del t.dq core }

/-- The last group of a team has gone: the team retires, and its slice with its last team (R335). -/
def State.leaveTeam (s : State) (team launch slice : Nat) : State :=
  if s.groups.any fun e => !e.2.quill && e.2.team == team then s
  else
    let s1 : State := { s with
      teams := KMap.del s.teams team
      bars := s.bars.filter fun b => match b.1 with | .tb t _ => t != team | _ => true }
    let s2 : State := { s1 with slices := if s1.teams.any fun t => t.2.slice == slice then s1.slices else KMap.del s1.slices slice }
    (s2.modLaunch launch fun l => { l with retired := l.retired + 1 }).settleLaunch launch

/-- GROUP_RETIRE. -/
def State.groupRetire (s : State) (gid : Nat) : State :=
  match s.group gid with
  | none => s
  | some g =>
    let rs := s.retiring gid g
    if !rs.all (fun e => s.mayRetire e.1 e.2) then s
    else
      let gone := rs.map Prod.fst
      let s1 : State := { s with
        groups := s.groups.filter fun e => !gone.contains e.1
        faults := s.faults.filter fun e => e.2.op.isSome || !gone.contains e.2.gid
        bars := s.bars.filter fun b => match b.1 with | .gb k _ => !gone.contains k | _ => true
        reserve := if g.quill then s.reserve else KMap.put s.reserve (8 * g.core + g.sub) false }
      if g.quill then s1
      else ((s1.modLaunch g.launch fun l => { l with ender := g.issuer }).leaveCore g.team g.core).leaveTeam g.team g.launch g.slice

def execGroupRetire (g : Nat) (s : State) : Out := .next (s.groupRetire g)

end Sys2Proof.Machine
end

