-- ==== Sys2Proof/Machine/Calendar.lean ====
section
/-!
DEFINITION. The maintenance calendar and its log (R108 to R116, R135), budgets (R335, R336), thermal state and the power factor
(R343, R386), clock gating (R349), and the admission engines (R331 to R334, R344).
-/

namespace Sys2Proof.Machine

/-! ### The package calendar log (R114, R115) -/

/-- R115: one record, whole, under owner 0 in partition 0 (log 28); dropped with OVF when the log is off or full. A tail that a smaller SIZE
has left beyond the ring is where the next record goes, and is then reduced (log 114). -/
def State.clog (s : State) (words : List Nat) : State :=
  let size := 2 ^ s.clogSize
  if !s.clogBase.toNat.testBit 0 ∨ (s.clogTail + 1) % size = s.clogHead % size then { s with clogOvf := true }
  else
    let at_ := Loc.dpa (s.keyIn 0 (bitsOf s.clogBase.toNat 47 5 * 32 + 32 * s.clogTail))
    let bs := words.flatMap fun w => leBytes w 8
    let s1 := (s.poke 0 at_ ((List.range 32).map fun j => (j, bs.getD j 0))).touch none at_
    { s1 with clogTail := (s.clogTail + 1) % size, irqs := if s.clogIrq then s1.irqs ++ [.management] else s1.irqs }

/-- R114: a drain-overrun or calendar-overrun record. -/
def clogRecord (start kind : Nat) (k : SlotKind) (unit count where_ : Nat) : List Nat :=
  [start, kind * 2 ^ 56 + (kindIndex k + 1) * 2 ^ 48 + unit * 2 ^ 40 + count % 2 ^ 32, where_, 0]

/-! ### Drain windows and slots (R108 to R113, R135) -/

/-- The slot of a kind and start, before its drain window. -/
def Slot.ahead (k : SlotKind) (start : Nat) : Slot := ⟨k, start, start + Config.slotLength k, none, false⟩

/-- The slot whose drain window opens next: one that is not yet listed. -/
def State.upcoming (s : State) : SlotKind × Nat :=
  let x := nextSlot s.caln
  if s.slots.any fun y => y.kind == x.1 && y.start == x.2 then nextSlot (x.2 + 1) else x

/-- R388: before its calibration slot a pause flit, with the slot's scheduled end, leaves on each link that this end will retrain, one that is
down among them. -/
def State.sendPauses (s : State) (x : Slot) : State :=
  match x.kind with
  | .calibration => { s with ports := (List.range 36).foldl (fun m p =>
      let q := KMap.getD m p Port.reset
      if Config.lowerEnd s.devnum p then KMap.put m p { q with told := some x.stop } else m) s.ports }
  | _ => s

/-- CLOSE: 600 cc before a slot, engines, atomic units and link transmitters accept nothing; they stay closed when this is during
another slot's extension. -/
def State.drainClose (s : State) : State :=
  let (k, start) := s.upcoming
  if start ≤ s.caln + Config.drainLead then
    ({ s with slots := s.slots ++ [Slot.ahead k start], closed := true } : State).sendPauses (Slot.ahead k start)
  else s

def execDrainWindowClose (s : State) : Out := .next s.drainClose

/-- R114, R135: the unit that holds a request in flight, and where: an engine of its die, the atomic unit of its home slice, or
the transmitter of its port. A reducing copy's combination in local storage is its copy engine's (R101). -/
def State.unitOf (s : State) (r : Req) (o : EngOp) : Nat × Nat :=
  let die := match s.group o.gid with | some g => g.core / 48 | none => 0
  match s.reqPort r with
  | some (some p) => (4, p)
  | _ =>
    match r.kind.atomic, r.loc with
    | true, some (.dpa a) => (3, s.homeOf o.fn a % 192)
    | _, _ => (match o.cls with | .copy => 1 | .gather => 2 | _ => 3, die)

/-- The reads of its operation whose bytes a request needs. -/
def State.sources (s : State) (r : Req) : List (Nat × Req) :=
  s.reqs.filter fun e => e.2.op == r.op && e.2.kind.gives.any (r.kind.needs.contains ·)

/-- R112: a write into local storage that waits only for bytes that have been read. -/
def State.bytesRead (s : State) (r : Req) : Bool :=
  r.completes && !r.kind.needs.isEmpty && (s.sources r).all fun e => match e.2.stage with
    | .answered _ | .done => true
    | _ => false

/-- R112, R135, R151: a request of an engine of this device has been sent and has not performed: it is on its way, or stands at a home of this
package or of a peer. Home atomics and SIGNAL to local storage and to the host, and the I/O die's flushing reads, are set aside by none. A
source line of an SHREAD has performed once it has been looked at, and at a peer it stands under that package's calendar alone (R305). A copy's
sector whose bytes have been read is in flight until they stand in the local storage that takes them. -/
def State.inFlight (s : State) (r : Req) : Bool :=
  (KMap.get s.ops r.op).any fun o => o.dev == s.devnum && (s.bytesRead r || match r.loc with
    | some (.dpa a) => r.stage == .fabric ||
        r.stage == .queued && !(o.readsSheaf r && (devOf a != s.devnum || !r.kind.gives.isEmpty && s.looked r))
    | some _ => r.stage == .fabric && (match r.kind with | .rmw .. | .prog .. | .signal .. => false | _ => true) &&
        (match o.kind with | .flush _ => false | _ => true)
    | none => false)

/-- DEFER: requests in flight are set aside, with the seal and abort messages that homes have not taken, and each unit that holds some
writes a record. -/
def State.deferAll (s : State) (k : SlotKind) (start : Nat) : State :=
  let late := (s.reqs.filterMap fun e =>
      if s.inFlight e.2 then (KMap.get s.ops e.2.op).map fun o => s.unitOf e.2 o else none) ++
    s.sheaves.flatMap fun e => (s.untaken e.2).map fun h => (3, h % 192)
  let s1 : State := { s with
    reqs := s.reqs.map fun e => (e.1, if s.inFlight e.2 then { e.2 with deferred := true } else e.2)
    sheaves := s.sheaves.map fun e => (e.1, { e.2 with late := s.untaken e.2 }) }
  (nubBy late).foldl (fun s u => s.clog (clogRecord start 1 k u.1 (late.filter (· == u)).length u.2)) s1

/-- SLOT_START: the slot whose start has come begins. One that starts during another's extension runs beside it, and the engines stay
stopped for both. -/
def State.slotStart (s : State) : State :=
  match s.slots.find? fun x => !x.on && decide (x.start ≤ s.caln) with
  | some x => ({ s with slots := s.slots.map fun y => if y = x then { y with on := true } else y }).deferAll x.kind x.start
  | none => s

def execSlotStart (s : State) : Out := .next s.slotStart

/-- R343: the readings of the sweep, and what they do to HOT; a cool-down that has run out has ended it before. -/
def State.hotUpdate (s : State) (core : Nat) : State :=
  let temp := Config.sensorTemp core s.sweeps % 256
  let droop := Config.sensorDroop core s.sweeps % 256
  s.modCoreReg core fun c =>
    let done : Bool := match c.cool with | some t => decide (t ≤ s.caln) | none => false
    let c := { c with temp := temp, droop := droop, hot := c.hot && !done, cool := if done then none else c.cool }
    if c.tth < temp ∨ c.dth < droop then { c with hot := true, cool := none }
    else if c.hot ∧ temp + 4 ≤ c.tth ∧ droop + 8 ≤ c.dth then
      { c with cool := some (c.cool.getD (s.caln + 128000)) }
    else if c.hot then { c with cool := none }
    else c

/-- R386: the refill factor. -/
def State.factorUpdate (s : State) : State :=
  let p := Config.modulePower s.sweeps
  if s.mpl < p then { s with factor := max (s.factor - 1) 2 }
  else if 100 * p < 95 * s.mpl then { s with factor := min (s.factor + 1) 8 }
  else s

/-- What the end of a sweep does. -/
def State.sweepEnd (s : State) : State :=
  let s1 := ((List.range 192).foldl State.hotUpdate s).factorUpdate
  { s1 with sweeps := s1.sweeps + 1 }

/-- R109: the slot did a sweep's housekeeping: its own, or that of a sweep that it absorbed. -/
def didSweep (k : SlotKind) (start : Nat) : Bool :=
  match k with
  | .sweep => true
  | .calibration => decide (nextStart .sweep start < start + Config.slotLength .calibration)
  | .refresh => false

/-- R140: the step in which a request of an SHREAD performs: a look, a list or a fetch. -/
def Req.shreadStep (r : Req) (a : Nat) : Instr :=
  match r.va with
  | none => .shreadList r.op (a / 128)
  | some v => if r.kind.gives.isEmpty then .shreadFetch r.op (v / 128) else .shreadLook r.op (v / 128)

/-- OPEN: the steps that perform a deferred request first; at local storage and at the host a request performs as it arrives, once its bytes
have come. -/
def State.openSteps (s : State) (q : Nat) (r : Req) : List Instr :=
  (if r.stage = .waiting then ((s.sources r).map fun e => .land e.1) ++ [.send q, .arrive q]
   else if r.stage = .fabric then [.arrive q] else []) ++ match r.loc with
    | some (.dpa a) =>
      if (KMap.get s.ops r.op).any fun o => o.readsSheaf r then [r.shreadStep a]
      else [if r.handle ≠ 0 then .swrite q else if r.tag.isSome then (if r.kind.writes then .pwrite q else .pread q) else .serve q]
    | _ => []

/-- R135, R305: engines open again; the deferred requests and the late seal and abort steps perform first. What the slot held (R111) follows
(State.resume). -/
def State.openAll (s : State) : State :=
  let due := s.reqs.filter fun e => e.2.deferred
  let seals := s.sheaves.flatMap fun e => e.2.late.map fun h => if e.2.aborting then Instr.abort e.1 h else .seal e.1 h
  { s with
    closed := false
    reqs := s.reqs.map fun e => (e.1, { e.2 with deferred := false })
    agenda := due.flatMap (fun e => s.openSteps e.1 e.2) ++ seals ++ s.agenda }

/-- The slot that stands at its end. -/
def State.slotOver (s : State) : Option Slot := s.slots.find? fun x => x.on && decide (x.stop ≤ s.caln)

/-- R113, R114: at the end of its extension a slot raises the calendar-overrun fault and writes its record; what is unfinished then is
done by the next slot of the kind. -/
def State.extensionEnd (s : State) (x : Slot) : State :=
  match x.ext with
  | none => { s with remainder := KMap.del s.remainder (kindIndex x.kind) }
  | some left =>
    let k := x.kind
    let used := x.stop - (x.start + Config.slotLength k)
    let rest := if used = Config.slotLength k then KMap.put s.remainder (kindIndex k) left else KMap.del s.remainder (kindIndex k)
    ({ s with irqs := s.irqs ++ [.calendarFault], remainder := rest } : State).clog (clogRecord x.start 2 k 0 used left)

/-- SLOT_END, at a slot's end, its extension included: the engines open, unless another slot, or its drain window, goes on. -/
def State.slotEnd (s : State) : State :=
  match s.slotOver with
  | none => s
  | some x =>
    let s1 := ({ s with slots := s.slots.erase x }).extensionEnd x
    let s2 := if didSweep x.kind x.start then s1.sweepEnd else s1
    if s2.slots.isEmpty then s2.openAll else s2

def execSlotEnd (s : State) : Out := .next s.slotEnd

/-- CALENDAR_OVERRUN: at a slot's scheduled end some housekeeping is unfinished: the slot is extended, by at most its own length (log
27). -/
def State.overrun (s : State) (unfinished : Nat) : State :=
  match s.slotOver with
  | some x =>
    if x.ext.isNone ∧ unfinished ≠ 0 then
      let longer : Slot := { x with stop := x.stop + Config.extension s.turn % Config.slotLength x.kind + 1, ext := some unfinished }
      { s with slots := s.slots.map fun y => if y = x then longer else y }
    else s
  | none => s

def execCalendarOverrun (unfinished : Nat) (s : State) : Out := .next (s.overrun unfinished)

/-- COOLDOWN_EXPIRY (R343). -/
def execCooldownExpiry (core : Nat) (s : State) : Out :=
  .next (match (s.coreReg core).cool with
    | some t => if t ≤ s.caln then s.modCoreReg core fun c => { c with hot := false, cool := none } else s
    | none => s)

/-! ### Budgets (R335, R336) -/

/-- R336: the address of the instruction that a gang would issue. -/
def Gang.nextPc (k : Gang) : DWord :=
  match k.clause with
  | some c => c.addr + dword (4 * (1 + c.next))
  | none => k.pc + 4

/-- BUDGET_TRAP for gang `n` of context `gid`. -/
def State.budgetTrap (s : State) (gid n : Nat) : State :=
  match s.group gid with
  | none => s
  | some g =>
    match g.gang n with
    | none => s
    | some k =>
      if g.budgetReady k then
        (if s.speculative g then s else s.modGroup gid fun g => { g with budgetDue := false }).takeTrap gid n
          ⟨0x0F, 0, 0, g.active k, k.nextPc⟩
      else s

/-- The gangs of a slice that are held in DQPOP. -/
def State.popsOf (s : State) (slice : Nat) : List (Nat × Nat) :=
  (s.groups.filter fun e => e.2.slice == slice).flatMap fun e => e.2.gangs.filterMap fun k => match k.hold with
    | .dqpop _ => some (e.1, k.id)
    | _ => none

/-- BUDGET_EXPIRY: the counter is reloaded, and every context of the slice is due for the trap, which a gang held in DQPOP takes at once. -/
def execBudgetExpiry (slice : Nat) (s : State) : Out :=
  .next (match KMap.get s.slices slice with
    | some x =>
      if x.budget ≠ 0 ∧ x.left = 0 then
        let t : State := { s with
          slices := KMap.put s.slices slice { x with left := x.budget }
          groups := s.groups.map fun e => (e.1, if e.2.slice = slice ∧ !e.2.ended then { e.2 with budgetDue := true } else e.2) }
        (t.popsOf slice).foldl (fun s k => s.budgetTrap k.1 k.2) t
      else s
    | none => s)

def execBudgetTrap (g n : Nat) (s : State) : Out := .next (s.budgetTrap g n)

/-! ### Clock gating (R349) -/

/-- A unit of the cluster has a matrix operation to work on. -/
def State.clusterSteps (s : State) (cl : Nat) : Bool :=
  (clusterCores cl).any fun c => (List.range 8).any fun k => (s.unitOp (8 * c + k)).isSome

/-- CLUSTER_CLOCK_GATE: nothing has issued for 64 clocks, and no matrix step runs. -/
def execClusterClockGate (cl : Nat) (s : State) : Out :=
  .next (if 64 ≤ (s.cluster cl).idle ∧ !(s.cluster cl).gated ∧ !s.clusterSteps cl then s.modCluster cl fun c => { c with gated := true }
    else s)

/-- R349: the cluster whose request is admitted next: ascending from LASTC. -/
def State.resumeNext (s : State) : Option Nat :=
  ((List.range 48).map fun k => (s.lastC + 1 + k) % 48).find? fun cl => (s.cluster cl).gated && (s.cluster cl).wanted

/-- CLUSTER_RESUME: at most 8 in each window of 16 cc. -/
def execClusterResume (cl : Nat) (s : State) : Out :=
  let win := s.caln / 16
  let used := if s.window = win then s.admitted else 0
  .next (if s.resumeNext = some cl ∧ used < 8 then
      { s.modCluster cl fun c => { c with gated := false, wanted := false, idle := 0 } with lastC := cl, window := win, admitted := used + 1 }
    else s)

/-! ### Admission (R331 to R334, R344) -/

/-- R317, R319: a predicted launch has stalled before its record. -/
def Launch.halted (l : Launch) : Bool := l.unread.isSome && l.pred.isSome

/-- R333: a job that still holds teams to be claimed, of a function whose context is resident. -/
def State.jobReady (s : State) (l : Launch) : Bool :=
  !l.halted && decide (l.next < l.teams) && l.status.isNone && !(s.func l.fn).saved.out && (s.func l.fn).resetting.isNone &&
    !((s.func l.fn).ctxGo && (s.func l.fn).ctxOp == 1) && !s.groups.any fun e => s.fnOf e.2 == l.fn && e.2.presence == .leaving

/-- R333: the prediction number of a launch that is still speculative. -/
def Launch.guess (l : Launch) : Option Nat := match l.pred with | some p => if p.confirmed then none else some p.k | none => none

/-- R333: the ready queue of a partition's work distributor: not speculative before predicted, then by deadline, by job number, and by
prediction number. -/
def State.readyQueue (s : State) (part : Nat) : List (Nat × Launch) :=
  let jobs := s.launches.filter fun e => s.jobReady e.2 && s.fnPart e.2.fn == part
  sortBy (fun e => if e.2.guess.isSome then 1 else 0) (sortBy (fun e => e.2.deadline)
    (sortBy (fun e => e.2.job.number) (sortBy (fun e => e.2.guess.getD 0) jobs)))

/-- R282: teams that are claimed together: a cluster set, or one team. -/
def LaunchRec.setSize (r : LaunchRec) : Nat := max 1 r.cset

/-- R181, R282: the next set of `n` teams on the clusters given. -/
def State.placeSet (s : State) (fn : Nat) (r : LaunchRec) (cls : List Nat) (n : Nat) (use : Nat → CoreUse) : Option (List Places) :=
  if r.cset = 0 then (s.placeTeam use fn r (cls.flatMap clusterCores) cls).map fun p => [p]
  else (sortBy (fun cl => s.clusterHeat cl * 64 + cl) cls).findSome? fun cl => s.placeMany fn r (clusterCores cl) [cl] n use

/-- The use that a list of placed teams leaves. -/
def useAfter (use : Nat → CoreUse) (r : LaunchRec) (ps : List Places) : Nat → CoreUse := ps.foldl (fun u p => afterPlace u r p) use

/-- Sets of `left` teams placed one after another, at most `fuel` of them, as far as they fit. -/
def State.placeSets (s : State) (fn : Nat) (r : LaunchRec) (cls : List Nat) : Nat → Nat → (Nat → CoreUse) → List Places
  | 0, _, _ => []
  | fuel + 1, left, use =>
    if left = 0 then []
    else match s.placeSet fn r cls (min left r.setSize) use with
      | none => []
      | some ps => ps ++ s.placeSets fn r cls fuel (left - ps.length) (useAfter use r ps)

/-- The cluster of a placed team. -/
def placesCluster (p : Places) : Nat := match p.head? with | some x => x.1 / 4 | none => 0

/-- R78: of the teams that fit, in sets (R282), those whose groups' images the function's context region can hold. -/
def State.heldByRegion (s : State) (l : Launch) (ps : List Places) : List Places :=
  let per := l.record.groupPlans.length
  let room := (s.imageRoom l.fn l.record.stack (per * ps.length)).length / per
  if ps.length ≤ room then ps else if l.record.coop then [] else ps.take (room / l.record.setSize * l.record.setSize)

/-- R334: the teams that the engine of a die would place of a job now: for a cooperative launch the whole grid; otherwise the
first set, and as many more as fit on its cluster. -/
def State.placeable (s : State) (die : Nat) (l : Launch) : List Places :=
  let r := l.record
  if r.coop then
    let all := s.placeSets l.fn r (s.partClusters l.fn) (min l.teams 3072) l.teams s.coreUse
    if all.length = l.teams ∧ all.any (fun p => placesCluster p / 12 == die) then all else []
  else match s.placeSet l.fn r ((List.range 12).map fun k => 12 * die + k) (min (l.teams - l.next) r.setSize) s.coreUse with
    | none => []
    | some ps =>
      ps ++ s.placeSets l.fn r [placesCluster (ps.headD [])] 64 (l.teams - l.next - ps.length) (useAfter s.coreUse r ps)

/-- R78, R334: the teams that it would claim; of a job whose record has not been read, none. -/
def State.claim (s : State) (die : Nat) (l : Launch) : List Places := if l.unread.isSome then [] else s.heldByRegion l (s.placeable die l)

/-- R78, R183, R334: the job could be placed on the die if it were idle: its next set of teams, or the whole grid of a cooperative launch,
with some team on the die. -/
def State.fitsIdle (s : State) (die : Nat) (l : Launch) : Bool :=
  let r := l.record
  let idle (_ : Nat) : CoreUse := CoreUse.idle
  let n := if r.coop then l.teams else min (l.teams - l.next) r.setSize
  let groups := r.groupPlans.length * n
  let fits : Bool :=
    if r.coop then
      let all := s.placeSets l.fn r (s.partClusters l.fn) (min n 3072) n idle
      decide (all.length = n) && all.any fun p => placesCluster p / 12 == die
    else (s.placeSet l.fn r ((List.range 12).map fun k => 12 * die + k) n idle).isSome
  l.unread.isNone && fits &&
    (fitImages (imageUnits l.record.stack) (fun _ => true) groups ((s.func l.fn).ctxSize / 65536) 0 0).length == groups

def State.passCount (s : State) (die l : Nat) : Nat :=
  ((s.passed.find? fun e => e.1 == die && e.2.1 == l).map fun e => e.2.2).getD 0

def State.setPass (s : State) (die l n : Nat) : State :=
  let rest := s.passed.filter fun e => !(e.1 == die && e.2.1 == l)
  { s with passed := if n = 0 then rest else rest ++ [(die, l, n)] }

/-- R331, R334: claimed teams are admitted, those of one cluster as one slice; a task runs (R337). -/
def State.admitClaim (s : State) (lid : Nat) (l : Launch) (ps : List Places) : State :=
  let cls := nubBy (ps.map placesCluster)
  let base := s.nextSlice
  let sliceOf (p : Places) : Nat := base + (cls.findIdx? (· == placesCluster p)).getD 0
  let s1 : State := { s with
    slices := (List.range cls.length).foldl (fun m k =>
      KMap.put m (base + k) ⟨lid, cls.getD k 0, l.record.budget, l.record.budget, none⟩) s.slices
    nextSlice := base + cls.length }
  let s2 := (List.range ps.length).foldl (fun s k =>
    let p := ps.getD k []
    s.admitTeam lid l (l.next + k) (sliceOf p) p) s1
  let s3 := s2.modLaunch lid fun l => { l with next := l.next + ps.length }
  match l.job with
  | .task fn n => s3.modTask fn n fun t => if t.st = .ready ∧ t.use = l.use then { t with st := .running } else t
  | .queue .. => s3

/-- R334: among jobs in queue order, the first whose next team fits on the die, with the teams claimed. -/
def State.pickJob (s : State) (die : Nat) (q : List (Nat × Launch)) : Option (Nat × Launch × List Places) :=
  q.findSome? fun e => match s.claim die e.2 with | [] => none | ps => some (e.1, e.2, ps)

/-- ADMISSION by the engine of a die: it serves the queue of its partition. A job that it has passed over 16 times, and that could fit, is
the only one that it may admit; the first job is passed over only when it does not fit now. -/
def State.admission (s : State) (die : Nat) : State :=
  if s.hotInlet ∨ !s.islands.contains die then s
  else
    let q := s.readyQueue (s.islandPart die)
    let starved := (q.filter fun e => decide (16 ≤ s.passCount die e.1) && s.fitsIdle die e.2).take 1
    match s.pickJob die (if starved = [] then q else starved) with
    | none => s
    | some (lid, l, ps) =>
      let s1 := match q.head? with
        | some e => if e.1 ≠ lid ∧ s.claim die e.2 = [] ∧ s.fitsIdle die e.2 then s.setPass die e.1 (s.passCount die e.1 + 1) else s
        | none => s
      (s1.setPass die lid 0).admitClaim lid l ps

def execAdmission (die : Nat) (s : State) : Out := .next (s.admission die)

end Sys2Proof.Machine
end

