-- ==== Sys2Proof/Machine/Sha512.lean ====
section
/-!
DEFINITION. SHA-512, by which R380 extends a measurement register and R381 signs a quote. Its constants are the fractions of square
roots and cube roots of the first primes, and are computed here as such.
-/

namespace Sys2Proof.Machine

/-- The largest `r` with `r ^ k ≤ n` that adds bits below bit `b` to `r0`. -/
def rootFrom (k n : Nat) : Nat → Nat → Nat
  | 0, r0 => r0
  | b + 1, r0 => rootFrom k n b (if (r0 + 2 ^ b) ^ k ≤ n then r0 + 2 ^ b else r0)

/-- The first 64 bits of the fraction of the `k`-th root of `p`, for a root below 16. -/
def rootFraction (k p : Nat) : DWord := BitVec.ofNat 64 (rootFrom k (p * 2 ^ (64 * k)) 68 0)

/-- The primes below `n`. -/
def primesBelow (n : Nat) : List Nat :=
  (List.range n).foldl (fun ps m => if 2 ≤ m ∧ ps.all fun p => m % p ≠ 0 then ps ++ [m] else ps) []

/-- The constants of the eighty rounds. -/
def roundConstants : List DWord := (primesBelow 410).map (rootFraction 3)

/-- A hash value, or what it has become after some rounds: four words of each of the two chains, the newest first. -/
structure HashChains where
  a : DWord × DWord × DWord × DWord
  e : DWord × DWord × DWord × DWord
  deriving DecidableEq, Repr

/-- The hash value of nothing, in the order of the two chains. -/
def HashChains.first : HashChains :=
  let r (p : Nat) : DWord := rootFraction 2 p
  ⟨(r 2, r 3, r 5, r 7), (r 11, r 13, r 17, r 19)⟩

/-- The sum of three rotations. -/
def spun (x : DWord) (i j k : Nat) : DWord := x.rotateRight i ^^^ x.rotateRight j ^^^ x.rotateRight k

/-- One round with its constant and its word: each chain grows by a word at its head. -/
def HashChains.grow (c : HashChains) (k w : DWord) : HashChains :=
  let (a0, a1, a2, a3) := c.a
  let (e0, e1, e2, e3) := c.e
  let picked := e2 ^^^ (e0 &&& (e1 ^^^ e2))
  let common := (a0 &&& a1) ||| (a2 &&& (a0 ||| a1))
  let t := e3 + picked + spun e0 14 18 41 + (k + w)
  ⟨(t + common + spun a0 28 34 39, a0, a1, a2), (a3 + t, e0, e1, e2)⟩

/-- The word that joins a window of sixteen message words, the oldest first. -/
def nextWord (ws : List DWord) : DWord :=
  let at_ (k : Nat) : DWord := ws.getD k 0
  let near := at_ 14
  let far := at_ 1
  at_ 0 + at_ 9 + ((near.rotateRight 19 ^^^ near.rotateRight 61) ^^^ (near >>> 6)) +
    ((far.rotateRight 1 ^^^ far.rotateRight 8) ^^^ (far >>> 7))

/-- The rounds of the constants given, over a window that slides on by a word in each. -/
def HashChains.rounds : List DWord → List DWord → HashChains → HashChains
  | [], _, c => c
  | k :: ks, ws, c => HashChains.rounds ks (ws.drop 1 ++ [nextWord ws]) (c.grow k (ws.getD 0 0))

/-- Sums word by word. -/
def HashChains.plus (x y : HashChains) : HashChains :=
  ⟨(x.a.1 + y.a.1, x.a.2.1 + y.a.2.1, x.a.2.2.1 + y.a.2.2.1, x.a.2.2.2 + y.a.2.2.2),
    (x.e.1 + y.e.1, x.e.2.1 + y.e.2.1, x.e.2.2.1 + y.e.2.2.1, x.e.2.2.2 + y.e.2.2.2)⟩

/-- The eight words as 64 bytes, each most significant byte first. -/
def HashChains.digest (c : HashChains) : List Byte :=
  [c.a.1, c.a.2.1, c.a.2.2.1, c.a.2.2.2, c.e.1, c.e.2.1, c.e.2.2.1, c.e.2.2.2].flatMap fun w => (leBytes w.toNat 8).reverse

/-- The words of a message's bytes, most significant byte first; `n` of them. -/
def messageWords : Nat → List Byte → List DWord
  | 0, _ => []
  | n + 1, bs => BitVec.ofNat 64 (leVal (bs.take 8).reverse) :: messageWords n (bs.drop 8)

/-- The blocks of sixteen words, `n` of them, taken in one after another. -/
def HashChains.absorb (ks : List DWord) : Nat → List DWord → HashChains → HashChains
  | 0, _, c => c
  | n + 1, ws, c => HashChains.absorb ks n (ws.drop 16) (c.plus (HashChains.rounds ks (ws.take 16) c))

/-- SHA-512 of a message: it ends with a 1 bit, zeros up to a whole block, and its length in bits in the last 16 bytes. -/
def sha512 (m : List Byte) : List Byte :=
  let blocks := (m.length + 144) / 128
  let filled := m ++ 0x80 :: List.replicate (128 * blocks - m.length - 17) 0 ++ (leBytes (8 * m.length) 16).reverse
  (HashChains.first.absorb roundConstants blocks (messageWords (16 * blocks) filled)).digest

end Sys2Proof.Machine
end

