-- ==== Sys2Proof/Machine/Faulting.lean ====
section
/-!
DEFINITION. Fault records and replays (R58 to R63, R69), invalidation (R54 to R56), and the routine table (R152, R153).
-/

namespace Sys2Proof.Machine

/-! ### Fault records (R61, R62) -/

/-- R61: the eight words of a record. SUB is 0 where the requester is a quill context, which has no sub-core: R61 is silent there (log 134,
DESIGN CHOICE). -/
def State.faultRecord (s : State) (e : FaultEntry) (seq : Nat) : List Nat :=
  let f := s.func e.fn
  let who := match s.group e.gid with
    | some g => (if g.quill then 2 ^ 15 else 0) + g.slot % 16 * 2 ^ 11 + (if g.quill then 0 else g.sub % 8) * 2 ^ 8 +
        g.core % 48 * 2 ^ 2 + g.core / 48
    | none => 0
  let job := match s.group e.gid with
    | some g => g.launch % 2 ^ 32 * 2 ^ 32 + g.teamNo
    | none => 0
  [e.vaddr, seq * 2 ^ 32 + f.gen % 256 * 2 ^ 16 + e.lvl * 2 ^ 12 + e.acc * 2 ^ 8 + e.kind,
    e.optag % 2 ^ 32 * 2 ^ 32 + e.cls * 2 ^ 16 + who, e.caln, job, 0, 0, 0]

/-- R61: the oldest entry of a function whose record has not been written. -/
def State.unrecorded (s : State) (fn : Nat) : Option (Nat × FaultEntry) := s.faults.find? fun e => e.2.fn == fn && e.2.seq.isNone

/-- FAULT_RECORD_WRITE: the record whole, then FQTAIL; a full queue sets OVF, and the record waits. A tail that a smaller SIZE has left beyond
the queue, and a base that is not aligned to it, are used as they stand (log 125). -/
def State.faultRecordWrite (s : State) (fn : Nat) : State :=
  match s.unrecorded fn with
  | none => s
  | some (k, e) =>
    let f := s.func fn
    let size := 2 ^ f.fqSize
    if !f.fqEn then s
    else if (f.fqTail + 1) % size = f.fqHead % size then s.modFunc fn fun f => { f with fqOvf := true }
    else
      let at_ := s.localLocOf fn (bitsOf f.fqbase.toNat 47 6 * 64 + 64 * f.fqTail)
      let bs := (s.faultRecord e f.nextSeq).flatMap fun w => leBytes w 8
      let s1 := (s.poke f.owner at_ ((List.range 64).map fun j => (j, bs.getD j 0))).touch none at_
      let s2 := { s1 with faults := KMap.adjust s1.faults k fun e => { e with seq := some f.nextSeq } }.modFunc fn fun f =>
        { f with fqTail := (f.fqTail + 1) % size, nextSeq := (f.nextSeq + 1) % 2 ^ 32 }
      if f.fqIrq then { s2 with irqs := s2.irqs ++ [.fault fn] } else s2

def execFaultRecordWrite (fn : Nat) (s : State) : Out := .next (s.faultRecordWrite fn)

/-! ### Replays (R59, R63, R69) -/

/-- The requests held in an entry. -/
def Req.heldBy (r : Req) (f : Nat) : Bool := match r.stage with | .held es => es.contains f | _ => false
def State.heldIn (s : State) (f : Nat) : List (Nat × Req) := s.reqs.filter fun e => e.2.heldBy f

/-- R63, R376: a request held in entry `f` is walked again: it proceeds once the entries of all its pages have been replayed, or stays with
the failure of its address on this entry's page (address, KIND, LVL). -/
def State.proceed (s : State) (f q : Nat) (r : Req) : State × Option (Nat × Nat × Nat) :=
  match KMap.get s.ops r.op, KMap.get s.faults f, r.stage with
  | some o, some e, .held es =>
    (match (s.failures o r.acc r).find? fun x => s.faultPage o x.1 == e.page with
    | some x => (s, some x)
    | none => (s.walkAgain q o r (es.erase f), none))
  | _, _, _ => (s, none)

/-- R63: a walk that fails again: the entry stays held, with a new record to write, which shows `va` and ACC of what failed; a record of the
entry that has not been written yet gives way to it (log 98). -/
def State.renew (s : State) (f : Nat) (e : FaultEntry) (va acc k l : Nat) : State :=
  let n := s.nextFault
  let again : FaultEntry :=
    { e with vaddr := va / 32 * 32, acc := acc, kind := k, lvl := l, seq := none, caln := s.caln, again := false }
  { s with
    faults := KMap.put (KMap.del s.faults f) n again
    nextFault := n + 1
    reqs := s.reqs.map fun r => (r.1, match r.2.stage with
      | .held es => { r.2 with stage := .held (es.map fun x => if x = f then n else x) }
      | _ => r.2)
    groups := s.groups.map fun g =>
      (g.1, { g.2 with gangs := g.2.gangs.map fun x => if x.hold = .fetch f then { x with hold := .fetch n } else x }) }

/-- R59, R69: a context none of whose operations or fetches is held is ready again, each gang at its region entry, also while it is being
switched out; one that is out resumes on its return. -/
def State.unpark (s : State) (gid : Nat) : State :=
  match s.group gid with
  | some g =>
    if g.faultParked ∧ !s.faults.any (fun e => e.2.gid == gid) ∧ !(s.opsAll gid).any s.isHeld ∧ g.presence ≠ .away then
      s.setGroup gid { g.resumeAll with faultParked := false }
    else s
  | none => s

/-- Every context that may be ready again. -/
def State.unparkAll (s : State) : State := ((s.groups.filter fun e => e.2.faultParked).map Prod.fst).foldl State.unpark s

/-- R63: the held requests of an entry, walked again in order, with the failures of those that stay. -/
def State.proceedAll (s : State) (f : Nat) : State × List (Req × Nat × Nat × Nat) :=
  (s.heldIn f).foldl (fun x r =>
    let (t, bad) := x.1.proceed f r.1 r.2
    (t, x.2 ++ (bad.toList.map fun b => (r.2, b)))) (s, [])

/-- R63: one entry is walked again. -/
def State.replayEntry (s : State) (f : Nat) : State :=
  match KMap.get s.faults f with
  | none => s
  | some e =>
    let s1 : State := match e.op with
      | some o =>
        (match KMap.get s.ops o with
        | some x =>
          if s.opNeedsContext x then { s with faults := KMap.put s.faults f { e with again := true } }
          else
            let (s2, bad) := s.proceedAll f
            (match bad.head? with
            | none => { s2 with faults := KMap.del s2.faults f }
            | some (r, va, k, l) => s2.renew f e ((bad.map fun b => b.2.1).foldl min va) r.acc k l)
        | none => { s with faults := KMap.del s.faults f })
      | none =>
        let u := match s.group e.gid with | some g => g.core | none => 192
        (match s.translateAt u e.fn e.vaddr 3 with
        | .ok _ =>
          let freed : State := { s.cacheLookup u e.fn e.vaddr with faults := KMap.del s.faults f }
          freed.modGroup e.gid fun g => g.modGang e.gang fun k => if k.hold = .fetch f then { k with hold := .none } else k
        | .fault k l => s.renew f e e.vaddr 3 k l)
    s1.unparkAll

/-- REPLAY_ALL: every held entry of the function. -/
def execReplayAll (fn : Nat) (s : State) : Out :=
  .next (s.afterWindow (.replayAll fn) (((s.faults.filter fun e => e.2.fn == fn).map Prod.fst).foldl State.replayEntry s))

/-- REPLAY_SEQ: the held entry whose record carries SEQ, if there is one. -/
def execReplaySeq (fn seq : Nat) (s : State) : Out :=
  .next (s.afterWindow (.replaySeq fn seq) (match KMap.findKey s.faults fun _ e => e.fn == fn && e.seq == some seq with
    | some f => s.replayEntry f
    | none => s))

/-! ### Invalidation (R54, R56) -/

/-- R56: a virtual page of `2 ^ bits` bytes overlaps the range of the function's registers, or the range is everything. INVADDR counts as it
stands, though it may have been written since the start (log 127). -/
def Func.covers (f : Func) (vpn bits : Nat) : Bool :=
  !f.invRange ||
    (let lo := f.invaddr.toNat / 4096 * 4096 % 2 ^ 52
     decide (vpn * 2 ^ bits < lo + 4096 * f.invPages) && decide (lo < (vpn + 1) * 2 ^ bits))

/-- R56: cached translations that the invalidation covers are removed. -/
def State.dropTlb (s : State) (fn : Nat) : State :=
  { s with tlb := s.tlb.filter fun e => !(e.fn == fn && (s.func fn).covers e.vpn e.bits) }

/-- R56: a request has a translation and has not performed. -/
def Req.unperformed (r : Req) : Bool :=
  r.loc.isSome && match r.stage with
    | .done | .refused | .answered _ | .held _ => false
    | _ => true

/-- R56: a write of INVCTL with GO set, over a range of `pages` pages, or over everything. -/
def State.invalidate (s : State) (fn : Nat) (pages : Option Nat) : State :=
  if (s.func fn).invBusy then s
  else
    let s1 := s.modFunc fn fun f => { f with invBusy := true, invRange := pages.isSome, invPages := (pages.getD f.invPages) % 2 ^ 32 }
    let f := s1.func fn
    let used := (s1.reqs.filter fun e => e.2.unperformed && (KMap.get s1.ops e.2.op).any fun o => o.fn == fn && o.dev == s.devnum &&
      (e.2.va.toList ++ e.2.far.toList).any fun va => f.covers (va % 2 ^ 52 / 2 ^ e.2.bits) e.2.bits).map Prod.fst
    (s1.dropTlb fn).modFunc fn fun f => { f with invOps := used }

def execInvalidateAll (fn : Nat) (s : State) : Out := .next (s.afterWindow (.invalidateAll fn) (s.invalidate fn none))
def execInvalidateRange (fn pages : Nat) (s : State) : Out := .next (s.afterWindow (.invalidateRange fn pages) (s.invalidate fn (some pages)))

/-- R56: every access that used a covered translation has performed. -/
def State.invDone (s : State) (fn : Nat) : Bool :=
  (s.func fn).invBusy && (s.func fn).invOps.all fun q => match KMap.get s.reqs q with | some r => !r.unperformed | none => true

/-- INVALIDATION_COMPLETE: GO falls. -/
def execInvalidationComplete (fn : Nat) (s : State) : Out :=
  .next (if s.invDone fn then (s.dropTlb fn).modFunc fn fun f => { f with invBusy := false, invOps := [] } else s)

/-! ### Measurements (R380) -/

def State.measure (s : State) (i : Nat) : List Byte := KMap.getD s.meas i (List.replicate 64 0)

/-- R380: MEAS `i` takes an image. -/
def State.extend (s : State) (i : Nat) (image : List Byte) : State :=
  { s with meas := KMap.put s.meas i (sha512 (s.measure i ++ sha512 image)) }

/-! ### The routine table (R152, R153) -/

/-- R153: the bytes of the table as it stands in memory. -/
def State.tableBytes (s : State) (fn : Nat) : List Byte :=
  s.memRead (s.func fn).owner (s.dpaOf fn (bitsOf (s.func fn).aptbase.toNat 47 15 * 32768)) 32768

/-- R153: an entry of the table: whether it is marked valid, whether it passes, and its code. -/
def State.tableEntry (s : State) (fn k : Nat) : Bool × Bool × List Word :=
  let f := s.func fn
  let bs := s.memRead f.owner (s.dpaOf fn (bitsOf f.aptbase.toNat 47 15 * 32768 + 128 * k)) 128
  let w := leVal ((bs.drop 64).take 8)
  let n := bitsOf w 7 4 + 1
  let code := (List.range n).map fun j => word (leVal ((bs.drop (4 * j)).take 4))
  (w.testBit 0, rvCodeOk code, code)

/-- ROUTINE_TABLE_INSTALL: a write of APTCTL with GO: the check of the table begins. -/
def execRoutineTableInstall (fn : Nat) (s : State) : Out :=
  .next (s.ifEnabled (if (s.func fn).aptBusy then s else s.modFunc fn fun f => { f with aptBusy := true }))

/-- ROUTINE_TABLE_INSTALL_DONE: the check ends, GO falls, and every home uses the new table, which MEAS3 has taken before (R380, log 99). -/
def State.installDone (s : State) (fn : Nat) : State :=
  if !(s.func fn).aptBusy then s
  else
    let es := (List.range 256).map fun k => (k, s.tableEntry fn k)
    let owner := (s.func fn).owner
    let failed := (es.find? fun e => e.2.1 && !e.2.2.1).map Prod.fst
    let new := (es.filter fun e => e.2.1).map fun e => (owner, e.1, ({ valid := e.2.2.1, code := e.2.2.2 } : Routine))
    let s1 : State := { s.extend 3 (s.tableBytes fn) with routines := (s.routines.filter fun r => r.1 != owner) ++ new }
    s1.modFunc fn fun f =>
      { f with aptBusy := false, aptErr := f.aptErr || failed.isSome, aptFail := failed.getD f.aptFail }

def execRoutineTableInstallDone (fn : Nat) (s : State) : Out := .next (s.installDone fn)

end Sys2Proof.Machine
end

