-- ==== Sys2Proof/Machine/Frontend.lean ====
section
/-!
DEFINITION. The command front end and run-ahead (R306 to R330), and the end of a task's launch (R338).
-/

namespace Sys2Proof.Machine

/-! ### Commands (R309 to R311) -/

def Cmd.word (c : Cmd) (k : Nat) : DWord := c.getD k 0
def Cmd.w (c : Cmd) (k : Nat) : Nat := (Cmd.word c k).toNat
def Cmd.kind (c : Cmd) : Nat := bitsOf (Cmd.w c 0) 7 0
def Cmd.argc (c : Cmd) : Nat := bitsOf (Cmd.w c 0) 11 8
def Cmd.nopred (c : Cmd) : Bool := (Cmd.w c 0).testBit 12
def Cmd.tgrp (c : Cmd) : Nat := bitsOf (Cmd.w c 0) 22 16
def Cmd.tag (c : Cmd) : Nat := bitsOf (Cmd.w c 0) 63 32
/-- R310: GX, GY, GZ and the team count. -/
def Cmd.gx (c : Cmd) : Nat := bitsOf (Cmd.w c 3) 21 0
def Cmd.gy (c : Cmd) : Nat := bitsOf (Cmd.w c 3) 42 22
def Cmd.gz (c : Cmd) : Nat := bitsOf (Cmd.w c 3) 63 43
def Cmd.teams (c : Cmd) : Nat := Cmd.gx c * Cmd.gy c * Cmd.gz c
def Cmd.handle (c : Cmd) : Nat := bitsOf (Cmd.w c 2) 63 44
def Cmd.raddr (c : Cmd) : Nat := bitsOf (Cmd.w c 2) 43 0
/-- Argument `i` of a LAUNCH: 0 beyond ARGC. -/
def Cmd.arg (c : Cmd) (i : Nat) : DWord := if i < Cmd.argc c then Cmd.word c (4 + i) else 0

/-- R310: the record's address. -/
def Cmd.recordAt (c : Cmd) (f : Func) : DWord :=
  if Cmd.raddr c = 0 then dword (bitsOf f.ktbase.toNat 63 12 * 4096 + 256 * Cmd.handle c)
  else (BitVec.ofNat 52 (Cmd.raddr c * 256)).signExtend 64

/-- R310: the words beyond word 1 that a kind uses. -/
def usedWords (kind : Nat) : Nat :=
  match kind with
  | 1 => 14
  | 2 => 8
  | 3 | 4 => 3
  | _ => 1

def misaligned (a : DWord) (n : Nat) : Bool := decide (a.toNat % n ≠ 0) || !canonical a.toNat

/-- R311, details 1 and 2. -/
def Cmd.malformed (c : Cmd) : Option Nat :=
  let k := Cmd.kind c
  let w0 := Cmd.w c 0
  if k = 0 ∨ 5 < k then some 1
  else if bitsOf w0 31 23 ≠ 0 ∨ bitsOf w0 15 13 ≠ 0 ∨ (k ≠ 1 ∧ (bitsOf w0 22 16 ≠ 0 ∨ bitsOf w0 12 8 ≠ 0)) ∨
      ((List.range 16).any fun j => decide (2 + usedWords k ≤ j) && Cmd.w c j != 0) ∨
      (k = 3 ∧ (bitsOf (Cmd.w c 4) 63 8 ≠ 0 ∨ bitsOf (Cmd.w c 4) 6 2 ≠ 0 ∨ bitsOf (Cmd.w c 4) 1 0 = 3)) ∨
      (k = 4 ∧ (bitsOf (Cmd.w c 4) 31 2 ≠ 0 ∨ bitsOf (Cmd.w c 4) 1 0 = 3)) then some 2
  else none

/-- The control block of a COPY, and which of the copy class it is. -/
def Cmd.blk (c : Cmd) : CopyBlk := copyBlkOf fun k => Cmd.word c (2 + k)
def CopyBlk.op (b : CopyBlk) : CopyOp := if b.rop ≠ 0 then .copyr else if b.mcm ≠ 0 then .bcast else .copy

/-- R44: an endpoint of a COPY that is not canonical. -/
def CopyBlk.offCanon (b : CopyBlk) : Bool :=
  let ends (a : Nat) (st : List Nat) : Bool := !(canonical a && canonical ((a + b.span st) % 2 ^ 64))
  ends b.src.toNat b.ss || ends b.dst.toNat b.ds

/-- R311: the detail of the first check that a command fails. -/
def Cmd.bad (c : Cmd) (f : Func) : Option Nat :=
  let k := Cmd.kind c
  match Cmd.malformed c with
  | some d => some d
  | none =>
    if k = 1 ∧ (12 < Cmd.argc c ∨ 96 < Cmd.tgrp c) then some 3
    else if k = 1 ∧ (Cmd.teams c = 0 ∨ 2 ^ 32 - 1 < Cmd.teams c) then some 4
    else if k = 1 ∧ Cmd.raddr c = 0 ∧ 2 ^ bitsOf f.ktbase.toNat 4 0 ≤ Cmd.handle c then some 5
    else if misaligned (Cmd.word c 1) 16 ∨ ((k = 3 ∨ k = 4) ∧ misaligned (Cmd.word c 2) 8) ∨ (k = 5 ∧ misaligned (Cmd.word c 2) 256) ∨
        (k = 2 ∧ (Cmd.blk c).offCanon) then some 6
    else if k = 2 then
      let b := Cmd.blk c
      match b.bad b.op with
      | some n => some (16 + n)
      | none => if b.bind ∨ b.shf ∨ b.sloc ∨ b.dloc then some 16 else none
    else none

/-! ### Registers of a queue (R306 to R308) -/

/-- QUEUE_DOORBELL: a write of QTAIL. -/
def execQueueDoorbell (fn q v : Nat) (s : State) : Out :=
  .next (s.ifEnabled (s.modQueue fn q fun x => { x with qtail := v % 2 ^ x.size }))

/-- QCTL_WRITE. Clearing INF ends an open ductus, its predictions refuted; clearing EN ends one none of whose predictions is
outstanding, with an ENDC that the manual does not name (log 31). -/
def State.qctlWrite (s : State) (fn q v : Nat) : State :=
  let size := bitsOf v 4 0
  let s1 := s.modQueue fn q fun x =>
    { x with inf := v.testBit 24, depth := min 16 (bitsOf v 20 16), en := v.testBit 8
             size := if 4 ≤ size ∧ size ≤ 16 then size else x.size }
  match (s.queue fn q).ductus with
  | some x =>
    if !x.open_ then s1
    else match (s1.openPreds x.d).head? with
      | some p => if v.testBit 24 then s1 else s1.refute fn q x.d p.2 4
      | none => if !v.testBit 24 then s1.endDuctus fn q 4 else if !v.testBit 8 then s1.endDuctus fn q (Config.enEnd s.turn % 256) else s1
  | none => s1

def execQctlWrite (fn q v : Nat) (s : State) : Out := .next (s.ifEnabled (s.qctlWrite fn q v))

/-! ### The ductus as software sees it (R327, R330) -/

/-- R327: the cause of a stall by the point of R319. -/
def stallCode (p : Nat) : Nat :=
  match p with
  | 7 => 4
  | 8 => 5
  | 10 => 1
  | 11 => 3
  | _ => 2

/-- R319: a request of the launch `l` stands at an irrevocable point of its own: a write without space (R142, R166), or a list of an SHREAD that
meets a peer or a full watch set, whatever its gang does meanwhile. -/
def State.reqBlocked (s : State) (l : Nat) : Option Nat :=
  s.reqs.findSome? fun e =>
    if !(KMap.get s.ops e.2.op).any (fun o => (s.group o.gid).any fun g => g.launch == l) then none
    else if s.stuck e.2 then some 10
    else if s.listStalls e.2 then some (match e.2.loc with | some (.dpa a) => if devOf a ≠ s.devnum then 2 else 11 | _ => 11)
    else none

/-- R319: the point at which a launch is stalled: before its record, in a gang of it, in an operation, or in one of its requests. -/
def State.stalledAt (s : State) (l : Nat) : Option Nat :=
  ((KMap.get s.launches l).bind fun x => x.unread.map Prod.fst).or
  (((s.groups.filter fun e => e.2.launch == l).findSome? fun e => e.2.gangs.findSome? fun k => match k.hold with
      | .stall p => some p
      | _ => none).or
  ((s.ops.findSome? fun e => match s.group e.2.gid with
        | some g => if g.launch = l ∧ !e.2.started then s.specBlocked e.2 (s.opTag e.2) ((s.plans e.2).drop e.2.made) else none
        | none => none).or
  (s.reqBlocked l)))

/-- R327: STC and STATE of a queue's ductus. -/
def State.ductusState (s : State) (x : Ductus) : Nat × Nat :=
  if !x.open_ then (0, 3)
  else match (s.openPreds x.d).findSome? fun p => s.stalledAt p.1 with
    | some p => (stallCode p, 2)
    | none => (0, 1)

/-- R306, R330: QSTAT. -/
def State.qstat (s : State) (fn q : Nat) : Nat :=
  let y := s.queue fn q
  (if y.ferr then 2 ^ 10 else 0) + (if y.clost then 2 ^ 9 else 0) +
    match y.ductus with
    | some x => x.conf % 2 ^ 32 * 2 ^ 32 + (s.openPreds x.d).length * 2 ^ 4 + (s.ductusState x).2
    | none => 0

/-- QSTAT_READ: the value, and FERR and CLOST clear. -/
def execQstatRead (fn q : Nat) (s : State) : Out :=
  .next (s.ifEnabled ({ s with hostRead := leBytes (s.qstat fn q) 8 }.modQueue fn q fun x => { x with ferr := false, clost := false }))

/-- R306: a ring lies in HBM or the host window. -/
def State.ringOk (s : State) (fn a : Nat) : Bool :=
  decide (a + 128 ≤ s.hbmTop fn) || (decide (Config.hostWindow ≤ a) && decide (a + 128 ≤ 2 ^ 48))

/-! ### The ductus (R315, R316, R321, R329) -/

/-- R315: one shape. -/
def Cmd.sameShape (a b : Cmd) : Bool :=
  Cmd.w a 2 == Cmd.w b 2 && Cmd.w a 3 == Cmd.w b 3 && Cmd.tgrp a == Cmd.tgrp b && Cmd.argc a == Cmd.argc b

/-- R316: the first rule that a list of values fits. -/
def ruleOf (xs : List DWord) : Option ArgRule :=
  let x (k : Nat) : DWord := xs.getD k 0
  let n := xs.length
  let d := x 1 - x 0
  let cyc (p : Nat) : Bool := decide (p + 1 ≤ n) && (List.range n).all fun k => decide (k < p) || x k == x (k - p)
  if (List.range n).all fun k => x k == x 0 then some (.constant (x 0))
  else if (List.range n).all fun k => x k == x 0 + dword k * d then some (.affine (x 0) d)
  else ([2, 3, 4].find? cyc).map fun p => .cycle (xs.take p)

def ArgRule.words : ArgRule → List DWord
  | .constant x => [x]
  | .affine x d => [x, d]
  | .cycle xs => xs
  | .unused => []

/-- R316: the value at launch k. -/
def ArgRule.at (r : ArgRule) (k : Nat) : DWord :=
  match r with
  | .constant x => x
  | .affine x d => x + dword k * d
  | .cycle xs => xs.getD (k % xs.length) 0
  | .unused => 0

/-- All values, if each is there. -/
def allSome {α : Type} : List (Option α) → Option (List α)
  | [] => some []
  | none :: _ => none
  | some x :: l => (allSome l).map (x :: ·)

/-- R315, R316: the rules of a run, if it forms a ductus. -/
def rulesOf (run : List Cmd) : Option (List ArgRule) :=
  match run.getLast? with
  | none => none
  | some c =>
    if run.length < 3 then none
    else match allSome ((List.range (Cmd.argc c)).map fun i => ruleOf (run.map fun x => Cmd.arg x i)) with
      | none => none
      | some rs => if 24 < ((rs.map fun r => r.words.length).sum) then none
          else some (rs ++ List.replicate (12 - rs.length) .unused)

/-- R317: the LAUNCH that a ductus gives for launch k. -/
def Ductus.command (x : Ductus) (k : Nat) : Cmd :=
  (List.range 16).map fun j => if j < 4 then Cmd.word x.template j else (x.rules.getD (j - 4) .unused).at k

/-- R321: a command equals the one that a ductus gives for launch k. One that fails a check of R311 is no such command (log 100). -/
def Ductus.matches (x : Ductus) (k : Nat) (f : Func) (c : Cmd) : Bool :=
  let p := x.command k
  (Cmd.bad c f).isNone && Cmd.kind c == 1 && !Cmd.nopred c && Cmd.sameShape p c && (List.range (Cmd.argc c)).all fun i => Cmd.arg c i == Cmd.arg p i

/-- R321: a prediction becomes real: it takes the command's TAG and CADDR. -/
def State.confirm (s : State) (fn q l : Nat) (c : Cmd) : State :=
  let s1 := s.modLaunch l fun x =>
    { x with tag := Cmd.tag c, caddr := Cmd.word c 1, pred := x.pred.map fun p => { p with confirmed := true } }
  s1.modQueue fn q fun y => { y with ductus := y.ductus.map fun x =>
    { x with conf := x.conf + 1, oldK := match (s1.openPreds x.d).head? with | some p => p.2 | none => x.nextK } }

/-- R315: a run grows by one LAUNCH. -/
def extendRun (run : List Cmd) (c : Cmd) : List Cmd :=
  if Cmd.kind c ≠ 1 ∨ Cmd.nopred c then []
  else match run.getLast? with
    | some p => if Cmd.sameShape p c then (run ++ [c]).drop (run.length + 1 - 8) else [c]
    | none => [c]

/-- PREDICTION_COMPARE for the command that arrived last; a DUCTUS-READ is not compared (R315, R324). -/
def State.predictionCompare (s : State) (fn q : Nat) : State :=
  let y := s.queue fn q
  match y.arrived.getLast? with
  | none => s
  | some c =>
    if y.compared ∨ Cmd.kind c = 5 then s
    else
      let s1 := s.modQueue fn q fun y => { y with compared := true }
      let ended (s : State) : State := s.modQueue fn q fun y => { y with run := extendRun [] c }
      let fresh (s : State) : State :=
        let run := extendRun y.run c
        match (if y.inf then rulesOf run else none) with
        | some rs =>
          let x : Ductus :=
            { d := s.nextDuc, template := c, rules := rs, nextK := run.length, oldK := run.length, conf := 0, watch := [],
              endc := match y.ductus with | some z => z.endc | none => 0, open_ := true }
          { s with nextDuc := s.nextDuc + 1 }.modQueue fn q fun y => { y with run := [], ductus := some x }
        | none => s.modQueue fn q fun y => { y with run := run }
      match y.ductus with
      | some x =>
        if !x.open_ then fresh s1
        else match (s1.openPreds x.d).head? with
          | some (l, k) => if x.matches k (s.func fn) c then s1.confirm fn q l c else ended (s1.refute fn q x.d k 1)
          | none =>
            if x.matches x.nextK (s.func fn) c then s1.modQueue fn q fun y => { y with ductus := y.ductus.map fun x =>
              { x with nextK := x.nextK + 1, oldK := x.nextK + 1 } }
            else ended (s1.endDuctus fn q 3)
      | none => fresh s1

def execPredictionCompare (fn q : Nat) (s : State) : Out := .next (s.predictionCompare fn q)

/-! ### Completion of a launch (R308) -/

/-- R308: every team has retired, and every access has performed; a store of a retired context may still stand in an OQ, and a sector of a
retired operation in a landing buffer (R373). -/
def State.launchQuiet (s : State) (l : Nat) (x : Launch) : Bool :=
  x.ready && !s.ops.any (fun e => decide (landedGid 0 ≤ e.2.gid) && e.2.ord == l + 1) && !s.groups.any (fun e => e.2.launch == l) && s.oq.all fun e => e.2.all fun w => (s.group w.gid).isSome

/-- R308: the launch has completed. -/
def State.launchOver (s : State) (l : Nat) (x : Launch) : Bool :=
  s.launchQuiet l x && !s.sheaves.any (fun e => e.2.launch == l && (e.2.open_ || e.2.closing)) &&
    match x.pred with | some p => p.promoted | none => true

/-! ### Predictions (R317, R322) -/

/-- Launches of a queue. -/
def State.queueLaunches (s : State) (fn q : Nat) : List (Nat × Launch) := s.launches.filter fun e => e.2.job == .queue fn q

/-- R308: the slot at QHEAD is to be fetched. -/
def Queue.pending (y : Queue) : Bool := y.en && decide (y.qhead % 2 ^ y.size ≠ y.qtail % 2 ^ y.size)

/-- R317: prediction NEXTK may start: the launches before it have completed, provisionally or in full, DEPTH allows it, and no later command
has arrived. -/
def State.mayPredict (s : State) (fn q : Nat) (y : Queue) (x : Ductus) : Bool :=
  let waiting := ((s.queueLaunches fn q).filter fun e => (match e.2.pred with | some p => p.confirmed && some e.1 != y.launchId | none => false))
  let ended (l : Nat) (z : Launch) : Bool := match z.pred with
    | some p => if p.promoted then s.launchOver l z else s.launchQuiet l z
    | none => s.launchOver l z
  x.open_ && y.compared && decide (y.arrived.length = waiting.length) && decide ((s.openPreds x.d).length + 1 ≤ y.depth) &&
    ((s.queueLaunches fn q).all fun e => ended e.1 e.2) && y.opId.isNone && y.wait.isNone

/-- R306: the slot at QHEAD, which is taken as it stands also where it is not below 2^SIZE (log 147, DESIGN CHOICE). -/
def State.slotLoc (s : State) (fn : Nat) (y : Queue) : Loc := s.localLocOf fn (bitsOf y.qbase.toNat 47 7 * 128 + 128 * y.qhead)

/-- R308, R329: the arrival of the command at QHEAD may be enabled: its slot is to be fetched, and the fetch can come back. -/
def State.arrives (s : State) (fn : Nat) (y : Queue) : Bool := y.pending && !s.locShut (s.slotLoc fn y)

/-- R329: the start of a prediction comes before the next arrival when it was enabled before it. -/
def State.startFirst (s : State) (fn q : Nat) (y : Queue) : Bool :=
  (y.ductus.any fun x => s.mayPredict fn q y x) && (y.starts || !s.arrives fn y)

/-- R308, R329: at the end of a step, which of the two is enabled first: an arrival is when its fetch completes, which takes a free time (log
117). -/
def State.settleStarts (s : State) : State :=
  let first (fn q : Nat) (y : Queue) : Bool :=
    (y.ductus.any fun x => s.mayPredict fn q y x) && (y.starts || !s.arrives fn y || Config.fetching s.turn)
  { s with funcs := s.funcs.map fun f => (f.1, { f.2 with queues := f.2.queues.map fun q =>
      (q.1, { q.2 with starts := first f.1 q.1 q.2 }) }) }

/-! ### Arrival (R308, R329, R382) -/

/-- R306: the ring lies in the host window. -/
def Queue.hostRing (y : Queue) : Bool := decide (Config.hostWindow ≤ bitsOf y.qbase.toNat 47 7 * 128)

/-- R382: a ring in the host window is not fetched through a stream that has failed; R308: the fetch of a slot there, or of one that lies in
no region that a ring may occupy, or that is refused, fails. -/
def State.fetchFails (s : State) (fn a : Nat) : Bool :=
  !s.ringOk fn a || (decide (Config.hostWindow ≤ a) && (s.func fn).streamErr) || s.readRefused fn (s.localLocOf fn a)

/-- R308, R324: a failed fetch clears EN, and with it ends a ductus none of whose predictions is outstanding (log 31). -/
def State.fetchFailed (s : State) (fn q : Nat) : State :=
  let s1 : State := { s with irqs := s.irqs ++ [.queueError fn] }
  let s2 := s1.modQueue fn q fun x => { x with en := false, ferr := true }
  match (s.queue fn q).ductus with
  | some x => if x.open_ ∧ s.openPreds x.d = [] then s2.endDuctus fn q (Config.enEnd s.turn % 256) else s2
  | none => s2

/-- COMMAND_ARRIVAL: the slot at QHEAD is fetched, or its fetch fails. A DUCTUS-READ executes at once, and any other command is
compared next. A prediction whose start was enabled before starts first (R329), and host writes from before the doorbell perform first
(R308, R375). -/
def State.commandArrival (s : State) (fn q : Nat) : State :=
  let y := s.queue fn q
  if !y.pending ∨ !s.enabled ∨ (y.arrived ≠ [] ∧ !y.compared) ∨ s.behindWindow then s
  else
    let a := bitsOf y.qbase.toNat 47 7 * 128 + 128 * y.qhead
    let l := s.slotLoc fn y
    if y.starts ∧ (y.ductus.any fun x => s.mayPredict fn q y x) then s
    else if s.fetchFails fn a then s.fetchFailed fn q
    else if s.locShut l then s
    else
      let bs := s.peek (s.func fn).owner l 128
      let cmd : Cmd := (List.range 16).map fun k => dword (wordAt bs k)
      let s1 := s.modQueue fn q fun x =>
        { x with qhead := (x.qhead + 1) % 2 ^ x.size, arrived := x.arrived ++ [cmd], compared := false }
      { s1 with agenda := (if Cmd.kind cmd = 5 then .ductusRead fn q else .predictionCompare fn q) :: s1.agenda }

def execCommandArrival (fn q : Nat) (s : State) : Out := .next (s.commandArrival fn q)

/-- R318, R319: the record of a prediction that reads it now, with the watch-set entry that this adds, or the point at which it stalls: a
translation that would fault, a read of the host or of a peer, a full watch set, or a record that fails its check. -/
def State.predRecord (s : State) (fn d k : Nat) (c : Cmd) : Except Nat (LaunchRec × State) :=
  let at_ := Cmd.recordAt c (s.func fn)
  if (Cmd.bad c (s.func fn)).isSome then .error 9
  else match s.translate fn at_.toNat 0 with
    | .fault .. => .error 8
    | .ok a =>
      match (s.locOf fn a).watchKey s.devnum with
      | none => .error 2
      | some key =>
        if !s.watchRoom d [key] then .error 11
        else match s.readRecord (some (d, k)) fn at_ (Cmd.tgrp c) (Cmd.teams c) with
          | .error _ => .error 9
          | .ok r => .ok (r, s.watchAdd d [key])

/-- PREDICTION_START: the launch that the ductus gives for NEXTK starts, as far as its record or to a point of R319 before it. -/
def State.predictionStart (s : State) (fn q : Nat) : State :=
  let y := s.queue fn q
  match y.ductus with
  | none => s
  | some x =>
    if !s.startFirst fn q y ∨ !s.enabled ∨ (s.inSlotNow ∧ s.virtShut fn (Cmd.recordAt (x.command x.nextK) (s.func fn)).toNat 0 256) then s
    else
      let c := x.command x.nextK
      let args := (List.range 12).map fun i => Cmd.arg c i
      let start (s : State) (r : LaunchRec) : State :=
        s.startLaunch (.queue fn q) fn r args 0 0 (Cmd.teams c) (some ⟨x.d, x.nextK, false, false, false⟩) 0
      let s1 : State := match s.predRecord fn x.d x.nextK c with
        | .ok (r, s1) => start s1 r
        | .error p => (start s ((recordOf []).withTgrp 0)).modLaunch s.nextLaunch fun l =>
            { l with unread := some (p, Cmd.recordAt c (s.func fn), Cmd.tgrp c), deadline := s.caln }
      s1.modQueue fn q fun y => { y with starts := false, ductus := y.ductus.map fun z =>
        { z with nextK := z.nextK + 1, oldK := if (s.openPreds x.d).isEmpty then z.nextK else z.oldK } }

def execPredictionStart (fn q : Nat) (s : State) : Out := .next (s.predictionStart fn q)

/-- R314, R322: a launch that stalled before its record takes it now, as an ordinary launch: its grid enters the ready queue, or it ends with
status 4. -/
def State.takeRecord (s : State) (l : Nat) : State :=
  match KMap.get s.launches l with
  | some x =>
    (match x.unread with
    | some (_, at_, tgrp) =>
      if s.virtShut x.fn at_.toNat 0 256 then s else
      (match s.readRecord none x.fn at_ tgrp x.teams with
      | .ok r => s.modLaunch l fun x => { x with unread := none, record := r, deadline := deadlineAt x.deadline r }
      | .error d => s.modLaunch l fun x => { x with unread := none, status := some (4, d, 0), next := x.teams, ready := true })
    | none => s)
  | none => s

/-- R322: promoted launches whose records could not be read take them when they can be. -/
def State.settleUnread (s : State) : State :=
  (s.launches.filter fun e => e.2.unread.isSome && e.2.pred.any Pred.promoted).foldl (fun s e => s.takeRecord e.1) s

/-- R322: the promotion of a launch is over: what it still does is ordinary, and each stalled gang goes on. -/
def State.promoted (s : State) (l : Nat) : State :=
  let gids := (s.groups.filter fun e => e.2.launch == l).map Prod.fst
  let ops := (s.ops.filter fun e => gids.contains e.2.gid).map Prod.fst
  let t : State := { s.modLaunch l fun x => { x with pred := x.pred.map fun p => { p with promoted := true, cutting := false } } with
    reqs := s.reqs.map fun e => (e.1, if ops.contains e.2.op then { e.2 with tag := none } else e.2)
    groups := s.groups.map fun e => (e.1,
      if e.2.launch = l then { e.2 with gangs := e.2.gangs.map fun k => match k.hold with | .stall _ => { k with hold := .none } | _ => k }
      else e.2) }
  t.takeRecord l

/-- R322: the PROMOTE steps of a launch come next, or its promotion is over. -/
def State.promoteNext (s : State) (l d k : Nat) : State :=
  let homes := nubBy ((s.versions.filter fun v => v.duc == d && v.k == k).map fun v => s.homeOf v.fn (v.line * 128))
  if homes = [] then s.promoted l else { s with agenda := s.agenda ++ homes.map fun h => .promote d k h }

/-- LAUNCH_PROMOTION: the oldest confirmed launch of the queue that is not promoted, once it has completed. -/
def execLaunchPromotion (fn q : Nat) (s : State) : Out :=
  .next (
    let ls := (s.queueLaunches fn q).filterMap fun e => match e.2.pred with
      | some p => if p.promoted then none else some (p.k, e.1, p, e.2)
      | none => none
    match (sortBy Prod.fst ls).head? with
    | some (k, l, p, x) =>
      if s.launchQuiet l x ∧ !p.cutting ∧ s.mayPromote p.duc k then s.promoteNext l p.duc k else s
    | none => s)

/-- R322: a launch is to be cut over: confirmed, running, the oldest not promoted of its ductus, and stalled. -/
def State.mayCut (s : State) (l : Nat) (p : Pred) : Bool :=
  p.confirmed && !p.promoted && (s.stalledAt l).isSome &&
    s.launches.all fun e => match e.2.pred with
      | some z => z.duc != p.duc || decide (p.k ≤ z.k) || z.promoted
      | none => true

/-- CUT_OVER: the launch halts, its versions are promoted, and it goes on as an ordinary launch. -/
def execCutOver (l : Nat) (s : State) : Out :=
  .next (match KMap.get s.launches l with
    | some x =>
      (match x.pred with
      | some p =>
        if p.cutting then (if s.mayPromote p.duc p.k then s.promoteNext l p.duc p.k else s)
        else if s.mayCut l p then s.modLaunch l fun x => { x with pred := x.pred.map fun p => { p with cutting := true } }
        else s
      | none => s)
    | none => s)

/-! ### Execution of commands (R308, R310) -/

/-- R308: the command at the head, when nothing is in execution and it has been compared. -/
def Queue.head (y : Queue) : Option Cmd :=
  if y.current.isSome then none
  else match y.arrived with
    | [] => none
    | [c] => if y.compared then some c else none
    | c :: _ => some c

/-- The head command enters execution. -/
def State.take (s : State) (fn q : Nat) (c : Cmd) (f : Queue → Queue) : State :=
  s.modQueue fn q fun y => f { y with arrived := y.arrived.drop 1, current := some c }

/-- LAUNCH: the head command starts. A confirmed prediction runs already; a command of no kind is taken here as well. -/
def State.launchCommand (s : State) (fn q : Nat) : State :=
  let y := s.queue fn q
  match y.head with
  | none => s
  | some c =>
    if Cmd.kind c ≠ 1 ∧ Cmd.kind c ≠ 0 ∧ Cmd.kind c ≤ 5 then s
    else
      let pre := sortBy Prod.fst ((s.queueLaunches fn q).filterMap fun e => match e.2.pred with
        | some p => if p.confirmed then some (p.k, e.1) else none
        | none => none)
      match pre.head? with
      | some (_, l) => s.take fn q c fun y => { y with launchId := some l }
      | none =>
        match Cmd.bad c (s.func fn) with
        | some d => s.take fn q c fun y => { y with outcome := some (3, d, 0) }
        | none =>
          if s.virtShut fn (Cmd.recordAt c (s.func fn)).toNat 0 256 then s
          else match s.readRecord none fn (Cmd.recordAt c (s.func fn)) (Cmd.tgrp c) (Cmd.teams c) with
          | .error d => s.take fn q c fun y => { y with outcome := some (4, d, 0) }
          | .ok r =>
            ((s.startLaunch (.queue fn q) fn r ((List.range 12).map fun i => Cmd.arg c i) (Cmd.tag c) (Cmd.word c 1) (Cmd.teams c) none 0).take
              fn q c fun y => { y with launchId := some s.nextLaunch })

def execLaunch (fn q : Nat) (s : State) : Out := .next (s.launchCommand fn q)

/-- The context number under which a queue's COPY runs. -/
def queueGid (fn q : Nat) : Nat := 2 ^ 40 + 64 * fn + q

/-- COPY_COMMAND: the block runs as BCOPY or BCOPYR would, under the function's tables and owner. -/
def State.copyCommand (s : State) (fn q : Nat) : State :=
  match (s.queue fn q).head with
  | none => s
  | some c =>
    if Cmd.kind c ≠ 2 then s
    else match Cmd.bad c (s.func fn) with
      | some d => s.take fn q c fun y => { y with outcome := some (3, d, 0) }
      | none =>
        let b := Cmd.blk c
        let op : EngOp :=
          { gid := queueGid fn q, cls := .copy, ord := 0, kind := if b.op = .copyr then .copyr b else .copy b, pc := 0, started := false,
            failed := none, buf := [], have_ := [], bar := none, sh := none, fn := fn, optag := (s.func fn).nextOptag, swept := false, nib := 0,
            dev := s.devnum, made := 0, cost := 0 }
        let s1 : State := { s with ops := KMap.put s.ops s.nextOp op, nextOp := s.nextOp + 1 }
        (s1.modFunc fn fun f => { f with nextOptag := (f.nextOptag + 1) % 2 ^ 32 }).take fn q c fun y => { y with opId := some s.nextOp }

def execCopyCommand (fn q : Nat) (s : State) : Out := .next (s.copyCommand fn q)

/-- SIGNAL_COMMAND (R303, R310). -/
def State.signalCommand (s : State) (fn q : Nat) : State :=
  match (s.queue fn q).head with
  | none => s
  | some c =>
    let done (s : State) (o : Nat × Nat × Nat) : State := s.take fn q c fun y => { y with outcome := some o }
    if Cmd.kind c ≠ 3 then s
    else match Cmd.bad c (s.func fn) with
      | some d => done s (3, d, 0)
      | none =>
        match s.translate fn (Cmd.w c 2) 2 with
        | .fault .. => done s (3, 32, 0)
        | .ok a =>
          let l := s.locOf fn a
          let op := bitsOf (Cmd.w c 4) 1 0
          let host : Bool := match l with | .host _ => true | _ => false
          if s.locShut l ∨ (s.closed ∧ !host) then s
          else if s.readRefused fn l ∨ (host ∧ hostRefuses (.signal 0 op false)) then done s (3, 32, 0)
          else
            let o := (s.func fn).owner
            let new := leBytes (signalF op (leVal (s.peek o l 8)) (Cmd.w c 3)) 8
            let s1 := (s.poke o l ((List.range 8).map fun j => (j, new.getD j 0))).touch none l
            done (if (Cmd.w c 4).testBit 7 then { s1 with irqs := s1.irqs ++ [.signal fn] } else s1) (0, 0, 0)

def execSignalCommand (fn q : Nat) (s : State) : Out := .next (s.signalCommand fn q)

/-- WAIT_COMMAND: the WAIT begins. -/
def State.waitCommand (s : State) (fn q : Nat) : State :=
  match (s.queue fn q).head with
  | none => s
  | some c =>
    if Cmd.kind c ≠ 4 then s
    else match Cmd.bad c (s.func fn) with
      | some d => s.take fn q c fun y => { y with outcome := some (3, d, 0) }
      | none => s.take fn q c fun y =>
          { y with wait := some ⟨false, Cmd.word c 2, Cmd.word c 3, bitsOf (Cmd.w c 4) 1 0, bitsOf (Cmd.w c 4) 63 32, s.caln⟩ }

def execWaitCommand (fn q : Nat) (s : State) : Out := .next (s.waitCommand fn q)

/-- A WAIT ends. -/
def State.waitEnds (s : State) (fn q : Nat) (o : Nat × Nat × Nat) : State :=
  s.modQueue fn q fun y => { y with wait := none, outcome := some o }

/-- WAIT_POLL_READ: the word is read where it lies, whole; a WAIT whose word a write has shown to meet the condition ends here (R310). -/
def execWaitPollRead (fn q : Nat) (s : State) : Out :=
  .next (match (s.queue fn q).wait with
    | none => s
    | some w =>
      if w.hit then s.waitEnds fn q (0, 0, 0)
      else match s.translate fn w.addr.toNat 0 with
      | .fault .. => s.waitEnds fn q (3, 32, 0)
      | .ok a =>
        let l := s.locOf fn a
        if s.locShut l then s
        else if s.readRefused fn l then s.waitEnds fn q (3, 32, 0)
        else if w.holds (leVal (s.peek (s.func fn).owner l 8)) then s.waitEnds fn q (0, 0, 0) else s)

/-- WAIT_TIMEOUT: 1,000 cc to the µs from the WAIT's start. -/
def execWaitTimeout (fn q : Nat) (s : State) : Out :=
  .next (match (s.queue fn q).wait with
    | some w => if !w.hit ∧ w.timeout ≠ 0 ∧ w.since + 1000 * w.timeout ≤ s.caln then s.waitEnds fn q (6, 0, 0) else s
    | none => s)

/-! ### DUCTUS-READ (R327) -/

/-- R327: the rule halfwords with the first pool word of each. -/
def ruleWords : List ArgRule → Nat → List Nat
  | [], _ => []
  | r :: rs, i =>
    (match r with
      | .constant _ => i * 16
      | .affine .. => i * 16 + 1
      | .cycle xs => i * 16 + (xs.length - 1) * 4 + 2
      | .unused => 3) :: ruleWords rs (i + r.words.length)

/-- R327: the record's 256 bytes. -/
def State.ductusRecord (s : State) (fn q : Nat) : List Byte :=
  let y := s.queue fn q
  match y.ductus with
  | none => leBytes (y.depth * 16) 256
  | some x =>
    let (stc, st) := s.ductusState x
    let out := (s.openPreds x.d).length
    let w0 := x.conf % 2 ^ 32 * 2 ^ 32 + stc * 2 ^ 24 + x.endc * 2 ^ 16 + out * 2 ^ 9 + y.depth * 16 + st
    let w1 := x.nextK % 2 ^ 32 * 2 ^ 32 + (if out = 0 then x.nextK else x.oldK) % 2 ^ 32
    let pool := x.rules.flatMap ArgRule.words
    ([w0, w1, Cmd.w x.template 0 % 2 ^ 32, Cmd.w x.template 2, Cmd.w x.template 3].flatMap fun w => leBytes w 8) ++
      (ruleWords x.rules 0).flatMap (fun r => leBytes r 2) ++
      (List.range 24).flatMap fun j => leBytes (pool.getD j 0).toNat 8

/-- DUCTUS_READ of the command that arrived last, as one step. -/
def State.ductusRead (s : State) (fn q : Nat) : State :=
  let y := s.queue fn q
  match y.arrived.getLast? with
  | none => s
  | some c =>
    if Cmd.kind c ≠ 5 ∨ y.compared ∨ s.virtShut fn (Cmd.w c 2) 1 256 then s
    else
      let fin (s : State) (st d : Nat) : State := s.modQueue fn q fun y =>
        { y with arrived := y.arrived.dropLast, compared := true, records := y.records ++ [(c, st, d, 0)] }
      match Cmd.bad c (s.func fn) with
      | some d => fin s 3 d
      | none =>
        match s.translate fn (Cmd.w c 2) 1 with
        | .fault .. => fin s 3 33
        | .ok a =>
          let l := s.locOf fn a
          if s.locRefused fn l then fin s 3 33
          else
            let bs := s.ductusRecord fn q
            fin ((s.poke (s.func fn).owner l ((List.range 256).map fun j => (j, bs.getD j 0))).touchSpan none l 256) 0 0

def execDuctusRead (fn q : Nat) (s : State) : Out := .next (s.ductusRead fn q)

/-! ### Completion records (R312) -/

/-- R373: a sector that a landing buffer has taken of an operation is still to perform. -/
def State.landsYet (s : State) (opId : Nat) : Bool := s.ops.any fun e => e.2.gid == landedGid opId

/-- How the command in execution ended, once it has; a COPY has once what the landing buffer holds of it has performed, too (R127). -/
def State.commandDone (s : State) (y : Queue) : Option (Nat × Nat × Nat) :=
  if y.opId.any s.landsYet then none else
  match y.outcome, y.launchId, y.opId with
  | some o, _, _ => some o
  | none, some l, _ => (match KMap.get s.launches l with
    | some x => if s.launchOver l x then some (x.status.getD (0, 0, 0)) else none
    | none => some (0, 0, 0))
  | none, none, some o => if (KMap.get s.ops o).isSome then none else some (0, 0, 0)
  | none, none, none => none

/-- R312: 16 bytes at CADDR; a record that cannot be written is dropped and sets CLOST. -/
def State.writeRecord (s : State) (fn q : Nat) (c : Cmd) (o : Nat × Nat × Nat) : State :=
  let a := Cmd.word c 1
  let lost (s : State) : State := s.modQueue fn q fun y => { y with clost := true }
  if a = 0 then s
  else if misaligned a 16 then lost s
  else match s.translate fn a.toNat 1 with
    | .fault .. => lost s
    | .ok d =>
      let l := s.locOf fn d
      if s.locRefused fn l then lost s
      else
        let bs := leBytes (Cmd.tag c * 2 ^ 32 + o.2.2 % 65536 * 2 ^ 16 + o.2.1 % 256 * 2 ^ 8 + o.1 % 256) 8 ++ leBytes s.caln 8
        (s.poke (s.func fn).owner l ((List.range 16).map fun j => (j, bs.getD j 0))).touch none l

/-- R323: an open ductus of a queue ends because a launch that it predicted has ended, and its predictions are refuted. -/
def State.ductusOver (s : State) (fn q : Nat) (x : Ductus) : State :=
  if !x.open_ then s
  else match (s.openPreds x.d).head? with
    | some p => s.refute fn q x.d p.2 5
    | none => s.endDuctus fn q 5

/-- R323: at the end of a step, ductus whose confirmed launches have halted, or have ended under R314, end. -/
def State.settleEnds (s : State) : State :=
  let ended (x : Ductus) : Bool := s.launches.any fun e => e.2.status.isSome && e.2.pred.any fun p => p.duc == x.d && p.confirmed
  (s.allQueues.filterMap fun y => match y.2.2.ductus with
    | some x => if x.open_ ∧ ended x then some (y.1, y.2.1, x) else none
    | none => none).foldl (fun s y => s.ductusOver y.1 y.2.1 y.2.2) s

/-- COMPLETION_RECORD_WRITE: of a DUCTUS-READ, or of the command in execution, which is then over. A launch that came from a
prediction and ended otherwise than with status 0 ends its ductus (R323). -/
def State.completionWrite (s : State) (fn q : Nat) : State :=
  let y := s.queue fn q
  match y.records with
  | (c, o) :: r =>
    if s.virtShut fn (Cmd.w c 1) 1 16 then s else (s.writeRecord fn q c o).modQueue fn q fun y => { y with records := r }
  | [] =>
    match y.current, s.commandDone y with
    | some c, some o =>
      if s.virtShut fn (Cmd.w c 1) 1 16 then s else
      let s1 := (s.writeRecord fn q c o).modQueue fn q fun y =>
        { y with current := none, launchId := none, opId := none, outcome := none }
      (match y.launchId with
      | some l =>
        let s2 : State := { s1 with launches := KMap.del s1.launches l, bars := s1.bars.filter fun b => !b.1.of [] [] [l]
                                    passed := s1.passed.filter fun p => p.2.1 != l }
        let of_ (d : Nat) : Bool := (KMap.get s.launches l).any fun x => x.pred.any fun p => p.duc == d
        match (s.queue fn q).ductus with
        | some x => if o.1 ≠ 0 ∧ of_ x.d then s2.ductusOver fn q x else s2
        | none => s2
      | none => s1)
    | _, _ => s

def execCompletionRecordWrite (fn q : Nat) (s : State) : Out := .next (s.completionWrite fn q)

/-! ### The end of a task's launch (R338) -/

/-- TASK_LAUNCH_END. -/
def execTaskLaunchEnd (l : Nat) (s : State) : Out :=
  .next (match KMap.get s.launches l with
    | some x =>
      (match x.job with
      | .task fn n =>
        if !s.launchOver l x then s
        else
          let s1 : State := { s with launches := KMap.del s.launches l, bars := s.bars.filter fun b => !b.1.of [] [] [l]
                                     passed := s.passed.filter fun p => p.2.1 != l }
          let st := (x.status.getD (0, 0, 0)).1
          if st ≠ 0 then s1.taskBadEnd fn n st x.use
          else if ((s1.func fn).task n).st ≠ .running ∨ ((s1.func fn).task n).use ≠ x.use then s1
          else (match s1.taskDone fn n with
            | .ok s2 => s2
            | .error _ => (s1.modTask fn n fun t => { t with st := .done, ctr := 0 }).taskFail fn n 7)
      | .queue .. => s)
    | none => s)

end Sys2Proof.Machine
end

