-- ==== Sys2Proof/Machine/Contexts.lean ====
section
/-!
DEFINITION. Changes of a cluster's class (R342), context images (R78, R359), pre-emption (R68, R69, R362 to R365), function-level reset (R370, R371) and
collectives (R373, R374).
-/

namespace Sys2Proof.Machine

/-! ### Class changes (R341, R342) -/

/-- CLASS_CHANGE_REQUEST: a write of CLASS. -/
def execClassChangeRequest (cl v : Nat) (s : State) : Out :=
  .next (s.modCluster cl fun c =>
    let x := v % 4
    if c.chg then { c with cls := x } else if x = c.cur then { c with cls := x } else { c with cls := x, chg := true, moved := false })

/-- R341: the voltage step of a class. -/
def State.classVstep (s : State) (c : Nat) : Nat := s.classSteps.getD c 9

/-- A team is resident on a core of the cluster. -/
def State.clusterHeld (s : State) (cl : Nat) : Bool := s.groups.any fun e => e.2.core / 4 == cl && e.2.presence != .away

/-- OPERATING_POINT_MOVE: the clock and the voltage move once no team is resident. -/
def execOperatingPointMove (cl : Nat) (s : State) : Out :=
  .next (let c := s.cluster cl
    if c.chg ∧ !c.moved ∧ !s.clusterHeld cl then
      s.modCluster cl fun c => { c with moved := true, vstep := s.classVstep c.cls }
    else s)

/-- CLASS_CHANGE_COMPLETE. A target that changed after the move is the one that CUR takes; the operating point stays as it was moved. -/
def execClassChangeComplete (cl : Nat) (s : State) : Out :=
  .next (let c := s.cluster cl
    if c.chg ∧ c.moved then s.modCluster cl fun c => { c with cur := c.cls, chg := false, moved := false }
    else s)

/-! ### Context images (R78, R359) -/

/-- R78, R359: the fields of the control part of a context image. `inner` bytes belong to parts whose layout the manual does not give,
`priv` bytes to the private area. The registers and the stack behind it go to the image line by line (Machine/Lines.lean, R82). -/
inductive ImageField where
  | gangs
  | pc (n : Nat)
  | entry (n : Nat)
  | mask (n : Nat)
  | form (n : Nat)
  | flags
  | counts
  | phase (n : Nat)
  | control (k : Nat)
  | xflg (t : Nat)
  | recorded (c : EngClass)
  | zero (off : Nat)
  | inner (off : Nat)
  | priv (off : Nat)
  deriving DecidableEq, Repr

/-- R78, R359: where a field stands in the image. -/
def ImageField.offset : ImageField → Nat
  | .gangs => 0x048
  | .pc n => 0x000 + 8 * n
  | .entry n => 0x020 + 8 * n
  | .mask n => 0x040 + 2 * n
  | .form n => 0x050 + 4 * n
  | .flags => 0x060
  | .counts => 0x068
  | .phase n => 0x070 + 4 * n
  | .control k => 0x100 + 8 * k
  | .xflg t => 0x180 + t
  | .recorded c => 0x300 + 16 * classIndex c
  | .zero off | .inner off | .priv off => off

/-- R78, R359: its size in bytes. -/
def ImageField.bytes : ImageField → Nat
  | .gangs | .pc _ | .entry _ | .flags | .counts | .control _ | .recorded _ => 8
  | .form _ | .phase _ => 4
  | .mask _ => 2
  | .xflg _ | .zero _ | .inner _ | .priv _ => 1

/-- The bytes from `lo` up to, not including, `hi`. -/
def spanFields (f : Nat → ImageField) (lo hi : Nat) : List ImageField := (List.range (hi - lo)).map fun i => f (lo + i)

/-- R359: of each class the number of its recorded operations, and 8 bytes that give the address of their records (log 69). -/
def recordFields : List ImageField :=
  [EngClass.copy, .gather, .matrix, .atomic].flatMap fun c =>
    .recorded c :: spanFields .inner (0x308 + 16 * classIndex c) (0x310 + 16 * classIndex c)

/-- R359: the fields of the control part, in the order of their offsets but for those of the nibs. -/
def imageFields : List ImageField :=
  .gangs :: (List.range 4).flatMap (fun n => [.pc n, .entry n, .mask n, .form n, .phase n]) ++ [.flags, .counts] ++
  spanFields .inner 0x080 0x100 ++ (List.range 9).map .control ++ spanFields .inner 0x148 0x180 ++ (List.range 64).map .xflg ++
  spanFields .inner 0x1C0 0x300 ++ recordFields ++ spanFields .zero 0x340 0x400 ++ spanFields .priv 0x400 0x800

/-- The address at which a gang goes on: its next instruction, or the clause that it starts next. -/
def Gang.resumePc (k : Gang) : DWord := match k.clause with | some _ => k.nextPc | none => k.pc

/-- The gang that holds a nib. -/
def Group.gangOfNib (g : Group) (n : Nat) : Option Gang := g.gangs.find? fun k => k.nibs.contains n

/-- R359: the control registers of 0x100 to 0x147, by their codes of R295. -/
def imageControls : List Nat := [0, 2, 3, 4, 5, 6, 7, 9, 10]

/-- R359: what a field of a group's image is saved as. A gang's number is its lowest nib. -/
def State.imageValue (s : State) (gid : Nat) (g : Group) : ImageField → Nat
  | .gangs =>
    ((List.range 4).map fun n => match g.gangOfNib n with
      | some k => k.id * 4 ^ n + (match k.hold with | .join .. => 2 ^ (8 + n) | _ => 0)
      | none => 0).sum +
    (if g.reordHold.isSome then 2 ^ 12 else 0) + (if g.faultParked then 2 ^ 13 else 0) + (if g.offCore then 2 ^ 14 else 0) +
    (if g.h then 2 ^ 15 else 0)
  | .pc n => match g.gangOfNib n with | some k => k.resumePc.toNat | none => 0
  | .entry n => match g.gangOfNib n with | some k => (g.entryOf k n).toNat | none => 0
  | .mask n => (g.nib n).mask.toNat
  | .form n => (g.forms.getD n 0).toNat
  | .flags => ((List.range 12).map fun k => if g.flagClear k then 0 else 2 ^ k).sum + g.instCtr.toNat * 2 ^ 16
  | .counts => s.counter gid .copy + s.counter gid .gather * 2 ^ 8 + s.counter gid .matrix * 2 ^ 16 + s.counter gid .atomic * 2 ^ 24
  | .phase n => (g.nib n).phase.toNat
  | .control k => (s.ctlRead g (imageControls.getD k 11)).toNat
  | .xflg t => (g.flagsOf t).toNat
  | .recorded c => (s.opsOf gid c).length
  | .zero _ => 0
  | .inner off | .priv off => (Config.contextByte s.turn (4096 * gid + off)).toNat

/-- A gang list in which each nib is in the gang of its number: a gang that stays whole stays as it is. -/
def Group.regang (g : Group) (v : Nat) : List Gang :=
  let nibs := (List.range 4).filter fun n => (g.gangOfNib n).isSome
  (List.range 4).filterMap fun c =>
    let mine := nibs.filter fun n => bitsOf v (2 * n + 1) (2 * n) == c
    match mine with
    | [] => none
    | n :: _ => (g.gangOfNib n).map fun k => if k.nibs = mine then k else { k with nibs := mine, pc := k.resumePc, clause := none, hold := .none }

/-- R171, R359: program counters restored as written, by nib: a gang has one, which each of its nibs holds, so nibs that are given different
ones go on as gangs of their own, each at the clause that starts there. -/
def Group.repc (g : Group) (pcs : List (Nat × Nat)) : Group :=
  let split (k : Gang) : List Gang :=
    let at_ (n : Nat) : Option Nat := (pcs.find? fun p => p.1 == n).map Prod.snd
    (nubBy (k.nibs.map at_)).map fun w =>
      let mine := k.nibs.filter fun n => at_ n == w
      match w with
      | none => { k with nibs := mine }
      | some v => { k with nibs := mine, pc := dword v, clause := none, hold := if k.hold = .retry ∨ mine ≠ k.nibs then .none else k.hold }
  { g with gangs := sortBy Gang.id (g.gangs.flatMap split) }

/-- R359: the JOIN and REORD bits of a changed word of gangs: a nib that it takes out of a hold goes on at its program counter; one that it
puts into a hold waits there, at a JOIN for the instance on top of its stack. -/
def Group.holdBits (g : Group) (v : Nat) : Group :=
  let fix (k : Gang) : Gang :=
    let join := k.nibs.any fun n => v.testBit (8 + n)
    match k.hold with
    | .join .. => if join then k else { k with hold := .none }
    | .reord .. => if v.testBit 12 then k else { k with hold := .none }
    | _ =>
      if join then { k with hold := .join k.pc ((((g.nib k.id).stack.head?).map DivEntry.number).getD 0) }
      else if v.testBit 12 then { k with hold := .reord 0 [], clause := none } else k
  { g with gangs := g.gangs.map fix }

/-- R359: a changed byte of a part whose layout the manual does not give: a fence token's slot, the parked gangs, the handler save area,
or a class's record of its operations. What it restores there is free (log 69). -/
def Group.innerSet (g : Group) (turn off : Nat) : Group :=
  let x (j : Nat) : Nat := Config.contextRestored turn (16 * off + j)
  if off < 0x100 then
    let f := g.fences.getD ((off - 0x080) / 16) ⟨0, 0, [], [], []⟩
    let some_ (l : List Nat) (j : Nat) : List Nat := (List.range l.length).filterMap fun k => if (x j).testBit k then l[k]? else none
    let f1 : FenceSlot := ⟨x 0 % 256, x 1 % 7, some_ f.ops 2, some_ f.stores 3, some_ f.loads 4⟩
    { g with fences := listSet ⟨0, 0, [], [], []⟩ f1 g.fences ((off - 0x080) / 16) }
  else if off < 0x180 then
    let cond : ParkCond := if x 0 % 2 = 0 then .barrier (byte (x 1)) else .counter ((classOf (x 1 % 4)).getD .copy) (x 2 % 64)
    { g with gangs := g.gangs.map fun k => match k.hold with | .park .. => { k with hold := .park cond (dword (x 3)) } | _ => k }
  else if off < 0x300 then
    { g with save := g.save.map fun sv => { sv with
        forms := (List.range 4).map fun j => word (x j), s46 := dword (x 4), s47 := dword (x 5)
        nibs := sv.nibs.map fun r => { r with mask := r.mask &&& BitVec.ofNat 16 (x (6 + r.nib)) } } }
  else { g with skew := KMap.put g.skew ((off - 0x300) / 16) (x 0 % 64) }

/-- R25, R59, R359: the region entry of nib `n` of a gang restored as written: the nib, and no other, resumes at `v`, with the mask and the
stack that the snapshot records for it; one recorded at a JOIN is held there as before. -/
def Group.reenter (g : Group) (k : Gang) (n : Nat) (v : DWord) : Group :=
  let move (r : SnapNib) : SnapNib := if r.nib = n then { r with pc := if r.pc = r.entry then v else r.pc, entry := v } else r
  { g with snaps := g.snaps.map fun p => if p.id = k.snap then { p with nibs := p.nibs.map move } else p }

/-- R8, R359: a group whose image holds `v` in a field where something else was saved: it is restored as written, but for the reserved bits of
control registers, in the model's step `turn`; `n` gives the operations of each class (log 69). -/
def Group.imageSet (g : Group) (turn : Nat) (n : EngClass → Nat) (v : Nat) : ImageField → Group
  | .gangs => ({ g with gangs := sortBy Gang.id (g.regang v), faultParked := v.testBit 13, offCore := v.testBit 14, h := v.testBit 15 } : Group).holdBits v
  | .pc n => g.repc [(n, v)]
  | .entry n => match g.gangOfNib n with
    | some k => g.reenter k n (dword v)
    | none => g
  | .mask n => g.modNib n fun x => { x with mask := BitVec.ofNat 16 v }
  | .form n => { g with forms := listModify (fun _ => word v) g.forms n }
  | .flags =>
    { g with
      raises := (g.raises.filter fun r => v.testBit r.flag) ++
        ((List.range 12).filter fun k => v.testBit k && g.flagClear k).map fun k => ⟨k, 0, false⟩
      instCtr := BitVec.ofNat 16 (v / 65536) }
  | .counts =>
    let skewOf (c : EngClass) : Nat := (bitsOf v (8 * classIndex c + 5) (8 * classIndex c) + 64 - n c % 64) % 64
    { g with skew := [.copy, .gather, .matrix, .atomic].foldl (fun m c => KMap.put m (classIndex c) (skewOf c)) g.skew }
  | .phase n => g.modNib n fun x => { x with phase := BitVec.ofNat 32 v }
  | .control 0 => { g with actl := dword v &&& 0x1F7 }
  | .control 1 => { g with trpc := dword v }
  | .control 2 => { g with tcau := dword v &&& 0xFFFFFFFF }
  | .control 3 => { g with tnib := dword v &&& 0xF3 }
  | .control 4 => { g with tmsk := dword v }
  | .control 5 => { g with trgn := dword v }
  | .control 6 => { g with gcyc := dword v }
  | .control 7 => { g with enrg := dword v }
  | .control _ => { g with gidnAs := some (dword v &&& ~~~0x3F#64) }
  | .xflg t => { g with xflg := (List.range 64).map fun u => if u = t then BitVec.ofNat 5 v else g.flagsOf u }
  | .inner off => g.innerSet turn off
  | .recorded _ | .zero _ | .priv _ => g

/-- R359: of a class only the first `n` recorded operations are restored, beside the counter as it stands; no more are than were recorded
(log 69). -/
def State.recordOnly (s : State) (gid : Nat) (c : EngClass) (n : Nat) : State :=
  let gone := (s.opsOf gid c).drop n
  let s1 : State := { s with
    ops := s.ops.filter fun e => !gone.contains e.1
    reqs := s.reqs.filter fun e => !gone.contains e.2.op
    faults := s.faults.filter fun e => !e.2.op.any gone.contains }
  s1.modGroup gid fun g => { g with skew := KMap.put g.skew (classIndex c) ((KMap.getD g.skew (classIndex c) 0 + gone.length) % 64) }

/-- R363, step 4: the control part of a group is saved to its image, under its owner (R78). The lines of its registers and of its stack stay
in the register cache, evictable (R82). -/
def State.saveImage (s : State) (gid : Nat) : State :=
  match s.group gid, KMap.get s.images gid with
  | some g, some im =>
    let vs := imageFields.map (s.imageValue gid g)
    let at_ := s.dpaOf (s.fnOf g) im.base
    let bs := (imageFields.zip vs).flatMap fun x => (List.range x.1.bytes).map fun j => (at_ + x.1.offset + j, byte (x.2 / 256 ^ j))
    let t := (s.memPutAll (s.func (s.fnOf g)).owner bs).touchLines bs
    { t with images := KMap.put t.images gid { im with saved := vs } }
  | _, _ => s

/-- R359, R364: a group is restored from its image. A changed private area ends the group and its launch; any other change is
restored as written. -/
def State.loadImage (s : State) (gid : Nat) : State :=
  match s.group gid, KMap.get s.images gid with
  | some g, some im =>
    let at_ := s.dpaOf (s.fnOf g) im.base
    let changed := (imageFields.zip im.saved).filterMap fun x =>
      let v := s.memVal (s.func (s.fnOf g)).owner (at_ + x.1.offset) x.1.bytes
      if v = x.2 then none else some (x.1, v)
    let s1 : State := { s with images := KMap.put s.images gid { im with saved := [] } }
    if changed.any fun x => match x.1 with | .priv _ => true | _ => false then s1.stopLaunch g.launch (2, 0, 3)
    else
      let pcs := changed.filterMap fun x => match x.1 with | .pc n => some (n, x.2) | _ => none
      let rest := changed.filter fun x => match x.1 with | .pc _ => false | _ => true
      let s2 := s1.modGroup gid fun g => rest.foldl (fun g x => g.imageSet s.turn (fun c => (s.opsOf gid c).length) x.2 x.1) (g.repc pcs)
      rest.foldl (fun s x => match x.1 with | .recorded c => s.recordOnly gid c x.2 | _ => s) s2
  | _, _ => s

/-! ### Switching out (R68, R363) -/

/-- CONTEXT_SWITCH_OUT: a write of CTXCTL with GO and OP 1. -/
def execContextSwitchOut (fn : Nat) (s : State) : Out :=
  .next (if (s.func fn).ctxGo then s
    else (s.leave fn fun _ => true).modFunc fn fun f => { f with ctxGo := true, ctxOp := 1, saved := { f.saved with auto := false } })

/-- R136, R363: nothing of a context that is to be saved is on its way to or from a local storage. -/
def State.drained (s : State) (e : Nat × Group) : Bool :=
  e.2.fifo.isEmpty && e.2.longs.isEmpty && s.oq.all fun q => q.2.all fun w => w.gid != e.1

/-- R291: the parked gangs of a context whose conditions have become true go on at their continuations, their phase bits toggled. -/
def Group.reactivateAll (g : Group) : Group := g.gangs.foldl Group.reactivate g

/-- The contexts of a function that are being switched out. -/
def State.leavers (s : State) (fn : Nat) : List (Nat × Group) :=
  s.groups.filter fun e => s.fnOf e.2 == fn && e.2.presence == .leaving

/-- R373: the writes into the landing ranges of members that are out which stand at their homes go to the landing buffer: they are not served
now. -/
def State.landQueued (s : State) : State :=
  (s.reqs.filter fun e => e.2.stage == .queued).foldl (fun s e => match KMap.get s.ops e.2.op, e.2.loc with
    | some o, some (.dpa a) => (match s.landingOf e.2 o a with
      | some (c, f) => s.landingTake e.1 e.2 o c f
      | none => s)
    | _, _ => s) s

/-- SWITCH_OUT_COMPLETE: steps 4 and 5 of R363. -/
def State.switchedOut (s : State) (fn : Nat) : State :=
  let f := s.func fn
  let ls := s.leavers fn
  let asked : Bool := f.ctxGo && f.ctxOp == 1
  if (ls = [] ∧ !asked) ∨ !ls.all s.drained then s
  else
    let s1 : State := { s with groups := s.groups.map fun e =>
      (e.1, if s.fnOf e.2 = fn ∧ e.2.presence = .leaving then { e.2.reactivateAll with presence := .away } else e.2) }
    let s2 : State := { s1 with reserve := ls.foldl (fun m e => if e.2.quill then m else KMap.put m (8 * e.2.core + e.2.sub) false) s1.reserve }
    ((ls.foldl (fun s e => s.saveImage e.1) s2).modFunc fn fun f =>
      { f with saved := { f.saved with out := true }, ctxGo := if asked then false else f.ctxGo }).landQueued

def execSwitchOutComplete (fn : Nat) (s : State) : Out := .next (s.switchedOut fn)

/-! ### Switching in (R69, R364) -/

/-- The contexts of a function that are away. -/
def State.absent (s : State) (fn : Nat) : List (Nat × Group) :=
  s.groups.filter fun e => s.fnOf e.2 == fn && e.2.presence == .away && !e.2.stopped

/-- R69: on each core, 16 × Q < THR × M; and always when no group owns a held operation (log 29). A function has one saved context: it
returns when the test holds on every core that it left, and on all of them at once (log 101). -/
def State.returnRule (s : State) (fn : Nat) : Bool :=
  let gs := (s.absent fn).filter fun e => !e.2.quill
  (nubBy (gs.map fun e => e.2.core)).all fun core =>
    let mine := gs.filter fun e => e.2.core == core
    let q := (mine.filter fun e => s.faults.any fun x => x.2.gid == e.1).length
    q == 0 || decide (16 * q < (s.coreReg core).parkth * mine.length)

/-- R362: RDY. -/
def State.rdy (s : State) (fn : Nat) : Bool := (s.func fn).saved.out && s.returnRule fn

/-- R364: the slots, blocks, team memory and quill contexts that the context left are free. -/
def State.returnFits (s : State) (fn : Nat) : Bool :=
  let gs := s.absent fn
  let taken (e : Nat × Group) : Bool := s.groups.any fun x => x.2.presence != .away && x.2.quill == e.2.quill && x.2.core == e.2.core &&
    x.2.sub == e.2.sub && x.2.slot == e.2.slot
  let back : State := { s with groups := s.groups.map fun e =>
    (e.1, if s.fnOf e.2 = fn ∧ e.2.presence = .away ∧ !e.2.stopped then { e.2 with presence := .here } else e.2) }
  !gs.any taken && gs.all fun e =>
    let u := back.coreUse e.2.core
    decide (u.teams ≤ 16) && decide (u.tmem ≤ 0x100000) && decide (u.quills ≤ 8) &&
      (e.2.quill || decide (back.blocksHeld e.2.core e.2.sub ≤ 128))

/-- R81: a sub-core whose groups hold all 128 blocks has lent its emergency block. -/
def State.lend (s : State) (e : Nat × Group) : State :=
  let unit := 8 * e.2.core + e.2.sub
  if !e.2.quill ∧ s.blocksHeld e.2.core e.2.sub = 128 then { s with reserve := KMap.put s.reserve unit true } else s

/-- R373: the member is out no more: the sectors that the landing buffer holds for it are served as ordinary requests, and those that wait for
room go on. -/
def State.landRelease (s : State) (fn : Nat) : State :=
  { s with
    reqs := s.reqs.map fun e => (e.1, if e.2.stage = .landing fn then { e.2 with stage := .queued } else e.2)
    landing := s.landing.filter fun e => e.2.2 != fn
    landWait := s.landWait.filter fun e => e.2.2.1 != fn }

/-- R364: what R363 saved is restored: fault-parked contexts under R59, replies under R361, held replays under R69, and held
sectors under R373. -/
def State.switchedIn (s : State) (fn : Nat) : State :=
  let gone := (s.absent fn).map Prod.fst
  let s1 : State := { s.landRelease fn with
    groups := s.groups.map fun e => (e.1, if gone.contains e.1 then { e.2 with presence := .here } else e.2) }
  let s2 := gone.foldl State.loadImage (s1.modFunc fn fun f => { f with saved := ⟨false, false⟩, ctxGo := false })
  let s3 := gone.foldl State.unpark ((s.absent fn).foldl State.lend s2)
  let replies := ((s3.func fn).services.filter fun x => x.2.replied).map Prod.fst
  let s4 := replies.foldl (fun s i => s.applyReply fn i) s3
  let again := (s4.faults.filter fun e => e.2.fn == fn && e.2.again).map Prod.fst
  again.foldl State.replayEntry s4

/-- CONTEXT_SWITCH_IN: a write of CTXCTL with GO and OP 2, or the return that such a write still waits for. With RDY = 0 it
completes at once and changes nothing. -/
def State.contextIn (s : State) (fn : Nat) : State :=
  let f := s.func fn
  if f.ctxGo ∧ f.ctxOp ≠ 2 then s
  else if !s.rdy fn then s.modFunc fn fun f => { f with ctxGo := false, ctxOp := 2 }
  else if s.returnFits fn ∧ (s.leavers fn).isEmpty then (s.switchedIn fn).modFunc fn fun f => { f with ctxOp := 2 }
  else s.modFunc fn fun f => { f with ctxGo := true, ctxOp := 2 }

def execContextSwitchIn (fn : Nat) (s : State) : Out := .next (s.contextIn fn)

/-- CONTEXT_AUTO_RETURN: the return of a context that R68 switched out, once RDY is 1. -/
def execContextAutoReturn (fn : Nat) (s : State) : Out :=
  .next (if (s.func fn).saved.auto ∧ !(s.func fn).ctxGo ∧ s.rdy fn ∧ s.returnFits fn ∧ (s.leavers fn).isEmpty then s.switchedIn fn
    else s)

/-! ### Remove (R365) -/

/-- The launches of a function. -/
def State.fnLaunches (s : State) (fn : Nat) : List (Nat × Launch) := s.launches.filter fun e => e.2.fn == fn

/-- R317, R324: the unconfirmed predictions of a function's queues are refuted, and its ductuses end. -/
def State.refuteAll (s : State) (fn endc : Nat) : State :=
  ((s.func fn).queues.filterMap fun q => match q.2.ductus with
    | some x => if x.open_ then some (q.1, x.d) else none
    | none => none).foldl (fun s q => match (s.openPreds q.2).head? with
      | some p => s.refute fn q.1 q.2 p.2 endc
      | none => s.endDuctus fn q.1 endc) s

/-- FUNCTION_REMOVE: a write of CTXCTL with GO and OP 3. Every launch ends with status 1 and CODE 0xFFFF. No context of the function is out
then, so that what the landing buffer holds for it is served (R373). -/
def execFunctionRemove (fn : Nat) (s : State) : Out :=
  .next (if (s.func fn).ctxGo then s
    else
      let s1 := s.refuteAll fn 5
      let ls := (s1.fnLaunches fn).map Prod.fst
      let s2 := ls.foldl (fun s l => s.stopLaunch l (1, 0, 0xFFFF)) s1
      let s3 : State := { s2 with groups := s2.groups.map fun e =>
        (e.1, if s2.fnOf e.2 = fn ∧ e.2.presence = .leaving then { e.2 with presence := .here } else e.2) }
      ((ls.foldl State.settleLaunch s3).landRelease fn).modFunc fn fun f => { f with saved := ⟨false, false⟩, ctxGo := false, ctxOp := 3 })

/-! ### Reset (R370, R371) -/

/-- R370: a request that has been sent and has not come back. -/
def Req.abroad (r : Req) : Bool :=
  match r.stage with
  | .fabric | .queued | .landing _ => true
  | _ => false

/-- The operation is one of the function's on this device. -/
def State.ownOp (s : State) (fn : Nat) (o : EngOp) : Bool := o.dev == s.devnum && o.fn == fn

/-- R371, step 2 and 3: the launches of a function go with everything that they hold; what was sent of their operations, and
of the function's own, still performs. -/
def State.dropLaunches (s : State) (fn : Nat) : State :=
  let gone := s.removeLaunches ((s.fnLaunches fn).map Prod.fst)
  let sent (o : Nat) : Bool := s.reqs.any fun q => q.2.op == o && q.2.abroad
  { gone with
    ops := s.ops.filter fun e => !s.ownOp fn e.2 || sent e.1
    reqs := s.reqs.filter fun e => (match KMap.get s.ops e.2.op with | some o => !s.ownOp fn o | none => true) || e.2.abroad
    sheaves := s.sheaves.map fun e => (e.1, if e.2.fn = fn then
      { e.2 with closing := e.2.closing || e.2.open_, aborting := e.2.aborting || e.2.open_, open_ := false, closer := none } else e.2) }

/-- R374: the operation that a sector which the landing buffer took came from, if it is not over, is refused with the sector. -/
def State.failLander (s : State) (q : Nat) : State :=
  match (KMap.get s.reqs q).bind fun r => KMap.get s.ops r.op with
  | some o => if landedGid 0 ≤ o.gid ∧ (KMap.get s.ops (o.gid - landedGid 0)).isSome then s.failOp (o.gid - landedGid 0) 5 1 0 else s
  | none => s

/-- R371, step 3: landing entries of a withdrawn member are refused to their senders (R374). -/
def State.refuseHeld (s : State) (fn : Nat) : State :=
  let qs := ((s.landing.filter fun e => e.2.2 == fn).map Prod.fst) ++ (s.landWait.filter fun e => e.2.2.1 == fn).map Prod.fst
  let s1 : State := { s with landing := s.landing.filter fun e => e.2.2 != fn, landWait := s.landWait.filter fun e => e.2.2.1 != fn }
  qs.foldl (fun s q => (s.refuse q 5 1 0).failLander q) s1

/-- R371, steps 3 and 5: the function's registers and queues at reset; its owner, its keys and its running numbers stay, but for SEQ
(R61). A ductus shows how it ended (R323). -/
def Func.afterReset (f : Func) (fn caln : Nat) : Func :=
  { Func.reset fn with
    owner := f.owner, ctxBase := f.ctxBase, ctxSize := f.ctxSize, gen := (f.gen + 1) % 256, resetting := some caln, nextOptag := f.nextOptag, srSeq := f.srSeq
    ideKey := f.ideKey
    queues := f.queues.filterMap fun q => match q.2.ductus with
      | some x => some (q.1, { Queue.reset with ductus := some { x with open_ := false, endc := if x.open_ then 6 else x.endc, watch := [] } })
      | none => none }

/-- FUNCTION_RESET: the posted service requests are dropped with the launches (R361). -/
def execFunctionReset (fn : Nat) (s : State) : Out :=
  .next (
    let s1 := (s.dropLaunches fn).refuseHeld fn
    let told := (s1.collectives.filter fun c => c.2.members.contains (s1.devnum, fn)).map Prod.fst
    let s2 : State := { s1 with
      faults := s1.faults.filter fun e => e.2.fn != fn
      agenda := s1.agenda ++ told.map fun c => .memberWithdrawn c s1.devnum fn }
    s2.modFunc fn fun f => f.afterReset fn s2.caln)

/-- FUNCTION_RESET_COMPLETE: nothing that the old generation sent is still under way, or the link timeout of 1 ms has passed. -/
def State.resetDone (s : State) (fn : Nat) : State :=
  match (s.func fn).resetting with
  | none => s
  | some at_ =>
    let old (e : Nat × Req) : Bool := (match KMap.get s.ops e.2.op with | some o => s.ownOp fn o | none => false) && e.2.gen != (s.func fn).gen
    if s.reqs.any (fun e => old e && e.2.abroad) ∧ s.caln < at_ + 1000000 then s
    else
      let ops := nubBy ((s.reqs.filter old).map fun e => e.2.op)
      let s1 : State := { s with
        ops := s.ops.filter fun e => !ops.contains e.1
        reqs := s.reqs.filter fun e => !ops.contains e.2.op
        landing := s.landing.filter fun e => match KMap.get s.reqs e.1 with | some r => !ops.contains r.op | none => true
        landWait := s.landWait.filter fun e => match KMap.get s.reqs e.1 with | some r => !ops.contains r.op | none => true
        sheaves := s.sheaves.map fun e => (e.1, { e.2 with writes := e.2.writes.filter fun o => !ops.contains o }) }
      s1.modFunc fn fun f => { f with resetting := none }

def execFunctionResetComplete (fn : Nat) (s : State) : Out := .next (s.resetDone fn)

/-! ### Collectives (R373, R374) -/

/-- R373: sectors that have waited for room for longer than CSTALL. -/
def State.stalledSectors (s : State) (c fn : Nat) : Bool :=
  s.landWait.any fun e => e.2.1 == c && e.2.2.1 == fn && match e.2.2.2 with
    | some t => decide (t + 1000 * s.cstall < s.caln)
    | none => false

/-- COLLECTIVE_STALL: the record and the management interrupt, once for the sectors that wait. -/
def execCollectiveStall (c fn : Nat) (s : State) : Out :=
  .next (if s.stalledSectors c fn then
      let count := (s.landing.filter fun e => e.2 == (c, fn)).length + (s.landWait.filter fun e => e.2.1 == c && e.2.2.1 == fn).length
      let s1 := s.clog [(Config.stallRecordCaln s.turn).toNat, 3 * 2 ^ 56 + count % 2 ^ 32, c * 2 ^ 52 + fn * 2 ^ 48, 0]
      { s1 with
        landWait := s1.landWait.map fun e => (e.1, if e.2.1 = c ∧ e.2.2.1 = fn then (c, fn, none) else e.2)
        irqs := s1.irqs ++ [.management] }
    else s)

/-- R374: a location lies in a landing range of the withdrawn member. -/
def State.inMember (s : State) (x : Collective) (dev fn : Nat) : Loc → Bool
  | .dpa a => x.ranges.any fun y => y.1 == dev && y.2.1 == fn && s.inRange y a
  | _ => false

/-- R374: where an address of an operation lies, whether or not its access is permitted. -/
def State.aimOf (s : State) (o : EngOp) (va : Nat) : Option Loc :=
  match s.lookup (s.opUnit o) o.fn va with
  | .leaf e bits => some (s.locOf o.fn (pteDev e * 2 ^ 48 + (pteAddr e / 2 ^ bits * 2 ^ bits + va % 2 ^ bits)))
  | .fail .. => none

/-- R374: the request writes a landing range of the withdrawn member, also one that is held for its translation. -/
def State.aimedAt (s : State) (x : Collective) (dev fn : Nat) (r : Req) : Bool :=
  r.kind.writes && match r.loc, KMap.get s.ops r.op with
    | some l, _ => (l :: r.farLoc.toList).any (s.inMember x dev fn)
    | none, some o => (r.va.toList ++ r.far.toList).any fun va => (s.aimOf o va).any (s.inMember x dev fn)
    | none, none => false

/-- R374: an operation that START has still requests to make of, one of them aimed at the withdrawn member: they are made now, so that they
are refused. -/
def State.aimedStart (s : State) (x : Collective) (dev fn opId : Nat) : State :=
  match KMap.get s.ops opId with
  | none => s
  | some o =>
    let ps := (s.plans o).drop o.made
    if !o.started ∧ ps.any (fun p => p.dst && (p.va.toList ++ p.far.toList).any fun va => (s.aimOf o va).any (s.inMember x dev fn)) then
      s.addPlans opId o (s.opTag o) ps
    else s

/-- MEMBER_WITHDRAWN: sectors that the member sent are discarded, held or waiting for room; operations aimed at its landing ranges are
refused. -/
def State.withdrawn (s : State) (c dev fn : Nat) : State :=
  match KMap.get s.collectives c with
  | none => s
  | some x =>
    let sender (q : Nat) : Bool := ((KMap.get s.reqs q).bind fun r => KMap.get s.ops r.op).any fun o => o.dev == dev && o.fn == fn
    let drop := ((s.landing.filter fun e => e.2.1 == c && sender e.1).map Prod.fst) ++
      (s.landWait.filter fun e => e.2.1 == c && sender e.1).map Prod.fst
    let s1 : State := { s with
      landing := s.landing.filter fun e => !drop.contains e.1
      landWait := s.landWait.filter fun e => !drop.contains e.1
      reqs := s.reqs.map fun e => (e.1, if drop.contains e.1 then { e.2 with stage := .done } else e.2) }
    let s2 := (s1.ops.map Prod.fst).foldl (fun s o => s.aimedStart x dev fn o) s1
    let hit := (s2.reqs.filter fun e => s2.aimedAt x dev fn e.2 && (match e.2.stage with
      | .done | .refused | .answered _ => false
      | _ => true)).map Prod.fst
    let s3 := hit.foldl (fun s q => (s.refuse q 5 1 0).failLander q) s2
    ({ s3 with
      faults := s3.faults.filter fun e => e.2.op.isNone || !(s3.heldIn e.1).isEmpty
      landing := s3.landing.filter fun e => !hit.contains e.1
      landWait := s3.landWait.filter fun e => !hit.contains e.1
      collectives := KMap.put s3.collectives c
        { members := x.members.filter (· != (dev, fn)), ranges := x.ranges.filter fun y => !(y.1 == dev && y.2.1 == fn) } } : State).unparkAll

def execMemberWithdrawn (c dev fn : Nat) (s : State) : Out := .next (s.withdrawn c dev fn)

end Sys2Proof.Machine
end

