-- ==== Sys2Proof/Machine/Package.lean ====
section
/-!
DEFINITION. The package as its owner sees it: keys and scrubbing (R70 to R75), the host link and its window (R382, R383), links
(R387, R388), cooling (R386), start-up, measurements and quotes (R378 to R381), partitions (R366 to R368), and reads and writes
of registers (R7, R8).
-/

namespace Sys2Proof.Machine

/-! ### Keys (R70 to R74) -/

/-- R73: a slot may be assigned. -/
def KeySlot.free (k : KeySlot) : Bool := k.owner.isNone && !k.retired

/-- KEY_SLOT_BIND: the lowest free slot (log 34); an owner that has one keeps it (R70). `hostStatus` 2 is "no key slot". -/
def execKeySlotBind (owner : Nat) (s : State) : Out :=
  .next (if s.keys.any fun e => e.2.owner == some owner && !e.2.retired then { s with hostStatus := 0 }
    else match (List.range 63).find? fun k => (s.keySlot k).free with
      | some k => { s with keys := KMap.put s.keys k { KeySlot.reset with owner := some owner }, hostStatus := 0 }
      | none => { s with hostStatus := 2 })

/-- R73: a retired slot none of whose lines is left may be assigned again. -/
def State.scrubbed (s : State) (k : Nat) : State :=
  if (s.keySlot k).retired ∧ !s.tags.any fun t => t.2 == k then { s with keys := KMap.put s.keys k KeySlot.reset } else s

/-- R73: at the end of a step, the retired slots whose last line has gone. -/
def State.settleKeys (s : State) : State := (s.keys.filter fun e => e.2.retired).foldl (fun s e => s.scrubbed e.1) s

/-- KEY_SLOT_RETIRE: the key is destroyed. -/
def execKeySlotRetire (slot : Nat) (s : State) : Out :=
  .next (if slot < 63 ∧ (s.keySlot slot).owner.isSome ∧ !(s.keySlot slot).retired then
      ({ s with keys := KMap.put s.keys slot { s.keySlot slot with retired := true } }).scrubbed slot
    else s)

/-- SCRUB_LINE: a line under a retired slot becomes CLEAR; in the second tier, zeros under the key of its new owner, but for a line in a
granule of 64 KiB that the new owner has written, which is skipped (R74): it is under no key then. -/
def State.scrub (s : State) (line : Nat) : State :=
  let k := s.lineTag line
  let a := line * 128
  let new := s.tagOf (devOf a) (Config.newOwner line)
  let at_ := s.slotAddr true a
  let s1 : State := { s with mem := Mem.clear s.mem at_ (at_ + 128) }
  if !(s.keySlot k).retired then s
  else if !isSecondTier (localOf a) then ({ s1 with tags := KMap.del s1.tags line } : State).scrubbed k
  else if KMap.get s.tier (line / 512) = some new then ({ s with tags := KMap.del s.tags line } : State).scrubbed k
  else ({ s1 with tags := KMap.put s1.tags line new } : State).scrubbed k

def execScrubLine (line : Nat) (s : State) : Out := .next (s.scrub line)

/-! ### The host link (R382, R383) -/

/-- R383: the local address of a window access, under a DMWIN. -/
def windowLocal (win : DWord) (off : Nat) : Nat := bitsOf win.toNat 47 36 * 2 ^ 36 + off % 2 ^ 36

/-- R383: its domain address. -/
def State.windowAt (s : State) (fn : Nat) (win : DWord) (off : Nat) : Nat := s.dpaOf fn (windowLocal win off)

/-- How many bytes a window access covers; `len` is that of a read. -/
def windowBytes (len : Nat) : WindowOp → Nat
  | .read => len
  | .write bs | .fetchAdd bs | .swap bs | .cas _ bs => bs.length

/-- What is left of an access without its first `k` bytes; an AtomicOp lies in one sector. -/
def windowRest (k : Nat) : WindowOp → WindowOp
  | .write bs => .write (bs.drop k)
  | wr => wr

/-- The lines that the host accesses which have not performed still reach. -/
def State.heldLines (s : State) : List Nat := s.heldSteps.flatMap fun h => match h.step with
  | .deviceMemoryWindowAccess fn off len wr =>
    nubBy ((List.range (windowBytes len wr)).map fun j => (s.windowAt fn h.win off + j) / 128)
  | _ => []

/-- R151, R383: what an AtomicOp makes of the old value of `n` bytes; none: it is no AtomicOp. -/
def windowAtomic (n old : Nat) : WindowOp → Option Nat
  | .read | .write _ => none
  | .fetchAdd x => some ((old + leVal x) % 256 ^ n)
  | .swap x => some (leVal x)
  | .cas cmp new => some (if old = leVal cmp then leVal new else old)

/-- The access is an AtomicOp. -/
def isAtomicOp (wr : WindowOp) : Bool := (windowAtomic 0 0 wr).isSome

/-- AtomicOps have operands of 4 or 8 bytes, of one length, at an address aligned to it (log 102). -/
def badAtomicOp (wr : WindowOp) (n at_ : Nat) : Bool :=
  isAtomicOp wr && !((n == 4 || n == 8) && at_ % n == 0 && match wr with | .cas cmp new => cmp.length == new.length | _ => true)

/-- R137, R138: the first `k` bytes of a host access, which lie in one sector, perform in one step: the new bytes, and what they read. -/
def State.windowPiece (s : State) (fn at_ k : Nat) (wr : WindowOp) : State × List Byte :=
  let o := (s.func fn).owner
  let used := s.cacheLine fn at_
  let old := used.memRead o at_ k
  let put (bs : List Byte) : State := (used.memWrite o at_ bs).touch none (.dpa at_)
  match wr with
  | .read => (used, old)
  | .write bs => (put (bs.take k), [])
  | op => match windowAtomic k (leVal old) op with
    | some new => (put (leBytes new k), old)
    | none => (used, [])

/-- DEVICE_MEMORY_WINDOW_ACCESS at offset `off` of BAR 2, under `win`; `got` is what its earlier sectors have read. An AtomicOp answers the old
value. `hostStatus` 1 is Unsupported Request. One sector performs now, and what is left of the access is held behind it (R138). An access to a
line that a slot keeps from its home, or behind one that has not performed, is held, and so is an AtomicOp while atomic units are closed
(R111, R151, log 118). -/
def State.windowAccess (s : State) (win : DWord) (got : List Byte) (fn off len : Nat) (wr : WindowOp) : State :=
  let n := windowBytes len wr
  let at_ := s.windowAt fn win off
  let k := min n (32 - at_ % 32)
  if !s.enabled then s
  else if s.hbmTop fn < windowLocal win off + n ∨ badAtomicOp wr n at_ then { s with hostStatus := 1, hostRead := [] }
  else if n ≠ 0 ∧ (s.hbmShut at_ ∨ s.heldLines.contains (at_ / 128)) ∨ (isAtomicOp wr ∧ s.closed) then
    s.holdStep ⟨.deviceMemoryWindowAccess fn off len wr, win, got⟩
  else
    let (t, old) := s.windowPiece fn at_ k wr
    if k < n then t.holdStep ⟨.deviceMemoryWindowAccess fn (off + k) (n - k) (windowRest k wr), win, got ++ old⟩
    else match wr with
      | .write _ => { t with hostStatus := 0 }
      | _ => { t with hostRead := got ++ old, hostStatus := 0 }

def execDeviceMemoryWindowAccess (fn off len : Nat) (wr : WindowOp) (s : State) : Out :=
  .next (s.windowAccess (s.func fn).dmwin [] fn off len wr)

/-- R382: commands of a queue that came over a stream that has failed and have not started are not executed: they go, with the predictions
that they had confirmed, and the ductus ends (log 31). -/
def State.dropArrived (s : State) (fn q : Nat) : State :=
  let y := s.queue fn q
  let real := (s.queueLaunches fn q).filter fun e => some e.1 != y.launchId && match e.2.pred with | some p => p.confirmed | none => false
  let s1 := (s.removeLaunches (real.map Prod.fst)).modQueue fn q fun y => { y with arrived := [], run := [] }
  match y.ductus with
  | some x =>
    if !x.open_ then s1
    else match (s1.openPreds x.d).head? with
      | some p => s1.refute fn q x.d p.2 (Config.enEnd s.turn % 256)
      | none => s1.endDuctus fn q (Config.enEnd s.turn % 256)
  | none => s1

/-- TLP_INTEGRITY_FAIL: the packet is dropped, and the stream's error reported; commands that came through the stream are not executed. -/
def execTlpIntegrityFail (fn : Nat) (s : State) : Out :=
  let s1 : State := { s.modFunc fn fun f => { f with streamErr := true } with irqs := s.irqs ++ [.integrity fn] }
  .next (((s.func fn).queues.filter fun q => q.2.hostRing).foldl (fun s q => s.dropArrived fn q.1) s1)

/-- SPDM_KEY_EXCHANGE: the stream has new keys, and no error. -/
def execSpdmKeyExchange (fn : Nat) (key : List Byte) (s : State) : Out :=
  .next (s.modFunc fn fun f => { f with ideKey := key, streamErr := false })

/-! ### Links (R387, R388) -/

/-- PAUSE_FLIT: the announced end, `cc` from now. -/
def execPauseFlit (port cc : Nat) (s : State) : Out :=
  .next (if (s.port port).up then s.modPort port fun p => { p with paused := some (s.caln + cc) } else s)

/-- LINK_RETURN: held flits leave, and credit returns; a link that was down has been retrained by then (R113, R388; log 146,
DEDUCED) and is up again. -/
def execLinkReturn (port : Nat) (s : State) : Out :=
  .next (s.modPort port fun p => { p with up := true, paused := none, heldFlits := 0 })

/-- FLIT_CRC_RETRY: the flit is sent again. -/
def execFlitCrcRetry (port : Nat) (s : State) : Out := .next (s.modPort port fun p => { p with resent := p.resent + 1 })

/-- LINK_DOWN_TIMEOUT: 1 ms after the end that either end announced, or 1 ms of silence at any other time. Requests in flight take another
port from then on (`State.portOf`). -/
def execLinkDownTimeout (port : Nat) (s : State) : Out :=
  .next (let p := s.port port
    let late : Bool := (p.paused.toList ++ p.told.toList).all fun t => decide (t + 1000000 ≤ s.caln)
    if p.up ∧ late then
      let moved := (s.reqs.filter fun e => e.2.stage == .fabric && (s.reqPorts e.2).contains port).length
      s.modPort port fun p => { p with up := false, paused := none, heldFlits := 0, resent := p.resent + moved }
    else s)

/-! ### Cooling (R386) -/

/-- INLET_OVERTEMP: the inlet reads `t` °C. -/
def execInletOvertemp (t : Nat) (s : State) : Out :=
  .next (if 45 < t ∧ !s.hotInlet then { s with hotInlet := true, irqs := s.irqs ++ [.thermal] } else s)

/-- INLET_TEMPERATURE_FALL: below 40 °C admission resumes and the interrupt ends. -/
def execInletTemperatureFall (t : Nat) (s : State) : Out :=
  .next (if t < 40 ∧ s.hotInlet then { s with hotInlet := false, irqs := s.irqs.filter (· != .thermal) } else s)

/-! ### Start-up (R378, R379) -/

/-- R379: BOOTPR. -/
def State.bootpr (s : State) : Nat :=
  s.bootLast % 256 * 2 ^ 48 + s.bootAlt.toNat * 2 ^ 32 + s.bootFail.toNat * 2 ^ 16 + s.bootDone.toNat

/-- What goes wrong in a start: by step, its primary and its alternate method, and the resources that both methods of a step
leave failing: stacks 0 to 11 in bits 11 to 0, dies in bits 15 to 12, clusters in bits 63 to 16, CXL ports in bits 65 and 64,
Plahoard ports in bits 101 to 66. -/
structure BootFaults where
  primary : Nat
  alternate : Nat
  parts : Nat
  deriving DecidableEq, Repr

/-- R378: step `k` fails by both methods; steps 7 and 8 have no alternate, and step 9 does not fail. -/
def BootFaults.fails (b : BootFaults) (k : Nat) : Bool :=
  decide (k < 9) && b.primary.testBit k && (b.alternate.testBit k || k == 7 || k == 8)

/-- R379: a repeated start skips a step that is recorded, but for steps 0 and 9. -/
def bootSkips (done fail : BitVec 16) (k : Nat) : Bool := k != 0 && k != 9 && (done.getLsbD k || fail.getLsbD k)

/-- R378, R380: step 0 starts the firmware: each image is measured before it runs (log 89). The boot firmware is that of the first flash bank, or
the recovery image of the second; where both fail only the management firmware runs, which answers management requests and gives step 8 its
number. -/
def State.bootFirmware (s : State) (b : BootFaults) : State :=
  if b.fails 0 then s.extend 1 Config.managementFirmware
  else ((s.extend 0 (if b.primary.testBit 0 then Config.recoveryImage else Config.bootFirmware)).extend 1 Config.managementFirmware).extend 2
    Config.homeFirmware

/-- R378: what step `k` does to the package. -/
def State.bootWork (s : State) (b : BootFaults) (k : Nat) : State :=
  let part (n : Nat) : Bool := b.fails k && b.parts.testBit n
  match k with
  | 0 => s.bootFirmware b
  | 2 => { s with
      islands := (List.range 4).filter fun i => !(part (3 * i) || part (3 * i + 1) || part (3 * i + 2))
      mem := [], tags := [], keys := [] }
  | 3 => { s with islands := s.islands.filter fun i => !part (12 + i), scratch := [] }
  | 4 => { s with clusters := (List.range 48).foldl (fun m c =>
      KMap.put m c { KMap.getD m c Cluster.reset with service := !part (16 + c) }) s.clusters }
  | 6 => { s with cxlLen := [0, 1].map fun p => if part (64 + p) then 0 else min (Config.cxlPopulated p) (2 ^ 41) }
  | 7 => { s with ports := (List.range 36).foldl (fun m p =>
      KMap.put m p { KMap.getD m p Port.reset with up := !part (66 + p) }) s.ports }
  | 8 => if b.fails k then s else { s with devnum := Config.deviceNumber % Config.devices }
  | 9 => { s with caln := 0, slots := [], closed := false }
  | _ => s

/-- R378, R379: one step of start-up, with its record in BOOTPR. A skipped step 3 that is recorded as failed still clears the scratch (R86, log
120). -/
def State.bootStep (b : BootFaults) (s : State) (k : Nat) : State :=
  if bootSkips s.bootDone s.bootFail k then (if k = 3 ∧ !s.bootDone.getLsbD 3 then { s with scratch := [] } else s)
  else
    let bit : BitVec 16 := 1#16 <<< k
    let bad := b.fails k
    let alt : Bool := b.primary.testBit k && !bad && k != 9
    { s.bootWork b k with
      bootLast := k
      bootAlt := if alt then s.bootAlt ||| bit else s.bootAlt &&& ~~~bit
      bootFail := if bad then s.bootFail ||| bit else s.bootFail &&& ~~~bit
      bootDone := if bad then s.bootDone &&& ~~~bit else s.bootDone ||| bit }

/-- What a restart leaves as it was (log 35): memories, keys, and what earlier starts found; everything else is at reset. A cold power-up
leaves only what lies outside the package. -/
def State.restarted (s : State) : State :=
  if s.coldDue then { State.reset with turn := s.turn, host := s.host }
  else { State.reset with
    turn := s.turn, devnum := s.devnum, mem := s.mem, tags := s.tags, keys := s.keys, scratch := s.scratch, host := s.host
    islands := s.islands, cxlLen := s.cxlLen
    clusters := s.clusters.map fun e => (e.1, { Cluster.reset with service := e.2.service })
    ports := s.ports.map fun e => (e.1, { Port.reset with up := e.2.up })
    bootLast := s.bootLast, bootAlt := s.bootAlt, bootFail := s.bootFail, bootDone := s.bootDone }

/-- PACKAGE_START. -/
def execPackageStart (primaryFails alternateFails stackFails : Nat) (s : State) : Out :=
  .next ((List.range 10).foldl (State.bootStep ⟨primaryFails, alternateFails, stackFails⟩) s.restarted)

/-! ### The Fennik root (R380, R381) -/

/-- MEASUREMENT_EXTEND. -/
def execMeasurementExtend (i : Nat) (image : List Byte) (s : State) : Out :=
  .next (if i < 8 then s.extend i image else s)

/-- R381: bytes 0 to 591 of a quote. -/
def State.quoteBody (s : State) (nonce : List Byte) : List Byte :=
  (List.range 64).map (fun j => nonce.getD j 0) ++ (List.range 8).flatMap s.measure ++ leBytes s.bootpr 8 ++ leBytes s.devnum 2 ++
    List.replicate 6 0

/-- QUOTE_REQUEST. -/
def execQuoteRequest (nonce : List Byte) (s : State) : Out :=
  let body := s.quoteBody nonce
  let sig := Config.quoteSignature (sha512 body)
  .next { s with quote := body ++ (List.range 132).map fun j => sig.getD j 0 }

/-! ### Partitions (R366 to R368) -/

/-- R366: each partition is 1, 2 or 4 whole islands. -/
def State.partsOk (s : State) : Bool :=
  (List.range 4).all fun p => let n := (s.partIslands p).length; n == 0 || n == 1 || n == 2 || n == 4

/-- R368: a function has been removed. -/
def State.fnGone (s : State) (fn : Nat) : Bool :=
  (s.fnLaunches fn).isEmpty && !s.groups.any (fun e => s.fnOf e.2 == fn) && !s.ops.any fun e => s.ownOp fn e.2

/-- PARTITION_CHANGE: island `islands[k]` joins partition `part[k]`. The home caches of the islands of the partitions that gain or lose one are
cleared (R368), and the scratch of the islands that come to another partition (R86); the HBM of those partitions holds nothing (log 36). -/
def State.repartition (s : State) (islands part : List Nat) : State :=
  let new := (List.range islands.length).foldl (fun m k => KMap.put m (islands.getD k 0) (part.getD k 0 % 4)) s.partitions
  let s1 : State := { s with partitions := new }
  let moved := (nubBy islands).filter fun i => s.islandPart i != s1.islandPart i
  let hit := nubBy (moved.flatMap fun i => [s.islandPart i, s1.islandPart i])
  if moved = [] ∨ islands.any (fun i => decide (4 ≤ i)) ∨ !s1.partsOk ∨ (List.range 16).any (fun f => hit.contains (s.fnPart f) && !s.fnGone f) then s
  else
    let affected := (List.range 4).filter fun i => hit.contains (s.islandPart i) || hit.contains (s1.islandPart i)
    let lost (a : Nat) : Bool := isHbm a && devOf a == s.devnum && hit.contains (localOf a / 2 ^ 40)
    { s1 with
      cached := s.cached.filter fun l => isHbm (l % alternates * 128) && !affected.contains (s.homeOf 0 (l % alternates * 128) % 192 / 48)
      scratch := moved.foldl (fun m i => Mem.clear m (i * Config.scratchBytes) ((i + 1) * Config.scratchBytes)) s.scratch
      mem := s.mem.filter fun e => !lost e.1
      tags := s.tags.filter fun e => !lost (e.1 * 128) }

def execPartitionChange (islands part : List Nat) (s : State) : Out := .next (s.repartition islands part)

/-! ### Registers (R7, R8)

A control page is page 0, its index the function. The management pages are page 1, with the offsets of R115. The manual gives the
other management registers no offset, so each has a page number of the model's own, its index naming the cluster, core,
function, entry or slot (log 33): 2 CLCTL, 3 HOTCTL, 4 PWRCTL, 5 CTXCTL, 6 FNPRIV, 7 MPL, 8 CSTALL, 9 the energy table,
10 SHLO, SHHI and SHSH, 11 BOOTPR, which only an order of a cold power-up, page 20, clears (R379), 12 a key slot's import ranges, 13 the voltage steps of the classes, 14 a collective,
15 DEVNUM, 16 a function's owner, 17 a function's partition, 18 CLENRG, 19 a function's context region (R78). -/

/-- `v` with only its bits `hi` to `lo`. -/
def keep (v hi lo : Nat) : Nat := bitsOf v hi lo * 2 ^ lo

/-- A size field that only values from `lo` to `hi` change. -/
def sizeField (old v lo hi : Nat) : Nat := let x := bitsOf v 4 0; if lo ≤ x ∧ x ≤ hi then x else old

/-- R306: a write of CHBASE or CHSIZE. -/
def Func.chaff (f : Func) (b : DWord) (n : Nat) : Func := { f with chNext := some (b, n) }.settleChaff

/-- R55, R152, R306, R340, R360, R383: a write of a control-page register without a behaviour of its own. -/
def Func.write (f : Func) (off v : Nat) : Func :=
  match off with
  | 0x000 => { f with ttbase := dword (keep v 47 16 + v % 2) }
  | 0x008 => { f with fqbase := dword (keep v 47 6) }
  | 0x010 => { f with fqIrq := v.testBit 10, fqOvf := f.fqOvf && !v.testBit 9, fqEn := v.testBit 8, fqSize := sizeField f.fqSize v 6 16 }
  | 0x018 => { f with fqHead := v % 2 ^ 64 }
  | 0x030 => { f with invaddr := dword v }
  | 0x038 => if f.invBusy then f else { f with invRange := v.testBit 32, invPages := v % 2 ^ 32 }
  | 0x040 => { f with hwbase := dword (keep v 63 12) }
  | 0x048 => { f with aptbase := dword (keep v 47 15 + v % 2) }
  | 0x050 => if f.aptBusy then f else { f with aptErr := v.testBit 8, aptFail := v % 2 ^ 8 }
  | 0x058 => { f with sdbase := dword (keep v 47 7) }
  | 0x060 => { f with quota := bitsOf v 15 12, sdsize := if v % 32 = 0 then 0 else sizeField f.sdsize v 6 16 }
  | 0x070 => let n := match f.chNext with | some x => x.2 | none => f.chsize
             f.chaff (dword (keep v 47 16)) n
  | 0x078 => let b := match f.chNext with | some x => x.1 | none => f.chbase
             f.chaff b (v % 2 ^ 16)
  | 0x080 => { f with ktbase := dword (keep v 63 12 + v % 32) }
  | 0x088 => { f with tfail := if v.testBit 63 then f.tfail &&& ~~~(1#64 <<< 63) else f.tfail }
  | 0x090 => { f with srbase := dword (keep v 47 12) }
  | 0x098 => { f with srErr := f.srErr && !v.testBit 9, srIrq := v.testBit 8, srSize := sizeField f.srSize v 4 12 }
  | 0x0A0 => { f with srHead := v % 2 ^ 64 }
  | 0x0B8 => { f with dmwin := dword (keep v 47 36) }
  | _ => f

/-- The step that a write of a control-page register with a behaviour of its own starts. -/
def controlStep (fn off v : Nat) : Option Instr :=
  let q := (off - 0x1000) / 64
  match off with
  | 0x028 => some (if v.testBit 0 then .replayAll fn else .replaySeq fn (bitsOf v 63 32))
  | 0x038 => if v.testBit 63 then some (if v.testBit 32 then .invalidateRange fn (v % 2 ^ 32) else .invalidateAll fn) else none
  | 0x050 => if v.testBit 63 then some (.routineTableInstall fn) else none
  | 0x068 => some (.sdfree fn (v % 2 ^ 32))
  | 0x0B0 => some (.serviceReply fn (v % 2 ^ 16))
  | _ =>
    if off < 0x1000 ∨ 0x2000 ≤ off then none
    else if off % 64 = 0x08 then some (.qctlWrite fn q v)
    else if off % 64 = 0x18 then some (.queueDoorbell fn q v)
    else none

/-- A write of the control page. One that starts a step writes the register's other fields as well. One of INVCTL
waits, whole, for the host accesses to device memory that came before it (R375), and so does the step of one of REPLAY. -/
def State.controlWrite (s : State) (fn off v : Nat) : State :=
  if off = 0x038 ∧ s.behindWindow then
    s.holdStep ⟨if v.testBit 32 then .invalidateRange fn (v % 2 ^ 32) else .invalidateAll fn, 0, leBytes v 8⟩
  else match controlStep fn off v with
  | some i => { s.modFunc fn fun f => f.write off v with agenda := i :: s.agenda }
  | none =>
    if 0x1000 ≤ off ∧ off < 0x2000 ∧ off % 64 = 0 then s.modQueue fn ((off - 0x1000) / 64) fun y => { y with qbase := dword (keep v 47 7) }
    else s.modFunc fn fun f => f.write off v

/-- R115: a write of the calendar log's registers. -/
def State.clogWrite (s : State) (off v : Nat) : State :=
  match off with
  | 0x300 => { s with clogBase := dword (keep v 47 5 + v % 2) }
  | 0x308 => { s with clogOvf := s.clogOvf && !v.testBit 9, clogIrq := v.testBit 8, clogSize := sizeField s.clogSize v 6 16 }
  | 0x310 => { s with clogHead := v % 2 ^ 64 }
  | _ => s

/-- R362: the step that a write of CTXCTL starts. -/
def ctxStep (fn v : Nat) : Option Instr :=
  if !v.testBit 63 then none
  else match v % 4 with
    | 1 => some (.contextSwitchOut fn)
    | 2 => some (.contextSwitchIn fn)
    | 3 => some (.functionRemove fn)
    | _ => none

/-- A write of a management register. SHLO, SHHI and SHSH take multiples of 64 KiB (for SHSH log 115). -/
def State.managementWrite (s : State) (page idx off v : Nat) : State :=
  match page with
  | 1 => s.clogWrite off v
  | 2 => { s with agenda := .classChangeRequest idx (v % 4) :: s.agenda }
  | 3 => s.modCoreReg idx fun c => { c with dth := bitsOf v 15 8, tth := bitsOf v 7 0 }
  | 4 => s.modCluster idx fun c => { c with cap := bitsOf v 63 32, refill := max 1 (bitsOf v 31 0) }
  | 5 => if (s.func idx).ctxGo then s
         else match ctxStep idx v with
           | some i => { s with agenda := i :: s.agenda }
           | none => s.modFunc idx fun f => { f with ctxOp := v % 4 }
  | 6 => { s with fnpriv := BitVec.ofNat 16 v }
  | 7 => { s with mpl := v }
  | 8 => { s with cstall := v }
  | 9 => { s with energy := KMap.put s.energy (idx % 1024) (v % 2 ^ 16) }
  | 10 => (match off with
      | 0x00 => { s with shlo := v / 65536 * 65536 }
      | 0x08 => { s with shhi := v / 65536 * 65536 }
      | _ => { s with shsh := v / 65536 * 65536 })
  | 12 => { s with keys := KMap.adjust s.keys idx fun k => { k with imports := (k.imports ++ [(v % 2 ^ 64, v / 2 ^ 64)]).take 16 } }
  | 13 => { s with classSteps := listSet 9 (v % 16) s.classSteps (idx % 4) }
  | 14 =>
    if 4096 ≤ idx then s else
    let c := KMap.getD s.collectives idx ⟨[], []⟩
    let m := (off - 1) / 16
    let f := (off - 1) % 16
    let c' : Collective :=
      if off = 0 then { c with members := if c.members.contains (v / 16, v % 16) then c.members else c.members ++ [(v / 16, v % 16)] }
      else if 8 ≤ (c.ranges.filter fun r => r.1 == m && r.2.1 == f).length then c
      else { c with ranges := c.ranges ++ [(m, f, v % 2 ^ 64, v / 2 ^ 64)] }
    { s with collectives := KMap.put s.collectives idx c' }
  | 16 => s.modFunc idx fun f => { f with owner := v % 2 ^ 16 }
  | 19 => s.modFunc idx fun f => if off = 0 then { f with ctxBase := keep v 47 16 } else { f with ctxSize := keep v 47 16 }
  | 17 => if s.fnGone idx then { s with partitions := KMap.put s.partitions (16 + idx) (v % 4) } else s
  | 20 => { s with coldDue := true }
  | _ => s

/-- REGISTER_WRITE. -/
def execRegisterWrite (page idx off v : Nat) (s : State) : Out :=
  .next (if page = 0 then s.ifEnabled (s.controlWrite idx off v) else s.managementWrite page idx off v)

/-! What a read of a register gives (R7: write-only fields and reserved bits read 0). A read of QSTAT is QSTAT_READ. -/

def bitIf (b : Bool) (k : Nat) : Nat := if b then 2 ^ k else 0

/-- A control-page register. -/
def State.controlRead (s : State) (fn off : Nat) : Nat :=
  let f := s.func fn
  let y := s.queue fn ((off - 0x1000) / 64)
  match off with
  | 0x000 => f.ttbase.toNat
  | 0x008 => f.fqbase.toNat
  | 0x010 => bitIf f.fqIrq 10 + bitIf f.fqOvf 9 + bitIf f.fqEn 8 + f.fqSize
  | 0x018 => f.fqHead
  | 0x020 => f.fqTail
  | 0x030 => f.invaddr.toNat
  | 0x038 => bitIf f.invBusy 63 + bitIf f.invRange 32 + f.invPages
  | 0x040 => f.hwbase.toNat
  | 0x048 => f.aptbase.toNat
  | 0x050 => bitIf f.aptBusy 63 + bitIf f.aptErr 8 + f.aptFail
  | 0x058 => f.sdbase.toNat
  | 0x060 => f.quota * 2 ^ 12 + f.sdsize
  | 0x070 => (match f.chNext with | some x => x.1 | none => f.chbase).toNat
  | 0x078 => match f.chNext with | some x => x.2 | none => f.chsize
  | 0x080 => f.ktbase.toNat
  | 0x088 => f.tfail.toNat
  | 0x090 => f.srbase.toNat
  | 0x098 => bitIf f.srErr 9 + bitIf f.srIrq 8 + f.srSize
  | 0x0A0 => f.srHead
  | 0x0A8 => f.srTail
  | 0x0B8 => f.dmwin.toNat
  | _ =>
    if off < 0x1000 ∨ 0x2000 ≤ off then 0
    else match off % 64 with
      | 0x00 => y.qbase.toNat
      | 0x08 => bitIf y.inf 24 + y.depth * 2 ^ 16 + bitIf y.en 8 + y.size
      | 0x10 => y.qhead
      | 0x18 => y.qtail
      | 0x20 => s.qstat fn ((off - 0x1000) / 64)
      | _ => 0

/-- A management register. -/
def State.managementRead (s : State) (page idx off : Nat) : Nat :=
  match page with
  | 1 => (match off with
      | 0x300 => s.clogBase.toNat
      | 0x308 => bitIf s.clogOvf 9 + bitIf s.clogIrq 8 + s.clogSize
      | 0x310 => s.clogHead
      | 0x318 => s.clogTail
      | _ => 0)
  | 2 => let c := s.cluster idx; c.vstep * 2 ^ 8 + bitIf c.chg 7 + c.cur * 2 ^ 4 + c.cls
  | 3 => let c := s.coreReg idx; c.temp * 2 ^ 40 + c.droop * 2 ^ 32 + bitIf (s.hotNow idx) 24 + c.dth * 2 ^ 8 + c.tth
  | 4 => let c := s.cluster idx; c.cap * 2 ^ 32 + c.refill
  | 5 => let f := s.func idx; bitIf f.ctxGo 63 + bitIf f.saved.out 9 + bitIf (s.rdy idx) 8 + f.ctxOp
  | 6 => s.fnpriv.toNat
  | 7 => s.mpl
  | 8 => s.cstall
  | 9 => KMap.getD s.energy (idx % 1024) 0
  | 10 => (match off with | 0x00 => s.shlo | 0x08 => s.shhi | _ => s.shsh)
  | 11 => s.bootpr
  | 13 => s.classSteps.getD (idx % 4) 9
  | 15 => s.devnum
  | 16 => (s.func idx).owner
  | 17 => s.fnPart idx
  | 18 => (s.cluster idx).clenrg.toNat
  | 19 => if off = 0 then (s.func idx).ctxBase else (s.func idx).ctxSize
  | _ => 0

end Sys2Proof.Machine
end

