-- ==== Sys2Proof/Machine/Dispatch.lean ====
section
/-!
DEFINITION. What each instruction, step and event does: one meaning per constructor.
-/

namespace Sys2Proof.Machine

def exec (i : Instr) (s : State) : Host.Outcome State Fault Refusal :=
  match i with
  | .ill => Sys2Proof.Machine.execIll s
  | .illCode code => Sys2Proof.Machine.execIllCode code s
  | .mov d a u => Sys2Proof.Machine.execMov d a u s
  | .sel d a b ctl => Sys2Proof.Machine.execSel d a b ctl s
  | .add d a b => Sys2Proof.Machine.execAdd d a b s
  | .sub d a b => Sys2Proof.Machine.execSub d a b s
  | .addc d a b => Sys2Proof.Machine.execAddc d a b s
  | .subb d a b => Sys2Proof.Machine.execSubb d a b s
  | .mul d a b => Sys2Proof.Machine.execMul d a b s
  | .mulh d a b => Sys2Proof.Machine.execMulh d a b s
  | .mad d a b => Sys2Proof.Machine.execMad d a b s
  | .madw d a b => Sys2Proof.Machine.execMadw d a b s
  | .neg d a u => Sys2Proof.Machine.execNeg d a u s
  | .abs d a u => Sys2Proof.Machine.execAbs d a u s
  | .min d a b => Sys2Proof.Machine.execMin d a b s
  | .max d a b => Sys2Proof.Machine.execMax d a b s
  | .adds d a b => Sys2Proof.Machine.execAdds d a b s
  | .subs d a b => Sys2Proof.Machine.execSubs d a b s
  | .and d a b => Sys2Proof.Machine.execAnd d a b s
  | .or d a b => Sys2Proof.Machine.execOr d a b s
  | .xor d a b => Sys2Proof.Machine.execXor d a b s
  | .andn d a b => Sys2Proof.Machine.execAndn d a b s
  | .not d a u => Sys2Proof.Machine.execNot d a u s
  | .shl d a b => Sys2Proof.Machine.execShl d a b s
  | .shr d a b => Sys2Proof.Machine.execShr d a b s
  | .shra d a b => Sys2Proof.Machine.execShra d a b s
  | .rotl d a b => Sys2Proof.Machine.execRotl d a b s
  | .bfx d a b => Sys2Proof.Machine.execBfx d a b s
  | .bfi d a b => Sys2Proof.Machine.execBfi d a b s
  | .popc d a u => Sys2Proof.Machine.execPopc d a u s
  | .clz d a u => Sys2Proof.Machine.execClz d a u s
  | .ctz d a u => Sys2Proof.Machine.execCtz d a u s
  | .brev d a u => Sys2Proof.Machine.execBrev d a u s
  | .icmpeq d a b => Sys2Proof.Machine.execIcmpeq d a b s
  | .icmpne d a b => Sys2Proof.Machine.execIcmpne d a b s
  | .icmplt d a b => Sys2Proof.Machine.execIcmplt d a b s
  | .icmple d a b => Sys2Proof.Machine.execIcmple d a b s
  | .lea d a b => Sys2Proof.Machine.execLea d a b s
  | .movp d p u => Sys2Proof.Machine.execMovp d p u s
  | .pand d p q => Sys2Proof.Machine.execPand d p q s
  | .por d p q => Sys2Proof.Machine.execPor d p q s
  | .pxor d p q => Sys2Proof.Machine.execPxor d p q s
  | .pnot d p u => Sys2Proof.Machine.execPnot d p u s
  | .pset d v => Sys2Proof.Machine.execPset d v s
  | .pmov d a u => Sys2Proof.Machine.execPmov d a u s
  | .bra c off => Sys2Proof.Machine.execBra c off s
  | .brd u off join => Sys2Proof.Machine.execBrd u off join s
  | .join u => Sys2Proof.Machine.execJoin u s
  | .call d off => Sys2Proof.Machine.execCall d off s
  | .ret a u => Sys2Proof.Machine.execRet a u s
  | .exit u => Sys2Proof.Machine.execExit u s
  | .yield u => Sys2Proof.Machine.execYield u s
  | .parkBarrier u off cond => Sys2Proof.Machine.execParkBarrier u off cond s
  | .parkCounter u off cond => Sys2Proof.Machine.execParkCounter u off cond s
  | .trapSoftware blk code => Sys2Proof.Machine.execTrapSoftware blk code s
  | .trapServiceCall blk code => Sys2Proof.Machine.execTrapServiceCall blk code s
  | .nop u => Sys2Proof.Machine.execNop u s
  | .shfl d a b => Sys2Proof.Machine.execShfl d a b s
  | .shflu d a b => Sys2Proof.Machine.execShflu d a b s
  | .shfld d a b => Sys2Proof.Machine.execShfld d a b s
  | .shflx d a b => Sys2Proof.Machine.execShflx d a b s
  | .votea d p u => Sys2Proof.Machine.execVotea d p u s
  | .votey d p u => Sys2Proof.Machine.execVotey d p u s
  | .ballot d p u => Sys2Proof.Machine.execBallot d p u s
  | .matchv d a u => Sys2Proof.Machine.execMatchv d a u s
  | .gredadd d a u => Sys2Proof.Machine.execGredadd d a u s
  | .gredmin d a u => Sys2Proof.Machine.execGredmin d a u s
  | .gredmax d a u => Sys2Proof.Machine.execGredmax d a u s
  | .gscan d a op => Sys2Proof.Machine.execGscan d a op s
  | .reord u key mask => Sys2Proof.Machine.execReord u key mask s
  | .elect d u => Sys2Proof.Machine.execElect d u s
  | .fadd d a b => Sys2Proof.Machine.execFadd d a b s
  | .fsub d a b => Sys2Proof.Machine.execFsub d a b s
  | .fmul d a b => Sys2Proof.Machine.execFmul d a b s
  | .ffma d a b => Sys2Proof.Machine.execFfma d a b s
  | .ffms d a b => Sys2Proof.Machine.execFfms d a b s
  | .ffnma d a b => Sys2Proof.Machine.execFfnma d a b s
  | .fdiv d a b => Sys2Proof.Machine.execFdiv d a b s
  | .fsqrt d a u => Sys2Proof.Machine.execFsqrt d a u s
  | .frcp d a u => Sys2Proof.Machine.execFrcp d a u s
  | .frsq d a u => Sys2Proof.Machine.execFrsq d a u s
  | .fmin d a b => Sys2Proof.Machine.execFmin d a b s
  | .fmax d a b => Sys2Proof.Machine.execFmax d a b s
  | .fminm d a b => Sys2Proof.Machine.execFminm d a b s
  | .fmaxm d a b => Sys2Proof.Machine.execFmaxm d a b s
  | .fabs d a u => Sys2Proof.Machine.execFabs d a u s
  | .fneg d a u => Sys2Proof.Machine.execFneg d a u s
  | .fcpsgn d a b => Sys2Proof.Machine.execFcpsgn d a b s
  | .fcmpeq d a b => Sys2Proof.Machine.execFcmpeq d a b s
  | .fcmplt d a b => Sys2Proof.Machine.execFcmplt d a b s
  | .fcmple d a b => Sys2Proof.Machine.execFcmple d a b s
  | .fcmpun d a b => Sys2Proof.Machine.execFcmpun d a b s
  | .fclass d a u => Sys2Proof.Machine.execFclass d a u s
  | .frnd d a u => Sys2Proof.Machine.execFrnd d a u s
  | .fscale d a b => Sys2Proof.Machine.execFscale d a b s
  | .fgexp d a u => Sys2Proof.Machine.execFgexp d a u s
  | .fgmant d a u => Sys2Proof.Machine.execFgmant d a u s
  | .fex2 d a u => Sys2Proof.Machine.execFex2 d a u s
  | .flg2 d a u => Sys2Proof.Machine.execFlg2 d a u s
  | .fsin d a u => Sys2Proof.Machine.execFsin d a u s
  | .fcos d a u => Sys2Proof.Machine.execFcos d a u s
  | .cvt d a t => Sys2Proof.Machine.execCvt d a t s
  | .cvtn d a t => Sys2Proof.Machine.execCvtn d a t s
  | .cvtw d a t => Sys2Proof.Machine.execCvtw d a t s
  | .hadd2 d a b => Sys2Proof.Machine.execHadd2 d a b s
  | .hmul2 d a b => Sys2Proof.Machine.execHmul2 d a b s
  | .hfma2 d a b => Sys2Proof.Machine.execHfma2 d a b s
  | .pdot4 d a b => Sys2Proof.Machine.execPdot4 d a b s
  | .pdot8 d a b => Sys2Proof.Machine.execPdot8 d a b s
  | .pdot2 d a b => Sys2Proof.Machine.execPdot2 d a b s
  | .ld d base off => Sys2Proof.Machine.execLd d base off s
  | .st x base off => Sys2Proof.Machine.execSt x base off s
  | .ld2 d base off => Sys2Proof.Machine.execLd2 d base off s
  | .ld4 d base off => Sys2Proof.Machine.execLd4 d base off s
  | .st2 x base off => Sys2Proof.Machine.execSt2 x base off s
  | .st4 x base off => Sys2Proof.Machine.execSt4 x base off s
  | .atladd d addr x => Sys2Proof.Machine.execAtladd d addr x s
  | .atlmin d addr x => Sys2Proof.Machine.execAtlmin d addr x s
  | .atlmax d addr x => Sys2Proof.Machine.execAtlmax d addr x s
  | .atland d addr x => Sys2Proof.Machine.execAtland d addr x s
  | .atlor d addr x => Sys2Proof.Machine.execAtlor d addr x s
  | .atlxor d addr x => Sys2Proof.Machine.execAtlxor d addr x s
  | .atlxch d addr x => Sys2Proof.Machine.execAtlxch d addr x s
  | .atlcas d addr x => Sys2Proof.Machine.execAtlcas d addr x s
  | .bcopy blk u => Sys2Proof.Machine.execBcopy blk u s
  | .bcopyr blk u => Sys2Proof.Machine.execBcopyr blk u s
  | .bcast blk u => Sys2Proof.Machine.execBcast blk u s
  | .gather d base off => Sys2Proof.Machine.execGather d base off s
  | .scatter x base off => Sys2Proof.Machine.execScatter x base off s
  | .pref base len u => Sys2Proof.Machine.execPref base len u s
  | .atom v base off ctl => Sys2Proof.Machine.execAtom v base off ctl s
  | .ared x base off ctl => Sys2Proof.Machine.execAred x base off ctl s
  | .aprog v base off ctl => Sys2Proof.Machine.execAprog v base off ctl s
  | .fence d scope mask => Sys2Proof.Machine.execFence d scope mask s
  | .fwait tok u => Sys2Proof.Machine.execFwait tok u s
  | .waitc cls n => Sys2Proof.Machine.execWaitc cls n s
  | .shopen d name u => Sys2Proof.Machine.execShopen d name u s
  | .shseal h u => Sys2Proof.Machine.execShseal h u s
  | .shabort h u => Sys2Proof.Machine.execShabort h u s
  | .shread d blk u => Sys2Proof.Machine.execShread d blk u s
  | .shver d name u => Sys2Proof.Machine.execShver d name u s
  | .mloop frag blk => Sys2Proof.Machine.execMloop frag blk s
  | .mloopQuill frag blk grp => Sys2Proof.Machine.execMloopQuill frag blk grp s
  | .mzero frag blk u => Sys2Proof.Machine.execMzero frag blk u s
  | .bar ua ub b => Sys2Proof.Machine.execBar ua ub b s
  | .bara ua ub b => Sys2Proof.Machine.execBara ua ub b s
  | .barw ua ub b => Sys2Proof.Machine.execBarw ua ub b s
  | .barx ua n b => Sys2Proof.Machine.execBarx ua n b s
  | .barq d ub b => Sys2Proof.Machine.execBarq d ub b s
  | .dqpush ua v u => Sys2Proof.Machine.execDqpush ua v u s
  | .dqpop d u => Sys2Proof.Machine.execDqpop d u s
  | .regget d mask u => Sys2Proof.Machine.execRegget d mask u s
  | .regput ua mask u => Sys2Proof.Machine.execRegput ua mask u s
  | .form f v u => Sys2Proof.Machine.execForm f v u s
  | .ctlr d ub reg => Sys2Proof.Machine.execCtlr d ub reg s
  | .ctlw ua v reg => Sys2Proof.Machine.execCtlw ua v reg s
  | .slotq d ub kind => Sys2Proof.Machine.execSlotq d ub kind s
  | .taskq blk u => Sys2Proof.Machine.execTaskq blk u s
  | .taskdone ua t u => Sys2Proof.Machine.execTaskdone ua t u s
  | .eret ua ub mode => Sys2Proof.Machine.execEret ua ub mode s
  | .halt ua code => Sys2Proof.Machine.execHalt ua code s
  | .signal addr v op => Sys2Proof.Machine.execSignal addr v op s
  | .clauseIssue g n => Sys2Proof.Machine.execClauseIssue g n s
  | .longLatencyWriteback g l => Sys2Proof.Machine.execLongLatencyWriteback g l s
  | .drain g => Sys2Proof.Machine.execDrain g s
  | .propagate core => Sys2Proof.Machine.execPropagate core s
  | .load g => Sys2Proof.Machine.execLoad g s
  | .atl g => Sys2Proof.Machine.execAtl g s
  | .start op => Sys2Proof.Machine.execStart op s
  | .send q => Sys2Proof.Machine.execSend q s
  | .arrive q => Sys2Proof.Machine.execArrive q s
  | .serve q => Sys2Proof.Machine.execServe q s
  | .land q => Sys2Proof.Machine.execLand q s
  | .peerRefusal q => Sys2Proof.Machine.execPeerRefusal q s
  | .retire g c => Sys2Proof.Machine.execRetire g c s
  | .swrite q => Sys2Proof.Machine.execSwrite q s
  | .sealManifestWrite e => Sys2Proof.Machine.execSealManifestWrite e s
  | .seal e home => Sys2Proof.Machine.execSeal e home s
  | .abort e home => Sys2Proof.Machine.execAbort e home s
  | .shreadLook op line => Sys2Proof.Machine.execShreadLook op line s
  | .shreadList op line => Sys2Proof.Machine.execShreadList op line s
  | .shreadFetch op line => Sys2Proof.Machine.execShreadFetch op line s
  | .pf line => Sys2Proof.Machine.execPf line s
  | .pwrite q => Sys2Proof.Machine.execPwrite q s
  | .pread q => Sys2Proof.Machine.execPread q s
  | .promote duc k home => Sys2Proof.Machine.execPromote duc k home s
  | .discard duc k home => Sys2Proof.Machine.execDiscard duc k home s
  | .matrixStep unit => Sys2Proof.Machine.execMatrixStep unit s
  | .registerLineFill g reg => Sys2Proof.Machine.execRegisterLineFill g reg s
  | .reggetGrant sub => Sys2Proof.Machine.execReggetGrant sub s
  | .reordComplete g => Sys2Proof.Machine.execReordComplete g s
  | .parkReactivate g n => Sys2Proof.Machine.execParkReactivate g n s
  | .groupRetire g => Sys2Proof.Machine.execGroupRetire g s
  | .drainWindowClose => Sys2Proof.Machine.execDrainWindowClose s
  | .slotStart => Sys2Proof.Machine.execSlotStart s
  | .slotEnd => Sys2Proof.Machine.execSlotEnd s
  | .calendarOverrun unfinished => Sys2Proof.Machine.execCalendarOverrun unfinished s
  | .cooldownExpiry core => Sys2Proof.Machine.execCooldownExpiry core s
  | .budgetExpiry slice => Sys2Proof.Machine.execBudgetExpiry slice s
  | .budgetTrap g n => Sys2Proof.Machine.execBudgetTrap g n s
  | .clusterClockGate cl => Sys2Proof.Machine.execClusterClockGate cl s
  | .clusterResume cl => Sys2Proof.Machine.execClusterResume cl s
  | .admission die => Sys2Proof.Machine.execAdmission die s
  | .faultRecordWrite fn => Sys2Proof.Machine.execFaultRecordWrite fn s
  | .replayAll fn => Sys2Proof.Machine.execReplayAll fn s
  | .replaySeq fn seq => Sys2Proof.Machine.execReplaySeq fn seq s
  | .invalidateAll fn => Sys2Proof.Machine.execInvalidateAll fn s
  | .invalidateRange fn pages => Sys2Proof.Machine.execInvalidateRange fn pages s
  | .invalidationComplete fn => Sys2Proof.Machine.execInvalidationComplete fn s
  | .contextAutoReturn fn => Sys2Proof.Machine.execContextAutoReturn fn s
  | .routineTableInstall fn => Sys2Proof.Machine.execRoutineTableInstall fn s
  | .routineTableInstallDone fn => Sys2Proof.Machine.execRoutineTableInstallDone fn s
  | .sdfree fn name => Sys2Proof.Machine.execSdfree fn name s
  | .queueDoorbell fn q v => Sys2Proof.Machine.execQueueDoorbell fn q v s
  | .qctlWrite fn q v => Sys2Proof.Machine.execQctlWrite fn q v s
  | .qstatRead fn q => Sys2Proof.Machine.execQstatRead fn q s
  | .commandArrival fn q => Sys2Proof.Machine.execCommandArrival fn q s
  | .predictionCompare fn q => Sys2Proof.Machine.execPredictionCompare fn q s
  | .predictionStart fn q => Sys2Proof.Machine.execPredictionStart fn q s
  | .launchPromotion fn q => Sys2Proof.Machine.execLaunchPromotion fn q s
  | .cutOver l => Sys2Proof.Machine.execCutOver l s
  | .launch fn q => Sys2Proof.Machine.execLaunch fn q s
  | .copyCommand fn q => Sys2Proof.Machine.execCopyCommand fn q s
  | .signalCommand fn q => Sys2Proof.Machine.execSignalCommand fn q s
  | .waitCommand fn q => Sys2Proof.Machine.execWaitCommand fn q s
  | .waitPollRead fn q => Sys2Proof.Machine.execWaitPollRead fn q s
  | .waitTimeout fn q => Sys2Proof.Machine.execWaitTimeout fn q s
  | .ductusRead fn q => Sys2Proof.Machine.execDuctusRead fn q s
  | .completionRecordWrite fn q => Sys2Proof.Machine.execCompletionRecordWrite fn q s
  | .taskLaunchEnd l => Sys2Proof.Machine.execTaskLaunchEnd l s
  | .classChangeRequest cl v => Sys2Proof.Machine.execClassChangeRequest cl v s
  | .operatingPointMove cl => Sys2Proof.Machine.execOperatingPointMove cl s
  | .classChangeComplete cl => Sys2Proof.Machine.execClassChangeComplete cl s
  | .contextSwitchOut fn => Sys2Proof.Machine.execContextSwitchOut fn s
  | .switchOutComplete fn => Sys2Proof.Machine.execSwitchOutComplete fn s
  | .contextSwitchIn fn => Sys2Proof.Machine.execContextSwitchIn fn s
  | .functionRemove fn => Sys2Proof.Machine.execFunctionRemove fn s
  | .serviceRequestPost g => Sys2Proof.Machine.execServiceRequestPost g s
  | .serviceReply fn idx => Sys2Proof.Machine.execServiceReply fn idx s
  | .functionReset fn => Sys2Proof.Machine.execFunctionReset fn s
  | .functionResetComplete fn => Sys2Proof.Machine.execFunctionResetComplete fn s
  | .collectiveStall c fn => Sys2Proof.Machine.execCollectiveStall c fn s
  | .memberWithdrawn c dev fn => Sys2Proof.Machine.execMemberWithdrawn c dev fn s
  | .keySlotBind owner => Sys2Proof.Machine.execKeySlotBind owner s
  | .keySlotRetire slot => Sys2Proof.Machine.execKeySlotRetire slot s
  | .scrubLine line => Sys2Proof.Machine.execScrubLine line s
  | .deviceMemoryWindowAccess fn off len wr => Sys2Proof.Machine.execDeviceMemoryWindowAccess fn off len wr s
  | .tlpIntegrityFail fn => Sys2Proof.Machine.execTlpIntegrityFail fn s
  | .pauseFlit port cc => Sys2Proof.Machine.execPauseFlit port cc s
  | .flitCrcRetry port => Sys2Proof.Machine.execFlitCrcRetry port s
  | .linkDownTimeout port => Sys2Proof.Machine.execLinkDownTimeout port s
  | .inletOvertemp t => Sys2Proof.Machine.execInletOvertemp t s
  | .packageStart primaryFails alternateFails stackFails => Sys2Proof.Machine.execPackageStart primaryFails alternateFails stackFails s
  | .measurementExtend reg image => Sys2Proof.Machine.execMeasurementExtend reg image s
  | .quoteRequest nonce => Sys2Proof.Machine.execQuoteRequest nonce s
  | .registerWrite page idx off v => Sys2Proof.Machine.execRegisterWrite page idx off v s
  | .linkReturn port => Sys2Proof.Machine.execLinkReturn port s
  | .inletTemperatureFall t => Sys2Proof.Machine.execInletTemperatureFall t s
  | .partitionChange islands part => Sys2Proof.Machine.execPartitionChange islands part s
  | .spdmKeyExchange fn key => Sys2Proof.Machine.execSpdmKeyExchange fn key s

end Sys2Proof.Machine
end

