-- ==== Sys2Proof/Machine/Schedule.lean ====
section
/-!
DEFINITION. What goes round the meanings in one step of the machine: which gang issues or which step comes next (R350, log 3),
the fetch of an instruction from its clause (R11, R23), its energy (R345 to R348), the end of a clause, and the passage of time
(R108, R297, R335, R349, log 4).
-/

namespace Sys2Proof.Machine

/-- What follows a step that answers a next state. -/
def andThen (o : Out) (f : State → State) : Out :=
  match o with
  | .next s => .next (f s)
  | .fault e => .fault e
  | .refused r => .refused r

/-! ### Energy (R345 to R348) -/

/-- R347: the width index of a type. -/
def widthIndex (t : EType) : Nat :=
  match widthOf t with
  | 64 => 3
  | 32 => 2
  | 16 => 1
  | _ => 0

/-- R347: opcodes between two bounds. -/
def within (op lo hi : Nat) : Bool := decide (lo ≤ op) && decide (op ≤ hi)

/-- R347: the operation class of an opcode under a type, before the uniform instructions are set apart; none for MLOOP and MZERO,
whose steps are charged. Sign operations and FCLASS are class 2 under every type (R248's table gives FCLASS the FP32 pipe). -/
def opClass (op : Nat) (ty : EType) (f64Target : Bool) : Option Nat :=
  if within op 0xD0 0xD1 then none
  else if within op 0x4A 0x57 then some 6
  else if op = 0x66 ∨ op = 0x67 ∨ op = 0x68 ∨ op = 0x69 ∨ within op 0x7A 0x7D then some 4
  else if within op 0x6E 0x70 ∨ op = 0x75 then some 2
  else if within op 0x60 0x79 then some (if ty == .f64 then 3 else 2)
  else if within op 0x80 0x82 then some (if ty == .f64 ∨ f64Target then 3 else 5)
  else if within op 0x83 0x88 then some 5
  else if within op 0xA0 0xA5 then some 8
  else if within op 0xA6 0xAD then some 9
  else if within op 0xB0 0xB2 ∨ op = 0xC6 then some 10
  else if within op 0xB3 0xB5 then some 11
  else if within op 0xB6 0xB8 ∨ within op 0xC3 0xC5 ∨ op = 0xC7 ∨ op = 0xEC then some 12
  else if within op 0x01 0x2D then some 1
  else some 7

/-- R154, R229, R295, R347: opcodes without a type; MOVP (0x27) and CTLR (0xE5) are among them to a scalar only, by their A field `a`. -/
def typeFree (op a : Nat) : Bool :=
  ((op == 0x27 || op == 0xE5) && decide (192 ≤ a)) || within op 0x28 0x2D || within op 0x40 0x49 || within op 0x4E 0x50 ||
    within op 0x56 0x57 || within op 0xB0 0xB2 || op == 0xB5 || op == 0xB8 || within op 0xC0 0xE4 || within op 0xE6 0xEC

/-- R147: the type that an atomic's control literal names stands in for the form's. -/
def atomicType : Instr → Option EType
  | .atom _ _ _ c => (atomCtl c true).map Prod.snd
  | .ared _ _ _ c => (atomCtl c false).map Prod.snd
  | _ => none

/-- R19, R347: an instruction of the scalar pipe: a compare is one when its selector names a scalar (R226); what reads or writes a
predicate is none. -/
def onScalarPipe (i : Instr) : Bool :=
  match i with
  | .icmpeq d a b | .icmpne d a b | .icmplt d a b | .icmple d a b | .fcmpeq d a b | .fcmplt d a b | .fcmple d a b | .fcmpun d a b =>
    uniform (selOpnd d) [a, b]
  | .movp .. | .pmov .. => false
  | i => match i.operands with
    | d :: r => uniform d r
    | [] => false

/-- R347: an entry of the energy table, charged as CAP when it is above it. -/
def State.energyAt (s : State) (cl c w : Nat) : Nat := KMap.getD s.energy (64 * c + 16 * w + (s.cluster cl).vstep) 0
def State.capped (s : State) (cl x : Nat) : Nat := min x (s.cluster cl).cap

/-- R347: the cost of an instruction of a core's cluster, by its word and form. -/
def State.costOf (s : State) (cl : Nat) (word form : Word) (i : Instr) : Nat :=
  let op := (opField word).toNat
  let ty := etypeOf (bitsOf form.toNat 8 5)
  match opClass op ty (etypeOf ((cField word).toNat % 16) == .f64) with
  | none => 0
  | some c =>
    let c := if 1 ≤ c ∧ c ≤ 5 ∧ onScalarPipe i then 0 else c
    s.capped cl (s.energyAt cl c (if typeFree op (aField word).toNat then 2 else widthIndex ((atomicType i).getD ty)))

/-- The instruction that a gang is about to issue, with its word and the words behind it. -/
def ClauseBuf.upcoming (c : ClauseBuf) : Option (Instr × Word × List Word) :=
  match decode (c.words.drop c.next) with
  | .ok (i, r) => some (i, (c.words.drop c.next).headD 0, r)
  | .error _ => none

/-- A JOIN that its gang takes again after a merge (log 42): it has been offered and paid for by the nibs that were held at it. -/
def Gang.rejoins (k : Gang) (c : ClauseBuf) (i : Instr) : Bool :=
  k.hold == .none && c.formed && c.next == 0 && match i with | .join .. => true | _ => false

/-- R347: the cost of the instruction that the gang would issue. -/
def State.offer (s : State) (g : Group) (k : Gang) : Option Nat :=
  match k.clause with
  | none => none
  | some c => match c.upcoming with
    | some (i, w, _) => some (if k.rejoins c i then 0 else s.costOf (g.core / 4) w (c.formNow g.forms) i)
    | none => none

/-- R281, R347: the cost of the next step of a unit. -/
def State.stepCost (s : State) (unit : Nat) : Nat :=
  let cl := unit / 32
  match s.unitOp unit with
  | some (_, o, _, _) => (match o.kind with
    | .mloop _ _ b .. => s.capped cl (s.energyAt cl (if b.spa then 14 else 13) b.widthIndex * b.clocks)
    | .mzero _ _ w => s.capped cl (s.energyAt cl 15 w)
    | _ => 0)
  | none => 0

/-- R345, R346: `cost` leaves the balance of the context's cluster, in which something issues. -/
def State.pay (s : State) (gid cost : Nat) : State :=
  match s.group gid with
  | none => s
  | some g => s.modCluster (g.core / 4) fun c => { c with balance := c.balance - cost, idle := 0 }

/-- R116, R335: a clock of its cluster in which the slice issues costs it 1, however much issues in it. -/
def State.chargeSlice (s : State) (gid : Nat) : State :=
  match s.group gid with
  | none => s
  | some g =>
    let now := (s.cluster (g.core / 4)).clock
    if s.inDrainOrSlot ∨ s.groups.any (fun e => e.2.slice == g.slice && e.2.offCore) then s
    else { s with slices := KMap.adjust s.slices g.slice fun x =>
      if x.budget = 0 ∨ x.at_ = some now then x else { x with left := x.left - 1, at_ := some now } }

/-! ### Which gang may issue (R177, R350) -/

/-- R322: the context's launch is being cut over. -/
def State.groupCutting (s : State) (g : Group) : Bool :=
  match s.launchOf g with
  | some l => (match l.pred with | some p => p.cutting | none => false)
  | none => false

/-- R350, R354: nothing of its context keeps the gang from issuing; inside a handler only its nibs issue, and on a cluster whose class
moves nothing does (R342). -/
def State.mayIssue (s : State) (g : Group) (k : Gang) : Bool :=
  g.presence == .here && g.goesOn k && !s.groupCutting g && !(s.cluster (g.core / 4)).moved

/-! ### The issue of an instruction (R11, R23) -/

/-- The instruction at `next`, of which `rest` words remain behind it, becomes the current one. -/
def ClauseBuf.begin (forms rest : List Word) (c : ClauseBuf) : ClauseBuf :=
  { c with
    cur := c.next
    next := c.words.length - rest.length
    form := c.formNow forms
    formed := true }

/-- R235, R350: the gang is chosen at this step and this clock of its cluster, and a turn that its context has given up is over. -/
def State.chosen (s : State) (gid n : Nat) : State :=
  s.modGroup gid fun g =>
    let now := (s.cluster (g.core / 4)).clock
    let g1 : Group := { g with yielded := none, yld := false, chosen := s.turn, chosenClock := now }
    g1.modGang n fun k => { k with lastIssue := s.turn, clock := now }

/-- The gang is chosen, and its instruction, of which `rest` words remain behind it, becomes the current one. The form is read
at the clause's first instruction. -/
def State.begin (s : State) (gid n : Nat) (rest : List Word) : State :=
  let started : State := (s.chosen gid n).modGroup gid fun g =>
    g.modGang n fun k => { k with clause := k.clause.map (ClauseBuf.begin g.forms rest) }
  { started with cur := some ⟨gid, n⟩ }

/-- The issue of a clause (R20), or of the next instruction of the clause; a word that is no instruction raises the illegal-instruction
fault (R39), and a form register that a restored image gave a reserved code the fault of R32. -/
def State.issueNow (s : State) (gid n : Nat) : Out :=
  match s.group gid with
  | none => .next s
  | some g =>
    match g.gang n with
    | none => .next s
    | some k =>
      match k.clause with
      | none => exec (.clauseIssue gid n) (s.chosen gid n)
      | some c =>
        if !c.formed ∧ badForm (g.forms.getD (hdrForm c.hdr) 8).toNat then .next (s.headerTrap gid n g c.addr c.hdr 2 5)
        else match decode (c.words.drop c.next) with
        | .ok (i, r) => exec i (s.begin gid n r)
        | .error _ =>
          let s1 := s.begin gid n (c.words.drop (c.next + 1))
          .next (match s1.issuer with | some i => s1.trap i 1 0 | none => s1)

/-- Gang `n` of the context waits at an instruction that judges its own wait. -/
def State.waits (s : State) (gid n : Nat) : Bool := (s.group gid).any fun g => (g.gang n).any Gang.waits

/-- The wait at which the gang's instruction stands is over: issued, it would no longer wait. -/
def State.passes (s : State) (gid n : Nat) : Bool :=
  match s.issueNow gid n with
  | .next t => !t.waits gid n
  | _ => false

/-- R350: a gang that waited in `s` and waits still in `t` has not been chosen: its context's turn is as it was. -/
def State.unchosen (s t : State) (gid n : Nat) : State :=
  match s.group gid with
  | some g => if s.waits gid n ∧ t.waits gid n then
      t.modGroup gid fun h =>
        let h1 : Group := { h with yielded := g.yielded, yld := g.yld, chosen := g.chosen, chosenClock := g.chosenClock }
        h1.modGang n fun k => match g.gang n with | some x => { k with lastIssue := x.lastIssue, clock := x.clock } | none => k
    else t
  | none => t

/-- R59: issued again, the gang would wait still, and something changes by it: its context is fault-parked. -/
def State.stirs (s : State) (gid n : Nat) : Bool :=
  match s.issueNow gid n with
  | .next t => t.waits gid n && decide (((s.unchosen t gid n).group gid).map (fun g => (g.faultParked, g.presence)) ≠
      (s.group gid).map fun g => (g.faultParked, g.presence))
  | _ => false

/-- R336: the gang takes the budget trap in place of its next issue: where it waits to issue, when it would issue; one that WAITC or FWAIT
holds, after these. -/
def State.budgetFirst (s : State) (gid : Nat) (g : Group) (k : Gang) : Bool :=
  g.budgetReady k && (k.hold != .retry ||
    (match k.clause.bind ClauseBuf.upcoming with
      | some (.waitc .., _) | some (.fwait .., _) => false
      | _ => true) && s.passes gid k.id)

/-- The issue: a budget trap that is due (R336), or what the gang issues. -/
def State.issue (s : State) (gid n : Nat) : Out :=
  match s.group gid, (s.group gid).bind fun g => g.gang n with
  | some g, some k => if s.budgetFirst gid g k then exec (.budgetTrap gid n) s else s.issueNow gid n
  | _, _ => .next s

/-! ### How an instruction that has issued stands -/

/-- R348: an instruction that has issued still holds the gang, and has not retired. -/
def Hold.issued : Hold → Bool
  | .barrier _ | .park .. | .join .. | .reord .. | .regget .. | .dqpop _ | .service .. | .offCore .. => true
  | _ => false

/-- The cause of the fault that the gang's instruction raised, by which the context entered its handler or its launch ended; HALT ends
it without one. -/
def State.causeOf (s t : State) (gid : Nat) : Option Nat :=
  match s.group gid, t.group gid with
  | some g, some h =>
    if !g.h ∧ h.h then some ((if h.quill then h.sreg 46 else h.tcau).toNat % 256)
    else if !g.stopped ∧ h.stopped then (match (t.launchOf h).bind Launch.status with
      | some (1, _) => none
      | some (_, _, code) => some (code % 256)
      | none => none)
    else none
  | _, _ => none

/-- The gangs of `t` that hold a nib of gang `k`. -/
def Group.heirs (h : Group) (k : Gang) : List Gang := h.gangs.filter fun x => x.nibs.any k.nibs.contains

/-- R347: issued, the gang's word raises an encoding fault (R34, R35), in a predicted launch the stall before it (R36). -/
def State.undecodable (s : State) (gid : Nat) (k : Gang) : Bool :=
  match s.issueNow gid k.id with
  | .next t => (match s.causeOf t gid with | some c => decide (c ≤ 3) | none => false) ||
      (t.group gid).any fun h => (h.heirs k).any fun x => x.hold == .stall 7
  | _ => false

/-! ### Readiness and choice (R79, R177, R346, R350) -/

/-- R346: the cost of what the gang would issue is within its cluster's balance, or it offers nothing that has a cost. -/
def State.affords (s : State) (x : Nat × Group × Gang) : Bool :=
  let (gid, g, k) := x
  match s.offer g k with
  | some cost => decide (cost ≤ (s.cluster (g.core / 4)).balance) || s.undecodable gid k
  | none => true

/-- A step is enabled when it changes the state. -/
def State.enables (s : State) (i : Instr) : Bool :=
  match exec i s with
  | .next t => decide (t ≠ s)
  | _ => false

/-- R83: the stack lines that the gang's next instruction reads or writes. -/
def State.stackLines (s : State) (gid : Nat) (g : Group) (k : Gang) : List Nat :=
  match s.issueNow gid k.id with
  | .next t => (match t.group gid with
    | none => []
    | some h =>
      let line (p : Place) (off : Nat) : Option Nat := match p with | .stack _ th => some (stackLine (65536 * th + off)) | _ => none
      let pieces (l : LongOp) : List LPiece := match l.kind with | .load _ _ ps | .atomic _ _ _ ps => ps | _ => []
      (((h.longs.filter fun l => !g.longs.contains l).flatMap pieces).flatMap fun p =>
          (List.range p.len).filterMap fun j => line p.place (p.off + j)) ++
        ((h.fifo.filter fun e => !g.fifo.contains e).flatMap fun e => match e.kind with
          | .store p bs => bs.filterMap fun b => line p b.1
          | .atl .. => []))
  | _ => []

/-- R79: the lines that the gang's clause, or the next one, names, and which are not present; the stack lines of its next instruction once
its registers are. -/
def State.missing (s : State) (gid : Nat) (g : Group) (k : Gang) : List Nat :=
  if g.quill ∨ (KMap.get s.images gid).isNone then []
  else match k.clause with
    | none => (match s.issueNow gid k.id with
      | .next t => (match ((t.group gid).bind fun h => h.gang k.id).bind Gang.clause with
        | some c => s.absentLines gid g (g.clauseLines c)
        | none => [])
      | _ => [])
    | some c => match s.absentLines gid g (g.clauseLines c) with
      | [] => s.absentLines gid g (s.stackLines gid g k)
      | ls => ls

/-- R248: while an enable is set, a floating result of the gang's clause that is under way holds what follows it there, also where the
enable was set after it had issued. -/
def Group.resultHeld (g : Group) (k : Gang) : Bool :=
  decide (bitsOf g.actl.toNat 8 4 ≠ 0) && k.clause.any fun c => g.longs.any fun l =>
    l.clause == c.serial && match l.kind with | .float _ => true | _ => false

def Gang.atTaskdone (k : Gang) : Bool :=
  match k.clause.bind ClauseBuf.upcoming with
  | some (.taskdone .., _) => true
  | _ => false

def Gang.atDqpop (k : Gang) : Bool :=
  match k.clause.bind ClauseBuf.upcoming with
  | some (.dqpop .., _) => true
  | _ => false

/-- R292: a DQPOP of the context may still come at this clock: none that stands behind it in their order has come. -/
def State.popOpen (s : State) (g : Group) : Bool :=
  (s.teamOf g).all fun t => decide (KMap.getD t.popped g.core 0 ≤ g.popKey (s.cluster (g.core / 4)).clock)

/-- R339: a step of the task table from this issuer number may still come at this CALN: none of a higher one has come. -/
def State.tableOpen (s : State) (issuer : Nat) : Bool := s.table.all fun x => x.1 != s.caln || decide (x.2 ≤ issuer)

/-- R350: what the gang would issue next may issue, its register lines and a wait that the instruction judges apart: its clause's flags
are clear, and nothing holds it. -/
def State.unheld (s : State) (gid : Nat) (g : Group) (k : Gang) : Bool :=
  s.mayIssue g k && !g.resultHeld k && (!k.atTaskdone || s.tableOpen g.issuer) && (!k.atDqpop || s.popOpen g) &&
    (k.hold == .retry || (k.hold == .none && (k.clause.isSome || s.enables (.clauseIssue gid k.id))))

/-- R350: the gang could issue if its cluster's clock ran (R349) and its power allowance admitted it (R346). -/
def State.couldIssue (s : State) (gid : Nat) (g : Group) (k : Gang) : Bool :=
  s.unheld gid g k && (s.missing gid g k).isEmpty && (k.hold != .retry || s.passes gid k.id)

/-- The gangs of the clusters whose clocks run that `p` picks. -/
def State.gangsThat (s : State) (p : Nat → Group → Gang → Bool) : List (Nat × Group × Gang) :=
  s.groups.flatMap fun e => e.2.gangs.filterMap fun k =>
    if !(s.cluster (e.2.core / 4)).gated ∧ p e.1 e.2 k then some (e.1, e.2, k) else none

/-- R350: the gangs that are ready. -/
def State.readyGangs (s : State) : List (Nat × Group × Gang) := s.gangsThat s.couldIssue

/-- R59: the gangs whose waits turn into a fault-park. -/
def State.parkingGangs (s : State) : List (Nat × Group × Gang) :=
  s.gangsThat fun gid g k => s.mayIssue g k && k.hold == .retry && (s.missing gid g k).isEmpty && s.stirs gid k.id

/-- A sub-core, or a core's quill processor. -/
def Group.unit (g : Group) : Nat := 16 * g.core + g.sub

/-- R235: the context gave up its turn, 64 clocks have not passed, and some other ready one of its sub-core has not been chosen since. -/
def Group.yields (g : Group) (clock : Nat) (others : List (Nat × Group × Gang)) : Bool :=
  match g.yielded with
  | some y => decide (clock < g.chosenClock + 64) && others.any fun o => decide (o.2.1.lastChosen ≤ y) && o.2.1.yielded != some y
  | none => false

/-- R350, rule 3: the round-robin order of a context among those of its sub-core and age: it starts after the one chosen last. -/
def State.roundRobin (s : State) (gid : Nat) (g : Group) : Nat :=
  let peers := s.groups.filter fun e => e.2.unit == g.unit && e.2.age == g.age && decide (e.2.age < e.2.lastChosen)
  match (sortBy (fun e => e.2.lastChosen) peers).getLast? with
  | some e => if e.1 < gid then gid else gid + s.nextGid
  | none => gid

/-- R177, R350: the ready gangs of a sub-core in the order of its choice: contexts not chosen on the last 512 clocks first, and one that yields
last; then by age; among equal ages one that YLD defers last, and the others in turn; of a context the gang that issued least recently. -/
def State.inOrder (s : State) (us : List (Nat × Group × Gang)) : List (Nat × Group × Gang) :=
  let tier (x : Nat × Group × Gang) : Nat :=
    let now := (s.cluster (x.2.1.core / 4)).clock
    if x.2.1.yields now (us.filter fun o => o.1 != x.1) then 2 else if x.2.1.chosenClock + 512 < now then 0 else 1
  sortBy tier (sortBy (fun x => x.2.1.age) (sortBy (fun x => if x.2.1.yld then 1 else 0)
    (sortBy (fun x => s.roundRobin x.1 x.2.1) (sortBy (fun x => x.2.2.lastIssue * 4 + x.2.2.id) us))))

/-- Of gangs that are chosen together and whose instructions have an order among them, the one that goes first in place of `x`: TASKDONEs by
issuer number (R339, log 103), DQPOPs of one team on one core by sub-core and slot (R292). -/
def firstOf (offers : List (Nat × Group × Gang)) (x : Nat × Group × Gang) : Nat × Group × Gang :=
  if x.2.2.atTaskdone then (sortBy (fun o => o.2.1.issuer) (offers.filter fun o => o.2.2.atTaskdone)).headD x
  else if x.2.2.atDqpop then
    (sortBy (fun o => o.2.1.popKey 0) (offers.filter fun o => o.2.2.atDqpop && o.2.1.team == x.2.1.team && o.2.1.core == x.2.1.core)).headD x
  else x

/-- The gang that issues next. Each sub-core chooses one, and one whose choice its cluster withholds issues nothing (R346); the sub-core
that has waited longest goes first. -/
def State.chooseGang (s : State) (rs : List (Nat × Group × Gang)) : Option (Nat × Nat) :=
  let waited (u : Nat) : Nat := ((s.groups.filter fun e => e.2.unit == u).map fun e => e.2.lastChosen).foldl max 0
  let units := sortBy waited (nubBy (rs.map fun x => x.2.1.unit))
  let offers := (units.filterMap fun u => (s.inOrder (rs.filter fun x => x.2.1.unit == u)).head?).filter s.affords
  match offers.head? with
  | none => none
  | some x =>
    let y := firstOf offers x
    some (y.1, y.2.2.id)

/-! ### Which step may come (R118, R125) -/

def State.groupSteps (s : State) : List Instr :=
  s.groups.flatMap fun e =>
    [.drain e.1, .load e.1, .atl e.1, .reordComplete e.1, .groupRetire e.1, .serviceRequestPost e.1] ++
      e.2.longs.map (fun l => .longLatencyWriteback e.1 l.id) ++
      e.2.gangs.flatMap fun k => (.parkReactivate e.1 k.id) :: (match k.hold with | .dqpop _ => [.budgetTrap e.1 k.id] | _ => []) ++
        (if s.unheld e.1 e.2 k then ((s.missing e.1 e.2 k).take 1).map fun l => .registerLineFill e.1 l else [])

def State.engineSteps (s : State) : List Instr :=
  (s.ops.flatMap fun e => [.start e.1, .retire e.2.gid e.2.cls]) ++
    (s.reqs.flatMap fun e => [.send e.1, .arrive e.1, .serve e.1, .pwrite e.1, .pread e.1, .swrite e.1, .land e.1]) ++
    (s.oq.map fun e => .propagate e.1)

def State.sheafSteps (s : State) : List Instr :=
  (s.sheaves.flatMap fun e => .sealManifestWrite e.1 ::
    (nubBy (s.sheafHomes e.2 ++ e.2.lines.map fun l => s.homeOf e.2.fn (l * 128))).flatMap fun h => [.seal e.1 h, .abort e.1 h]) ++
  s.ops.flatMap fun e => match e.2.sh with
    | none => []
    | some p =>
      let vs := nubBy ((s.reqs.filterMap fun q => if q.2.op = e.1 then q.2.va.map (· / 128) else none) ++ p.lines.map Seen.addr)
      vs.flatMap (fun v => [.shreadLook e.1 v, .shreadFetch e.1 v]) ++
        (nubBy (p.lines.map Seen.man)).flatMap fun m => (m / 128 :: s.shToList e.2.fn p m).map fun l => .shreadList e.1 l

/-- R346: the steps of the sub-cores and of their matrix units; a step that the cluster withholds leaves its unit idle. -/
def State.unitSteps (s : State) : List Instr :=
  (nubBy ((s.groups.filter fun e => !e.2.quill).map fun e => e.2.cacheUnit)).flatMap fun u =>
    let c := s.cluster (u / 32)
    .reggetGrant u :: (if s.stepCost u ≤ c.balance ∧ !c.moved then [.matrixStep u] else [])

def State.specSteps (s : State) : List Instr := s.versions.map fun v => .discard v.duc v.k (s.homeOf v.fn (v.line * 128))

def State.scheduleSteps (s : State) : List Instr :=
  s.cores.map (fun e => .cooldownExpiry e.1) ++ s.slices.map (fun e => .budgetExpiry e.1) ++
    (List.range 48).flatMap (fun c => [.clusterClockGate c, .clusterResume c, .operatingPointMove c, .classChangeComplete c]) ++
    (List.range 4).map fun d => .admission d

def State.functionSteps (s : State) : List Instr :=
  s.funcs.flatMap fun e => [.faultRecordWrite e.1, .invalidationComplete e.1, .contextAutoReturn e.1, .routineTableInstallDone e.1,
    .switchOutComplete e.1, .functionResetComplete e.1] ++ (if e.2.ctxGo ∧ e.2.ctxOp = 2 then [.contextSwitchIn e.1] else [])

def State.queueSteps (s : State) : List Instr :=
  (s.allQueues.flatMap fun x =>
    let (f, q, _) := x
    [.commandArrival f q, .predictionCompare f q, .ductusRead f q, .predictionStart f q, .launchPromotion f q, .launch f q,
      .copyCommand f q, .signalCommand f q, .waitCommand f q, .waitPollRead f q, .waitTimeout f q, .completionRecordWrite f q]) ++
    s.launches.flatMap (fun e => .cutOver e.1 :: (if s.tableOpen e.2.ender then [.taskLaunchEnd e.1] else [])) ++ s.landWait.map fun e => .collectiveStall e.2.1 e.2.2.1

/-- The steps that the machine may take by itself. -/
def State.ownSteps (s : State) : List Instr :=
  s.groupSteps ++ s.engineSteps ++ s.sheafSteps ++ s.unitSteps ++ s.specSteps ++ s.scheduleSteps ++ s.functionSteps ++ s.queueSteps

/-- The first enabled step, beginning at a place that moves on with each turn (log 3). -/
def State.ownStep (s : State) : Option Instr :=
  let l := s.ownSteps
  let k := (s.turn / 2) % max 1 l.length
  (l.drop k ++ l.take k).find? s.enables

/-! ### The calendar (R108 to R113) -/

/-- The calendar's step that is due. At a slot's scheduled end the housekeeping may be unfinished (log 27). -/
def State.calendarDue (s : State) : Option Instr :=
  match s.slotOver with
  | some x => some (if x.ext.isNone ∧ Config.housekeeping s.turn ≠ 0 then .calendarOverrun (Config.housekeeping s.turn) else .slotEnd)
  | none =>
    if s.slots.any fun x => !x.on && decide (x.start ≤ s.caln) then some .slotStart
    else if s.upcoming.2 ≤ s.caln + Config.drainLead then some .drainWindowClose
    else none

/-- The CALN at which the calendar next has something to do: an end, a start, or the opening of the next drain window. -/
def State.calendarNext (s : State) : Nat :=
  (s.slots.map fun x => if x.on then x.stop else x.start).foldl min (s.upcoming.2 - Config.drainLead)

/-! ### What a slot held, and host accesses over several sectors (R111, R138, R375) -/

/-- The first step that is held, with none before it. -/
def State.runHeld (s : State) (h : HeldStep) : Out :=
  match h.step with
  | .deviceMemoryWindowAccess fn off len wr => .next (s.windowAccess h.win h.got fn off len wr)
  | .invalidateAll fn | .invalidateRange fn _ =>
    if h.got = [] then exec h.step s
    else
      let v := leVal h.got
      let t := s.modFunc fn fun f => f.write 0x038 v
      if v.testBit 63 then exec h.step t else .next t
  | i => exec i s

/-- The first step that is held goes on, if it can; the others stay behind it. -/
def State.resume (s : State) : Out :=
  match s.heldSteps with
  | [] => .next s
  | h :: r => andThen ({ s with heldSteps := [] }.runHeld h) fun t => { t with heldSteps := t.heldSteps ++ r }

def State.resumes (s : State) : Bool :=
  match s.resume with
  | .next t => decide (t ≠ s)
  | _ => false

/-! ### The choice -/

/-- What the machine does next. -/
inductive Pick where
  | issue (gid n : Nat)
  | event (i : Instr)
  | resume
  | wait
  deriving DecidableEq, Repr

/-- The gang that the state names for the next issue, if it executes a clause and is held by nothing. -/
def State.named (s : State) : Option (Nat × Nat) :=
  match s.issuer with
  | some i => if i.gang.hold = .none ∨ i.gang.hold = .retry then some (i.gid, i.gang.id) else none
  | none => none

/-- Issues and steps take turns; so do gangs that are ready, gangs whose waits turn into a fault-park, and what is held (log 3). -/
def State.choose (s : State) : Pick :=
  let go (o : Option (Nat × Nat)) (p : Pick) : Pick := match o with | some (g, n) => .issue g n | none => p
  let own (p : Pick) : Pick := match s.ownStep with | some i => .event i | none => p
  let ready (p : Pick) : Pick := go (s.chooseGang s.readyGangs) p
  let polled (p : Pick) : Pick := go (s.parkingGangs.head?.map fun x => (x.1, x.2.2.id)) p
  let held (p : Pick) : Pick := if s.resumes then .resume else p
  match s.turn % 4 with
  | 0 => ready (polled (own (held .wait)))
  | 1 => own (ready (polled (held .wait)))
  | 2 => polled (ready (own (held .wait)))
  | _ => held (own (ready (polled .wait)))

/-- R336: a slice whose budget counter has reached 0: before anything else issues, its contexts are due for the trap. -/
def State.budgetOver (s : State) : Option Instr :=
  (s.slices.find? fun e => e.2.budget != 0 && e.2.left == 0).map fun e => .budgetExpiry e.1

/-- A gang that the state names, then a budget counter that has run out, the agenda, the calendar, and the model's choice. -/
def State.pick (s : State) : Pick :=
  match s.named with
  | some (g, n) => .issue g n
  | none =>
    match s.budgetOver, s.agenda, s.calendarDue with
    | some i, _, _ => .event i
    | none, i :: _, _ => .event i
    | none, [], some i => .event i
    | none, [], none => s.choose

/-- R349: a gang of the cluster is ready but for its gated clock. -/
def State.wakes (s : State) (cl : Nat) : Bool :=
  s.groups.any fun e => e.2.core / 4 == cl &&
    e.2.gangs.any fun k => s.couldIssue e.1 e.2 k

/-! ### What follows -/

/-- R348: where the cost of an instruction that issued in the step to `t` goes: to the engine operation or the long-latency instruction that
it made, to what the gang owes while the instruction holds it, or at once to ENRG and CLENRG. -/
def State.book (s t : State) (gid cost : Nat) (k : Gang) : State :=
  match s.group gid, t.group gid with
  | some g, some h =>
    if (KMap.get t.ops s.nextOp).any fun o => o.gid == gid then t.modOp s.nextOp fun o => { o with cost := cost }
    else match h.longs.find? fun l => !g.longs.any fun x => x.id == l.id with
      | some l => t.modGroup gid fun h => { h with longs := h.longs.map fun x => if x.id = l.id then { x with cost := cost } else x }
      | none => match (h.heirs k).find? fun x => x.hold.issued with
        | some x => t.modGroup gid fun h => { h with owed := KMap.put h.owed x.id cost }
        | none => t.addEnergy gid cost
  | _, _ => t

/-- R335, R346 to R348: what an issue of gang `n` in the step from `s` to `t` costs. One that waits, and an encoding fault, costs
nothing; another fault costs the cluster its offer, and adds nothing to ENRG. -/
def State.chargeIssue (s t : State) (gid n : Nat) : State :=
  match s.group gid, (s.group gid).bind fun g => g.gang n with
  | some g, some k =>
    (match s.offer g k with
    | some cost =>
      let held : Bool := (t.group gid).any fun h => (h.heirs k).any fun x => x.waits || match x.hold with | .stall _ => true | _ => false
      if held ∨ s.budgetFirst gid g k then t
      else match s.causeOf t gid with
        | none => (s.book t gid cost k).pay gid cost |>.chargeSlice gid
        | some 0x0C => ((t.addEnergy gid cost).pay gid cost).chargeSlice gid
        | some e => if e ≤ 3 then t else (t.pay gid cost).chargeSlice gid
    | none => t)
  | _, _ => t

/-- The energy and budget of what was done from `s` to `t`. -/
def charge (s t : State) : Pick → State
  | .issue gid n => s.chargeIssue t gid n
  | .event (.matrixStep u) => (match s.unitOp u with
    | some (id, _, g, _) =>
      if KMap.get t.ops id = KMap.get s.ops id then t
      else ((t.pay g (s.stepCost u)).addEnergy g (s.stepCost u)).chargeSlice g
    | none => t)
  | _ => t

/-- R348: the instructions that no longer hold their gangs have retired. -/
def State.settleOwed (s : State) (gid : Nat) : State :=
  match s.group gid with
  | none => s
  | some g =>
    let over_ := g.owed.filter fun e => !g.gangs.any fun k => k.nibs.contains e.1 && k.hold.issued
    if over_.isEmpty then s
    else
      let s1 := s.modGroup gid fun g => { g with owed := g.owed.filter fun e => !over_.contains e }
      if g.stopped then s1 else over_.foldl (fun s e => s.addEnergy gid e.2) s1

/-- A gang whose waiting instruction has issued goes on; one that has issued its clause's last instruction goes on to the
next clause (R23). -/
def Gang.finish (k : Gang) : Gang :=
  match k.clause with
  | none => k
  | some c =>
    let hold := if k.hold = .retry ∧ c.next ≠ c.cur then .none else k.hold
    if hold = .none ∧ c.words.length ≤ c.next then { k with hold := .none, pc := c.after, clause := none }
    else { k with hold := hold }

/-- At the end of a step the flags of clauses that are over are clear, also of those that a JOIN, a resumption or a trap abandoned
(log 86). -/
def Group.finish (g : Group) : Group := ({ g with gangs := g.gangs.map Gang.finish } : Group).settle

/-- Time passes (log 4): CALN, up to the calendar's next point; GCYC of the
contexts that are resident and not off-core, whether or not their cluster's clock is gated (R116, R297); and, in the clusters that are not gated
(R349), the clocks, the balances (R345, R386), and the clocks without an issue. A condition that makes a
gang of a gated cluster ready asks for it to resume. -/
def State.tick (s : State) : State :=
  let n := Config.elapsedClocks s.turn
  { s with
    turn := s.turn + 1
    caln := max s.caln (min (s.caln + Config.elapsed s.turn) s.calendarNext)
    groups := s.groups.map fun e =>
      (e.1, if e.2.presence = .here ∧ !e.2.offCore then { e.2 with gcyc := e.2.gcyc + dword n } else e.2)
    clusters := (s.groups.foldl (fun m e => KMap.put m (e.2.core / 4) (s.cluster (e.2.core / 4))) s.clusters).map fun e =>
      (e.1, if e.2.gated then { e.2 with wanted := e.2.wanted || s.wakes e.1 }
        else { e.2 with
          balance := min (e.2.balance + n * (e.2.refill * s.factor / 8)) e.2.cap
          idle := e.2.idle + n
          clock := e.2.clock + n }) }

/-- R339: the issuer number of the step of the task table that a pick was, if it was one. -/
def State.tableStep (s t : State) : Pick → Option Nat
  | .issue gid n => match s.group gid with
    | some g => if (g.gang n).any Gang.atTaskdone ∧ !t.waits gid n then some g.issuer else none
    | none => none
  | .event (.taskLaunchEnd l) => if (KMap.get t.launches l).isNone then (KMap.get s.launches l).map Launch.ender else none
  | _ => none

/-- R185: the window registers of groups that are paired with one partner are the partner's: what one of them wrote, the partner holds
(State.writeV), and the others hold at the end of the step (log 95). -/
def State.shareWindows (s : State) : State :=
  let shared (g : Group) : Option Group := g.partner.bind fun p =>
    if (s.groups.filter fun e => e.2.partner == some p).length ≤ 1 then none else s.group p
  { s with groups := s.groups.map fun e => match shared e.2 with
      | some x =>
        let own := e.2.v.filter fun r => decide (r.1 < e.2.windowFrom)
        let window := x.v.filter fun r => decide (e.2.windowFrom ≤ r.1)
        (e.1, { e.2 with v := own ++ window })
      | none => e }

/-- R54, R88: the virtual addresses, with their lengths, from which a step from `s` to `t` took the records and arguments of tasks, and the
records that could not be read before. -/
def State.recordReads (s t : State) : List (Nat × Nat × Nat) :=
  t.launches.flatMap fun l =>
    let fn := l.2.fn
    if l.2.unread.isSome then [] else match l.2.job, KMap.get s.launches l.1 with
    | .queue .., some x => (x.unread.map fun u => (fn, u.2.1.toNat, 256)).toList
    | .queue .., none => []
    | .task _ n, x =>
      let y := (t.func fn).task n
      if x.any fun z => z.unread.isNone then [] else (fn, y.record.toNat, 256) :: if y.args = 0 then [] else [(fn, y.args.toNat, 96)]

/-- R54, R88: those from which the front end read or wrote main memory in a step that came to pass in `s`. -/
def State.frontReads (s : State) : Pick → List (Nat × Nat × Nat)
  | .event (.launch fn q) => ((s.queue fn q).head.map fun c => (fn, (Cmd.recordAt c (s.func fn)).toNat, 256)).toList
  | .event (.predictionStart fn q) => ((s.queue fn q).ductus.map fun x => (fn, (Cmd.recordAt (x.command x.nextK) (s.func fn)).toNat, 256)).toList
  | .event (.waitPollRead fn q) => ((s.queue fn q).wait.map fun w => (fn, w.addr.toNat, 8)).toList
  | .event (.signalCommand fn q) => ((s.queue fn q).head.map fun c => (fn, Cmd.w c 2, 8)).toList
  | .event (.ductusRead fn q) => ((s.queue fn q).arrived.getLast?.map fun c => (fn, Cmd.w c 2, 256)).toList
  | .event (.completionRecordWrite fn q) =>
    (match (s.queue fn q).records.head? with
      | some x => [(fn, Cmd.w x.1 1, 16)]
      | none => ((s.queue fn q).current.map fun c => (fn, Cmd.w c 1, 16)).toList)
  | _ => []

/-- R88: the clause fetches, the walks, and the front end's accesses of a step from `s` to `t` bring their lines to their home slices. -/
def State.homeReads (s : State) (p : Pick) (t : State) : State :=
  let lines (fn : Nat) (ls : List Loc) (t : State) : State :=
    ls.foldl (fun t l => match l with | .dpa a => t.cacheLine fn a | _ => t) t
  let walk (fn va : Nat) (t : State) : State := (t.walkLines fn va).foldl (fun t a => t.cacheLine fn a) t
  let fetched (gid n : Nat) : List (Nat × Loc) := match t.group gid, (t.group gid).bind fun g => (g.gang n).bind Gang.clause with
    | some g, some c =>
      if ((s.group gid).bind fun g => (g.gang n).bind Gang.clause).isSome then []
      else (match t.fetchLocs g.core (t.fnOf g) c.addr.toNat (1 + c.words.length) with
        | .ok ls => ls.map fun l => (t.fnOf g, l)
        | .error _ => [])
    | _, _ => []
  let code := match p with
    | .issue gid n | .event (.clauseIssue gid n) => fetched gid n
    | _ => []
  let slot := match p with
    | .event (.commandArrival fn q) => if (s.queue fn q).qhead = (t.queue fn q).qhead then [] else [(fn, s.slotLoc fn (s.queue fn q))]
    | _ => []
  let t1 := (code ++ slot).foldl (fun t x => lines x.1 [x.2] t) t
  let t2 := (s.frontReads p ++ s.recordReads t).foldl (fun t x =>
    let t := walk x.1 x.2.1 t
    match t.translate x.1 x.2.1 0 with
    | .ok a => lines x.1 ((t.locOf x.1 a).span x.2.2) t
    | .fault .. => t) t1
  (t.tlb.filter fun e => !s.tlb.contains e).foldl (fun t e => walk e.fn (e.vpn * 2 ^ e.bits) t) t2

/-- The end of a step from `s` that has brought `t`: what it cost, the gangs that go on, what has become due at the front end (R322, R323,
R338), the lines that homes and register caches hold (R79, R88), what was enabled in which order (R329, R339), the requests of SHREADs
(R164), key slots that are scrubbed (R73), and time. A step for whose lines too few places of a register cache can be written back does not
come: it waits (R79). -/
def State.conclude (s : State) (p : Pick) (t : State) : State :=
  let t0 : State := match p with | .issue gid n => s.unchosen t gid n | _ => t
  let t1 := charge s (match s.tableStep t p with | some x => { t0 with table := some (s.caln, x) } | none => t0) p
  let t2 := t1.groups.foldl (fun r e => r.settleOwed e.1) t1
  let done : State := { t2 with cur := none, groups := t2.groups.map fun e => (e.1, e.2.finish) }
  let lines := s.settleLines (s.homeReads p done.shareWindows.settleEnds.settleUnread.settleTasks)
  if lines.linesFit then lines.settleStarts.settleShreads.settleKeys.tick
  else ({ s with cur := none } : State).tick

/-- An event leaves the agenda when it is taken from it. -/
def State.taken (s : State) : State :=
  match s.agenda with
  | _ :: r => { s with agenda := r }
  | [] => s

/-- What a pick does. An instruction word is issued by a gang and never an event. -/
def State.perform1 (s : State) : Pick → Out
  | .issue gid n => s.issue gid n
  | .event i => if i.isWord then .next s.taken else exec i s.taken
  | .resume => s.resume
  | .wait => .next s

/-! ### A program placed for the next step (log 1) -/

/-- The launch that stands for a load of one instruction from outside. -/
def placedLaunch : Launch where
  job := .queue 0 0
  use := 0
  fn := 0
  record :=
    { code := 0x1000, quill := 0, traph := 0, stack := 0, tmem := 0x100000, roles := [roleOf 0x00000C01], tbm := 0, oclass := 2,
      coop := false, cset := 0, xbm := 0, cbm := 0, deadline := 0, budget := 0 }
  args := []
  tag := 0
  caddr := 0
  teams := 1
  next := 1
  retired := 0
  privileged := false
  deadline := 2 ^ 64 - 1
  status := none
  pred := none
  unread := none
  ready := false
  ender := 0

/-- The clause in which the placed instruction stands first: LEN 7, no flags, form f0. -/
def placedClause (nbits w : Nat) : ClauseBuf :=
  ⟨0x1000, 0x000FFE00, wordsOfBytes (tableBytes (w % 2 ^ nbits)), 0, 0, 8, 1, 0, false⟩

/-- One group, of one gang of 64 threads, that executes the clause. -/
def placedGroup (l team nbits w : Nat) : Group :=
  let g := groupStart l placedLaunch team 0 0 0 false ⟨0, 0, 0, 64, 24, 0⟩ 0 0 none
  { g with clauseSerial := 1, gangs := g.gangs.map fun k => { k with clause := some (placedClause nbits w) } }

end Sys2Proof.Machine
end

