-- ==== Sys2Proof/Machine/Step.lean ====
section
/-!
DEFINITION. One step of the machine: the pick, what it does, and what follows (Machine/Schedule.lean); and the placing of one
instruction for the next step.
-/

namespace Sys2Proof.Machine

/-- One step. -/
def step (s : State) : Host.Outcome State Fault Refusal := andThen (s.perform1 s.pick) (s.conclude s.pick)

/-- `s` with the instruction of `nbits` bits `w` in the clause of a new group, whose turn it is (log 1). -/
def State.withFetchWord (s : State) (nbits w : Nat) : State :=
  { s with
    launches := KMap.put s.launches s.nextLaunch placedLaunch
    nextLaunch := s.nextLaunch + 1
    teams := KMap.put s.teams s.nextTeam ⟨s.nextLaunch, 0, [0], 0x100000, [], [], 0, false, []⟩
    nextTeam := s.nextTeam + 1
    groups := KMap.put s.groups s.nextGid (placedGroup s.nextLaunch s.nextTeam nbits w)
    nextGid := s.nextGid + 1
    cur := some ⟨s.nextGid, 0⟩ }

end Sys2Proof.Machine
end

