-- ==== Sys2Proof/Safety.lean ====
section
/-!
DEFINITION. What a run of the machine is, when it is safe, and the form that every memory of the machine keeps (log 2).
-/

namespace Sys2Proof.Machine

/-- Every memory of the machine is in canonical form: domain memory, scratch, host memory, the team memories and the spill
stacks. -/
def State.MemOk (s : State) : Prop :=
  Mem.wf s.mem = true ∧ Mem.wf s.scratch = true ∧ Mem.wf s.host = true ∧
    (∀ e ∈ s.teams, Mem.wf e.2.tmem = true) ∧ ∀ e ∈ s.groups, Mem.wf e.2.stack = true

/-- What `n` steps from a state answer. -/
def run : Nat → State → Out
  | 0, s => .next s
  | n + 1, s =>
    match step s with
    | .next t => run n t
    | o => o

/-- A state from which no number of steps ends in a fault or a refusal. -/
def State.Safe (s : State) : Prop := ∀ n, ∃ t, run n s = .next t

/-- What an instruction that passes its checks sees: `i` issues, and none of the checks `cs` of R35 fails. -/
def State.Issues (s : State) (i : Iss) (cs : List Chk) : Prop := s.issuer = some i ∧ firstChk cs = none

end Sys2Proof.Machine
end

