-- ==== Sys2Proof/Certificates/Slice0/Obligations.lean ====
section
/-!
DEFINITION. The statements for the provers. `Claims` says in what words they are put: what an instruction leaves when it writes its
destination, and what it leaves alone.
-/

namespace Sys2Proof.Claims

open Sys2Proof.Machine

/-! ### What a result leaves -/

/-- No byte of any memory changed, whichever owner reads it: domain memory, team memories, scratch, spill stacks, host memory. -/
def SameBytes (s t : State) : Prop := ∀ o l, t.locGet o l = s.locGet o l

/-- Nothing changed but contexts that `p` names, and no byte of memory. -/
def InContexts (s t : State) (p : Nat → Prop) : Prop :=
  t = { s with groups := t.groups } ∧ SameBytes s t ∧ ∀ g, ¬ p g → t.group g = s.group g

/-- R19: what register `n` of thread `th` holds after results `f` of type `ty` were written to destination `d`; it held `old`. -/
def lane (k : Iss) (ty : EType) (d : Opnd) (uni : Bool) (f : Nat → Nat) (n th : Nat) (old : Word) : Word :=
  match d with
  | .vec r =>
    if uni = false ∧ k.run.getLsbD th = true then
      if n = r then word (extendTo ty (max 32 (widthOf ty)) (f th))
      else if widthOf ty = 64 ∧ n = r + 1 then word (extendTo ty 64 (f th) / 2 ^ 32) else old
    else old
  | _ => old

/-- What an instruction with destination `d` leaves when it delivers `f th` of type `ty` in thread `th`, or once when it is uniform
(R19), and raises the exception flags `fl th` (R204). A window register is the partner's as well (R185). Every other register, flag,
control register and exception register, every other context, everything else of the machine and every byte of memory stay. -/
def Wrote (s : State) (k : Iss) (ty : EType) (d : Opnd) (uni : Bool) (f : Nat → Nat) (fl : Nat → Flags) (t : State) : Prop :=
  InContexts s t (fun g => g = k.gid ∨ k.g.partner = some g) ∧
  (∃ h, t.group k.gid = some h ∧ h = { k.g with v := h.v, s := h.s, xflg := h.xflg } ∧
    (∀ n, h.sreg n = if uni = true ∧ d = .sca n then dword (extendTo ty 64 (f 0)) else k.g.sreg n) ∧
    (∀ n th, th < 64 → h.vreg n th = lane k ty d uni f n th (k.g.vreg n th)) ∧
    ∀ th, th < 64 → h.flagsOf th = k.g.flagsOf th ||| fl th) ∧
  ∀ p x, k.g.partner = some p → p ≠ k.gid → s.group p = some x → ∃ y, t.group p = some y ∧ y = { x with v := y.v } ∧
    ∀ n th, th < 64 → y.vreg n th = if k.g.windowFrom ≤ n then lane k ty d uni f n th (x.vreg n th) else x.vreg n th

/-- Predicate `n` takes `f th` in the threads of `m` (R31, R229), with flags `fl`; nothing else changed. -/
def WroteP (s : State) (k : Iss) (n : Nat) (m : BitVec 64) (f : Nat → Bool) (fl : Nat → Flags) (t : State) : Prop :=
  InContexts s t (· = k.gid) ∧
  ∃ h, t.group k.gid = some h ∧ h = { k.g with p := h.p, xflg := h.xflg } ∧ (∀ j, j ≠ n → h.pred j = k.g.pred j) ∧
    (∀ th, th < 64 → (h.pred n).getLsbD th = if m.getLsbD th then f th else (k.g.pred n).getLsbD th) ∧
    ∀ th, th < 64 → h.flagsOf th = k.g.flagsOf th ||| fl th

/-- Scalar `n` takes `v`, with flags `fl`; nothing else changed. -/
def WroteS (s : State) (k : Iss) (n : Nat) (v : DWord) (fl : Nat → Flags) (t : State) : Prop :=
  InContexts s t (· = k.gid) ∧
  ∃ h, t.group k.gid = some h ∧ h = { k.g with s := h.s, xflg := h.xflg } ∧ (∀ j, h.sreg j = if j = n then v else k.g.sreg j) ∧
    ∀ th, th < 64 → h.flagsOf th = k.g.flagsOf th ||| fl th

/-- R226, R240: a destination selector: a predicate takes `f` in the passing threads, a scalar takes `v`. -/
def Told (s : State) (k : Iss) (d : Byte) (f : Nat → Bool) (v : DWord) (fl : Nat → Flags) (t : State) : Prop :=
  match selOf d with
  | .pred n => WroteP s k n k.run f fl t
  | .sca n => WroteS s k n v fl t
  | .bad => False

def noFlags : Nat → Flags := fun _ => 0

/-- The issuing context alone changed: it is now `h`. -/
def Became (s : State) (k : Iss) (h : Group) (t : State) : Prop :=
  InContexts s t (· = k.gid) ∧ t.group k.gid = some h

/-- The issuing gang alone changed: it is now `f` of what it was. -/
def GangBecame (s : State) (k : Iss) (f : Gang → Gang) (t : State) : Prop := Became s k (k.g.modGang k.gang.id f) t

/-- The gang goes on at address `a`: the clause is over. -/
def WentTo (s : State) (k : Iss) (a : DWord) (t : State) : Prop := GangBecame s k (fun x => { x with pc := a, clause := none }) t

/-! ### Operations as the manual defines them -/

/-- R215: val of a pattern of a type. -/
def val (ty : EType) (x : Nat) : Int := if isSigned ty then (BitVec.ofNat (widthOf ty) x).toInt else ((BitVec.ofNat (widthOf ty) x).toNat : Int)

/-- R215: wrap: the value modulo 2^w. -/
def wrap (ty : EType) (v : Int) : Nat := (BitVec.ofInt (widthOf ty) v).toNat

/-- R215: sat: clamped to the range of the type. -/
def sat (ty : EType) (v : Int) : Nat :=
  let w := widthOf ty
  if isSigned ty then wrap ty (max (-(2 : Int) ^ (w - 1)) (min (2 ^ (w - 1) - 1) v)) else wrap ty (max 0 (min (2 ^ w - 1) v))

def wrapOrSat (st : Bool) (ty : EType) (v : Int) : Nat := if st then sat ty v else wrap ty v

/-- The pattern of an operand as a bit vector of the type's width. -/
def bits (ty : EType) (x : Nat) : BitVec (widthOf ty) := BitVec.ofNat (widthOf ty) x

/-- R220, R223: d(t) from the patterns of d, a and b, under the form's type and SAT bit. -/
def intOps : List ((Opnd → Opnd → Opnd → Instr) × (EType → Bool → Nat → Nat → Nat → Nat)) :=
  [(.add, fun ty _ _ x y => wrap ty (val ty x + val ty y)),
   (.sub, fun ty _ _ x y => wrap ty (val ty x - val ty y)),
   (.mul, fun ty _ _ x y => wrap ty (val ty x * val ty y)),
   (.mulh, fun ty _ _ x y => wrap ty (val ty x * val ty y / 2 ^ widthOf ty)),
   (.mad, fun ty st z x y => wrapOrSat st ty (val ty z + val ty x * val ty y)),
   (.min, fun ty _ _ x y => wrap ty (min (val ty x) (val ty y))),
   (.max, fun ty _ _ x y => wrap ty (max (val ty x) (val ty y))),
   (.adds, fun ty _ _ x y => sat ty (val ty x + val ty y)),
   (.subs, fun ty _ _ x y => sat ty (val ty x - val ty y)),
   (.and, fun ty _ _ x y => (bits ty x &&& bits ty y).toNat),
   (.or, fun ty _ _ x y => (bits ty x ||| bits ty y).toNat),
   (.xor, fun ty _ _ x y => (bits ty x ^^^ bits ty y).toNat),
   (.andn, fun ty _ _ x y => (bits ty x &&& ~~~(bits ty y)).toNat)]

/-- R225: the field of a control operand: position and length. -/
def fieldPos (c : Nat) : Nat := c % 256
def fieldLen (ty : EType) (c : Nat) : Nat := min (c / 256 % 256) (widthOf ty)

/-- R224, R225: the same for the shifts and the bit fields, whose operand b is read as n32. -/
def shiftOps : List ((Opnd → Opnd → Opnd → Instr) × (EType → Nat → Nat → Nat → Nat)) :=
  [(.shl, fun ty _ x c => (bits ty x <<< c).toNat),
   (.shr, fun ty _ x c => (bits ty x >>> c).toNat),
   (.shra, fun ty _ x c => ((bits ty x).sshiftRight c).toNat),
   (.rotl, fun ty _ x c => ((bits ty x).rotateLeft c).toNat),
   (.bfx, fun ty _ x c =>
      let f := val ty x / 2 ^ fieldPos c
      wrap ty (if isSigned ty then f.bmod (2 ^ fieldLen ty c) else f % 2 ^ fieldLen ty c)),
   (.bfi, fun ty z x c =>
      let m := BitVec.ofNat (widthOf ty) (2 ^ fieldLen ty c - 1) <<< fieldPos c
      ((bits ty z &&& ~~~m) ||| ((bits ty x <<< fieldPos c) &&& m)).toNat)]

/-- R220, R223: the same for the instructions OP d, a. -/
def oneOps : List ((Opnd → Opnd → Byte → Instr) × (EType → Bool → Nat → Nat)) :=
  [(.neg, fun ty st x => wrapOrSat st ty (-val ty x)),
   (.abs, fun ty st x => wrapOrSat st ty |val ty x|),
   (.not, fun ty _ x => (~~~(bits ty x)).toNat),
   (.popc, fun ty _ x => ((List.range (widthOf ty)).filter fun j => (bits ty x).getLsbD j).length),
   (.clz, fun ty _ x => ((List.range (widthOf ty)).takeWhile fun j => !(bits ty x).getMsbD j).length),
   (.ctz, fun ty _ x => ((List.range (widthOf ty)).takeWhile fun j => !(bits ty x).getLsbD j).length),
   (.brev, fun ty _ x => (bits ty x).reverse.toNat)]

/-- R226: the relations of the integer compares. -/
def compareOps : List ((Byte → Opnd → Opnd → Instr) × (Int → Int → Bool)) :=
  [(.icmpeq, fun x y => x == y), (.icmpne, fun x y => x != y), (.icmplt, fun x y => decide (x < y)), (.icmple, fun x y => decide (x ≤ y))]

/-- R239: the thread that each shuffle reads, for thread `th` and operand `x`. -/
def shuffleOps : List ((Opnd → Opnd → Opnd → Instr) × (Nat → Nat → Nat)) :=
  [(.shfl, fun _ x => x % 64), (.shflu, fun th x => if x ≤ th then th - x else th),
   (.shfld, fun th x => if th + x ≤ 63 then th + x else th), (.shflx, fun th x => th ^^^ (x % 64))]

/-! ### Floating results -/

/-- R246: thread `th` takes part in the operation: every active thread for a uniform one, every passing thread otherwise. -/
def performs (k : Iss) (uni : Bool) (th : Nat) : Bool := if uni then k.active.getLsbD th else k.run.getLsbD th

/-- R246: the flags that thread `th` raises; a quill context holds none. -/
def fpRaised (k : Iss) (uni : Bool) (f : Nat → FRes) (th : Nat) : Flags :=
  if k.g.quill then 0 else if th < 64 ∧ performs k uni th = true then (f (if uni then 0 else th)).2 else 0

/-- R205: no thread raises an exception that is enabled. -/
def FpQuiet (k : Iss) (uni : Bool) (f : Nat → FRes) : Prop :=
  if k.g.quill = true then (f 0).2 &&& k.enables = 0 else ∀ th, th < 64 → fpRaised k uni f th &&& k.enables = 0

/-- R205, R246: the trap of fault 0x0B that an instruction takes whose threads come to `f`: first the flags, in a context that holds them, and
nothing else of it. -/
def FloatTrapped (s : State) (k : Iss) (uni : Bool) (f : Nat → FRes) (o : Out) : Prop :=
  ∃ u m fl, o = .next (u.takeTrap k.gid k.gang.id ⟨0x0B, fl, 0, m, k.pc⟩) ∧
    (k.g.quill = true → u = s ∧ fl = ((f 0).2 &&& k.enables).toNat) ∧
    (k.g.quill = false → InContexts s u (· = k.gid) ∧
      (∃ h, u.group k.gid = some h ∧ h = { k.g with xflg := h.xflg } ∧
        ∀ th, th < 64 → h.flagsOf th = k.g.flagsOf th ||| fpRaised k uni f th) ∧
      (∀ th, th < 64 → m.getLsbD th = decide (fpRaised k uni f th &&& k.enables ≠ 0)) ∧
      ∀ j, fl.testBit j = true ↔ ∃ th < 64, (fpRaised k uni f th &&& k.enables).getLsbD j = true)

/-- R249 to R252: the two-operand instructions: their result from the patterns of d, a and b, with its flags. -/
def floatOps : List ((Opnd → Opnd → Opnd → Instr) × (Iss → Nat → Nat → Nat → FRes)) :=
  [(.fadd, fun i _ x y => fpAdd i.ty i.mode i.teuf x y), (.fsub, fun i _ x y => fpSub i.ty i.mode i.teuf x y),
   (.fmul, fun i _ x y => fpMul i.ty i.mode i.teuf x y), (.ffma, fun i z x y => fpFma i.ty i.mode i.teuf false false x y z),
   (.ffms, fun i z x y => fpFma i.ty i.mode i.teuf false true x y z), (.ffnma, fun i z x y => fpFma i.ty i.mode i.teuf true false x y z),
   (.fmin, fun i _ x y => fpMinMax i.ty true false x y), (.fmax, fun i _ x y => fpMinMax i.ty true true x y),
   (.fminm, fun i _ x y => fpMinMax i.ty false false x y), (.fmaxm, fun i _ x y => fpMinMax i.ty false true x y)]

/-- R256: FRND, FGEXP and FGMANT. -/
def floatOneOps : List ((Opnd → Opnd → Byte → Instr) × (Iss → Nat → FRes)) :=
  [(.frnd, fun i x => fpRnd i.ty i.mode x), (.fgexp, fun i x => fpGexp i.ty x), (.fgmant, fun i x => fpGmant i.ty x)]

/-- R250, R251, R257: the long-latency instructions of one operand. -/
def floatLongOps : List ((Opnd → Opnd → Byte → Instr) × (Iss → Nat → FRes)) :=
  [(.fsqrt, fun i x => fpSqrt i.ty i.mode i.teuf x), (.frcp, fun i x => fpRcp i.ty i.mode i.teuf x), (.frsq, fun i x => fpRsq i.ty x),
   (.fex2, fun i x => fpEx2 i.ty x), (.flg2, fun i x => fpLg2 i.ty x), (.fsin, fun i x => fpSin i.ty x), (.fcos, fun i x => fpCos i.ty x)]

/-- R254: the compares: whether a quiet NaN raises NV, and the condition on what the comparison finds (none: unordered). -/
def floatCompareOps : List ((Byte → Opnd → Opnd → Instr) × Bool × (Option Int → Bool)) :=
  [(.fcmpeq, false, fun c => c == some 0), (.fcmplt, true, fun c => c == some (-1)),
   (.fcmple, true, fun c => c == some (-1) || c == some 0), (.fcmpun, false, fun c => c.isNone)]

/-- R261: the packed instructions on one element. -/
def pairOps : List ((Opnd → Opnd → Opnd → Instr) × (Iss → Nat → Nat → Nat → FRes)) :=
  [(.hadd2, fun i _ x y => fpAdd i.ty i.mode i.teuf x y), (.hmul2, fun i _ x y => fpMul i.ty i.mode i.teuf x y),
   (.hfma2, fun i z x y => fpFma i.ty i.mode i.teuf false false x y z)]

/-- R262: the dot products: elements, and their types. -/
def dotOps : List ((Opnd → Opnd → Opnd → Instr) × Nat × (EType → Bool)) :=
  [(.pdot4, 4, fun t => t == .e4m3 || t == .e5m2 || t == .i8 || t == .n8), (.pdot8, 8, fun t => t == .e2m1 || t == .i4),
   (.pdot2, 2, fun t => t == .f16 || t == .bf16)]

/-- R12, R21: a long-latency result is under way: the issuing context holds it, its clause counts it, and nothing else changed. -/
def Flies (s : State) (k : Iss) (kind : LongKind) (t : State) : Prop :=
  let g1 : Group :=
    { k.g with longs := k.g.longs ++ [⟨k.g.nextSeq, k.cl.serial, k.cl.longs + 1, k.g.nextSeq, kind, 0,
        kind.targets.map (RegWrite.now k.g)⟩], nextSeq := k.g.nextSeq + 1 }
  Became s k (g1.modGang k.gang.id fun x => { x with clause := x.clause.map fun c => { c with longs := c.longs + 1 } }) t

/-- R292: a gang held or issuing in DQPOP takes `x`, which comes under way to the scalar `d` if it names one, and goes on behind it; the queue
of its team on the core holds `r`. -/
def Took (s : State) (i : Iss) (d : Opnd) (x : DWord) (team core : Nat) (r : List DWord) (popped : KMap Nat) (o : Out) : Prop :=
  ∃ (teams : KMap Team) (u : State), o = .next (u.modGroup i.gid fun g => g.modGang i.gang.id fun y =>
      { y with hold := .none, clause := y.clause.map fun c => { c with next := c.past } }) ∧
    Flies { s with teams := teams } i (.result (match d with | .sca n => [.sca n x] | _ => [])) u ∧
    (∀ m, KMap.get s.teams team = some m → ∃ q, KMap.get teams team = some { m with dq := q, popped := popped } ∧ KMap.getD q core [] = r) ∧
    ∀ y, y ≠ team → KMap.get teams y = KMap.get s.teams y

/-- R248: what a long-latency floating instruction will write: for each performing thread the register of its result, or one scalar,
and the flags of each thread. While an enable is set the gang waits for the result before its next instruction. -/
def UnderWay (s : State) (k : Iss) (ty : EType) (d : Opnd) (uni : Bool) (f : Nat → FRes) (t : State) : Prop :=
  ∃ u, t = (if k.enables = 0 then u else u.modGroup k.gid fun g => g.modGang k.gang.id fun x => { x with hold := .result k.g.nextSeq }) ∧
  Flies s k (.float ((if uni then scaWrites ty d (f 0).1 else (threadsOf k.run).flatMap fun th => vecWrites ty d th (f th).1) ++
    (if k.g.quill then [] else (threadsOf (if uni then k.active else k.run)).map fun th => .flags th (f (if uni then 0 else th)).2))) u

/-! ### Branches, joins, exits -/

/-- R173: what a split leaves: every nib of the gang gains an X entry of a new number, below a P entry where it has threads of both kinds;
the nibs without falling threads are at the target, the others at the next clause. -/
def SplitInto (s : State) (k : Iss) (target joinAt : DWord) (t : State) : Prop :=
  ∃ h, Became s k h t ∧ h = { k.g with nibs := h.nibs, gangs := h.gangs, instCtr := k.g.fresh } ∧
    (∀ n, n < k.g.nibs.length → h.nib n = if n < 4 ∧ n ∈ k.gang.nibs
      then let st : List DivEntry := ⟨.x, k.g.fresh, joinAt, 0, 0⟩ :: (k.g.nib n).stack
        if k.taken n ≠ 0 ∧ k.falling n ≠ 0
          then { k.g.nib n with stack := ⟨.p, k.g.fresh, joinAt, target, k.taken n⟩ :: st, mask := k.falling n }
          else { k.g.nib n with stack := st }
      else k.g.nib n) ∧
    ∀ x, x ∈ h.gangs ↔ (x ∈ k.g.gangs ∧ x.id ≠ k.gang.id) ∨ x.nibs ≠ [] ∧
      (x = { k.gang with nibs := k.gang.eachNib.filter fun n => k.falling n == 0, pc := target, clause := none } ∨
       x = { k.gang with nibs := k.gang.eachNib.filter fun n => k.falling n != 0, pc := k.cl.after, clause := none })

/-- R174, R175: the gangs of `h` are those of `g` without gang `id`, and those that `p` names, unless they have no nib. -/
def Regangs (g h : Group) (id : Nat) (p : Gang → Prop) : Prop :=
  h = { g with nibs := h.nibs, gangs := h.gangs } ∧ ∀ x, x ∈ h.gangs ↔ (x ∈ g.gangs ∧ x.id ≠ id) ∨ (x.nibs ≠ [] ∧ p x)

/-- R174: what JOIN does with one nib, by the entry on top of its stack. -/
def JoinsByTop : Prop :=
  ∀ (x : Nib) (a : DWord), ((∀ e r, x.stack = e :: r → e.join ≠ a) → x.join a = (x, .goesOn)) ∧
    ∀ e r, x.stack = e :: r → e.join = a →
      (e.kind = .p → x.join a = ({ x with mask := e.mask, stack := { e with kind := .w, mask := x.mask } :: r }, .redirected e.target)) ∧
      (e.kind = .w → x.join a = ({ x with mask := x.mask ||| e.mask, stack := r } : Nib).join a) ∧
      (e.kind = .x → x.join a = (x, .held e.number))

/-- R174: the nibs of a JOIN take their outcomes: those that go on form one gang, those redirected to one target another, and a held nib
waits alone at the clause. -/
def JoinRegangs : Prop :=
  ∀ (k : Iss) (g : Group), Regangs g (k.joinGang g) k.gang.id (fun x => x = { k.gang with nibs := k.goers } ∨
      (∃ t, x = { k.gang with nibs := k.redirects t, pc := t, clause := none }) ∨
      ∃ n num, n ∈ k.gang.eachNib ∧ ((k.g.nib n).join k.cl.addr).2 = .held num ∧ x = { k.gang with
        nibs := [n], pc := k.cl.addr, clause := some { k.cl with next := 0 }, hold := .join k.cl.addr num }) ∧
    ∀ n < g.nibs.length, (k.joinGang g).nib n =
      if n < 4 ∧ n ∈ k.gang.nibs then ((k.g.nib n).join k.cl.addr).1 else g.nib n

/-- R174: held nibs merge when every nib that holds their number has it on top and is held there: the entry is popped from each, and they
form one gang at the JOIN; until then nothing changes. -/
def Merges : Prop :=
  (∀ g : Group, (∀ k ∈ g.gangs, ∀ a n, k.hold ≠ .join a n) → g.mergeAll = g) ∧
  ∀ (g : Group) (a : DWord) (num : BitVec 16), (let h := g.mergeAt a num
    let ns := g.holders num
    ((∃ n ∈ ns, g.arrivedAt a num n = false) → h = g) ∧
    (ns ≠ [] → (∀ n ∈ ns, g.arrivedAt a num n = true) → h.v = g.v ∧ h.s = g.s ∧ h.p = g.p ∧
      (∀ n < g.nibs.length, h.nib n = if n ∈ ns then { g.nib n with stack := (g.nib n).stack.drop 1 } else g.nib n) ∧
      ∃ x ∈ h.gangs, x.nibs = ns ∧ x.pc = a ∧ x.hold = .none ∧ ∀ y ∈ h.gangs, y = x ∨ ∀ n ∈ y.nibs, n ∉ ns))

/-- R175: what EXIT does with one nib: its active threads have ended, and it unwinds to threads that are left. -/
def ExitsByTop : Prop :=
  ∀ x : Nib, (x.stack = [] → exitNib x = ({ x with mask := 0 }, none)) ∧ (exitNib x).1.liveMask = ({ x with mask := 0 } : Nib).liveMask ∧
    ∀ e r, x.stack = e :: r →
      (e.kind = .x ∨ e.mask = 0 → exitNib x = exitNib { x with stack := r }) ∧
      (e.kind = .p → e.mask ≠ 0 →
        exitNib x = ({ x with mask := e.mask, stack := { e with kind := .w, mask := 0 } :: r }, some e.target)) ∧
      (e.kind = .w → e.mask ≠ 0 → exitNib x = ({ x with mask := e.mask, stack := r }, some e.join))

/-- R175: the nibs of a gang that exits: those left at one pc form one gang there, and those that ended belong to none. -/
def ExitRegangs : Prop :=
  ∀ (g : Group) (k : Gang), Regangs g (g.exitNibs k) k.id (fun x => ∃ a, x = { k with
      nibs := k.eachNib.filter fun n => (exitNib (g.nib n)).2 == some a, pc := a, clause := none, hold := .none }) ∧
    ∀ n < g.nibs.length, (g.exitNibs k).nib n = if n < 4 ∧ n ∈ k.nibs then (exitNib (g.nib n)).1 else g.nib n

/-- R175, R234, R283: EXIT: barriers expect the threads no longer, the nibs unwind, held nibs that no sibling keeps waiting merge, and a
context without live threads has ended. -/
def Exits (s : State) (k : Iss) (t : State) : Prop :=
  ∃ u g h, u = (if k.g.quill then s else s.barExit k.gid k.active) ∧ u.group k.gid = some g ∧ Became u k h t ∧
    (let x := (g.exitNibs ((g.gang k.gang.id).getD k.gang)).mergeAll
     h = { x with snaps := h.snaps, ended := if x.liveAll = 0 then true else x.ended, gangs := if x.liveAll = 0 then [] else x.gangs })

/-! ### Barriers -/

/-- R285, R290: a gang waits on barrier `c`: the nibs whose phase bit differs from the barrier's go on, at `onward` if given, and toggle it;
the others hold with `hold`. -/
def WaitsAt (s : State) (k : Iss) (c : BarCode) (hold : Hold) (onward : Option DWord) (t : State) : Prop :=
  ∀ g gang, s.group k.gid = some g → g.gang k.gang.id = some gang →
    (let goes (n : Nat) : Bool := decide ((s.bar (s.barKey k.gid k.g c)).p % 2 = 1) != (g.nib n).phase.getLsbD c.bit
     let cl : Option ClauseBuf := match onward with | some _ => none | none => gang.clause
     ∃ h, Became s k h t ∧ Regangs g h gang.id (fun x =>
        x = { gang with nibs := gang.eachNib.filter goes, pc := onward.getD gang.pc, clause := cl } ∨
        x = { gang with nibs := gang.eachNib.filter fun n => !goes n, hold := hold, clause := cl }) ∧
      ∀ n < g.nibs.length, h.nib n = if n < 4 ∧ n ∈ gang.nibs ∧ goes n = true
        then { g.nib n with phase := (g.nib n).phase ^^^ (1#32 <<< c.bit) } else g.nib n)

/-- R284, R288: the byte count changes by `d`; where that completes the phase, the phase advances and every gang that held for it goes on. -/
def CountsBytes (s : State) (key : BarKey) (d : Int) (t : State) : Prop :=
  let b := s.bar key
  let c := max (-2147483648) (b.c + d)
  let completes := (b.a = b.e ∧ 0 < b.e ∧ c = 0) ∨ (b.e = 0 ∧ b.c ≠ 0 ∧ c = 0)
  t = { s with bars := t.bars, groups := t.groups } ∧ SameBytes s t ∧ (∀ other, other ≠ key → t.bar other = s.bar other) ∧
  (¬ completes → t.groups = s.groups ∧ t.bar key = { b with c := c }) ∧
  (completes → t.bar key = { b with c := c, p := (b.p + 1) % 65536, a := 0, e := b.e - b.late, late := 0 } ∧
    ∀ g x y, s.group g = some x → t.group g = some y → ∀ code cd, barCode code = some cd → s.barKey g x cd = key →
      ∀ z ∈ y.gangs, z.hold ≠ .barrier code)

/-- R190: `from_` says which of a single participant's 64 threads moves to each position: each of them to one position; the live ones
first, by key and then by old position, and after them the others by old position. -/
def Reordered (g : Group) (keys : List Nat) (from_ : Nat → Nat) : Prop :=
  (∀ p, p < 64 → from_ p < 64) ∧ (∀ t, t < 64 → ∃ p < 64, from_ p = t) ∧
  ∀ p q, p < q → q < 64 → (let live (t : Nat) : Bool := g.liveAll.getLsbD t
    let key (t : Nat) : Nat := keys.getD t 0
    (live (from_ p) = false → live (from_ q) = false ∧ from_ p < from_ q) ∧
    (live (from_ p) = true → live (from_ q) = true →
      key (from_ p) < key (from_ q) ∨ key (from_ p) = key (from_ q) ∧ from_ p < from_ q))

/-! ### Places, engines -/

/-- R41: the bytes of a place: one core's team memory, one die's scratch, one thread's spill stack. -/
def placeSize : Place → Nat
  | .team .. => 0x100000
  | .scratch _ => Config.scratchBytes
  | .stack .. => 65536

/-- The team or the context of a place exists. -/
def PlaceIn (s : State) : Place → Prop
  | .team t _ => (KMap.get s.teams t).isSome = true
  | .scratch _ => True
  | .stack g _ => (s.group g).isSome = true

/-- R94, R164: the copy class: each form with its field checks, which of the class it is, and its operation. -/
def copyForms (d : Opnd) (u : BitVec 16) (v : Byte) (blk : Opnd) : List (Instr × (Iss → List Chk) × CopyOp × (CopyBlk → OpKind)) :=
  [(.bcopy blk u, fun k => [quillOpnds k [blk], sbChk 1 blk] ++ zero16 u, .copy, .copy),
   (.bcopyr blk u, fun k => [quillOpnds k [blk], sbChk 1 blk] ++ zero16 u, .copyr, .copyr),
   (.bcast blk u, fun k => [quillOpnds k [blk], sbChk 1 blk] ++ zero16 u, .bcast, .bcast),
   (.shread d blk v, fun k => [quillOpnds k [d, blk], scaChk 1 d, sbChk 2 blk, zeroChk 3 v], .shread, .shread (scaNo d))]

/-- R118: the bytes that a write carries, each with its distance from the request's address: given with it, or from its operation's buffer. -/
def Carries (r : Req) (o : EngOp) (bs : List (Nat × Byte)) : Prop :=
  r.kind = .store bs ∨ ∃ ps, r.kind = .write ps ∧ bs = ps.map fun p => (p.1, Mem.get o.buf p.2)

/-- R149, R150: what a home atomic comes to outside a predicted launch. -/
def AtomIssues (s : State) (k : Iss) (d : Option Nat) (ty : EType) (opc : Nat) (base off : Opnd) (opnd : Nat → Nat × Nat) (o : Out) : Prop :=
  let bad := (threadsOf k.run).filter fun th => !canonical (k.virtAddr base off th).toNat
  let mis := (threadsOf k.run).filter fun th => decide ((k.virtAddr base off th).toNat % elemBytes ty ≠ 0)
  let h := k.handleAt base
  let entry := s.handleEntry (s.fnOf k.g) h
  (bad ≠ [] → o = .next (s.trapOn k 4 2 (maskOf bad))) ∧
  (bad = [] → mis ≠ [] → o = .next (s.trapOn k 4 5 (maskOf mis))) ∧
  (bad = [] → mis = [] → h ≠ 0 → entry = none → o = .next (s.trap k 9 1)) ∧
  (bad = [] → mis = [] → (h = 0 ∨ entry ≠ none) → s.speculative k.g = false →
    (s.canIssue k .atomic = true → o = .next ((s.issueOp k .atomic (.atom d ty opc h ((threadsOf k.run).map fun th =>
      (th, k.virtAddr base off th, opnd th))) none).noteSheafWrite entry)) ∧
    (s.canIssue k .atomic = false → o = .next (s.retry k)))

/-! ### System -/

/-- The same instruction without a guard (R31): every active thread takes part. -/
def unguarded (k : Iss) : Iss := { k with cl := { k.cl with form := 8 } }

/-- R295 to R297: what a read of a control register other than XFLG gives. -/
def controlValue (s : State) (g : Group) (reg : Byte) : DWord :=
  match reg.toNat with
  | 0 => g.actl
  | 2 => g.trpc
  | 3 => g.tcau
  | 4 => g.tnib
  | 5 => g.tmsk
  | 6 => g.trgn
  | 7 => g.gcyc
  | 8 => BitVec.ofNat 64 s.caln
  | 9 => g.enrg
  | 10 => s.gidn g
  | 11 => if s.privileged g then BitVec.ofNat 64 (s.coreReg g.core).parkth else 0
  | _ => 0

/-- R299, R300, R303: everything that the context issued has performed, and it has no deferred fault to take. -/
def Quiet (s : State) (k : Iss) : Prop :=
  s.opsAll k.gid = [] ∧ k.g.failed = [] ∧ s.storesPending k.gid k.g 4 = [] ∧ k.g.loadsPending = []

end Sys2Proof.Claims

open Sys2Proof Sys2Proof.Machine Sys2Proof.Claims

/-! ### Moves, integer arithmetic, logic, bit fields -/

/-- R220, R223: ADD to ANDN deliver what the manual's table gives, in every integer type but i4, and change nothing else. -/
def Obligations.IntegerResults : Prop :=
  ∀ e ∈ intOps, ∀ d a b s k, s.Issues k (aluChk k (intTy k.ty) d [(2, a, true), (3, b, true)]) →
    ∃ t, exec (e.1 d a b) s = .next t ∧ Wrote s k k.ty d (uniform d [a, b])
      (fun th => e.2 k.ty k.sat (k.src k.ty d th) (k.src k.ty a th) (k.src k.ty b th)) noFlags t

/-- R224, R225: shifts, rotation and bit fields. -/
def Obligations.ShiftAndFieldResults : Prop :=
  ∀ e ∈ shiftOps, ∀ d a b s k, s.Issues k (aluChk k (intTy k.ty) d [(2, a, true), (3, b, false)]) →
    ∃ t, exec (e.1 d a b) s = .next t ∧ Wrote s k k.ty d (uniform d [a, b])
      (fun th => e.2 k.ty (k.src k.ty d th) (k.src k.ty a th) (k.src .n32 b th)) noFlags t

/-- R220, R223: NEG, ABS, NOT, POPC, CLZ, CTZ and BREV. -/
def Obligations.OneSourceIntegerResults : Prop :=
  ∀ e ∈ oneOps, ∀ d a u s k, s.Issues k (aluChk k (intTy k.ty) d [(2, a, true)] ++ [zeroChk 3 u]) →
    ∃ t, exec (e.1 d a u) s = .next t ∧
      Wrote s k k.ty d (uniform d [a]) (fun th => e.2 k.ty k.sat (k.src k.ty a th)) noFlags t

/-- R221, R222: MADW accumulates exactly in 64 bits; ADDC and SUBB chain through p7, which takes the carry or the borrow. -/
def Obligations.CarryAndWideResults : Prop :=
  (∀ d a b s k, s.Issues k [typeChk (k.ty == .i32 || k.ty == .n32), quillChk k (uniform d [a, b]), dstChk k 1 d true,
      pairedChk 2 d a, srcChk k 2 a false false, pairedChk 3 d b, srcChk k 3 b false false] →
    ∃ t, exec (.madw d a b) s = .next t ∧
      (let dt : EType := if k.ty = .i32 then .i64 else .n64
       Wrote s k dt d (uniform d [a, b]) (fun th => wrapOrSat k.sat dt
        (val dt (k.src dt d th) + val k.ty (k.src k.ty a th) * val k.ty (k.src k.ty b th))) noFlags t)) ∧
  ∀ e ∈ ([(.addc, fun x y c => x + y + c), (.subb, fun x y c => x - y - c)] :
      List ((Opnd → Opnd → Opnd → Instr) × (Int → Int → Int → Int))), ∀ d a b s k,
    s.Issues k [typeChk (k.ty == .i32 || k.ty == .n32 || k.ty == .i64 || k.ty == .n64), quillChk k false, failIf (Opnd.isSca d) 2 1,
      dstChk k 1 d (wide k.ty), srcChk k 2 a (wide k.ty) false, srcChk k 3 b (wide k.ty) false] →
    ∃ u h t, exec (e.1 d a b) s = .next t ∧
      (let x (th : Nat) : Int := e.2 (k.src k.ty a th) (k.src k.ty b th) (if (k.g.pred 7).getLsbD th then 1 else 0)
       Wrote s k k.ty d false (fun th => wrap k.ty (x th)) noFlags u ∧ u.group k.gid = some h ∧
       WroteP u { k with g := h } 7 k.run (fun th => decide (x th < 0) || decide (2 ^ widthOf k.ty ≤ x th)) noFlags t)

/-- R218, R219, R226: MOV and SEL: 32 bits, or a pair, move unchanged; a scalar takes 64. The four compares: a predicate in the passing
threads, or a scalar that takes 1 or 0. -/
def Obligations.MoveAndCompareResults : Prop :=
  ((∀ d a u s k, s.Issues k [quillChk k (uniform d [a]), dstChk k 1 d (wide k.ty), pairedChk 2 d a,
       srcChk k 2 a (wide k.ty) (k.ty == .f64 && !Opnd.isSca d), zeroChk 3 u] →
     ∃ t, exec (.mov d a u) s = .next t ∧
       match d with
       | .sca n => WroteS s k n (match a with | .one => dword (oneOf k.ty) | _ => k.uni64 a) noFlags t
       | _ => Wrote s k (moveTy k.ty) d false (k.moved a) noFlags t) ∧
   ∀ d a b ctl s k, s.Issues k [quillChk k false, failIf (Opnd.isSca d) 2 1, dstChk k 1 d (wide k.ty),
       srcChk k 2 a (wide k.ty) (k.ty == .f64), srcChk k 3 b (wide k.ty) (k.ty == .f64), failIf (decide (16 ≤ ctl.toNat)) 2 4] →
     ∃ t, exec (.sel d a b ctl) s = .next t ∧
       Wrote s k (moveTy k.ty) d false
         (fun th => if (k.g.pred (ctl.toNat % 8)).getLsbD th != ctl.getLsbD 3 then k.moved a th else k.moved b th) noFlags t) ∧
  ∀ e ∈ compareOps, ∀ d a b s k, s.Issues k (cmpChk k (intTy k.ty) d a b) →
    ∃ t, exec (e.1 d a b) s = .next t ∧
      (let f (th : Nat) : Bool := e.2 (val k.ty (k.src k.ty a th)) (val k.ty (k.src k.ty b th))
       Told s k d f (if f 0 then 1 else 0) noFlags t)

/-- R227, R229: LEA and MOVP; PAND, POR, PXOR, PNOT, PMOV in the passing threads, and PSET in every thread. -/
def Obligations.AddressAndPredicateResults : Prop :=
  ((∀ d a b s k, s.Issues k [typeChk (byteTy k.ty), quillChk k (uniform d [a, b]), dstChk k 1 d false, pairedChk 2 d a,
       srcChk k 2 a false false, pairedChk 3 d b, srcChk k 3 b false false] →
     ∃ t, exec (.lea d a b) s = .next t ∧
       match d with
       | .sca n => WroteS s k n (k.uni64 a + k.uni64 b * dword (elemBytes k.ty)) noFlags t
       | _ => Wrote s k .n32 d false (fun th => (k.src .n32 a th + k.src .n32 b th * elemBytes k.ty) % 2 ^ 32) noFlags t) ∧
   ∀ d p u s k, s.Issues k [typeChk (!Opnd.isVec d || intTy k.ty), quillChk k false, dstChk k 1 d (wide k.ty), predChk 2 p,
       zeroChk 3 u] →
     ∃ t, exec (.movp d p u) s = .next t ∧
       match d with
       | .sca n => WroteS s k n (k.g.pred p.toNat) noFlags t
       | _ => Wrote s k k.ty d false (fun th => if (k.g.pred p.toNat).getLsbD th then 1 else 0) noFlags t) ∧
  (∀ e ∈ ([(.pand, fun x y => x && y), (.por, fun x y => x || y), (.pxor, fun x y => x != y)] :
      List ((Byte → Byte → Byte → Instr) × (Bool → Bool → Bool))), ∀ d p q s k,
    s.Issues k [quillChk k false, predChk 1 d, predChk 2 p, predChk 3 q] →
    ∃ t, exec (e.1 d p q) s = .next t ∧ WroteP s k d.toNat k.run
      (fun th => e.2 ((k.g.pred p.toNat).getLsbD th) ((k.g.pred q.toNat).getLsbD th)) noFlags t) ∧
  (∀ d p u s k, s.Issues k [quillChk k false, predChk 1 d, predChk 2 p, zeroChk 3 u] →
    ∃ t, exec (.pnot d p u) s = .next t ∧ WroteP s k d.toNat k.run (fun th => !(k.g.pred p.toNat).getLsbD th) noFlags t) ∧
  (∀ d v s k, s.Issues k [quillChk k false, predChk 1 d, failIf (decide (1 < v.toNat)) 2 2] →
    ∃ t, exec (.pset d v) s = .next t ∧ WroteP s k d.toNat (BitVec.allOnes 64) (fun _ => v == 1) noFlags t) ∧
  ∀ d a u s k, s.Issues k [quillChk k false, predChk 1 d, srcChk k 2 a false false, zeroChk 3 u] →
    ∃ t, exec (.pmov d a u) s = .next t ∧ WroteP s k d.toNat k.run (fun th =>
      match a with
      | .vec n => k.g.vreg n th != 0
      | .tid => th != 0
      | _ => (k.uni64 a).getLsbD th) noFlags t

/-! ### Control -/

/-- R26, R173, R230, R231: BRA, CALL and RET; offsets count words from the clause's header. BRD: no thread taken, every thread taken, a
divergence overflow (fault 0x0A, detail 1), or the split, in which each nib that has both kinds keeps its falling threads and pushes the
taken ones above an X entry of a new number, which nothing of the group holds; the other nibs of the gang push the X entry alone. -/
def Obligations.BranchResults : Prop :=
  (∀ g : Group, g.numbers.length < 65536 → g.fresh ∉ g.numbers) ∧
  ((∀ c off s k, s.Issues k [quillOpnds k [c], condChk c] →
     ∃ t, exec (.bra c off) s = .next t ∧
       WentTo s k (if k.uni64 c ≠ 0 then k.cl.addr + BitVec.ofInt 64 (4 * off.toInt) else k.cl.after) t) ∧
   (∀ n off s k, s.Issues k [quillOpnds k [.sca n], scaChk 1 (.sca n)] →
     ∃ t, exec (.call (.sca n) off) s = .next t ∧
       Became s k (({ k.g with s := KMap.put k.g.s n k.cl.after } : Group).modGang k.gang.id fun x =>
         { x with pc := k.cl.addr + BitVec.ofInt 64 (4 * off.toInt), clause := none }) t) ∧
   ∀ a u s k, s.Issues k ([quillOpnds k [a], scaChk 1 a, failIf (decide ((k.uni64 a).toNat % 4 ≠ 0)) 2 1] ++ zero16 u ++
       [failIf (!canonical (k.uni64 a).toNat) 4 2]) →
     ∃ t, exec (.ret a u) s = .next t ∧ WentTo s k (k.uni64 a) t) ∧
  ∀ u off join s k, s.Issues k [quillChk k false, zeroChk 1 u] →
    (let target := k.cl.addr + BitVec.ofInt 64 (4 * off.toInt)
     let joinAt := k.cl.addr + BitVec.ofInt 64 (4 * join.toInt)
     let deep := k.gang.nibs.any fun n =>
      decide (16 < (k.g.nib n).stack.length + if k.taken n ≠ 0 ∧ k.falling n ≠ 0 then 2 else 1)
     ((∀ n ∈ k.gang.nibs, k.taken n = 0) → ∃ t, exec (.brd u off join) s = .next t ∧ WentTo s k k.cl.after t) ∧
     ((∃ n ∈ k.gang.nibs, k.taken n ≠ 0) → (∀ n ∈ k.gang.nibs, k.falling n = 0) →
      ∃ t, exec (.brd u off join) s = .next t ∧ WentTo s k target t) ∧
     ((∃ n ∈ k.gang.nibs, k.taken n ≠ 0) → (∃ n ∈ k.gang.nibs, k.falling n ≠ 0) →
      if deep then exec (.brd u off join) s = .next (s.trap k 0x0A 1)
      else ∃ t, exec (.brd u off join) s = .next t ∧ SplitInto s k target joinAt t))

/-- R172, R173, R174: neither BRD nor JOIN changes which threads of a nib are live. -/
def Obligations.DivergenceKeepsThreads : Prop :=
  (∀ (s : State) (k : Iss) (a b : DWord) (g h : Group) (n : Nat), s.issuer = some k → s.group k.gid = some g →
    (s.split k a b).group k.gid = some h → (h.nib n).liveMask = (g.nib n).liveMask) ∧
  ∀ (s : State) (k : Iss) (g h : Group) (n : Nat), s.issuer = some k → s.group k.gid = some g →
    (s.joinStep k).group k.gid = some h → (h.nib n).liveMask = (g.nib n).liveMask

/-- R174, R175, R234 to R237: JOIN, which acts as NOP when no nib has an entry for its clause on top; EXIT, and what becomes of nibs and
gangs at both; an EXIT that ends the group's last nib waits for its operations, as a full wait does, and for its four class counters
(of which an image may have restored more than the operations that are left: R359): a held one parks the group, and a failed one gives
its deferred fault. YIELD and NOP. TRAP: a code below 0x8000 is a software trap; the others call for a service: the gang waits for its request to be posted, with its
clause over; a predicted launch stalls. -/
def Obligations.JoinExitAndTrapResults : Prop :=
  ((∀ u s k, s.Issues k ([quillChk k false] ++ zero24 u) →
     ((∀ n ∈ k.gang.eachNib, (k.g.nib n).join k.cl.addr = (k.g.nib n, .goesOn)) → exec (.join u) s = .next s) ∧
     ((∃ n ∈ k.gang.eachNib, (k.g.nib n).join k.cl.addr ≠ (k.g.nib n, .goesOn)) → ∃ t, exec (.join u) s = .next t ∧
       Became s k (k.joinGang k.g).mergeAll { t with cur := s.cur } ∧
       t.cur = s.cur.map fun c => { c with gang := k.goers.headD c.gang })) ∧
   (∀ u s k, s.Issues k (zero24 u) → k.lastExit = false ∨ s.opsAll k.gid = [] ∧ s.countsZero k.gid = true ∧ k.g.failed = [] →
     ∃ t, exec (.exit u) s = .next t ∧ Exits s k t) ∧
   (∀ u s k, s.Issues k (zero24 u) → k.lastExit = true →
     ((∃ o ∈ s.opsAll k.gid, s.isHeld o = true) → exec (.exit u) s = .next ((s.retry k).faultPark k.gid)) ∧
     (s.opsAll k.gid ≠ [] → (∀ o ∈ s.opsAll k.gid, s.isHeld o = false) → exec (.exit u) s = .next (s.retry k)) ∧
     (s.opsAll k.gid = [] → s.countsZero k.gid = false → exec (.exit u) s = .next (s.retry k)) ∧
     ∀ f r, s.opsAll k.gid = [] → s.countsZero k.gid = true → k.g.failed = f :: r → exec (.exit u) s = .next ((s.modGroup k.gid fun g =>
       { g with failed := g.failed.filter fun x => x.id ≠ f.id }).takeTrap k.gid k.gang.id
         ⟨f.cause, f.detail, f.info, k.active, f.pc⟩)) ∧
   (JoinsByTop ∧ JoinRegangs ∧ Merges ∧ ExitsByTop ∧ ExitRegangs) ∧
   (∀ u s k, s.Issues k (zero24 u) → ∃ t, exec (.yield u) s = .next t ∧ Became s k { k.g with yielded := some s.turn } t) ∧
   ∀ u s k, s.Issues k (zero24 u) → exec (.nop u) s = .next s) ∧
  (∀ blk code s k, s.Issues k [failIf (blk != .vec 0) 2 1] → exec (.trapSoftware blk code) s = .next (s.trap k 0x0C 0)) ∧
  ∀ blk code s k, s.Issues k [quillOpnds k [blk], blockChk k blk] → ∃ t, exec (.trapServiceCall blk code) s = .next t ∧
    if s.speculative k.g then t = s.stall k 5
    else GangBecame s k (fun x => { x with hold := .service blk code, pc := k.cl.after, clause := none }) t

/-! ### Cross-lane -/

/-- R238 to R240: the shuffles: each passing thread takes the moved value of the thread that its operand names; 0 from one that is not live.
VOTEA, VOTEY, BALLOT, MATCHV and ELECT over the contributing threads. -/
def Obligations.ShuffleAndVoteResults : Prop :=
  (∀ e ∈ shuffleOps, ∀ d a b s k,
     s.Issues k [quillChk k false, failIf (Opnd.isSca d) 2 1, dstChk k 1 d (wide k.ty), failIf (Opnd.isSca a) 2 2,
       srcChk k 2 a (wide k.ty) (k.ty == .f64), srcChk k 3 b false false] →
     ∃ t, exec (e.1 d a b) s = .next t ∧ Wrote s k (moveTy k.ty) d false (fun th =>
       if k.g.liveAll.getLsbD (e.2 th (k.src .n32 b th)) then k.moved a (e.2 th (k.src .n32 b th)) else 0) noFlags t) ∧
  (∀ e ∈ ([(.votea, fun c x => (threadsOf c).all fun th => x.getLsbD th),
      (.votey, fun c x => (threadsOf c).any fun th => x.getLsbD th)] :
      List ((Byte → Byte → Byte → Instr) × (BitVec 64 → BitVec 64 → Bool))), ∀ d p u s k,
    s.Issues k [quillChk k false, failIf (selOf d == .bad) 2 1, predChk 2 p, zeroChk 3 u] →
    ∃ t, exec (e.1 d p u) s = .next t ∧
      (let r := e.2 k.run (k.g.pred p.toNat)
       Told s k d (fun _ => r) (if r then 1 else 0) noFlags t)) ∧
  (∀ n p u s k, s.Issues k [quillChk k false, scaChk 1 (.sca n), predChk 2 p, zeroChk 3 u] →
    ∃ t, exec (.ballot (.sca n) p u) s = .next t ∧ WroteS s k n (k.run &&& k.g.pred p.toNat) noFlags t) ∧
  (∀ d a u s k, s.Issues k [quillChk k false, vecChk k 1 d true, vecChk k 2 a (wide k.ty), zeroChk 3 u] →
    ∃ t, ∃ m : Nat → BitVec 64, exec (.matchv d a u) s = .next t ∧ Wrote s k .n64 d false (fun th => (m th).toNat) noFlags t ∧
      ∀ th o, th < 64 → o < 64 → (m th).getLsbD o = (k.run.getLsbD o && k.src k.ty a o == k.src k.ty a th)) ∧
  ∀ d u s k, s.Issues k ([quillChk k false, failIf (selOf d == .bad) 2 1] ++ zero16 u) →
    ∃ t, exec (.elect d u) s = .next t ∧
      match (threadsOf k.run).head? with
      | some r => Told s k d (fun th => th == r) (dword r) noFlags t
      | none => Told s k d (fun _ => false) (BitVec.allOnes 64) noFlags t

/-- R241 to R244: reductions over the contributing threads in ascending order, and scans, when no enabled exception is raised; the flags of
the result go to every contributing thread. Of integers: the exact sum wrapped (or clamped under SAT), the least and the greatest value,
each of them the value of a contributing thread, and over no thread the identity. REORD holds its gang, with the mask and the 64 keys that it read, at the clause that follows. -/
def Obligations.ReductionAndReordResults : Prop :=
  ((∀ e ∈ ([(.gredadd, .add), (.gredmin, .min), (.gredmax, .max)] : List ((Opnd → Opnd → Byte → Instr) × RedOp)), ∀ d a u s k,
     s.Issues k [typeChk (redTy k.ty), quillChk k false, dstChk k 1 d (wide k.ty), srcChk k 2 a (wide k.ty) (k.ty == .f64),
       zeroChk 3 u] →
     (let r := k.reduce e.2 ((threadsOf k.run).map (k.src k.ty a))
      FpQuiet k false (fun _ => r) →
      ∃ t, exec (e.1 d a u) s = .next t ∧
        Wrote s k k.ty d (Opnd.isSca d) (fun _ => r.1) (fpRaised k false fun _ => r) t)) ∧
   ∀ d a op o s k, scanOp op = some o →
     s.Issues k [typeChk (redTy k.ty), quillChk k false, vecChk k 1 d (wide k.ty), srcChk k 2 a (wide k.ty) (k.ty == .f64),
       failIf (scanOp op == none || decide (8 ≤ op.toNat)) 2 3] →
     (let r (th : Nat) : FRes := k.reduce o (((threadsOf k.run).filter fun u => if op.getLsbD 2 then u < th else u ≤ th).map
       (k.src k.ty a))
      FpQuiet k false r →
      ∃ t, exec (.gscan d a op) s = .next t ∧ Wrote s k k.ty d false (fun th => (r th).1) (fpRaised k false r) t)) ∧
  (∀ (k : Iss) (vs : List Nat), isInt k.ty = true →
     k.reduce .add vs = (wrapOrSat k.sat k.ty (vs.map (val k.ty)).sum, 0) ∧
     (vs = [] → k.reduce .min vs = (wrap k.ty (maxOf k.ty), 0) ∧ k.reduce .max vs = (wrap k.ty (minOf k.ty), 0)) ∧
     (vs ≠ [] → (∃ x ∈ vs, val k.ty (k.reduce .min vs).1 = val k.ty x) ∧ ∃ x ∈ vs, val k.ty (k.reduce .max vs).1 = val k.ty x) ∧
     ∀ x ∈ vs, val k.ty (k.reduce .min vs).1 ≤ val k.ty x ∧ val k.ty x ≤ val k.ty (k.reduce .max vs).1) ∧
  ∀ u key mask s k, s.Issues k [quillChk k false, zeroChk 1 u, srcChk k 2 key false false, maskChk mask,
      valueChk 3 mask (k.maskBad mask), litChk mask (k.maskBad mask), failIf (!k.g.convergent) 0x0A 3] →
    ∃ t, exec (.reord u key mask) s = .next t ∧ GangBecame s k (fun x =>
      { x with hold := .reord (BitVec.ofNat 24 (k.liveMask mask)) ((List.range 64).map (k.src .n16 key)), pc := k.cl.after
               clause := none }) t

/-! ### Floating point -/

/-- R249, R250, R252, R256: the instructions OP d, a, b and OP d, a of fixed latency but for the sign operations, when no enabled exception
is raised: the result of the operation, and the flags that each thread raised. -/
def Obligations.FloatResults : Prop :=
  (∀ e ∈ floatOps, ∀ d a b s k, s.Issues k (aluChk k (fpTy k.ty) d [(2, a, true), (3, b, true)]) →
    (let f (th : Nat) : FRes := e.2 k (k.src k.ty d th) (k.src k.ty a th) (k.src k.ty b th)
     let uni := uniform d [a, b]
     FpQuiet k uni f → ∃ t, exec (e.1 d a b) s = .next t ∧ Wrote s k k.ty d uni (fun th => (f th).1) (fpRaised k uni f) t)) ∧
  (∀ e ∈ floatOneOps, ∀ d a u s k, s.Issues k (aluChk k (fpTy k.ty) d [(2, a, true)] ++ [zeroChk 3 u]) →
    (let f (th : Nat) : FRes := e.2 k (k.src k.ty a th)
     let uni := uniform d [a]
     FpQuiet k uni f → ∃ t, exec (e.1 d a u) s = .next t ∧ Wrote s k k.ty d uni (fun th => (f th).1) (fpRaised k uni f) t)) ∧
  ∀ d a b s k, s.Issues k (aluChk k (fpTy k.ty) d [(2, a, true), (3, b, false)]) →
    (let f (th : Nat) : FRes := fpScale k.ty k.mode k.teuf (k.src k.ty a th) (val .i32 (k.src .i32 b th))
     let uni := uniform d [a, b]
     FpQuiet k uni f → ∃ t, exec (.fscale d a b) s = .next t ∧ Wrote s k k.ty d uni (fun th => (f th).1) (fpRaised k uni f) t)

/-- R253: FABS, FNEG and FCPSGN move the sign bit alone, under any rounding mode, raise no flag and never trap, whatever the operand. -/
def Obligations.SignOperationResults : Prop :=
  (∀ d a u s k, s.Issues k (aluChk k (fpTy k.ty) d [(2, a, true)] ++ [zeroChk 3 u]) →
    (∃ t, exec (.fabs d a u) s = .next t ∧ Wrote s k k.ty d (uniform d [a])
      (fun th => (bits k.ty (k.src k.ty a th) &&& ~~~(BitVec.twoPow _ (widthOf k.ty - 1))).toNat) noFlags t) ∧
    ∃ t, exec (.fneg d a u) s = .next t ∧ Wrote s k k.ty d (uniform d [a])
      (fun th => (bits k.ty (k.src k.ty a th) ^^^ BitVec.twoPow _ (widthOf k.ty - 1)).toNat) noFlags t) ∧
  ∀ d a b s k, s.Issues k (aluChk k (fpTy k.ty) d [(2, a, true), (3, b, true)]) →
    ∃ t, exec (.fcpsgn d a b) s = .next t ∧ Wrote s k k.ty d (uniform d [a, b])
      (fun th => ((bits k.ty (k.src k.ty a th) &&& ~~~(BitVec.twoPow _ (widthOf k.ty - 1))) |||
        (bits k.ty (k.src k.ty b th) &&& BitVec.twoPow _ (widthOf k.ty - 1))).toNat) noFlags t

/-- R248, R250, R251, R254, R255, R257: the floating compares, of which FCMPLT and FCMPLE raise NV for every NaN and the others for a
signaling one; FCLASS, which raises nothing; and the long-latency instructions: one that raises no enabled exception comes under way: its
gang goes on, and its registers and flags take the result when it is written back. That the trap is judged when the instruction issues is
the model's reading (log 46). -/
def Obligations.FloatCompareAndLongResults : Prop :=
  ((∀ e ∈ floatCompareOps, ∀ d a b s k, s.Issues k (cmpChk k (fpTy k.ty) d a b) →
     (let c (th : Nat) : Option Int := fpCompare k.ty (k.src k.ty a th) (k.src k.ty b th)
      let snan (th : Nat) : Bool := (fval k.ty (k.src k.ty a th)).isSnan || (fval k.ty (k.src k.ty b th)).isSnan
      let f (th : Nat) : FRes := (if e.2.2 (c th) then 1 else 0, if (e.2.1 && (c th).isNone) || snan th then flNV else 0)
      let uni := uniform (selOpnd d) [a, b]
      FpQuiet k uni f →
      ∃ t, exec (e.1 d a b) s = .next t ∧ Told s k d (fun th => e.2.2 (c th)) (if e.2.2 (c 0) then 1 else 0) (fpRaised k uni f) t)) ∧
   ∀ d a u s k, s.Issues k [typeChk (fpTy k.ty), quillChk k (uniform d [a]), dstChk k 1 d false, pairedChk 2 d a,
       srcChk k 2 a (wide k.ty) (k.ty == .f64), zeroChk 3 u] →
     ∃ t, exec (.fclass d a u) s = .next t ∧ Wrote s k .n32 d (uniform d [a]) (fun th => fpClass k.ty (k.src k.ty a th)) noFlags t) ∧
  (∀ e ∈ floatLongOps, ∀ d a u s k, s.Issues k (aluChk k (fpTy k.ty) d [(2, a, true)] ++ [zeroChk 3 u]) →
    (let f (th : Nat) : FRes := e.2 k (k.src k.ty a th)
     FpQuiet k (uniform d [a]) f → ∃ t, exec (e.1 d a u) s = .next t ∧ UnderWay s k k.ty d (uniform d [a]) f t)) ∧
  ∀ d a b s k, s.Issues k (aluChk k (fpTy k.ty) d [(2, a, true), (3, b, true)]) →
    (let f (th : Nat) : FRes := fpDiv k.ty k.mode k.teuf (k.src k.ty a th) (k.src k.ty b th)
     FpQuiet k (uniform d [a, b]) f → ∃ t, exec (.fdiv d a b) s = .next t ∧ UnderWay s k k.ty d (uniform d [a, b]) f t)

/-- R258 to R262: CVT, CVTN and CVTW; packed pairs and packed dot products. -/
def Obligations.ConversionAndPackedResults : Prop :=
  ((∀ d a c s k, s.Issues k [quillChk k (uniform d [a]), dstChk k 1 d (wide k.ty), pairedChk 2 d a,
       srcChk k 2 a (wide (cvtSrc c)) (cvtSrc c == .f64), failIf (decide (16 ≤ c.toNat)) 2 3] →
     (let f (th : Nat) : FRes := k.cvt (cvtSrc c) (k.src (cvtSrc c) a th)
      let uni := uniform d [a]
      FpQuiet k uni f → ∃ t, exec (.cvt d a c) s = .next t ∧ Wrote s k k.ty d uni (fun th => (f th).1) (fpRaised k uni f) t)) ∧
   (∀ d a c s k, s.Issues k [typeChk (decide (widthOf k.ty ≤ 16)), quillChk k (uniform d [a]), regChk k 1 d, pairedChk 2 d a,
       srcChk k 2 a (wide (cvtSrc c)) (cvtSrc c == .f64), failIf (c.getLsbD 4 || decide (32 ≤ widthOf k.ty * cvtIdx c)) 2 3] →
     (let f (th : Nat) : FRes := k.cvt (cvtSrc c) (k.src (cvtSrc c) a th)
      let uni := uniform d [a]
      FpQuiet k uni f → ∃ t, exec (.cvtn d a c) s = .next t ∧ Wrote s k .n32 d uni
       (fun th => putElem (widthOf k.ty) (cvtIdx c) (k.src .n32 d th) (f th).1) (fpRaised k uni f) t)) ∧
   ∀ d a c s k, s.Issues k [quillChk k (uniform d [a]), dstChk k 1 d (wide k.ty), pairedChk 2 d a, packedChk k 2 a,
       failIf (c.getLsbD 4 || decide (16 < widthOf (cvtSrc c)) || decide (32 ≤ widthOf (cvtSrc c) * cvtIdx c)) 2 3] →
     (let f (th : Nat) : FRes := k.cvt (cvtSrc c) (k.elem (cvtSrc c) a th (cvtIdx c))
      let uni := uniform d [a]
      FpQuiet k uni f → ∃ t, exec (.cvtw d a c) s = .next t ∧ Wrote s k k.ty d uni (fun th => (f th).1) (fpRaised k uni f) t)) ∧
  (∀ e ∈ pairOps, ∀ d a b s k, s.Issues k [typeChk (k.ty == .f16 || k.ty == .bf16), quillChk k (uniform d [a, b]), dstChk k 1 d false,
      pairedChk 2 d a, packedChk k 2 a, pairedChk 3 d b, packedChk k 3 b] →
    (let half (th j : Nat) : FRes := e.2 k (k.elem k.ty d th j) (k.elem k.ty a th j) (k.elem k.ty b th j)
     let f (th : Nat) : FRes := ((half th 0).1 % 2 ^ 16 + (half th 1).1 * 2 ^ 16, (half th 0).2 ||| (half th 1).2)
     let uni := uniform d [a, b]
     FpQuiet k uni f → ∃ t, exec (e.1 d a b) s = .next t ∧ Wrote s k .n32 d uni (fun th => (f th).1) (fpRaised k uni f) t)) ∧
  ∀ e ∈ dotOps, ∀ d a b s k, s.Issues k [typeChk (e.2.2 k.ty), quillChk k (uniform d [a, b]), regChk k 1 d,
      pairedChk 2 d a, packedChk k 2 a, pairedChk 3 d b, packedChk k 3 b] →
    (let xs (th : Nat) : List Nat := (List.range e.2.1).map (k.elem k.ty a th)
     let ys (th : Nat) : List Nat := (List.range e.2.1).map (k.elem k.ty b th)
     let exact (th : Nat) : Int := val .i32 (k.src .n32 d th) + (((xs th).zip (ys th)).map fun p => val k.ty p.1 * val k.ty p.2).sum
     let f (th : Nat) : FRes :=
      if isInt k.ty then (wrapOrSat k.sat .i32 (exact th), 0) else k.dotFp (k.src .n32 d th) (xs th) (ys th)
     let uni := uniform d [a, b]
     FpQuiet k uni f → ∃ t, exec (e.1 d a b) s = .next t ∧
      Wrote s k (if isInt k.ty then .i32 else .n32) d uni (fun th => (f th).1) (fpRaised k uni f) t)

/-- R203 to R205, R246, R248: when an enabled exception is raised, by a thread or, in a quill context, by the one performance, no destination is
written and fault 0x0B is taken: its detail holds the enabled flags that the trapping threads raised, and its mask those threads; the flags of
every performing thread are ORed in, but in a quill context, which holds none. Stated of every instruction that may raise an exception: those of
one, two and three operands, compares, the long-latency instructions, conversions, packed instructions, reductions and scans. That the trap of
a long-latency instruction is judged when it issues is the model's reading (log 46). -/
def Obligations.FloatTraps : Prop :=
  ((∀ e ∈ floatOps, ∀ d a b s k, s.Issues k (aluChk k (fpTy k.ty) d [(2, a, true), (3, b, true)]) →
     (let f (th : Nat) : FRes := e.2 k (k.src k.ty d th) (k.src k.ty a th) (k.src k.ty b th)
      ¬ FpQuiet k (uniform d [a, b]) f → FloatTrapped s k (uniform d [a, b]) f (exec (e.1 d a b) s))) ∧
   (∀ e ∈ floatOneOps ++ floatLongOps, ∀ d a u s k, s.Issues k (aluChk k (fpTy k.ty) d [(2, a, true)] ++ [zeroChk 3 u]) →
     (let f (th : Nat) : FRes := e.2 k (k.src k.ty a th)
      ¬ FpQuiet k (uniform d [a]) f → FloatTrapped s k (uniform d [a]) f (exec (e.1 d a u) s))) ∧
   (∀ d a b s k, s.Issues k (aluChk k (fpTy k.ty) d [(2, a, true), (3, b, false)]) →
     (let f (th : Nat) : FRes := fpScale k.ty k.mode k.teuf (k.src k.ty a th) (val .i32 (k.src .i32 b th))
      ¬ FpQuiet k (uniform d [a, b]) f → FloatTrapped s k (uniform d [a, b]) f (exec (.fscale d a b) s))) ∧
   (∀ d a b s k, s.Issues k (aluChk k (fpTy k.ty) d [(2, a, true), (3, b, true)]) →
     (let f (th : Nat) : FRes := fpDiv k.ty k.mode k.teuf (k.src k.ty a th) (k.src k.ty b th)
      ¬ FpQuiet k (uniform d [a, b]) f → FloatTrapped s k (uniform d [a, b]) f (exec (.fdiv d a b) s))) ∧
   ∀ e ∈ floatCompareOps, ∀ d a b s k, s.Issues k (cmpChk k (fpTy k.ty) d a b) →
     (let c (th : Nat) : Option Int := fpCompare k.ty (k.src k.ty a th) (k.src k.ty b th)
      let snan (th : Nat) : Bool := (fval k.ty (k.src k.ty a th)).isSnan || (fval k.ty (k.src k.ty b th)).isSnan
      let f (th : Nat) : FRes := (if e.2.2 (c th) then 1 else 0, if (e.2.1 && (c th).isNone) || snan th then flNV else 0)
      let uni := uniform (selOpnd d) [a, b]
      ¬ FpQuiet k uni f → FloatTrapped s k uni f (exec (e.1 d a b) s))) ∧
  ((∀ d a c s k, s.Issues k [quillChk k (uniform d [a]), dstChk k 1 d (wide k.ty), pairedChk 2 d a,
       srcChk k 2 a (wide (cvtSrc c)) (cvtSrc c == .f64), failIf (decide (16 ≤ c.toNat)) 2 3] →
     (let f (th : Nat) : FRes := k.cvt (cvtSrc c) (k.src (cvtSrc c) a th)
      ¬ FpQuiet k (uniform d [a]) f → FloatTrapped s k (uniform d [a]) f (exec (.cvt d a c) s))) ∧
   (∀ d a c s k, s.Issues k [typeChk (decide (widthOf k.ty ≤ 16)), quillChk k (uniform d [a]), regChk k 1 d, pairedChk 2 d a,
       srcChk k 2 a (wide (cvtSrc c)) (cvtSrc c == .f64), failIf (c.getLsbD 4 || decide (32 ≤ widthOf k.ty * cvtIdx c)) 2 3] →
     (let f (th : Nat) : FRes := k.cvt (cvtSrc c) (k.src (cvtSrc c) a th)
      ¬ FpQuiet k (uniform d [a]) f → FloatTrapped s k (uniform d [a]) f (exec (.cvtn d a c) s))) ∧
   (∀ d a c s k, s.Issues k [quillChk k (uniform d [a]), dstChk k 1 d (wide k.ty), pairedChk 2 d a, packedChk k 2 a,
       failIf (c.getLsbD 4 || decide (16 < widthOf (cvtSrc c)) || decide (32 ≤ widthOf (cvtSrc c) * cvtIdx c)) 2 3] →
     (let f (th : Nat) : FRes := k.cvt (cvtSrc c) (k.elem (cvtSrc c) a th (cvtIdx c))
      ¬ FpQuiet k (uniform d [a]) f → FloatTrapped s k (uniform d [a]) f (exec (.cvtw d a c) s))) ∧
   (∀ e ∈ pairOps, ∀ d a b s k, s.Issues k [typeChk (k.ty == .f16 || k.ty == .bf16), quillChk k (uniform d [a, b]), dstChk k 1 d false,
       pairedChk 2 d a, packedChk k 2 a, pairedChk 3 d b, packedChk k 3 b] →
     (let half (th j : Nat) : FRes := e.2 k (k.elem k.ty d th j) (k.elem k.ty a th j) (k.elem k.ty b th j)
      let f (th : Nat) : FRes := ((half th 0).1 % 2 ^ 16 + (half th 1).1 * 2 ^ 16, (half th 0).2 ||| (half th 1).2)
      ¬ FpQuiet k (uniform d [a, b]) f → FloatTrapped s k (uniform d [a, b]) f (exec (e.1 d a b) s))) ∧
   ∀ e ∈ dotOps, ∀ d a b s k, s.Issues k [typeChk (e.2.2 k.ty), quillChk k (uniform d [a, b]), regChk k 1 d,
       pairedChk 2 d a, packedChk k 2 a, pairedChk 3 d b, packedChk k 3 b] → isInt k.ty = false →
     (let f (th : Nat) : FRes := k.dotFp (k.src .n32 d th) ((List.range e.2.1).map (k.elem k.ty a th)) ((List.range e.2.1).map (k.elem k.ty b th))
      ¬ FpQuiet k (uniform d [a, b]) f → FloatTrapped s k (uniform d [a, b]) f (exec (e.1 d a b) s))) ∧
  (∀ e ∈ ([(.gredadd, .add), (.gredmin, .min), (.gredmax, .max)] : List ((Opnd → Opnd → Byte → Instr) × RedOp)), ∀ d a u s k,
     s.Issues k [typeChk (redTy k.ty), quillChk k false, dstChk k 1 d (wide k.ty), srcChk k 2 a (wide k.ty) (k.ty == .f64),
       zeroChk 3 u] →
     (let f (_ : Nat) : FRes := k.reduce e.2 ((threadsOf k.run).map (k.src k.ty a))
      ¬ FpQuiet k false f → FloatTrapped s k false f (exec (e.1 d a u) s))) ∧
  ∀ d a op o s k, scanOp op = some o →
     s.Issues k [typeChk (redTy k.ty), quillChk k false, vecChk k 1 d (wide k.ty), srcChk k 2 a (wide k.ty) (k.ty == .f64),
       failIf (scanOp op == none || decide (8 ≤ op.toNat)) 2 3] →
     (let f (th : Nat) : FRes := k.reduce o (((threadsOf k.run).filter fun u => if op.getLsbD 2 then u < th else u ≤ th).map
       (k.src k.ty a))
      ¬ FpQuiet k false f → FloatTrapped s k false f (exec (.gscan d a op) s))

/-! ### Local memory -/

/-- R89 to R92, R121, R123: LD, LD2 and LD4: an access out of bounds is fault 4, detail 1, naming its threads; otherwise the load is under
way, with the pieces of every element. ST, ST2 and ST4: the stored bytes enter the context's FIFO, in thread order, each piece with its
place; no byte of memory changes yet; a predicted launch that would store to scratch stalls. Whose spill stack a uniform load reads is the
model's choice (log 15), and so is that every piece of a store has an entry of its own, none of them merged (log 94). Loads of a predicted
launch, which may stall, are left out. -/
def Obligations.LoadsAndStoresIssue : Prop :=
  (∀ e ∈ ([(.ld, 1), (.ld2, 2), (.ld4, 4)] : List ((Opnd → Opnd → Opnd → Instr) × Nat)), ∀ d base off s k,
     s.Issues k [typeChk (byteTy k.ty), quillChk k (uniform d [base, off]), runChk k 1 d k.ty e.2,
       pairedChk 2 d base, srcChk k 2 base false false, pairedChk 3 d off, srcChk k 3 off false false] →
     (let ts := k.accessThreads (Opnd.isSca d)
      let bad := ts.filter fun th => !s.localOk k.gid k.g k.space th (k.localAddr base off th) (e.2 * elemBytes k.ty)
      (bad ≠ [] → exec (e.1 d base off) s = .next (s.trapOn k 4 1 (k.blame (Opnd.isSca d) bad))) ∧
      (bad = [] → s.speculative k.g = false →
       ∃ t, exec (e.1 d base off) s = .next t ∧ Flies s k (.load d k.ty (ts.flatMap fun th => (List.range e.2).flatMap fun j =>
         s.piecesOf k th j (k.localAddr base off th + j * elemBytes k.ty) (elemBytes k.ty))) t))) ∧
  ∀ e ∈ ([(.st, 1), (.st2, 2), (.st4, 4)] : List ((Opnd → Opnd → Opnd → Instr) × Nat)), ∀ x base off s k,
    s.Issues k [typeChk (byteTy k.ty), quillChk k (Opnd.isUni x && Opnd.isUni base && Opnd.isUni off), dataChk k x e.2,
      srcChk k 2 base false false, srcChk k 3 off false false] →
    (let uni := Opnd.isUni x && Opnd.isUni base && Opnd.isUni off && (k.g.quill || k.space != 3)
     let ts := if uni then (if k.g.quill || k.run != 0 then [0] else []) else threadsOf k.run
     let bad := ts.filter fun th => !s.localOk k.gid k.g k.space th (k.localAddr base off th) (e.2 * elemBytes k.ty)
     let ps := ts.flatMap fun th => s.storePieces k x e.2 th (k.localAddr base off th)
     (bad ≠ [] → exec (e.1 x base off) s = .next (s.trapOn k 4 1 (k.blameRun uni bad))) ∧
     (bad = [] → s.speculative k.g = true ∧ k.space = 2 ∧ ts ≠ [] → exec (e.1 x base off) s = .next (s.stall k 3)) ∧
     (bad = [] → ¬(s.speculative k.g = true ∧ k.space = 2 ∧ ts ≠ []) → ∃ t, exec (e.1 x base off) s = .next t ∧
      Became s k { k.g with
        fifo := k.g.fifo ++ (ps.zipIdx k.g.nextSeq).map fun p => ⟨p.2, .store p.1.1 p.1.2⟩
        nextSeq := k.g.nextSeq + ps.length } t))

/-- R143 to R146: local atomics: of the spill stack fault 4, detail 4; an element that crosses 32 bytes, detail 3; out of bounds,
detail 1; otherwise one piece per thread is under way, with its entry in the FIFO. Which of these faults comes first is the model's order
(log 92), and so is that the first, as the others, takes a thread that performs (log 111). -/
def Obligations.LocalAtomicsIssue : Prop :=
  ∀ e ∈ ([(.atladd, 0), (.atlmin, 1), (.atlmax, 2), (.atland, 3), (.atlor, 4), (.atlxor, 5), (.atlxch, 6), (.atlcas, 7)] :
      List ((Opnd → Opnd → Opnd → Instr) × Nat)), ∀ d addr x s k,
    s.Issues k [typeChk (atomTy e.2 k.ty), quillChk k (uniform d [addr, x]), dstChk k 1 d (wide k.ty),
      pairedChk 2 d addr, srcChk k 2 addr false false, pairedChk 3 d x, atlChk k (e.2 == 7) x] →
    (let uni := uniform d [addr, x]
     let n := elemBytes k.ty
     let ts := if uni then (if k.g.quill || k.run != 0 then [0] else []) else threadsOf k.run
     let cross := ts.filter fun th => decide (32 < k.src .n32 addr th % 32 + n)
     let bad := ts.filter fun th => !s.localOk k.gid k.g k.space th (k.src .n32 addr th) n
     let ps := ts.flatMap fun th => (s.piecesOf k th 0 (k.src .n32 addr th) n).map fun p =>
      { p with x := k.src k.ty x th, y := if e.2 = 7 then k.src k.ty (elemOpnd k.ty x 1) th else 0 }
     (k.space = 3 → ts ≠ [] → exec (e.1 d addr x) s = .next (s.trapOn k 4 4 (k.blameRun uni ts))) ∧
     (k.space ≠ 3 → cross ≠ [] → exec (e.1 d addr x) s = .next (s.trapOn k 4 3 (k.blameRun uni cross))) ∧
     (k.space ≠ 3 → cross = [] → bad ≠ [] → exec (e.1 d addr x) s = .next (s.trapOn k 4 1 (k.blameRun uni bad))) ∧
     (k.space ≠ 3 → cross = [] → bad = [] → s.speculative k.g = false → ∃ u t, Flies s k (.atomic d k.ty e.2 ps) u ∧
      exec (e.1 d addr x) s = .next t ∧ t = u.modGroup k.gid fun g =>
        { g with fifo := g.fifo ++ (List.range ps.length).map fun j => ⟨k.g.nextSeq, .atl k.g.nextSeq j⟩ }))

/-- R121 to R124: LOAD, DRAIN, PROPAGATE and ATL, each where it is enabled, with the place and the bytes that a store changes. That DRAIN
waits for the context's older loads is the model's reading (log 16). -/
def Obligations.LocalSteps : Prop :=
  (∀ s gid g l j d ty ps p, s.group gid = some g → g.nextAccess = some (l, j) → l.kind = .load d ty ps → ps[j]? = some p →
    exec (.load gid) s = .next (s.modGroup gid fun g => g.fillPiece l.id j
      ((List.range p.len).map fun i => s.loadByte g l.seq p.place (p.off + i)))) ∧
  (∀ s gid g seq p bs, s.drainHead gid = some (g, seq, p, bs) →
    exec (.drain gid) s = .next (let s1 := s.modGroup gid fun g => { g with fifo := g.fifo.drop 1 }
      if p = .team g.team g.core then s1.placePut p bs
      else { s1 with oq := KMap.put s1.oq g.core (KMap.getD s1.oq g.core [] ++ [⟨gid, seq, p, bs⟩]) })) ∧
  (∀ s core e r, KMap.getD s.oq core [] = e :: r →
    exec (.propagate core) s = .next ((({ s with oq := KMap.put s.oq core r } : State).placePut e.place e.bytes).touch none
      (.place e.place 0))) ∧
  ∀ s gid g l j d ty opc ps p seq r, s.group gid = some g → g.nextAccess = some (l, j) → l.kind = .atomic d ty opc ps →
    ps[j]? = some p → g.fifo = ⟨seq, .atl l.id j⟩ :: r → (∀ x ∈ KMap.getD s.oq g.core [], x.gid ≠ gid) →
    exec (.atl gid) s = .next (
      let old := (List.range p.len).map fun i => s.placeGet p.place (p.off + i)
      let new := leBytes (atomF ty opc (leVal old) p.x p.y) p.len
      ((s.placePut p.place ((List.range p.len).map fun i => (p.off + i, new.getD i 0))).modGroup gid fun g =>
        { g.fillPiece l.id j old with fifo := g.fifo.drop 1 }).touch none (.place p.place p.off))

/-- R6, R41, R120: what a write at a place of record changes: of the named bytes each takes the last value given for it, and every
other byte of every place, of domain memory and of the host reads as before. -/
def Obligations.PlaceWritesAreExact : Prop :=
  ∀ (s : State) (p : Place) (bs : List (Nat × Byte)), s.MemOk → PlaceIn s p →
    (∀ e ∈ bs, e.1 < placeSize p) →
    (let t := s.placePut p bs
     (∀ off, off < placeSize p → t.placeGet p off = ((bs.reverse.find? fun e => e.1 == off).map Prod.snd).getD (s.placeGet p off)) ∧
     (∀ q off, q ≠ p → off < placeSize q → t.placeGet q off = s.placeGet q off) ∧
     (∀ o a, t.memGet o a = s.memGet o a) ∧ ∀ a, Mem.get t.host a = Mem.get s.host a)

/-! ### Engines -/

/-- R118, R125, R132: what an issue leaves: one more outstanding operation of its class, which stands as its context issued it; no
register, no byte of memory and no other operation changes. -/
def Obligations.IssueLeaves : Prop :=
  ∀ s k c kind bar, s.issuer = some k → KMap.get s.ops s.nextOp = none →
    (let t := s.issueOp k c kind bar
     t = { s with ops := t.ops, nextOp := s.nextOp + 1, funcs := t.funcs, groups := t.groups } ∧ SameBytes s t ∧
     (t.opsOf k.gid c).length = (s.opsOf k.gid c).length + 1 ∧
     (KMap.getD k.g.skew (classIndex c) 0 = 0 → t.counter k.gid c = s.counter k.gid c + 1) ∧ (∀ o, o ≠ s.nextOp → KMap.get t.ops o = KMap.get s.ops o) ∧
     (∃ x, KMap.get t.ops s.nextOp = some x ∧ x.gid = k.gid ∧ x.cls = c ∧ x.kind = kind ∧ x.pc = k.pc ∧ x.bar = bar ∧
      x.started = false ∧ x.failed = none) ∧
     (∃ h, t.group k.gid = some h ∧ h = { k.g with issued := h.issued }) ∧ ∀ g, g ≠ k.gid → t.group g = s.group g)

/-- R94 to R107, R147 to R150, R154, R159, R164: BCOPY, BCOPYR, BCAST and SHREAD, in the order of their faults: control block (6), address
(4), barrier (0x0E, detail 1), handle (9, detail 1); then the issue, when the class has room and the context's stores have left. GATHER,
SCATTER, ATOM, ARED and APROG: non-canonical addresses are fault 4, detail 2, naming their threads; then, of ATOM and ARED, those not
naturally aligned (4, detail 5), then an invalid handle (9, detail 1); then the issue, which waits for room in its class. PREF raises none.
The order of the address, the alignment and the handle is the model's (log 92). Issues with a handle in a predicted launch, which stall,
are left to the others. -/
def Obligations.EngineOperationsIssue : Prop :=
  (∀ d u v blk, ∀ e ∈ copyForms d u v blk, ∀ s k, s.Issues k (e.2.1 k) →
     (let i := e.1
      let b := k.copyBlk (scaNo blk)
      let code := barCode (byte (0x10 + b.bar))
      let entry := if b.shf then s.handleEntry (s.fnOf k.g) b.handle else none
      (∀ d, b.bad e.2.2.1 = some d → exec i s = .next (s.trap k 6 d)) ∧
      (b.bad e.2.2.1 = none → ∀ d, s.copyAddr k b e.2.2.1 = some d → exec i s = .next (s.trap k 4 d)) ∧
      (b.bad e.2.2.1 = none → s.copyAddr k b e.2.2.1 = none → b.bind = true → (∀ c, code = some c → s.barEnabled k.g c = false) →
        exec i s = .next (s.trap k 0x0E 1)) ∧
      (b.bad e.2.2.1 = none → s.copyAddr k b e.2.2.1 = none → (b.bind = true → ∃ c, code = some c ∧ s.barEnabled k.g c = true) →
        b.shf = true → entry = none → exec i s = .next (s.trap k 9 1)) ∧
      (b.bad e.2.2.1 = none → s.copyAddr k b e.2.2.1 = none →
       (b.bind = true → ∃ c, code = some c ∧ s.barEnabled k.g c = true) → (b.shf = true → entry ≠ none) → s.speculative k.g = false →
       (s.canIssue k .copy = true → ∃ t, exec i s = .next t ∧
         t = (s.issueOp k .copy (e.2.2.2 b) (if b.bind then code.map fun c => s.barKey k.gid k.g c else none)).noteSheafWrite entry) ∧
       (s.canIssue k .copy = false → exec i s = .next (s.retry k))))) ∧
  ((∀ n base off s k, s.Issues k [typeChk (byteTy k.ty), quillChk k false, vecChk k 1 (.vec n) (wide k.ty), baseChk 2 base,
       offChk k 3 off] →
     (let bad := (threadsOf k.run).filter fun th => !canonical (k.virtAddr base off th).toNat
      (bad ≠ [] → exec (.gather (.vec n) base off) s = .next (s.trapOn k 4 2 (maskOf bad))) ∧
      (bad = [] → s.canIssue k .gather = true → exec (.gather (.vec n) base off) s = .next (s.issueOp k .gather
       (.gather n k.ty ((threadsOf k.run).map fun th => (th, k.virtAddr base off th))) none)) ∧
      (bad = [] → s.canIssue k .gather = false → exec (.gather (.vec n) base off) s = .next (s.retry k)))) ∧
   (∀ x base off s k, s.Issues k [typeChk (byteTy k.ty), quillChk k false, srcChk k 1 x (wide k.ty) (k.ty == .f64),
       pairBaseChk 2 base, offChk k 3 off] →
     (let bad := (threadsOf k.run).filter fun th => !canonical (k.virtAddr base off th).toNat
      let h := k.handleAt base
      let entry := s.handleEntry (s.fnOf k.g) h
      (bad ≠ [] → exec (.scatter x base off) s = .next (s.trapOn k 4 2 (maskOf bad))) ∧
      (bad = [] → h ≠ 0 → entry = none → exec (.scatter x base off) s = .next (s.trap k 9 1)) ∧
      (bad = [] → (h = 0 ∨ entry ≠ none) → s.speculative k.g = false → s.canIssue k .gather = true →
       exec (.scatter x base off) s = .next ((s.issueOp k .gather (.scatter k.ty h
         ((threadsOf k.run).map fun th => (th, k.virtAddr base off th, k.src k.ty x th))) none).noteSheafWrite entry)) ∧
      (bad = [] → (h = 0 ∨ entry ≠ none) → s.speculative k.g = false → s.canIssue k .gather = false →
       exec (.scatter x base off) s = .next (s.retry k)))) ∧
   ∀ base len u s k, s.Issues k [quillOpnds k [base, len], baseChk 1 base, failIf (!Opnd.isUni len) 2 2, zeroChk 3 u] →
     ∃ t, exec (.pref base len u) s = .next t ∧ t = { s with agenda := t.agenda } ∧
       t.agenda = s.agenda ++ if canonical (k.uni64 base).toNat
         then (prefLines (k.uni64 base) (k.uni64 len).toNat).filterMap fun l => (s.prefTarget k.g.core (s.fnOf k.g) l).map fun x =>
             .pf (prefName (s.fnOf k.g) x) else []) ∧
  (∀ n base off ctl opc ty s k, atomCtl ctl true = some (opc, ty) → s.Issues k [quillChk k false, atomRunChk k (.vec n) ctl,
      pairBaseChk 2 base, offChk k 3 off, failIf (atomCtl ctl true).isNone 2 4] →
    AtomIssues s k (some n) ty opc base off (fun th => (k.src ty (.vec n) th, k.src ty (elemOpnd ty (.vec n) 1) th))
      (exec (.atom (.vec n) base off ctl) s)) ∧
  (∀ x base off ctl opc ty s k, atomCtl ctl false = some (opc, ty) → s.Issues k [quillOpnds k [x, base, off],
      srcChk k 1 x (wide ty) (ty == .f64), pairBaseChk 2 base, offChk k 3 off, failIf (atomCtl ctl false).isNone 2 4] →
    AtomIssues s k none ty opc base off (fun th => (k.src ty x th, 0)) (exec (.ared x base off ctl) s)) ∧
  ∀ n base off ctl s k, s.Issues k [quillChk k false, progChk k (.vec n), baseChk 2 base, offChk k 3 off,
      failIf (decide (256 ≤ ctl.toNat)) 2 4] →
    (let bad := (threadsOf k.run).filter fun th => !canonical (k.virtAddr base off th).toNat
     (bad ≠ [] → exec (.aprog (.vec n) base off ctl) s = .next (s.trapOn k 4 2 (maskOf bad))) ∧
     (bad = [] → s.canIssue k .atomic = true → exec (.aprog (.vec n) base off ctl) s = .next (s.issueOp k .atomic
      (.prog n ctl.toNat ((threadsOf k.run).map fun th => (th, k.virtAddr base off th, k.src .n64 (.vec n) th,
        k.src .n64 (.vec (n + 2)) th))) none)) ∧
     (bad = [] → s.canIssue k .atomic = false → exec (.aprog (.vec n) base off ctl) s = .next (s.retry k)))

/-- R130 to R132: FENCE takes the lowest free token slot and gives its token (what it covers of failed operations: log 38); at
system scope a flushing read follows the writes that it covers. FWAIT on a
token whose slot has been taken again, or whose fence has completed, and WAITC when few enough operations are outstanding, go on. -/
def Obligations.OrderingResults : Prop :=
  (∀ n scope mask s k j, s.Issues k [quillOpnds k [.sca n], scaChk 1 (.sca n), failIf (decide (6 < scope.toNat)) 2 2,
      failIf (decide (mask.toNat = 0) || decide (32 ≤ mask.toNat)) 2 3] → k.gang.hold = .none →
    j < 8 → s.fenceDone k.gid k.g (k.g.fence j) = true → (∀ i < j, s.fenceDone k.gid k.g (k.g.fence i) = false) →
    ∃ u h, exec (.fence (.sca n) scope mask) s = .next (if scope.toNat = 6 then u.flush k.gid k.g (h.fence j).ops else u) ∧
      Became s k h u ∧ h = { k.g with fences := h.fences, s := h.s } ∧
      (let serial := ((k.g.fence j).serial + 1) % 256
       h.fence j = s.covered k.gid k.g scope.toNat mask.toNat serial ∧ (∀ i, i ≠ j → h.fence i = k.g.fence i) ∧
       ∀ m, h.sreg m = if m = n then dword (serial * 256 + j) else k.g.sreg m)) ∧
  (∀ n u s k, s.Issues k ([quillOpnds k [.sca n], scaChk 1 (.sca n),
      failIf (decide (bitsOf (k.g.sreg n).toNat 63 16 ≠ 0) || decide (bitsOf (k.g.sreg n).toNat 7 3 ≠ 0)) 2 1] ++ zero16 u) →
    (let f := k.g.fence (bitsOf (k.g.sreg n).toNat 2 0)
     (f.serial ≠ bitsOf (k.g.sreg n).toNat 15 8 → exec (.fwait (.sca n) u) s = .next s) ∧
     (s.fenceDone k.gid k.g f = true → (∀ x ∈ k.g.failed, x.id ∉ f.ops) → exec (.fwait (.sca n) u) s = .next s) ∧
     (f.serial = bitsOf (k.g.sreg n).toNat 15 8 → f.ops.any s.opPending = true → (∀ o ∈ f.ops, s.isHeld o = false) →
      exec (.fwait (.sca n) u) s = .next (s.retry k)))) ∧
  ∀ cls n c s k, classOf cls.toNat = some c → s.Issues k [failIf (decide (3 < cls.toNat)) 2 1, failIf (decide (63 < n.toNat)) 2 2] →
    (s.counter k.gid c ≤ n.toNat → k.g.failed = [] → exec (.waitc cls n) s = .next s) ∧
    (n.toNat < s.counter k.gid c → (∀ o ∈ s.opsOf k.gid c, s.isHeld o = false) → exec (.waitc cls n) s = .next (s.retry k))

/-- R158 to R165: SHOPEN, SHVER, SHSEAL and SHABORT outside a drain window and a predicted launch. A handle that SHOPEN gives is valid at
once, its sheaf holds no member line written, and the name cannot be opened again. Which free entry a name takes is the model's choice (log
20); so is that SHOPEN and SHVER read and change the sheaf table when they issue (log 49). -/
def Obligations.SheafResults : Prop :=
  ((∀ n name u s k, s.Issues k [quillOpnds k [.sca n, name], scaChk 1 (.sca n), nameChk 2 name, zeroChk 3 u] →
     s.speculative k.g = false → s.closed = false →
     (∀ d, s.shopen k.g (k.uni32 name) = .error d → exec (.shopen (.sca n) name u) s = .next (s.trap k 9 d)) ∧
     (∀ s1 h, s.shopen k.g (k.uni32 name) = .ok (s1, h) → ∃ u1, Flies s1 k (.result [.sca n h]) u1 ∧
       exec (.shopen (.sca n) name u) s = .next (u1.modGroup k.gid fun g =>
         g.modGang k.gang.id fun x => { x with hold := .result k.g.nextSeq }))) ∧
   (∀ n name u s k, s.Issues k [quillOpnds k [.sca n, name], scaChk 1 (.sca n), nameChk 2 name, zeroChk 3 u] →
     s.speculative k.g = false → s.closed = false →
     ((s.func (s.fnOf k.g)).sdsize = 0 → exec (.shver (.sca n) name u) s = .next (s.trap k 9 9)) ∧
     ((s.func (s.fnOf k.g)).sdsize ≠ 0 → ∃ u1, Flies s k (.result [.sca n (s.shver k.g (k.uni32 name))]) u1 ∧
       exec (.shver (.sca n) name u) s = .next (u1.modGroup k.gid fun g =>
         g.modGang k.gang.id fun x => { x with hold := .result k.g.nextSeq }))) ∧
   ∀ e ∈ ([(.shseal, .seal, false), (.shabort, .abort, true)] : List ((Opnd → BitVec 16 → Instr) × (Nat → OpKind) × Bool)),
     ∀ h u s k, s.Issues k ([quillOpnds k [h], scaChk 1 h] ++ zero16 u) → s.speculative k.g = false →
     (s.handleEntry (s.fnOf k.g) (k.uni64 h) = none → exec (e.1 h u) s = .next (s.trap k 9 1)) ∧
     ∀ x, s.handleEntry (s.fnOf k.g) (k.uni64 h) = some x → s.canIssue k .atomic = true →
       exec (e.1 h u) s = .next (let s1 := s.issueOp k .atomic (e.2.1 x) none
         { s1 with sheaves := KMap.adjust s1.sheaves x fun y =>
             { y with open_ := false, closing := true, aborting := e.2.2, closer := some s.nextOp } })) ∧
  ∀ s g name t h, s.shopen g name = .ok (t, h) → s.devnum < 4096 → (s.func (s.fnOf g)).gen < 256 →
    (∃ x e, t.handleEntry (t.fnOf g) h = some x ∧ KMap.get t.sheaves x = some e ∧ e.name = name ∧ e.lines = [] ∧ e.writes = []) ∧
    t.shopen g name = .error 3 ∧ SameBytes s t ∧ t = { s with sheaves := t.sheaves }

/-- R272, R273, R278, R280: MLOOP and MZERO: the control block's faults (6), out of bounds (4, detail 1), then the issue. That the operation
keeps ACTL.TEUF as it was at the issue is the model's reading (log 56). -/
def Obligations.MatrixIssue : Prop :=
  (∀ frag blk c, ∀ e ∈ ([(.mloop frag blk, 0), (.mloopQuill frag blk c, c.toNat)] : List (Instr × Nat)), ∀ s k,
    s.Issues k (let b := k.matBlk (scaNo blk)
      [fragChk k frag b.regs (b.shape == 3), sbChk 2 blk, s.mloopGrpChk k frag b e.2]) →
    (let b := k.matBlk (scaNo blk)
     let i := e.1
     let grp := e.2
     (∀ d, b.bad = some d → exec i s = .next (s.trap k 6 d)) ∧
     (b.bad = none → s.matOut k.g b = true → exec i s = .next (s.trap k 4 1)) ∧
     (b.bad = none → s.matOut k.g b = false → s.speculative k.g = false → s.canIssue k .matrix = true →
      ∀ tg x, s.mloopTarget k grp = some (tg, x) → exec i s = .next (s.issueOp k .matrix
        (.mloop tg (fragNo frag) b k.mode k.teuf 0 [] []) none)))) ∧
  ∀ frag blk u s k, s.Issues k (let b := k.matBlk (scaNo blk)
      [quillChk k false, fragChk k frag b.regs (b.shape == 3), sbChk 2 blk, zeroChk 3 u]) →
    (let b := k.matBlk (scaNo blk)
     (b.rsvd = true → exec (.mzero frag blk u) s = .next (s.trap k 6 11)) ∧
     (b.rsvd = false → b.shape = 3 → exec (.mzero frag blk u) s = .next (s.trap k 6 12)) ∧
     (b.rsvd = false → b.shape ≠ 3 → b.accShape = false → exec (.mzero frag blk u) s = .next (s.trap k 6 13)) ∧
     (b.rsvd = false → b.shape ≠ 3 → b.accShape = true → s.canIssue k .matrix = true →
      exec (.mzero frag blk u) s = .next (s.issueOp k .matrix (.mzero (fragNo frag) b.regs b.widthIndex) none)))

/-! ### Barriers and PARK -/

/-- R282 to R290: BAR, BARA, BARW and BARX: fault 0x0E with detail 1 where the barrier is not enabled and 2 where the group does not
arrive at it (3 and 4 on too many arrivals or bytes), in the order that the model chose (log 55); otherwise the threads arrive (but in a
predicted launch, which stalls, an arrival in excess counts nothing), the gang waits, nib by nib, or the byte count rises. The waits
for held operations and for stores are stated as absent. BARQ reports a barrier; PARK on a barrier, or on a counter that is not low
enough, parks its gang, and on a counter low enough goes on at its target. -/
def Obligations.BarrierAndParkResults : Prop :=
  ((∀ e ∈ ([(.bar, true), (.barw, false)] : List ((Byte → Byte → Byte → Instr) × Bool)), ∀ ua ub b c s k, barCode b = some c →
     s.Issues k [quillChk k false, zeroChk 1 ua, zeroChk 2 ub, codeChk 3 b, failIf k.masked 0x0A 2] →
     (s.barEnabled k.g c = false → exec (e.1 ua ub b) s = .next (s.trap k 0x0E 1)) ∧
     (s.barEnabled k.g c = true → e.2 = true → s.barMember k.g c = false → exec (e.1 ua ub b) s = .next (s.trap k 0x0E 2)) ∧
     (s.barEnabled k.g c = true → (e.2 = true → s.barMember k.g c = true) → (s.opsAll k.gid).filter s.isHeld = [] → k.g.failed = [] →
       s.storesPending k.gid k.g c.scope = [] →
       exec (e.1 ua ub b) s = .next (
         let key := s.barKey k.gid k.g c
         let s1 := if e.2 then s.barArrive k.gid c key k.active else s
         if e.2 = true ∧ (s.bar key).e - (s.bar key).a < (threadsOf k.active).length
           then (if s.speculative k.g then s else s1).trap k 0x0E 3
         else s1.barWait k c (.barrier b) none))) ∧
   (∀ ua ub b c s k, barCode b = some c → s.Issues k [quillChk k false, zeroChk 1 ua, zeroChk 2 ub, codeChk 3 b] →
     s.barEnabled k.g c = true → s.barMember k.g c = true → s.storesPending k.gid k.g c.scope = [] →
     exec (.bara ua ub b) s = .next (
       let key := s.barKey k.gid k.g c
       let s1 := s.barArrive k.gid c key k.active
       if (s.bar key).e - (s.bar key).a < (threadsOf k.active).length then (if s.speculative k.g then s else s1).trap k 0x0E 3
       else s1)) ∧
   ∀ ua n b c s k, barCode b = some c → s.Issues k [quillOpnds k [n], zeroChk 1 ua, failIf (!Opnd.isUni n) 2 2,
       valueChk 2 n (decide (0x7FFFFFFF < k.uni32 n)), failIf (!isTeamBar b) 2 3, litChk n (decide (0x7FFFFFFF < k.uni32 n))] →
     s.barEnabled k.g c = true →
     (let key := s.barKey k.gid k.g c
      if 2147483647 < (s.bar key).c + (k.uni32 n : Int) then exec (.barx ua n b) s = .next (s.trap k 0x0E 4)
      else ∃ t, exec (.barx ua n b) s = .next t ∧ CountsBytes s key (k.uni32 n) t)) ∧
  (∀ s k c hold onward, WaitsAt s k c hold onward (s.barWait k c hold onward)) ∧
  (∀ s key d, CountsBytes s key d (s.barBytes key d)) ∧
  (∀ n ub b c s k, barCode b = some c → s.Issues k [quillOpnds k [.sca n], scaChk 1 (.sca n), zeroChk 2 ub, codeChk 3 b] →
    ∃ t, exec (.barq (.sca n) ub b) s = .next t ∧ WroteS s k n (
      if s.barEnabled k.g c then
        let x := s.bar (s.barKey k.gid k.g c)
        dword ((BitVec.ofInt 32 x.c).toNat * 2 ^ 32 + x.p % 2 * 2 ^ 31 +
          (if !k.g.quill && (k.g.nib k.gang.id).phase.getLsbD c.bit then 2 ^ 30 else 0) + (x.e - x.a) % 2 ^ 30)
      else 0) noFlags t) ∧
  (∀ u off cond c s k, barCode (byte cond.toNat) = some c → s.Issues k [zeroChk 1 u, parkBarChk k cond] →
    (s.barEnabled k.g c = false → exec (.parkBarrier u off cond) s = .next (s.trap k 0x0E 1)) ∧
    (s.barEnabled k.g c = true → (s.opsAll k.gid).filter s.isHeld = [] → k.g.failed = [] →
      (let at_ := k.cl.addr + BitVec.ofInt 64 (4 * off.toInt)
       exec (.parkBarrier u off cond) s = .next (s.barWait k c (.park (.barrier (byte cond.toNat)) at_) (some at_))))) ∧
  ∀ u off cond c s k, classOf (bitsOf cond.toNat 9 8) = some c → s.Issues k [zeroChk 1 u, parkCtrChk cond] →
    (s.opsAll k.gid).filter s.isHeld = [] → k.g.failed = [] →
    (let at_ := k.cl.addr + BitVec.ofInt 64 (4 * off.toInt)
     let n := bitsOf cond.toNat 5 0
     ∃ t, exec (.parkCounter u off cond) s = .next t ∧
      if s.counter k.gid c ≤ n then WentTo s k at_ t
      else GangBecame s k (fun x => { x with hold := .park (.counter c n) at_, clause := none }) t)

/-- R283, R284: an arrival counts its threads, and the completion step advances the phase, clears the arrivals and takes the deferred
deductions off; before it, nothing but A changes. -/
def Obligations.BarrierPhases : Prop :=
  ∀ (s : State) (gid : Nat) (c : BarCode) (key : BarKey) (m : BitVec 64), (let b := s.bar key
     let n := (threadsOf m).length
     let b1 := (s.barArrive gid c key m).bar key
     0 < b.e → b.a + n ≤ b.e →
     ((b.a + n = b.e ∧ b.c = 0) → b1 = { b with p := (b.p + 1) % 65536, a := 0, e := b.e - b.late, late := 0 }) ∧
     (¬(b.a + n = b.e ∧ b.c = 0) → b1 = { b with a := b.a + n }) ∧
     ∀ other, other ≠ key → (s.barArrive gid c key m).bar other = s.bar other)

/-! ### Quill, register blocks, forms, control registers, tasks -/

/-- R32, R188, R292 to R294, R298: DQPUSH into a queue with room, with no DQPOP waiting, or with one that waits at an empty queue and takes
the value as its result; DQPOP with an empty queue holds its gang, and with no gang ahead of it takes the oldest entry of the queue; REGGET
holds its gang until its grant; REGPUT gives blocks back, whose registers read 0 when they are granted again; FORM writes a form register
for the clauses that follow; SLOTQ's report comes under way. -/
def Obligations.QueueBlockAndFormResults : Prop :=
  ((∀ ua v u s k tm, s.Issues k [failIf (!k.g.quill) 1 4, quillOpnds k [v], zeroChk 1 ua, failIf (!Opnd.isUni v) 2 2, zeroChk 3 u] →
     s.teamOf k.g = some tm → (tm.queueOf k.g.core).length < 64 → s.storesPending k.gid k.g 1 = [] →
     s.popWaiters k.g.team k.g.core = [] →
     ∃ t, exec (.dqpush ua v u) s = .next t ∧ t = { s with teams := t.teams } ∧
       KMap.get t.teams k.g.team = some { tm with dq := KMap.put tm.dq k.g.core (tm.queueOf k.g.core ++ [k.uni64 v]) }) ∧
   (∀ ua v u s k tm gid n d rest i, s.Issues k [failIf (!k.g.quill) 1 4, quillOpnds k [v], zeroChk 1 ua, failIf (!Opnd.isUni v) 2 2,
       zeroChk 3 u] → s.teamOf k.g = some tm → tm.queueOf k.g.core = [] → s.storesPending k.gid k.g 1 = [] →
     s.popWaiters k.g.team k.g.core = (gid, n, d) :: rest → s.issuerAt gid n = some i →
     Took s i d (k.uni64 v) k.g.team k.g.core [] tm.popped (exec (.dqpush ua v u) s)) ∧
   (∀ d u s k, s.Issues k ([quillChk k false, scaZeroChk 1 d] ++ zero16 u) →
     (∀ tm, KMap.get s.teams k.g.team = some tm → tm.queueOf k.g.core = []) →
     ∃ t, exec (.dqpop d u) s = .next t ∧ GangBecame { s with teams := t.teams } k (fun x =>
       { x with hold := .dqpop d, clause := x.clause.map fun c => { c with next := c.cur } }) t ∧
       ∀ x tm, KMap.get s.teams x = some tm → KMap.get t.teams x = some (if x = k.g.team
         then { tm with popped := KMap.put tm.popped k.g.core (k.g.popKey k.gang.clock) } else tm)) ∧
   (∀ d u s k tm x r, s.Issues k ([quillChk k false, scaZeroChk 1 d] ++ zero16 u) → k.g.faultParked = false → k.g.offCore = false →
     k.g.presence = .here → k.g.budgetDue = false → s.teamOf k.g = some tm → tm.queueOf k.g.core = x :: r →
     s.popWaiters k.g.team k.g.core = [] →
     Took s k d x k.g.team k.g.core r (KMap.put tm.popped k.g.core (k.g.popKey k.gang.clock))
       (exec (.dqpop d u) s)) ∧
   (∀ d mask u s k, s.Issues k [quillChk k false, scaZeroChk 1 d, blockMaskChk 2 mask,
       valueChk 2 mask (k.blocksBad mask), zeroChk 3 u, litChk mask (k.blocksBad mask)] →
     ∃ t, exec (.regget d mask u) s = .next t ∧ GangBecame s k (fun x =>
       { x with hold := .regget d (BitVec.ofNat 24 (k.uni32 mask) &&& ~~~k.g.blocks)
                clause := x.clause.map fun c => { c with next := c.cur } }) t) ∧
   ∀ ua mask u s k, s.Issues k [quillChk k false, zeroChk 1 ua, blockMaskChk 2 mask,
       valueChk 2 mask (k.blocksBad mask || k.putBad mask), zeroChk 3 u, litChk mask (k.blocksBad mask || k.putBad mask)] → s.opsAll k.gid = [] → k.g.longs = [] →
     (let m := BitVec.ofNat 24 (k.uni32 mask)
      ∃ t h, exec (.regput ua mask u) s = .next t ∧ t = { s with groups := t.groups, reserve := t.reserve } ∧
       t.group k.gid = some h ∧ h = { k.g with blocks := k.g.blocks &&& ~~~m, v := h.v } ∧
       (∀ n th, h.vreg n th = if m.getLsbD (n / 8) then 0 else k.g.vreg n th) ∧
       KMap.getD t.reserve (8 * k.g.core + k.g.sub) false =
         (if m = 0 then KMap.getD s.reserve (8 * k.g.core + k.g.sub) false else false))) ∧
  (∀ f v u s k, s.Issues k [quillOpnds k [v], failIf (decide (3 < f.toNat)) 2 1, failIf (!Opnd.isUni v) 2 2,
      valueChk 2 v (badForm (k.uni32 v)), zeroChk 3 u, litChk v (badForm (k.uni32 v))] →
    ∃ t h, exec (.form f v u) s = .next t ∧ Became s k h t ∧ h = { k.g with forms := h.forms } ∧
      ∀ n, h.forms.getD n 8 = if n = f.toNat then word (k.uni32 v) else k.g.forms.getD n 8) ∧
  ∀ n ub kind s k, s.Issues k [quillOpnds k [.sca n], scaChk 1 (.sca n), zeroChk 2 ub, failIf (decide (3 < kind.toNat)) 2 3] →
    ∃ t, exec (.slotq (.sca n) ub kind) s = .next t ∧ Flies s k (.result [.sca n (s.slotq kind.toNat)]) t

/-- R7, R8, R295 to R297, R369: CTLR reads every control register: XFLG into the running threads of a vector register, the others into a
scalar, or into every active thread. CTLW writes the writable fields of its register and nothing else. A write of PARKTH in a launch that
is not privileged, and a write of GCYC, CALN or GIDN, is an illegal-instruction fault, detail 2; an unprivileged read of PARKTH gives 0.
That a vector destination takes the value in every active thread is the model's reading (log 48). -/
def Obligations.ControlRegisterResults : Prop :=
  (∀ d ub reg s k, s.Issues k [quillOpnds k [d], ctlrDstChk k d reg, zeroChk 2 ub, regCodeChk k 3 reg] →
     ∃ t, exec (.ctlr d ub reg) s = .next t ∧
       (reg = 1 → Wrote s k .n32 d false (fun th => (k.g.flagsOf th).toNat) noFlags t) ∧
       (reg ≠ 1 → match d with
         | .sca n => WroteS s k n (controlValue s k.g reg) noFlags t
         | _ => Wrote s (unguarded k) (if wide k.ty then .n64 else .n32) d false
             (fun _ => (controlValue s k.g reg).toNat % if wide k.ty then 2 ^ 64 else 2 ^ 32) noFlags t)) ∧
  (∀ ua v reg s k, s.Issues k [quillOpnds k [v], ctlwPriv s k reg, zeroChk 1 ua, ctlwSrcChk k v reg,
       valueChk 2 v (k.drndBad v reg), regCodeChk k 3 reg, litChk v (k.drndBad v reg)] →
     ∃ t, exec (.ctlw ua v reg) s = .next t ∧
       (let x := k.uni64 v
        (reg = 0 → Became s k { k.g with actl := x &&& 0x1F7 } t) ∧
        (reg = 1 → ∃ h, Became s k h t ∧ h = { k.g with xflg := h.xflg } ∧ ∀ th, th < 64 →
         h.flagsOf th = if k.run.getLsbD th then BitVec.ofNat 5 (k.src .n32 v th) else k.g.flagsOf th) ∧
        (reg = 2 → Became s k { k.g with trpc := x } t) ∧
        (reg = 3 → Became s k { k.g with tcau := x &&& 0xFFFFFFFF } t) ∧
        (reg = 4 → Became s k { k.g with tnib := x &&& 0xF3 } t) ∧
        (reg = 5 → Became s k { k.g with tmsk := x } t) ∧
        (reg = 6 → Became s k { k.g with trgn := x } t) ∧
        (reg = 9 → Became s k { k.g with enrg := x } t) ∧
        (reg = 11 → t = { s with cores := t.cores } ∧ ∀ c, t.coreReg c =
         if c = k.g.core then { s.coreReg c with parkth := min 16 (x.toNat % 32) } else s.coreReg c))) ∧
  (∀ ua v s k, s.issuer = some k → quillOpnds k [v] = none → s.privileged k.g = false →
    exec (.ctlw ua v 11) s = .next (s.trap k 1 2)) ∧
  (∀ ua v reg s k, s.issuer = some k → quillOpnds k [v] = none → reg = 7 ∨ reg = 8 ∨ reg = 10 →
    exec (.ctlw ua v reg) s = .next (s.trap k 1 2)) ∧
  ∀ n s k, s.Issues k [quillOpnds k [.sca n], ctlrDstChk k (.sca n) 11, zeroChk 2 0, regCodeChk k 3 11] →
    s.privileged k.g = false → ∃ t, exec (.ctlr (.sca n) 0 11) s = .next t ∧ WroteS s k n 0 noFlags t

/-- R7, R369: no instruction of a launch that is not privileged changes PARKTH of any core, and none of any launch changes which
functions are privileged, the owners of functions or the key slots. -/
def Obligations.PrivilegeIsKept : Prop :=
  ∀ i s t k, i.isWord = true → s.issuer = some k → exec i s = .next t →
    (s.privileged k.g = false → ∀ c, (t.coreReg c).parkth = (s.coreReg c).parkth) ∧
    t.fnpriv = s.fnpriv ∧ t.keys = s.keys ∧ t.partitions = s.partitions ∧ ∀ f, (t.func f).owner = (s.func f).owner

/-- R299, R300, R303: TASKQ, TASKDONE and SIGNAL once everything that the context issued has performed: TASKQ of an entry that is FREE or
DONE, or its fault 6, detail 16; TASKDONE's step or its fault 0x10; and SIGNAL's operation, or its address faults. SIGNAL, whose scope is
the system, first has a flushing read posted behind host writes that none has followed (log 22). -/
def Obligations.TaskAndSignalResults : Prop :=
  (∀ n u s k, s.Issues k ([quillOpnds k [.sca n], taskBlkChk (.sca n)] ++ zero16 u) → s.speculative k.g = false → Quiet s k →
    (let w1 := (k.g.sreg (n + 1)).toNat
     let succ := taskSucc w1 (k.g.sreg (n + 2)).toNat
     let task := w1 % 2 ^ 16
     let fn := s.fnOf k.g
     w1 / 2 ^ 36 = 0 → task < 4096 → (∀ x ∈ succ, x < 4096) →
     ((((s.func fn).task task).st = .free ∨ ((s.func fn).task task).st = .done) → exec (.taskq (.sca n) u) s =
      .next (s.taskQueue fn task (w1 / 2 ^ 16 % 2 ^ 16) succ (k.g.sreg n) (k.g.sreg (n + 3)))) ∧
     (((s.func fn).task task).st ≠ .free → ((s.func fn).task task).st ≠ .done →
      exec (.taskq (.sca n) u) s = .next (s.trap k 6 16)))) ∧
  (∀ ua x u s k, s.Issues k [quillOpnds k [x], zeroChk 1 ua, failIf (!Opnd.isUni x) 2 2,
      valueChk 2 x (decide (4095 < (k.uni64 x).toNat)), zeroChk 3 u, litChk x (decide (4095 < (k.uni64 x).toNat))] → s.speculative k.g = false → Quiet s k →
    exec (.taskdone ua x u) s = .next (match s.taskDone (s.fnOf k.g) (k.uni64 x).toNat with
      | .ok t => t
      | .error d => s.trap k 0x10 d)) ∧
  ∀ n v op s k, s.Issues k [quillOpnds k [.sca n, v], scaChk 1 (.sca n), failIf (!Opnd.isUni v) 2 2,
      failIf (decide (bitsOf op.toNat 6 2 ≠ 0) || op.toNat % 4 == 3) 2 3] → s.speculative k.g = false →
    (canonical (k.g.sreg n).toNat = false → exec (.signal (.sca n) v op) s = .next (s.trap k 4 2)) ∧
    (canonical (k.g.sreg n).toNat = true → (k.g.sreg n).toNat % 8 ≠ 0 → exec (.signal (.sca n) v op) s = .next (s.trap k 4 5)) ∧
    (canonical (k.g.sreg n).toNat = true → (k.g.sreg n).toNat % 8 = 0 → Quiet s k → k.g.hostWrites ≠ [] → s.flushing k.gid = false →
      exec (.signal (.sca n) v op) s = .next ((s.flush k.gid k.g (k.g.hostWrites.map Prod.fst)).retry k)) ∧
    (canonical (k.g.sreg n).toNat = true → (k.g.sreg n).toNat % 8 = 0 → Quiet s k → k.g.hostWrites = [] → s.canIssue k .atomic = true →
      exec (.signal (.sca n) v op) s = .next (s.issueOp k .atomic (.signal (k.g.sreg n) (k.uni64 v) (op.toNat % 4) (op.getLsbD 7)) none))

/-! ### Exceptions -/

/-- R34, R296, R354: taking a trap, in a launch that is not predicted, with a handler, outside one: the trap registers (in a quill
context s46 and s47) say what happened and where, H is 1, the gang goes on at TRAPH with its divergence stacks empty, and what the
return needs is saved. Every register else of the context, GCYC and ENRG among them, every other nib and gang of it, every other context and
every byte of memory stay. -/
def Obligations.TrapEntry : Prop :=
  ∀ s k l r, s.issuer = some k → s.launchOf k.g = some l → s.speculative k.g = false → l.record.traph ≠ 0 → k.g.h = false →
    ∃ h, InContexts s (s.takeTrap k.gid k.gang.id r) (· = k.gid) ∧ (s.takeTrap k.gid k.gang.id r).group k.gid = some h ∧
      h = { k.g with
        h := true, save := h.save, nibs := h.nibs, gangs := h.gangs, snaps := h.snaps, nextSnap := h.nextSnap, raises := h.raises, owed := h.owed
        s := h.s, tcau := h.tcau, trpc := h.trpc, tmsk := h.tmsk, tnib := h.tnib, trgn := h.trgn } ∧
      (∃ x, h.gang k.gang.id = some x ∧ x.nibs = k.gang.nibs ∧ x.pc = l.record.traph ∧ x.clause = none ∧ x.hold = .none) ∧
      (∀ x, x.id ≠ k.gang.id → (x ∈ h.gangs ↔ x ∈ k.g.gangs)) ∧
      (∀ n < k.g.nibs.length, h.nib n = if n ∈ k.gang.nibs then { k.g.nib n with stack := [] } else k.g.nib n) ∧
      (let cause := dword (r.cause % 256 + (r.detail % 256) * 256 + (r.info % 65536) * 65536)
       (k.g.quill = false → h.tcau = cause ∧ h.trpc = r.pc ∧ h.tmsk = r.mask ∧ h.tnib = tnibOf k.gang.nibs ∧
        h.trgn = k.g.entryOf k.gang (k.gang.nibs.headD 0) ∧ h.s = k.g.s) ∧
       (k.g.quill = true → h.tcau = k.g.tcau ∧ h.trpc = k.g.trpc ∧ h.tmsk = k.g.tmsk ∧ h.tnib = k.g.tnib ∧ h.trgn = k.g.trgn ∧
        ∀ n, h.sreg n = if n = 46 then cause else if n = 47 then r.pc else k.g.sreg n)) ∧
      ∃ sv, h.save = some sv ∧ sv.gang = k.gang ∧ sv.forms = k.g.forms ∧ sv.s46 = k.g.sreg 46 ∧ sv.s47 = k.g.sreg 47 ∧
        sv.nibs.map SnapNib.nib = k.gang.nibs ∧ ∀ r ∈ sv.nibs, r.mask = (k.g.nib r.nib).mask ∧ r.stack = (k.g.nib r.nib).stack

/-- R314, R319, R356: a trap without a handler, or inside one, ends the launch: its first status stands, every context of it stops, and
the trap registers of a group name the trap (log 37); in a predicted launch the gang stalls at its instruction. -/
def Obligations.TrapWithoutHandler : Prop :=
  (∀ s k l r, s.issuer = some k → s.launchOf k.g = some l → s.speculative k.g = false → l.record.traph = 0 ∨ k.g.h = true →
    (let t := s.takeTrap k.gid k.gang.id r
     (∃ x, KMap.get t.launches k.g.launch = some x ∧ x.next = x.teams ∧ x.status = (match l.status with
      | some y => some y
      | none => some (let code := r.cause % 256 + (r.detail % 256) * 256
        if r.cause = 5 ∧ r.detail = 1 ∧ k.g.h = false then (5, 1, code) else (2, 0, code)))) ∧
     (∀ g x, t.group g = some x → x.launch = k.g.launch → x.gangs = [] ∧ x.ended = true ∧ x.stopped = true) ∧
     (k.g.quill = false → ∃ x, t.group k.gid = some x ∧ x.trpc = r.pc ∧ x.tmsk = r.mask) ∧ SameBytes s t)) ∧
  ∀ s k r, s.issuer = some k → s.speculative k.g = true → GangBecame s k (fun x =>
    { x with hold := .stall (if r.cause ≤ 3 then 7 else 6), clause := x.clause.map fun c => { c with next := c.cur } })
    (s.takeTrap k.gid k.gang.id r)

/-- R180, R301, R302, R354, R355: ERET once no flag of the handler stands, and HALT, which ends the launch with status 1 and its code. Under
mode 1 every saved nib has its saved stack and those of its saved threads that live, and the nibs that have any go on as one gang at the clause
after the one at which the trap was taken; under mode 0 a nib is as the saved snapshot records it and goes on at the region entry; the other gangs
go on. That a thread which exited in the handler stays exited is the model's reading (log 13). -/
def Obligations.EretAndHaltResults : Prop :=
  (∀ ua ub mode s k, s.Issues k [failIf (!k.g.h) 1 5, zeroChk 1 ua, zeroChk 2 ub, failIf (decide (1 < mode.toNat)) 2 3] →
    (k.g.handlerFlags = true → exec (.eret ua ub mode) s = .next (s.retry k)) ∧
    (k.g.handlerFlags = false → ∃ t, exec (.eret ua ub mode) s = .next t ∧ Became s k (k.g.eret mode.toNat s.turn) t)) ∧
  (∀ (g : Group) sv mode last, g.save = some sv → (g.eret mode last).h = false ∧ (g.eret mode last).save = none ∧
    (g.eret mode last).forms = sv.forms ∧ (g.eret mode last).v = g.v ∧ (g.eret mode last).p = g.p ∧ (g.eret mode last).xflg = g.xflg ∧
    (g.eret mode last).stack = g.stack ∧ (g.eret mode last).trpc = g.trpc ∧ (g.eret mode last).tcau = g.tcau ∧
    ∀ n, (g.eret mode last).sreg n = if g.quill = true ∧ n = 46 then sv.s46 else if g.quill = true ∧ n = 47 then sv.s47 else g.sreg n) ∧
  (∀ (g : Group) (sv : SaveArea) (last : Nat), g.save = some sv → (sv.nibs.map SnapNib.nib).Nodup → (∀ r ∈ sv.nibs, r.nib < g.nibs.length) →
    (let t := g.eret 1 last
     (∀ r ∈ sv.nibs, r.mask &&& (g.nib r.nib).liveMask ≠ 0 →
       t.nib r.nib = { g.nib r.nib with mask := r.mask &&& (g.nib r.nib).liveMask, stack := r.stack } ∧
       ∃ x ∈ t.gangs, r.nib ∈ x.nibs ∧ x.pc = (match sv.gang.clause with | some c => c.after | none => sv.gang.pc) ∧ x.clause = none ∧
         x.hold = .none ∧ x.snap = sv.snap.id ∧
         ∀ n, n ∈ x.nibs ↔ ∃ q ∈ sv.nibs, q.nib = n ∧ q.mask &&& (g.nib q.nib).liveMask ≠ 0) ∧
     (∀ n, n ∉ sv.nibs.map SnapNib.nib → t.nib n = g.nib n) ∧
     ∀ x ∈ g.gangs, x.nibs ≠ [] → (∀ n ∈ x.nibs, n ∉ sv.nibs.map SnapNib.nib) → x ∈ t.gangs)) ∧
  (∀ (g : Group) (sv : SaveArea) (last : Nat), g.save = some sv → (sv.nibs.map SnapNib.nib).Nodup → (∀ r ∈ sv.nibs, r.nib < g.nibs.length) →
    (sv.snap.nibs.map SnapNib.nib).Nodup → (∀ r ∈ sv.snap.nibs, r.pc = sv.snap.entry ∧ r.entry = sv.snap.entry) → (∀ k ∈ g.gangs, ∀ a n, k.hold ≠ .join a n) →
    (let t := g.eret 0 last
     ∀ q ∈ sv.nibs, ∀ r ∈ sv.snap.nibs, r.nib = q.nib →
       (let live := ({ g.nib q.nib with mask := q.mask &&& (g.nib q.nib).liveMask, stack := q.stack } : Nib).liveMask
        t.nib r.nib = { g.nib r.nib with
          mask := r.mask &&& live, stack := r.stack.map fun e => { e with mask := e.mask &&& live } } ∧
        (r.mask &&& live ≠ 0 → ∃ x ∈ t.gangs, r.nib ∈ x.nibs ∧ x.pc = sv.snap.entry ∧ x.clause = none ∧ x.hold = .none ∧
          x.snap = sv.snap.id)))) ∧
  ∀ ua code s k, s.Issues k [zeroChk 1 ua] → s.speculative k.g = false → (s.opsAll k.gid).filter s.isHeld = [] → k.g.failed = [] →
    exec (.halt ua code) s = .next (s.stopLaunch k.g.launch (1, 0, code.toNat))

/-- R37, R39: a word of zeros is ILL and a word of opcode 0x00 with other bits set is ILL with a code; both are the illegal-instruction fault,
detail 0, and so is a word that no entry of the opcode map gives a meaning to. -/
def Obligations.IllegalInstructions : Prop :=
  decode [0] = .ok (.ill, []) ∧ (∀ c : BitVec 24, c ≠ 0 → decode [(0 : Byte) ++ c] = .ok (.illCode c, [])) ∧
  (∀ s k, s.issuer = some k → exec .ill s = .next (s.trap k 1 0)) ∧
  (∀ c s k, s.issuer = some k → exec (.illCode c) s = .next (s.trap k 1 0)) ∧
  ∀ (s : State) (gid n : Nat) (g : Group) (k : Gang) (cl : ClauseBuf) (e : DecodeError),
    s.group gid = some g → g.gang n = some k → k.clause = some cl → g.budgetReady k = false →
    cl.formed = true ∨ badForm (g.forms.getD (hdrForm cl.hdr) 8).toNat = false → decode (cl.words.drop cl.next) = .error e →
    (let s1 := s.begin gid n (cl.words.drop (cl.next + 1))
     ∃ i, s1.issuer = some i ∧ s.issue gid n = .next (s1.trap i 1 0))

/-! ### The steps of the ordering machine -/

/-- R12, R21, R204, R348: the writeback of a finished long-latency result writes its registers and ORs its exception flags into XFLG, adds its
cost to the energy that its context and its cluster have used, ends the gang's hold on it, and clears the completion flags behind which no
result of their clauses is under way or still to issue; registers that it does not name stay. Where an instruction has changed a destination
since the result issued, each thread keeps that value or takes the result's, as a free value has it (R93, R248, log 121). That the flag of a
clause which is abandoned before its long-latency instruction has issued is clear is the model's choice (log 86): R12 and R21 tie a flag to a
result and are silent there. -/
def Obligations.WritebackDelivers : Prop :=
  (∀ (s : State) (gid cost : Nat) (g : Group), s.group gid = some g → ∃ h, (s.addEnergy gid cost).group gid = some h ∧
    h = { g with enrg := g.enrg + dword cost } ∧
    ∀ c, (s.addEnergy gid cost).cluster c =
      if c = g.core / 4 then { s.cluster c with clenrg := (s.cluster c).clenrg + dword cost } else s.cluster c) ∧
  (∀ s gid g l x ws, s.group gid = some g → g.longs.find? (fun y => y.id == l) = some x → x.kind.writes = some ws →
    exec (.longLatencyWriteback gid l) s = .next (((s.regWrites gid (ws.map (s.lateWrite g x))).addEnergy gid x.cost).modGroup gid fun h =>
      ({ h with longs := (h.longs.filter fun y => y.id ≠ l).map (LongOp.follow g h ws x)
                gangs := h.gangs.map fun k => if k.hold = .result l then { k with hold := .none } else k } : Group).settle)) ∧
  (∀ (s : State) (g : Group) (x : LongOp),
    (∀ n t v, s.lateWrite g x (.vec n t v) =
      .vec n t (if .vec n t (g.vreg n t) ∈ x.was ∨ Config.lateResult s.turn n t = true then v else g.vreg n t)) ∧
    (∀ n v, s.lateWrite g x (.sca n v) =
      .sca n (if .sca n (g.sreg n) ∈ x.was ∨ Config.lateResult s.turn (192 + n) 0 = true then v else g.sreg n)) ∧
    ∀ t f, s.lateWrite g x (.flags t f) = .flags t f) ∧
  (∀ (g h : Group) (ws : List RegWrite) (x y : LongOp), ∃ was, LongOp.follow g h ws x y = { y with was := was } ∧
    (y.seq ≤ x.seq → was = y.was) ∧ (x.seq < y.seq → ∀ n v w t, y.was = [.vec n t v] → ws = [.vec n t w] → was = [.vec n t (h.vreg n t)])) ∧
  (∀ (g : Group), g.settle = { g with raises := g.settle.raises } ∧
    (∀ j, g.settle.flagClear j = true ↔ ∀ r ∈ g.settle.raises, r.flag ≠ j) ∧
    ∀ r : Raise, r.clause ≠ 0 → (r ∈ g.settle.raises ↔ r ∈ g.raises ∧
      ((∃ l ∈ g.longs, l.clause = r.clause ∧ (r.second = true → l.ord = 2)) ∨
       ∃ k ∈ g.gangs, ∃ c, k.clause = some c ∧ c.serial = r.clause ∧ 0 < longsIn 8 (c.words.drop c.next) ∧ (r.second = true → c.longs < 2)))) ∧
  ∀ (s : State) (gid : Nat) (g : Group) (ws : List RegWrite), s.group gid = some g → g.partner = none →
    ∃ h, (s.regWrites gid ws).group gid = some h ∧ h = { g with v := h.v, s := h.s, xflg := h.xflg } ∧
      (∀ th, th < 64 → h.flagsOf th = ws.foldl (fun m w => match w with | .flags t f => if t = th then m ||| f else m | _ => m) (g.flagsOf th)) ∧
      (∀ n, h.sreg n = ((ws.filterMap fun w => match w with | .sca m v => if m = n then some v else none | _ => none).getLast?).getD (g.sreg n)) ∧
      ∀ n th, th < 64 → h.vreg n th = ((ws.filterMap fun w => match w with
        | .vec m u v => if m = n ∧ u = th then some v else none
        | _ => none).getLast?).getD (g.vreg n th)

/-- R11, R20 to R27, R35: CLAUSE_ISSUE of a clause whose words are all there, whose header is sound and whose flags are clear: its
region opens if it opens one, with a record of the gang's nibs, its flags are raised, and the gang executes it under the form that its
header names. While a flag that WAIT names is raised nothing happens, nor while the link to the peer that holds its words is shut (R117), nor in a slot while
a home does not hold their line (R111, R135). A header or a form that is not sound, and an address that is not canonical, is the fault the manual gives (which clause ERET's mode 1 then
skips: log 40). That the clause has the words that memory holds now is the model's choice (log 97), and so is that its flags are waited for
before its words are judged (log 116). Fetches by a predicted launch are left out. -/
def Obligations.ClauseIssueStep : Prop :=
  (∀ (s : State) (gid n : Nat) (g : Group) (k : Gang) (hdr : Word) (l0 ls : List Loc), s.group gid = some g → g.gang n = some k →
    k.clause = none → k.hold = .none → g.faultParked = false → g.offCore = false → g.presence = .here → s.speculative g = false →
    canonical k.pc.toNat = true →
    (let fn := s.fnOf g
     let pc := k.pc.toNat
     let wordOf (l : Loc) : Word := word (leVal ((List.range 4).map fun j => s.predGet none (s.func fn).owner (l.plus j)))
     s.fetchLocs g.core fn pc 1 = .ok l0 → l0.any s.locShut = false → l0.any (s.readRefused fn) = false → hdr = wordOf (l0.headD (.host 0)) →
     (g.flagsReady hdr = false → exec (.clauseIssue gid n) s = .next s) ∧
     (g.flagsReady hdr = true → g.trapsPending = false → s.fetchLocs g.core fn ((pc + 4) % 2 ^ 64) (hdrLen hdr) = .ok ls →
      ls.any s.locShut = false → ls.any (s.readRefused fn) = false →
      exec (.clauseIssue gid n) s = .next (match clauseBad hdr (ls.map wordOf) with
       | some c => s.headerTrap gid n g k.pc hdr 3 (c + 1)
       | none => if badForm (g.forms.getD (hdrForm hdr) 8).toNat then s.headerTrap gid n g k.pc hdr 2 5
           else ((s.cacheLookup g.core fn pc).cacheLookup g.core fn ((pc + 4 * hdrLen hdr) % 2 ^ 64)).beginClause gid n k.pc hdr
             (ls.map wordOf))))) ∧
  (∀ (s : State) (gid n : Nat) (g : Group) (k : Gang) (l0 : List Loc), s.group gid = some g → g.gang n = some k →
    canonical k.pc.toNat = true → s.fetchLocs g.core (s.fnOf g) k.pc.toNat 1 = .ok l0 → l0.any s.locShut = true → s.speculative g = false →
    exec (.clauseIssue gid n) s = .next s) ∧
  (∀ (s : State) (gid n : Nat) (g : Group) (k : Gang), s.group gid = some g → g.gang n = some k → k.clause = none → k.hold = .none →
    g.faultParked = false → g.offCore = false → g.presence = .here → canonical k.pc.toNat = false →
    exec (.clauseIssue gid n) s = .next (s.headerTrap gid n g k.pc 0 4 2)) ∧
  ∀ (s : State) (gid n : Nat) (g : Group) (k : Gang) (a : DWord) (hdr : Word) (words : List Word), s.group gid = some g →
    g.gang n = some k →
    ∃ h x c, (s.beginClause gid n a hdr words).group gid = some h ∧ h.gang n = some x ∧ x.clause = some c ∧ c.addr = a ∧ c.hdr = hdr ∧
      c.words = words ∧ c.next = 0 ∧ c.form = g.forms.getD (hdrForm hdr) 8 ∧ x.nibs = k.nibs ∧ h.v = g.v ∧ h.s = g.s ∧ h.p = g.p ∧
      (let fa := bitsOf hdr.toNat 19 16
       let fb := bitsOf hdr.toNat 15 12
       (0 < longsIn 8 words → (fa ≠ 15 → h.flagClear fa = false) ∧ (fb ≠ 15 → h.flagClear fb = false)) ∧
       ∀ j, j ≠ fa → j ≠ fb → h.flagClear j = false → g.flagClear j = false) ∧
      (s.opensRegion g a hdr = false → x.snap = k.snap ∧ h.snaps = g.snaps) ∧
      (s.opensRegion g a hdr = true → ∃ p ∈ h.snaps, p.id = x.snap ∧ p.entry = a ∧
        p.nibs = k.nibs.map fun j => ⟨j, a, a, (g.nib j).mask, (g.nib j).stack⟩)

/-- R58, R64, R104, R117, R125 to R127: START, SEND, ARRIVE, SERVE, LAND, RETIRE and PEER_REFUSAL, each where it is enabled. START goes through the
plans in order, and pauses at one for which the fault buffer has no entry; a request that paused because its walk failed anew is walked again
first, and waits on where there is still no entry. A request that arrives is refused where one of its sectors is,
performs at local storage and at the host, and waits at a home. That a request to the host performs in its ARRIVE step is the model's choice
(log 22), where R125 has it performed when the host performs it; so is that a peer's response waits for the link of its request (log 123).
The bytes of a read land in the operation's buffer, and those of a GATHER
in its registers: an element whole once all its bytes are there, else byte by byte. Whether a peer refuses is free (log 24). That an element
of a reducing copy which lies across two sectors is one request, combined whole and refused where either of its sectors is refused or
poisoned, is the model's reading (log 44). -/
def Obligations.EngineSteps : Prop :=
  (∀ s o x ps, s.canStart o = some (x, ps) → s.opTag x = none →
    (let again : State := (s.reqs.filter fun e => e.2.pausedIn o).foldl (fun s e => s.walkAgain e.1 x e.2 []) s
     ((∀ e ∈ s.reqs, e.2.pausedIn o = false) → again = s) ∧
     exec (.start o) s = .next (((again.modOp o fun y => { y with sh := match x.kind with
      | .shread .. => some (x.sh.getD ⟨[], [], [], [], false, []⟩)
      | _ => none }).addPlans o x none ps).dropLacking o))) ∧
  (∀ (s : State) (q : Nat) (x : EngOp) (r : Req) e, s.resolve x r.acc r = .error e → s.faultRoom r.op x r.dst (s.failures x r.acc r) = false →
    s.walkAgain q x r [] = s.modReq q fun r => { r with stage := .held [] }) ∧
  (∀ (s : State) (o : Nat) (x : EngOp) (p : Plan) (ps : List Plan) (s1 : State), s.addPlan o x none p = some s1 →
    s.addPlans o x none (p :: ps) = (s1.modOp o fun y => { y with made := y.made + 1 }).addPlans o x none ps) ∧
  (∀ (s : State) (o : Nat) (x : EngOp) (p : Plan) (ps : List Plan), s.addPlan o x none p = none → s.addPlans o x none (p :: ps) = s) ∧
  (∀ s q r, s.canSend q = some r →
    ((∀ p ∈ s.reqPorts r, (s.port p).paused = none) →
      exec (.send q) s = .next (s.modReq q fun r => { r with stage := .fabric, deferred := false })) ∧
    ∀ p, s.reqPorts r = [p] → (s.port p).paused ≠ none → exec (.send q) s =
      .next ((s.modReq q fun r => { r with stage := .fabric, deferred := false }).modPort p fun x => { x with heldFlits := x.heldFlits + 1 })) ∧
  (∀ s q r o a, s.canArrive q = some (r, o, .dpa a) → o.readsSheaf r = false → (devOf a = s.devnum ∨ s.peerRefuses a = false) →
    (o.dev = s.devnum ∨ s.inboundRefused r a = false) → (∀ f, r.farLoc = some f → s.sectorRefused r o f = false) →
    s.landingOf r o a = none →
    exec (.arrive q) s = .next (s.modReq q fun r => { r with stage := .queued, deferred := false })) ∧
  (∀ s q r o l, s.canArrive q = some (r, o, l) →
    (o.readsSheaf r = true → exec (.arrive q) s = .next (s.modReq q fun r => { r with stage := .queued, deferred := false })) ∧
    (o.readsSheaf r = false → s.sectorRefused r o l = true ∨ (∃ f, r.farLoc = some f ∧ s.sectorRefused r o f = true) →
      exec (.arrive q) s = .next (s.refuse q 5 0 0)) ∧
    (o.readsSheaf r = false → s.sectorRefused r o l = false → (∀ f, r.farLoc = some f → s.sectorRefused r o f = false) →
      (∀ p off, l = .place p off → exec (.arrive q) s =
        .next (if s.farPoisoned r = true then s.refuse q 5 0 0 else (s.useFar o r).perform q r o l)) ∧
      ∀ a, l = .host a → exec (.arrive q) s =
        .next (if s.farPoisoned r = true then s.refuse q 5 0 0 else ((s.useFar o r).perform q r o l).notePosted r o))) ∧
  (∀ s q r o a, s.canServe q = some (r, o, a) → r.handle = 0 → r.tag = none →
    exec (.serve q) s = .next (if s.reqPoisoned r a = true then s.refuse q 5 0 0 else (s.useLines o r a).perform q r o (.dpa a))) ∧
  (∀ s q r a, KMap.get s.reqs q = some r → r.loc = some (.dpa a) → s.linkOut a = true → exec (.land q) s = .next s) ∧
  (∀ s q r o bs, KMap.get s.reqs q = some r → r.stage = .answered bs → KMap.get s.ops r.op = some o → s.answerOut r = false →
    o.dev = s.devnum → r.gen ≠ (s.func o.fn).gen →
    exec (.land q) s = .next (s.modReq q fun r => { r with stage := .done, deferred := false })) ∧
  (∀ s q r o bs ty opc x y rep n th b h es, KMap.get s.reqs q = some r → r.stage = .answered bs → KMap.get s.ops r.op = some o →
    s.answerOut r = false →
    r.gen = (s.func o.fn).gen → r.kind = .rmw th b opc x y rep → o.kind = .atom (some n) ty opc h es →
    exec (.land q) s = .next ((s.modReq q fun r => { r with stage := .done, deferred := false }).regWrites o.gid
      (vecWrites b (.vec n) th (leVal bs)))) ∧
  (∀ s q r o bs ps, KMap.get s.reqs q = some r → r.stage = .answered bs → KMap.get s.ops r.op = some o → s.answerOut r = false →
    o.dev ≠ s.devnum ∨ r.gen = (s.func o.fn).gen → r.kind = .read ps → Mem.wf o.buf = true →
    ∃ u o1, KMap.get u.ops r.op = some o1 ∧ o1 = { o with buf := o1.buf, have_ := o.have_ ++ ps.map Prod.snd } ∧
      u = { s.modReq q (fun r => { r with stage := .done, deferred := false }) with ops := u.ops } ∧
      (∀ x, x ≠ r.op → KMap.get u.ops x = KMap.get s.ops x) ∧
      (∀ j, Mem.get o1.buf j = ((ps.reverse.find? fun p => p.2 == j).map fun p => bs.getD p.1 0).getD (Mem.get o.buf j)) ∧
      (∀ n ty es, o.kind = .gather n ty es →
        exec (.land q) s = .next (u.landGather o.gid n ty o1.have_ o1.buf (ps.map Prod.snd))) ∧
      ((∀ n ty es, o.kind ≠ .gather n ty es) → (∀ ws, o.kind ≠ .flush ws) → exec (.land q) s = .next u)) ∧
  (∀ (s : State) (gid n : Nat) (ty : EType) (got : List Nat) (buf : Mem) (keys : List Nat) (th : Nat), keys ≠ [] →
    (∀ j ∈ keys, j / 8 = th) → (s.group gid).isSome = true →
    ((∀ j < elemBytes ty, 8 * th + j ∈ got) →
      s.landGather gid n ty got buf keys = s.regWrites gid (vecWrites ty (.vec n) th (leVal (Mem.read buf (8 * th) (elemBytes ty))))) ∧
    ∀ g j, s.group gid = some g → keys = [8 * th + j] → j < 8 → (∃ i < elemBytes ty, 8 * th + i ∉ got) →
      s.landGather gid n ty got buf keys = s.regWrite gid (.vec (n + j / 4) th
        (word (setBits (g.vreg (n + j / 4) th).toNat (8 * (j % 4) + 7) (8 * (j % 4)) (Mem.get buf (8 * th + j)).toNat)))) ∧
  (∀ s gid c o x r, s.opsOf gid c = o :: r → KMap.get s.ops o = some x → s.opOver o x = true → x.failed = none → x.sh = none →
    (∀ e, x.kind ≠ .seal e ∧ x.kind ≠ .abort e) → (∀ t f b m u j ac fl, x.kind ≠ .mloop t f b m u j ac fl) →
    ∃ t, exec (.retire gid c) s = .next t ∧
      t = { s with ops := t.ops, reqs := t.reqs, faults := t.faults, sheaves := t.sheaves, groups := t.groups, clusters := t.clusters } ∧
      KMap.get t.ops o = none ∧ (∀ p, p ≠ o → KMap.get t.ops p = KMap.get s.ops p) ∧
      (t.opsOf gid c).length < (s.opsOf gid c).length ∧
      ∀ g y, s.group g = some y → t.group g = some (if g = gid
        then { y with enrg := y.enrg + dword x.cost, gangs := y.gangs.map fun k => match k.hold with
          | .park (.counter c' m) cont => if c' = c ∧ t.counter gid c ≤ m then { k with hold := .park .ready cont } else k
          | _ => k }
        else y)) ∧
  ∀ s q r a, KMap.get s.reqs q = some r → r.loc = some (.dpa a) → devOf a ≠ s.devnum → s.linkOut a = false → r.stage = .fabric ∨ r.stage = .queued →
    exec (.peerRefusal q) s = .next (s.refuse q 5 0 0)

/-- R6, R125, R151: what is performed at a place of record: a read answers with the bytes there, and in plain memory it changes none; a write,
with no ductus of any queue open, stores exactly its bytes, in plain memory under its owner, in local storage and in host memory: the bytes
that it carries, or those that its operation's buffer holds; an atomic computes the manual's function of the old value. -/
def Obligations.HomePerforms : Prop :=
  (∀ (s : State) (q : Nat) (r : Req) (o : EngOp) (a : Nat) (ps : List (Nat × Nat)), r.kind = .read ps → r.tag = none →
    SameBytes s (s.perform q r o (.dpa a))) ∧
  (∀ (s : State) (q : Nat) (r : Req) (o : EngOp) (l : Loc) (ps : List (Nat × Nat)), r.kind = .read ps → r.tag = none →
    (∀ i < r.len, s.freedAt (l.plus i) = none) → s.perform q r o l = s.modReq q fun r =>
      { r with stage := .answered ((List.range r.len).map fun i => s.locGet r.owner (l.plus i)), deferred := false }) ∧
  (∀ (s : State) (q : Nat) (r : Req) (o : EngOp) (a : Nat) (bs : List (Nat × Byte)), Carries r o bs → r.tag = none → s.MemOk →
    (∀ x ∈ s.allQueues, x.2.2.ductus = none) → (∀ e ∈ bs, s.inSheafRegion (a + e.1) = false) → s.lineTag (a / 128) = s.tagOf (devOf a) r.owner →
    (∀ e ∈ bs, (a + e.1) / 128 = a / 128) →
    (let t := s.perform q r o (.dpa a)
     ∀ x, s.inSheafRegion x = false →
      t.memGet r.owner x = ((bs.reverse.find? fun e => a + e.1 == x).map Prod.snd).getD (s.memGet r.owner x))) ∧
  (∀ (s : State) (q : Nat) (r : Req) (o : EngOp) (bs : List (Nat × Byte)), Carries r o bs → r.tag = none → s.MemOk →
    (∀ x ∈ s.allQueues, x.2.2.ductus = none) →
    (∀ a, (let t := s.perform q r o (.host a)
      ∀ x, Mem.get t.host x = ((bs.reverse.find? fun e => a + e.1 == x).map Prod.snd).getD (Mem.get s.host x))) ∧
    ∀ p off, PlaceIn s p → (∀ e ∈ bs, off + e.1 < placeSize p) → (let t := s.perform q r o (.place p off)
      ∀ x, x < placeSize p → t.placeGet p x =
        ((bs.reverse.find? fun e => off + e.1 == x).map Prod.snd).getD (s.placeGet p x))) ∧
  ∀ ty opc old x y, atomTy opc ty = true → isInt ty = true → old < 2 ^ widthOf ty → x < 2 ^ widthOf ty → y < 2 ^ widthOf ty →
    atomF ty opc old x y = match opc with
      | 0 => wrap ty (val ty old + val ty x)
      | 1 => wrap ty (min (val ty old) (val ty x))
      | 2 => wrap ty (max (val ty old) (val ty x))
      | 3 => (bits ty old &&& bits ty x).toNat
      | 4 => (bits ty old ||| bits ty x).toNat
      | 5 => (bits ty old ^^^ bits ty x).toNat
      | 6 => x
      | _ => if old = x then y else old

/-- R65, R107, R141, R142, R166, R168, R384: PF, PREAD, PWRITE, PROMOTE and DISCARD, each where it is enabled: in a slot an uncached line waits for
its end; a poisoned line is not brought in, and a request that reads one is refused; a write without room stalls the gang that issued it.
PROMOTE writes the bytes of a version, and no other, into its line's current slot, and frees it; DISCARD frees it alone.
Whether a version way is free is free (log 18). -/
def Obligations.SpeculativeSteps : Prop :=
  (∀ s fn line, fn < 16 → line < prefBound → exec (.pf (prefName fn line)) s = .next (
    if s.hbmShut (line * 128) = true then s.holdStep ⟨.pf (prefName fn line), 0, []⟩
    else if s.poisoned (line * 128) = true then s else s.cacheLine fn (line * 128))) ∧
  (∀ s q r o a, s.canServe q = some (r, o, a) → r.tag ≠ none → r.handle = 0 → r.kind.writes = false →
    exec (.pread q) s = .next (if s.reqPoisoned r a = true then s.refuse q 5 0 0 else (s.useLines o r a).perform q r o (.dpa a))) ∧
  (∀ s q r o a d j, s.canServe q = some (r, o, a) → r.tag = some (d, j) → r.handle = 0 → r.kind.writes = true →
    exec (.pwrite q) s = .next (if s.reqPoisoned r a = true then s.refuse q 5 0 0 else if s.reqRoom r o d j a = true then ((s.useLines o r a).perform q r o (.dpa a)).freeIssuer o
      else s.stallIssuer o 10)) ∧
  (∀ s d j home, s.mayPromote d j = true → ∃ t, exec (.promote d j home) s = .next t ∧
    ∀ v ∈ t.versions, ¬(v.duc = d ∧ v.k = j ∧ t.homeOf v.fn (v.line * 128) = home)) ∧
  (∀ s d j home v, s.mayPromote d j = true → (s.versions.filter fun w => w.duc == d && w.k == j && s.homeOf w.fn (w.line * 128) == home) = [v] →
    Mem.wf s.mem = true → s.shlo % 128 = 0 → s.shhi % 128 = 0 → (∀ b ∈ v.bytes, b.1 < 128) →
    ∃ t, exec (.promote d j home) s = .next t ∧
     (let o := (s.func v.fn).owner
      t.lineTag v.line = s.tagOf (devOf (v.line * 128)) o ∧
      (∀ i, i < 128 → Mem.get t.mem (s.slotAddr true (v.line * 128 + i)) =
        ((v.bytes.reverse.find? fun b => b.1 == i).map Prod.snd).getD (s.memGet o (v.line * 128 + i))) ∧
      ∀ x, (∀ i, i < 128 → x ≠ s.slotAddr true (v.line * 128 + i)) → Mem.get t.mem x = Mem.get s.mem x)) ∧
  ∀ s d j home, s.mayDiscard d j = true → ∃ t, exec (.discard d j home) s = .next t ∧ t = { s with versions := t.versions } ∧
    SameBytes s t ∧ ∀ v, v ∈ t.versions ↔ v ∈ s.versions ∧ ¬(v.duc = d ∧ v.k = j ∧ s.homeOf v.fn (v.line * 128) = home)

/-- R139, R140, R157, R161 to R164: SWRITE to a pending version, where a byte that two elements write counts once (log 108: the model's
choice); the manifest write, SEAL, where the manifest line takes EXT and LINE 0 (log 110: the model's choice), and ABORT at one home;
SDFREE, which leaves a name alone while its entry is open, seals or aborts (log 85: R157 says open), waits for lines and links that a slot
keeps from it, and else clears the sidecars of the members and of the directory line, and the directory line; SHREAD's look at a line, its
listing of a companion, and its fetch of a retained copy: of another version or state the group restarts, of the right one the copy is kept,
and the comparison delivers the group's version once every source line has its data. -/
def Obligations.SheafAndShreadSteps : Prop :=
  ((∀ s q r o a i e, s.canServe q = some (r, o, a) → r.handle ≠ 0 → s.sheafOf r.handle = some (i, e) → s.inSheafRegion a = true →
     (bitsOf (s.sidecar a 0) 31 0 = 0 ∨ bitsOf (s.sidecar a 0) 31 0 = e.name) →
     (let s1 := s.openPending r.owner a i e.serial
      let s2 : State := { s1 with sheaves := KMap.adjust s1.sheaves i fun e =>
        { e with lines := if e.lines.contains (a / 128) then e.lines else e.lines ++ [a / 128] } }
      (∀ bs, r.kind = .store bs → exec (.swrite q) s =
        .next ((s2.pendingWrite a bs).modReq q fun r => { r with stage := .done, deferred := false })) ∧
      ∀ ps, r.kind = .write ps → exec (.swrite q) s =
        .next (((s2.pendingWrite a (ps.map fun p => (p.1, Mem.get o.buf p.2))).countBytes o (nubBy (ps.map Prod.fst)).length).modReq q
          fun r => { r with stage := .done, deferred := false }))) ∧
   (∀ s x e, KMap.get s.sheaves x = some e → e.closing = true → e.aborting = false → e.sent = false → s.writesOver e = true →
     s.closed = false → e.broken = false → exec (.sealManifestWrite x) s = .next (
       let s1 := (s.openPending (s.func e.fn).owner e.man x e.serial).pendingWrite e.man
         ((List.range 128).map fun j => (j, e.manifest.getD j 0))
       { s1 with sheaves := KMap.adjust s1.sheaves x fun e => { e with sent := true, homes := s.sheafHomes e } })) ∧
   (∀ s x e home, KMap.get s.sheaves x = some e → e.sent = true → e.aborting = false → home ∈ e.homes →
     s.homeShut home ((s.sealMembers e home).map Prod.fst ++ if s.homeOf e.fn e.man = home then [e.man] else []) = false →
     exec (.seal x home) s = .next (
       let s1 := (s.sealMembers e home).foldl (fun s m => (s.sealLine x e m.1 m.2.1 m.2.2).touch none (.dpa m.1)) s
       (if s.homeOf e.fn e.man = home then (s1.sealLine x e e.man 0 0).touch none (.dpa e.man) else s1).homeDone x home)) ∧
   (∀ s x e0 home, KMap.get s.sheaves x = some e0 → (let e := s.abortEntry e0
     let as := (e.lines.map (· * 128)).filter fun a => s.homeOf e.fn a == home
     e.closing = true → e.aborting = true → s.writesOver e = true → home ∈ e.homes → s.homeShut home (as ++ [e.man]) = false →
     exec (.abort x home) s = .next (({ (as.filter fun a => s.pendingOf a x e.serial).foldl
       (fun s a => s.putSidecar a 2 (setBits (s.sidecar a 2) 19 18 0)) s with sheaves := KMap.put s.sheaves x e } : State).homeDone x home))) ∧
   ∀ s fn name, ((s.func fn).sdsize = 0 ∨ name = 0 ∨ (s.manifestOf fn name).2.1 ≠ name ∨ s.nameBusy fn name = true →
       exec (.sdfree fn name) s = .next s) ∧
     ((s.func fn).sdsize ≠ 0 → name ≠ 0 → (s.manifestOf fn name).2.1 = name → s.nameBusy fn name = false →
      (let d := s.dirLine fn name
       let ls := (s.members fn (s.manifestOf fn name).1).map Prod.fst
       ((∃ a ∈ ls ++ [d], s.hbmShut a = true ∨ s.linkShut a = true) →
         exec (.sdfree fn name) s = .next (s.holdStep ⟨.sdfree fn name, 0, []⟩)) ∧
       ((∀ a ∈ ls ++ [d], s.hbmShut a = false ∧ s.linkShut a = false) →
        (ls = [] → s.inSheafRegion d = false → exec (.sdfree fn name) s =
          .next ((s.memWrite (s.func fn).owner d (List.replicate 128 0)).touchLines [(d, 0)])) ∧
        (s.MemOk → s.inSheafRegion d = true → s.shlo % 128 = 0 → s.shhi % 128 = 0 → ∃ t, exec (.sdfree fn name) s = .next t ∧
          (∀ a ∈ ls ++ [d], s.inSheafRegion a = true → ∀ w, w < 4 → t.sidecar a w = 0) ∧
          t.memRead (s.func fn).owner d 128 = List.replicate 128 0 ∧
          ∀ x, (∀ a ∈ ls ++ [d], x < s.sidecarAt a ∨ s.sidecarAt a + 32 ≤ x) → (x < d ∨ d + 128 ≤ x) →
            Mem.get t.mem x = Mem.get s.mem x))))) ∧
  (∀ s op o line q r p a, KMap.get s.ops op = some o → s.shReq op line = some (q, r) → o.sh = some p →
    (p.lines.any fun x => x.source && x.addr == line) = false → r.loc = some (.dpa a) → s.hbmShut a = false → s.peerPauses a = false →
    (s.inSlotNow && s.inChaff r.tag (a / 128)) = false → exec (.shreadLook op line) s = .next (
      if s.shRefused a = true then s.refuse q 5 0 0 else if s.inSheafRegion a = true ∧ bitsOf (s.sidecar a 0) 31 0 ≠ 0 then
        (s.cacheLine o.fn a).modSh op fun p => { p with lines := p.lines ++ [⟨line, true, bitsOf (s.sidecar a 0) 63 32, bitsOf (s.sidecar a 0) 31 0,
          bitsOf (s.sidecar a 1) 59 7 * 128, s.lineState a, s.reqRead r (.dpa a) 128, none⟩] }
      else ((s.cacheLine o.fn a).shDeliver q r (s.reqRead r (.dpa a) 128)).modSh op fun p =>
        { p with plain := true, lines := p.lines ++ [⟨line, true, 0, 0, 0, 0, [], none⟩] })) ∧
  (∀ s op line o p man, KMap.get s.ops op = some o → o.sh = some p → s.shLooked op p = true →
    s.shAsked op (line * 128) none = true → s.hbmShut (line * 128) = false → s.peerPauses (line * 128) = false → p.openGroups.find? (fun m => (s.shToList o.fn p m).contains line) = some man →
    (s.shRefused (line * 128) = true → (line = man / 128 ∧ s.inSlotNow = true → s.inChaff (s.opTag o) line = false) → exec (.shreadList op line) s = .next (s.shGroupRefused op man p)) ∧
    (s.shRefused (line * 128) = false → s.opTag o = none →
     (let a := line * 128
      let seen : Seen := ⟨line, false, bitsOf (s.sidecar a 0) 63 32, 1, man, s.lineState a,
       if line = man / 128 then s.memRead (s.func o.fn).owner a 128 else [], none⟩
      let s1 := (s.cacheLine o.fn a).modSh op fun p => { p with lines := p.lines ++ [seen] }
      exec (.shreadList op line) s = .next (
       if s1.shToList o.fn { p with lines := p.lines ++ [seen] } man = [] then s1.shCompare op man else s1)))) ∧
  (∀ s op line o q r p x a, KMap.get s.ops op = some o → s.shReq op line = some (q, r) → o.sh = some p → r.loc = some (.dpa a) →
    p.lines.find? (fun x => x.source && x.addr == line && x.name != 0) = some x → x.man ∈ p.openGroups →
    s.shToList o.fn p x.man = [] → s.shLooked op p = true → x.got = none → s.shAsked op a (some (line * 128)) = true →
    (if s.lineState a = 3 then s.hbmShut a else s.altShut a) = false → s.peerPauses a = false →
    (x.ver ≠ p.lowest x.man + 1 → exec (.shreadFetch op line) s = .next s) ∧
    (x.ver = p.lowest x.man + 1 → s.shRefused a = false →
     (bitsOf (s.sidecar a 0) 63 32 ≠ x.ver ∨ (s.lineState a ≠ 1 ∧ s.lineState a ≠ 3)) →
     exec (.shreadFetch op line) s = .next (s.shRestart op x.man p)) ∧
    (x.ver = p.lowest x.man + 1 → s.shRefused a = true → exec (.shreadFetch op line) s = .next (s.shGroupRefused op x.man p)) ∧
    (x.ver = p.lowest x.man + 1 → s.shRefused a = false → bitsOf (s.sidecar a 0) 63 32 = x.ver →
     s.lineState a = 1 ∨ s.lineState a = 3 → s.lineTag (a / 128) = s.tagOf (devOf a) r.owner →
     exec (.shreadFetch op line) s = .next (((if s.lineState a = 3 then s.cacheLine o.fn a else s.cacheAlternate a).modSh op fun p => { p with lines := p.lines.map fun y =>
       if y.source = true ∧ y.addr = line then
         { y with got := some ((List.range 128).map fun j => Mem.get s.mem (s.slotAddr (s.lineState a == 3) (a + j))) }
       else y }).shCompare op x.man))) ∧
  (∀ (s : State) (op man : Nat) (o : EngOp) (p : ShProg), KMap.get s.ops op = some o → o.sh = some p → (let v := p.lowest man
    let seen := p.lines.filter fun x => x.name != 0 && x.man == man
    ((∃ x ∈ seen, v + 1 < x.ver) → s.shCompare op man = s.shRestart op man p) ∧
    ((∀ x ∈ seen, x.ver ≤ v + 1) → (∃ x ∈ seen, x.source = true ∧ x.ver = v + 1 ∧ x.got = none) → s.shCompare op man = s) ∧
    ((∀ x ∈ seen, x.ver ≤ v + 1) → (∀ x ∈ seen, x.source = true → x.ver = v + 1 → x.got ≠ none) →
     s.shCompare op man = ((s.shGroup op p man).foldl (fun s e => s.shDeliver e.1 e.2.1 (e.2.2.got.getD e.2.2.data)) s).modSh op fun p =>
       { p with delivered := KMap.put p.delivered man v }))) ∧
  ∀ (s : State) (q : Nat) (r : Req) (o : EngOp) (ps : List (Nat × Nat)) (bs : List Byte), r.kind = .read ps → KMap.get s.ops r.op = some o →
    Mem.wf o.buf = true → ∃ o1, KMap.get (s.shDeliver q r bs).ops r.op = some o1 ∧
    o1 = { o with buf := o1.buf, have_ := o.have_ ++ ps.map Prod.snd } ∧
    s.shDeliver q r bs = { s.modReq q (fun r => { r with stage := .done, deferred := false }) with ops := (s.shDeliver q r bs).ops } ∧
    ∀ j, Mem.get o1.buf j = ((ps.reverse.find? fun p => p.2 == j).map fun p => bs.getD p.1 0).getD (Mem.get o.buf j)

/-- R79, R81, R84, R175, R184, R188, R234, R244, R274, R290, R293, R338, R339: MATRIX_STEP, REGISTER_LINE_FILL, REGGET_GRANT, REORD_COMPLETE,
PARK_REACTIVATE and GROUP_RETIRE, each where it is enabled. A group retires with the partner it is paired with, once both have ended; the last of
a team on a core stops the quill context there, and the last of a team retires the team. The unit first fetches a line of the fragment that is not present. A REORD of
one participant moves each thread's registers of the blocks that its mask names, its predicates, its flags and its liveness to its place
in the order of R190. A launch's ender, by which the decrement of
R338 is ordered (R339, log 103), is the sub-core of the group that retires. A register line that was written back comes from its image, any other as the
group has it (log 69). Who takes part in a REORD, and whose live mask it moves, are the model's reading
(log 25, 26). -/
def Obligations.GroupSteps : Prop :=
  (∀ s u id o tg g fr b m te j ac fl t0, s.unitOp u = some (id, o, tg, g) → o.kind = .mloop t0 fr b m te j ac fl →
    s.fragAbsent tg g fr b.regs = [] → exec (.matrixStep u) s = .next (match s.matCompute g b m te j (if j = 0 then g.fragment b fr else ac) with
      | .error d => s.failOp id 0x0D d j
      | .ok (acc, f) => (s.writeFragment tg b fr acc).modOp id fun o =>
          { o with kind := .mloop tg fr b m te (j + 1) acc ((List.range 64).map fun r => fl.getD r 0 ||| f.getD r 0) })) ∧
  (∀ s u id o tg g fr n w, s.unitOp u = some (id, o, tg, g) → o.kind = .mzero fr n w → s.fragAbsent tg g fr n = [] → ∃ t, exec (.matrixStep u) s = .next t ∧
    ∃ h, t.group tg = some h ∧ ∀ r th, th < 64 → h.vreg r th = if fr ≤ r ∧ r < fr + n then 0 else g.vreg r th) ∧
  (∀ s u id o tg g fr n l r, s.unitOp u = some (id, o, tg, g) →
    ((∃ w, o.kind = .mzero fr n w) ∨ ∃ t0 b m te j ac fl, o.kind = .mloop t0 fr b m te j ac fl ∧ b.regs = n) →
    s.fragAbsent tg g fr n = l :: r → exec (.matrixStep u) s = .next (s.fillLine tg l)) ∧
  (∀ s gid line g im, s.group gid = some g → KMap.get s.images gid = some im → g.quill = false → g.presence = .here →
    g.hasLine line = true → s.lineHere gid g line = false →
    (s.hbmShut (s.lineAt g im line) = true → exec (.registerLineFill gid line) s = .next s) ∧
    (s.hbmShut (s.lineAt g im line) = false → (s.unitLines g.cacheUnit).length < Config.registerLines →
     ∃ t h, exec (.registerLineFill gid line) s = .next t ∧ t.group gid = some h ∧ t.lineHere gid h line = true ∧
      (line ∉ im.back → t = { s with regLines := t.regLines } ∧ h = g) ∧
      (line ∈ im.back → h = g.setLine line ((s.cacheLine (s.fnOf g) (s.lineAt g im line)).memRead
        (s.func (s.fnOf g)).owner (s.lineAt g im line) 128)))) ∧
  (∀ s gid line g, s.group gid = some g → g.quill = true ∨ KMap.get s.images gid = none ∨ s.lineHere gid g line = true →
    exec (.registerLineFill gid line) s = .next s) ∧
  (∀ s u gid n d want r i, s.reggetWaiters u = (gid, n, d, want) :: r → blockCount want ≤ s.blocksFree (u / 8) (u % 8) →
    s.issuerAt gid n = some i → exec (.reggetGrant u) s = .next (s.grantBlocks i d want)) ∧
  (∀ s gid g mask keys, s.group gid = some g → s.reordParties g = [(gid, g)] → g.reordHold = some (mask, keys) →
    s.reordQuiet gid g = true → g.presence = .here →
    ∃ t, exec (.reordComplete gid) s = .next t ∧ InContexts s t (· = gid) ∧ ∃ h from_, t.group gid = some h ∧ Reordered g keys from_ ∧
      (∀ n th, th < 64 → h.vreg n th = if n < 192 ∧ mask.getLsbD (n / 8) = true then g.vreg n (from_ th) else g.vreg n th) ∧
      (∀ n th, n < 8 → th < 64 → (h.pred n).getLsbD th = (g.pred n).getLsbD (from_ th)) ∧
      ∀ th, th < 64 → h.flagsOf th = g.flagsOf (from_ th) ∧ h.liveAll.getLsbD th = g.liveAll.getLsbD (from_ th) ∧
        h.launched.getLsbD th = g.launched.getLsbD (from_ th)) ∧
  (∀ s gid n g k cont, s.group gid = some g → g.presence = .here → g.gang n = some k → k.hold = .park .ready cont →
    exec (.parkReactivate gid n) s = .next (s.setGroup gid (g.modGang n fun k =>
      { k with hold := .none, pc := cont, clause := none }))) ∧
  (∀ s gid n g k b c cont, s.group gid = some g → g.presence = .here → g.gang n = some k → k.hold = .park (.met b) cont →
    barCode b = some c → ∃ t h, exec (.parkReactivate gid n) s = .next t ∧ t = s.setGroup gid h ∧
      h = { g with nibs := h.nibs, gangs := (g.modGang n fun k => { k with hold := .none, pc := cont, clause := none }).gangs } ∧
      ∀ j < g.nibs.length, h.nib j = if j < 4 ∧ j ∈ k.nibs
        then { g.nib j with phase := (g.nib j).phase ^^^ (1#32 <<< c.bit) } else g.nib j) ∧
  (∀ s gid g, s.group gid = some g → (∀ e ∈ s.retiring gid g, s.mayRetire e.1 e.2 = true) → g.quill = true →
    ∃ t, exec (.groupRetire gid) s = .next t ∧ t = { s with groups := t.groups, faults := t.faults, bars := t.bars } ∧
      ∀ e, e ∈ t.groups ↔ e ∈ s.groups ∧ e.1 ∉ (s.retiring gid g).map Prod.fst) ∧
  (∀ s gid g, s.group gid = some g → (∃ e ∈ s.retiring gid g, s.mayRetire e.1 e.2 = false) → exec (.groupRetire gid) s = .next s) ∧
  (∀ (s : State) (gid : Nat) (g : Group) (p : Nat) (x : Group), s.group gid = some g → g.partner = some p → s.group p = some x → p ≠ gid → (p, x) ∈ s.retiring gid g) ∧
  ∀ s gid g, s.group gid = some g → g.quill = false → (∀ e ∈ s.retiring gid g, s.mayRetire e.1 e.2 = true) →
    (let gone := (s.retiring gid g).map Prod.fst
     ∃ t, exec (.groupRetire gid) s = .next t ∧ (∀ m ∈ gone, t.group m = none) ∧
      (∀ m y, m ∉ gone → s.group m = some y → y.quill = false ∨ y.team ≠ g.team → t.group m = some y) ∧
      KMap.get t.reserve (8 * g.core + g.sub) = some false ∧ t.mem = s.mem ∧ t.scratch = s.scratch ∧ t.host = s.host ∧
      ((∃ e ∈ s.groups, e.1 ∉ gone ∧ e.2.quill = false ∧ e.2.team = g.team ∧ e.2.core = g.core) →
        t = { s with groups := t.groups, faults := t.faults, bars := t.bars, reserve := t.reserve, launches := t.launches } ∧
        t.groups = s.groups.filter fun e => !gone.contains e.1) ∧
      ((∀ e ∈ s.groups, e.1 ∉ gone → e.2.quill = false → e.2.team = g.team → e.2.core ≠ g.core) →
        ∀ m y, m ∉ gone → s.group m = some y → y.quill = true → y.team = g.team → y.core = g.core →
          t.group m = some { y with gangs := [], ended := true, stopped := true, faultParked := false }) ∧
      ((∀ e ∈ s.groups, e.1 ∉ gone → e.2.quill = false → e.2.team ≠ g.team) → KMap.get t.teams g.team = none ∧
        ∀ l, KMap.get s.launches g.launch = some l → ∃ y, KMap.get t.launches g.launch = some y ∧ y.retired = l.retired + 1 ∧
          y.ender = g.issuer ∧ (l.next = l.teams → (∀ e ∈ s.teams, e.1 ≠ g.team → e.2.launch ≠ g.launch) → y.ready = true)))

/-! ### Calendar, power, admission -/

/-- R108 to R114, R135, R343, R386: DRAIN_WINDOW_CLOSE, SLOT_START, SLOT_END and CALENDAR_OVERRUN, each where it is due with one slot at a time,
and the expiry of a cooldown. The end of a slot puts the requests that it set aside and the late seal and abort steps before all others; the end
of an extended slot raises the calendar fault and writes its record; the end of a sweep reads every core's temperature and droop, and steps
HOT, the cool-down timers and the power factor. What of a slot is unfinished and how long an extension is (log 27), and what the sensors read
(log 10), is free. -/
def Obligations.CalendarSteps : Prop :=
  (∀ s k start, s.slots = [] → nextSlot s.caln = (k, start) → start ≤ s.caln + 600 →
    (let x : Slot := ⟨k, start, start + Config.slotLength k, none, false⟩
     exec .drainWindowClose s = .next (({ s with slots := [x], closed := true } : State).sendPauses x) ∧
     (k ≠ .calibration → exec .drainWindowClose s = .next { s with slots := [x], closed := true }))) ∧
  (∀ s x, s.slots = [x] → x.on = false → x.start ≤ s.caln →
    exec .slotStart s = .next (({ s with slots := [{ x with on := true }] } : State).deferAll x.kind x.start) ∧
    ((∀ e ∈ s.reqs, s.inFlight e.2 = false) → (∀ e ∈ s.sheaves, s.untaken e.2 = [] ∧ e.2.late = []) →
      exec .slotStart s = .next { s with slots := [{ x with on := true }] })) ∧
  (∀ s x, s.slots = [x] → x.on = true → x.stop ≤ s.caln → x.ext = none →
    ∃ t, exec .slotEnd s = .next t ∧ t.slots = [] ∧ t.closed = false ∧ (∀ e ∈ t.reqs, e.2.deferred = false) ∧ t.heldSteps = s.heldSteps ∧
      t.agenda = ((s.reqs.filter fun e => e.2.deferred).flatMap fun e => s.openSteps e.1 e.2) ++
        (s.sheaves.flatMap fun e => e.2.late.map fun h => if e.2.aborting then Instr.abort e.1 h else .seal e.1 h) ++ s.agenda) ∧
  (∀ s x left, s.slots = [x] → x.on = true → x.stop ≤ s.caln → x.ext = some left →
    exec .slotEnd s = .next (let used := x.stop - (x.start + Config.slotLength x.kind)
      let at_ := match x.kind with | .refresh => 0 | .sweep => 1 | .calibration => 2
      let s1 := ({ s with slots := [], irqs := s.irqs ++ [.calendarFault]
                          remainder := if used = Config.slotLength x.kind then KMap.put s.remainder at_ left
                            else KMap.del s.remainder at_ } : State).clog [x.start, 2 * 2 ^ 56 + (at_ + 1) * 2 ^ 48 + used % 2 ^ 32, left, 0]
      if x.kind = .sweep ∨ (x.kind = .calibration ∧ nextStart .sweep x.start < x.start + Config.slotLength .calibration)
        then s1.sweepEnd.openAll else s1.openAll)) ∧
  (∀ s x, s.slots = [x] → x.on = true → x.stop ≤ s.caln → x.ext = none → x.kind = .sweep →
    exec .slotEnd s = .next ({ s with slots := [], remainder := KMap.del s.remainder 1 } : State).sweepEnd.openAll) ∧
  (∀ s : State, (let t := s.sweepEnd
    t = { s with cores := t.cores, factor := t.factor, sweeps := s.sweeps + 1 } ∧
    (∀ core, core < 192 → (let c := s.coreReg core
      let temp := Config.sensorTemp core s.sweeps % 256
      let droop := Config.sensorDroop core s.sweeps % 256
      let spent := c.cool.any fun e => decide (e ≤ s.caln)
      let cool := if spent then none else c.cool
      t.coreReg core =
        if c.tth < temp ∨ c.dth < droop then { c with temp := temp, droop := droop, hot := true, cool := none }
        else if c.hot = true ∧ spent = false then
          { c with temp := temp, droop := droop, hot := true
                   cool := if temp + 4 ≤ c.tth ∧ droop + 8 ≤ c.dth then some (cool.getD (s.caln + 128000)) else none }
        else { c with temp := temp, droop := droop, hot := false, cool := cool })) ∧
    (∀ core, 192 ≤ core → t.coreReg core = s.coreReg core) ∧
    t.factor = (let p := Config.modulePower s.sweeps
      if s.mpl < p then max (s.factor - 1) 2 else if 100 * p < 95 * s.mpl then min (s.factor + 1) 8 else s.factor))) ∧
  (∀ s x n, s.slots = [x] → x.on = true → x.stop ≤ s.caln → x.ext = none → n ≠ 0 →
    ∃ used, 0 < used ∧ used ≤ Config.slotLength x.kind ∧
      exec (.calendarOverrun n) s = .next { s with slots := [{ x with stop := x.stop + used, ext := some n }] }) ∧
  ∀ s core at_, (s.coreReg core).cool = some at_ → at_ ≤ s.caln → ∃ t, exec (.cooldownExpiry core) s = .next t ∧
    t = { s with cores := t.cores } ∧ t.coreReg core = { s.coreReg core with hot := false, cool := none } ∧
    ∀ c, c ≠ core → t.coreReg c = s.coreReg c

/-- R78, R331 to R336, R344, R349, R386: BUDGET_EXPIRY, BUDGET_TRAP, CLUSTER_CLOCK_GATE, CLUSTER_RESUME and ADMISSION, each where it is
enabled; a gang held in DQPOP takes the trap in the step in which its budget expires; no engine admits a team while the function's context region holds no image
or while the inlet is hot (that a region of less than 64 KiB holds none is the model's choice, which gives images in units of 64 KiB: log 84); a job that was passed over 16
times and could fit is the only one that the engine may admit. -/
def Obligations.BudgetAndAdmissionSteps : Prop :=
  (∀ s slice x, KMap.get s.slices slice = some x → x.budget ≠ 0 → x.left = 0 →
    ∃ t0 : State, t0 = { s with slices := t0.slices, groups := t0.groups } ∧ KMap.get t0.slices slice = some { x with left := x.budget } ∧
     (∀ g y, s.group g = some y →
      t0.group g = some (if y.slice = slice ∧ y.ended = false then { y with budgetDue := true } else y)) ∧
     (let pops := s.groups.flatMap fun e => if e.2.slice = slice then e.2.gangs.filterMap fun k =>
        match k.hold with | .dqpop _ => some (e.1, k.id) | _ => none else []
      (pops = [] → exec (.budgetExpiry slice) s = .next t0) ∧
      ∀ gid n, pops = [(gid, n)] → exec (.budgetExpiry slice) s = exec (.budgetTrap gid n) t0)) ∧
  (∀ s gid n g k, s.group gid = some g → g.gang n = some k → g.budgetReady k = true → s.speculative g = false →
    exec (.budgetTrap gid n) s = .next ((s.modGroup gid fun g => { g with budgetDue := false }).takeTrap gid n
      ⟨0x0F, 0, 0, g.active k, k.nextPc⟩)) ∧
  (∀ (g : Group) (k : Gang), g.budgetReady k = true ↔ g.budgetDue = true ∧ g.h = false ∧ g.faultParked = false ∧ g.offCore = false ∧
    g.presence = .here ∧ (k.hold = .none ∨ k.hold = .retry ∨ ∃ d, k.hold = .dqpop d)) ∧
  (∀ s cl, 64 ≤ (s.cluster cl).idle → (s.cluster cl).gated = false → s.clusterSteps cl = false →
    exec (.clusterClockGate cl) s = .next (s.modCluster cl fun c => { c with gated := true })) ∧
  (∀ s cl, s.resumeNext = some cl → s.window = s.caln / 16 →
    (s.admitted < 8 → exec (.clusterResume cl) s = .next { s.modCluster cl fun c => { c with gated := false, wanted := false, idle := 0 }
      with lastC := cl, window := s.caln / 16, admitted := s.admitted + 1 }) ∧
    (8 ≤ s.admitted → exec (.clusterResume cl) s = .next s)) ∧
  (∀ s die lid l ps r, s.hotInlet = false → s.islands.contains die = true → s.readyQueue (s.islandPart die) = (lid, l) :: r →
    (∀ e ∈ r, s.passCount die e.1 < 16) → s.claim die l = ps → ps ≠ [] →
    exec (.admission die) s = .next ((s.setPass die lid 0).admitClaim lid l ps)) ∧
  (∀ s die lid l lid' l', s.readyQueue (s.islandPart die) = [(lid, l), (lid', l')] → s.passCount die lid < 16 →
    16 ≤ s.passCount die lid' → s.fitsIdle die l' = true → s.claim die l' = [] → exec (.admission die) s = .next s) ∧
  (∀ s die lid l, s.readyQueue (s.islandPart die) = [(lid, l)] → (s.func l.fn).ctxSize < 65536 → exec (.admission die) s = .next s) ∧
  ∀ s die, s.hotInlet = true → exec (.admission die) s = .next s

/-! ### Faults, invalidation, routines -/

/-- R54, R56, R61 to R63, R68, R69, R152, R153, R375, R380: a fault record is written whole at FQTAIL, which advances; a full queue sets OVF and the
record waits (where FQTAIL is not below 2^SIZE, or FQBASE is not aligned to the queue, the place of the record is the model's choice: log 125); replays walk every held entry, or the one whose record carries SEQ. INVALIDATE_ALL and INVALIDATE_RANGE drop the
translations that they cover and wait for the accesses that used one; the completion; the check of a routine table, which MEAS3 takes when
the check ends, with an error or without (R380, log 99); and the return of a context that R68 switched out. -/
def Obligations.FaultAndInvalidationSteps : Prop :=
  ((∀ s fn k e, s.unrecorded fn = some (k, e) → (s.func fn).fqEn = true →
     (let f := s.func fn
      let size := 2 ^ f.fqSize
      ((f.fqTail + 1) % size = f.fqHead % size → exec (.faultRecordWrite fn) s = .next (s.modFunc fn fun f => { f with fqOvf := true })) ∧
      ((f.fqTail + 1) % size ≠ f.fqHead % size →
       (let at_ := s.localLocOf fn (bitsOf f.fqbase.toNat 47 6 * 64 + 64 * f.fqTail)
        let bs := (s.faultRecord e f.nextSeq).flatMap fun w => leBytes w 8
        let s1 := (s.poke f.owner at_ ((List.range 64).map fun j => (j, bs.getD j 0))).touch none at_
        let s2 := ({ s1 with faults := KMap.adjust s1.faults k fun e => { e with seq := some f.nextSeq } } : State).modFunc fn fun f =>
         { f with fqTail := (f.fqTail + 1) % size, nextSeq := (f.nextSeq + 1) % 2 ^ 32 }
        exec (.faultRecordWrite fn) s = .next (if f.fqIrq then { s2 with irqs := s2.irqs ++ [.fault fn] } else s2))))) ∧
   (∀ s fn, s.enabled = true → s.behindWindow = false →
     exec (.replayAll fn) s = .next (((s.faults.filter fun e => e.2.fn == fn).map Prod.fst).foldl State.replayEntry s)) ∧
   (∀ s fn seq, s.enabled = true → s.behindWindow = false → (∀ e ∈ s.faults, e.2.fn = fn → e.2.seq ≠ some seq) →
     exec (.replaySeq fn seq) s = .next s) ∧
   ∀ s fn seq f e r, s.enabled = true → s.behindWindow = false → s.faults = (f, e) :: r → e.fn = fn → e.seq = some seq →
     exec (.replaySeq fn seq) s = .next (s.replayEntry f)) ∧
  (∀ fn seq pages, ∀ i ∈ ([.replayAll fn, .replaySeq fn seq, .invalidateAll fn, .invalidateRange fn pages] : List Instr), ∀ s,
    s.behindWindow = true → exec i s = .next (s.holdStep ⟨i, 0, []⟩)) ∧
  (∀ fn pages, ∀ e ∈ ([(.invalidateAll fn, false), (.invalidateRange fn pages, true)] : List (Instr × Bool)), ∀ s,
    s.enabled = true → s.behindWindow = false →
    (s.func fn).invBusy = false → ∃ t, exec e.1 s = .next t ∧ t = { s with funcs := t.funcs, tlb := t.tlb } ∧
      (t.func fn).invBusy = true ∧ (t.func fn).invRange = e.2 ∧
      (t.func fn).invPages = (if e.2 then pages else (s.func fn).invPages) % 2 ^ 32 ∧
      (∀ x ∈ t.tlb, x.fn = fn → (t.func fn).covers x.vpn x.bits = false) ∧
      (∀ x ∈ s.tlb, x.fn ≠ fn → x ∈ t.tlb) ∧ ∀ f, f ≠ fn → t.func f = s.func f) ∧
  (∀ s fn, s.invDone fn = true → exec (.invalidationComplete fn) s =
    .next ((s.dropTlb fn).modFunc fn fun f => { f with invBusy := false, invOps := [] })) ∧
  (∀ s fn, s.enabled = true → (s.func fn).aptBusy = false →
    exec (.routineTableInstall fn) s = .next (s.modFunc fn fun f => { f with aptBusy := true })) ∧
  (∀ s fn, (s.func fn).aptBusy = true → ∃ t, exec (.routineTableInstallDone fn) s = .next t ∧
    t = { s with routines := t.routines, funcs := t.funcs, meas := t.meas } ∧ (t.func fn).aptBusy = false ∧
    t.measure 3 = sha512 (s.measure 3 ++ sha512 (s.tableBytes fn)) ∧
    (∀ k < 256, (s.tableEntry fn k).1 = true →
      ((s.func fn).owner, k, (⟨(s.tableEntry fn k).2.1, (s.tableEntry fn k).2.2⟩ : Routine)) ∈ t.routines) ∧
    ((t.func fn).aptErr = true ↔ (s.func fn).aptErr = true ∨ ∃ k < 256, (s.tableEntry fn k).1 = true ∧ (s.tableEntry fn k).2.1 = false)) ∧
  ∀ s fn, (s.func fn).saved.auto = true → (s.func fn).ctxGo = false → s.rdy fn = true → s.returnFits fn = true → s.leavers fn = [] →
    exec (.contextAutoReturn fn) s = .next (s.switchedIn fn)

/-! ### The command front end -/

/-- R306 to R312, R327, R330, R338: a doorbell, a write of QCTL for a queue without a ductus, a read of QSTAT, the arrival of a command,
the commands LAUNCH, COPY, SIGNAL and WAIT where they run without a failure, the polls and the timeout of a WAIT, DUCTUS-READ, the
completion record of a command that is over, and the end of a task's launch: with status 0 the step of R300 on an entry that is still RUNNING,
or STAT 7 where that step would fault, and nothing on one that is not (a TASKDONE has made it DONE, or a TASKQ has taken it since); with status
2 the record in TFAIL, and the entry DONE if it is still RUNNING. Where QHEAD is not below 2^SIZE, or QBASE is not aligned to the queue, the
place of the slot is the model's choice (log 147). -/
def Obligations.CommandSteps : Prop :=
  ((∀ s fn q v, s.enabled = true →
     exec (.queueDoorbell fn q v) s = .next (s.modQueue fn q fun x => { x with qtail := v % 2 ^ x.size })) ∧
   (∀ s fn q v, s.enabled = true → (s.queue fn q).ductus = none → exec (.qctlWrite fn q v) s = .next (s.modQueue fn q fun x =>
     { x with inf := v.testBit 24, depth := min 16 (bitsOf v 20 16), en := v.testBit 8
              size := if 4 ≤ bitsOf v 4 0 ∧ bitsOf v 4 0 ≤ 16 then bitsOf v 4 0 else x.size })) ∧
   (∀ s fn q, s.enabled = true →
     exec (.qstatRead fn q) s = .next (({ s with hostRead := leBytes (s.qstat fn q) 8 } : State).modQueue fn q fun x =>
     { x with ferr := false, clost := false })) ∧
   (∀ fn q v, ∀ i ∈ ([.queueDoorbell fn q v, .qctlWrite fn q v, .qstatRead fn q, .commandArrival fn q] : List Instr), ∀ s,
     s.enabled = false → exec i s = .next s) ∧
   (∀ s fn q, (s.queue fn q).en = true → s.enabled = true →
     (s.queue fn q).qhead % 2 ^ (s.queue fn q).size ≠ (s.queue fn q).qtail % 2 ^ (s.queue fn q).size →
     (s.queue fn q).arrived = [] ∨ (s.queue fn q).compared = true → s.behindWindow = false →
     (s.queue fn q).starts = false →
     (let y := s.queue fn q
      let a := bitsOf y.qbase.toNat 47 7 * 128 + 128 * y.qhead
      (s.fetchFails fn a = true → y.ductus = none →
       exec (.commandArrival fn q) s = .next (({ s with irqs := s.irqs ++ [.queueError fn] } : State).modQueue fn q
        fun x => { x with en := false, ferr := true })) ∧
      (s.fetchFails fn a = false → s.locShut (s.localLocOf fn a) = false →
       ∃ t, ∃ cmd : Cmd, exec (.commandArrival fn q) s = .next t ∧ cmd.length = 16 ∧
       (∀ k < 16, (Cmd.word cmd k).toNat = leVal (((s.peek (s.func fn).owner (s.localLocOf fn a) 128).drop (8 * k)).take 8)) ∧
       t.queue fn q = { y with qhead := (y.qhead + 1) % 2 ^ y.size, arrived := y.arrived ++ [cmd], compared := false }))) ∧
   (∀ (s : State) (fn a : Nat), s.ringOk fn a = false → s.fetchFails fn a = true) ∧
   (∀ s fn q c r, (s.queue fn q).head = some c → Cmd.kind c = 1 → s.queueLaunches fn q = [] → Cmd.bad c (s.func fn) = none →
     s.virtShut fn (Cmd.recordAt c (s.func fn)).toNat 0 256 = false → s.readRecord none fn (Cmd.recordAt c (s.func fn)) (Cmd.tgrp c) (Cmd.teams c) = .ok r →
     exec (.launch fn q) s = .next ((s.startLaunch (.queue fn q) fn r ((List.range 12).map fun i => Cmd.arg c i) (Cmd.tag c) (Cmd.word c 1)
       (Cmd.teams c) none 0).take fn q c fun y => { y with launchId := some s.nextLaunch })) ∧
   (∀ s fn q c, (s.queue fn q).head = some c → Cmd.kind c = 2 → Cmd.bad c (s.func fn) = none → KMap.get s.ops s.nextOp = none →
     ∃ t x, exec (.copyCommand fn q) s = .next t ∧ t = { s with ops := t.ops, nextOp := s.nextOp + 1, funcs := t.funcs } ∧
       KMap.get t.ops s.nextOp = some x ∧ x.cls = .copy ∧ x.fn = fn ∧ x.started = false ∧
       x.kind = (if (Cmd.blk c).op = .copyr then .copyr (Cmd.blk c) else .copy (Cmd.blk c)) ∧
       t.queue fn q = { s.queue fn q with arrived := (s.queue fn q).arrived.drop 1, current := some c, opId := some s.nextOp }) ∧
   (∀ s fn q c a l, (s.queue fn q).head = some c → Cmd.kind c = 3 → Cmd.bad c (s.func fn) = none → s.translate fn (Cmd.w c 2) 2 = .ok a →
     s.locOf fn a = .dpa l → s.readRefused fn (.dpa l) = false → s.locShut (.dpa l) = false → s.closed = false →
     exec (.signalCommand fn q) s = .next (
       let new := leBytes (signalF (bitsOf (Cmd.w c 4) 1 0) (leVal (s.peek (s.func fn).owner (.dpa l) 8)) (Cmd.w c 3)) 8
       let s1 := (s.poke (s.func fn).owner (.dpa l) ((List.range 8).map fun j => (j, new.getD j 0))).touch none (.dpa l)
       (if (Cmd.w c 4).testBit 7 then { s1 with irqs := s1.irqs ++ [.signal fn] } else s1).take fn q c fun y =>
         { y with outcome := some (0, 0, 0) })) ∧
   ∀ s fn q c, (s.queue fn q).head = some c → Cmd.kind c = 4 → Cmd.bad c (s.func fn) = none →
     exec (.waitCommand fn q) s = .next (s.take fn q c fun y =>
       { y with wait := some ⟨false, Cmd.word c 2, Cmd.word c 3, bitsOf (Cmd.w c 4) 1 0, bitsOf (Cmd.w c 4) 63 32, s.caln⟩ })) ∧
  (∀ s fn q w, (s.queue fn q).wait = some w → w.hit = true → exec (.waitPollRead fn q) s = .next (s.waitEnds fn q (0, 0, 0))) ∧
  (∀ s fn q w a l, (s.queue fn q).wait = some w → s.translate fn w.addr.toNat 0 = .ok a → s.locOf fn a = l → s.readRefused fn l = false →
    s.locShut l = false → w.holds (leVal (s.peek (s.func fn).owner l 8)) = true →
    exec (.waitPollRead fn q) s = .next (s.waitEnds fn q (0, 0, 0))) ∧
  (∀ s fn q w, (s.queue fn q).wait = some w → w.hit = false →
    (w.timeout ≠ 0 → w.since + 1000 * w.timeout ≤ s.caln → exec (.waitTimeout fn q) s = .next (s.waitEnds fn q (6, 0, 0))) ∧
    (w.timeout = 0 ∨ s.caln < w.since + 1000 * w.timeout → exec (.waitTimeout fn q) s = .next s)) ∧
  (∀ s fn q c a l, (s.queue fn q).arrived.getLast? = some c → Cmd.kind c = 5 → (s.queue fn q).compared = false →
    Cmd.bad c (s.func fn) = none → s.translate fn (Cmd.w c 2) 1 = .ok a → s.locOf fn a = l → (∀ x ∈ l.span 256, s.locShut x = false) →
    s.locRefused fn l = false → exec (.ductusRead fn q) s = .next (((s.poke (s.func fn).owner l
      ((List.range 256).map fun j => (j, (s.ductusRecord fn q).getD j 0))).touchSpan none l 256).modQueue fn q fun y =>
        { y with arrived := y.arrived.dropLast, compared := true, records := y.records ++ [(c, 0, 0, 0)] })) ∧
  (∀ (s : State) (fn q : Nat), (∀ x, (s.queue fn q).ductus = some x → x.rules.length = 12) → (s.ductusRecord fn q).length = 256) ∧
  (∀ s fn q c o, (s.queue fn q).records = [] → (s.queue fn q).current = some c → (s.queue fn q).launchId = none →
    s.commandDone (s.queue fn q) = some o → s.virtShut fn (Cmd.w c 1) 1 16 = false →
    exec (.completionRecordWrite fn q) s = .next ((s.writeRecord fn q c o).modQueue fn q fun y =>
      { y with current := none, launchId := none, opId := none, outcome := none })) ∧
  (∀ (s : State) (fn q : Nat) (c : Cmd) (o : Nat × Nat × Nat) (a : Nat), Cmd.w c 1 ≠ 0 → misaligned (Cmd.word c 1) 16 = false →
    s.translate fn (Cmd.w c 1) 1 = .ok a →
    s.locRefused fn (s.locOf fn a) = false →
    s.writeRecord fn q c o = (
      let bs := leBytes (Cmd.tag c * 2 ^ 32 + o.2.2 % 65536 * 2 ^ 16 + o.2.1 % 256 * 2 ^ 8 + o.1 % 256) 8 ++ leBytes s.caln 8
      (s.poke (s.func fn).owner (s.locOf fn a) ((List.range 16).map fun j => (j, bs.getD j 0))).touch none (s.locOf fn a))) ∧
  (∀ s l x fn n, KMap.get s.launches l = some x → x.job = .task fn n → s.launchOver l x = true → x.status = some (2, 0, 0) →
    ∃ t, exec (.taskLaunchEnd l) s = .next t ∧ KMap.get t.launches l = none ∧
      (t.func fn).tfail = dword (2 ^ 63 + 2 * 2 ^ 16 + n) ∧ .taskFailure fn ∈ t.irqs ∧
      (∀ m, m ≠ n → (t.func fn).task m = (s.func fn).task m) ∧
      (((s.func fn).task n).use ≠ x.use ∨ ((s.func fn).task n).st = .done → (t.func fn).task n = (s.func fn).task n) ∧
      (((s.func fn).task n).use = x.use → ((s.func fn).task n).st = .running →
        (t.func fn).task n = { (s.func fn).task n with st := .done, ctr := 0 })) ∧
  ∀ s l x fn n, KMap.get s.launches l = some x → x.job = .task fn n → s.launchOver l x = true →
    x.status = none ∨ (∃ c i, x.status = some (0, c, i)) →
    (let gone : State := { s with
       launches := KMap.del s.launches l, bars := s.bars.filter fun b => !b.1.of [] [] [l], passed := s.passed.filter fun p => p.2.1 != l }
     let e := (s.func fn).task n
     let slots (m : Nat) : Nat := (e.succ.filter (· == m)).length
     (e.st ≠ .running ∨ e.use ≠ x.use → exec (.taskLaunchEnd l) s = .next gone) ∧
     (e.st = .running → e.use = x.use → (∃ m ∈ e.succ, ((s.func fn).task m).ctr < slots m) → ∃ t, exec (.taskLaunchEnd l) s = .next t ∧
       t = { gone with funcs := t.funcs, irqs := s.irqs ++ [.taskFailure fn] } ∧ (t.func fn).tfail = dword (2 ^ 63 + 7 * 2 ^ 16 + n) ∧
       (t.func fn).task n = { e with st := .done, ctr := 0 } ∧ ∀ m, m ≠ n → (t.func fn).task m = (s.func fn).task m) ∧
     (e.st = .running → e.use = x.use → (∀ m ∈ e.succ, slots m ≤ ((s.func fn).task m).ctr) → n ∉ e.succ → ∃ t, exec (.taskLaunchEnd l) s = .next t ∧
       gone.taskDone fn n = .ok t ∧ (t.func fn).task n = { e with st := .done, ctr := 0 } ∧
       ∀ m, m ≠ n → ((t.func fn).task m).ctr = ((s.func fn).task m).ctr - slots m ∧
         (0 < ((s.func fn).task m).ctr - slots m ∨ slots m = 0 → ((t.func fn).task m).st = ((s.func fn).task m).st)))

/-- R315 to R322: PREDICTION_COMPARE, PREDICTION_START, LAUNCH_PROMOTION and CUT_OVER: a run of LAUNCH commands that fits forms a ductus,
a matching command confirms the oldest prediction, and a prediction starts, outside a slot, under the values that the rules give, unless a
command was there to arrive first. A DUCTUS-READ is not compared. -/
def Obligations.PredictionSteps : Prop :=
  (∀ s fn q c, (s.queue fn q).arrived.getLast? = some c → Cmd.kind c = 5 → exec (.predictionCompare fn q) s = .next s) ∧
  (∀ s fn q c, (s.queue fn q).arrived.getLast? = some c → Cmd.kind c ≠ 5 → (s.queue fn q).compared = false → (s.queue fn q).ductus = none →
    (s.queue fn q).inf = false ∨ rulesOf (extendRun (s.queue fn q).run c) = none →
    ∃ t, exec (.predictionCompare fn q) s = .next t ∧ t = { s with funcs := t.funcs } ∧
      t.queue fn q = { s.queue fn q with compared := true, run := extendRun (s.queue fn q).run c }) ∧
  (∀ s fn q c rs, (s.queue fn q).arrived.getLast? = some c → Cmd.kind c ≠ 5 → (s.queue fn q).compared = false → (s.queue fn q).ductus = none →
    (s.queue fn q).inf = true → rulesOf (extendRun (s.queue fn q).run c) = some rs →
    ∃ t x, exec (.predictionCompare fn q) s = .next t ∧ (t.queue fn q).ductus = some x ∧ x.open_ = true ∧ x.rules = rs ∧
      x.template = c ∧ x.nextK = (extendRun (s.queue fn q).run c).length ∧ x.conf = 0) ∧
  (∀ s fn q c x l k r, (s.queue fn q).arrived.getLast? = some c → Cmd.kind c ≠ 5 → (s.queue fn q).compared = false → (s.queue fn q).ductus = some x →
    x.open_ = true → s.openPreds x.d = (l, k) :: r → x.matches k (s.func fn) c = true →
    ∃ t, exec (.predictionCompare fn q) s = .next t ∧ t = { s with funcs := t.funcs, launches := t.launches } ∧
      KMap.get t.launches l = (KMap.get s.launches l).map fun y =>
        { y with tag := Cmd.tag c, caddr := Cmd.word c 1, pred := y.pred.map fun p => { p with confirmed := true } }) ∧
  (∀ s fn q y x r key, s.queue fn q = y → y.ductus = some x → s.mayPredict fn q y x = true → s.enabled = true → s.inSlotNow = false →
    y.starts = true ∨ y.pending = false →
    (let c := x.command x.nextK
     Cmd.bad c (s.func fn) = none →
     ∀ a, s.translate fn (Cmd.recordAt c (s.func fn)).toNat 0 = .ok a → (s.locOf fn a).watchKey s.devnum = some key →
     s.watchRoom x.d [key] = true → s.readRecord (some (x.d, x.nextK)) fn (Cmd.recordAt c (s.func fn)) (Cmd.tgrp c) (Cmd.teams c) = .ok r →
     ∃ t l, exec (.predictionStart fn q) s = .next t ∧ KMap.get t.launches s.nextLaunch = some l ∧ t.nextLaunch = s.nextLaunch + 1 ∧
      l.record = r ∧ l.job = .queue fn q ∧ l.teams = Cmd.teams c ∧ l.pred = some ⟨x.d, x.nextK, false, false, false⟩ ∧
      l.args = (List.range 12).map fun i => Cmd.arg c i)) ∧
  (∀ s fn q l x p, s.queueLaunches fn q = [(l, x)] → x.pred = some p → p.promoted = false → p.cutting = false →
    s.launchQuiet l x = true → s.mayPromote p.duc p.k = true → exec (.launchPromotion fn q) s = .next (s.promoteNext l p.duc p.k)) ∧
  ∀ s l x p, KMap.get s.launches l = some x → x.pred = some p →
    (p.cutting = false → s.mayCut l p = true →
      exec (.cutOver l) s = .next (s.modLaunch l fun x => { x with pred := x.pred.map fun p => { p with cutting := true } })) ∧
    (p.cutting = true → s.mayPromote p.duc p.k = true → exec (.cutOver l) s = .next (s.promoteNext l p.duc p.k))

/-- R316, R317: whatever rules a run of LAUNCH commands is found to follow, they give back every argument of every launch of the run. -/
def Obligations.RulesGiveBackTheRun : Prop :=
  ∀ (run : List Cmd) (rs : List ArgRule) (k i : Nat) (c : Cmd), rulesOf run = some rs → run[k]? = some c →
    (∀ x ∈ run, Cmd.argc x = Cmd.argc c) → i < Cmd.argc c → ∃ r, rs[i]? = some r ∧ r.at k = Cmd.arg c i

/-! ### Contexts -/

/-- R68, R69, R78, R359, R362 to R365: switching out; steps 4 and 5 of a switch out, with what each field of an image is saved as (log 69:
which value stands for a field is in part the model's reading), where no ductus stands whose predictions the writes of the images could refute;
switching in where RDY is 1 and where it is 0, and a remove, which ends every launch of the function with status 1 and CODE 0xFFFF. -/
def Obligations.ContextSteps : Prop :=
  (∀ s fn, (s.func fn).ctxGo = false → exec (.contextSwitchOut fn) s = .next ((s.leave fn fun _ => true).modFunc fn fun f =>
    { f with ctxGo := true, ctxOp := 1, saved := { f.saved with auto := false } })) ∧
  (∀ s fn, (s.func fn).ctxGo = true → (s.func fn).ctxOp = 1 → (s.leavers fn).all s.drained = true →
    ∃ t, exec (.switchOutComplete fn) s = .next t ∧ (t.func fn).saved.out = true ∧ (t.func fn).ctxGo = false ∧
      ((∀ q ∈ s.allQueues, q.2.2.ductus = none) → (∀ g x y, s.group g = some x → t.group g = some y →
        y = if s.fnOf x = fn ∧ x.presence = .leaving then { x.reactivateAll with presence := .away } else x) ∧
      ∀ g x m, s.leavers fn = [(g, x)] → KMap.get s.groups g = some x → KMap.get s.images g = some m →
        KMap.get t.images g =
          some { m with saved := imageFields.map (s.imageValue g { x.reactivateAll with presence := .away }) })) ∧
  (∀ s fn, ¬((s.func fn).ctxGo = true ∧ (s.func fn).ctxOp ≠ 2) →
    (s.rdy fn = false → exec (.contextSwitchIn fn) s = .next (s.modFunc fn fun f => { f with ctxGo := false, ctxOp := 2 })) ∧
    (s.rdy fn = true → s.returnFits fn = true → s.leavers fn = [] →
      exec (.contextSwitchIn fn) s = .next ((s.switchedIn fn).modFunc fn fun f => { f with ctxOp := 2 }))) ∧
  ∀ s fn, (s.func fn).ctxGo = false → ∃ t, exec (.functionRemove fn) s = .next t ∧
    (∀ l x, KMap.get t.launches l = some x → x.fn = fn → x.status.isSome = true) ∧
    (∀ l x y, KMap.get s.launches l = some x → x.fn = fn → x.status = none →
      KMap.get t.launches l = some y → y.status = some (1, 0, 0xFFFF)) ∧
    ∀ g x y, KMap.get t.groups g = some x → KMap.get s.launches x.launch = some y → y.fn = fn → x.ended = true

/-- R360, R361, R370, R371: a service request is posted at SRTAIL and its context parks off-core; its reply rewrites the block, and a
reply for an entry that waits for none sets ERR; a reset of a function takes its launches away and advances its generation, and is
complete when nothing that the old generation sent is abroad. -/
def Obligations.ServiceAndResetSteps : Prop :=
  (∀ s gid g k blk code, s.group gid = some g → g.caller = some (k, blk, code) → g.presence = .here →
    (let fn := s.fnOf g
     let f := s.func fn
     let size := 2 ^ f.srSize
     let mask := g.active k
     let at_ := s.ringEntry fn f.srTail
     let bs := ((List.range 40).map fun j => (j, (s.serviceHeader fn g mask blk code).getD j 0)) ++ g.blockBytes mask blk
     let s1 := ((s.poke f.owner at_ bs).touchSpan none at_ 0x900).modFunc fn fun x =>
      { x with srTail := (x.srTail + 1) % size, srSeq := (x.srSeq + 1) % 2 ^ 32
               services := KMap.put x.services f.srSeq ⟨f.srTail, gid, k.id, mask, blk, f.gen, false⟩ }
     let s2 : State := if f.srIrq then { s1 with irqs := s1.irqs ++ [.service fn] } else s1
     ((f.srTail + 1) % size = f.srHead % size → exec (.serviceRequestPost gid) s = .next s) ∧
     ((f.srTail + 1) % size ≠ f.srHead % size → exec (.serviceRequestPost gid) s = .next (s2.modGroup gid fun g =>
      ({ g with offCore := true } : Group).modGang k.id fun k => { k with hold := .offCore f.srTail blk })))) ∧
  (∀ s fn idx, (∀ e ∈ (s.func fn).services, e.2.idx = idx → e.2.replied = true) →
    exec (.serviceReply fn idx) s = .next (s.modFunc fn fun x => { x with srErr := true })) ∧
  (∀ s fn idx key v g, (s.func fn).services = [(key, v)] → v.idx = idx → v.replied = false → s.group v.gid = some g →
    g.presence = .here → g.partner = none → (∀ tm, KMap.get s.teams g.team = some tm → tm.queueOf g.core = []) →
    ∃ t h, exec (.serviceReply fn idx) s = .next t ∧ t = { s with groups := t.groups, funcs := t.funcs } ∧ t.group v.gid = some h ∧
      h.offCore = false ∧ (t.func fn).services = [] ∧
      (∀ n, v.blk = .sca n → ∀ j, h.sreg j = if n ≤ j ∧ j < n + 8
        then dword (leVal (s.peek (s.func fn).owner ((s.ringEntry fn idx).plus (0x100 + 8 * (j - n))) 8)) else g.sreg j) ∧
      (∀ n, v.blk = .vec n → ∀ j th, th < 64 → h.vreg j th = if n ≤ j ∧ j < n + 8 ∧ v.mask.getLsbD th = true
        then word (leVal (s.peek (s.func fn).owner ((s.ringEntry fn idx).plus (0x100 + 32 * th + 4 * (j - n))) 4)) else g.vreg j th)) ∧
  (∀ s fn, ∃ t, exec (.functionReset fn) s = .next t ∧ (t.func fn).gen = ((s.func fn).gen + 1) % 256 ∧
    (t.func fn).owner = (s.func fn).owner ∧ (t.func fn).resetting = some s.caln ∧ (t.func fn).ttbase = 0 ∧
    (∀ e ∈ t.launches, e.2.fn ≠ fn) ∧ ∀ e ∈ t.faults, e.2.fn ≠ fn) ∧
  ∀ s fn at_, (s.func fn).resetting = some at_ → (∀ e ∈ s.reqs, e.2.abroad = false) →
    ∃ t, exec (.functionResetComplete fn) s = .next t ∧ (t.func fn).resetting = none

/-- R341, R342, R373, R374: the steps of a class change; the record and the interrupt of a collective stall (word 0 of the record is free,
log 32), and the withdrawal of a member. -/
def Obligations.ClassAndCollectiveSteps : Prop :=
  (∀ s cl v, (s.cluster cl).chg = false → ∃ t, exec (.classChangeRequest cl v) s = .next t ∧ t = { s with clusters := t.clusters } ∧
    t.cluster cl = (if v % 4 = (s.cluster cl).cur then { s.cluster cl with cls := v % 4 }
      else { s.cluster cl with cls := v % 4, chg := true, moved := false })) ∧
  (∀ s cl, (s.cluster cl).chg = true → (s.cluster cl).moved = false →
    ((∃ e ∈ s.groups, e.2.core / 4 = cl ∧ e.2.presence ≠ .away) → exec (.operatingPointMove cl) s = .next s) ∧
    ((∀ e ∈ s.groups, e.2.core / 4 ≠ cl) → exec (.operatingPointMove cl) s = .next (s.modCluster cl fun c =>
      { c with moved := true, vstep := s.classSteps.getD c.cls 9 }))) ∧
  (∀ s cl, (s.cluster cl).chg = true → (s.cluster cl).moved = true → exec (.classChangeComplete cl) s = .next (s.modCluster cl fun c =>
    { c with cur := c.cls, chg := false, moved := false })) ∧
  (∀ s c fn, s.stalledSectors c fn = true → ∃ w u, exec (.collectiveStall c fn) s = .next u ∧
    (let n := (s.landing.filter fun e => e.2 == (c, fn)).length + (s.landWait.filter fun e => e.2.1 == c && e.2.2.1 == fn).length
     let s1 := s.clog [w, 3 * 2 ^ 56 + n % 2 ^ 32, c * 2 ^ 52 + fn * 2 ^ 48, 0]
     u = { s1 with landWait := s1.landWait.map fun e => (e.1, if e.2.1 = c ∧ e.2.2.1 = fn then (c, fn, none) else e.2)
                   irqs := s1.irqs ++ [.management] })) ∧
  (∀ s c dev fn x, KMap.get s.collectives c = some x → ∃ t y, exec (.memberWithdrawn c dev fn) s = .next t ∧
    KMap.get t.collectives c = some y ∧ (∀ m, m ∈ y.members ↔ m ∈ x.members ∧ m ≠ (dev, fn)) ∧
    ∀ r, r ∈ y.ranges ↔ r ∈ x.ranges ∧ ¬(r.1 = dev ∧ r.2.1 = fn)) ∧
  ∀ s c dev fn, KMap.get s.collectives c = none → exec (.memberWithdrawn c dev fn) s = .next s

/-! ### The package -/

/-- R70 to R74, R378 to R381: an owner takes the lowest free key slot (which of the free ones is the model's choice, log 34), or gets
status 2; a slot that retires with lines left stays retired, and its lines are scrubbed one by one. A start that finds no step recorded
runs the ten steps: each is recorded as done, or as failed when both its methods fail, and a step that its alternate method completed is
recorded in ALT; the firmware that step 0 starts is measured: the boot firmware, or the recovery image where the first flash bank failed,
into MEAS0, that of the management complex into MEAS1 and that of the home slices into MEAS2; where both banks fail, the management firmware
alone runs and is measured (the model's choice; the images and the device number are free, log 89). That a start with BOOTPR 0 leaves memory, tags, keys, groups and launches empty is the model's choice
(log 35). A measurement register takes the hash of its old value with the hash of the image; a quote holds its body and 132 bytes
of signature (which is free, log 9). -/
def Obligations.KeyStartAndMeasureSteps : Prop :=
  ((∀ s owner, (∀ e ∈ s.keys, e.2.owner = some owner → e.2.retired = true) →
     (∀ k, k < 63 → (s.keySlot k).free = true → (∀ j < k, (s.keySlot j).free = false) →
       exec (.keySlotBind owner) s =
         .next { s with keys := KMap.put s.keys k { KeySlot.reset with owner := some owner }, hostStatus := 0 }) ∧
     ((∀ k < 63, (s.keySlot k).free = false) → exec (.keySlotBind owner) s = .next { s with hostStatus := 2 })) ∧
   (∀ s slot o line, slot < 63 → (s.keySlot slot).owner = some o → (s.keySlot slot).retired = false → (line, slot) ∈ s.tags →
     exec (.keySlotRetire slot) s = .next { s with keys := KMap.put s.keys slot { s.keySlot slot with retired := true } }) ∧
   (∀ s line, (s.keySlot (s.lineTag line)).retired = false → exec (.scrubLine line) s = .next s) ∧
   ∀ s line, s.MemOk → (s.keySlot (s.lineTag line)).retired = true → isSecondTier (localOf (line * 128)) = false →
     ∃ t, exec (.scrubLine line) s = .next t ∧ t = { s with mem := t.mem, tags := KMap.del s.tags line, keys := t.keys } ∧
       ∀ a, Mem.get t.mem a = if s.slotAddr true (line * 128) ≤ a ∧ a < s.slotAddr true (line * 128) + 128 then 0 else Mem.get s.mem a) ∧
  (∀ s p a parts, s.bootDone = 0 → s.bootFail = 0 → s.bootAlt = 0 →
    ∃ t, exec (.packageStart p a parts) s = .next t ∧ t.caln = 0 ∧ t.groups = [] ∧ t.launches = [] ∧ t.bootLast = 9 ∧
      ∀ k < 10, (let bad := (⟨p, a, parts⟩ : BootFaults).fails k
        t.bootFail.getLsbD k = bad ∧ t.bootDone.getLsbD k = !bad ∧
        t.bootAlt.getLsbD k = (p.testBit k && !bad && k != 9))) ∧
  (∀ s, s.bootDone = 0 → s.bootFail = 0 → ∃ t, exec (.packageStart 0 0 0) s = .next t ∧ t.mem = [] ∧ t.tags = [] ∧ t.keys = [] ∧
    t.scratch = [] ∧ t.islands = [0, 1, 2, 3] ∧ t.measure 0 = sha512 (List.replicate 64 0 ++ sha512 Config.bootFirmware) ∧
    t.measure 1 = sha512 (List.replicate 64 0 ++ sha512 Config.managementFirmware) ∧
    t.measure 2 = sha512 (List.replicate 64 0 ++ sha512 Config.homeFirmware) ∧
    t.devnum = Config.deviceNumber % Config.devices ∧ ∀ c, (c < 48 → (t.cluster c).service = true)) ∧
  (∀ s, s.bootDone = 0 → s.bootFail = 0 →
    (∃ t, exec (.packageStart 1 0 0) s = .next t ∧ t.measure 0 = sha512 (List.replicate 64 0 ++ sha512 Config.recoveryImage)) ∧
    ∃ t, exec (.packageStart 1 1 0) s = .next t ∧ t.measure 1 = sha512 (List.replicate 64 0 ++ sha512 Config.managementFirmware) ∧
      ∀ j, j ≠ 1 → t.measure j = List.replicate 64 0) ∧
  (∀ s i image, i < 8 → ∃ t, exec (.measurementExtend i image) s = .next t ∧ t = { s with meas := t.meas } ∧
    t.measure i = sha512 (s.measure i ++ sha512 image) ∧ ∀ j, j ≠ i → t.measure j = s.measure j) ∧
  ∀ s nonce, ∃ t, exec (.quoteRequest nonce) s = .next t ∧ t = { s with quote := t.quote } ∧
    t.quote.take 64 = (List.range 64).map (nonce.getD · 0) ∧
    ((∀ i < 8, (s.measure i).length = 64) → t.quote.length = 724 ∧
      (t.quote.drop 576).take 8 = leBytes s.bootpr 8 ∧ (t.quote.drop 584).take 2 = leBytes s.devnum 2)

/-- R111, R138, R151, R382, R383, R386 to R388: reads, writes and AtomicOps through the device-memory window: one sector performs in one step, and
what is left of the access is held and goes on, under the window that it came through, in later steps (log 118: the model's choice); an AtomicOp
has 4 or 8 aligned bytes (log 102: the model's reading); a slot holds it where it keeps the line from its home; a packet whose integrity check fails, the key exchange,
pauses, retries, returns and the end of a link, and the two thresholds of the inlet. -/
def Obligations.LinkSteps : Prop :=
  (∀ (s : State) (win : DWord) (got : List Byte) (fn off len : Nat) (wr : WindowOp), s.enabled = true → (wr = .read ∨ ∃ bs, wr = .write bs) →
    (let a := bitsOf win.toNat 47 36 * 2 ^ 36 + off % 2 ^ 36
     let n := match wr with | .read => len | .write bs => bs.length | _ => 0
     let at_ := s.dpaOf fn a
     let k := min n (32 - at_ % 32)
     let used := s.cacheLine fn at_
     let out := s.windowAccess win got fn off len wr
     let rest (w : WindowOp) (bs : List Byte) : HeldStep := ⟨.deviceMemoryWindowAccess fn (off + k) (n - k) w, win, bs⟩
     (s.hbmTop fn < a + n → out = { s with hostStatus := 1, hostRead := [] }) ∧
     (a + n ≤ s.hbmTop fn → n ≠ 0 → s.hbmShut at_ = true ∨ at_ / 128 ∈ s.heldLines →
      out = s.holdStep ⟨.deviceMemoryWindowAccess fn off len wr, win, got⟩) ∧
     (a + n ≤ s.hbmTop fn → n = 0 ∨ s.hbmShut at_ = false ∧ at_ / 128 ∉ s.heldLines →
      (wr = .read → (let bs := got ++ used.memRead (s.func fn).owner at_ k
        out = if k < n then used.holdStep (rest .read bs) else { used with hostRead := bs, hostStatus := 0 })) ∧
      ∀ bs, wr = .write bs → (let t := (used.memWrite (s.func fn).owner at_ (bs.take k)).touch none (.dpa at_)
        out = if k < n then t.holdStep (rest (.write (bs.drop k)) got) else { t with hostStatus := 0 })))) ∧
  (∀ s fn off len wr, exec (.deviceMemoryWindowAccess fn off len wr) s = .next (s.windowAccess (s.func fn).dmwin [] fn off len wr)) ∧
  (∀ (s : State) (h : HeldStep) (fn off len : Nat) (wr : WindowOp), h.step = .deviceMemoryWindowAccess fn off len wr →
    s.runHeld h = .next (s.windowAccess h.win h.got fn off len wr)) ∧
  (∀ s fn off len n wr, s.enabled = true → s.closed = false →
    (let a := bitsOf (s.func fn).dmwin.toNat 47 36 * 2 ^ 36 + off % 2 ^ 36
     let at_ := s.dpaOf fn a
     let used := s.cacheLine fn at_
     let old := used.memRead (s.func fn).owner at_ n
     let does (new : Nat) : Prop := exec (.deviceMemoryWindowAccess fn off len wr) s =
      .next { (used.memWrite (s.func fn).owner at_ (leBytes new n)).touch none (.dpa at_) with hostRead := old, hostStatus := 0 }
     (n = 4 ∨ n = 8) → at_ % n = 0 → a + n ≤ s.hbmTop fn → s.hbmShut at_ = false → at_ / 128 ∉ s.heldLines →
     (∀ x, wr = .fetchAdd x → x.length = n → does ((leVal old + leVal x) % 2 ^ (8 * n))) ∧
     (∀ x, wr = .swap x → x.length = n → does (leVal x)) ∧
     ∀ x y, wr = .cas x y → x.length = n → y.length = n → does (if leVal old = leVal x then leVal y else leVal old))) ∧
  ((∀ s fn, (∀ q ∈ (s.func fn).queues, q.2.hostRing = false) → exec (.tlpIntegrityFail fn) s =
     .next { s.modFunc fn fun f => { f with streamErr := true } with irqs := s.irqs ++ [.integrity fn] }) ∧
   (∀ s fn q y, (s.func fn).queues = [(q, y)] → y.hostRing = true → y.ductus = none → ∃ t, exec (.tlpIntegrityFail fn) s = .next t ∧
     (t.queue fn q).arrived = [] ∧ (t.func fn).streamErr = true) ∧
   (∀ (s : State) (fn a : Nat), (s.func fn).streamErr = true → Config.hostWindow ≤ a → s.fetchFails fn a = true) ∧
   ∀ s fn key, exec (.spdmKeyExchange fn key) s = .next (s.modFunc fn fun f => { f with ideKey := key, streamErr := false })) ∧
  (∀ s p cc, (s.port p).up = true → exec (.pauseFlit p cc) s = .next (s.modPort p fun x => { x with paused := some (s.caln + cc) })) ∧
  (∀ s p, exec (.linkReturn p) s = .next (s.modPort p fun x => { x with up := true, paused := none, heldFlits := 0 })) ∧
  (∀ s p, exec (.flitCrcRetry p) s = .next (s.modPort p fun x => { x with resent := x.resent + 1 })) ∧
  (∀ s p, (s.port p).up = true →
    (let ends : List Nat := (s.port p).paused.toList ++ (s.port p).told.toList
    ((∃ e ∈ ends, s.caln < e + 1000000) → exec (.linkDownTimeout p) s = .next s) ∧
    ((∀ e ∈ ends, e + 1000000 ≤ s.caln) → ∃ t, exec (.linkDownTimeout p) s = .next t ∧ t = { s with ports := t.ports } ∧
      (t.port p).up = false ∧ (t.port p).paused = none ∧ ∀ q, q ≠ p → t.port q = s.port q))) ∧
  (∀ s n, s.hotInlet = false →
    (45 < n → exec (.inletOvertemp n) s = .next { s with hotInlet := true, irqs := s.irqs ++ [.thermal] }) ∧
    (n ≤ 45 → exec (.inletOvertemp n) s = .next s)) ∧
  ∀ s n, s.hotInlet = true →
    (n < 40 → exec (.inletTemperatureFall n) s = .next { s with hotInlet := false, irqs := s.irqs.filter (· != .thermal) }) ∧
    (40 ≤ n → exec (.inletTemperatureFall n) s = .next s)

/-- R7, R8, R115, R341, R343, R345, R366 to R368: a written register holds the fields that it has and reads 0 elsewhere, and one that is read-only stays; a partition
change moves islands only among functions that are gone and into shapes that are allowed; that one which moves no island changes nothing is the
model's choice (log 36). The page numbers of management registers are
the model's (log 33). -/
def Obligations.RegisterSteps : Prop :=
  (∀ s fn v, v < 2 ^ 64 → ∀ e ∈ ([(0x000, 2 ^ 48 - 2 ^ 16 + 1), (0x008, 2 ^ 48 - 2 ^ 6), (0x040, 2 ^ 64 - 2 ^ 12),
      (0x048, 2 ^ 48 - 2 ^ 15 + 1),
      (0x058, 2 ^ 48 - 2 ^ 7), (0x080, 2 ^ 64 - 2 ^ 12 + 31), (0x090, 2 ^ 48 - 2 ^ 12), (0x0B8, 2 ^ 48 - 2 ^ 36)] : List (Nat × Nat)),
    s.enabled = true → ∃ t, exec (.registerWrite 0 fn e.1 v) s = .next t ∧ t = { s with funcs := t.funcs } ∧ t.controlRead fn e.1 = v &&& e.2 ∧
      ∀ f, f ≠ fn → t.func f = s.func f) ∧
  (∀ s core v, v < 2 ^ 64 → ∃ t, exec (.registerWrite 3 core 0 v) s = .next t ∧ t = { s with cores := t.cores } ∧
    t.coreReg core = { s.coreReg core with dth := v / 2 ^ 8 % 2 ^ 8, tth := v % 2 ^ 8 }) ∧
  (∀ s cl v, v < 2 ^ 64 → ∃ t, exec (.registerWrite 4 cl 0 v) s = .next t ∧ t = { s with clusters := t.clusters } ∧
    t.cluster cl = { s.cluster cl with cap := v / 2 ^ 32, refill := max 1 (v % 2 ^ 32) }) ∧
  (∀ s v, v < 2 ^ 64 → ∃ t, exec (.registerWrite 1 0 0x308 v) s = .next t ∧ t.managementRead 1 0 0x308 =
    (if s.clogOvf = true ∧ v.testBit 9 = false then 2 ^ 9 else 0) + (if v.testBit 8 then 2 ^ 8 else 0) +
      (if 6 ≤ v % 2 ^ 5 ∧ v % 2 ^ 5 ≤ 16 then v % 2 ^ 5 else s.clogSize)) ∧
  (∀ p ∈ ([11, 15, 18] : List Nat), ∀ s idx off v, exec (.registerWrite p idx off v) s = .next s) ∧
  (∀ s idx off v, s.enabled = false → exec (.registerWrite 0 idx off v) s = .next s) ∧
  (∀ s v, ∃ t, exec (.registerWrite 6 0 0 v) s = .next t ∧ t = { s with fnpriv := BitVec.ofNat 16 v }) ∧
  (∀ s i p, i < 4 → p < 4 → (∀ f < 16, s.fnGone f = true) →
    (({ s with partitions := KMap.put s.partitions i p } : State).partsOk = true) →
    ∃ t, exec (.partitionChange [i] [p]) s = .next t ∧ t.islandPart i = p ∧ (∀ j, j ≠ i → j < 4 → t.islandPart j = s.islandPart j) ∧
      (s.islandPart i = p → t = s) ∧
      (s.islandPart i ≠ p → ∀ l ∈ t.cached, isHbm (l % alternates * 128) = true ∧ s.homeOf 0 (l % alternates * 128) % 192 / 48 ≠ i)) ∧
  ∀ s is ps k i, is.Nodup → is[k]? = some i → s.islandPart i ≠ ps.getD k 0 % 4 →
    (∃ f < 16, s.fnGone f = false ∧ (s.fnPart f = s.islandPart i ∨ s.fnPart f = ps.getD k 0 % 4)) →
    exec (.partitionChange is ps) s = .next s

/-! ### Headlines -/

/-- R14 to R19, R22 and the opcode table: every well-formed instruction is what its own words decode to, whatever follows them. -/
def Obligations.DecodeEncode : Prop :=
  ∀ (i : Instr) (rest : List Word), i.wf = true → decode (encode i ++ rest) = .ok (i, rest)

/-- Every step of the machine answers a next state, from every state: no ordinary data, no instruction and no event ends a run. -/
def Obligations.EveryStepAnswers : Prop :=
  ∀ s, ∃ t, step s = .next t

/-- R6: every step keeps every memory in its canonical form (log 2): domain memory, scratch, host memory, team memories, spill stacks. -/
def Obligations.MemoryStaysCanonical : Prop :=
  ∀ s t, s.MemOk → step s = .next t → t.MemOk

/-- R55, R62, R67, R115, R152, R306, R307, R337, R341, R343, R345, R360, R369, R379, R386: reset, at the values that the manual's field
maps give; every memory is canonical. That every island and port is in service is the model's choice (log 83). -/
def Obligations.ResetState : Prop :=
  State.reset.MemOk ∧ State.reset.caln = 0 ∧ State.reset.groups = [] ∧ State.reset.launches = [] ∧ State.reset.bootpr = 0 ∧
    State.reset.islands = [0, 1, 2, 3] ∧ State.reset.mpl = 3600 ∧ State.reset.factor = 8 ∧ State.reset.fnpriv = 0 ∧
    (∀ f, ∀ e ∈ ([(0x000, 0), (0x008, 0), (0x010, 6), (0x018, 0), (0x030, 0), (0x038, 0), (0x040, 0), (0x048, 0), (0x050, 0), (0x058, 0),
      (0x060, 0), (0x070, 0), (0x078, 0), (0x080, 0), (0x088, 0), (0x090, 0), (0x098, 0), (0x0A0, 0), (0x0B8, 0)] : List (Nat × Nat)),
      State.reset.controlRead f e.1 = e.2) ∧ State.reset.managementRead 1 0 0x308 = 6 ∧
    (∀ f q, (State.reset.queue f q).inf = true ∧ (State.reset.queue f q).depth = 4 ∧ (State.reset.queue f q).en = false ∧
      (State.reset.queue f q).size = 6) ∧
    (∀ f n, ((State.reset.func f).task n).st = .free) ∧ (∀ c, (State.reset.coreReg c).parkth = 12) ∧
    (∀ c, (State.reset.coreReg c).dth = 60 ∧ (State.reset.coreReg c).tth = 95 ∧ (State.reset.coreReg c).hot = false) ∧
    (∀ c, (State.reset.cluster c).cls = 2 ∧ (State.reset.cluster c).cur = 2 ∧ (State.reset.cluster c).chg = false ∧
      (State.reset.cluster c).vstep = 9 ∧ (State.reset.cluster c).cap = 0x00100000 ∧ (State.reset.cluster c).refill = 100000 ∧
      (State.reset.cluster c).balance = 0x00100000) ∧ ∀ p, (State.reset.port p).up = true

/-- R11, R23: when the state names a gang that executes a clause and no budget trap is due, and the words at its place decode to an
instruction, a step is that instruction's meaning at the state in which it is the current one, followed by what ends every step. That the
named gang comes first is the model's choice (log 1, 3). -/
def Obligations.StepRunsDecoded : Prop :=
  ∀ (s : State) (k : Iss) (i : Instr) (r : List Word), s.issuer = some k → k.gang.hold = .none ∨ k.gang.hold = .retry →
    s.budgetFirst k.gid k.g k.gang = false →
    k.cl.formed = true ∨ badForm (k.g.forms.getD (hdrForm k.cl.hdr) 8).toNat = false → decode (k.cl.words.drop k.cl.next) = .ok (i, r) →
    step s = andThen (exec i (s.begin k.gid k.gang.id r)) (s.conclude (.issue k.gid k.gang.id))

/-- R16 to R19: words written from the manual's encoding tables decode to what they stand for. -/
def Obligations.DecodedWords : Prop :=
  decode [0x60030102] = .ok (.fadd (.vec 3) (.vec 1) (.vec 2), []) ∧
  decode [0x45000000] = .ok (.exit 0, []) ∧
  decode [0xEB000007] = .ok (.halt 0 7, []) ∧
  decode [0x2400F001] = .ok (.icmplt 0 .zero (.vec 1), []) ∧
  decode [0xA00100F1, 0x00000400] = .ok (.ld (.vec 1) (.vec 0) (.lit 0x400), []) ∧
  decode [0xD040D000] = .ok (.mloop (.vec 64) (.sca 16) , []) ∧
  decode [0x55030204] = .ok (.gscan (.vec 3) (.vec 2) 4, [])
end

