-- ==== Sys2Proof/Laws/Maps.lean ====
section
/-!
SUPPORT. Reading back what was written: values by key, and bytes by address in canonical form.
-/

namespace Sys2Proof.Machine

@[simp] theorem KMap.get_put_same {α : Type} (m : KMap α) (k : Nat) (x : α) : KMap.get (KMap.put m k x) k = some x := by
  induction m with
  | nil => simp [KMap.put, KMap.get]
  | cons e m ih =>
    obtain ⟨a, y⟩ := e
    simp only [KMap.put]
    split
    · simp [KMap.get, *]
    · split <;> simp [KMap.get, *]

theorem KMap.get_put_other {α : Type} (m : KMap α) {k j : Nat} (x : α) (h : j ≠ k) : KMap.get (KMap.put m k x) j = KMap.get m j := by
  induction m with
  | nil => simp [KMap.put, KMap.get, h]
  | cons e m ih =>
    obtain ⟨a, y⟩ := e
    simp only [KMap.put]
    split
    · subst_vars; simp [KMap.get, h]
    · split <;> simp [KMap.get, *]

theorem KMap.get_put {α : Type} (m : KMap α) (k j : Nat) (x : α) : KMap.get (KMap.put m k x) j = if j = k then some x else KMap.get m j := by
  split
  · subst_vars; simp
  · exact KMap.get_put_other m x ‹_›

theorem KMap.getD_put {α : Type} (m : KMap α) (k j : Nat) (x d : α) : KMap.getD (KMap.put m k x) j d = if j = k then x else KMap.getD m j d := by
  simp only [KMap.getD, KMap.get_put]
  split <;> rfl

@[simp] theorem KMap.get_adjust_same {α : Type} (m : KMap α) (k : Nat) (f : α → α) : KMap.get (KMap.adjust m k f) k = (KMap.get m k).map f := by
  induction m with
  | nil => rfl
  | cons e m ih =>
    obtain ⟨a, y⟩ := e
    simp only [KMap.adjust, List.map_cons] at ih ⊢
    by_cases h : a = k
    · simp [KMap.get, h]
    · simp [KMap.get, h, Ne.symm h, ih]

theorem KMap.get_adjust_other {α : Type} (m : KMap α) {k j : Nat} (f : α → α) (h : j ≠ k) : KMap.get (KMap.adjust m k f) j = KMap.get m j := by
  induction m with
  | nil => rfl
  | cons e m ih =>
    obtain ⟨a, y⟩ := e
    simp only [KMap.adjust, List.map_cons] at ih ⊢
    by_cases ha : a = k
    · subst ha; simp [KMap.get, h, ih]
    · simp [KMap.get, ha, ih]

theorem KMap.get_adjust {α : Type} (m : KMap α) (k j : Nat) (f : α → α) :
    KMap.get (KMap.adjust m k f) j = if j = k then (KMap.get m k).map f else KMap.get m j := by
  split
  · subst_vars; simp
  · exact KMap.get_adjust_other m f ‹_›

theorem KMap.del_cons {α : Type} (a : Nat) (y : α) (m : KMap α) (k : Nat) :
    KMap.del ((a, y) :: m) k = if a = k then KMap.del m k else (a, y) :: KMap.del m k := by
  by_cases h : a = k <;> simp [KMap.del, h]

@[simp] theorem KMap.get_del_same {α : Type} (m : KMap α) (k : Nat) : KMap.get (KMap.del m k) k = none := by
  induction m with
  | nil => rfl
  | cons e m ih =>
    obtain ⟨a, y⟩ := e
    rw [KMap.del_cons]
    by_cases h : a = k
    · rw [if_pos h, ih]
    · rw [if_neg h]; simp [KMap.get, Ne.symm h, ih]

theorem KMap.get_del_other {α : Type} (m : KMap α) {k j : Nat} (h : j ≠ k) : KMap.get (KMap.del m k) j = KMap.get m j := by
  induction m with
  | nil => rfl
  | cons e m ih =>
    obtain ⟨a, y⟩ := e
    rw [KMap.del_cons]
    by_cases ha : a = k
    · subst ha; rw [if_pos rfl, ih]; simp [KMap.get, h]
    · rw [if_neg ha]; simp [KMap.get, ih]

/-! ### Bytes -/

@[simp] theorem Mem.wf_nil : Mem.wf [] = true := rfl

/-- A memory whose first address is above `lo` is one that stands behind a byte at `lo`. -/
theorem Mem.wfFrom_cons (lo : Option Nat) (a : Nat) (b : Byte) (m : Mem) :
    Mem.wfFrom lo ((a, b) :: m) = true ↔ (∀ l, lo = some l → l < a) ∧ b ≠ 0 ∧ Mem.wfFrom (some a) m = true := by
  cases lo <;> simp [Mem.wfFrom, and_assoc]

theorem Mem.wfFrom_weaken {l : Nat} {lo : Option Nat} {m : Mem} (hl : ∀ k, lo = some k → k ≤ l) (h : Mem.wfFrom (some l) m = true) :
    Mem.wfFrom lo m = true := by
  cases m with
  | nil => rfl
  | cons e m =>
    obtain ⟨a, b⟩ := e
    rw [Mem.wfFrom_cons] at h ⊢
    exact ⟨fun k hk => Nat.lt_of_le_of_lt (hl k hk) (h.1 l rfl), h.2⟩

/-- Below the first listed address every byte is 0. -/
theorem Mem.get_below {l a : Nat} {m : Mem} (h : Mem.wfFrom (some l) m = true) (ha : a ≤ l) : Mem.get m a = 0 := by
  cases m with
  | nil => rfl
  | cons e m =>
    obtain ⟨k, b⟩ := e
    rw [Mem.wfFrom_cons] at h
    have := h.1 l rfl
    simp only [Mem.get]
    rw [if_neg (by omega), if_pos (by omega)]
    rfl

theorem Mem.wfFrom_set (lo : Option Nat) (m : Mem) (a : Nat) (b : Byte) (h : Mem.wfFrom lo m = true) (ha : ∀ l, lo = some l → l < a) :
    Mem.wfFrom lo (Mem.set m a b) = true := by
  induction m generalizing lo with
  | nil =>
    simp only [Mem.set]
    split
    · rfl
    · rw [Mem.wfFrom_cons]; exact ⟨ha, ‹_›, rfl⟩
  | cons e m ih =>
    obtain ⟨k, c⟩ := e
    have hc := (Mem.wfFrom_cons lo k c m).1 h
    simp only [Mem.set]
    split
    · split
      · exact Mem.wfFrom_weaken (fun l hl => Nat.le_of_lt (hc.1 l hl)) hc.2.2
      · rw [Mem.wfFrom_cons]; exact ⟨hc.1, ‹_›, hc.2.2⟩
    · split
      · split
        · exact h
        · rw [Mem.wfFrom_cons, Mem.wfFrom_cons]
          exact ⟨ha, ‹_›, fun l hl => by cases hl; assumption, hc.2.1, hc.2.2⟩
      · rw [Mem.wfFrom_cons]
        refine ⟨hc.1, hc.2.1, ih (some k) hc.2.2 ?_⟩
        intro l hl
        cases hl
        omega

/-- Writing a byte keeps the canonical form. -/
theorem Mem.wf_set (m : Mem) (a : Nat) (b : Byte) (h : Mem.wf m = true) : Mem.wf (Mem.set m a b) = true :=
  Mem.wfFrom_set none m a b h (fun _ h => by cases h)

theorem Mem.get_set_from (lo : Option Nat) (m : Mem) (a j : Nat) (b : Byte) (h : Mem.wfFrom lo m = true) :
    Mem.get (Mem.set m a b) j = if j = a then b else Mem.get m j := by
  induction m generalizing lo with
  | nil =>
    by_cases hb : b = Mem.unlisted <;> by_cases hj : j = a <;> simp [Mem.set, Mem.get, hb, hj]
  | cons e m ih =>
    obtain ⟨k, c⟩ := e
    have hc := (Mem.wfFrom_cons lo k c m).1 h
    simp only [Mem.set]
    split
    · rename_i hak
      subst hak
      split
      · rename_i hb
        by_cases hj : j = a
        · subst hj; rw [if_pos rfl, Mem.get_below hc.2.2 (Nat.le_refl _), hb]; rfl
        · simp only [Mem.get, if_neg hj]
          split
          · exact Mem.get_below hc.2.2 (by omega)
          · rfl
      · by_cases hj : j = a <;> simp [Mem.get, hj]
    · split
      · split
        · rename_i hb
          by_cases hj : j = a
          · subst hj; simp [Mem.get, *]
          · rw [if_neg hj]
        · by_cases hj : j = a
          · simp [Mem.get, hj]
          · simp only [Mem.get, if_neg hj]
            split
            · rw [if_neg (by omega), if_pos (by omega)]
            · rfl
      · simp only [Mem.get]
        rw [ih (some k) hc.2.2]
        by_cases hj : j = a
        · subst hj; simp; rw [if_neg (by omega), if_neg (by omega)]
        · simp [hj]

/-- Reading after a write. -/
theorem Mem.get_set (m : Mem) (a j : Nat) (b : Byte) (h : Mem.wf m = true) : Mem.get (Mem.set m a b) j = if j = a then b else Mem.get m j :=
  Mem.get_set_from none m a j b h

theorem Mem.wf_write (m : Mem) (a : Nat) (bs : List Byte) (h : Mem.wf m = true) : Mem.wf (Mem.write m a bs) = true := by
  induction bs generalizing m a with
  | nil => exact h
  | cons b bs ih => exact ih _ _ (Mem.wf_set m a b h)

theorem Mem.wf_writeAt (m : Mem) (bs : List (Nat × Byte)) (h : Mem.wf m = true) : Mem.wf (Mem.writeAt m bs) = true := by
  induction bs generalizing m with
  | nil => exact h
  | cons e bs ih => exact ih _ (Mem.wf_set m e.1 e.2 h)

theorem Mem.wf_writeVal (m : Mem) (a n v : Nat) (h : Mem.wf m = true) : Mem.wf (Mem.writeVal m a n v) = true := Mem.wf_write m a _ h

theorem Mem.wfFrom_filter (lo : Option Nat) (m : Mem) (p : Host.Cell → Bool) (h : Mem.wfFrom lo m = true) :
    Mem.wfFrom lo (m.filter p) = true := by
  induction m generalizing lo with
  | nil => rfl
  | cons e m ih =>
    obtain ⟨k, c⟩ := e
    have hc := (Mem.wfFrom_cons lo k c m).1 h
    simp only [List.filter_cons]
    split
    · rw [Mem.wfFrom_cons]; exact ⟨hc.1, hc.2.1, ih _ hc.2.2⟩
    · exact ih lo (Mem.wfFrom_weaken (fun l hl => Nat.le_of_lt (hc.1 l hl)) hc.2.2)

theorem Mem.wf_filter (m : Mem) (p : Host.Cell → Bool) (h : Mem.wf m = true) : Mem.wf (m.filter p) = true := Mem.wfFrom_filter none m p h

theorem Mem.wf_clear (m : Mem) (lo hi : Nat) (h : Mem.wf m = true) : Mem.wf (Mem.clear m lo hi) = true := Mem.wf_filter m _ h

/-- A byte that no entry of the list names is unchanged. -/
theorem Mem.get_writeAt_other (m : Mem) (bs : List (Nat × Byte)) (j : Nat) (h : Mem.wf m = true) (hj : ∀ e ∈ bs, e.1 ≠ j) :
    Mem.get (Mem.writeAt m bs) j = Mem.get m j := by
  induction bs generalizing m with
  | nil => rfl
  | cons e bs ih =>
    have h1 : j ≠ e.1 := fun hc => hj e (List.mem_cons_self ..) hc.symm
    have := ih (Mem.set m e.1 e.2) (Mem.wf_set m e.1 e.2 h) fun x hx => hj x (List.mem_cons_of_mem _ hx)
    rw [Mem.get_set m e.1 j e.2 h, if_neg h1] at this
    exact this

end Sys2Proof.Machine
end

