-- ==== Sys2Proof/Laws/State.lean ====
section
/-!
SUPPORT. What each update of State leaves alone, field by field, and what it changes.
-/

namespace Sys2Proof.Machine

@[simp] theorem State.setGroup_agenda (s : State) (g : Nat) (x : Group) : (s.setGroup g x).agenda = s.agenda := rfl
@[simp] theorem State.setGroup_turn (s : State) (g : Nat) (x : Group) : (s.setGroup g x).turn = s.turn := rfl
@[simp] theorem State.setGroup_cur (s : State) (g : Nat) (x : Group) : (s.setGroup g x).cur = s.cur := rfl
@[simp] theorem State.setGroup_devnum (s : State) (g : Nat) (x : Group) : (s.setGroup g x).devnum = s.devnum := rfl
@[simp] theorem State.setGroup_caln (s : State) (g : Nat) (x : Group) : (s.setGroup g x).caln = s.caln := rfl
@[simp] theorem State.setGroup_slots (s : State) (g : Nat) (x : Group) : (s.setGroup g x).slots = s.slots := rfl
@[simp] theorem State.setGroup_cached (s : State) (g : Nat) (x : Group) : (s.setGroup g x).cached = s.cached := rfl
@[simp] theorem State.setGroup_tier (s : State) (g : Nat) (x : Group) : (s.setGroup g x).tier = s.tier := rfl
@[simp] theorem State.setGroup_regLines (s : State) (g : Nat) (x : Group) : (s.setGroup g x).regLines = s.regLines := rfl
@[simp] theorem State.setGroup_slices (s : State) (g : Nat) (x : Group) : (s.setGroup g x).slices = s.slices := rfl
@[simp] theorem State.setGroup_heldSteps (s : State) (g : Nat) (x : Group) : (s.setGroup g x).heldSteps = s.heldSteps := rfl
@[simp] theorem State.setGroup_coldDue (s : State) (g : Nat) (x : Group) : (s.setGroup g x).coldDue = s.coldDue := rfl
@[simp] theorem State.setGroup_mem (s : State) (g : Nat) (x : Group) : (s.setGroup g x).mem = s.mem := rfl
@[simp] theorem State.setGroup_tags (s : State) (g : Nat) (x : Group) : (s.setGroup g x).tags = s.tags := rfl
@[simp] theorem State.setGroup_images (s : State) (g : Nat) (x : Group) : (s.setGroup g x).images = s.images := rfl
@[simp] theorem State.setGroup_scratch (s : State) (g : Nat) (x : Group) : (s.setGroup g x).scratch = s.scratch := rfl
@[simp] theorem State.setGroup_host (s : State) (g : Nat) (x : Group) : (s.setGroup g x).host = s.host := rfl
@[simp] theorem State.setGroup_teams (s : State) (g : Nat) (x : Group) : (s.setGroup g x).teams = s.teams := rfl
@[simp] theorem State.setGroup_launches (s : State) (g : Nat) (x : Group) : (s.setGroup g x).launches = s.launches := rfl
@[simp] theorem State.setGroup_bars (s : State) (g : Nat) (x : Group) : (s.setGroup g x).bars = s.bars := rfl
@[simp] theorem State.setGroup_oq (s : State) (g : Nat) (x : Group) : (s.setGroup g x).oq = s.oq := rfl
@[simp] theorem State.setGroup_ops (s : State) (g : Nat) (x : Group) : (s.setGroup g x).ops = s.ops := rfl
@[simp] theorem State.setGroup_reqs (s : State) (g : Nat) (x : Group) : (s.setGroup g x).reqs = s.reqs := rfl
@[simp] theorem State.setGroup_faults (s : State) (g : Nat) (x : Group) : (s.setGroup g x).faults = s.faults := rfl
@[simp] theorem State.setGroup_tlb (s : State) (g : Nat) (x : Group) : (s.setGroup g x).tlb = s.tlb := rfl
@[simp] theorem State.setGroup_sheaves (s : State) (g : Nat) (x : Group) : (s.setGroup g x).sheaves = s.sheaves := rfl
@[simp] theorem State.setGroup_versions (s : State) (g : Nat) (x : Group) : (s.setGroup g x).versions = s.versions := rfl
@[simp] theorem State.setGroup_funcs (s : State) (g : Nat) (x : Group) : (s.setGroup g x).funcs = s.funcs := rfl
@[simp] theorem State.setGroup_keys (s : State) (g : Nat) (x : Group) : (s.setGroup g x).keys = s.keys := rfl
@[simp] theorem State.setGroup_clusters (s : State) (g : Nat) (x : Group) : (s.setGroup g x).clusters = s.clusters := rfl
@[simp] theorem State.setGroup_cores (s : State) (g : Nat) (x : Group) : (s.setGroup g x).cores = s.cores := rfl
@[simp] theorem State.setGroup_ports (s : State) (g : Nat) (x : Group) : (s.setGroup g x).ports = s.ports := rfl
@[simp] theorem State.setGroup_irqs (s : State) (g : Nat) (x : Group) : (s.setGroup g x).irqs = s.irqs := rfl
@[simp] theorem State.setGroup_partitions (s : State) (g : Nat) (x : Group) : (s.setGroup g x).partitions = s.partitions := rfl
@[simp] theorem State.setGroup_islands (s : State) (g : Nat) (x : Group) : (s.setGroup g x).islands = s.islands := rfl
@[simp] theorem State.setGroup_reserve (s : State) (g : Nat) (x : Group) : (s.setGroup g x).reserve = s.reserve := rfl
@[simp] theorem State.setGroup_energy (s : State) (g : Nat) (x : Group) : (s.setGroup g x).energy = s.energy := rfl
@[simp] theorem State.setGroup_fnpriv (s : State) (g : Nat) (x : Group) : (s.setGroup g x).fnpriv = s.fnpriv := rfl

@[simp] theorem State.modGroup_agenda (s : State) (g : Nat) (f : Group → Group) : (s.modGroup g f).agenda = s.agenda := rfl
@[simp] theorem State.modGroup_turn (s : State) (g : Nat) (f : Group → Group) : (s.modGroup g f).turn = s.turn := rfl
@[simp] theorem State.modGroup_cur (s : State) (g : Nat) (f : Group → Group) : (s.modGroup g f).cur = s.cur := rfl
@[simp] theorem State.modGroup_devnum (s : State) (g : Nat) (f : Group → Group) : (s.modGroup g f).devnum = s.devnum := rfl
@[simp] theorem State.modGroup_caln (s : State) (g : Nat) (f : Group → Group) : (s.modGroup g f).caln = s.caln := rfl
@[simp] theorem State.modGroup_slots (s : State) (g : Nat) (f : Group → Group) : (s.modGroup g f).slots = s.slots := rfl
@[simp] theorem State.modGroup_cached (s : State) (g : Nat) (f : Group → Group) : (s.modGroup g f).cached = s.cached := rfl
@[simp] theorem State.modGroup_tier (s : State) (g : Nat) (f : Group → Group) : (s.modGroup g f).tier = s.tier := rfl
@[simp] theorem State.modGroup_regLines (s : State) (g : Nat) (f : Group → Group) : (s.modGroup g f).regLines = s.regLines := rfl
@[simp] theorem State.modGroup_slices (s : State) (g : Nat) (f : Group → Group) : (s.modGroup g f).slices = s.slices := rfl
@[simp] theorem State.modGroup_heldSteps (s : State) (g : Nat) (f : Group → Group) : (s.modGroup g f).heldSteps = s.heldSteps := rfl
@[simp] theorem State.modGroup_coldDue (s : State) (g : Nat) (f : Group → Group) : (s.modGroup g f).coldDue = s.coldDue := rfl
@[simp] theorem State.modGroup_mem (s : State) (g : Nat) (f : Group → Group) : (s.modGroup g f).mem = s.mem := rfl
@[simp] theorem State.modGroup_tags (s : State) (g : Nat) (f : Group → Group) : (s.modGroup g f).tags = s.tags := rfl
@[simp] theorem State.modGroup_images (s : State) (g : Nat) (f : Group → Group) : (s.modGroup g f).images = s.images := rfl
@[simp] theorem State.modGroup_scratch (s : State) (g : Nat) (f : Group → Group) : (s.modGroup g f).scratch = s.scratch := rfl
@[simp] theorem State.modGroup_host (s : State) (g : Nat) (f : Group → Group) : (s.modGroup g f).host = s.host := rfl
@[simp] theorem State.modGroup_teams (s : State) (g : Nat) (f : Group → Group) : (s.modGroup g f).teams = s.teams := rfl
@[simp] theorem State.modGroup_launches (s : State) (g : Nat) (f : Group → Group) : (s.modGroup g f).launches = s.launches := rfl
@[simp] theorem State.modGroup_bars (s : State) (g : Nat) (f : Group → Group) : (s.modGroup g f).bars = s.bars := rfl
@[simp] theorem State.modGroup_oq (s : State) (g : Nat) (f : Group → Group) : (s.modGroup g f).oq = s.oq := rfl
@[simp] theorem State.modGroup_ops (s : State) (g : Nat) (f : Group → Group) : (s.modGroup g f).ops = s.ops := rfl
@[simp] theorem State.modGroup_reqs (s : State) (g : Nat) (f : Group → Group) : (s.modGroup g f).reqs = s.reqs := rfl
@[simp] theorem State.modGroup_faults (s : State) (g : Nat) (f : Group → Group) : (s.modGroup g f).faults = s.faults := rfl
@[simp] theorem State.modGroup_tlb (s : State) (g : Nat) (f : Group → Group) : (s.modGroup g f).tlb = s.tlb := rfl
@[simp] theorem State.modGroup_sheaves (s : State) (g : Nat) (f : Group → Group) : (s.modGroup g f).sheaves = s.sheaves := rfl
@[simp] theorem State.modGroup_versions (s : State) (g : Nat) (f : Group → Group) : (s.modGroup g f).versions = s.versions := rfl
@[simp] theorem State.modGroup_funcs (s : State) (g : Nat) (f : Group → Group) : (s.modGroup g f).funcs = s.funcs := rfl
@[simp] theorem State.modGroup_keys (s : State) (g : Nat) (f : Group → Group) : (s.modGroup g f).keys = s.keys := rfl
@[simp] theorem State.modGroup_clusters (s : State) (g : Nat) (f : Group → Group) : (s.modGroup g f).clusters = s.clusters := rfl
@[simp] theorem State.modGroup_cores (s : State) (g : Nat) (f : Group → Group) : (s.modGroup g f).cores = s.cores := rfl
@[simp] theorem State.modGroup_ports (s : State) (g : Nat) (f : Group → Group) : (s.modGroup g f).ports = s.ports := rfl
@[simp] theorem State.modGroup_irqs (s : State) (g : Nat) (f : Group → Group) : (s.modGroup g f).irqs = s.irqs := rfl
@[simp] theorem State.modGroup_partitions (s : State) (g : Nat) (f : Group → Group) : (s.modGroup g f).partitions = s.partitions := rfl
@[simp] theorem State.modGroup_islands (s : State) (g : Nat) (f : Group → Group) : (s.modGroup g f).islands = s.islands := rfl
@[simp] theorem State.modGroup_reserve (s : State) (g : Nat) (f : Group → Group) : (s.modGroup g f).reserve = s.reserve := rfl
@[simp] theorem State.modGroup_energy (s : State) (g : Nat) (f : Group → Group) : (s.modGroup g f).energy = s.energy := rfl
@[simp] theorem State.modGroup_fnpriv (s : State) (g : Nat) (f : Group → Group) : (s.modGroup g f).fnpriv = s.fnpriv := rfl

@[simp] theorem State.modIss_agenda (s : State) (i : Iss) (f : Group → Group) : (s.modIss i f).agenda = s.agenda := rfl
@[simp] theorem State.modIss_turn (s : State) (i : Iss) (f : Group → Group) : (s.modIss i f).turn = s.turn := rfl
@[simp] theorem State.modIss_cur (s : State) (i : Iss) (f : Group → Group) : (s.modIss i f).cur = s.cur := rfl
@[simp] theorem State.modIss_devnum (s : State) (i : Iss) (f : Group → Group) : (s.modIss i f).devnum = s.devnum := rfl
@[simp] theorem State.modIss_caln (s : State) (i : Iss) (f : Group → Group) : (s.modIss i f).caln = s.caln := rfl
@[simp] theorem State.modIss_slots (s : State) (i : Iss) (f : Group → Group) : (s.modIss i f).slots = s.slots := rfl
@[simp] theorem State.modIss_cached (s : State) (i : Iss) (f : Group → Group) : (s.modIss i f).cached = s.cached := rfl
@[simp] theorem State.modIss_tier (s : State) (i : Iss) (f : Group → Group) : (s.modIss i f).tier = s.tier := rfl
@[simp] theorem State.modIss_regLines (s : State) (i : Iss) (f : Group → Group) : (s.modIss i f).regLines = s.regLines := rfl
@[simp] theorem State.modIss_slices (s : State) (i : Iss) (f : Group → Group) : (s.modIss i f).slices = s.slices := rfl
@[simp] theorem State.modIss_heldSteps (s : State) (i : Iss) (f : Group → Group) : (s.modIss i f).heldSteps = s.heldSteps := rfl
@[simp] theorem State.modIss_coldDue (s : State) (i : Iss) (f : Group → Group) : (s.modIss i f).coldDue = s.coldDue := rfl
@[simp] theorem State.modIss_mem (s : State) (i : Iss) (f : Group → Group) : (s.modIss i f).mem = s.mem := rfl
@[simp] theorem State.modIss_tags (s : State) (i : Iss) (f : Group → Group) : (s.modIss i f).tags = s.tags := rfl
@[simp] theorem State.modIss_images (s : State) (i : Iss) (f : Group → Group) : (s.modIss i f).images = s.images := rfl
@[simp] theorem State.modIss_scratch (s : State) (i : Iss) (f : Group → Group) : (s.modIss i f).scratch = s.scratch := rfl
@[simp] theorem State.modIss_host (s : State) (i : Iss) (f : Group → Group) : (s.modIss i f).host = s.host := rfl
@[simp] theorem State.modIss_teams (s : State) (i : Iss) (f : Group → Group) : (s.modIss i f).teams = s.teams := rfl
@[simp] theorem State.modIss_launches (s : State) (i : Iss) (f : Group → Group) : (s.modIss i f).launches = s.launches := rfl
@[simp] theorem State.modIss_bars (s : State) (i : Iss) (f : Group → Group) : (s.modIss i f).bars = s.bars := rfl
@[simp] theorem State.modIss_oq (s : State) (i : Iss) (f : Group → Group) : (s.modIss i f).oq = s.oq := rfl
@[simp] theorem State.modIss_ops (s : State) (i : Iss) (f : Group → Group) : (s.modIss i f).ops = s.ops := rfl
@[simp] theorem State.modIss_reqs (s : State) (i : Iss) (f : Group → Group) : (s.modIss i f).reqs = s.reqs := rfl
@[simp] theorem State.modIss_faults (s : State) (i : Iss) (f : Group → Group) : (s.modIss i f).faults = s.faults := rfl
@[simp] theorem State.modIss_tlb (s : State) (i : Iss) (f : Group → Group) : (s.modIss i f).tlb = s.tlb := rfl
@[simp] theorem State.modIss_sheaves (s : State) (i : Iss) (f : Group → Group) : (s.modIss i f).sheaves = s.sheaves := rfl
@[simp] theorem State.modIss_versions (s : State) (i : Iss) (f : Group → Group) : (s.modIss i f).versions = s.versions := rfl
@[simp] theorem State.modIss_funcs (s : State) (i : Iss) (f : Group → Group) : (s.modIss i f).funcs = s.funcs := rfl
@[simp] theorem State.modIss_keys (s : State) (i : Iss) (f : Group → Group) : (s.modIss i f).keys = s.keys := rfl
@[simp] theorem State.modIss_clusters (s : State) (i : Iss) (f : Group → Group) : (s.modIss i f).clusters = s.clusters := rfl
@[simp] theorem State.modIss_cores (s : State) (i : Iss) (f : Group → Group) : (s.modIss i f).cores = s.cores := rfl
@[simp] theorem State.modIss_ports (s : State) (i : Iss) (f : Group → Group) : (s.modIss i f).ports = s.ports := rfl
@[simp] theorem State.modIss_irqs (s : State) (i : Iss) (f : Group → Group) : (s.modIss i f).irqs = s.irqs := rfl
@[simp] theorem State.modIss_partitions (s : State) (i : Iss) (f : Group → Group) : (s.modIss i f).partitions = s.partitions := rfl
@[simp] theorem State.modIss_islands (s : State) (i : Iss) (f : Group → Group) : (s.modIss i f).islands = s.islands := rfl
@[simp] theorem State.modIss_reserve (s : State) (i : Iss) (f : Group → Group) : (s.modIss i f).reserve = s.reserve := rfl
@[simp] theorem State.modIss_energy (s : State) (i : Iss) (f : Group → Group) : (s.modIss i f).energy = s.energy := rfl
@[simp] theorem State.modIss_fnpriv (s : State) (i : Iss) (f : Group → Group) : (s.modIss i f).fnpriv = s.fnpriv := rfl

@[simp] theorem State.modGang_agenda (s : State) (i : Iss) (f : Gang → Gang) : (s.modGang i f).agenda = s.agenda := rfl
@[simp] theorem State.modGang_turn (s : State) (i : Iss) (f : Gang → Gang) : (s.modGang i f).turn = s.turn := rfl
@[simp] theorem State.modGang_cur (s : State) (i : Iss) (f : Gang → Gang) : (s.modGang i f).cur = s.cur := rfl
@[simp] theorem State.modGang_devnum (s : State) (i : Iss) (f : Gang → Gang) : (s.modGang i f).devnum = s.devnum := rfl
@[simp] theorem State.modGang_caln (s : State) (i : Iss) (f : Gang → Gang) : (s.modGang i f).caln = s.caln := rfl
@[simp] theorem State.modGang_slots (s : State) (i : Iss) (f : Gang → Gang) : (s.modGang i f).slots = s.slots := rfl
@[simp] theorem State.modGang_cached (s : State) (i : Iss) (f : Gang → Gang) : (s.modGang i f).cached = s.cached := rfl
@[simp] theorem State.modGang_tier (s : State) (i : Iss) (f : Gang → Gang) : (s.modGang i f).tier = s.tier := rfl
@[simp] theorem State.modGang_regLines (s : State) (i : Iss) (f : Gang → Gang) : (s.modGang i f).regLines = s.regLines := rfl
@[simp] theorem State.modGang_slices (s : State) (i : Iss) (f : Gang → Gang) : (s.modGang i f).slices = s.slices := rfl
@[simp] theorem State.modGang_heldSteps (s : State) (i : Iss) (f : Gang → Gang) : (s.modGang i f).heldSteps = s.heldSteps := rfl
@[simp] theorem State.modGang_coldDue (s : State) (i : Iss) (f : Gang → Gang) : (s.modGang i f).coldDue = s.coldDue := rfl
@[simp] theorem State.modGang_mem (s : State) (i : Iss) (f : Gang → Gang) : (s.modGang i f).mem = s.mem := rfl
@[simp] theorem State.modGang_tags (s : State) (i : Iss) (f : Gang → Gang) : (s.modGang i f).tags = s.tags := rfl
@[simp] theorem State.modGang_images (s : State) (i : Iss) (f : Gang → Gang) : (s.modGang i f).images = s.images := rfl
@[simp] theorem State.modGang_scratch (s : State) (i : Iss) (f : Gang → Gang) : (s.modGang i f).scratch = s.scratch := rfl
@[simp] theorem State.modGang_host (s : State) (i : Iss) (f : Gang → Gang) : (s.modGang i f).host = s.host := rfl
@[simp] theorem State.modGang_teams (s : State) (i : Iss) (f : Gang → Gang) : (s.modGang i f).teams = s.teams := rfl
@[simp] theorem State.modGang_launches (s : State) (i : Iss) (f : Gang → Gang) : (s.modGang i f).launches = s.launches := rfl
@[simp] theorem State.modGang_bars (s : State) (i : Iss) (f : Gang → Gang) : (s.modGang i f).bars = s.bars := rfl
@[simp] theorem State.modGang_oq (s : State) (i : Iss) (f : Gang → Gang) : (s.modGang i f).oq = s.oq := rfl
@[simp] theorem State.modGang_ops (s : State) (i : Iss) (f : Gang → Gang) : (s.modGang i f).ops = s.ops := rfl
@[simp] theorem State.modGang_reqs (s : State) (i : Iss) (f : Gang → Gang) : (s.modGang i f).reqs = s.reqs := rfl
@[simp] theorem State.modGang_faults (s : State) (i : Iss) (f : Gang → Gang) : (s.modGang i f).faults = s.faults := rfl
@[simp] theorem State.modGang_tlb (s : State) (i : Iss) (f : Gang → Gang) : (s.modGang i f).tlb = s.tlb := rfl
@[simp] theorem State.modGang_sheaves (s : State) (i : Iss) (f : Gang → Gang) : (s.modGang i f).sheaves = s.sheaves := rfl
@[simp] theorem State.modGang_versions (s : State) (i : Iss) (f : Gang → Gang) : (s.modGang i f).versions = s.versions := rfl
@[simp] theorem State.modGang_funcs (s : State) (i : Iss) (f : Gang → Gang) : (s.modGang i f).funcs = s.funcs := rfl
@[simp] theorem State.modGang_keys (s : State) (i : Iss) (f : Gang → Gang) : (s.modGang i f).keys = s.keys := rfl
@[simp] theorem State.modGang_clusters (s : State) (i : Iss) (f : Gang → Gang) : (s.modGang i f).clusters = s.clusters := rfl
@[simp] theorem State.modGang_cores (s : State) (i : Iss) (f : Gang → Gang) : (s.modGang i f).cores = s.cores := rfl
@[simp] theorem State.modGang_ports (s : State) (i : Iss) (f : Gang → Gang) : (s.modGang i f).ports = s.ports := rfl
@[simp] theorem State.modGang_irqs (s : State) (i : Iss) (f : Gang → Gang) : (s.modGang i f).irqs = s.irqs := rfl
@[simp] theorem State.modGang_partitions (s : State) (i : Iss) (f : Gang → Gang) : (s.modGang i f).partitions = s.partitions := rfl
@[simp] theorem State.modGang_islands (s : State) (i : Iss) (f : Gang → Gang) : (s.modGang i f).islands = s.islands := rfl
@[simp] theorem State.modGang_reserve (s : State) (i : Iss) (f : Gang → Gang) : (s.modGang i f).reserve = s.reserve := rfl
@[simp] theorem State.modGang_energy (s : State) (i : Iss) (f : Gang → Gang) : (s.modGang i f).energy = s.energy := rfl
@[simp] theorem State.modGang_fnpriv (s : State) (i : Iss) (f : Gang → Gang) : (s.modGang i f).fnpriv = s.fnpriv := rfl

@[simp] theorem State.modFunc_agenda (s : State) (n : Nat) (f : Func → Func) : (s.modFunc n f).agenda = s.agenda := rfl
@[simp] theorem State.modFunc_turn (s : State) (n : Nat) (f : Func → Func) : (s.modFunc n f).turn = s.turn := rfl
@[simp] theorem State.modFunc_cur (s : State) (n : Nat) (f : Func → Func) : (s.modFunc n f).cur = s.cur := rfl
@[simp] theorem State.modFunc_devnum (s : State) (n : Nat) (f : Func → Func) : (s.modFunc n f).devnum = s.devnum := rfl
@[simp] theorem State.modFunc_caln (s : State) (n : Nat) (f : Func → Func) : (s.modFunc n f).caln = s.caln := rfl
@[simp] theorem State.modFunc_slots (s : State) (n : Nat) (f : Func → Func) : (s.modFunc n f).slots = s.slots := rfl
@[simp] theorem State.modFunc_cached (s : State) (n : Nat) (f : Func → Func) : (s.modFunc n f).cached = s.cached := rfl
@[simp] theorem State.modFunc_tier (s : State) (n : Nat) (f : Func → Func) : (s.modFunc n f).tier = s.tier := rfl
@[simp] theorem State.modFunc_regLines (s : State) (n : Nat) (f : Func → Func) : (s.modFunc n f).regLines = s.regLines := rfl
@[simp] theorem State.modFunc_slices (s : State) (n : Nat) (f : Func → Func) : (s.modFunc n f).slices = s.slices := rfl
@[simp] theorem State.modFunc_heldSteps (s : State) (n : Nat) (f : Func → Func) : (s.modFunc n f).heldSteps = s.heldSteps := rfl
@[simp] theorem State.modFunc_coldDue (s : State) (n : Nat) (f : Func → Func) : (s.modFunc n f).coldDue = s.coldDue := rfl
@[simp] theorem State.modFunc_mem (s : State) (n : Nat) (f : Func → Func) : (s.modFunc n f).mem = s.mem := rfl
@[simp] theorem State.modFunc_tags (s : State) (n : Nat) (f : Func → Func) : (s.modFunc n f).tags = s.tags := rfl
@[simp] theorem State.modFunc_images (s : State) (n : Nat) (f : Func → Func) : (s.modFunc n f).images = s.images := rfl
@[simp] theorem State.modFunc_scratch (s : State) (n : Nat) (f : Func → Func) : (s.modFunc n f).scratch = s.scratch := rfl
@[simp] theorem State.modFunc_host (s : State) (n : Nat) (f : Func → Func) : (s.modFunc n f).host = s.host := rfl
@[simp] theorem State.modFunc_groups (s : State) (n : Nat) (f : Func → Func) : (s.modFunc n f).groups = s.groups := rfl
@[simp] theorem State.modFunc_teams (s : State) (n : Nat) (f : Func → Func) : (s.modFunc n f).teams = s.teams := rfl
@[simp] theorem State.modFunc_launches (s : State) (n : Nat) (f : Func → Func) : (s.modFunc n f).launches = s.launches := rfl
@[simp] theorem State.modFunc_bars (s : State) (n : Nat) (f : Func → Func) : (s.modFunc n f).bars = s.bars := rfl
@[simp] theorem State.modFunc_oq (s : State) (n : Nat) (f : Func → Func) : (s.modFunc n f).oq = s.oq := rfl
@[simp] theorem State.modFunc_ops (s : State) (n : Nat) (f : Func → Func) : (s.modFunc n f).ops = s.ops := rfl
@[simp] theorem State.modFunc_reqs (s : State) (n : Nat) (f : Func → Func) : (s.modFunc n f).reqs = s.reqs := rfl
@[simp] theorem State.modFunc_faults (s : State) (n : Nat) (f : Func → Func) : (s.modFunc n f).faults = s.faults := rfl
@[simp] theorem State.modFunc_tlb (s : State) (n : Nat) (f : Func → Func) : (s.modFunc n f).tlb = s.tlb := rfl
@[simp] theorem State.modFunc_sheaves (s : State) (n : Nat) (f : Func → Func) : (s.modFunc n f).sheaves = s.sheaves := rfl
@[simp] theorem State.modFunc_versions (s : State) (n : Nat) (f : Func → Func) : (s.modFunc n f).versions = s.versions := rfl
@[simp] theorem State.modFunc_keys (s : State) (n : Nat) (f : Func → Func) : (s.modFunc n f).keys = s.keys := rfl
@[simp] theorem State.modFunc_clusters (s : State) (n : Nat) (f : Func → Func) : (s.modFunc n f).clusters = s.clusters := rfl
@[simp] theorem State.modFunc_cores (s : State) (n : Nat) (f : Func → Func) : (s.modFunc n f).cores = s.cores := rfl
@[simp] theorem State.modFunc_ports (s : State) (n : Nat) (f : Func → Func) : (s.modFunc n f).ports = s.ports := rfl
@[simp] theorem State.modFunc_irqs (s : State) (n : Nat) (f : Func → Func) : (s.modFunc n f).irqs = s.irqs := rfl
@[simp] theorem State.modFunc_partitions (s : State) (n : Nat) (f : Func → Func) : (s.modFunc n f).partitions = s.partitions := rfl
@[simp] theorem State.modFunc_islands (s : State) (n : Nat) (f : Func → Func) : (s.modFunc n f).islands = s.islands := rfl
@[simp] theorem State.modFunc_reserve (s : State) (n : Nat) (f : Func → Func) : (s.modFunc n f).reserve = s.reserve := rfl
@[simp] theorem State.modFunc_energy (s : State) (n : Nat) (f : Func → Func) : (s.modFunc n f).energy = s.energy := rfl
@[simp] theorem State.modFunc_fnpriv (s : State) (n : Nat) (f : Func → Func) : (s.modFunc n f).fnpriv = s.fnpriv := rfl

@[simp] theorem State.modQueue_agenda (s : State) (n q : Nat) (f : Queue → Queue) : (s.modQueue n q f).agenda = s.agenda := rfl
@[simp] theorem State.modQueue_turn (s : State) (n q : Nat) (f : Queue → Queue) : (s.modQueue n q f).turn = s.turn := rfl
@[simp] theorem State.modQueue_cur (s : State) (n q : Nat) (f : Queue → Queue) : (s.modQueue n q f).cur = s.cur := rfl
@[simp] theorem State.modQueue_devnum (s : State) (n q : Nat) (f : Queue → Queue) : (s.modQueue n q f).devnum = s.devnum := rfl
@[simp] theorem State.modQueue_caln (s : State) (n q : Nat) (f : Queue → Queue) : (s.modQueue n q f).caln = s.caln := rfl
@[simp] theorem State.modQueue_slots (s : State) (n q : Nat) (f : Queue → Queue) : (s.modQueue n q f).slots = s.slots := rfl
@[simp] theorem State.modQueue_cached (s : State) (n q : Nat) (f : Queue → Queue) : (s.modQueue n q f).cached = s.cached := rfl
@[simp] theorem State.modQueue_tier (s : State) (n q : Nat) (f : Queue → Queue) : (s.modQueue n q f).tier = s.tier := rfl
@[simp] theorem State.modQueue_regLines (s : State) (n q : Nat) (f : Queue → Queue) : (s.modQueue n q f).regLines = s.regLines := rfl
@[simp] theorem State.modQueue_slices (s : State) (n q : Nat) (f : Queue → Queue) : (s.modQueue n q f).slices = s.slices := rfl
@[simp] theorem State.modQueue_heldSteps (s : State) (n q : Nat) (f : Queue → Queue) : (s.modQueue n q f).heldSteps = s.heldSteps := rfl
@[simp] theorem State.modQueue_coldDue (s : State) (n q : Nat) (f : Queue → Queue) : (s.modQueue n q f).coldDue = s.coldDue := rfl
@[simp] theorem State.modQueue_mem (s : State) (n q : Nat) (f : Queue → Queue) : (s.modQueue n q f).mem = s.mem := rfl
@[simp] theorem State.modQueue_tags (s : State) (n q : Nat) (f : Queue → Queue) : (s.modQueue n q f).tags = s.tags := rfl
@[simp] theorem State.modQueue_images (s : State) (n q : Nat) (f : Queue → Queue) : (s.modQueue n q f).images = s.images := rfl
@[simp] theorem State.modQueue_scratch (s : State) (n q : Nat) (f : Queue → Queue) : (s.modQueue n q f).scratch = s.scratch := rfl
@[simp] theorem State.modQueue_host (s : State) (n q : Nat) (f : Queue → Queue) : (s.modQueue n q f).host = s.host := rfl
@[simp] theorem State.modQueue_groups (s : State) (n q : Nat) (f : Queue → Queue) : (s.modQueue n q f).groups = s.groups := rfl
@[simp] theorem State.modQueue_teams (s : State) (n q : Nat) (f : Queue → Queue) : (s.modQueue n q f).teams = s.teams := rfl
@[simp] theorem State.modQueue_launches (s : State) (n q : Nat) (f : Queue → Queue) : (s.modQueue n q f).launches = s.launches := rfl
@[simp] theorem State.modQueue_bars (s : State) (n q : Nat) (f : Queue → Queue) : (s.modQueue n q f).bars = s.bars := rfl
@[simp] theorem State.modQueue_oq (s : State) (n q : Nat) (f : Queue → Queue) : (s.modQueue n q f).oq = s.oq := rfl
@[simp] theorem State.modQueue_ops (s : State) (n q : Nat) (f : Queue → Queue) : (s.modQueue n q f).ops = s.ops := rfl
@[simp] theorem State.modQueue_reqs (s : State) (n q : Nat) (f : Queue → Queue) : (s.modQueue n q f).reqs = s.reqs := rfl
@[simp] theorem State.modQueue_faults (s : State) (n q : Nat) (f : Queue → Queue) : (s.modQueue n q f).faults = s.faults := rfl
@[simp] theorem State.modQueue_tlb (s : State) (n q : Nat) (f : Queue → Queue) : (s.modQueue n q f).tlb = s.tlb := rfl
@[simp] theorem State.modQueue_sheaves (s : State) (n q : Nat) (f : Queue → Queue) : (s.modQueue n q f).sheaves = s.sheaves := rfl
@[simp] theorem State.modQueue_versions (s : State) (n q : Nat) (f : Queue → Queue) : (s.modQueue n q f).versions = s.versions := rfl
@[simp] theorem State.modQueue_keys (s : State) (n q : Nat) (f : Queue → Queue) : (s.modQueue n q f).keys = s.keys := rfl
@[simp] theorem State.modQueue_clusters (s : State) (n q : Nat) (f : Queue → Queue) : (s.modQueue n q f).clusters = s.clusters := rfl
@[simp] theorem State.modQueue_cores (s : State) (n q : Nat) (f : Queue → Queue) : (s.modQueue n q f).cores = s.cores := rfl
@[simp] theorem State.modQueue_ports (s : State) (n q : Nat) (f : Queue → Queue) : (s.modQueue n q f).ports = s.ports := rfl
@[simp] theorem State.modQueue_irqs (s : State) (n q : Nat) (f : Queue → Queue) : (s.modQueue n q f).irqs = s.irqs := rfl
@[simp] theorem State.modQueue_partitions (s : State) (n q : Nat) (f : Queue → Queue) : (s.modQueue n q f).partitions = s.partitions := rfl
@[simp] theorem State.modQueue_islands (s : State) (n q : Nat) (f : Queue → Queue) : (s.modQueue n q f).islands = s.islands := rfl
@[simp] theorem State.modQueue_reserve (s : State) (n q : Nat) (f : Queue → Queue) : (s.modQueue n q f).reserve = s.reserve := rfl
@[simp] theorem State.modQueue_energy (s : State) (n q : Nat) (f : Queue → Queue) : (s.modQueue n q f).energy = s.energy := rfl
@[simp] theorem State.modQueue_fnpriv (s : State) (n q : Nat) (f : Queue → Queue) : (s.modQueue n q f).fnpriv = s.fnpriv := rfl

@[simp] theorem State.modTask_agenda (s : State) (n q : Nat) (f : Task → Task) : (s.modTask n q f).agenda = s.agenda := rfl
@[simp] theorem State.modTask_turn (s : State) (n q : Nat) (f : Task → Task) : (s.modTask n q f).turn = s.turn := rfl
@[simp] theorem State.modTask_cur (s : State) (n q : Nat) (f : Task → Task) : (s.modTask n q f).cur = s.cur := rfl
@[simp] theorem State.modTask_devnum (s : State) (n q : Nat) (f : Task → Task) : (s.modTask n q f).devnum = s.devnum := rfl
@[simp] theorem State.modTask_caln (s : State) (n q : Nat) (f : Task → Task) : (s.modTask n q f).caln = s.caln := rfl
@[simp] theorem State.modTask_slots (s : State) (n q : Nat) (f : Task → Task) : (s.modTask n q f).slots = s.slots := rfl
@[simp] theorem State.modTask_cached (s : State) (n q : Nat) (f : Task → Task) : (s.modTask n q f).cached = s.cached := rfl
@[simp] theorem State.modTask_tier (s : State) (n q : Nat) (f : Task → Task) : (s.modTask n q f).tier = s.tier := rfl
@[simp] theorem State.modTask_regLines (s : State) (n q : Nat) (f : Task → Task) : (s.modTask n q f).regLines = s.regLines := rfl
@[simp] theorem State.modTask_slices (s : State) (n q : Nat) (f : Task → Task) : (s.modTask n q f).slices = s.slices := rfl
@[simp] theorem State.modTask_heldSteps (s : State) (n q : Nat) (f : Task → Task) : (s.modTask n q f).heldSteps = s.heldSteps := rfl
@[simp] theorem State.modTask_coldDue (s : State) (n q : Nat) (f : Task → Task) : (s.modTask n q f).coldDue = s.coldDue := rfl
@[simp] theorem State.modTask_mem (s : State) (n q : Nat) (f : Task → Task) : (s.modTask n q f).mem = s.mem := rfl
@[simp] theorem State.modTask_tags (s : State) (n q : Nat) (f : Task → Task) : (s.modTask n q f).tags = s.tags := rfl
@[simp] theorem State.modTask_images (s : State) (n q : Nat) (f : Task → Task) : (s.modTask n q f).images = s.images := rfl
@[simp] theorem State.modTask_scratch (s : State) (n q : Nat) (f : Task → Task) : (s.modTask n q f).scratch = s.scratch := rfl
@[simp] theorem State.modTask_host (s : State) (n q : Nat) (f : Task → Task) : (s.modTask n q f).host = s.host := rfl
@[simp] theorem State.modTask_groups (s : State) (n q : Nat) (f : Task → Task) : (s.modTask n q f).groups = s.groups := rfl
@[simp] theorem State.modTask_teams (s : State) (n q : Nat) (f : Task → Task) : (s.modTask n q f).teams = s.teams := rfl
@[simp] theorem State.modTask_launches (s : State) (n q : Nat) (f : Task → Task) : (s.modTask n q f).launches = s.launches := rfl
@[simp] theorem State.modTask_bars (s : State) (n q : Nat) (f : Task → Task) : (s.modTask n q f).bars = s.bars := rfl
@[simp] theorem State.modTask_oq (s : State) (n q : Nat) (f : Task → Task) : (s.modTask n q f).oq = s.oq := rfl
@[simp] theorem State.modTask_ops (s : State) (n q : Nat) (f : Task → Task) : (s.modTask n q f).ops = s.ops := rfl
@[simp] theorem State.modTask_reqs (s : State) (n q : Nat) (f : Task → Task) : (s.modTask n q f).reqs = s.reqs := rfl
@[simp] theorem State.modTask_faults (s : State) (n q : Nat) (f : Task → Task) : (s.modTask n q f).faults = s.faults := rfl
@[simp] theorem State.modTask_tlb (s : State) (n q : Nat) (f : Task → Task) : (s.modTask n q f).tlb = s.tlb := rfl
@[simp] theorem State.modTask_sheaves (s : State) (n q : Nat) (f : Task → Task) : (s.modTask n q f).sheaves = s.sheaves := rfl
@[simp] theorem State.modTask_versions (s : State) (n q : Nat) (f : Task → Task) : (s.modTask n q f).versions = s.versions := rfl
@[simp] theorem State.modTask_keys (s : State) (n q : Nat) (f : Task → Task) : (s.modTask n q f).keys = s.keys := rfl
@[simp] theorem State.modTask_clusters (s : State) (n q : Nat) (f : Task → Task) : (s.modTask n q f).clusters = s.clusters := rfl
@[simp] theorem State.modTask_cores (s : State) (n q : Nat) (f : Task → Task) : (s.modTask n q f).cores = s.cores := rfl
@[simp] theorem State.modTask_ports (s : State) (n q : Nat) (f : Task → Task) : (s.modTask n q f).ports = s.ports := rfl
@[simp] theorem State.modTask_irqs (s : State) (n q : Nat) (f : Task → Task) : (s.modTask n q f).irqs = s.irqs := rfl
@[simp] theorem State.modTask_partitions (s : State) (n q : Nat) (f : Task → Task) : (s.modTask n q f).partitions = s.partitions := rfl
@[simp] theorem State.modTask_islands (s : State) (n q : Nat) (f : Task → Task) : (s.modTask n q f).islands = s.islands := rfl
@[simp] theorem State.modTask_reserve (s : State) (n q : Nat) (f : Task → Task) : (s.modTask n q f).reserve = s.reserve := rfl
@[simp] theorem State.modTask_energy (s : State) (n q : Nat) (f : Task → Task) : (s.modTask n q f).energy = s.energy := rfl
@[simp] theorem State.modTask_fnpriv (s : State) (n q : Nat) (f : Task → Task) : (s.modTask n q f).fnpriv = s.fnpriv := rfl

@[simp] theorem State.modCluster_agenda (s : State) (n : Nat) (f : Cluster → Cluster) : (s.modCluster n f).agenda = s.agenda := rfl
@[simp] theorem State.modCluster_turn (s : State) (n : Nat) (f : Cluster → Cluster) : (s.modCluster n f).turn = s.turn := rfl
@[simp] theorem State.modCluster_cur (s : State) (n : Nat) (f : Cluster → Cluster) : (s.modCluster n f).cur = s.cur := rfl
@[simp] theorem State.modCluster_devnum (s : State) (n : Nat) (f : Cluster → Cluster) : (s.modCluster n f).devnum = s.devnum := rfl
@[simp] theorem State.modCluster_caln (s : State) (n : Nat) (f : Cluster → Cluster) : (s.modCluster n f).caln = s.caln := rfl
@[simp] theorem State.modCluster_slots (s : State) (n : Nat) (f : Cluster → Cluster) : (s.modCluster n f).slots = s.slots := rfl
@[simp] theorem State.modCluster_cached (s : State) (n : Nat) (f : Cluster → Cluster) : (s.modCluster n f).cached = s.cached := rfl
@[simp] theorem State.modCluster_tier (s : State) (n : Nat) (f : Cluster → Cluster) : (s.modCluster n f).tier = s.tier := rfl
@[simp] theorem State.modCluster_regLines (s : State) (n : Nat) (f : Cluster → Cluster) : (s.modCluster n f).regLines = s.regLines := rfl
@[simp] theorem State.modCluster_slices (s : State) (n : Nat) (f : Cluster → Cluster) : (s.modCluster n f).slices = s.slices := rfl
@[simp] theorem State.modCluster_heldSteps (s : State) (n : Nat) (f : Cluster → Cluster) : (s.modCluster n f).heldSteps = s.heldSteps := rfl
@[simp] theorem State.modCluster_coldDue (s : State) (n : Nat) (f : Cluster → Cluster) : (s.modCluster n f).coldDue = s.coldDue := rfl
@[simp] theorem State.modCluster_mem (s : State) (n : Nat) (f : Cluster → Cluster) : (s.modCluster n f).mem = s.mem := rfl
@[simp] theorem State.modCluster_tags (s : State) (n : Nat) (f : Cluster → Cluster) : (s.modCluster n f).tags = s.tags := rfl
@[simp] theorem State.modCluster_images (s : State) (n : Nat) (f : Cluster → Cluster) : (s.modCluster n f).images = s.images := rfl
@[simp] theorem State.modCluster_scratch (s : State) (n : Nat) (f : Cluster → Cluster) : (s.modCluster n f).scratch = s.scratch := rfl
@[simp] theorem State.modCluster_host (s : State) (n : Nat) (f : Cluster → Cluster) : (s.modCluster n f).host = s.host := rfl
@[simp] theorem State.modCluster_groups (s : State) (n : Nat) (f : Cluster → Cluster) : (s.modCluster n f).groups = s.groups := rfl
@[simp] theorem State.modCluster_teams (s : State) (n : Nat) (f : Cluster → Cluster) : (s.modCluster n f).teams = s.teams := rfl
@[simp] theorem State.modCluster_launches (s : State) (n : Nat) (f : Cluster → Cluster) : (s.modCluster n f).launches = s.launches := rfl
@[simp] theorem State.modCluster_bars (s : State) (n : Nat) (f : Cluster → Cluster) : (s.modCluster n f).bars = s.bars := rfl
@[simp] theorem State.modCluster_oq (s : State) (n : Nat) (f : Cluster → Cluster) : (s.modCluster n f).oq = s.oq := rfl
@[simp] theorem State.modCluster_ops (s : State) (n : Nat) (f : Cluster → Cluster) : (s.modCluster n f).ops = s.ops := rfl
@[simp] theorem State.modCluster_reqs (s : State) (n : Nat) (f : Cluster → Cluster) : (s.modCluster n f).reqs = s.reqs := rfl
@[simp] theorem State.modCluster_faults (s : State) (n : Nat) (f : Cluster → Cluster) : (s.modCluster n f).faults = s.faults := rfl
@[simp] theorem State.modCluster_tlb (s : State) (n : Nat) (f : Cluster → Cluster) : (s.modCluster n f).tlb = s.tlb := rfl
@[simp] theorem State.modCluster_sheaves (s : State) (n : Nat) (f : Cluster → Cluster) : (s.modCluster n f).sheaves = s.sheaves := rfl
@[simp] theorem State.modCluster_versions (s : State) (n : Nat) (f : Cluster → Cluster) : (s.modCluster n f).versions = s.versions := rfl
@[simp] theorem State.modCluster_funcs (s : State) (n : Nat) (f : Cluster → Cluster) : (s.modCluster n f).funcs = s.funcs := rfl
@[simp] theorem State.modCluster_keys (s : State) (n : Nat) (f : Cluster → Cluster) : (s.modCluster n f).keys = s.keys := rfl
@[simp] theorem State.modCluster_cores (s : State) (n : Nat) (f : Cluster → Cluster) : (s.modCluster n f).cores = s.cores := rfl
@[simp] theorem State.modCluster_ports (s : State) (n : Nat) (f : Cluster → Cluster) : (s.modCluster n f).ports = s.ports := rfl
@[simp] theorem State.modCluster_irqs (s : State) (n : Nat) (f : Cluster → Cluster) : (s.modCluster n f).irqs = s.irqs := rfl
@[simp] theorem State.modCluster_partitions (s : State) (n : Nat) (f : Cluster → Cluster) : (s.modCluster n f).partitions = s.partitions := rfl
@[simp] theorem State.modCluster_islands (s : State) (n : Nat) (f : Cluster → Cluster) : (s.modCluster n f).islands = s.islands := rfl
@[simp] theorem State.modCluster_reserve (s : State) (n : Nat) (f : Cluster → Cluster) : (s.modCluster n f).reserve = s.reserve := rfl
@[simp] theorem State.modCluster_energy (s : State) (n : Nat) (f : Cluster → Cluster) : (s.modCluster n f).energy = s.energy := rfl
@[simp] theorem State.modCluster_fnpriv (s : State) (n : Nat) (f : Cluster → Cluster) : (s.modCluster n f).fnpriv = s.fnpriv := rfl

@[simp] theorem State.modCoreReg_agenda (s : State) (n : Nat) (f : CoreReg → CoreReg) : (s.modCoreReg n f).agenda = s.agenda := rfl
@[simp] theorem State.modCoreReg_turn (s : State) (n : Nat) (f : CoreReg → CoreReg) : (s.modCoreReg n f).turn = s.turn := rfl
@[simp] theorem State.modCoreReg_cur (s : State) (n : Nat) (f : CoreReg → CoreReg) : (s.modCoreReg n f).cur = s.cur := rfl
@[simp] theorem State.modCoreReg_devnum (s : State) (n : Nat) (f : CoreReg → CoreReg) : (s.modCoreReg n f).devnum = s.devnum := rfl
@[simp] theorem State.modCoreReg_caln (s : State) (n : Nat) (f : CoreReg → CoreReg) : (s.modCoreReg n f).caln = s.caln := rfl
@[simp] theorem State.modCoreReg_slots (s : State) (n : Nat) (f : CoreReg → CoreReg) : (s.modCoreReg n f).slots = s.slots := rfl
@[simp] theorem State.modCoreReg_cached (s : State) (n : Nat) (f : CoreReg → CoreReg) : (s.modCoreReg n f).cached = s.cached := rfl
@[simp] theorem State.modCoreReg_tier (s : State) (n : Nat) (f : CoreReg → CoreReg) : (s.modCoreReg n f).tier = s.tier := rfl
@[simp] theorem State.modCoreReg_regLines (s : State) (n : Nat) (f : CoreReg → CoreReg) : (s.modCoreReg n f).regLines = s.regLines := rfl
@[simp] theorem State.modCoreReg_slices (s : State) (n : Nat) (f : CoreReg → CoreReg) : (s.modCoreReg n f).slices = s.slices := rfl
@[simp] theorem State.modCoreReg_heldSteps (s : State) (n : Nat) (f : CoreReg → CoreReg) : (s.modCoreReg n f).heldSteps = s.heldSteps := rfl
@[simp] theorem State.modCoreReg_coldDue (s : State) (n : Nat) (f : CoreReg → CoreReg) : (s.modCoreReg n f).coldDue = s.coldDue := rfl
@[simp] theorem State.modCoreReg_mem (s : State) (n : Nat) (f : CoreReg → CoreReg) : (s.modCoreReg n f).mem = s.mem := rfl
@[simp] theorem State.modCoreReg_tags (s : State) (n : Nat) (f : CoreReg → CoreReg) : (s.modCoreReg n f).tags = s.tags := rfl
@[simp] theorem State.modCoreReg_images (s : State) (n : Nat) (f : CoreReg → CoreReg) : (s.modCoreReg n f).images = s.images := rfl
@[simp] theorem State.modCoreReg_scratch (s : State) (n : Nat) (f : CoreReg → CoreReg) : (s.modCoreReg n f).scratch = s.scratch := rfl
@[simp] theorem State.modCoreReg_host (s : State) (n : Nat) (f : CoreReg → CoreReg) : (s.modCoreReg n f).host = s.host := rfl
@[simp] theorem State.modCoreReg_groups (s : State) (n : Nat) (f : CoreReg → CoreReg) : (s.modCoreReg n f).groups = s.groups := rfl
@[simp] theorem State.modCoreReg_teams (s : State) (n : Nat) (f : CoreReg → CoreReg) : (s.modCoreReg n f).teams = s.teams := rfl
@[simp] theorem State.modCoreReg_launches (s : State) (n : Nat) (f : CoreReg → CoreReg) : (s.modCoreReg n f).launches = s.launches := rfl
@[simp] theorem State.modCoreReg_bars (s : State) (n : Nat) (f : CoreReg → CoreReg) : (s.modCoreReg n f).bars = s.bars := rfl
@[simp] theorem State.modCoreReg_oq (s : State) (n : Nat) (f : CoreReg → CoreReg) : (s.modCoreReg n f).oq = s.oq := rfl
@[simp] theorem State.modCoreReg_ops (s : State) (n : Nat) (f : CoreReg → CoreReg) : (s.modCoreReg n f).ops = s.ops := rfl
@[simp] theorem State.modCoreReg_reqs (s : State) (n : Nat) (f : CoreReg → CoreReg) : (s.modCoreReg n f).reqs = s.reqs := rfl
@[simp] theorem State.modCoreReg_faults (s : State) (n : Nat) (f : CoreReg → CoreReg) : (s.modCoreReg n f).faults = s.faults := rfl
@[simp] theorem State.modCoreReg_tlb (s : State) (n : Nat) (f : CoreReg → CoreReg) : (s.modCoreReg n f).tlb = s.tlb := rfl
@[simp] theorem State.modCoreReg_sheaves (s : State) (n : Nat) (f : CoreReg → CoreReg) : (s.modCoreReg n f).sheaves = s.sheaves := rfl
@[simp] theorem State.modCoreReg_versions (s : State) (n : Nat) (f : CoreReg → CoreReg) : (s.modCoreReg n f).versions = s.versions := rfl
@[simp] theorem State.modCoreReg_funcs (s : State) (n : Nat) (f : CoreReg → CoreReg) : (s.modCoreReg n f).funcs = s.funcs := rfl
@[simp] theorem State.modCoreReg_keys (s : State) (n : Nat) (f : CoreReg → CoreReg) : (s.modCoreReg n f).keys = s.keys := rfl
@[simp] theorem State.modCoreReg_clusters (s : State) (n : Nat) (f : CoreReg → CoreReg) : (s.modCoreReg n f).clusters = s.clusters := rfl
@[simp] theorem State.modCoreReg_ports (s : State) (n : Nat) (f : CoreReg → CoreReg) : (s.modCoreReg n f).ports = s.ports := rfl
@[simp] theorem State.modCoreReg_irqs (s : State) (n : Nat) (f : CoreReg → CoreReg) : (s.modCoreReg n f).irqs = s.irqs := rfl
@[simp] theorem State.modCoreReg_partitions (s : State) (n : Nat) (f : CoreReg → CoreReg) : (s.modCoreReg n f).partitions = s.partitions := rfl
@[simp] theorem State.modCoreReg_islands (s : State) (n : Nat) (f : CoreReg → CoreReg) : (s.modCoreReg n f).islands = s.islands := rfl
@[simp] theorem State.modCoreReg_reserve (s : State) (n : Nat) (f : CoreReg → CoreReg) : (s.modCoreReg n f).reserve = s.reserve := rfl
@[simp] theorem State.modCoreReg_energy (s : State) (n : Nat) (f : CoreReg → CoreReg) : (s.modCoreReg n f).energy = s.energy := rfl
@[simp] theorem State.modCoreReg_fnpriv (s : State) (n : Nat) (f : CoreReg → CoreReg) : (s.modCoreReg n f).fnpriv = s.fnpriv := rfl

@[simp] theorem State.modPort_agenda (s : State) (n : Nat) (f : Port → Port) : (s.modPort n f).agenda = s.agenda := rfl
@[simp] theorem State.modPort_turn (s : State) (n : Nat) (f : Port → Port) : (s.modPort n f).turn = s.turn := rfl
@[simp] theorem State.modPort_cur (s : State) (n : Nat) (f : Port → Port) : (s.modPort n f).cur = s.cur := rfl
@[simp] theorem State.modPort_devnum (s : State) (n : Nat) (f : Port → Port) : (s.modPort n f).devnum = s.devnum := rfl
@[simp] theorem State.modPort_caln (s : State) (n : Nat) (f : Port → Port) : (s.modPort n f).caln = s.caln := rfl
@[simp] theorem State.modPort_slots (s : State) (n : Nat) (f : Port → Port) : (s.modPort n f).slots = s.slots := rfl
@[simp] theorem State.modPort_cached (s : State) (n : Nat) (f : Port → Port) : (s.modPort n f).cached = s.cached := rfl
@[simp] theorem State.modPort_tier (s : State) (n : Nat) (f : Port → Port) : (s.modPort n f).tier = s.tier := rfl
@[simp] theorem State.modPort_regLines (s : State) (n : Nat) (f : Port → Port) : (s.modPort n f).regLines = s.regLines := rfl
@[simp] theorem State.modPort_slices (s : State) (n : Nat) (f : Port → Port) : (s.modPort n f).slices = s.slices := rfl
@[simp] theorem State.modPort_heldSteps (s : State) (n : Nat) (f : Port → Port) : (s.modPort n f).heldSteps = s.heldSteps := rfl
@[simp] theorem State.modPort_coldDue (s : State) (n : Nat) (f : Port → Port) : (s.modPort n f).coldDue = s.coldDue := rfl
@[simp] theorem State.modPort_mem (s : State) (n : Nat) (f : Port → Port) : (s.modPort n f).mem = s.mem := rfl
@[simp] theorem State.modPort_tags (s : State) (n : Nat) (f : Port → Port) : (s.modPort n f).tags = s.tags := rfl
@[simp] theorem State.modPort_images (s : State) (n : Nat) (f : Port → Port) : (s.modPort n f).images = s.images := rfl
@[simp] theorem State.modPort_scratch (s : State) (n : Nat) (f : Port → Port) : (s.modPort n f).scratch = s.scratch := rfl
@[simp] theorem State.modPort_host (s : State) (n : Nat) (f : Port → Port) : (s.modPort n f).host = s.host := rfl
@[simp] theorem State.modPort_groups (s : State) (n : Nat) (f : Port → Port) : (s.modPort n f).groups = s.groups := rfl
@[simp] theorem State.modPort_teams (s : State) (n : Nat) (f : Port → Port) : (s.modPort n f).teams = s.teams := rfl
@[simp] theorem State.modPort_launches (s : State) (n : Nat) (f : Port → Port) : (s.modPort n f).launches = s.launches := rfl
@[simp] theorem State.modPort_bars (s : State) (n : Nat) (f : Port → Port) : (s.modPort n f).bars = s.bars := rfl
@[simp] theorem State.modPort_oq (s : State) (n : Nat) (f : Port → Port) : (s.modPort n f).oq = s.oq := rfl
@[simp] theorem State.modPort_ops (s : State) (n : Nat) (f : Port → Port) : (s.modPort n f).ops = s.ops := rfl
@[simp] theorem State.modPort_reqs (s : State) (n : Nat) (f : Port → Port) : (s.modPort n f).reqs = s.reqs := rfl
@[simp] theorem State.modPort_faults (s : State) (n : Nat) (f : Port → Port) : (s.modPort n f).faults = s.faults := rfl
@[simp] theorem State.modPort_tlb (s : State) (n : Nat) (f : Port → Port) : (s.modPort n f).tlb = s.tlb := rfl
@[simp] theorem State.modPort_sheaves (s : State) (n : Nat) (f : Port → Port) : (s.modPort n f).sheaves = s.sheaves := rfl
@[simp] theorem State.modPort_versions (s : State) (n : Nat) (f : Port → Port) : (s.modPort n f).versions = s.versions := rfl
@[simp] theorem State.modPort_funcs (s : State) (n : Nat) (f : Port → Port) : (s.modPort n f).funcs = s.funcs := rfl
@[simp] theorem State.modPort_keys (s : State) (n : Nat) (f : Port → Port) : (s.modPort n f).keys = s.keys := rfl
@[simp] theorem State.modPort_clusters (s : State) (n : Nat) (f : Port → Port) : (s.modPort n f).clusters = s.clusters := rfl
@[simp] theorem State.modPort_cores (s : State) (n : Nat) (f : Port → Port) : (s.modPort n f).cores = s.cores := rfl
@[simp] theorem State.modPort_irqs (s : State) (n : Nat) (f : Port → Port) : (s.modPort n f).irqs = s.irqs := rfl
@[simp] theorem State.modPort_partitions (s : State) (n : Nat) (f : Port → Port) : (s.modPort n f).partitions = s.partitions := rfl
@[simp] theorem State.modPort_islands (s : State) (n : Nat) (f : Port → Port) : (s.modPort n f).islands = s.islands := rfl
@[simp] theorem State.modPort_reserve (s : State) (n : Nat) (f : Port → Port) : (s.modPort n f).reserve = s.reserve := rfl
@[simp] theorem State.modPort_energy (s : State) (n : Nat) (f : Port → Port) : (s.modPort n f).energy = s.energy := rfl
@[simp] theorem State.modPort_fnpriv (s : State) (n : Nat) (f : Port → Port) : (s.modPort n f).fnpriv = s.fnpriv := rfl

@[simp] theorem State.modLaunch_agenda (s : State) (n : Nat) (f : Launch → Launch) : (s.modLaunch n f).agenda = s.agenda := rfl
@[simp] theorem State.modLaunch_turn (s : State) (n : Nat) (f : Launch → Launch) : (s.modLaunch n f).turn = s.turn := rfl
@[simp] theorem State.modLaunch_cur (s : State) (n : Nat) (f : Launch → Launch) : (s.modLaunch n f).cur = s.cur := rfl
@[simp] theorem State.modLaunch_devnum (s : State) (n : Nat) (f : Launch → Launch) : (s.modLaunch n f).devnum = s.devnum := rfl
@[simp] theorem State.modLaunch_caln (s : State) (n : Nat) (f : Launch → Launch) : (s.modLaunch n f).caln = s.caln := rfl
@[simp] theorem State.modLaunch_slots (s : State) (n : Nat) (f : Launch → Launch) : (s.modLaunch n f).slots = s.slots := rfl
@[simp] theorem State.modLaunch_cached (s : State) (n : Nat) (f : Launch → Launch) : (s.modLaunch n f).cached = s.cached := rfl
@[simp] theorem State.modLaunch_tier (s : State) (n : Nat) (f : Launch → Launch) : (s.modLaunch n f).tier = s.tier := rfl
@[simp] theorem State.modLaunch_regLines (s : State) (n : Nat) (f : Launch → Launch) : (s.modLaunch n f).regLines = s.regLines := rfl
@[simp] theorem State.modLaunch_slices (s : State) (n : Nat) (f : Launch → Launch) : (s.modLaunch n f).slices = s.slices := rfl
@[simp] theorem State.modLaunch_heldSteps (s : State) (n : Nat) (f : Launch → Launch) : (s.modLaunch n f).heldSteps = s.heldSteps := rfl
@[simp] theorem State.modLaunch_coldDue (s : State) (n : Nat) (f : Launch → Launch) : (s.modLaunch n f).coldDue = s.coldDue := rfl
@[simp] theorem State.modLaunch_mem (s : State) (n : Nat) (f : Launch → Launch) : (s.modLaunch n f).mem = s.mem := rfl
@[simp] theorem State.modLaunch_tags (s : State) (n : Nat) (f : Launch → Launch) : (s.modLaunch n f).tags = s.tags := rfl
@[simp] theorem State.modLaunch_images (s : State) (n : Nat) (f : Launch → Launch) : (s.modLaunch n f).images = s.images := rfl
@[simp] theorem State.modLaunch_scratch (s : State) (n : Nat) (f : Launch → Launch) : (s.modLaunch n f).scratch = s.scratch := rfl
@[simp] theorem State.modLaunch_host (s : State) (n : Nat) (f : Launch → Launch) : (s.modLaunch n f).host = s.host := rfl
@[simp] theorem State.modLaunch_groups (s : State) (n : Nat) (f : Launch → Launch) : (s.modLaunch n f).groups = s.groups := rfl
@[simp] theorem State.modLaunch_teams (s : State) (n : Nat) (f : Launch → Launch) : (s.modLaunch n f).teams = s.teams := rfl
@[simp] theorem State.modLaunch_bars (s : State) (n : Nat) (f : Launch → Launch) : (s.modLaunch n f).bars = s.bars := rfl
@[simp] theorem State.modLaunch_oq (s : State) (n : Nat) (f : Launch → Launch) : (s.modLaunch n f).oq = s.oq := rfl
@[simp] theorem State.modLaunch_ops (s : State) (n : Nat) (f : Launch → Launch) : (s.modLaunch n f).ops = s.ops := rfl
@[simp] theorem State.modLaunch_reqs (s : State) (n : Nat) (f : Launch → Launch) : (s.modLaunch n f).reqs = s.reqs := rfl
@[simp] theorem State.modLaunch_faults (s : State) (n : Nat) (f : Launch → Launch) : (s.modLaunch n f).faults = s.faults := rfl
@[simp] theorem State.modLaunch_tlb (s : State) (n : Nat) (f : Launch → Launch) : (s.modLaunch n f).tlb = s.tlb := rfl
@[simp] theorem State.modLaunch_sheaves (s : State) (n : Nat) (f : Launch → Launch) : (s.modLaunch n f).sheaves = s.sheaves := rfl
@[simp] theorem State.modLaunch_versions (s : State) (n : Nat) (f : Launch → Launch) : (s.modLaunch n f).versions = s.versions := rfl
@[simp] theorem State.modLaunch_funcs (s : State) (n : Nat) (f : Launch → Launch) : (s.modLaunch n f).funcs = s.funcs := rfl
@[simp] theorem State.modLaunch_keys (s : State) (n : Nat) (f : Launch → Launch) : (s.modLaunch n f).keys = s.keys := rfl
@[simp] theorem State.modLaunch_clusters (s : State) (n : Nat) (f : Launch → Launch) : (s.modLaunch n f).clusters = s.clusters := rfl
@[simp] theorem State.modLaunch_cores (s : State) (n : Nat) (f : Launch → Launch) : (s.modLaunch n f).cores = s.cores := rfl
@[simp] theorem State.modLaunch_ports (s : State) (n : Nat) (f : Launch → Launch) : (s.modLaunch n f).ports = s.ports := rfl
@[simp] theorem State.modLaunch_irqs (s : State) (n : Nat) (f : Launch → Launch) : (s.modLaunch n f).irqs = s.irqs := rfl
@[simp] theorem State.modLaunch_partitions (s : State) (n : Nat) (f : Launch → Launch) : (s.modLaunch n f).partitions = s.partitions := rfl
@[simp] theorem State.modLaunch_islands (s : State) (n : Nat) (f : Launch → Launch) : (s.modLaunch n f).islands = s.islands := rfl
@[simp] theorem State.modLaunch_reserve (s : State) (n : Nat) (f : Launch → Launch) : (s.modLaunch n f).reserve = s.reserve := rfl
@[simp] theorem State.modLaunch_energy (s : State) (n : Nat) (f : Launch → Launch) : (s.modLaunch n f).energy = s.energy := rfl
@[simp] theorem State.modLaunch_fnpriv (s : State) (n : Nat) (f : Launch → Launch) : (s.modLaunch n f).fnpriv = s.fnpriv := rfl

@[simp] theorem State.modTeam_agenda (s : State) (n : Nat) (f : Team → Team) : (s.modTeam n f).agenda = s.agenda := rfl
@[simp] theorem State.modTeam_turn (s : State) (n : Nat) (f : Team → Team) : (s.modTeam n f).turn = s.turn := rfl
@[simp] theorem State.modTeam_cur (s : State) (n : Nat) (f : Team → Team) : (s.modTeam n f).cur = s.cur := rfl
@[simp] theorem State.modTeam_devnum (s : State) (n : Nat) (f : Team → Team) : (s.modTeam n f).devnum = s.devnum := rfl
@[simp] theorem State.modTeam_caln (s : State) (n : Nat) (f : Team → Team) : (s.modTeam n f).caln = s.caln := rfl
@[simp] theorem State.modTeam_slots (s : State) (n : Nat) (f : Team → Team) : (s.modTeam n f).slots = s.slots := rfl
@[simp] theorem State.modTeam_cached (s : State) (n : Nat) (f : Team → Team) : (s.modTeam n f).cached = s.cached := rfl
@[simp] theorem State.modTeam_tier (s : State) (n : Nat) (f : Team → Team) : (s.modTeam n f).tier = s.tier := rfl
@[simp] theorem State.modTeam_regLines (s : State) (n : Nat) (f : Team → Team) : (s.modTeam n f).regLines = s.regLines := rfl
@[simp] theorem State.modTeam_slices (s : State) (n : Nat) (f : Team → Team) : (s.modTeam n f).slices = s.slices := rfl
@[simp] theorem State.modTeam_heldSteps (s : State) (n : Nat) (f : Team → Team) : (s.modTeam n f).heldSteps = s.heldSteps := rfl
@[simp] theorem State.modTeam_coldDue (s : State) (n : Nat) (f : Team → Team) : (s.modTeam n f).coldDue = s.coldDue := rfl
@[simp] theorem State.modTeam_mem (s : State) (n : Nat) (f : Team → Team) : (s.modTeam n f).mem = s.mem := rfl
@[simp] theorem State.modTeam_tags (s : State) (n : Nat) (f : Team → Team) : (s.modTeam n f).tags = s.tags := rfl
@[simp] theorem State.modTeam_images (s : State) (n : Nat) (f : Team → Team) : (s.modTeam n f).images = s.images := rfl
@[simp] theorem State.modTeam_scratch (s : State) (n : Nat) (f : Team → Team) : (s.modTeam n f).scratch = s.scratch := rfl
@[simp] theorem State.modTeam_host (s : State) (n : Nat) (f : Team → Team) : (s.modTeam n f).host = s.host := rfl
@[simp] theorem State.modTeam_groups (s : State) (n : Nat) (f : Team → Team) : (s.modTeam n f).groups = s.groups := rfl
@[simp] theorem State.modTeam_launches (s : State) (n : Nat) (f : Team → Team) : (s.modTeam n f).launches = s.launches := rfl
@[simp] theorem State.modTeam_bars (s : State) (n : Nat) (f : Team → Team) : (s.modTeam n f).bars = s.bars := rfl
@[simp] theorem State.modTeam_oq (s : State) (n : Nat) (f : Team → Team) : (s.modTeam n f).oq = s.oq := rfl
@[simp] theorem State.modTeam_ops (s : State) (n : Nat) (f : Team → Team) : (s.modTeam n f).ops = s.ops := rfl
@[simp] theorem State.modTeam_reqs (s : State) (n : Nat) (f : Team → Team) : (s.modTeam n f).reqs = s.reqs := rfl
@[simp] theorem State.modTeam_faults (s : State) (n : Nat) (f : Team → Team) : (s.modTeam n f).faults = s.faults := rfl
@[simp] theorem State.modTeam_tlb (s : State) (n : Nat) (f : Team → Team) : (s.modTeam n f).tlb = s.tlb := rfl
@[simp] theorem State.modTeam_sheaves (s : State) (n : Nat) (f : Team → Team) : (s.modTeam n f).sheaves = s.sheaves := rfl
@[simp] theorem State.modTeam_versions (s : State) (n : Nat) (f : Team → Team) : (s.modTeam n f).versions = s.versions := rfl
@[simp] theorem State.modTeam_funcs (s : State) (n : Nat) (f : Team → Team) : (s.modTeam n f).funcs = s.funcs := rfl
@[simp] theorem State.modTeam_keys (s : State) (n : Nat) (f : Team → Team) : (s.modTeam n f).keys = s.keys := rfl
@[simp] theorem State.modTeam_clusters (s : State) (n : Nat) (f : Team → Team) : (s.modTeam n f).clusters = s.clusters := rfl
@[simp] theorem State.modTeam_cores (s : State) (n : Nat) (f : Team → Team) : (s.modTeam n f).cores = s.cores := rfl
@[simp] theorem State.modTeam_ports (s : State) (n : Nat) (f : Team → Team) : (s.modTeam n f).ports = s.ports := rfl
@[simp] theorem State.modTeam_irqs (s : State) (n : Nat) (f : Team → Team) : (s.modTeam n f).irqs = s.irqs := rfl
@[simp] theorem State.modTeam_partitions (s : State) (n : Nat) (f : Team → Team) : (s.modTeam n f).partitions = s.partitions := rfl
@[simp] theorem State.modTeam_islands (s : State) (n : Nat) (f : Team → Team) : (s.modTeam n f).islands = s.islands := rfl
@[simp] theorem State.modTeam_reserve (s : State) (n : Nat) (f : Team → Team) : (s.modTeam n f).reserve = s.reserve := rfl
@[simp] theorem State.modTeam_energy (s : State) (n : Nat) (f : Team → Team) : (s.modTeam n f).energy = s.energy := rfl
@[simp] theorem State.modTeam_fnpriv (s : State) (n : Nat) (f : Team → Team) : (s.modTeam n f).fnpriv = s.fnpriv := rfl

@[simp] theorem State.modOp_agenda (s : State) (n : Nat) (f : EngOp → EngOp) : (s.modOp n f).agenda = s.agenda := rfl
@[simp] theorem State.modOp_turn (s : State) (n : Nat) (f : EngOp → EngOp) : (s.modOp n f).turn = s.turn := rfl
@[simp] theorem State.modOp_cur (s : State) (n : Nat) (f : EngOp → EngOp) : (s.modOp n f).cur = s.cur := rfl
@[simp] theorem State.modOp_devnum (s : State) (n : Nat) (f : EngOp → EngOp) : (s.modOp n f).devnum = s.devnum := rfl
@[simp] theorem State.modOp_caln (s : State) (n : Nat) (f : EngOp → EngOp) : (s.modOp n f).caln = s.caln := rfl
@[simp] theorem State.modOp_slots (s : State) (n : Nat) (f : EngOp → EngOp) : (s.modOp n f).slots = s.slots := rfl
@[simp] theorem State.modOp_cached (s : State) (n : Nat) (f : EngOp → EngOp) : (s.modOp n f).cached = s.cached := rfl
@[simp] theorem State.modOp_tier (s : State) (n : Nat) (f : EngOp → EngOp) : (s.modOp n f).tier = s.tier := rfl
@[simp] theorem State.modOp_regLines (s : State) (n : Nat) (f : EngOp → EngOp) : (s.modOp n f).regLines = s.regLines := rfl
@[simp] theorem State.modOp_slices (s : State) (n : Nat) (f : EngOp → EngOp) : (s.modOp n f).slices = s.slices := rfl
@[simp] theorem State.modOp_heldSteps (s : State) (n : Nat) (f : EngOp → EngOp) : (s.modOp n f).heldSteps = s.heldSteps := rfl
@[simp] theorem State.modOp_coldDue (s : State) (n : Nat) (f : EngOp → EngOp) : (s.modOp n f).coldDue = s.coldDue := rfl
@[simp] theorem State.modOp_mem (s : State) (n : Nat) (f : EngOp → EngOp) : (s.modOp n f).mem = s.mem := rfl
@[simp] theorem State.modOp_tags (s : State) (n : Nat) (f : EngOp → EngOp) : (s.modOp n f).tags = s.tags := rfl
@[simp] theorem State.modOp_images (s : State) (n : Nat) (f : EngOp → EngOp) : (s.modOp n f).images = s.images := rfl
@[simp] theorem State.modOp_scratch (s : State) (n : Nat) (f : EngOp → EngOp) : (s.modOp n f).scratch = s.scratch := rfl
@[simp] theorem State.modOp_host (s : State) (n : Nat) (f : EngOp → EngOp) : (s.modOp n f).host = s.host := rfl
@[simp] theorem State.modOp_groups (s : State) (n : Nat) (f : EngOp → EngOp) : (s.modOp n f).groups = s.groups := rfl
@[simp] theorem State.modOp_teams (s : State) (n : Nat) (f : EngOp → EngOp) : (s.modOp n f).teams = s.teams := rfl
@[simp] theorem State.modOp_launches (s : State) (n : Nat) (f : EngOp → EngOp) : (s.modOp n f).launches = s.launches := rfl
@[simp] theorem State.modOp_bars (s : State) (n : Nat) (f : EngOp → EngOp) : (s.modOp n f).bars = s.bars := rfl
@[simp] theorem State.modOp_oq (s : State) (n : Nat) (f : EngOp → EngOp) : (s.modOp n f).oq = s.oq := rfl
@[simp] theorem State.modOp_reqs (s : State) (n : Nat) (f : EngOp → EngOp) : (s.modOp n f).reqs = s.reqs := rfl
@[simp] theorem State.modOp_faults (s : State) (n : Nat) (f : EngOp → EngOp) : (s.modOp n f).faults = s.faults := rfl
@[simp] theorem State.modOp_tlb (s : State) (n : Nat) (f : EngOp → EngOp) : (s.modOp n f).tlb = s.tlb := rfl
@[simp] theorem State.modOp_sheaves (s : State) (n : Nat) (f : EngOp → EngOp) : (s.modOp n f).sheaves = s.sheaves := rfl
@[simp] theorem State.modOp_versions (s : State) (n : Nat) (f : EngOp → EngOp) : (s.modOp n f).versions = s.versions := rfl
@[simp] theorem State.modOp_funcs (s : State) (n : Nat) (f : EngOp → EngOp) : (s.modOp n f).funcs = s.funcs := rfl
@[simp] theorem State.modOp_keys (s : State) (n : Nat) (f : EngOp → EngOp) : (s.modOp n f).keys = s.keys := rfl
@[simp] theorem State.modOp_clusters (s : State) (n : Nat) (f : EngOp → EngOp) : (s.modOp n f).clusters = s.clusters := rfl
@[simp] theorem State.modOp_cores (s : State) (n : Nat) (f : EngOp → EngOp) : (s.modOp n f).cores = s.cores := rfl
@[simp] theorem State.modOp_ports (s : State) (n : Nat) (f : EngOp → EngOp) : (s.modOp n f).ports = s.ports := rfl
@[simp] theorem State.modOp_irqs (s : State) (n : Nat) (f : EngOp → EngOp) : (s.modOp n f).irqs = s.irqs := rfl
@[simp] theorem State.modOp_partitions (s : State) (n : Nat) (f : EngOp → EngOp) : (s.modOp n f).partitions = s.partitions := rfl
@[simp] theorem State.modOp_islands (s : State) (n : Nat) (f : EngOp → EngOp) : (s.modOp n f).islands = s.islands := rfl
@[simp] theorem State.modOp_reserve (s : State) (n : Nat) (f : EngOp → EngOp) : (s.modOp n f).reserve = s.reserve := rfl
@[simp] theorem State.modOp_energy (s : State) (n : Nat) (f : EngOp → EngOp) : (s.modOp n f).energy = s.energy := rfl
@[simp] theorem State.modOp_fnpriv (s : State) (n : Nat) (f : EngOp → EngOp) : (s.modOp n f).fnpriv = s.fnpriv := rfl

@[simp] theorem State.modReq_agenda (s : State) (n : Nat) (f : Req → Req) : (s.modReq n f).agenda = s.agenda := rfl
@[simp] theorem State.modReq_turn (s : State) (n : Nat) (f : Req → Req) : (s.modReq n f).turn = s.turn := rfl
@[simp] theorem State.modReq_cur (s : State) (n : Nat) (f : Req → Req) : (s.modReq n f).cur = s.cur := rfl
@[simp] theorem State.modReq_devnum (s : State) (n : Nat) (f : Req → Req) : (s.modReq n f).devnum = s.devnum := rfl
@[simp] theorem State.modReq_caln (s : State) (n : Nat) (f : Req → Req) : (s.modReq n f).caln = s.caln := rfl
@[simp] theorem State.modReq_slots (s : State) (n : Nat) (f : Req → Req) : (s.modReq n f).slots = s.slots := rfl
@[simp] theorem State.modReq_cached (s : State) (n : Nat) (f : Req → Req) : (s.modReq n f).cached = s.cached := rfl
@[simp] theorem State.modReq_tier (s : State) (n : Nat) (f : Req → Req) : (s.modReq n f).tier = s.tier := rfl
@[simp] theorem State.modReq_regLines (s : State) (n : Nat) (f : Req → Req) : (s.modReq n f).regLines = s.regLines := rfl
@[simp] theorem State.modReq_slices (s : State) (n : Nat) (f : Req → Req) : (s.modReq n f).slices = s.slices := rfl
@[simp] theorem State.modReq_heldSteps (s : State) (n : Nat) (f : Req → Req) : (s.modReq n f).heldSteps = s.heldSteps := rfl
@[simp] theorem State.modReq_coldDue (s : State) (n : Nat) (f : Req → Req) : (s.modReq n f).coldDue = s.coldDue := rfl
@[simp] theorem State.modReq_mem (s : State) (n : Nat) (f : Req → Req) : (s.modReq n f).mem = s.mem := rfl
@[simp] theorem State.modReq_tags (s : State) (n : Nat) (f : Req → Req) : (s.modReq n f).tags = s.tags := rfl
@[simp] theorem State.modReq_images (s : State) (n : Nat) (f : Req → Req) : (s.modReq n f).images = s.images := rfl
@[simp] theorem State.modReq_scratch (s : State) (n : Nat) (f : Req → Req) : (s.modReq n f).scratch = s.scratch := rfl
@[simp] theorem State.modReq_host (s : State) (n : Nat) (f : Req → Req) : (s.modReq n f).host = s.host := rfl
@[simp] theorem State.modReq_groups (s : State) (n : Nat) (f : Req → Req) : (s.modReq n f).groups = s.groups := rfl
@[simp] theorem State.modReq_teams (s : State) (n : Nat) (f : Req → Req) : (s.modReq n f).teams = s.teams := rfl
@[simp] theorem State.modReq_launches (s : State) (n : Nat) (f : Req → Req) : (s.modReq n f).launches = s.launches := rfl
@[simp] theorem State.modReq_bars (s : State) (n : Nat) (f : Req → Req) : (s.modReq n f).bars = s.bars := rfl
@[simp] theorem State.modReq_oq (s : State) (n : Nat) (f : Req → Req) : (s.modReq n f).oq = s.oq := rfl
@[simp] theorem State.modReq_ops (s : State) (n : Nat) (f : Req → Req) : (s.modReq n f).ops = s.ops := rfl
@[simp] theorem State.modReq_faults (s : State) (n : Nat) (f : Req → Req) : (s.modReq n f).faults = s.faults := rfl
@[simp] theorem State.modReq_tlb (s : State) (n : Nat) (f : Req → Req) : (s.modReq n f).tlb = s.tlb := rfl
@[simp] theorem State.modReq_sheaves (s : State) (n : Nat) (f : Req → Req) : (s.modReq n f).sheaves = s.sheaves := rfl
@[simp] theorem State.modReq_versions (s : State) (n : Nat) (f : Req → Req) : (s.modReq n f).versions = s.versions := rfl
@[simp] theorem State.modReq_funcs (s : State) (n : Nat) (f : Req → Req) : (s.modReq n f).funcs = s.funcs := rfl
@[simp] theorem State.modReq_keys (s : State) (n : Nat) (f : Req → Req) : (s.modReq n f).keys = s.keys := rfl
@[simp] theorem State.modReq_clusters (s : State) (n : Nat) (f : Req → Req) : (s.modReq n f).clusters = s.clusters := rfl
@[simp] theorem State.modReq_cores (s : State) (n : Nat) (f : Req → Req) : (s.modReq n f).cores = s.cores := rfl
@[simp] theorem State.modReq_ports (s : State) (n : Nat) (f : Req → Req) : (s.modReq n f).ports = s.ports := rfl
@[simp] theorem State.modReq_irqs (s : State) (n : Nat) (f : Req → Req) : (s.modReq n f).irqs = s.irqs := rfl
@[simp] theorem State.modReq_partitions (s : State) (n : Nat) (f : Req → Req) : (s.modReq n f).partitions = s.partitions := rfl
@[simp] theorem State.modReq_islands (s : State) (n : Nat) (f : Req → Req) : (s.modReq n f).islands = s.islands := rfl
@[simp] theorem State.modReq_reserve (s : State) (n : Nat) (f : Req → Req) : (s.modReq n f).reserve = s.reserve := rfl
@[simp] theorem State.modReq_energy (s : State) (n : Nat) (f : Req → Req) : (s.modReq n f).energy = s.energy := rfl
@[simp] theorem State.modReq_fnpriv (s : State) (n : Nat) (f : Req → Req) : (s.modReq n f).fnpriv = s.fnpriv := rfl

/-! ### Contexts -/

@[simp] theorem State.group_setGroup_same (s : State) (g : Nat) (x : Group) : (s.setGroup g x).group g = some x := by
  simp [State.group, State.setGroup]

theorem State.group_setGroup (s : State) (g j : Nat) (x : Group) : (s.setGroup g x).group j = if j = g then some x else s.group j := by
  simp [State.group, State.setGroup, KMap.get_put]

@[simp] theorem State.group_modGroup_same (s : State) (g : Nat) (f : Group → Group) : (s.modGroup g f).group g = (s.group g).map f := by
  simp [State.group, State.modGroup]

theorem State.group_modGroup (s : State) (g j : Nat) (f : Group → Group) :
    (s.modGroup g f).group j = if j = g then (s.group g).map f else s.group j := by
  simp [State.group, State.modGroup, KMap.get_adjust]

@[simp] theorem State.func_modFunc_same (s : State) (n : Nat) (f : Func → Func) : (s.modFunc n f).func n = f (s.func n) := by
  simp [State.func, State.modFunc, KMap.getD_put]

theorem State.func_modFunc (s : State) (n j : Nat) (f : Func → Func) : (s.modFunc n f).func j = if j = n then f (s.func n) else s.func j := by
  by_cases h : j = n
  · subst h; simp
  · simp [State.func, State.modFunc, KMap.getD_put, h]

@[simp] theorem State.cluster_modCluster_same (s : State) (n : Nat) (f : Cluster → Cluster) :
    (s.modCluster n f).cluster n = f (s.cluster n) := by
  simp [State.cluster, State.modCluster, KMap.getD_put]

@[simp] theorem State.coreReg_modCoreReg_same (s : State) (n : Nat) (f : CoreReg → CoreReg) :
    (s.modCoreReg n f).coreReg n = f (s.coreReg n) := by
  simp [State.coreReg, State.modCoreReg, KMap.getD_put]

/-- An adjusted map keeps a property of its values. -/
theorem KMap.adjust_all {α : Type} (p : α → Prop) (m : KMap α) (k : Nat) (f : α → α) (hf : ∀ x, p x → p (f x)) (h : ∀ e ∈ m, p e.2) :
    ∀ e ∈ KMap.adjust m k f, p e.2 := by
  intro e he
  simp only [KMap.adjust, List.mem_map] at he
  obtain ⟨x, hx, rfl⟩ := he
  split
  · exact hf _ (h x hx)
  · exact h x hx

theorem KMap.put_all {α : Type} (p : α → Prop) (m : KMap α) (k : Nat) (x : α) (hx : p x) (h : ∀ e ∈ m, p e.2) :
    ∀ e ∈ KMap.put m k x, p e.2 := by
  induction m with
  | nil => intro e he; simp only [KMap.put, List.mem_singleton] at he; subst he; exact hx
  | cons y m ih =>
    obtain ⟨a, z⟩ := y
    have h0 : p z := h (a, z) (List.mem_cons_self ..)
    have h1 : ∀ e ∈ m, p e.2 := fun e he => h e (List.mem_cons_of_mem _ he)
    intro e he
    simp only [KMap.put] at he
    split at he
    · rcases List.mem_cons.1 he with rfl | he
      · exact hx
      · exact h1 e he
    · split at he
      · rcases List.mem_cons.1 he with rfl | he
        · exact hx
        · rcases List.mem_cons.1 he with rfl | he
          · exact h0
          · exact h1 e he
      · rcases List.mem_cons.1 he with rfl | he
        · exact h0
        · exact ih h1 e he

theorem KMap.get_mem {α : Type} {m : KMap α} {k : Nat} {x : α} (h : KMap.get m k = some x) : (k, x) ∈ m := by
  induction m with
  | nil => cases h
  | cons y m ih =>
    obtain ⟨a, z⟩ := y
    simp only [KMap.get] at h
    split at h
    · cases h; subst_vars; exact List.mem_cons_self ..
    · exact List.mem_cons_of_mem _ (ih h)

end Sys2Proof.Machine
end

