-- ==== Sys2Proof/Laws/Memory.lean ====
section
/-!
SUPPORT. Every named memory operation keeps the canonical form of every memory, and the reset memories have it.
-/

namespace Sys2Proof.Machine

theorem State.reset_mem_wf : Mem.wf State.reset.mem = true := rfl

theorem State.MemOk.of_same {s t : State} (h : s.MemOk) (h1 : t.mem = s.mem) (h2 : t.scratch = s.scratch) (h3 : t.host = s.host)
    (h4 : t.teams = s.teams) (h5 : t.groups = s.groups) : t.MemOk := by
  simpa [State.MemOk, h1, h2, h3, h4, h5] using h

/-- Another memory in form keeps the form. -/
theorem State.MemOk.withMem {s : State} (h : s.MemOk) {m : Mem} (hm : Mem.wf m = true) : ({ s with mem := m } : State).MemOk := ⟨hm, h.2⟩

/-- A change of a context that leaves its spill stack in form keeps the form. -/
theorem State.MemOk.modGroup {s : State} (h : s.MemOk) (g : Nat) (f : Group → Group)
    (hf : ∀ x, Mem.wf x.stack = true → Mem.wf (f x).stack = true) : (s.modGroup g f).MemOk :=
  ⟨h.1, h.2.1, h.2.2.1, h.2.2.2.1, KMap.adjust_all (fun x : Group => Mem.wf x.stack = true) s.groups g f hf h.2.2.2.2⟩

theorem State.MemOk.setGroup {s : State} (h : s.MemOk) (g : Nat) (x : Group) (hx : Mem.wf x.stack = true) : (s.setGroup g x).MemOk :=
  ⟨h.1, h.2.1, h.2.2.1, h.2.2.2.1, KMap.put_all (fun x : Group => Mem.wf x.stack = true) s.groups g x hx h.2.2.2.2⟩

theorem State.MemOk.modTeam {s : State} (h : s.MemOk) (n : Nat) (f : Team → Team)
    (hf : ∀ x, Mem.wf x.tmem = true → Mem.wf (f x).tmem = true) : (s.modTeam n f).MemOk :=
  ⟨h.1, h.2.1, h.2.2.1, KMap.adjust_all (fun x : Team => Mem.wf x.tmem = true) s.teams n f hf h.2.2.2.1, h.2.2.2.2⟩

theorem State.MemOk.stack {s : State} (h : s.MemOk) {g : Nat} {x : Group} (hg : s.group g = some x) : Mem.wf x.stack = true :=
  h.2.2.2.2 (g, x) (KMap.get_mem hg)

theorem State.MemOk.placePut {s : State} (h : s.MemOk) (p : Place) (bs : List (Nat × Byte)) : (s.placePut p bs).MemOk := by
  cases p with
  | team tm c => exact h.modTeam tm _ fun x hx => Mem.wf_writeAt _ _ hx
  | scratch d => exact ⟨h.1, Mem.wf_writeAt _ _ h.2.1, h.2.2⟩
  | stack g t => exact h.modGroup g _ fun x hx => Mem.wf_writeAt _ _ hx

theorem State.MemOk.putSidecar {s : State} (h : s.MemOk) (dpa w v : Nat) : (s.putSidecar dpa w v).MemOk :=
  ⟨Mem.wf_writeVal _ _ _ _ h.1, h.2⟩

theorem State.MemOk.memPut {s : State} (h : s.MemOk) (o line : Nat) (bs : List (Nat × Byte)) : (s.memPut o line bs).MemOk := by
  unfold State.memPut
  simp only
  split
  · exact ⟨Mem.wf_writeAt _ _ h.1, h.2⟩
  · refine ⟨Mem.wf_writeAt _ _ ?_, h.2⟩
    split
    · exact Mem.wf_writeAt _ _ h.1
    · exact Mem.wf_clear _ _ _ h.1

theorem State.MemOk.memPutAll {s : State} (h : s.MemOk) (o : Nat) (bs : List (Nat × Byte)) : (s.memPutAll o bs).MemOk := by
  unfold State.memPutAll
  induction bs generalizing s with
  | nil => exact h
  | cons e bs ih => exact ih (h.memPut o (e.1 / 128) [e])

theorem State.MemOk.memWrite {s : State} (h : s.MemOk) (o dpa : Nat) (bs : List Byte) : (s.memWrite o dpa bs).MemOk := h.memPutAll o _

theorem State.MemOk.locPut {s : State} (h : s.MemOk) (o : Nat) (l : Loc) (bs : List (Nat × Byte)) : (s.locPut o l bs).MemOk := by
  cases l with
  | dpa a => exact h.memPut o _ _
  | place p off => exact h.placePut p _
  | host a => exact ⟨h.1, h.2.1, Mem.wf_writeAt _ _ h.2.2.1, h.2.2.2⟩

theorem State.MemOk.poke {s : State} (h : s.MemOk) (o : Nat) (l : Loc) (bs : List (Nat × Byte)) : (s.poke o l bs).MemOk := by
  unfold State.poke
  induction bs generalizing s with
  | nil => exact h
  | cons e bs ih => exact ih (h.locPut o _ _)

/-- A byte of scratch that the store does not name reads as before, and one that it names last reads as stored. -/
theorem State.placeGet_placePut_other (s : State) (h : s.MemOk) (d off : Nat) (bs : List (Nat × Byte)) (hoff : ∀ e ∈ bs, e.1 ≠ off) :
    (s.placePut (.scratch d) bs).placeGet (.scratch d) off = s.placeGet (.scratch d) off := by
  simp only [State.placePut, State.placeGet]
  refine Mem.get_writeAt_other _ _ _ h.2.1 fun e he => ?_
  simp only [List.mem_map] at he
  obtain ⟨x, hx, rfl⟩ := he
  have := hoff x hx
  omega

end Sys2Proof.Machine
end

