-- ==== Sys2Proof/Laws/Lines.lean ====
section
/-!
SUPPORT. What the operations over home caches and register caches can change: the lists of lines, and nothing else; that sheaf steps keep every memory
in form; and that no link stands before this device's own memory.
-/

namespace Sys2Proof.Machine

/-- R88: using a line at its home changes which lines the home slices hold, and nothing else. -/
theorem State.enterWay_only (s : State) (fn line key : Nat) :
    s.enterWay fn line key = { s with cached := (s.enterWay fn line key).cached } := by
  unfold State.enterWay; split <;> rfl

theorem State.cacheLine_only (s : State) (fn a : Nat) : s.cacheLine fn a = { s with cached := (s.cacheLine fn a).cached } := by
  unfold State.cacheLine; split
  · rfl
  · exact State.enterWay_only s fn _ _

theorem State.useLines_only (s : State) (o : EngOp) (r : Req) (a : Nat) :
    s.useLines o r a = { s with cached := (s.useLines o r a).cached } := by
  unfold State.useLines
  suffices h : ∀ (ls : List Nat) (s : State), ls.foldl (fun s b => s.cacheLine o.fn b) s =
      { s with cached := (ls.foldl (fun s b => s.cacheLine o.fn b) s).cached } from h _ s
  intro ls
  induction ls with
  | nil => intro s; rfl
  | cons b ls ih => intro s; rw [List.foldl_cons, ih, State.cacheLine_only s]

theorem State.MemOk.cacheLine {s : State} (h : s.MemOk) (fn a : Nat) : (s.cacheLine fn a).MemOk := by
  rw [State.cacheLine_only]; exact h.of_same rfl rfl rfl rfl rfl

theorem State.MemOk.useLines {s : State} (h : s.MemOk) (o : EngOp) (r : Req) (a : Nat) : (s.useLines o r a).MemOk := by
  rw [State.useLines_only]; exact h.of_same rfl rfl rfl rfl rfl

theorem State.cacheAlternate_only (s : State) (a : Nat) : s.cacheAlternate a = { s with cached := (s.cacheAlternate a).cached } := by
  unfold State.cacheAlternate; split
  · rfl
  · exact State.enterWay_only s 0 _ _

theorem State.MemOk.cacheAlternate {s : State} (h : s.MemOk) (a : Nat) : (s.cacheAlternate a).MemOk := by
  rw [State.cacheAlternate_only]; exact h.of_same rfl rfl rfl rfl rfl

/-- R161: opening a pending version keeps every memory in form. -/
theorem State.MemOk.openPending {s : State} (h : s.MemOk) (o a i serial : Nat) : (s.openPending o a i serial).MemOk := by
  unfold State.openPending; dsimp only; split
  · exact h.cacheAlternate _
  · have h1 := (h.cacheLine 0 (a / 128 * 128)).memPut o (a / 128) []
    generalize (s.cacheLine 0 (a / 128 * 128)).memPut o (a / 128) [] = s0 at h1 ⊢
    refine State.MemOk.putSidecar (State.MemOk.putSidecar ?_ _ _ _) _ _ _
    exact (h1.cacheAlternate (a / 128 * 128)).withMem (Mem.wf_write _ _ _ h1.1)

/-- R156: clearing a sidecar keeps every memory in form. -/
theorem State.MemOk.clearSidecar {s : State} (h : s.MemOk) (a : Nat) : (s.clearSidecar a).MemOk := by
  unfold State.clearSidecar
  generalize List.range 4 = ws
  induction ws generalizing s with
  | nil => exact h
  | cons w ws ih => exact ih (h.putSidecar a w 0)

/-- R117: no link lies between this device and its own memory. -/
theorem State.linkOut_local {s : State} {a : Nat} (h : devOf a = s.devnum) : s.linkOut a = false := by simp [State.linkOut, h]

theorem State.linkShut_local {s : State} {a : Nat} (h : devOf a = s.devnum) : s.linkShut a = false := by
  simp [State.linkShut, State.linkOut_local h, h]

/-- R79: entering a line changes one cache. -/
theorem State.enterLine_only (s : State) (gid : Nat) (g : Group) (line : Nat) (d : Bool) :
    s.enterLine gid g line d = { s with regLines := (s.enterLine gid g line d).regLines } := rfl

/-- R79: a cache with room gives a place and changes nothing. -/
theorem State.lineRoom_free {s : State} {u : Nat} (keep : List (Nat × Nat))
    (h : (s.unitLines u).length < Config.registerLines) : s.lineRoom u keep = some s := by
  have : (s.unitLines u).length + 1 - Config.registerLines = 0 := by omega
  simp [State.lineRoom, State.evicted, this, State.makeRoom, h]

/-- R79: a line that is not the group's, is there, or belongs to a context without an image fills nothing. -/
theorem State.fillLine_same {s : State} {gid line : Nat} {g : Group} (hg : s.group gid = some g)
    (h : g.quill = true ∨ KMap.get s.images gid = none ∨ s.lineHere gid g line = true) : s.fillLine gid line = s := by
  unfold State.fillLine
  rcases h with h | h | h
  · cases hi : KMap.get s.images gid <;> simp [hg, h]
  · simp [hg, h]
  · cases hi : KMap.get s.images gid <;> simp [hg, h]

end Sys2Proof.Machine
end

