-- ==== Sys2Proof/Laws/Ops.lean ====
section
/-!
SUPPORT. What the shared operations can do, said once: the frame of a meaning, register writes, and taking a trap.
-/

namespace Sys2Proof.Machine

/-! ### The frame of a meaning -/

theorem State.insn_none {s : State} (h : s.issuer = none) (c : Iss → List Chk) (b : Iss → State) : s.insn c b = .fault .noIssuer := by
  simp [State.insn, h]

/-- Every check passes: the effect. -/
theorem State.insn_pass {s : State} {i : Iss} {c : Iss → List Chk} (h : s.Issues i (c i)) (b : Iss → State) : s.insn c b = .next (b i) := by
  simp [State.insn, h.1, h.2]

/-- The first failing check's fault is taken. -/
theorem State.insn_trap {s : State} {i : Iss} {c : Iss → List Chk} {x d : Nat} (h : s.issuer = some i) (hc : firstChk (c i) = some (x, d))
    (b : Iss → State) : s.insn c b = .next (s.trap i x d) := by
  simp [State.insn, h, hc]

/-- A meaning whose gang issues answers a next state. -/
theorem State.insn_answers {s : State} {i : Iss} (h : s.issuer = some i) (c : Iss → List Chk) (b : Iss → State) :
    ∃ t, s.insn c b = .next t := by
  cases hc : firstChk (c i) with
  | none => exact ⟨b i, s.insn_pass ⟨h, hc⟩ b⟩
  | some x => exact ⟨s.trap i x.1 x.2, State.insn_trap h hc b⟩

/-! ### The issuing gang -/

/-- What the state holds when it names an issuing gang. -/
theorem State.issuer_some {s : State} {i : Iss} (h : s.issuer = some i) :
    (∃ n, s.cur = some ⟨i.gid, n⟩ ∧ i.g.gang n = some i.gang) ∧ s.group i.gid = some i.g ∧ i.gang.clause = some i.cl := by
  unfold State.issuer at h
  split at h
  · cases h
  · rename_i c hc
    split at h
    · cases h
    · rename_i g hg
      split at h
      · cases h
      · rename_i k hk
        split at h
        · cases h
        · rename_i cl hcl
          cases h
          exact ⟨⟨c.gang, hc, hk⟩, hg, hcl⟩

/-! ### Register writes -/

@[simp] theorem State.writeS_eq (s : State) (gid n : Nat) (v : DWord) :
    s.writeS gid n v = s.modGroup gid fun g => { g with s := KMap.put g.s n v } := rfl

/-- A scalar write changes that scalar of that context. -/
theorem State.writeS_sreg {s : State} {gid : Nat} {g : Group} (h : s.group gid = some g) (n m : Nat) (v : DWord) :
    ∃ g', (s.writeS gid n v).group gid = some g' ∧ g'.sreg m = if m = n then v else g.sreg m := by
  refine ⟨{ g with s := KMap.put g.s n v }, by simp [h], ?_⟩
  simp [Group.sreg, KMap.getD_put]

theorem Group.vreg_setV (g : Group) (n m t : Nat) (f : Nat → Option Word) (ht : t < 64) :
    (g.setV n f).vreg m t = if m = n then (f t).getD (g.vreg n t) else g.vreg m t := by
  simp only [Group.vreg, Group.setV, KMap.getD_put]
  split
  · simp [List.getD, ht]
  · rfl

/-- A vector write changes nothing but the vector registers of contexts. -/
theorem State.writeV_outside (s : State) (gid n : Nat) (f : Nat → Option Word) :
    ∃ gs, s.writeV gid n f = { s with groups := gs } := by
  unfold State.writeV
  split
  · exact ⟨s.groups, rfl⟩
  · split
    · split
      · exact ⟨_, rfl⟩
      · exact ⟨_, rfl⟩
    · exact ⟨_, rfl⟩

theorem State.putVec_outside (s : State) (gid : Nat) (ty : EType) (d : Opnd) (run : BitVec 64) (f : Nat → Nat) :
    ∃ gs, s.putVec gid ty d run f = { s with groups := gs } := by
  unfold State.putVec
  split
  · simp only
    split
    · obtain ⟨g1, h1⟩ := State.writeV_outside s gid _ (fun t => ((((List.range 64).map fun t => if run.getLsbD t then some (extendTo ty (max 32 (widthOf ty)) (f t)) else none).getD t none)).map word)
      rw [h1]
      obtain ⟨g2, h2⟩ := State.writeV_outside { s with groups := g1 } gid _ (fun t => ((((List.range 64).map fun t => if run.getLsbD t then some (extendTo ty (max 32 (widthOf ty)) (f t)) else none).getD t none)).map fun x => word (x / 2 ^ 32))
      exact ⟨g2, h2⟩
    · exact State.writeV_outside s gid _ _
  · exact ⟨s.groups, rfl⟩

/-- What an instruction's result may change: the contexts, and nothing else of the machine. -/
theorem State.put_outside (s : State) (i : Iss) (ty : EType) (d : Opnd) (uni : Bool) (f : Nat → Nat) :
    ∃ gs, s.put i ty d uni f = { s with groups := gs } := by
  unfold State.put
  split
  · unfold State.putSca
    split
    · exact ⟨_, rfl⟩
    · exact ⟨s.groups, rfl⟩
  · exact State.putVec_outside s i.gid ty d i.run f

/-! ### Traps -/

/-- R354: a group that is not predicted, has a handler and is not in it enters the handler. -/
theorem State.takeTrap_enter {s : State} {gid n : Nat} {g : Group} {k : Gang} {l : Launch} (r : TrapReq) (hg : s.group gid = some g)
    (hk : g.gang n = some k) (hl : s.launchOf g = some l) (hs : s.speculative g = false) (ht : l.record.traph ≠ 0) (hh : g.h = false) :
    s.takeTrap gid n r = s.modGroup gid fun g => g.enterHandler k l.record.traph r := by
  simp only [State.takeTrap, hg, hk, hl, hs]
  rw [if_neg (by simp), if_neg (by rintro (h | h); exacts [ht h, by simp [hh] at h])]

/-- R314: without a handler the launch ends. -/
theorem State.takeTrap_end {s : State} {gid n : Nat} {g : Group} {k : Gang} {l : Launch} (r : TrapReq) (hg : s.group gid = some g)
    (hk : g.gang n = some k) (hl : s.launchOf g = some l) (hs : s.speculative g = false) (ht : l.record.traph = 0 ∨ g.h = true) :
    s.takeTrap gid n r = (s.modGroup gid fun g => if g.quill then g else g.recordTrap k r).stopLaunch g.launch (r.endStatus g.h) := by
  simp only [State.takeTrap, hg, hk, hl, hs]
  rw [if_neg (by simp), if_pos ht]

/-- R319: a predicted launch stalls before its trap. -/
theorem State.takeTrap_stall {s : State} {gid n : Nat} {g : Group} {k : Gang} (r : TrapReq) (hg : s.group gid = some g)
    (hk : g.gang n = some k) (hs : s.speculative g = true) :
    s.takeTrap gid n r = s.modGroup gid fun g => g.modGang n fun k =>
      { k with hold := .stall (if r.cause ≤ 3 then 7 else 6), clause := k.clause.map fun c => { c with next := c.cur } } := by
  simp [State.takeTrap, hg, hk, hs]

end Sys2Proof.Machine
end

