-- ==== Sys2Proof/Laws/PerInstr.lean ====
section
/-!
SUPPORT. Family F: the encoding of a well-formed instruction has as many words as R17 and R20 give it: one, its mandatory
literals, and one for each operand that claims a literal.
-/

namespace Sys2Proof.Laws.F

/-- An instruction's encoding has the words that its operands and its row claim. -/
def Statement (i : Instr) : Prop := i.wf = true → (encode i).length = i.words

theorem lits_length (x : Opnd) : x.litWords.length = x.lits := by cases x <;> rfl

theorem len0 (w : Word) : [w].length = 1 + 0 + (([] : List Opnd).map Opnd.lits).sum := rfl
theorem len0m (w m : Word) : (w :: [m]).length = 1 + 1 + (([] : List Opnd).map Opnd.lits).sum := rfl
theorem len1 (w : Word) (x : Opnd) : (w :: x.litWords).length = 1 + 0 + ([x].map Opnd.lits).sum := by
  simp [lits_length]; omega
theorem len2 (w : Word) (x y : Opnd) : (w :: (x.litWords ++ y.litWords)).length = 1 + 0 + ([x, y].map Opnd.lits).sum := by
  simp [lits_length]; omega
theorem len3 (w : Word) (x y z : Opnd) :
    (w :: (x.litWords ++ y.litWords ++ z.litWords)).length = 1 + 0 + ([x, y, z].map Opnd.lits).sum := by
  simp [lits_length]; omega
theorem len3m (w m : Word) (x y z : Opnd) :
    (w :: ([m] ++ x.litWords ++ y.litWords ++ z.litWords)).length = 1 + 1 + ([x, y, z].map Opnd.lits).sum := by
  simp [lits_length]; omega

theorem ill : Statement .ill := fun _ => len0 _
theorem illCode (code : BitVec 24) : Statement (.illCode code) := fun _ => len0 _
theorem mov (d : Opnd) (a : Opnd) (u : Byte) : Statement (.mov d a u) := fun _ => len2 _ _ _
theorem sel (d : Opnd) (a : Opnd) (b : Opnd) (ctl : Word) : Statement (.sel d a b ctl) := fun _ => len3m _ _ _ _ _
theorem add (d : Opnd) (a : Opnd) (b : Opnd) : Statement (.add d a b) := fun _ => len3 _ _ _ _
theorem sub (d : Opnd) (a : Opnd) (b : Opnd) : Statement (.sub d a b) := fun _ => len3 _ _ _ _
theorem addc (d : Opnd) (a : Opnd) (b : Opnd) : Statement (.addc d a b) := fun _ => len3 _ _ _ _
theorem subb (d : Opnd) (a : Opnd) (b : Opnd) : Statement (.subb d a b) := fun _ => len3 _ _ _ _
theorem mul (d : Opnd) (a : Opnd) (b : Opnd) : Statement (.mul d a b) := fun _ => len3 _ _ _ _
theorem mulh (d : Opnd) (a : Opnd) (b : Opnd) : Statement (.mulh d a b) := fun _ => len3 _ _ _ _
theorem mad (d : Opnd) (a : Opnd) (b : Opnd) : Statement (.mad d a b) := fun _ => len3 _ _ _ _
theorem madw (d : Opnd) (a : Opnd) (b : Opnd) : Statement (.madw d a b) := fun _ => len3 _ _ _ _
theorem neg (d : Opnd) (a : Opnd) (u : Byte) : Statement (.neg d a u) := fun _ => len2 _ _ _
theorem abs (d : Opnd) (a : Opnd) (u : Byte) : Statement (.abs d a u) := fun _ => len2 _ _ _
theorem min (d : Opnd) (a : Opnd) (b : Opnd) : Statement (.min d a b) := fun _ => len3 _ _ _ _
theorem max (d : Opnd) (a : Opnd) (b : Opnd) : Statement (.max d a b) := fun _ => len3 _ _ _ _
theorem adds (d : Opnd) (a : Opnd) (b : Opnd) : Statement (.adds d a b) := fun _ => len3 _ _ _ _
theorem subs (d : Opnd) (a : Opnd) (b : Opnd) : Statement (.subs d a b) := fun _ => len3 _ _ _ _
theorem and (d : Opnd) (a : Opnd) (b : Opnd) : Statement (.and d a b) := fun _ => len3 _ _ _ _
theorem or (d : Opnd) (a : Opnd) (b : Opnd) : Statement (.or d a b) := fun _ => len3 _ _ _ _
theorem xor (d : Opnd) (a : Opnd) (b : Opnd) : Statement (.xor d a b) := fun _ => len3 _ _ _ _
theorem andn (d : Opnd) (a : Opnd) (b : Opnd) : Statement (.andn d a b) := fun _ => len3 _ _ _ _
theorem not (d : Opnd) (a : Opnd) (u : Byte) : Statement (.not d a u) := fun _ => len2 _ _ _
theorem shl (d : Opnd) (a : Opnd) (b : Opnd) : Statement (.shl d a b) := fun _ => len3 _ _ _ _
theorem shr (d : Opnd) (a : Opnd) (b : Opnd) : Statement (.shr d a b) := fun _ => len3 _ _ _ _
theorem shra (d : Opnd) (a : Opnd) (b : Opnd) : Statement (.shra d a b) := fun _ => len3 _ _ _ _
theorem rotl (d : Opnd) (a : Opnd) (b : Opnd) : Statement (.rotl d a b) := fun _ => len3 _ _ _ _
theorem bfx (d : Opnd) (a : Opnd) (b : Opnd) : Statement (.bfx d a b) := fun _ => len3 _ _ _ _
theorem bfi (d : Opnd) (a : Opnd) (b : Opnd) : Statement (.bfi d a b) := fun _ => len3 _ _ _ _
theorem popc (d : Opnd) (a : Opnd) (u : Byte) : Statement (.popc d a u) := fun _ => len2 _ _ _
theorem clz (d : Opnd) (a : Opnd) (u : Byte) : Statement (.clz d a u) := fun _ => len2 _ _ _
theorem ctz (d : Opnd) (a : Opnd) (u : Byte) : Statement (.ctz d a u) := fun _ => len2 _ _ _
theorem brev (d : Opnd) (a : Opnd) (u : Byte) : Statement (.brev d a u) := fun _ => len2 _ _ _
theorem icmpeq (d : Byte) (a : Opnd) (b : Opnd) : Statement (.icmpeq d a b) := fun _ => len2 _ _ _
theorem icmpne (d : Byte) (a : Opnd) (b : Opnd) : Statement (.icmpne d a b) := fun _ => len2 _ _ _
theorem icmplt (d : Byte) (a : Opnd) (b : Opnd) : Statement (.icmplt d a b) := fun _ => len2 _ _ _
theorem icmple (d : Byte) (a : Opnd) (b : Opnd) : Statement (.icmple d a b) := fun _ => len2 _ _ _
theorem lea (d : Opnd) (a : Opnd) (b : Opnd) : Statement (.lea d a b) := fun _ => len3 _ _ _ _
theorem movp (d : Opnd) (p : Byte) (u : Byte) : Statement (.movp d p u) := fun _ => len1 _ _
theorem pand (d : Byte) (p : Byte) (q : Byte) : Statement (.pand d p q) := fun _ => len0 _
theorem por (d : Byte) (p : Byte) (q : Byte) : Statement (.por d p q) := fun _ => len0 _
theorem pxor (d : Byte) (p : Byte) (q : Byte) : Statement (.pxor d p q) := fun _ => len0 _
theorem pnot (d : Byte) (p : Byte) (u : Byte) : Statement (.pnot d p u) := fun _ => len0 _
theorem pset (d : Byte) (v : BitVec 16) : Statement (.pset d v) := fun _ => len0 _
theorem pmov (d : Byte) (a : Opnd) (u : Byte) : Statement (.pmov d a u) := fun _ => len1 _ _
theorem bra (c : Opnd) (off : BitVec 16) : Statement (.bra c off) := fun _ => len1 _ _
theorem brd (u : Byte) (off : BitVec 16) (join : Word) : Statement (.brd u off join) := fun _ => len0m _ _
theorem join (u : BitVec 24) : Statement (.join u) := fun _ => len0 _
theorem call (d : Opnd) (off : BitVec 16) : Statement (.call d off) := fun _ => len1 _ _
theorem ret (a : Opnd) (u : BitVec 16) : Statement (.ret a u) := fun _ => len1 _ _
theorem exit (u : BitVec 24) : Statement (.exit u) := fun _ => len0 _
theorem yield (u : BitVec 24) : Statement (.yield u) := fun _ => len0 _
theorem parkBarrier (u : Byte) (off : BitVec 16) (cond : Word) : Statement (.parkBarrier u off cond) := fun _ => len0m _ _
theorem parkCounter (u : Byte) (off : BitVec 16) (cond : Word) : Statement (.parkCounter u off cond) := fun _ => len0m _ _
theorem trapSoftware (blk : Opnd) (code : BitVec 16) : Statement (.trapSoftware blk code) := fun _ => len1 _ _
theorem trapServiceCall (blk : Opnd) (code : BitVec 16) : Statement (.trapServiceCall blk code) := fun _ => len1 _ _
theorem nop (u : BitVec 24) : Statement (.nop u) := fun _ => len0 _
theorem shfl (d : Opnd) (a : Opnd) (b : Opnd) : Statement (.shfl d a b) := fun _ => len3 _ _ _ _
theorem shflu (d : Opnd) (a : Opnd) (b : Opnd) : Statement (.shflu d a b) := fun _ => len3 _ _ _ _
theorem shfld (d : Opnd) (a : Opnd) (b : Opnd) : Statement (.shfld d a b) := fun _ => len3 _ _ _ _
theorem shflx (d : Opnd) (a : Opnd) (b : Opnd) : Statement (.shflx d a b) := fun _ => len3 _ _ _ _
theorem votea (d : Byte) (p : Byte) (u : Byte) : Statement (.votea d p u) := fun _ => len0 _
theorem votey (d : Byte) (p : Byte) (u : Byte) : Statement (.votey d p u) := fun _ => len0 _
theorem ballot (d : Opnd) (p : Byte) (u : Byte) : Statement (.ballot d p u) := fun _ => len1 _ _
theorem matchv (d : Opnd) (a : Opnd) (u : Byte) : Statement (.matchv d a u) := fun _ => len2 _ _ _
theorem gredadd (d : Opnd) (a : Opnd) (u : Byte) : Statement (.gredadd d a u) := fun _ => len2 _ _ _
theorem gredmin (d : Opnd) (a : Opnd) (u : Byte) : Statement (.gredmin d a u) := fun _ => len2 _ _ _
theorem gredmax (d : Opnd) (a : Opnd) (u : Byte) : Statement (.gredmax d a u) := fun _ => len2 _ _ _
theorem gscan (d : Opnd) (a : Opnd) (op : Byte) : Statement (.gscan d a op) := fun _ => len2 _ _ _
theorem reord (u : Byte) (key : Opnd) (mask : Opnd) : Statement (.reord u key mask) := fun _ => len2 _ _ _
theorem elect (d : Byte) (u : BitVec 16) : Statement (.elect d u) := fun _ => len0 _
theorem fadd (d : Opnd) (a : Opnd) (b : Opnd) : Statement (.fadd d a b) := fun _ => len3 _ _ _ _
theorem fsub (d : Opnd) (a : Opnd) (b : Opnd) : Statement (.fsub d a b) := fun _ => len3 _ _ _ _
theorem fmul (d : Opnd) (a : Opnd) (b : Opnd) : Statement (.fmul d a b) := fun _ => len3 _ _ _ _
theorem ffma (d : Opnd) (a : Opnd) (b : Opnd) : Statement (.ffma d a b) := fun _ => len3 _ _ _ _
theorem ffms (d : Opnd) (a : Opnd) (b : Opnd) : Statement (.ffms d a b) := fun _ => len3 _ _ _ _
theorem ffnma (d : Opnd) (a : Opnd) (b : Opnd) : Statement (.ffnma d a b) := fun _ => len3 _ _ _ _
theorem fdiv (d : Opnd) (a : Opnd) (b : Opnd) : Statement (.fdiv d a b) := fun _ => len3 _ _ _ _
theorem fsqrt (d : Opnd) (a : Opnd) (u : Byte) : Statement (.fsqrt d a u) := fun _ => len2 _ _ _
theorem frcp (d : Opnd) (a : Opnd) (u : Byte) : Statement (.frcp d a u) := fun _ => len2 _ _ _
theorem frsq (d : Opnd) (a : Opnd) (u : Byte) : Statement (.frsq d a u) := fun _ => len2 _ _ _
theorem fmin (d : Opnd) (a : Opnd) (b : Opnd) : Statement (.fmin d a b) := fun _ => len3 _ _ _ _
theorem fmax (d : Opnd) (a : Opnd) (b : Opnd) : Statement (.fmax d a b) := fun _ => len3 _ _ _ _
theorem fminm (d : Opnd) (a : Opnd) (b : Opnd) : Statement (.fminm d a b) := fun _ => len3 _ _ _ _
theorem fmaxm (d : Opnd) (a : Opnd) (b : Opnd) : Statement (.fmaxm d a b) := fun _ => len3 _ _ _ _
theorem fabs (d : Opnd) (a : Opnd) (u : Byte) : Statement (.fabs d a u) := fun _ => len2 _ _ _
theorem fneg (d : Opnd) (a : Opnd) (u : Byte) : Statement (.fneg d a u) := fun _ => len2 _ _ _
theorem fcpsgn (d : Opnd) (a : Opnd) (b : Opnd) : Statement (.fcpsgn d a b) := fun _ => len3 _ _ _ _
theorem fcmpeq (d : Byte) (a : Opnd) (b : Opnd) : Statement (.fcmpeq d a b) := fun _ => len2 _ _ _
theorem fcmplt (d : Byte) (a : Opnd) (b : Opnd) : Statement (.fcmplt d a b) := fun _ => len2 _ _ _
theorem fcmple (d : Byte) (a : Opnd) (b : Opnd) : Statement (.fcmple d a b) := fun _ => len2 _ _ _
theorem fcmpun (d : Byte) (a : Opnd) (b : Opnd) : Statement (.fcmpun d a b) := fun _ => len2 _ _ _
theorem fclass (d : Opnd) (a : Opnd) (u : Byte) : Statement (.fclass d a u) := fun _ => len2 _ _ _
theorem frnd (d : Opnd) (a : Opnd) (u : Byte) : Statement (.frnd d a u) := fun _ => len2 _ _ _
theorem fscale (d : Opnd) (a : Opnd) (b : Opnd) : Statement (.fscale d a b) := fun _ => len3 _ _ _ _
theorem fgexp (d : Opnd) (a : Opnd) (u : Byte) : Statement (.fgexp d a u) := fun _ => len2 _ _ _
theorem fgmant (d : Opnd) (a : Opnd) (u : Byte) : Statement (.fgmant d a u) := fun _ => len2 _ _ _
theorem fex2 (d : Opnd) (a : Opnd) (u : Byte) : Statement (.fex2 d a u) := fun _ => len2 _ _ _
theorem flg2 (d : Opnd) (a : Opnd) (u : Byte) : Statement (.flg2 d a u) := fun _ => len2 _ _ _
theorem fsin (d : Opnd) (a : Opnd) (u : Byte) : Statement (.fsin d a u) := fun _ => len2 _ _ _
theorem fcos (d : Opnd) (a : Opnd) (u : Byte) : Statement (.fcos d a u) := fun _ => len2 _ _ _
theorem cvt (d : Opnd) (a : Opnd) (t : Byte) : Statement (.cvt d a t) := fun _ => len2 _ _ _
theorem cvtn (d : Opnd) (a : Opnd) (t : Byte) : Statement (.cvtn d a t) := fun _ => len2 _ _ _
theorem cvtw (d : Opnd) (a : Opnd) (t : Byte) : Statement (.cvtw d a t) := fun _ => len2 _ _ _
theorem hadd2 (d : Opnd) (a : Opnd) (b : Opnd) : Statement (.hadd2 d a b) := fun _ => len3 _ _ _ _
theorem hmul2 (d : Opnd) (a : Opnd) (b : Opnd) : Statement (.hmul2 d a b) := fun _ => len3 _ _ _ _
theorem hfma2 (d : Opnd) (a : Opnd) (b : Opnd) : Statement (.hfma2 d a b) := fun _ => len3 _ _ _ _
theorem pdot4 (d : Opnd) (a : Opnd) (b : Opnd) : Statement (.pdot4 d a b) := fun _ => len3 _ _ _ _
theorem pdot8 (d : Opnd) (a : Opnd) (b : Opnd) : Statement (.pdot8 d a b) := fun _ => len3 _ _ _ _
theorem pdot2 (d : Opnd) (a : Opnd) (b : Opnd) : Statement (.pdot2 d a b) := fun _ => len3 _ _ _ _
theorem ld (d : Opnd) (base : Opnd) (off : Opnd) : Statement (.ld d base off) := fun _ => len3 _ _ _ _
theorem st (x : Opnd) (base : Opnd) (off : Opnd) : Statement (.st x base off) := fun _ => len3 _ _ _ _
theorem ld2 (d : Opnd) (base : Opnd) (off : Opnd) : Statement (.ld2 d base off) := fun _ => len3 _ _ _ _
theorem ld4 (d : Opnd) (base : Opnd) (off : Opnd) : Statement (.ld4 d base off) := fun _ => len3 _ _ _ _
theorem st2 (x : Opnd) (base : Opnd) (off : Opnd) : Statement (.st2 x base off) := fun _ => len3 _ _ _ _
theorem st4 (x : Opnd) (base : Opnd) (off : Opnd) : Statement (.st4 x base off) := fun _ => len3 _ _ _ _
theorem atladd (d : Opnd) (addr : Opnd) (x : Opnd) : Statement (.atladd d addr x) := fun _ => len3 _ _ _ _
theorem atlmin (d : Opnd) (addr : Opnd) (x : Opnd) : Statement (.atlmin d addr x) := fun _ => len3 _ _ _ _
theorem atlmax (d : Opnd) (addr : Opnd) (x : Opnd) : Statement (.atlmax d addr x) := fun _ => len3 _ _ _ _
theorem atland (d : Opnd) (addr : Opnd) (x : Opnd) : Statement (.atland d addr x) := fun _ => len3 _ _ _ _
theorem atlor (d : Opnd) (addr : Opnd) (x : Opnd) : Statement (.atlor d addr x) := fun _ => len3 _ _ _ _
theorem atlxor (d : Opnd) (addr : Opnd) (x : Opnd) : Statement (.atlxor d addr x) := fun _ => len3 _ _ _ _
theorem atlxch (d : Opnd) (addr : Opnd) (x : Opnd) : Statement (.atlxch d addr x) := fun _ => len3 _ _ _ _
theorem atlcas (d : Opnd) (addr : Opnd) (x : Opnd) : Statement (.atlcas d addr x) := fun _ => len3 _ _ _ _
theorem bcopy (blk : Opnd) (u : BitVec 16) : Statement (.bcopy blk u) := fun _ => len1 _ _
theorem bcopyr (blk : Opnd) (u : BitVec 16) : Statement (.bcopyr blk u) := fun _ => len1 _ _
theorem bcast (blk : Opnd) (u : BitVec 16) : Statement (.bcast blk u) := fun _ => len1 _ _
theorem gather (d : Opnd) (base : Opnd) (off : Opnd) : Statement (.gather d base off) := fun _ => len3 _ _ _ _
theorem scatter (x : Opnd) (base : Opnd) (off : Opnd) : Statement (.scatter x base off) := fun _ => len3 _ _ _ _
theorem pref (base : Opnd) (len : Opnd) (u : Byte) : Statement (.pref base len u) := fun _ => len2 _ _ _
theorem atom (v : Opnd) (base : Opnd) (off : Opnd) (ctl : Word) : Statement (.atom v base off ctl) := fun _ => len3m _ _ _ _ _
theorem ared (x : Opnd) (base : Opnd) (off : Opnd) (ctl : Word) : Statement (.ared x base off ctl) := fun _ => len3m _ _ _ _ _
theorem aprog (v : Opnd) (base : Opnd) (off : Opnd) (ctl : Word) : Statement (.aprog v base off ctl) := fun _ => len3m _ _ _ _ _
theorem fence (d : Opnd) (scope : Byte) (mask : Byte) : Statement (.fence d scope mask) := fun _ => len1 _ _
theorem fwait (tok : Opnd) (u : BitVec 16) : Statement (.fwait tok u) := fun _ => len1 _ _
theorem waitc (cls : Byte) (n : BitVec 16) : Statement (.waitc cls n) := fun _ => len0 _
theorem shopen (d : Opnd) (name : Opnd) (u : Byte) : Statement (.shopen d name u) := fun _ => len2 _ _ _
theorem shseal (h : Opnd) (u : BitVec 16) : Statement (.shseal h u) := fun _ => len1 _ _
theorem shabort (h : Opnd) (u : BitVec 16) : Statement (.shabort h u) := fun _ => len1 _ _
theorem shread (d : Opnd) (blk : Opnd) (u : Byte) : Statement (.shread d blk u) := fun _ => len2 _ _ _
theorem shver (d : Opnd) (name : Opnd) (u : Byte) : Statement (.shver d name u) := fun _ => len2 _ _ _
theorem mloop (frag : Opnd) (blk : Opnd) : Statement (.mloop frag blk) := fun _ => len2 _ _ _
theorem mloopQuill (frag : Opnd) (blk : Opnd) (grp : Byte) : Statement (.mloopQuill frag blk grp) := fun _ => len2 _ _ _
theorem mzero (frag : Opnd) (blk : Opnd) (u : Byte) : Statement (.mzero frag blk u) := fun _ => len2 _ _ _
theorem bar (ua : Byte) (ub : Byte) (b : Byte) : Statement (.bar ua ub b) := fun _ => len0 _
theorem bara (ua : Byte) (ub : Byte) (b : Byte) : Statement (.bara ua ub b) := fun _ => len0 _
theorem barw (ua : Byte) (ub : Byte) (b : Byte) : Statement (.barw ua ub b) := fun _ => len0 _
theorem barx (ua : Byte) (n : Opnd) (b : Byte) : Statement (.barx ua n b) := fun _ => len1 _ _
theorem barq (d : Opnd) (ub : Byte) (b : Byte) : Statement (.barq d ub b) := fun _ => len1 _ _
theorem dqpush (ua : Byte) (v : Opnd) (u : Byte) : Statement (.dqpush ua v u) := fun _ => len1 _ _
theorem dqpop (d : Opnd) (u : BitVec 16) : Statement (.dqpop d u) := fun _ => len1 _ _
theorem regget (d : Opnd) (mask : Opnd) (u : Byte) : Statement (.regget d mask u) := fun _ => len2 _ _ _
theorem regput (ua : Byte) (mask : Opnd) (u : Byte) : Statement (.regput ua mask u) := fun _ => len1 _ _
theorem form (f : Byte) (v : Opnd) (u : Byte) : Statement (.form f v u) := fun _ => len1 _ _
theorem ctlr (d : Opnd) (ub : Byte) (reg : Byte) : Statement (.ctlr d ub reg) := fun _ => len1 _ _
theorem ctlw (ua : Byte) (v : Opnd) (reg : Byte) : Statement (.ctlw ua v reg) := fun _ => len1 _ _
theorem slotq (d : Opnd) (ub : Byte) (kind : Byte) : Statement (.slotq d ub kind) := fun _ => len1 _ _
theorem taskq (blk : Opnd) (u : BitVec 16) : Statement (.taskq blk u) := fun _ => len1 _ _
theorem taskdone (ua : Byte) (t : Opnd) (u : Byte) : Statement (.taskdone ua t u) := fun _ => len1 _ _
theorem eret (ua : Byte) (ub : Byte) (mode : Byte) : Statement (.eret ua ub mode) := fun _ => len0 _
theorem halt (ua : Byte) (code : BitVec 16) : Statement (.halt ua code) := fun _ => len0 _
theorem signal (addr : Opnd) (v : Opnd) (op : Byte) : Statement (.signal addr v op) := fun _ => len2 _ _ _
theorem clauseIssue (g : Nat) (n : Nat) : Statement (.clauseIssue g n) := fun h => by cases h
theorem longLatencyWriteback (g : Nat) (l : Nat) : Statement (.longLatencyWriteback g l) := fun h => by cases h
theorem drain (g : Nat) : Statement (.drain g) := fun h => by cases h
theorem propagate (core : Nat) : Statement (.propagate core) := fun h => by cases h
theorem load (g : Nat) : Statement (.load g) := fun h => by cases h
theorem atl (g : Nat) : Statement (.atl g) := fun h => by cases h
theorem start (op : Nat) : Statement (.start op) := fun h => by cases h
theorem send (q : Nat) : Statement (.send q) := fun h => by cases h
theorem arrive (q : Nat) : Statement (.arrive q) := fun h => by cases h
theorem serve (q : Nat) : Statement (.serve q) := fun h => by cases h
theorem land (q : Nat) : Statement (.land q) := fun h => by cases h
theorem peerRefusal (q : Nat) : Statement (.peerRefusal q) := fun h => by cases h
theorem retire (g : Nat) (c : EngClass) : Statement (.retire g c) := fun h => by cases h
theorem swrite (q : Nat) : Statement (.swrite q) := fun h => by cases h
theorem sealManifestWrite (e : Nat) : Statement (.sealManifestWrite e) := fun h => by cases h
theorem abort (e : Nat) (home : Nat) : Statement (.abort e home) := fun h => by cases h
theorem shreadLook (op : Nat) (line : Nat) : Statement (.shreadLook op line) := fun h => by cases h
theorem shreadList (op : Nat) (line : Nat) : Statement (.shreadList op line) := fun h => by cases h
theorem shreadFetch (op : Nat) (line : Nat) : Statement (.shreadFetch op line) := fun h => by cases h
theorem pf (line : Nat) : Statement (.pf line) := fun h => by cases h
theorem pwrite (q : Nat) : Statement (.pwrite q) := fun h => by cases h
theorem pread (q : Nat) : Statement (.pread q) := fun h => by cases h
theorem promote (duc : Nat) (k : Nat) (home : Nat) : Statement (.promote duc k home) := fun h => by cases h
theorem discard (duc : Nat) (k : Nat) (home : Nat) : Statement (.discard duc k home) := fun h => by cases h
theorem matrixStep (unit : Nat) : Statement (.matrixStep unit) := fun h => by cases h
theorem registerLineFill (g : Nat) (reg : Nat) : Statement (.registerLineFill g reg) := fun h => by cases h
theorem reggetGrant (sub : Nat) : Statement (.reggetGrant sub) := fun h => by cases h
theorem reordComplete (g : Nat) : Statement (.reordComplete g) := fun h => by cases h
theorem parkReactivate (g : Nat) (n : Nat) : Statement (.parkReactivate g n) := fun h => by cases h
theorem groupRetire (g : Nat) : Statement (.groupRetire g) := fun h => by cases h
theorem drainWindowClose : Statement .drainWindowClose := fun h => by cases h
theorem slotStart : Statement .slotStart := fun h => by cases h
theorem slotEnd : Statement .slotEnd := fun h => by cases h
theorem calendarOverrun (unfinished : Nat) : Statement (.calendarOverrun unfinished) := fun h => by cases h
theorem cooldownExpiry (core : Nat) : Statement (.cooldownExpiry core) := fun h => by cases h
theorem budgetExpiry (slice : Nat) : Statement (.budgetExpiry slice) := fun h => by cases h
theorem budgetTrap (g : Nat) (n : Nat) : Statement (.budgetTrap g n) := fun h => by cases h
theorem clusterClockGate (cl : Nat) : Statement (.clusterClockGate cl) := fun h => by cases h
theorem clusterResume (cl : Nat) : Statement (.clusterResume cl) := fun h => by cases h
theorem admission (die : Nat) : Statement (.admission die) := fun h => by cases h
theorem faultRecordWrite (fn : Nat) : Statement (.faultRecordWrite fn) := fun h => by cases h
theorem replayAll (fn : Nat) : Statement (.replayAll fn) := fun h => by cases h
theorem replaySeq (fn : Nat) (seq : Nat) : Statement (.replaySeq fn seq) := fun h => by cases h
theorem invalidateAll (fn : Nat) : Statement (.invalidateAll fn) := fun h => by cases h
theorem invalidateRange (fn : Nat) (pages : Nat) : Statement (.invalidateRange fn pages) := fun h => by cases h
theorem invalidationComplete (fn : Nat) : Statement (.invalidationComplete fn) := fun h => by cases h
theorem contextAutoReturn (fn : Nat) : Statement (.contextAutoReturn fn) := fun h => by cases h
theorem routineTableInstall (fn : Nat) : Statement (.routineTableInstall fn) := fun h => by cases h
theorem routineTableInstallDone (fn : Nat) : Statement (.routineTableInstallDone fn) := fun h => by cases h
theorem sdfree (fn : Nat) (name : Nat) : Statement (.sdfree fn name) := fun h => by cases h
theorem queueDoorbell (fn : Nat) (q : Nat) (v : Nat) : Statement (.queueDoorbell fn q v) := fun h => by cases h
theorem qctlWrite (fn : Nat) (q : Nat) (v : Nat) : Statement (.qctlWrite fn q v) := fun h => by cases h
theorem qstatRead (fn : Nat) (q : Nat) : Statement (.qstatRead fn q) := fun h => by cases h
theorem commandArrival (fn : Nat) (q : Nat) : Statement (.commandArrival fn q) := fun h => by cases h
theorem predictionCompare (fn : Nat) (q : Nat) : Statement (.predictionCompare fn q) := fun h => by cases h
theorem predictionStart (fn : Nat) (q : Nat) : Statement (.predictionStart fn q) := fun h => by cases h
theorem launchPromotion (fn : Nat) (q : Nat) : Statement (.launchPromotion fn q) := fun h => by cases h
theorem cutOver (l : Nat) : Statement (.cutOver l) := fun h => by cases h
theorem launch (fn : Nat) (q : Nat) : Statement (.launch fn q) := fun h => by cases h
theorem copyCommand (fn : Nat) (q : Nat) : Statement (.copyCommand fn q) := fun h => by cases h
theorem signalCommand (fn : Nat) (q : Nat) : Statement (.signalCommand fn q) := fun h => by cases h
theorem waitCommand (fn : Nat) (q : Nat) : Statement (.waitCommand fn q) := fun h => by cases h
theorem waitPollRead (fn : Nat) (q : Nat) : Statement (.waitPollRead fn q) := fun h => by cases h
theorem waitTimeout (fn : Nat) (q : Nat) : Statement (.waitTimeout fn q) := fun h => by cases h
theorem ductusRead (fn : Nat) (q : Nat) : Statement (.ductusRead fn q) := fun h => by cases h
theorem completionRecordWrite (fn : Nat) (q : Nat) : Statement (.completionRecordWrite fn q) := fun h => by cases h
theorem taskLaunchEnd (l : Nat) : Statement (.taskLaunchEnd l) := fun h => by cases h
theorem classChangeRequest (cl : Nat) (v : Nat) : Statement (.classChangeRequest cl v) := fun h => by cases h
theorem operatingPointMove (cl : Nat) : Statement (.operatingPointMove cl) := fun h => by cases h
theorem classChangeComplete (cl : Nat) : Statement (.classChangeComplete cl) := fun h => by cases h
theorem contextSwitchOut (fn : Nat) : Statement (.contextSwitchOut fn) := fun h => by cases h
theorem switchOutComplete (fn : Nat) : Statement (.switchOutComplete fn) := fun h => by cases h
theorem contextSwitchIn (fn : Nat) : Statement (.contextSwitchIn fn) := fun h => by cases h
theorem functionRemove (fn : Nat) : Statement (.functionRemove fn) := fun h => by cases h
theorem serviceRequestPost (g : Nat) : Statement (.serviceRequestPost g) := fun h => by cases h
theorem serviceReply (fn : Nat) (idx : Nat) : Statement (.serviceReply fn idx) := fun h => by cases h
theorem functionReset (fn : Nat) : Statement (.functionReset fn) := fun h => by cases h
theorem functionResetComplete (fn : Nat) : Statement (.functionResetComplete fn) := fun h => by cases h
theorem collectiveStall (c : Nat) (fn : Nat) : Statement (.collectiveStall c fn) := fun h => by cases h
theorem memberWithdrawn (c : Nat) (dev : Nat) (fn : Nat) : Statement (.memberWithdrawn c dev fn) := fun h => by cases h
theorem keySlotBind (owner : Nat) : Statement (.keySlotBind owner) := fun h => by cases h
theorem keySlotRetire (slot : Nat) : Statement (.keySlotRetire slot) := fun h => by cases h
theorem scrubLine (line : Nat) : Statement (.scrubLine line) := fun h => by cases h
theorem deviceMemoryWindowAccess (fn : Nat) (off : Nat) (len : Nat) (wr : WindowOp) : Statement (.deviceMemoryWindowAccess fn off len wr) := fun h => by cases h
theorem tlpIntegrityFail (fn : Nat) : Statement (.tlpIntegrityFail fn) := fun h => by cases h
theorem pauseFlit (port : Nat) (cc : Nat) : Statement (.pauseFlit port cc) := fun h => by cases h
theorem flitCrcRetry (port : Nat) : Statement (.flitCrcRetry port) := fun h => by cases h
theorem linkDownTimeout (port : Nat) : Statement (.linkDownTimeout port) := fun h => by cases h
theorem inletOvertemp (t : Nat) : Statement (.inletOvertemp t) := fun h => by cases h
theorem packageStart (primaryFails : Nat) (alternateFails : Nat) (stackFails : Nat) : Statement (.packageStart primaryFails alternateFails stackFails) := fun h => by cases h
theorem measurementExtend (i : Nat) (image : List Byte) : Statement (.measurementExtend i image) := fun h => by cases h
theorem quoteRequest (nonce : List Byte) : Statement (.quoteRequest nonce) := fun h => by cases h
theorem registerWrite (page : Nat) (idx : Nat) (off : Nat) (v : Nat) : Statement (.registerWrite page idx off v) := fun h => by cases h
theorem linkReturn (port : Nat) : Statement (.linkReturn port) := fun h => by cases h
theorem inletTemperatureFall (t : Nat) : Statement (.inletTemperatureFall t) := fun h => by cases h
theorem partitionChange (islands : List Nat) (part : List Nat) : Statement (.partitionChange islands part) := fun h => by cases h
theorem spdmKeyExchange (fn : Nat) (key : List Byte) : Statement (.spdmKeyExchange fn key) := fun h => by cases h

end Sys2Proof.Laws.F

namespace Sys2Proof

theorem Laws.F.seal (e : Nat) (home : Nat) : Laws.F.Statement (.seal e home) := fun h => by cases h

end Sys2Proof
end

