-- ==== Sys2Proof/Tests/Slice0.lean ====
section
/-!
SUPPORT. Tests. Ill-formed terms that WellFormed refuses; one word for every instruction, written from the opcode map of R38 and the
operand codes of R16; small steps with results taken from the manual's rules; and, for each statement, states and operands that meet
its hypotheses.
-/

namespace Sys2Proof.Tests

-- One theorem after another: run side by side, these many kernel evaluations need more thread stacks than the memory limit leaves.
set_option Elab.async false

open Sys2Proof Sys2Proof.Machine Sys2Proof.Claims

/-! ### Ill-formed terms -/

theorem test_ill_formed_event : Instr.wf (.drain 0) = false := by decide
theorem test_ill_formed_vector : Instr.wf (.add (.vec 192) (.vec 0) (.vec 0)) = false := by decide
theorem test_ill_formed_scalar : Instr.wf (.add (.vec 0) (.sca 48) (.vec 0)) = false := by decide
theorem test_ill_formed_reserved : Instr.wf (.add (.vec 0) (.vec 0) (.res 12)) = false := by decide
theorem test_ill_formed_ill : Instr.wf (.illCode 0) = false := by decide
theorem test_ill_formed_trap_software : Instr.wf (.trapSoftware (.vec 0) 0x8000) = false := by decide
theorem test_ill_formed_trap_service : Instr.wf (.trapServiceCall (.vec 0) 0x7FFF) = false := by decide
theorem test_ill_formed_mloop : Instr.wf (.mloopQuill (.vec 0) (.sca 0) 0) = false := by decide
theorem test_ill_formed_park_barrier : Instr.wf (.parkBarrier 0 0 0x80000000) = false := by decide
theorem test_ill_formed_park_counter : Instr.wf (.parkCounter 0 0 0x7FFFFFFF) = false := by decide
theorem test_well_formed : Instr.wf (.add (.vec 191) (.sca 47) (.res 11)) = true := by decide

/-! ### Decoding: opcode in bits 31 to 24, A, B and C below it (R15, R16, R38). A = 0x15 is v21, B = 0xC4 is s4, C = 0xF3 is tid. -/

abbrev Decodes (l : List (List Word × Instr)) : Prop := ∀ e ∈ l, decode e.1 = .ok (e.2, [])

theorem test_decode_moves : Decodes
    [([0x00000000], .ill),
     ([0x0015C4F3], .illCode 0x15C4F3),
     ([0x0115C4F3], .mov (.vec 21) (.sca 4) 0xF3),
     ([0x0215C4F3, 0x00000123], .sel (.vec 21) (.sca 4) .tid 0x123)] := by decide

theorem test_decode_integer : Decodes
    [([0x0315C4F3], .add (.vec 21) (.sca 4) .tid),
     ([0x0415C4F3], .sub (.vec 21) (.sca 4) .tid),
     ([0x0515C4F3], .addc (.vec 21) (.sca 4) .tid),
     ([0x0615C4F3], .subb (.vec 21) (.sca 4) .tid),
     ([0x0715C4F3], .mul (.vec 21) (.sca 4) .tid),
     ([0x0815C4F3], .mulh (.vec 21) (.sca 4) .tid),
     ([0x0915C4F3], .mad (.vec 21) (.sca 4) .tid),
     ([0x0A15C4F3], .madw (.vec 21) (.sca 4) .tid),
     ([0x0B15C4F3], .neg (.vec 21) (.sca 4) 0xF3),
     ([0x0C15C4F3], .abs (.vec 21) (.sca 4) 0xF3),
     ([0x0D15C4F3], .min (.vec 21) (.sca 4) .tid),
     ([0x0E15C4F3], .max (.vec 21) (.sca 4) .tid),
     ([0x0F15C4F3], .adds (.vec 21) (.sca 4) .tid),
     ([0x1015C4F3], .subs (.vec 21) (.sca 4) .tid)] := by decide

theorem test_decode_logic_fields : Decodes
    [([0x1215C4F3], .and (.vec 21) (.sca 4) .tid),
     ([0x1315C4F3], .or (.vec 21) (.sca 4) .tid),
     ([0x1415C4F3], .xor (.vec 21) (.sca 4) .tid),
     ([0x1515C4F3], .andn (.vec 21) (.sca 4) .tid),
     ([0x1615C4F3], .not (.vec 21) (.sca 4) 0xF3),
     ([0x1715C4F3], .shl (.vec 21) (.sca 4) .tid),
     ([0x1815C4F3], .shr (.vec 21) (.sca 4) .tid),
     ([0x1915C4F3], .shra (.vec 21) (.sca 4) .tid),
     ([0x1A15C4F3], .rotl (.vec 21) (.sca 4) .tid),
     ([0x1B15C4F3], .bfx (.vec 21) (.sca 4) .tid),
     ([0x1C15C4F3], .bfi (.vec 21) (.sca 4) .tid),
     ([0x1D15C4F3], .popc (.vec 21) (.sca 4) 0xF3),
     ([0x1E15C4F3], .clz (.vec 21) (.sca 4) 0xF3),
     ([0x1F15C4F3], .ctz (.vec 21) (.sca 4) 0xF3),
     ([0x2015C4F3], .brev (.vec 21) (.sca 4) 0xF3)] := by decide

theorem test_decode_compares_predicates : Decodes
    [([0x2215C4F3], .icmpeq 0x15 (.sca 4) .tid),
     ([0x2315C4F3], .icmpne 0x15 (.sca 4) .tid),
     ([0x2415C4F3], .icmplt 0x15 (.sca 4) .tid),
     ([0x2515C4F3], .icmple 0x15 (.sca 4) .tid),
     ([0x2615C4F3], .lea (.vec 21) (.sca 4) .tid),
     ([0x2715C4F3], .movp (.vec 21) 0xC4 0xF3),
     ([0x2815C4F3], .pand 0x15 0xC4 0xF3),
     ([0x2915C4F3], .por 0x15 0xC4 0xF3),
     ([0x2A15C4F3], .pxor 0x15 0xC4 0xF3),
     ([0x2B15C4F3], .pnot 0x15 0xC4 0xF3),
     ([0x2C15C4F3], .pset 0x15 0xC4F3),
     ([0x2D15C4F3], .pmov 0x15 (.sca 4) 0xF3)] := by decide

theorem test_decode_control : Decodes
    [([0x4015C4F3], .bra (.vec 21) 0xC4F3),
     ([0x4115C4F3, 0x00000123], .brd 0x15 0xC4F3 0x123),
     ([0x4215C4F3], .join 0x15C4F3),
     ([0x4315C4F3], .call (.vec 21) 0xC4F3),
     ([0x4415C4F3], .ret (.vec 21) 0xC4F3),
     ([0x4515C4F3], .exit 0x15C4F3),
     ([0x4615C4F3], .yield 0x15C4F3),
     ([0x4715C4F3, 0x00000123], .parkBarrier 0x15 0xC4F3 0x123),
     ([0x4715C4F3, 0x80000205], .parkCounter 0x15 0xC4F3 0x80000205),
     ([0x48001234], .trapSoftware (.vec 0) 0x1234),
     ([0x4815C4F3], .trapServiceCall (.vec 21) 0xC4F3),
     ([0x4915C4F3], .nop 0x15C4F3)] := by decide

theorem test_decode_cross_lane : Decodes
    [([0x4A15C4F3], .shfl (.vec 21) (.sca 4) .tid),
     ([0x4B15C4F3], .shflu (.vec 21) (.sca 4) .tid),
     ([0x4C15C4F3], .shfld (.vec 21) (.sca 4) .tid),
     ([0x4D15C4F3], .shflx (.vec 21) (.sca 4) .tid),
     ([0x4E15C4F3], .votea 0x15 0xC4 0xF3),
     ([0x4F15C4F3], .votey 0x15 0xC4 0xF3),
     ([0x5015C4F3], .ballot (.vec 21) 0xC4 0xF3),
     ([0x5115C4F3], .matchv (.vec 21) (.sca 4) 0xF3),
     ([0x5215C4F3], .gredadd (.vec 21) (.sca 4) 0xF3),
     ([0x5315C4F3], .gredmin (.vec 21) (.sca 4) 0xF3),
     ([0x5415C4F3], .gredmax (.vec 21) (.sca 4) 0xF3),
     ([0x5515C4F3], .gscan (.vec 21) (.sca 4) 0xF3),
     ([0x5615C4F3], .reord 0x15 (.sca 4) .tid),
     ([0x5715C4F3], .elect 0x15 0xC4F3)] := by decide

theorem test_decode_float : Decodes
    [([0x6015C4F3], .fadd (.vec 21) (.sca 4) .tid),
     ([0x6115C4F3], .fsub (.vec 21) (.sca 4) .tid),
     ([0x6215C4F3], .fmul (.vec 21) (.sca 4) .tid),
     ([0x6315C4F3], .ffma (.vec 21) (.sca 4) .tid),
     ([0x6415C4F3], .ffms (.vec 21) (.sca 4) .tid),
     ([0x6515C4F3], .ffnma (.vec 21) (.sca 4) .tid),
     ([0x6615C4F3], .fdiv (.vec 21) (.sca 4) .tid),
     ([0x6715C4F3], .fsqrt (.vec 21) (.sca 4) 0xF3),
     ([0x6815C4F3], .frcp (.vec 21) (.sca 4) 0xF3),
     ([0x6915C4F3], .frsq (.vec 21) (.sca 4) 0xF3),
     ([0x6A15C4F3], .fmin (.vec 21) (.sca 4) .tid),
     ([0x6B15C4F3], .fmax (.vec 21) (.sca 4) .tid),
     ([0x6C15C4F3], .fminm (.vec 21) (.sca 4) .tid),
     ([0x6D15C4F3], .fmaxm (.vec 21) (.sca 4) .tid)] := by decide

theorem test_decode_float_more : Decodes
    [([0x6E15C4F3], .fabs (.vec 21) (.sca 4) 0xF3),
     ([0x6F15C4F3], .fneg (.vec 21) (.sca 4) 0xF3),
     ([0x7015C4F3], .fcpsgn (.vec 21) (.sca 4) .tid),
     ([0x7115C4F3], .fcmpeq 0x15 (.sca 4) .tid),
     ([0x7215C4F3], .fcmplt 0x15 (.sca 4) .tid),
     ([0x7315C4F3], .fcmple 0x15 (.sca 4) .tid),
     ([0x7415C4F3], .fcmpun 0x15 (.sca 4) .tid),
     ([0x7515C4F3], .fclass (.vec 21) (.sca 4) 0xF3),
     ([0x7615C4F3], .frnd (.vec 21) (.sca 4) 0xF3),
     ([0x7715C4F3], .fscale (.vec 21) (.sca 4) .tid),
     ([0x7815C4F3], .fgexp (.vec 21) (.sca 4) 0xF3),
     ([0x7915C4F3], .fgmant (.vec 21) (.sca 4) 0xF3),
     ([0x7A15C4F3], .fex2 (.vec 21) (.sca 4) 0xF3),
     ([0x7B15C4F3], .flg2 (.vec 21) (.sca 4) 0xF3),
     ([0x7C15C4F3], .fsin (.vec 21) (.sca 4) 0xF3),
     ([0x7D15C4F3], .fcos (.vec 21) (.sca 4) 0xF3)] := by decide

theorem test_decode_convert : Decodes
    [([0x8015C4F3], .cvt (.vec 21) (.sca 4) 0xF3),
     ([0x8115C4F3], .cvtn (.vec 21) (.sca 4) 0xF3),
     ([0x8215C4F3], .cvtw (.vec 21) (.sca 4) 0xF3),
     ([0x8315C4F3], .hadd2 (.vec 21) (.sca 4) .tid),
     ([0x8415C4F3], .hmul2 (.vec 21) (.sca 4) .tid),
     ([0x8515C4F3], .hfma2 (.vec 21) (.sca 4) .tid),
     ([0x8615C4F3], .pdot4 (.vec 21) (.sca 4) .tid),
     ([0x8715C4F3], .pdot8 (.vec 21) (.sca 4) .tid),
     ([0x8815C4F3], .pdot2 (.vec 21) (.sca 4) .tid)] := by decide

theorem test_decode_local : Decodes
    [([0xA015C4F3], .ld (.vec 21) (.sca 4) .tid),
     ([0xA115C4F3], .st (.vec 21) (.sca 4) .tid),
     ([0xA215C4F3], .ld2 (.vec 21) (.sca 4) .tid),
     ([0xA315C4F3], .ld4 (.vec 21) (.sca 4) .tid),
     ([0xA415C4F3], .st2 (.vec 21) (.sca 4) .tid),
     ([0xA515C4F3], .st4 (.vec 21) (.sca 4) .tid),
     ([0xA615C4F3], .atladd (.vec 21) (.sca 4) .tid),
     ([0xA715C4F3], .atlmin (.vec 21) (.sca 4) .tid),
     ([0xA815C4F3], .atlmax (.vec 21) (.sca 4) .tid),
     ([0xA915C4F3], .atland (.vec 21) (.sca 4) .tid),
     ([0xAA15C4F3], .atlor (.vec 21) (.sca 4) .tid),
     ([0xAB15C4F3], .atlxor (.vec 21) (.sca 4) .tid),
     ([0xAC15C4F3], .atlxch (.vec 21) (.sca 4) .tid),
     ([0xAD15C4F3], .atlcas (.vec 21) (.sca 4) .tid)] := by decide

theorem test_decode_engines : Decodes
    [([0xB015C4F3], .bcopy (.vec 21) 0xC4F3),
     ([0xB115C4F3], .bcopyr (.vec 21) 0xC4F3),
     ([0xB215C4F3], .bcast (.vec 21) 0xC4F3),
     ([0xB315C4F3], .gather (.vec 21) (.sca 4) .tid),
     ([0xB415C4F3], .scatter (.vec 21) (.sca 4) .tid),
     ([0xB515C4F3], .pref (.vec 21) (.sca 4) 0xF3),
     ([0xB615C4F3, 0x00000123], .atom (.vec 21) (.sca 4) .tid 0x123),
     ([0xB715C4F3, 0x00000123], .ared (.vec 21) (.sca 4) .tid 0x123),
     ([0xB815C4F3, 0x00000123], .aprog (.vec 21) (.sca 4) .tid 0x123)] := by decide

theorem test_decode_ordering_sheaf : Decodes
    [([0xC015C4F3], .fence (.vec 21) 0xC4 0xF3),
     ([0xC115C4F3], .fwait (.vec 21) 0xC4F3),
     ([0xC215C4F3], .waitc 0x15 0xC4F3),
     ([0xC315C4F3], .shopen (.vec 21) (.sca 4) 0xF3),
     ([0xC415C4F3], .shseal (.vec 21) 0xC4F3),
     ([0xC515C4F3], .shabort (.vec 21) 0xC4F3),
     ([0xC615C4F3], .shread (.vec 21) (.sca 4) 0xF3),
     ([0xC715C4F3], .shver (.vec 21) (.sca 4) 0xF3)] := by decide

theorem test_decode_matrix_barrier : Decodes
    [([0xD015C400], .mloop (.vec 21) (.sca 4)),
     ([0xD015C4F3], .mloopQuill (.vec 21) (.sca 4) 0xF3),
     ([0xD115C4F3], .mzero (.vec 21) (.sca 4) 0xF3),
     ([0xD215C4F3], .bar 0x15 0xC4 0xF3),
     ([0xD315C4F3], .bara 0x15 0xC4 0xF3),
     ([0xD415C4F3], .barw 0x15 0xC4 0xF3),
     ([0xD515C4F3], .barx 0x15 (.sca 4) 0xF3),
     ([0xD615C4F3], .barq (.vec 21) 0xC4 0xF3)] := by decide

theorem test_decode_system : Decodes
    [([0xE015C4F3], .dqpush 0x15 (.sca 4) 0xF3),
     ([0xE115C4F3], .dqpop (.vec 21) 0xC4F3),
     ([0xE215C4F3], .regget (.vec 21) (.sca 4) 0xF3),
     ([0xE315C4F3], .regput 0x15 (.sca 4) 0xF3),
     ([0xE415C4F3], .form 0x15 (.sca 4) 0xF3),
     ([0xE515C4F3], .ctlr (.vec 21) 0xC4 0xF3),
     ([0xE615C4F3], .ctlw 0x15 (.sca 4) 0xF3),
     ([0xE715C4F3], .slotq (.vec 21) 0xC4 0xF3),
     ([0xE815C4F3], .taskq (.vec 21) 0xC4F3),
     ([0xE915C4F3], .taskdone 0x15 (.sca 4) 0xF3),
     ([0xEA15C4F3], .eret 0x15 0xC4 0xF3),
     ([0xEB15C4F3], .halt 0x15 0xC4F3),
     ([0xEC15C4F3], .signal (.vec 21) (.sca 4) 0xF3)] := by decide

theorem test_decode_literals_in_order :
    decode [0xB6F1F1F1, 0x11, 0x22, 0x33, 0x44, 0x55] = .ok (.atom (.lit 0x22) (.lit 0x33) (.lit 0x44) 0x11, [0x55]) := by decide
theorem test_decode_rejects_opcode : decode [0x11000000] = .error (.badOpcode 0x11) := by decide
theorem test_decode_rejects_literal : decode [0x0300F100] = .error .missingLiteral := by decide

/-! ### A small machine: one gang of 64 threads of group 0, in launch 0 and team 0, in a clause under form value `fm`. -/

def clauseOf (fm : Word) : ClauseBuf := ⟨0x1000, 0x000FFE00, [], 0, 0, fm, 1, 0, true⟩
def gangOf (fm : Word) : Gang := ⟨[0, 1, 2, 3], 0x1000, some (clauseOf fm), .none, 0, 0, 0⟩
def groupOf (fm : Word) : Group :=
  { groupStart 0 placedLaunch 0 0 0 0 false ⟨0, 0, 0, 64, 24, 0⟩ 0 0 none with clauseSerial := 1, gangs := [gangOf fm] }
def teamZero : Team := ⟨0, 0, [0], 0x100000, [], [], 0, false, []⟩
/-- The machine, its group changed by `f`. -/
def st (fm : Word) (f : Group → Group := id) : State :=
  { State.reset with
    launches := [(0, placedLaunch)], nextLaunch := 1, teams := [(0, teamZero)], nextTeam := 1
    groups := [(0, f (groupOf fm))], nextGid := 1, cur := some ⟨0, 0⟩ }
/-- Its issuer, where `f` leaves the gang as it is. -/
def is (fm : Word) (f : Group → Group := id) : Iss := ⟨0, f (groupOf fm), gangOf fm, clauseOf fm⟩

/-- Values of scalars and of vector registers, the same in every thread. -/
def scas (l : List (Nat × DWord)) (g : Group) : Group := { g with s := l }
def vecs (l : List (Nat × Word)) (g : Group) : Group := { g with v := l.map fun e => (e.1, List.replicate 64 e.2) }
/-- A quill context. -/
def quilled (g : Group) : Group := { g with quill := true, blocks := 0 }
/-- The launch is a predicted one. -/
def predicted (s : State) : State := s.modLaunch 0 fun l => { l with pred := some ⟨0, 1, false, false, false⟩ }
def withHandler (s : State) : State := s.modLaunch 0 fun l => { l with record := { l.record with traph := 0x2000 } }
def privileged (s : State) : State := s.modLaunch 0 fun l => { l with privileged := true }

/-- The checks `cs` pass in the machine under form value `fm` (8: i32, unguarded). -/
abbrev Passes (fm : Word) (cs : Iss → List Chk) (f : Group → Group := id) : Prop := (st fm f).Issues (is fm f) (cs (is fm f))

/-- What an instruction leaves of its group, if it answers a next state. -/
def after (o : Out) : Option Group := match o with | .next t => t.group 0 | _ => none
def vregAfter (o : Out) (n th : Nat) : Option Word := (after o).map fun g => g.vreg n th
def sregAfter (o : Out) (n : Nat) : Option DWord := (after o).map fun g => g.sreg n

/-- `FpQuiet`, to be decided. -/
def quiet (k : Iss) (uni : Bool) (f : Nat → FRes) : Bool :=
  if k.g.quill then (f 0).2 &&& k.enables == 0 else (List.range 64).all fun th => fpRaised k uni f th &&& k.enables == 0

theorem fpQuiet_iff (k : Iss) (uni : Bool) (f : Nat → FRes) : FpQuiet k uni f ↔ quiet k uni f = true := by
  unfold FpQuiet quiet
  split <;> simp

/-! ### States and operands that meet the hypotheses of the statements -/

theorem meets_IntegerResults : Passes 8 fun k => aluChk k (intTy k.ty) (.vec 3) [(2, .vec 1, true), (3, .lit 7, true)] := ⟨rfl, by decide⟩
theorem meets_IntegerResults_uniform : Passes 0x68 fun k => aluChk k (intTy k.ty) (.sca 3) [(2, .sca 1, true), (3, .one, true)] :=
  ⟨rfl, by decide⟩
theorem meets_ShiftAndFieldResults :
    Passes 0x48 fun k => aluChk k (intTy k.ty) (.vec 190) [(2, .vec 2, true), (3, .vec 5, false)] := ⟨rfl, by decide⟩
theorem meets_OneSourceIntegerResults : Passes 0x88 fun k => aluChk k (intTy k.ty) (.vec 3) [(2, .tid, true)] ++ [zeroChk 3 0] :=
  ⟨rfl, by decide⟩
theorem meets_CarryAndWideResults_madw : Passes 8 fun k => [typeChk (k.ty == .i32 || k.ty == .n32),
    quillChk k (uniform (.vec 2) [.vec 1, .vec 5]), dstChk k 1 (.vec 2) true, pairedChk 2 (.vec 2) (.vec 1), srcChk k 2 (.vec 1) false false,
    pairedChk 3 (.vec 2) (.vec 5), srcChk k 3 (.vec 5) false false] := ⟨rfl, by decide⟩
theorem meets_CarryAndWideResults_addc : Passes 0x28 fun k =>
    [typeChk (k.ty == .i32 || k.ty == .n32 || k.ty == .i64 || k.ty == .n64), quillChk k false, failIf (Opnd.isSca (.vec 2)) 2 1,
      dstChk k 1 (.vec 2) (wide k.ty), srcChk k 2 (.vec 3) (wide k.ty) false, srcChk k 3 (.sca 4) (wide k.ty) false] := ⟨rfl, by decide⟩
theorem meets_MoveAndCompareResults_mov : Passes 0x68 fun k => [quillChk k (uniform (.sca 3) [.lit 5]), dstChk k 1 (.sca 3) (wide k.ty),
    pairedChk 2 (.sca 3) (.lit 5), srcChk k 2 (.lit 5) (wide k.ty) (k.ty == .f64 && !Opnd.isSca (.sca 3)), zeroChk 3 0] := ⟨rfl, by decide⟩
theorem meets_MoveAndCompareResults_sel : Passes 8 fun k => [quillChk k false, failIf (Opnd.isSca (.vec 3)) 2 1,
    dstChk k 1 (.vec 3) (wide k.ty), srcChk k 2 (.vec 1) (wide k.ty) (k.ty == .f64), srcChk k 3 (.vec 2) (wide k.ty) (k.ty == .f64),
    failIf (decide (16 ≤ (15 : Word).toNat)) 2 4] := ⟨rfl, by decide⟩
theorem meets_MoveAndCompareResults_compare : Passes 8 (fun k => cmpChk k (intTy k.ty) 7 (.vec 1) (.vec 2)) ∧
    Passes 8 (fun k => cmpChk k (intTy k.ty) 0xC3 (.sca 1) .zero) := ⟨⟨rfl, by decide⟩, rfl, by decide⟩
theorem meets_AddressAndPredicateResults_lea : Passes 8 fun k => [typeChk (byteTy k.ty), quillChk k (uniform (.sca 9) [.sca 1, .one]),
    dstChk k 1 (.sca 9) false, pairedChk 2 (.sca 9) (.sca 1), srcChk k 2 (.sca 1) false false, pairedChk 3 (.sca 9) .one,
    srcChk k 3 .one false false] := ⟨rfl, by decide⟩
theorem meets_AddressAndPredicateResults_movp : Passes 8 fun k =>
    [typeChk (!Opnd.isVec (.vec 1) || intTy k.ty), quillChk k false, dstChk k 1 (.vec 1) (wide k.ty), predChk 2 7, zeroChk 3 0] :=
  ⟨rfl, by decide⟩
theorem meets_AddressAndPredicateResults_pand : Passes 8 fun k => [quillChk k false, predChk 1 7, predChk 2 0, predChk 3 3] :=
  ⟨rfl, by decide⟩
theorem meets_AddressAndPredicateResults_pnot : Passes 8 fun k => [quillChk k false, predChk 1 7, predChk 2 0, zeroChk 3 0] :=
  ⟨rfl, by decide⟩
theorem meets_AddressAndPredicateResults_pset :
    Passes 8 fun k => [quillChk k false, predChk 1 7, failIf (decide (1 < (1 : BitVec 16).toNat)) 2 2] := ⟨rfl, by decide⟩
theorem meets_AddressAndPredicateResults_pmov :
    Passes 8 fun k => [quillChk k false, predChk 1 2, srcChk k 2 .tid false false, zeroChk 3 0] := ⟨rfl, by decide⟩

theorem meets_BranchResults_bra : Passes 8 fun k => [quillOpnds k [.one], condChk .one] := ⟨rfl, by decide⟩
theorem meets_BranchResults_call : Passes 8 fun k => [quillOpnds k [.sca 47], scaChk 1 (.sca 47)] := ⟨rfl, by decide⟩
theorem meets_BranchResults_ret : Passes 8 (fun k => [quillOpnds k [.sca 1], scaChk 1 (.sca 1),
    failIf (decide ((k.uni64 (.sca 1)).toNat % 4 ≠ 0)) 2 1] ++ zero16 0 ++ [failIf (!canonical (k.uni64 (.sca 1)).toNat) 4 2])
    (scas [(1, 0x0007FFFFFFFFFFFC)]) := ⟨rfl, by decide⟩
/-- Form values 8 (every thread passes), 0 (p0, which is 0: none passes) and 0 with p0 = 1 (thread 0 passes). -/
theorem meets_BranchResults_brd : Passes 8 (fun k => [quillChk k false, zeroChk 1 0]) ∧
    (∀ n ∈ (is 0).gang.nibs, (is 0).taken n = 0) ∧
    ((∃ n ∈ (is 8).gang.nibs, (is 8).taken n ≠ 0) ∧ ∀ n ∈ (is 8).gang.nibs, (is 8).falling n = 0) ∧
    (let k := is 0 fun g => { g with p := [(0, 1)] }
     (∃ n ∈ k.gang.nibs, k.taken n ≠ 0) ∧ ∃ n ∈ k.gang.nibs, k.falling n ≠ 0) := ⟨⟨rfl, by decide⟩, by decide, by decide, by decide⟩
theorem meets_DivergenceKeepsThreads : (st 8).issuer = some (is 8) ∧ ((st 8).group 0).isSome = true ∧
    (((st 8).split (is 8) 0 0).group 0).isSome = true ∧ (((st 8).joinStep (is 8)).group 0).isSome = true := ⟨rfl, by decide⟩
theorem meets_JoinExitAndTrapResults : Passes 8 (fun k => [quillChk k false] ++ zero24 0) ∧ (is 8).lastExit = true ∧
    (st 8).opsAll 0 = [] ∧ (st 8).countsZero 0 = true ∧ (is 8).g.failed = [] ∧
    (let s := st 8 fun g => { g with skew := [(classIndex .atomic, 1)] }
     s.opsAll 0 = [] ∧ s.countsZero 0 = false) ∧
    Iss.lastExit ⟨0, groupOf 8, { gangOf 8 with nibs := [0] }, clauseOf 8⟩ = false := ⟨⟨rfl, by decide⟩, by decide⟩
theorem meets_JoinExitAndTrapResults_trap : Passes 8 (fun _ => [failIf (Opnd.vec 0 != .vec 0) 2 1]) ∧
    Passes 8 (fun k => [quillOpnds k [.vec 184], blockChk k (.vec 184)]) ∧ Passes 8 (fun k => [quillOpnds k [.sca 40], blockChk k (.sca 40)]) ∧
    (st 8).speculative (groupOf 8) = false ∧ (predicted (st 8)).speculative (groupOf 8) = true :=
  ⟨⟨rfl, by decide⟩, ⟨rfl, by decide⟩, ⟨rfl, by decide⟩, by decide⟩

theorem meets_ShuffleAndVoteResults : Passes 8 (fun k => [quillChk k false, failIf (Opnd.isSca (.vec 1)) 2 1, dstChk k 1 (.vec 1) (wide k.ty),
      failIf (Opnd.isSca (.vec 2)) 2 2, srcChk k 2 (.vec 2) (wide k.ty) (k.ty == .f64), srcChk k 3 .tid false false]) ∧
    Passes 8 (fun k => [quillChk k false, failIf (selOf 0xC0 == .bad) 2 1, predChk 2 7, zeroChk 3 0]) ∧
    Passes 8 (fun k => [quillChk k false, scaChk 1 (.sca 16), predChk 2 0, zeroChk 3 0]) ∧
    Passes 8 (fun k => [quillChk k false, vecChk k 1 (.vec 2) true, vecChk k 2 (.vec 1) (wide k.ty), zeroChk 3 0]) ∧
    Passes 8 (fun k => [quillChk k false, failIf (selOf 7 == .bad) 2 1] ++ zero16 0) ∧ (threadsOf (is 8).run).head? = some 0 ∧
    (threadsOf (is 0).run).head? = none :=
  ⟨⟨rfl, by decide⟩, ⟨rfl, by decide⟩, ⟨rfl, by decide⟩, ⟨rfl, by decide⟩, ⟨rfl, by decide⟩, by decide⟩
theorem meets_ReductionAndReordResults : Passes 8 (fun k => [typeChk (redTy k.ty), quillChk k false, dstChk k 1 (.sca 1) (wide k.ty),
      srcChk k 2 (.vec 2) (wide k.ty) (k.ty == .f64), zeroChk 3 0]) ∧
    FpQuiet (is 8) false (fun _ => (is 8).reduce .add ((threadsOf (is 8).run).map ((is 8).src .i32 (.vec 2)))) ∧
    scanOp 6 = some .max ∧ Passes 8 (fun k => [typeChk (redTy k.ty), quillChk k false, vecChk k 1 (.vec 1) (wide k.ty),
      srcChk k 2 (.vec 2) (wide k.ty) (k.ty == .f64), failIf (scanOp 6 == none || decide (8 ≤ (6 : Byte).toNat)) 2 3]) ∧
    Passes 8 (fun k => [quillChk k false, zeroChk 1 0, srcChk k 2 (.vec 1) false false, maskChk (.lit 0xFFFFFF),
      valueChk 3 (.lit 0xFFFFFF) (k.maskBad (.lit 0xFFFFFF)), litChk (.lit 0xFFFFFF) (k.maskBad (.lit 0xFFFFFF)), failIf (!k.g.convergent) 0x0A 3]) :=
  ⟨⟨rfl, by decide⟩, (fpQuiet_iff ..).2 (by decide +kernel), by decide, ⟨rfl, by decide⟩, rfl, by decide⟩

/-- Form values 0x108 (f32), 0x148 (f16), 0x188 (e4m3); registers that hold nothing read 0.0. -/
theorem meets_FloatResults : Passes 0x108 (fun k => aluChk k (fpTy k.ty) (.vec 3) [(2, .vec 1, true), (3, .one, true)]) ∧
    (let k := is 0x108
     FpQuiet k false (fun th => fpAdd k.ty k.mode k.teuf (k.src k.ty (.vec 1) th) (k.src k.ty .one th)) ∧
     FpQuiet k false (fun th => fpRnd k.ty k.mode (k.src k.ty (.vec 1) th)) ∧
     FpQuiet k false (fun th => fpScale k.ty k.mode k.teuf (k.src k.ty (.vec 1) th) (val .i32 (k.src .i32 .one th)))) ∧
    Passes 0x108 (fun k => aluChk k (fpTy k.ty) (.vec 3) [(2, .vec 1, true)] ++ [zeroChk 3 0]) ∧
    Passes 0x108 (fun k => aluChk k (fpTy k.ty) (.vec 3) [(2, .vec 1, true), (3, .one, false)]) :=
  ⟨⟨rfl, by decide⟩, ⟨(fpQuiet_iff ..).2 (by decide +kernel), (fpQuiet_iff ..).2 (by decide +kernel),
    (fpQuiet_iff ..).2 (by decide +kernel)⟩, ⟨rfl, by decide⟩, rfl, by decide⟩
theorem meets_FloatResults_quill : Passes 0x108 (fun k => aluChk k (fpTy k.ty) (.sca 3) [(2, .sca 1, true), (3, .one, true)]) quilled ∧
    FpQuiet (is 0x108 quilled) true (fun _ => fpAdd .f32 .rne false 0 0x3F800000) :=
  ⟨⟨rfl, by decide⟩, (fpQuiet_iff ..).2 (by decide +kernel)⟩
theorem meets_SignOperationResults : Passes 0x108 (fun k => aluChk k (fpTy k.ty) (.vec 3) [(2, .vec 1, true)] ++ [zeroChk 3 0]) ∧
    Passes 0x108 (fun k => aluChk k (fpTy k.ty) (.vec 3) [(2, .vec 1, true), (3, .one, true)]) := ⟨⟨rfl, by decide⟩, rfl, by decide⟩
theorem meets_FloatCompareAndLongResults : Passes 0x108 (fun k => cmpChk k (fpTy k.ty) 0 (.vec 1) (.vec 2)) ∧
    Passes 0x108 (fun k => [typeChk (fpTy k.ty), quillChk k (uniform (.vec 3) [.vec 1]), dstChk k 1 (.vec 3) false,
      pairedChk 2 (.vec 3) (.vec 1), srcChk k 2 (.vec 1) (wide k.ty) (k.ty == .f64), zeroChk 3 0]) ∧
    Passes 0x108 (fun k => aluChk k (fpTy k.ty) (.vec 3) [(2, .one, true)] ++ [zeroChk 3 0]) ∧
    (let k := is 0x108
     FpQuiet k false (fun th => fpSqrt k.ty k.mode k.teuf (k.src k.ty .one th)) ∧
     FpQuiet k false (fun th => fpDiv k.ty k.mode k.teuf (k.src k.ty .one th) (k.src k.ty .one th))) :=
  ⟨⟨rfl, by decide⟩, ⟨rfl, by decide⟩, ⟨rfl, by decide⟩, (fpQuiet_iff ..).2 (by decide +kernel), (fpQuiet_iff ..).2 (by decide +kernel)⟩
theorem meets_ConversionAndPackedResults : Passes 8 (fun k => [quillChk k (uniform (.vec 3) [.vec 1]), dstChk k 1 (.vec 3) (wide k.ty),
      pairedChk 2 (.vec 3) (.vec 1), srcChk k 2 (.vec 1) (wide (cvtSrc 8)) (cvtSrc 8 == .f64), failIf (decide (16 ≤ (8 : Byte).toNat)) 2 3]) ∧
    Passes 0x148 (fun k => [typeChk (decide (widthOf k.ty ≤ 16)), quillChk k (uniform (.vec 3) [.vec 1]), regChk k 1 (.vec 3),
      pairedChk 2 (.vec 3) (.vec 1), srcChk k 2 (.vec 1) (wide (cvtSrc 0x28)) (cvtSrc 0x28 == .f64),
      failIf ((0x28 : Byte).getLsbD 4 || decide (32 ≤ widthOf k.ty * cvtIdx 0x28)) 2 3]) ∧
    Passes 0x108 (fun k => [quillChk k (uniform (.vec 3) [.vec 1]), dstChk k 1 (.vec 3) (wide k.ty), pairedChk 2 (.vec 3) (.vec 1),
      packedChk k 2 (.vec 1), failIf ((0x2A : Byte).getLsbD 4 || decide (16 < widthOf (cvtSrc 0x2A)) ||
        decide (32 ≤ widthOf (cvtSrc 0x2A) * cvtIdx 0x2A)) 2 3]) ∧
    Passes 0x148 (fun k => [typeChk (k.ty == .f16 || k.ty == .bf16), quillChk k (uniform (.vec 3) [.vec 1, .vec 2]), dstChk k 1 (.vec 3) false,
      pairedChk 2 (.vec 3) (.vec 1), packedChk k 2 (.vec 1), pairedChk 3 (.vec 3) (.vec 2), packedChk k 3 (.vec 2)]) ∧
    Passes 0x188 (fun k => [typeChk (k.ty == .e4m3), quillChk k (uniform (.vec 3) [.vec 1, .vec 2]), regChk k 1 (.vec 3),
      pairedChk 2 (.vec 3) (.vec 1), packedChk k 2 (.vec 1), pairedChk 3 (.vec 3) (.vec 2), packedChk k 3 (.vec 2)]) ∧
    (let k := is 8
     FpQuiet k false fun th => k.cvt .f32 (k.src .f32 (.vec 1) th)) :=
  ⟨⟨rfl, by decide⟩, ⟨rfl, by decide⟩, ⟨rfl, by decide⟩, ⟨rfl, by decide⟩, ⟨rfl, by decide⟩,
    (fpQuiet_iff ..).2 (by decide +kernel)⟩
/-- A signaling NaN of the type in v1 and s1, with the enable of NV set (ACTL bit 4). -/
def nanned (x : Nat) (g : Group) : Group := vecs [(1, BitVec.ofNat 32 x)] { g with actl := 0x11, s := [(1, BitVec.ofNat 64 x)] }
theorem meets_FloatTraps : let f : Group → Group := nanned 0x7F800001
    Passes 0x108 (fun k => aluChk k (fpTy k.ty) (.vec 3) [(2, .vec 1, true), (3, .one, true)]) f ∧
    Passes 0x108 (fun k => aluChk k (fpTy k.ty) (.vec 3) [(2, .vec 1, true)] ++ [zeroChk 3 0]) f ∧
    Passes 0x108 (fun k => aluChk k (fpTy k.ty) (.vec 3) [(2, .vec 1, true), (3, .one, false)]) f ∧
    Passes 0x108 (fun k => cmpChk k (fpTy k.ty) 0 (.vec 1) (.vec 2)) f ∧
    (let k := is 0x108 f
     let x (th : Nat) : Nat := k.src k.ty (.vec 1) th
     ¬ FpQuiet k false (fun th => fpAdd k.ty k.mode k.teuf (x th) (k.src k.ty .one th)) ∧
     ¬ FpQuiet k false (fun th => fpRnd k.ty k.mode (x th)) ∧ ¬ FpQuiet k false (fun th => fpSqrt k.ty k.mode k.teuf (x th)) ∧
     ¬ FpQuiet k false (fun th => fpScale k.ty k.mode k.teuf (x th) (val .i32 (k.src .i32 .one th))) ∧
     ¬ FpQuiet k false (fun th => fpDiv k.ty k.mode k.teuf (x th) (k.src k.ty .one th)) ∧
     ¬ FpQuiet k false (fun th => (0, if (fval k.ty (x th)).isSnan then flNV else 0))) :=
  ⟨⟨rfl, by decide⟩, ⟨rfl, by decide⟩, ⟨rfl, by decide⟩, ⟨rfl, by decide⟩, by simp only [fpQuiet_iff]; decide +kernel⟩
/-- Source codes 8 (f32), 10 (f16) and 0x2A (f16, element 1). -/
theorem meets_FloatTraps_conversions : let f : Group → Group := nanned 0x7F800001
    let h : Group → Group := nanned 0x7C017C01
    cvtSrc 8 = .f32 ∧ cvtSrc 10 = .f16 ∧ cvtIdx 0x2A = 1 ∧
    Passes 0x148 (fun k => [quillChk k (uniform (.vec 3) [.vec 1]), dstChk k 1 (.vec 3) (wide k.ty),
      pairedChk 2 (.vec 3) (.vec 1), srcChk k 2 (.vec 1) (wide (cvtSrc 8)) (cvtSrc 8 == .f64), failIf (decide (16 ≤ (8 : Byte).toNat)) 2 3]) f ∧
    Passes 0x148 (fun k => [typeChk (decide (widthOf k.ty ≤ 16)), quillChk k (uniform (.vec 3) [.vec 1]), regChk k 1 (.vec 3),
      pairedChk 2 (.vec 3) (.vec 1), srcChk k 2 (.vec 1) (wide (cvtSrc 8)) (cvtSrc 8 == .f64),
      failIf ((8 : Byte).getLsbD 4 || decide (32 ≤ widthOf k.ty * cvtIdx 8)) 2 3]) f ∧
    Passes 0x108 (fun k => [quillChk k (uniform (.vec 3) [.vec 1]), dstChk k 1 (.vec 3) (wide k.ty), pairedChk 2 (.vec 3) (.vec 1),
      packedChk k 2 (.vec 1), failIf ((0x2A : Byte).getLsbD 4 || decide (16 < widthOf (cvtSrc 0x2A)) ||
        decide (32 ≤ widthOf (cvtSrc 0x2A) * cvtIdx 0x2A)) 2 3]) h ∧
    Passes 0x148 (fun k => [typeChk (k.ty == .f16 || k.ty == .bf16), quillChk k (uniform (.vec 3) [.vec 1, .vec 2]), dstChk k 1 (.vec 3) false,
      pairedChk 2 (.vec 3) (.vec 1), packedChk k 2 (.vec 1), pairedChk 3 (.vec 3) (.vec 2), packedChk k 3 (.vec 2)]) h ∧
    Passes 0x148 (fun k => [typeChk (k.ty == .f16 || k.ty == .bf16), quillChk k (uniform (.vec 3) [.vec 1, .vec 2]), regChk k 1 (.vec 3),
      pairedChk 2 (.vec 3) (.vec 1), packedChk k 2 (.vec 1), pairedChk 3 (.vec 3) (.vec 2), packedChk k 3 (.vec 2)]) h ∧
    ¬ FpQuiet (is 0x148 f) false (fun th => (is 0x148 f).cvt (cvtSrc 8) ((is 0x148 f).src (cvtSrc 8) (.vec 1) th)) ∧
    ¬ FpQuiet (is 0x108 h) false (fun th => (is 0x108 h).cvt (cvtSrc 0x2A) ((is 0x108 h).elem (cvtSrc 0x2A) (.vec 1) th (cvtIdx 0x2A))) ∧
    (let k := is 0x148 h
     ¬ FpQuiet k false (fun th => ((0 : Nat), (fpAdd k.ty k.mode k.teuf (k.elem k.ty (.vec 1) th 0) (k.elem k.ty (.vec 2) th 0)).2)) ∧
     isInt k.ty = false ∧ ¬ FpQuiet k false (fun th => k.dotFp (k.src .n32 (.vec 3) th) ((List.range 2).map (k.elem k.ty (.vec 1) th))
       ((List.range 2).map (k.elem k.ty (.vec 2) th)))) :=
  ⟨rfl, rfl, rfl, ⟨rfl, by decide⟩, ⟨rfl, by decide⟩, ⟨rfl, by decide⟩, ⟨rfl, by decide⟩, ⟨rfl, by decide⟩,
    by simp only [fpQuiet_iff]; decide +kernel⟩
theorem meets_FloatTraps_reductions : let f : Group → Group := nanned 0x7F800001
    let k := is 0x108 f
    Passes 0x108 (fun k => [typeChk (redTy k.ty), quillChk k false, dstChk k 1 (.sca 1) (wide k.ty), srcChk k 2 (.vec 1) (wide k.ty) (k.ty == .f64),
      zeroChk 3 0]) f ∧
    ¬ FpQuiet k false (fun _ => k.reduce .add ((threadsOf k.run).map (k.src k.ty (.vec 1)))) ∧
    scanOp 0 = some .add ∧ Passes 0x108 (fun k => [typeChk (redTy k.ty), quillChk k false, vecChk k 1 (.vec 2) (wide k.ty),
      srcChk k 2 (.vec 1) (wide k.ty) (k.ty == .f64), failIf (scanOp 0 == none || decide (8 ≤ (0 : Byte).toNat)) 2 3]) f ∧
    ¬ FpQuiet k false (fun th => k.reduce .add (((threadsOf k.run).filter fun u => if (0 : Byte).getLsbD 2 then u < th else u ≤ th).map
      (k.src k.ty (.vec 1)))) :=
  ⟨⟨rfl, by decide⟩, by simp only [fpQuiet_iff]; decide +kernel, rfl, ⟨rfl, by decide⟩, by simp only [fpQuiet_iff]; decide +kernel⟩
theorem meets_FloatTraps_quill : let f (g : Group) : Group := nanned 0x7F800001 (quilled g)
    Passes 0x108 (fun k => aluChk k (fpTy k.ty) (.sca 3) [(2, .sca 1, true), (3, .one, true)]) f ∧
    ¬ FpQuiet (is 0x108 f) true (fun th => fpAdd .f32 .rne false ((is 0x108 f).src .f32 (.sca 1) th) 0x3F800000) :=
  ⟨⟨rfl, by decide⟩, by simp only [fpQuiet_iff]; decide +kernel⟩

/-- Form value 0x4008 is scratch, 0x6008 the spill stack; team memory is 0x100000 bytes. -/
theorem meets_LoadsAndStoresIssue_load : Passes 8 (fun k => [typeChk (byteTy k.ty), quillChk k (uniform (.vec 1) [.zero, .lit 0xFFFF0]),
      runChk k 1 (.vec 1) k.ty 4, pairedChk 2 (.vec 1) .zero, srcChk k 2 .zero false false, pairedChk 3 (.vec 1) (.lit 0xFFFF0),
      srcChk k 3 (.lit 0xFFFF0) false false]) ∧
    (let s := st 8; let k := is 8
     let bad (off : Opnd) := (k.accessThreads false).filter fun th => !s.localOk k.gid k.g k.space th (k.localAddr .zero off th) 16
     bad (.lit 0xFFFF0) = [] ∧ bad (.lit 0xFFFF1) ≠ [] ∧ s.speculative k.g = false) := ⟨⟨rfl, by decide⟩, by decide +kernel⟩
theorem meets_LoadsAndStoresIssue_store : Passes 8 (fun k => [typeChk (byteTy k.ty), quillChk k (Opnd.isUni .one && Opnd.isUni .zero &&
      Opnd.isUni (.lit 0xFFFFC)), dataChk k .one 1, srcChk k 2 .zero false false, srcChk k 3 (.lit 0xFFFFC) false false]) ∧
    (let s := st 8; let k := is 8
     let bad (off : Opnd) := (threadsOf k.run).filter fun th => !s.localOk k.gid k.g k.space th (k.localAddr .zero off th) 4
     bad (.lit 0xFFFFC) = [] ∧ bad (.lit 0xFFFFD) ≠ []) ∧
    (predicted (st 0x4008)).speculative (groupOf 0x4008) = true ∧ (is 0x4008).space = 2 := ⟨⟨rfl, by decide⟩, by decide +kernel⟩
theorem meets_LocalAtomicsIssue : Passes 8 (fun k => [typeChk (atomTy 7 k.ty), quillChk k (uniform (.vec 1) [.lit 0xFFFFC, .vec 2]),
      dstChk k 1 (.vec 1) (wide k.ty), pairedChk 2 (.vec 1) (.lit 0xFFFFC), srcChk k 2 (.lit 0xFFFFC) false false,
      pairedChk 3 (.vec 1) (.vec 2), atlChk k ((7 : Nat) == 7) (.vec 2)]) ∧
    (let s := st 8; let k := is 8
     let cross (a : Opnd) := (threadsOf k.run).filter fun th => decide (32 < k.src .n32 a th % 32 + 4)
     let bad (a : Opnd) := (threadsOf k.run).filter fun th => !s.localOk k.gid k.g k.space th (k.src .n32 a th) 4
     cross (.lit 0xFFFFC) = [] ∧ bad (.lit 0xFFFFC) = [] ∧ bad (.lit 0x100000) ≠ [] ∧ cross (.lit 0x100000) = [] ∧ cross (.lit 29) ≠ [] ∧
      k.space ≠ 3 ∧ s.speculative k.g = false) ∧
    (is 0x6008).space = 3 := ⟨⟨rfl, by decide⟩, by decide +kernel⟩
theorem meets_LocalSteps :
    (let p : LPiece := ⟨0, 0, 0, .team 0 0, 0, 4, 0, 0, none⟩
     let g : Group := { groupOf 8 with longs := [⟨5, 1, 1, 5, .load (.vec 1) .i32 [p], 0, []⟩] }
     g.nextAccess = some (⟨5, 1, 1, 5, .load (.vec 1) .i32 [p], 0, []⟩, 0) ∧
     (let h : Group := { groupOf 8 with longs := [⟨5, 1, 1, 5, .atomic (.vec 1) .i32 0 [p], 0, []⟩], fifo := [⟨5, .atl 5 0⟩] }
      h.nextAccess = some (⟨5, 1, 1, 5, .atomic (.vec 1) .i32 0 [p], 0, []⟩, 0) ∧ ∀ x ∈ KMap.getD (st 8).oq h.core [], x.gid ≠ 0)) ∧
    ((st 8 fun g => { g with fifo := [⟨3, .store (.team 0 0) [(0, 1)]⟩] }).drainHead 0).isSome = true ∧
    KMap.getD ({ st 8 with oq := [(0, [⟨0, 3, .scratch 0, [(0, 1)]⟩])] } : State).oq 0 [] = ⟨0, 3, .scratch 0, [(0, 1)]⟩ :: [] := by
  decide
theorem memOk_st : (st 8).MemOk := by unfold State.MemOk; decide
theorem meets_PlaceWritesAreExact : (st 8).MemOk ∧ PlaceIn (st 8) (.team 0 0) ∧ PlaceIn (st 8) (.stack 0 63) ∧
    (∀ e ∈ ([(0xFFFFF, 1), (0, 2)] : List (Nat × Byte)), e.1 < placeSize (.team 0 0)) := ⟨memOk_st, rfl, rfl, by decide⟩
theorem meets_IssueLeaves : (st 8).issuer = some (is 8) ∧ KMap.get (st 8).ops (st 8).nextOp = none := ⟨rfl, rfl⟩

/-- A control block in s0 to s7 of one 4-byte element: its words 0, 5 and 6. -/
def blkOf (src esz f : DWord) : Group → Group := scas [(0, src), (5, esz), (6, f)]
theorem meets_EngineOperationsIssue_copy :
    (∀ e ∈ copyForms (.sca 1) 0 0 (.sca 40), (st 8).Issues (is 8) (e.2.1 (is 8))) ∧
    (let s := st 8
     let b (src esz f : DWord) := (is 8 (blkOf src esz f)).copyBlk 0
     (b 0 0 0).bad .copy = some 1 ∧ (b 0 4 0x010000).bad .copyr = none ∧ (b 0 4 0xF00000401).bad .bcast = none ∧
     (b 0 128 0).bad .shread = none ∧
     (b 0x0008000000000000 4 0).bad .copy = none ∧ s.copyAddr (is 8) (b 0x0008000000000000 4 0) .copy = some 2 ∧
     (b 0x0007FFFFFFFFFFFC 4 0).bad .copy = none ∧ s.copyAddr (is 8) (b 0x0007FFFFFFFFFFFC 4 0) .copy = none ∧
     (b 0 4 0x100).bad .copy = none ∧ s.copyAddr (is 8) (b 0 4 0x100) .copy = none ∧ (b 0 4 0x100).bind = true ∧
     barCode (byte (0x10 + (b 0 4 0x100).bar)) = some (.tb 0) ∧ s.barEnabled (groupOf 8) (.tb 0) = false ∧
     (s.modLaunch 0 fun l => { l with record := { l.record with tbm := 1 } }).barEnabled (groupOf 8) (.tb 0) = true ∧
     (b 0 4 4).bad .copy = none ∧ (b 0 4 4).shf = true ∧ s.handleEntry 0 (b 0 4 4).handle = none ∧
     s.speculative (groupOf 8) = false ∧ s.canIssue (is 8) .copy = true ∧
     (st 8 fun g => { g with fifo := [⟨3, .store (.team 0 0) [(0, 1)]⟩] }).canIssue
      (is 8 fun g => { g with fifo := [⟨3, .store (.team 0 0) [(0, 1)]⟩] }) .copy = false) := by
  refine ⟨fun e he => ⟨rfl, ?_⟩, by decide⟩
  revert e
  decide
theorem meets_EngineOperationsIssue_gather : Passes 8 (fun k => [typeChk (byteTy k.ty), quillChk k false, vecChk k 1 (.vec 191) (wide k.ty),
      baseChk 2 (.sca 0), offChk k 3 .tid]) ∧
    Passes 8 (fun k => [typeChk (byteTy k.ty), quillChk k false, srcChk k 1 .one (wide k.ty) (k.ty == .f64), pairBaseChk 2 (.sca 0),
      offChk k 3 .tid]) ∧
    Passes 8 (fun k => [quillOpnds k [.sca 0, .lit 128], baseChk 1 (.sca 0), failIf (!Opnd.isUni (.lit 128)) 2 2, zeroChk 3 0]) ∧
    (let k (a : DWord) := is 8 (scas [(0, a)])
     let bad (a : DWord) := (threadsOf (k a).run).filter fun th => !canonical ((k a).virtAddr (.sca 0) .zero th).toNat
     bad 0x0007FFFFFFFFFFFF = [] ∧ bad 0x0008000000000000 ≠ [] ∧ (st 8).canIssue (k 0) .gather = true ∧ (k 0).handleAt (.sca 0) = 0) ∧
    ((is 8 (scas [(1, 5)])).handleAt (.sca 0) ≠ 0 ∧ (st 8).handleEntry 0 5 = none) :=
  ⟨⟨rfl, by decide⟩, ⟨rfl, by decide⟩, ⟨rfl, by decide⟩, by decide +kernel⟩
theorem meets_EngineOperationsIssue_atom : atomCtl 0x7000 true = some (7, .i32) ∧ atomCtl 0x0100 false = some (0, .n32) ∧
    Passes 8 (fun k => [quillChk k false, atomRunChk k (.vec 4) 0x7000, pairBaseChk 2 (.sca 8), offChk k 3 (.vec 2),
      failIf (atomCtl 0x7000 true).isNone 2 4]) ∧
    Passes 8 (fun k => [quillOpnds k [.one, .sca 8, .zero], srcChk k 1 .one (wide .n32) (EType.n32 == .f64), pairBaseChk 2 (.sca 8),
      offChk k 3 .zero, failIf (atomCtl 0x0100 false).isNone 2 4]) ∧
    Passes 8 (fun k => [quillChk k false, progChk k (.vec 188), baseChk 2 .zero, offChk k 3 .zero, failIf (decide (256 ≤ (255 : Word).toNat)) 2 4]) ∧
    (let k (a : DWord) := is 8 (scas [(8, a)])
     let bad (a : DWord) := (threadsOf (k a).run).filter fun th => !canonical ((k a).virtAddr (.sca 8) .zero th).toNat
     let mis (a : DWord) := (threadsOf (k a).run).filter fun th => decide (((k a).virtAddr (.sca 8) .zero th).toNat % 4 ≠ 0)
     bad 0x0008000000000000 ≠ [] ∧ bad 4 = [] ∧ mis 4 = [] ∧ mis 5 ≠ [] ∧ (st 8).canIssue (k 4) .atomic = true) :=
  ⟨by decide, by decide, ⟨rfl, by decide⟩, ⟨rfl, by decide⟩, ⟨rfl, by decide⟩, by decide +kernel⟩

/-- A copy that has not started holds fence slot 0 and the class counter. -/
def copyOp : EngOp := ⟨0, .copy, 1, .copy ((is 8 (blkOf 0 4 0)).copyBlk 0), 0, false, none, [], [], none, none, 0, 0, false, 0, 0, 0, 0⟩
theorem meets_OrderingResults : Passes 8 (fun k => [quillOpnds k [.sca 1], scaChk 1 (.sca 1), failIf (decide (6 < (6 : Byte).toNat)) 2 2,
      failIf (decide ((31 : Byte).toNat = 0) || decide (32 ≤ (31 : Byte).toNat)) 2 3]) ∧
    (let s : State := { st 8 with ops := [(0, copyOp)], nextOp := 1 }
     let g : Group := { groupOf 8 with fences := [⟨1, 0, [0], [], []⟩] }
     (gangOf 8).hold = .none ∧ s.fenceDone 0 g (g.fence 1) = true ∧ (∀ i < 1, s.fenceDone 0 g (g.fence i) = false) ∧
     (g.fence 0).ops.any s.opPending = true ∧ (∀ o ∈ (g.fence 0).ops, s.isHeld o = false) ∧ s.counter 0 .copy = 1 ∧
     (∀ o ∈ s.opsOf 0 .copy, s.isHeld o = false)) ∧
    Passes 8 (fun k => [quillOpnds k [.sca 1], scaChk 1 (.sca 1),
      failIf (decide (bitsOf (k.g.sreg 1).toNat 63 16 ≠ 0) || decide (bitsOf (k.g.sreg 1).toNat 7 3 ≠ 0)) 2 1] ++ zero16 0) (scas [(1, 0x107)]) ∧
    classOf (0 : Byte).toNat = some .copy ∧
    Passes 8 (fun _ => [failIf (decide (3 < (0 : Byte).toNat)) 2 1, failIf (decide (63 < (63 : BitVec 16).toNat)) 2 2]) :=
  ⟨⟨rfl, by decide⟩, by decide, ⟨rfl, by decide⟩, by decide, rfl, by decide⟩
/-- Function 0 with a sheaf directory of 128 lines at an address of its HBM. -/
def withSheaves : State := (st 8).modFunc 0 fun f => { f with sdbase := 0x100000, sdsize := 7 }
theorem meets_SheafResults : Passes 8 (fun k => [quillOpnds k [.sca 1, .lit 5], scaChk 1 (.sca 1), nameChk 2 (.lit 5), zeroChk 3 0]) ∧
    Passes 8 (fun k => [quillOpnds k [.sca 1], scaChk 1 (.sca 1)] ++ zero16 0) ∧
    (st 8).speculative (groupOf 8) = false ∧ (st 8).closed = false ∧ ((st 8).func 0).sdsize = 0 ∧ (withSheaves.func 0).sdsize ≠ 0 ∧
    (match (st 8).shopen (groupOf 8) 5 with | .error _ => true | .ok _ => false) = true ∧
    (match withSheaves.shopen (groupOf 8) 5 with
      | .ok (t, h) => (t.handleEntry 0 h).isSome && t.canIssue (is 8) .atomic
      | .error _ => false) = true ∧
    withSheaves.devnum < 4096 ∧ (withSheaves.func 0).gen < 256 ∧ (st 8).handleEntry 0 5 = none :=
  ⟨⟨rfl, by decide⟩, ⟨rfl, by decide⟩, by decide +kernel⟩
/-- A matrix control block in s16 to s23: `a` its word 0 (A), `n` its word 4 (STEPS, SHAPE), `f` its word 5 (formats: 0x466 is i8, i8, i32). -/
def matBlkOf (a n f : DWord) : Group → Group := scas [(16, a), (20, n), (21, f)]
/-- A quill context, beside group 1 of its team and core. -/
def quillPair : State := { st 8 (matBlkOf 0 1 0x466 ∘ quilled) with groups := [(0, matBlkOf 0 1 0x466 (quilled (groupOf 8))),
  (1, { groupOf 8 with grp := 1 })] }
theorem meets_MatrixIssue :
    (let k (a n f : DWord) := is 8 (matBlkOf a n f)
     let b (a n f : DWord) := (k a n f).matBlk 16
     let s := st 8
     firstChk [fragChk (k 0 1 0x466) (.vec 64) (b 0 1 0x466).regs ((b 0 1 0x466).shape == 3), sbChk 2 (.sca 16),
      s.mloopGrpChk (k 0 1 0x466) (.vec 64) (b 0 1 0x466) 0] = none ∧
     (b 0 0 0x466).bad = some 12 ∧ (b 0 1 0x466).bad = none ∧ s.matOut (groupOf 8) (b 0 1 0x466) = false ∧
     (b 0xFA080 1 0x466).bad = none ∧ s.matOut (groupOf 8) (b 0xFA000 1 0x466) = false ∧ s.matOut (groupOf 8) (b 0xFA080 1 0x466) = true ∧
     s.canIssue (k 0 1 0x466) .matrix = true ∧ (s.mloopTarget (k 0 1 0x466) 0).isSome = true) ∧
    (let k : Iss := ⟨0, matBlkOf 0 1 0x466 (quilled (groupOf 8)), gangOf 8, clauseOf 8⟩
     firstChk [fragChk k (.vec 64) (k.matBlk 16).regs ((k.matBlk 16).shape == 3), sbChk 2 (.sca 16),
      quillPair.mloopGrpChk k (.vec 64) (k.matBlk 16) 1] = none ∧ (quillPair.mloopTarget k 1).isSome = true) ∧
    (let k (n f : DWord) := is 8 (matBlkOf 0 n f)
     let b (n f : DWord) := (k n f).matBlk 16
     firstChk [quillChk (k 1 0x466) false, fragChk (k 1 0x466) (.vec 64) (b 1 0x466).regs ((b 1 0x466).shape == 3), sbChk 2 (.sca 16),
      zeroChk 3 0] = none ∧
     (b 0x40001 0).rsvd = true ∧ (b 0x30001 0).rsvd = false ∧ (b 0x30001 0).shape = 3 ∧ (b 1 0x800).accShape = false ∧
     (b 1 0x466).accShape = true) := by decide

/-- A barrier on which all 64 threads of the group are expected. -/
def expecting (key : BarKey) (s : State) : State := s.setBar key ⟨64, 0, 0, 0, 0⟩
theorem meets_BarrierAndParkResults : barCode 3 = some (.gb 3) ∧ barCode 0x1F = some (.tb 15) ∧
    Passes 8 (fun k => [quillChk k false, zeroChk 1 0, zeroChk 2 0, codeChk 3 3, failIf k.masked 0x0A 2]) ∧
    Passes 8 (fun k => [quillChk k false, zeroChk 1 0, zeroChk 2 0, codeChk 3 3]) ∧
    Passes 8 (fun k => [quillOpnds k [.lit 0x7FFFFFFF], zeroChk 1 0, failIf (!Opnd.isUni (.lit 0x7FFFFFFF)) 2 2, valueChk 2 (.lit 0x7FFFFFFF)
      (decide (0x7FFFFFFF < k.uni32 (.lit 0x7FFFFFFF))), failIf (!isTeamBar 0x1F) 2 3,
      litChk (.lit 0x7FFFFFFF) (decide (0x7FFFFFFF < k.uni32 (.lit 0x7FFFFFFF)))]) ∧
    Passes 8 (fun k => [quillOpnds k [.sca 1], scaChk 1 (.sca 1), zeroChk 2 0, codeChk 3 0x33]) ∧
    (let g := groupOf 8
     let s := st 8
     let r := s.modLaunch 0 fun l => { l with record := { l.record with tbm := 0x2000000000000000 } }
     s.barEnabled g (.gb 3) = true ∧ s.barMember g (.gb 3) = true ∧ s.barEnabled g (.tb 15) = false ∧ r.barEnabled g (.tb 15) = true ∧
     r.barMember g (.tb 15) = false ∧ (s.opsAll 0).filter s.isHeld = [] ∧ g.failed = [] ∧ s.storesPending 0 g 4 = []) ∧
    Passes 8 (fun k => [zeroChk 1 0, parkBarChk k 0x1F]) ∧ barCode (byte (0x1F : Word).toNat) = some (.tb 15) ∧
    Passes 8 (fun _ => [zeroChk 1 0, parkCtrChk 0x8000033F]) ∧ classOf (bitsOf (0x8000033F : Word).toNat 9 8) = some .atomic :=
  ⟨by decide, by decide, ⟨rfl, by decide⟩, ⟨rfl, by decide⟩, ⟨rfl, by decide⟩, ⟨rfl, by decide⟩, by decide, ⟨rfl, by decide⟩, by decide,
    ⟨rfl, by decide⟩, by decide⟩
/-- 64 expected arrivals: 64 threads complete the phase, 63 do not. -/
theorem meets_BarrierPhases : (let b := (expecting (.gb 0 0) (st 8)).bar (.gb 0 0)
    0 < b.e ∧ b.c = 0 ∧ b.a + (threadsOf (BitVec.allOnes 64)).length = b.e ∧ b.a + (threadsOf (BitVec.allOnes 64 >>> 1)).length < b.e) := by
  decide

def quillState : State := st 8 quilled
theorem meets_QueueBlockAndFormResults :
    Passes 8 (fun k => [failIf (!k.g.quill) 1 4, quillOpnds k [.one], zeroChk 1 0, failIf (!Opnd.isUni .one) 2 2, zeroChk 3 0]) quilled ∧
    (quillState.teamOf (quilled (groupOf 8)) = some teamZero ∧ (teamZero.queueOf 0).length < 64 ∧
      quillState.storesPending 0 (quilled (groupOf 8)) 1 = [] ∧ quillState.popWaiters 0 0 = []) ∧
    Passes 8 (fun k => [quillChk k false, scaZeroChk 1 (.sca 1)] ++ zero16 0) ∧
    Passes 8 (fun k => [quillChk k false, scaZeroChk 1 .zero, blockMaskChk 2 (.lit 0x800000),
      valueChk 2 (.lit 0x800000) (k.blocksBad (.lit 0x800000)), zeroChk 3 0, litChk (.lit 0x800000) (k.blocksBad (.lit 0x800000))]) ∧
    Passes 8 (fun k => [quillChk k false, zeroChk 1 0, blockMaskChk 2 (.lit 0x800000),
      valueChk 2 (.lit 0x800000) (k.blocksBad (.lit 0x800000) || k.putBad (.lit 0x800000)), zeroChk 3 0,
      litChk (.lit 0x800000) (k.blocksBad (.lit 0x800000) || k.putBad (.lit 0x800000))]) (fun g => { g with minBlocks := 23 }) ∧
    (st 8).opsAll 0 = [] ∧ (groupOf 8).longs = [] ∧
    Passes 8 (fun k => [quillOpnds k [.lit 0x7BE8], failIf (decide (3 < (3 : Byte).toNat)) 2 1, failIf (!Opnd.isUni (.lit 0x7BE8)) 2 2,
      valueChk 2 (.lit 0x7BE8) (badForm (k.uni32 (.lit 0x7BE8))), zeroChk 3 0, litChk (.lit 0x7BE8) (badForm (k.uni32 (.lit 0x7BE8)))]) ∧
    Passes 8 (fun k => [quillOpnds k [.sca 1], scaChk 1 (.sca 1), zeroChk 2 0, failIf (decide (3 < (3 : Byte).toNat)) 2 3]) :=
  ⟨⟨rfl, by decide⟩, by decide, ⟨rfl, by decide⟩, ⟨rfl, by decide⟩, ⟨rfl, by decide⟩, by decide, by decide, ⟨rfl, by decide⟩, rfl, by decide⟩
theorem meets_ControlRegisterResults :
    (∀ reg ∈ ([0, 2, 3, 4, 5, 6, 7, 8, 9, 10, 11] : List Byte), firstChk [quillOpnds (is 8) [.sca 1], ctlrDstChk (is 8) (.sca 1) reg, zeroChk 2 0,
      regCodeChk (is 8) 3 reg] = none) ∧
    firstChk [quillOpnds (is 8) [.vec 1], ctlrDstChk (is 8) (.vec 1) 1, zeroChk 2 0, regCodeChk (is 8) 3 1] = none ∧
    (∀ reg ∈ ([0, 2, 3, 4, 5, 6, 9, 11] : List Byte), firstChk [quillOpnds (is 8) [.one], ctlwPriv (privileged (st 8)) (is 8) reg, zeroChk 1 0,
      ctlwSrcChk (is 8) .one reg, valueChk 2 .one ((is 8).drndBad .one reg), regCodeChk (is 8) 3 reg, litChk .one ((is 8).drndBad .one reg)] = none) ∧
    firstChk [quillOpnds (is 8) [.vec 1], ctlwPriv (st 8) (is 8) 1, zeroChk 1 0, ctlwSrcChk (is 8) (.vec 1) 1,
      valueChk 2 (.vec 1) ((is 8).drndBad (.vec 1) 1), regCodeChk (is 8) 3 1, litChk (.vec 1) ((is 8).drndBad (.vec 1) 1)] = none ∧
    (st 8).privileged (groupOf 8) = false ∧ (st 8).issuer = some (is 8) := ⟨by decide, by decide, by decide, by decide, by decide, rfl⟩
theorem meets_PrivilegeIsKept : Instr.isWord (.nop 0) = true ∧ (st 8).issuer = some (is 8) ∧ ∃ t, exec (.nop 0) (st 8) = .next t :=
  ⟨rfl, rfl, _, rfl⟩
theorem meets_TaskAndSignalResults : Passes 8 (fun k => [quillOpnds k [.sca 44], taskBlkChk (.sca 44)] ++ zero16 0) ∧
    (st 8).speculative (groupOf 8) = false ∧ Quiet (st 8) (is 8) ∧
    (let w1 : Nat := 0xF00000FFF
     w1 / 2 ^ 36 = 0 ∧ w1 % 2 ^ 16 < 4096 ∧ ∀ x ∈ taskSucc w1 0x0FFF000000010002, x < 4096) ∧
    ((((st 8).func 0).task 1).st = .free ∧
      ((((st 8).modTask 0 1 fun t => { t with st := .ready }).func 0).task 1).st = .ready) ∧
    Passes 8 (fun k => [quillOpnds k [.lit 4095], zeroChk 1 0, failIf (!Opnd.isUni (.lit 4095)) 2 2,
      valueChk 2 (.lit 4095) (decide (4095 < (k.uni64 (.lit 4095)).toNat)), zeroChk 3 0, litChk (.lit 4095) (decide (4095 < (k.uni64 (.lit 4095)).toNat))]) ∧
    Passes 8 (fun k => [quillOpnds k [.sca 1, .one], scaChk 1 (.sca 1), failIf (!Opnd.isUni .one) 2 2,
      failIf (decide (bitsOf (0x82 : Byte).toNat 6 2 ≠ 0) || (0x82 : Byte).toNat % 4 == 3) 2 3]) ∧
    (canonical 0x0008000000000000 = false ∧ canonical 12 = true ∧ 12 % 8 ≠ 0 ∧ canonical 16 = true ∧ (st 8).canIssue (is 8) .atomic = true) :=
  ⟨⟨rfl, by decide⟩, by decide, by unfold Quiet; decide, by decide, by decide, ⟨rfl, by decide⟩, ⟨rfl, by decide⟩, by decide⟩

theorem meets_TrapEntry : (withHandler (st 8)).issuer = some (is 8) ∧ ∃ l, (withHandler (st 8)).launchOf (groupOf 8) = some l ∧
    (withHandler (st 8)).speculative (groupOf 8) = false ∧ l.record.traph ≠ 0 ∧ (groupOf 8).h = false := ⟨rfl, _, rfl, by decide⟩
theorem meets_TrapEntry_quill : (withHandler (st 8 quilled)).issuer = some (is 8 quilled) ∧
    ∃ l, (withHandler (st 8 quilled)).launchOf (quilled (groupOf 8)) = some l ∧ l.record.traph ≠ 0 ∧ (quilled (groupOf 8)).h = false :=
  ⟨rfl, _, rfl, by decide⟩
theorem meets_TrapWithoutHandler : (st 8).issuer = some (is 8) ∧ (st 8).launchOf (groupOf 8) = some placedLaunch ∧
    (st 8).speculative (groupOf 8) = false ∧ placedLaunch.record.traph = 0 ∧ (predicted (st 8)).issuer = some (is 8) ∧
    (predicted (st 8)).speculative (groupOf 8) = true := ⟨rfl, rfl, by decide, by decide, rfl, by decide⟩
/-- A group inside its handler, with its save area; a flag raised by a clause of the handler stands in the second. -/
def inHandler (g : Group) : Group := { g with h := true, save := some ⟨0, [⟨0, 0x1000, 0x1000, 0xFFFF, []⟩], gangOf 8, ⟨0, 0x1000, []⟩, [8, 8, 8, 8], 0, 0⟩ }
def flagged (g : Group) : Group := { inHandler g with raises := [⟨0, 2, false⟩], longs := [⟨1, 2, 1, 1, .result [], 0, []⟩] }
theorem meets_EretAndHaltResults : Passes 8 (fun k => [failIf (!k.g.h) 1 5, zeroChk 1 0, zeroChk 2 0, failIf (decide (1 < (1 : Byte).toNat)) 2 3])
      inHandler ∧
    (inHandler (groupOf 8)).handlerFlags = false ∧ (flagged (groupOf 8)).handlerFlags = true ∧ (inHandler (groupOf 8)).save.isSome = true ∧
    Passes 8 (fun _ => [zeroChk 1 0]) ∧ ((st 8).opsAll 0).filter (st 8).isHeld = [] :=
  ⟨⟨rfl, by decide⟩, by decide, by decide, by decide, ⟨rfl, by decide⟩, by decide⟩
/-- A clause whose word 0x11000000 has an opcode that the map of R38 does not show. -/
def unknownWord (g : Group) : Group := { g with gangs := [{ gangOf 8 with clause := some { clauseOf 8 with words := [0x11000000] } }] }
theorem meets_IllegalInstructions : (0xFFFFFF : BitVec 24) ≠ 0 ∧ (st 8).issuer = some (is 8) ∧ ∃ k cl e, (unknownWord (groupOf 8)).gang 0 = some k ∧ k.clause = some cl ∧
    (unknownWord (groupOf 8)).budgetReady k = false ∧ cl.formed = true ∧ decode (cl.words.drop cl.next) = .error e :=
  ⟨by decide, rfl, _, _, _, rfl, rfl, by decide, rfl, rfl⟩


/-! ### Steps -/

/-- A result for v1 of thread 0 and for s2 is under way. -/
def awaiting (g : Group) : Group := { g with longs := [⟨0, 1, 1, 0, .result [.vec 1 0 5, .sca 2 7], 3, []⟩] }
theorem meets_WritebackDelivers : ∃ g x ws, (st 8 awaiting).group 0 = some g ∧ g.longs.find? (fun y => y.id == 0) = some x ∧
    x.kind.writes = some ws ∧ g.partner = none := ⟨_, _, _, rfl, rfl, rfl, rfl⟩

/-- The gang stands at `pc`, the header of a clause that EXIT alone makes up; the page at 0x1000 is translated, for fetches. -/
def atHeader (pc : DWord) (g : Group) : Group := { g with gangs := [{ gangOf 8 with clause := none, pc := pc }] }
def codeState (pc : DWord) : State :=
  { st 8 (atHeader pc) with
    funcs := [(0, { Func.reset 0 with ttbase := 1 })]
    tlb := [⟨0, 0, 1, 12, 0x100D⟩]
    tags := [(0x1040 / 128, 65)]
    mem := [(0x1041, 0xF0), (0x1042, 0x0F), (0x1047, 0x45)] }
theorem meets_ClauseIssueStep : (let s := codeState 0x1040
    let g := atHeader 0x1040 (groupOf 8)
    let k : Gang := { gangOf 8 with clause := none, pc := 0x1040 }
    let hdr : Word := 0x000FF000
    let wordOf (l : Loc) : Word := word (leVal ((List.range 4).map fun j => s.predGet none (s.func (s.fnOf g)).owner (l.plus j)))
    s.group 0 = some g ∧ g.gang 0 = some k ∧ k.clause = none ∧ k.hold = .none ∧ g.faultParked = false ∧ g.offCore = false ∧ g.presence = .here ∧
    s.speculative g = false ∧ canonical k.pc.toNat = true ∧ s.fetchLocs g.core (s.fnOf g) k.pc.toNat 1 = .ok [.dpa 0x1040] ∧
    [Loc.dpa 0x1040].any s.locShut = false ∧ [Loc.dpa 0x1040].any (s.readRefused (s.fnOf g)) = false ∧ hdr = wordOf (([Loc.dpa 0x1040]).headD (.host 0)) ∧ g.flagsReady hdr = true ∧
    g.trapsPending = false ∧ s.fetchLocs g.core (s.fnOf g) ((k.pc.toNat + 4) % 2 ^ 64) (hdrLen hdr) = .ok [.dpa 0x1044] ∧
    [Loc.dpa 0x1044].any s.locShut = false ∧ [Loc.dpa 0x1044].any (s.readRefused (s.fnOf g)) = false ∧
    canonical 0x0008000000000000 = false) := by
  intro s g k hdr wordOf
  refine ⟨rfl, rfl, rfl, rfl, rfl, rfl, rfl, ?_⟩
  decide +kernel
/-- The same clause in the memory of device 1, in a drain window. -/
theorem meets_ClauseIssueStep_away : (let s := { codeState 0x1040 with tlb := [⟨0, 0, 1, 12, 0x100000000100D⟩], closed := true }
    let g := atHeader 0x1040 (groupOf 8)
    s.fetchLocs g.core (s.fnOf g) 0x1040 1 = .ok [.dpa 0x1000000001040] ∧ s.locShut (.dpa 0x1000000001040) = true ∧
    s.speculative g = false) := by decide +kernel
/-- A header that waits for flag 0, raised; one that opens a region, one that does not; clauses with and without a long-latency word. -/
theorem meets_ClauseIssueStep_flags : (let g := { atHeader 0x1040 (groupOf 8) with raises := [⟨0, 9, false⟩] }
    g.flagsReady 0x001FF000 = false ∧ g.flagClear 0 = false ∧ (codeState 0x1040).opensRegion g 0x1040 0x000FF000 = false ∧
    (codeState 0x1040).opensRegion g 0x1040 0x000FF040 = true ∧ 0 < longsIn 8 [0xA0010002] ∧ longsIn 8 [0x45000000] = 0) := by decide +kernel
/-- An engine operation of the context, and one request of it. -/
def opOf (cls : EngClass) (k : OpKind) (started : Bool) : EngOp :=
  { gid := 0, cls := cls, ord := 1, kind := k, pc := 0x1004, started := started, failed := none, buf := [], have_ := [], bar := none, sh := none,
    fn := 0, optag := 0, swept := false, nib := 0, dev := 0, made := 0, cost := 3 }
def reqOf (k : ReqKind) (a : Nat) (stage : Stage) : Req :=
  { op := 0, kind := k, va := some 0, loc := some (.dpa a), len := 32, dst := k.writes, handle := 0, stage := stage, deferred := false, tag := none,
    owner := 1, gen := 0, bits := 12, far := none, farLoc := none }
def engState (o : EngOp) (r : Req) (f : Group → Group := id) : State :=
  { st 8 f with ops := [(0, o)], nextOp := 1, reqs := [(0, r)], nextReq := 1 }
def pieces : OpKind := .scatter .i32 0 [(0, 0, 7)]
/-- The gang waits at WAITC copy, 0 (0xC200_0000, R132). -/
def waitingAt (g : Group) : Group :=
  { g with gangs := [{ gangOf 8 with clause := some { clauseOf 8 with words := [0xC2000000] }, hold := .retry }] }
/-- R132, R350: the gang is ready once no copy of its group is outstanding, and not before. -/
theorem test_wait_over : (st 8 waitingAt).passes 0 0 = true ∧
    (engState (opOf .copy pieces true) (reqOf (.store [(0, 1)]) 0x200 .fabric) waitingAt).passes 0 0 = false := by decide +kernel
def stored (stage : Stage) (a : Nat) : State := engState (opOf .gather pieces true) (reqOf (.store [(0, 7)]) a stage)
theorem meets_EngineSteps :
    (∃ x ps, (engState (opOf .gather pieces false) (reqOf (.store []) 0 .done)).canStart 0 = some (x, ps) ∧
      (engState (opOf .gather pieces false) (reqOf (.store []) 0 .done)).opTag x = none) ∧
    (∃ r, (stored .created 0).canSend 0 = some r ∧ (stored .created 0).reqPorts r = []) ∧
    (∃ r o, (stored .fabric 0).canArrive 0 = some (r, o, .dpa 0) ∧ o.readsSheaf r = false ∧ r.farLoc = none ∧ devOf 0 = (stored .fabric 0).devnum ∧ (stored .fabric 0).landingOf r o 0 = none) ∧
    (∃ r o, (stored .queued 0).canServe 0 = some (r, o, 0) ∧ r.handle = 0 ∧ r.tag = none) ∧
    (∃ r o, let s := stored (.answered []) 0
      KMap.get (s.modFunc 0 fun f => { f with gen := 1 }).reqs 0 = some r ∧ r.stage = .answered [] ∧ KMap.get s.ops r.op = some o ∧
      r.gen ≠ ((s.modFunc 0 fun f => { f with gen := 1 }).func o.fn).gen) ∧
    (∃ r o, let s := engState (opOf .atomic (.atom (some 4) .i32 0 0 [(0, 0, 1, 0)]) true) (reqOf (.rmw 0 .i32 0 1 0 true) 0 (.answered [5, 0, 0, 0]))
      KMap.get s.reqs 0 = some r ∧ r.stage = .answered [5, 0, 0, 0] ∧ KMap.get s.ops r.op = some o ∧ r.gen = (s.func o.fn).gen ∧
      r.kind = .rmw 0 .i32 0 1 0 true ∧ o.kind = .atom (some 4) .i32 0 0 [(0, 0, 1, 0)]) ∧
    (let s := stored .done 0
     let x := opOf .gather pieces true
     s.opsOf 0 .gather = [0] ∧ KMap.get s.ops 0 = some x ∧ s.opOver 0 x = true ∧ x.failed = none ∧ x.sh = none) ∧
    (let s := stored .fabric (2 ^ 48)
     let r := reqOf (.store [(0, 7)]) (2 ^ 48) .fabric
     KMap.get s.reqs 0 = some r ∧ r.loc = some (.dpa (2 ^ 48)) ∧ devOf (2 ^ 48) ≠ s.devnum ∧ r.stage = .fabric) :=
  ⟨⟨_, _, rfl, rfl⟩, ⟨_, rfl, rfl⟩, ⟨_, _, rfl, rfl, rfl, by decide +kernel, rfl⟩, ⟨_, _, rfl, rfl, rfl⟩,
    ⟨_, _, rfl, rfl, rfl, by decide +kernel⟩, ⟨_, _, rfl, rfl, rfl, by decide +kernel, rfl, rfl⟩, by decide +kernel, by decide +kernel⟩
/-- A held entry without a record. -/
def heldFault : FaultEntry :=
  { fn := 0, die := 0, op := some 0, gid := 0, gang := 0, page := 1, vaddr := 0x1000, dst := false, acc := 0, kind := 1, lvl := 3, seq := none, caln := 0,
    optag := 0, cls := 1, again := false }
/-- A request that paused at a full fault buffer, whose walk fails still. -/
def pausedReq : Req := { reqOf (.store [(0, 7)]) 0 (.held []) with va := some 0x2000 }
def pausedState : State :=
  { engState (opOf .gather (.gather 4 .i16 [(0, 0)]) true) pausedReq with faults := (List.range 4096).map fun i => (i, heldFault) }
theorem meets_EngineSteps_pause : (∃ e ∈ pausedState.reqs, e.2.pausedIn 0 = true) ∧ (pausedState.canStart 0).isSome = true ∧
    (pausedState.resolve (opOf .gather (.gather 4 .i16 [(0, 0)]) true) pausedReq.acc pausedReq).toOption.isNone = true ∧
    pausedState.faultRoom pausedReq.op (opOf .gather (.gather 4 .i16 [(0, 0)]) true) pausedReq.dst
      (pausedState.failures (opOf .gather (.gather 4 .i16 [(0, 0)]) true) pausedReq.acc pausedReq) = false := by decide +kernel
/-- A request that arrives elsewhere: in team memory, at the host, of an SHREAD, at a home atomic of host memory that it does not serve. -/
def arriving (o : OpKind) (k : ReqKind) (l : Loc) : State := engState (opOf .gather o true) { reqOf k 0 .fabric with loc := some l }
def teamByte : Loc := .place (.team 0 0) 0xFFFFF
theorem meets_EngineSteps_arrive :
    (∃ r o, (arriving pieces (.store [(0, 7)]) teamByte).canArrive 0 = some (r, o, teamByte) ∧ o.readsSheaf r = false ∧
      (arriving pieces (.store [(0, 7)]) teamByte).sectorRefused r o teamByte = false ∧ r.farLoc = none) ∧
    (∃ r o, (arriving pieces (.store [(0, 7)]) (.host 64)).canArrive 0 = some (r, o, .host 64) ∧ o.readsSheaf r = false ∧
      (arriving pieces (.store [(0, 7)]) (.host 64)).sectorRefused r o (.host 64) = false) ∧
    (∃ r o, let k : OpKind := .shread 1 ((is 8).copyBlk 0)
      (arriving k (.read []) (.dpa 0)).canArrive 0 = some (r, o, .dpa 0) ∧ o.readsSheaf r = true) ∧
    ∃ r o, (arriving pieces (.prog 0 0 0 0) (.host 64)).canArrive 0 = some (r, o, .host 64) ∧ o.readsSheaf r = false ∧
      (arriving pieces (.prog 0 0 0 0) (.host 64)).sectorRefused r o (.host 64) = true :=
  ⟨⟨_, _, rfl, rfl, rfl, rfl⟩, ⟨_, _, rfl, rfl, rfl⟩, ⟨_, _, rfl, rfl⟩, ⟨_, _, rfl, rfl, rfl⟩⟩
theorem meets_EngineSteps_land : (∃ r o, let s := engState (opOf .gather (.gather 4 .i16 [(0, 0)]) true) (reqOf (.read [(0, 0), (1, 1)]) 0 (.answered [5, 6]))
      KMap.get s.reqs 0 = some r ∧ KMap.get s.ops r.op = some o ∧ r.stage = .answered [5, 6] ∧ r.gen = (s.func o.fn).gen ∧
      r.kind = .read [(0, 0), (1, 1)] ∧ Mem.wf o.buf = true ∧ o.kind = .gather 4 .i16 [(0, 0)]) ∧
    (∀ j ∈ ([8 * 63, 8 * 63 + 1] : List Nat), j / 8 = 63) ∧ (∀ j < elemBytes .i16, 8 * 63 + j ∈ [8 * 63, 8 * 63 + 1]) ∧
    (∃ i < elemBytes .i64, 8 * 63 + i ∉ [8 * 63 + 7]) ∧ ((st 8).group 0).isSome = true :=
  ⟨⟨_, _, rfl, rfl, rfl, by decide, rfl, rfl, rfl⟩, by decide⟩
theorem memOk_stored : (stored .queued 0x1000).MemOk := by unfold State.MemOk; decide +kernel
/-- A line that the owner has written: the last byte of the sector is stored. -/
def ownedLine : State := { stored .queued 0x1000 with tags := [(0x20, 65)] }
theorem meets_HomePerforms : (reqOf (.read [(31, 0)]) 0x1000 .queued).tag = none ∧
    (let s := ownedLine
     let r := reqOf (.store [(31, 7)]) 0x1000 .queued
     r.tag = none ∧ s.MemOk ∧ (∀ x ∈ s.allQueues, x.2.2.ductus = none) ∧ (∀ e ∈ [((31 : Nat), (7 : Byte))], s.inSheafRegion (0x1000 + e.1) = false) ∧
     s.lineTag (0x1000 / 128) = s.tagOf (devOf 0x1000) r.owner ∧ (∀ e ∈ [((31 : Nat), (7 : Byte))], (0x1000 + e.1) / 128 = 0x1000 / 128) ∧
     s.inSheafRegion 0x101F = false) ∧
    atomTy 7 .i64 = true ∧ isInt .i64 = true ∧ 2 ^ 64 - 1 < 2 ^ widthOf .i64 :=
  ⟨rfl, ⟨rfl, by unfold State.MemOk; decide +kernel, by decide +kernel, by decide +kernel, by decide +kernel, by decide +kernel,
    by decide +kernel⟩, by decide +kernel⟩

theorem meets_HomePerforms_elsewhere : Carries (reqOf (.write [(31, 5)]) 0 .queued) (opOf .copy pieces true) [(31, 0)] ∧
    (∀ i < 32, (st 8).freedAt ((Loc.place (.team 0 0) 0xFFFE0).plus i) = none) ∧ PlaceIn (st 8) (.team 0 0) ∧ 0xFFFE0 + 31 < placeSize (.team 0 0) :=
  ⟨.inr ⟨_, rfl, rfl⟩, by decide +kernel, rfl, by decide⟩

/-- A prediction of ductus 0 with a version of line 0; its launch is confirmed and over, or gone. -/
def tagged (k : ReqKind) (versions : List Version) : State :=
  { engState (opOf .gather pieces true) { reqOf k 0 .queued with tag := some (0, 1) } with versions := versions }
def oneVersion : List Version := [⟨0, 1, 0, 0, false, [(0, 7)]⟩]
def promotable : State :=
  { st 8 with
    launches := [(0, { placedLaunch with pred := some ⟨0, 1, true, false, false⟩, ready := true })], versions := oneVersion }
theorem meets_SpeculativeSteps : (st 8).hbmShut (5 * 128) = false ∧ (st 8).poisoned (5 * 128) = false ∧ 2 ^ 53 - 1 < prefBound ∧
    (∃ r o, (tagged (.read [(0, 0)]) []).canServe 0 = some (r, o, 0) ∧ r.tag ≠ none ∧ r.handle = 0 ∧ r.kind.writes = false) ∧
    (∃ r o, (tagged (.store [(0, 7)]) oneVersion).canServe 0 = some (r, o, 0) ∧ r.tag = some (0, 1) ∧ r.handle = 0 ∧ r.kind.writes = true ∧
      (tagged (.store [(0, 7)]) oneVersion).specRoom o.fn 0 1 (0 / 128) = true) ∧
    promotable.mayPromote 0 1 = true ∧ ({ st 8 with versions := oneVersion } : State).mayDiscard 0 1 = true :=
  ⟨by decide +kernel, by decide +kernel, by decide, ⟨_, _, rfl, by decide +kernel, rfl, rfl⟩, ⟨_, _, rfl, rfl, rfl, rfl, by decide +kernel⟩,
    by decide +kernel, by decide +kernel⟩

/-- An open entry of the sheaf table; its handle. -/
def sheaf : SheafEntry :=
  { open_ := true, closing := false, aborting := false, serial := 1, fn := 0, gen := 0, launch := 0, name := 5, manifest := [], man := 0x100000,
    broken := false, lines := [], writes := [], closer := none, sent := false, homes := [], late := [] }
def sheafState (e : SheafEntry) (r : Req) : State :=
  { engState (opOf .gather pieces true) r with shlo := 0x100000, shhi := 0x200000, shsh := 0x800000, sheaves := [(0, e)] }
def sheafReq : Req := { reqOf (.store [(127, 7)]) 0x100080 .queued with handle := 1 }
/-- Name 5 in a directory of 16 names at 0x10000, its manifest naming no member. -/
def directory : State :=
  { st 8 with
    funcs := [(0, { Func.reset 0 with sdsize := 4, sdbase := 0x10000 })], tags := [(0x10280 / 128, 65)], mem := [(0x10280, 5)] }
/-- An SHREAD in progress: a source line in no group; one whose manifest is to be listed; one whose manifest names no member. -/
def source : Seen := ⟨4, true, 1, 5, 0x100000, 1, [], none⟩
def shread (p : ShProg) : State :=
  let o := { opOf .copy (.shread 1 ((is 8).copyBlk 0)) true with sh := some p }
  let asks (a : Nat) (va : Option Nat) : Req := { reqOf (.read []) a .queued with va := va }
  { engState o (reqOf (.read []) 0 .done) with
    reqs := [(0, { reqOf (.read [(0, 0)]) 0x200 .queued with va := some 0x200 }), (1, asks 0x100000 none), (2, asks 0x200 (some 0x200))], nextReq := 3 }
theorem meets_SheafAndShreadSteps :
    (let s := sheafState sheaf sheafReq
     s.canServe 0 = some (sheafReq, opOf .gather pieces true, 0x100080) ∧ sheafReq.handle ≠ 0 ∧ s.sheafOf sheafReq.handle = some (0, sheaf) ∧
     s.inSheafRegion 0x100080 = true ∧ bitsOf (s.sidecar 0x100080 0) 31 0 = 0) ∧
    (let e := { sheaf with open_ := false, closing := true }
     KMap.get (sheafState e sheafReq).sheaves 0 = some e ∧ (sheafState e sheafReq).writesOver e = true ∧ (sheafState e sheafReq).closed = false ∧
      e.aborting = false ∧ e.sent = false ∧ e.broken = false) := by decide +kernel
theorem meets_SheafAndShreadSteps_seal :
    (let e := { sheaf with open_ := false, closing := true, sent := true, homes := [1] }
     let s := sheafState e sheafReq
     KMap.get s.sheaves 0 = some e ∧ 1 ∈ e.homes ∧ s.homeOf e.fn e.man ≠ 1 ∧
      s.homeShut 1 ((s.sealMembers e 1).map Prod.fst ++ if s.homeOf e.fn e.man = 1 then [e.man] else []) = false) ∧
    (let e := { sheaf with open_ := false, closing := true, aborting := true, sent := true, homes := [1] }
     let s := sheafState e sheafReq
     KMap.get s.sheaves 0 = some e ∧ s.abortEntry e = e ∧ s.writesOver e = true ∧ 1 ∈ e.homes ∧ s.homeShut 1 [e.man] = false) := by
  decide +kernel
theorem meets_SheafAndShreadSteps_free :
    ((st 8).func 0).sdsize = 0 ∧
    ((directory.func 0).sdsize ≠ 0 ∧ (directory.manifestOf 0 5).2.1 = 5 ∧ directory.nameBusy 0 5 = false ∧
      directory.inSheafRegion (directory.dirLine 0 5) = false ∧ directory.members 0 (directory.manifestOf 0 5).1 = []) := by decide +kernel
theorem meets_SheafAndShreadSteps_look : ∃ q r, let s := shread ⟨[], [], [], [], false, []⟩
    s.shReq 0 4 = some (q, r) ∧ (KMap.get s.ops 0).bind EngOp.sh = some ⟨[], [], [], [], false, []⟩ ∧ r.loc = some (.dpa 0x200) ∧
    s.hbmShut 0x200 = false ∧ s.linkOut 0x200 = false ∧ s.shRefused 0x200 = false := ⟨_, _, rfl, rfl, rfl, by decide +kernel⟩
theorem meets_SheafAndShreadSteps_list : (let p : ShProg := ⟨[source], [], [], [], false, []⟩
    ∃ o, let s := shread p
      KMap.get s.ops 0 = some o ∧ o.sh = some p ∧ s.shLooked 0 p = true ∧ s.shAsked 0 (0x2000 * 128) none = true ∧
      s.hbmShut (0x2000 * 128) = false ∧ s.linkOut (0x2000 * 128) = false ∧
      p.openGroups.find? (fun m => (s.shToList o.fn p m).contains 0x2000) = some 0x100000 ∧ s.shRefused (0x2000 * 128) = false ∧
      s.opTag o = none) := ⟨_, rfl, rfl, by decide +kernel⟩
/-- A group whose manifest was seen at version 1. -/
def fetching (l : List Seen) : ShProg := ⟨l ++ [⟨0x2000, false, 1, 1, 0x100000, 1, [], none⟩], [], [], [], false, []⟩
def second : Seen := { source with ver := 2 }
theorem meets_SheafAndShreadSteps_fetch : (let p := fetching [source]
    ∃ o q r, let s := shread p
      KMap.get s.ops 0 = some o ∧ s.shReq 0 4 = some (q, r) ∧ o.sh = some p ∧ r.loc = some (.dpa 0x200) ∧
      p.lines.find? (fun x => x.source && x.addr == 4 && x.name != 0) = some source ∧ source.man ∈ p.openGroups ∧
      s.shToList o.fn p source.man = [] ∧ s.shLooked 0 p = true ∧ source.got = none ∧
      s.shAsked 0 0x200 (some (4 * 128)) = true ∧ s.hbmShut 0x200 = false ∧ s.linkOut 0x200 = false ∧
      source.ver ≠ p.lowest source.man + 1) := ⟨_, _, _, rfl, rfl, rfl, rfl, by decide +kernel⟩
theorem meets_SheafAndShreadSteps_restart : (let p := fetching [second]
    ∃ o q r, let s := shread p
      KMap.get s.ops 0 = some o ∧ s.shReq 0 4 = some (q, r) ∧ o.sh = some p ∧ r.loc = some (.dpa 0x200) ∧
      p.lines.find? (fun x => x.source && x.addr == 4 && x.name != 0) = some second ∧ second.man ∈ p.openGroups ∧
      s.shToList o.fn p second.man = [] ∧ s.shLooked 0 p = true ∧ second.got = none ∧
      s.shAsked 0 0x200 (some (4 * 128)) = true ∧ s.hbmShut 0x200 = false ∧ s.linkOut 0x200 = false ∧
      second.ver = p.lowest second.man + 1 ∧ s.shRefused 0x200 = false ∧ bitsOf (s.sidecar 0x200 0) 63 32 ≠ second.ver) :=
  ⟨_, _, _, rfl, rfl, rfl, rfl, by decide +kernel⟩
/-- The line of the source is sealed at version 2, and its data are its owner's; what the comparison finds before and after it is fetched. -/
def sealed : State := { shread (fetching [second]) with shlo := 0, shhi := 0x200000, shsh := 0x800000, tags := [(4, 65)], mem := [(0x800304, 2), (0x800312, 4)] }
theorem meets_SheafAndShreadSteps_deliver : bitsOf (sealed.sidecar 0x200 0) 63 32 = 2 ∧ sealed.lineState 0x200 = 1 ∧
    sealed.lineTag (0x200 / 128) = sealed.tagOf (devOf 0x200) 1 ∧ sealed.shRefused 0x200 = false ∧
    (∃ x ∈ [second], x.source = true ∧ x.ver = (fetching [second]).lowest 0x100000 + 1 ∧ x.got = none) ∧
    (let p := fetching [{ second with got := some [9] }]
     let seen := p.lines.filter fun x => x.name != 0 && x.man == 0x100000
     (∀ x ∈ seen, x.ver ≤ p.lowest 0x100000 + 1) ∧
     ∀ x ∈ seen, x.source = true → x.ver = p.lowest 0x100000 + 1 → x.got ≠ none) ∧
    (∃ x ∈ [{ second with ver := 3 }], (fetching [{ second with ver := 3 }]).lowest 0x100000 + 1 < x.ver) := by decide +kernel

/-- A group whose gang is held. -/
def heldBy (h : Hold) (g : Group) : Group := { g with gangs := [{ gangOf 8 with hold := h }] }
def mlooped : EngOp := opOf .matrix (.mloop 0 16 { (is 8).matBlk 0 with steps := 1 } (is 8).mode false 0 [] []) true
def mzeroed : EngOp := opOf .matrix (.mzero 16 8 0) true
theorem meets_GroupSteps :
    (∃ g, (engState mlooped (reqOf (.read []) 0 .done)).unitOp 0 = some (0, mlooped, 0, g) ∧
      mlooped.kind = .mloop 0 16 { (is 8).matBlk 0 with steps := 1 } (is 8).mode false 0 [] []) ∧
    (∃ g, (engState mzeroed (reqOf (.read []) 0 .done)).unitOp 0 = some (0, mzeroed, 0, g) ∧ mzeroed.kind = .mzero 16 8 0) ∧
    (∃ i, let s := st 8 (heldBy (.regget (.sca 1) 1))
      s.reggetWaiters 0 = [(0, 0, .sca 1, 1)] ∧ blockCount 1 ≤ s.blocksFree (0 / 8) (0 % 8) ∧ s.issuerAt 0 0 = some i) ∧
    (let g := heldBy (.reord 1 []) (groupOf 8)
     let s := st 8 (heldBy (.reord 1 []))
     s.group 0 = some g ∧ s.reordParties g = [(0, g)] ∧ g.reordHold = some (1, []) ∧ s.reordQuiet 0 g = true ∧ g.presence = .here) ∧
    (let s := st 8 (heldBy (.park (.counter .copy 0) 0x2000))
     let k : Gang := { gangOf 8 with hold := .park (.counter .copy 0) 0x2000 }
     (heldBy (.park (.counter .copy 0) 0x2000) (groupOf 8)).gang 0 = some k ∧ k.hold = .park (.counter .copy 0) 0x2000 ∧ s.counter 0 .copy ≤ 0) ∧
    (let f (g : Group) : Group := { g with quill := true, ended := true, gangs := [] }
     (st 8 f).group 0 = some (f (groupOf 8)) ∧ (∀ e ∈ (st 8 f).retiring 0 (f (groupOf 8)), (st 8 f).mayRetire e.1 e.2 = true)) :=
  ⟨⟨_, rfl, rfl⟩, ⟨_, rfl, rfl⟩, ⟨_, by decide +kernel, by decide +kernel, rfl⟩, by decide +kernel, ⟨rfl, rfl, by decide +kernel⟩, by decide +kernel⟩

/-- The boundary of R109 and R112: 600 cc before a slot, and the clock at which it starts. -/
def atClock (c : Nat) (x : Slot) : State := { st 8 with caln := c, slots := [x] }
theorem meets_CalendarSteps : (let n := nextSlot 10000
     n.2 ≤ n.2 - 600 + 600 ∧ (nextSlot (n.2 - 600)).2 ≤ n.2 - 600 + 600 ∧ nextSlot (n.2 - 600) ≠ (.calibration, n.2)) ∧
    (let x : Slot := ⟨.refresh, 7000, 7000 + Config.slotLength .refresh, none, false⟩
     (atClock 7000 x).slots = [x] ∧ x.on = false ∧ x.start ≤ (atClock 7000 x).caln ∧
     (∀ e ∈ (atClock 7000 x).reqs, (atClock 7000 x).inFlight e.2 = false) ∧
     ∀ e ∈ (atClock 7000 x).sheaves, (atClock 7000 x).untaken e.2 = [] ∧ e.2.late = []) ∧
    (let x : Slot := ⟨.refresh, 7000, 7000 + Config.slotLength .refresh, none, true⟩
     x.on = true ∧ x.stop ≤ (atClock x.stop x).caln ∧ x.ext = none) ∧
    (let x : Slot := ⟨.refresh, 7000, 7000 + Config.slotLength .refresh + 5, some 3, true⟩
     x.on = true ∧ x.stop ≤ (atClock x.stop x).caln ∧ x.ext = some 3 ∧ x.kind = .refresh) ∧
    (let s := { st 8 with caln := 100, cores := [(3, { CoreReg.reset with cool := some 100 })] }
     (s.coreReg 3).cool = some 100 ∧ 100 ≤ s.caln) := by decide +kernel
theorem meets_BudgetAndAdmissionSteps :
    (let s := { st 8 with slices := [(0, ⟨0, 0, 5, 0, none⟩)] }
     KMap.get s.slices 0 = some ⟨0, 0, 5, 0, none⟩ ∧ (⟨0, 0, 5, 0, none⟩ : Slice).budget ≠ 0 ∧ (⟨0, 0, 5, 0, none⟩ : Slice).left = 0) ∧
    (let f (g : Group) : Group := { g with budgetDue := true }
     (f (groupOf 8)).gang 0 = some (gangOf 8) ∧ (f (groupOf 8)).budgetReady (gangOf 8) = true ∧ (st 8 f).speculative (f (groupOf 8)) = false) ∧
    (let s := (st 8).modCluster 1 fun c => { c with idle := 64 }
     64 ≤ (s.cluster 1).idle ∧ (s.cluster 1).gated = false ∧ s.clusterSteps 1 = false) ∧
    (let s := (st 8).modCluster 1 fun c => { c with gated := true, wanted := true }
     s.resumeNext = some 1 ∧ s.window = s.caln / 16 ∧ s.admitted < 8 ∧ 8 ≤ ({ s with admitted := 8 } : State).admitted) ∧
    (∃ l r ps, let s := { State.reset with
        launches := [(0, { placedLaunch with next := 0 })], funcs := [(0, { Func.reset 0 with ctxBase := 0x10000, ctxSize := 0x10000 })] }
      s.hotInlet = false ∧ s.islands.contains 0 = true ∧ s.readyQueue (s.islandPart 0) = (0, l) :: r ∧ s.claim 0 l = ps ∧ ps ≠ [] ∧
        ∀ e ∈ r, s.passCount 0 e.1 < 16) ∧
    (let s := { State.reset with launches := [(0, { placedLaunch with next := 0 })] }
     (∃ l, s.readyQueue (s.islandPart 0) = [(0, l)]) ∧ (s.func 0).ctxSize < 65536) ∧
    ({ st 8 with hotInlet := true } : State).hotInlet = true :=
  ⟨by decide +kernel, by decide +kernel, by decide +kernel, by decide +kernel, ⟨_, _, _, rfl, rfl, rfl, rfl, by decide +kernel⟩, ⟨⟨_, rfl⟩, by decide⟩, rfl⟩

/-- A fault queue of 64 records, with one place left and with none. -/
def faulting (head : Nat) : State :=
  { st 8 with funcs := [(0, { Func.reset 0 with fqEn := true, fqHead := head, fqTail := 63 })], faults := [(0, heldFault)] }
theorem meets_FaultAndInvalidationSteps :
    ((faulting 0).unrecorded 0 = some (0, heldFault) ∧ ((faulting 0).func 0).fqEn = true ∧
      (((faulting 0).func 0).fqTail + 1) % 2 ^ ((faulting 0).func 0).fqSize = ((faulting 0).func 0).fqHead % 2 ^ ((faulting 0).func 0).fqSize ∧
      (((faulting 1).func 0).fqTail + 1) % 2 ^ ((faulting 1).func 0).fqSize ≠ ((faulting 1).func 0).fqHead % 2 ^ ((faulting 1).func 0).fqSize) ∧
    (∀ e ∈ (faulting 0).faults, e.2.fn = 0 → e.2.seq ≠ some 3) ∧
    (let e := { heldFault with seq := some 3 }
     ({ faulting 0 with faults := [(0, e)] } : State).faults = (0, e) :: [] ∧ e.fn = 0 ∧ e.seq = some 3) ∧
    ((st 8).func 0).invBusy = false ∧ ((st 8).modFunc 0 fun f => { f with invBusy := true }).invDone 0 = true ∧
    ((st 8).func 0).aptBusy = false ∧ (((st 8).modFunc 0 fun f => { f with aptBusy := true }).func 0).aptBusy = true ∧
    (let s := State.reset.modFunc 0 fun f => { f with saved := ⟨true, true⟩ }
     (s.func 0).saved.auto = true ∧ (s.func 0).ctxGo = false ∧ s.rdy 0 = true ∧ s.returnFits 0 = true ∧ s.leavers 0 = []) := by decide +kernel

/-! ### Commands, contexts and the package -/

theorem ok_of {ε α : Type} {x : Except ε α} (h : x.toOption.isSome = true) : ∃ r, x = .ok r := by
  cases x with
  | ok r => exact ⟨r, rfl⟩
  | error e => cases h

/-- Commands by their words 0 to 4: a LAUNCH of one team with its record at 0x1100, COPY, SIGNAL, WAIT, DUCTUS-READ. -/
def cmd (l : List DWord) : Cmd := l ++ List.replicate (16 - l.length) 0
def launchCmd : Cmd := cmd [1, 0, 0x11, 0x0000080000400001]
def copyCmd : Cmd := cmd [2, 0, 0x1000, 0x1080, 0, 0, 0, 1]
def signalCmd : Cmd := cmd [3, 0, 0x1008, 5, 1]
def waitCmd : Cmd := cmd [4, 0, 0x1008, 5, 1]
def readCmd : Cmd := cmd [5, 0, 0x1100]
/-- Function 0 with a translated page at 0x1000 that a launch record stands in at 0x1100 (one role, one group, 24 blocks), and queue 0. -/
def frontEnd (y : Queue) : State :=
  { State.reset with
    funcs := [(0, { Func.reset 0 with ttbase := 1, queues := [(0, y)] })]
    tlb := [⟨192, 0, 1, 12, 0x100D⟩], tags := [(0x22, 65), (0x23, 65)], mem := [(0x1101, 0x10), (0x1120, 0x01), (0x1121, 0x0C)] }
def headed (c : Cmd) : Queue := { Queue.reset with en := true, arrived := [c], compared := true }
def waiting (timeout : Nat) : Queue := { Queue.reset with wait := some ⟨false, 0x1008, 0, 0, timeout, 0⟩ }
theorem meets_CommandSteps_launch : ((frontEnd (headed launchCmd)).queue 0 0).head = some launchCmd ∧ Cmd.kind launchCmd = 1 ∧
    (frontEnd (headed launchCmd)).queueLaunches 0 0 = [] ∧ Cmd.bad launchCmd ((frontEnd (headed launchCmd)).func 0) = none ∧
    ∃ r, (frontEnd (headed launchCmd)).readRecord none 0 (Cmd.recordAt launchCmd ((frontEnd (headed launchCmd)).func 0)) (Cmd.tgrp launchCmd)
      (Cmd.teams launchCmd) = .ok r :=
  ⟨by decide +kernel, by decide +kernel, by decide +kernel, by decide +kernel, ok_of (by decide +kernel)⟩
theorem meets_CommandSteps : ((st 8).queue 0 0).ductus = none ∧
    (let s := (frontEnd { Queue.reset with en := true, qtail := 1, qbase := 0xFFFFFFFFF000 })
     (s.queue 0 0).en = true ∧ s.enabled = true ∧
      (s.queue 0 0).qhead % 2 ^ (s.queue 0 0).size ≠ (s.queue 0 0).qtail % 2 ^ (s.queue 0 0).size ∧
      s.ringOk 0 (bitsOf (s.queue 0 0).qbase.toNat 47 7 * 128 + 128 * (s.queue 0 0).qhead) = true) ∧
    (frontEnd Queue.reset).ringOk 0 (2 ^ 42) = false ∧
    (∀ c ∈ [copyCmd, signalCmd, waitCmd, readCmd], ((frontEnd (headed c)).queue 0 0).head = some c ∧
      Cmd.bad c ((frontEnd (headed c)).func 0) = none) ∧
    Cmd.kind copyCmd = 2 ∧ Cmd.kind signalCmd = 3 ∧ Cmd.kind waitCmd = 4 ∧ Cmd.kind readCmd = 5 ∧
    KMap.get (frontEnd (headed copyCmd)).ops (frontEnd (headed copyCmd)).nextOp = none ∧
    (let s := frontEnd (headed signalCmd)
     s.translate 0 (Cmd.w signalCmd 2) 2 = .ok 0x1008 ∧ s.locOf 0 0x1008 = .dpa 0x1008 ∧ s.readRefused 0 (.dpa 0x1008) = false ∧
      s.locShut (.dpa 0x1008) = false ∧ s.closed = false) ∧
    (let s := frontEnd (waiting 0)
     let w : WaitSt := ⟨false, 0x1008, 0, 0, 0, 0⟩
     (s.queue 0 0).wait = some w ∧ s.translate 0 w.addr.toNat 0 = .ok 0x1008 ∧ s.locShut (.dpa 0x1008) = false ∧
      w.holds (leVal (s.peek (s.func 0).owner (.dpa 0x1008) 8)) = true) ∧
    (let s := { frontEnd (waiting 1) with caln := 1000 }
     (s.queue 0 0).wait = some ⟨false, 0x1008, 0, 0, 1, 0⟩ ∧ 0 + 1000 * 1 ≤ s.caln ∧ (frontEnd (waiting 1)).caln < 0 + 1000 * 1) := by decide +kernel
theorem meets_CommandSteps_ends :
    (let s := frontEnd { headed readCmd with compared := false }
     (s.queue 0 0).arrived.getLast? = some readCmd ∧ (s.queue 0 0).compared = false ∧ s.translate 0 (Cmd.w readCmd 2) 1 = .ok 0x1100 ∧
      s.locRefused 0 (s.locOf 0 0x1100) = false) ∧
    (∀ x, ((frontEnd Queue.reset).queue 0 0).ductus = some x → x.rules.length = 12) ∧
    (let y := { Queue.reset with current := some signalCmd, outcome := some (0, 0, 0) }
     let s := frontEnd y
     (s.queue 0 0).records = [] ∧ (s.queue 0 0).current = some signalCmd ∧ (s.queue 0 0).launchId = none ∧
      s.commandDone (s.queue 0 0) = some (0, 0, 0)) ∧
    (let c := cmd [3, 0x1110, 0x1008, 5, 1]
     Cmd.w c 1 ≠ 0 ∧ misaligned (Cmd.word c 1) 16 = false ∧ (frontEnd Queue.reset).translate 0 (Cmd.w c 1) 1 = .ok 0x1110) ∧
    (let x : Launch := { placedLaunch with job := .task 0 7, ready := true, status := some (2, 0, 0) }
     let s := { State.reset with launches := [(0, x)] }
     KMap.get s.launches 0 = some x ∧ x.job = .task 0 7 ∧ s.launchOver 0 x = true ∧ x.status = some (2, 0, 0)) := by
  refine ⟨by decide +kernel, fun x h => ?_, by decide +kernel, by decide +kernel, by decide +kernel⟩
  cases h

/-- The last group of task 7 is over: its entry is done, or runs on to tasks 3 and 3, of which the counter admits one slot or two. -/
def tasked (st : TaskSt) (ctr : Nat) (status : Option (Nat × Nat × Nat)) : State :=
  ({ State.reset with launches := [(0, { placedLaunch with job := .task 0 7, ready := true, status := status })] }.modTask 0 7 fun e =>
    { e with st := st, succ := [3, 3] }).modTask 0 3 fun e => { e with st := .waiting, ctr := ctr }
theorem meets_CommandSteps_tasks : (∀ s ∈ [tasked .running 3 none, tasked .running 1 (some (0, 4, 0)), tasked .done 3 none,
      tasked .done 3 (some (2, 0, 0)), tasked .running 3 (some (2, 0, 0))],
      (match KMap.get s.launches 0 with | some x => x.job == .task 0 7 && s.launchOver 0 x && x.use == ((s.func 0).task 7).use | none => false) = true) ∧
    (∀ m ∈ [3, 3], (([3, 3] : List Nat).filter (· == m)).length ≤ (((tasked .running 3 none).func 0).task m).ctr) ∧ 7 ∉ ([3, 3] : List Nat) ∧
    (∃ m ∈ [3, 3], (((tasked .running 1 none).func 0).task m).ctr < (([3, 3] : List Nat).filter (· == m)).length) ∧
    (((tasked .done 3 none).func 0).task 7).st ≠ .running := by decide +kernel

/-- A ductus of LAUNCH commands without arguments, at its launch 3. -/
def ductus : Ductus := ⟨0, launchCmd, List.replicate 12 .unused, 3, 3, 0, [], 0, true⟩
def predictedAt (p : Pred) (ready : Bool) : Launch := { placedLaunch with pred := some p, ready := ready }
def ducted (y : Queue) (l : KMap Launch) : State := { frontEnd { y with ductus := some ductus } with launches := l, nextDuc := 1 }
theorem meets_PredictionSteps :
    (let s := frontEnd { headed launchCmd with compared := false, run := [launchCmd, launchCmd] }
     (s.queue 0 0).arrived.getLast? = some launchCmd ∧ (s.queue 0 0).compared = false ∧ (s.queue 0 0).ductus = none ∧ (s.queue 0 0).inf = true ∧
      rulesOf (extendRun (s.queue 0 0).run launchCmd) = some (List.replicate 12 .unused)) ∧
    rulesOf (extendRun [launchCmd] launchCmd) = none ∧
    (let s := ducted { headed launchCmd with compared := false } [(0, predictedAt ⟨0, 3, false, false, false⟩ false)]
     (s.queue 0 0).arrived.getLast? = some launchCmd ∧ (s.queue 0 0).ductus = some ductus ∧ s.openPreds 0 = [(0, 3)] ∧
      ductus.matches 3 (s.func 0) launchCmd = true) ∧
    (let l := predictedAt ⟨0, 3, true, false, false⟩ true
     let s := ducted Queue.reset [(0, l)]
     s.queueLaunches 0 0 = [(0, l)] ∧ s.launchQuiet 0 l = true ∧ s.mayPromote 0 3 = true) ∧
    (let p : Pred := ⟨0, 1, true, false, false⟩
     let s := { st 8 (heldBy (.stall 5)) with launches := [(0, predictedAt p false)] }
     KMap.get s.launches 0 = some (predictedAt p false) ∧ s.mayCut 0 p = true) ∧
    (let p : Pred := ⟨0, 1, true, true, false⟩
     let s := { st 8 (heldBy (.stall 5)) with launches := [(0, predictedAt p false)] }
     p.cutting = true ∧ s.mayPromote 0 1 = true) := by decide +kernel
theorem meets_PredictionSteps_start : (let y := { Queue.reset with en := true, compared := true, ductus := some ductus }
    let s := frontEnd y
    let c := ductus.command ductus.nextK
    s.queue 0 0 = y ∧ y.ductus = some ductus ∧ s.mayPredict 0 0 y ductus = true ∧ Cmd.bad c (s.func 0) = none ∧
    s.translate 0 (Cmd.recordAt c (s.func 0)).toNat 0 = .ok 0x1100 ∧ (s.locOf 0 0x1100).watchKey s.devnum = some 1 ∧
    s.watchRoom ductus.d [1] = true ∧ ∃ r, s.readRecord (some (ductus.d, ductus.nextK)) 0 (Cmd.recordAt c (s.func 0)) (Cmd.tgrp c) (Cmd.teams c) = .ok r) :=
  ⟨by decide +kernel, rfl, by decide +kernel, by decide +kernel, by decide +kernel, by decide +kernel, by decide +kernel, ok_of (by decide +kernel)⟩
/-- A run with one argument that counts in threes. -/
def counted (n : DWord) : Cmd := cmd [0x101, 0, 0x11, 0x0000080000400001, n]
theorem meets_RulesGiveBackTheRun : (let run := [counted 1, counted 4, counted 7]
    ∃ rs, rulesOf run = some rs ∧ run[2]? = some (counted 7) ∧ (∀ x ∈ run, Cmd.argc x = Cmd.argc (counted 7)) ∧ 0 < Cmd.argc (counted 7)) :=
  ⟨_, rfl, rfl, by decide +kernel, by decide +kernel⟩

theorem meets_ContextSteps : ((st 8).func 0).ctxGo = false ∧
    (let s := (st 8).modFunc 0 fun f => { f with ctxGo := true, ctxOp := 1 }
     (s.func 0).ctxGo = true ∧ (s.func 0).ctxOp = 1 ∧ (s.leavers 0).all s.drained = true) ∧
    (let x := { groupOf 8 with presence := .leaving }
     let s := { (st 8 fun g => { g with presence := .leaving }).modFunc 0 fun f => { f with ctxGo := true, ctxOp := 1 } with images := [(0, ⟨0x10000, [], []⟩)] }
     (s.func 0).ctxGo = true ∧ (s.func 0).ctxOp = 1 ∧ (s.leavers 0).all s.drained = true ∧ s.leavers 0 = [(0, x)] ∧
       KMap.get s.groups 0 = some x ∧ KMap.get s.images 0 = some ⟨0x10000, [], []⟩) ∧
    (st 8).rdy 0 = false ∧
    (let s := State.reset.modFunc 0 fun f => { f with saved := ⟨true, false⟩ }
     (s.func 0).ctxGo = false ∧ s.rdy 0 = true ∧ s.returnFits 0 = true ∧ s.leavers 0 = []) := by decide +kernel
/-- A reply is due for entry 0, its group parked off-core. -/
def served : State :=
  st 8 (heldBy (.offCore 0 (.vec 0))) |>.modFunc 0 fun f => { f with services := [(0, ⟨0, 0, 0, 1, .vec 0, 0, false⟩)], srSize := 6 }
theorem meets_ServiceAndResetSteps :
    (let g := heldBy (.service (.vec 0) 5) (groupOf 8)
     let s := (st 8 (heldBy (.service (.vec 0) 5))).modFunc 0 fun f => { f with srSize := 6 }
     s.group 0 = some g ∧ g.caller = some ({ gangOf 8 with hold := .service (.vec 0) 5 }, .vec 0, 5) ∧ g.presence = .here ∧
     ((s.func 0).srTail + 1) % 2 ^ (s.func 0).srSize ≠ (s.func 0).srHead % 2 ^ (s.func 0).srSize ∧
     (((st 8).func 0).srTail + 1) % 2 ^ ((st 8).func 0).srSize = ((st 8).func 0).srHead % 2 ^ ((st 8).func 0).srSize) ∧
    KMap.get ((st 8).func 0).services 0 = none ∧
    (KMap.get (served.func 0).services 0 = some ⟨0, 0, 0, 1, .vec 0, 0, false⟩ ∧ (served.group 0).isSome = true) ∧
    (let s := (st 8).modFunc 0 fun f => { f with resetting := some 5 }
     (s.func 0).resetting = some 5 ∧ (∀ e ∈ s.reqs, e.2.abroad = false)) := by decide +kernel

theorem meets_ClassAndCollectiveSteps : ((st 8).cluster 3).chg = false ∧
    (let s := (st 8).modCluster 0 fun c => { c with chg := true, cls := 1 }
     (s.cluster 0).chg = true ∧ (s.cluster 0).moved = false ∧ ∃ e ∈ s.groups, e.2.core / 4 = 0 ∧ e.2.presence ≠ .away) ∧
    (let s := (st 8).modCluster 3 fun c => { c with chg := true, cls := 1 }
     ∀ e ∈ s.groups, e.2.core / 4 ≠ 3) ∧
    (((st 8).modCluster 3 fun c => { c with chg := true, moved := true }).cluster 3).moved = true ∧
    ({ st 8 with caln := 1000001, landWait := [(0, 2, 1, some 0)] } : State).stalledSectors 2 1 = true ∧
    KMap.get ({ st 8 with collectives := [(2, ⟨[(0, 1)], []⟩)] } : State).collectives 2 = some ⟨[(0, 1)], []⟩ ∧
    KMap.get (st 8).collectives 2 = none := by decide +kernel
theorem meets_KeyStartAndMeasureSteps :
    ((∀ e ∈ State.reset.keys, e.2.owner = some 1 → e.2.retired = true) ∧ (State.reset.keySlot 0).free = true ∧ ∀ j < 0, (State.reset.keySlot j).free = false) ∧
    (let s := { State.reset with keys := (List.range 63).map fun k => (k, { KeySlot.reset with owner := some 9 }) }
     ∀ k < 63, (s.keySlot k).free = false) ∧
    (let s := { State.reset with keys := [(62, ⟨some 1, false, []⟩)], tags := [(8, 62)] }
     (s.keySlot 62).owner = some 1 ∧ (s.keySlot 62).retired = false ∧ (8, 62) ∈ s.tags ∧ (s.keySlot (s.lineTag 8)).retired = false) ∧
    (let s := { State.reset with keys := [(62, ⟨none, true, []⟩)], tags := [(8, 62)] }
     (s.keySlot (s.lineTag 8)).retired = true ∧ isSecondTier (localOf (8 * 128)) = false) ∧
    (let s := { State.reset with bootDone := 0 }
     s.bootDone = 0 ∧ s.bootFail = 0 ∧ s.bootAlt = 0) := by decide +kernel
theorem meets_KeyStartAndMeasureSteps_quote : (let s := { State.reset with meas := (List.range 8).map fun i => (i, List.replicate 64 0) }
    ∀ i < 8, (s.measure i).length = 64) := by decide +kernel
theorem meets_KeyStartAndMeasureSteps_scrub : ({ State.reset with keys := [(62, ⟨none, true, []⟩)], tags := [(8, 62)] } : State).MemOk := by
  unfold State.MemOk
  decide
theorem meets_LinkSteps : State.reset.enabled = true ∧ State.reset.hbmTop 0 < 0 + 2 ^ 40 ∧ 0 + 1 ≤ State.reset.hbmTop 0 ∧
    State.reset.hbmShut 0 = false ∧ (State.reset.port 35).up = true ∧
    (let s := { State.reset with ports := [(2, { Port.reset with paused := some 0 })] }
     (s.port 2).up = true ∧ (s.port 2).paused = some 0 ∧ s.caln < 0 + 1000000 ∧ 0 + 1000000 ≤ ({ s with caln := 1000000 } : State).caln) ∧
    (let s := { State.reset with ports := [(2, { Port.reset with told := some 5 })] }
     (s.port 2).up = true ∧ (s.port 2).paused.toList ++ (s.port 2).told.toList = [5] ∧ s.caln < 5 + 1000000) ∧
    State.reset.hotInlet = false ∧ ({ State.reset with hotInlet := true } : State).hotInlet = true := by decide +kernel
theorem meets_RegisterSteps : (2 : Nat) ^ 64 - 1 < 2 ^ 64 ∧ (∀ f < 16, State.reset.fnGone f = true) ∧
    (let s := { State.reset with partitions := [(2, 1), (3, 1)] }
     (∀ f < 16, s.fnGone f = true) ∧ ({ s with partitions := KMap.put s.partitions 3 2 } : State).partsOk = true) ∧
    (st 8).fnGone 0 = false ∧ (st 8).fnPart 0 = (st 8).islandPart 3 ∧ (st 8).islandPart 3 ≠ [1].getD 0 0 % 4 ∧ [3].Nodup := by decide +kernel
theorem meets_MemoryStaysCanonical : (st 8).MemOk ∧ ∃ t, step (st 8) = .next t := ⟨by unfold State.MemOk; decide, _, rfl⟩
/-- A gang whose clause holds EXIT. -/
def exiting (g : Group) : Group := { g with gangs := [{ gangOf 8 with clause := some { clauseOf 8 with words := [0x45000000] } }] }
theorem meets_StepRunsDecoded : ∃ k, (st 8 exiting).issuer = some k ∧ k.gang.hold = .none ∧ k.g.budgetReady k.gang = false ∧
    decode (k.cl.words.drop k.cl.next) = .ok (.exit 0, []) := ⟨_, rfl, rfl, by decide +kernel, by decide +kernel⟩
theorem meets_DecodeEncode : Instr.wf (.bfx (.vec 191) (.vec 0) (.lit 0xFFFFFFFF)) = true ∧ Instr.wf (.parkBarrier 0 0 3) = true := by decide +kernel

/-! ### The further clauses of some statements -/

/-- A nib of the gang with `n` X entries, the top one for the clause at 0x1000. -/
def stacked (n : Nat) (g : Group) : Group :=
  { g with nibs := g.nibs.map fun x => { x with stack := List.replicate n ⟨.x, 9, 0x1000, 0, 0⟩ }, p := [(0, 1)] }
theorem meets_BranchResults_deep : (groupOf 8).numbers.length < 65536 ∧
    (let k := is 0 (stacked 15)
     (∃ n ∈ k.gang.nibs, k.taken n ≠ 0) ∧ (∃ n ∈ k.gang.nibs, k.falling n ≠ 0) ∧
     (k.gang.nibs.any fun n => decide (16 < (k.g.nib n).stack.length + if k.taken n ≠ 0 ∧ k.falling n ≠ 0 then 2 else 1)) = true) := by
  decide +kernel
def lastOne : State := { st 8 with ops := [(0, copyOp)], nextOp := 1 }
theorem meets_JoinExitAndTrapResults_waits : (∃ n ∈ (is 8 (stacked 1)).gang.eachNib, ((is 8 (stacked 1)).g.nib n).join (is 8).cl.addr ≠
      ((is 8 (stacked 1)).g.nib n, .goesOn)) ∧ (is 8).lastExit = true ∧
    (lastOne.opsAll 0 ≠ [] ∧ ∀ o ∈ lastOne.opsAll 0, lastOne.isHeld o = false) ∧
    (∃ o ∈ lastOne.opsAll 0, ({ lastOne with faults := [(0, heldFault)] } : State).isHeld o = true) ∧
    ((st 8).opsAll 0 = [] ∧ { groupOf 8 with failed := [⟨0, .copy, 1, 5, 0, 0, 0x1000⟩] }.failed = ⟨0, .copy, 1, 5, 0, 0, 0x1000⟩ :: []) := by
  decide +kernel
theorem meets_ReductionAndReordResults_integer : isInt .i32 = true ∧ ([7] : List Nat) ≠ [] := by decide
theorem meets_BarrierAndParkResults_parts : (∃ g x, (st 8).group (is 8).gid = some g ∧ g.gang (is 8).gang.id = some x) ∧
    (let b := ((st 8).setBar (.gb 0 0) ⟨0, 0, 4, 0, 0⟩).bar (.gb 0 0)
     b.e = 0 ∧ b.c ≠ 0 ∧ b.c + (-4) = 0) ∧ 2147483647 < (2147483647 : Int) + ((1 : Nat) : Int) := ⟨⟨_, _, rfl, rfl⟩, by decide, by decide⟩
theorem meets_TaskAndSignalResults_flush : (let g := { groupOf 8 with hostWrites := [(0, .copy)] }
    g.hostWrites ≠ [] ∧ (st 8).flushing 0 = false) := by decide
theorem meets_EngineSteps_start : (∃ p s1, let s := engState (opOf .gather pieces false) (reqOf (.store []) 0 .done)
      s.addPlan 0 (opOf .gather pieces false) none p = some s1) ∧
    (let s := stored .created 0
     ∀ p ∈ s.reqPorts (reqOf (.store [(0, 7)]) (2 ^ 48) .created), (s.port p).paused = none) ∧
    (opOf .gather pieces true).dev = (stored .fabric 0).devnum ∧ (stored .fabric (2 ^ 48)).linkShut (2 ^ 48) = false :=
  ⟨⟨⟨.read [], none, some (.place (.team 0 0) 0), false, 0, 0, none, none⟩, _, rfl⟩, by decide +kernel⟩
theorem meets_SpeculativeSteps_held : ({ st 8 with slots := [⟨.refresh, 0, 10, none, true⟩] } : State).hbmShut 128 = true ∧
    (let s := tagged (.store [(0, 7)]) oneVersion
     s.reqRoom (reqOf (.store [(0, 7)]) 0 .queued) (opOf .gather pieces true) 0 1 0 = true) := by decide +kernel
/-- Group 0 with an image, its lines absent; line 16 holds s0 to s15. -/
def imaged (back : List Nat) : State := { st 8 with images := [(0, ⟨0x10000, [], back⟩)] }
theorem meets_GroupSteps_fragment : (st 8).fragAbsent 0 (groupOf 8) 16 8 = [] ∧
    (imaged []).fragAbsent 0 (groupOf 8) 16 8 = (List.range 16).map fun n => 64 + n := by decide +kernel
theorem meets_GroupSteps_fill : (groupOf 8).hasLine 16 = true ∧ (imaged []).lineHere 0 (groupOf 8) 16 = false ∧
    (imaged []).hbmShut ((imaged []).lineAt (groupOf 8) ⟨0x10000, [], []⟩ 16) = false ∧
    ((imaged []).unitLines (groupOf 8).cacheUnit).length < Config.registerLines ∧ 16 ∉ ([] : List Nat) ∧ 16 ∈ ([16] : List Nat) ∧
    (let s := { imaged [] with slots := [⟨.refresh, 0, 10, none, true⟩] }
     s.hbmShut (s.lineAt (groupOf 8) ⟨0x10000, [], []⟩ 16) = true) ∧
    KMap.get (st 8).images 0 = none ∧ (groupOf 8).quill = false ∧ (groupOf 8).presence = .here := by decide +kernel
theorem meets_GroupSteps_park : (∃ k, (heldBy (.park .ready 0x2000) (groupOf 8)).gang 0 = some k ∧ k.hold = .park .ready 0x2000) ∧
    (∃ k, (heldBy (.park (.met 0x10) 0x2000) (groupOf 8)).gang 0 = some k ∧ k.hold = .park (.met 0x10) 0x2000) ∧
    barCode 0x10 = some (.tb 0) := ⟨⟨_, rfl, rfl⟩, ⟨_, rfl, rfl⟩, by decide⟩
/-- Two queued launches: function 0's context region holds a team of the second alone, which was passed over 16 times. -/
theorem meets_BudgetAndAdmissionSteps_starved : (let l : Launch := { placedLaunch with next := 0 }
    let s := { State.reset with
      launches := [(0, { l with fn := 1 }), (1, l)], funcs := [(0, { Func.reset 0 with ctxBase := 0x10000, ctxSize := 0x10000 })]
      passed := [(0, 1, 16)] }
    s.readyQueue (s.islandPart 0) = [(0, { l with fn := 1 }), (1, l)] ∧ s.passCount 0 0 < 16 ∧ 16 ≤ s.passCount 0 1 ∧
    s.fitsIdle 0 l = true) := by decide +kernel
theorem meets_FaultAndInvalidationSteps_behind : (let s := { st 8 with heldSteps := [⟨.deviceMemoryWindowAccess 0 0 4 .read, 0, []⟩] }
    s.behindWindow = true) ∧ (st 8).behindWindow = false ∧ (st 8).enabled = true := by decide
theorem meets_CommandSteps_more : (let s := (frontEnd { Queue.reset with en := true, qtail := 1 })
     (s.queue 0 0).starts = false ∧ s.behindWindow = false ∧ (s.queue 0 0).arrived = [] ∧ s.fetchFails 0 0 = false ∧
      s.locShut (s.localLocOf 0 0) = false) ∧
    ((frontEnd Queue.reset).fetchFails 0 (2 ^ 42) = true ∧ (Queue.reset).ductus = none) ∧
    ({ State.reset with bootFail := 1 } : State).enabled = false ∧
    (frontEnd Queue.reset).virtShut 0 0x1110 1 16 = false ∧
    (let s := frontEnd (headed launchCmd)
     s.virtShut 0 (Cmd.recordAt launchCmd (s.func 0)).toNat 0 256 = false ∧ ∀ x ∈ (Loc.dpa 0x1100).span 256, s.locShut x = false) ∧
    (⟨true, 0x1008, 0, 0, 0, 0⟩ : WaitSt).hit = true := by decide +kernel
theorem meets_PredictionSteps_order : (let y := { Queue.reset with en := true, compared := true, ductus := some ductus }
    (frontEnd y).enabled = true ∧ (frontEnd y).inSlotNow = false ∧ Cmd.kind launchCmd ≠ 5 ∧ Cmd.kind readCmd = 5 ∧ y.pending = false ∧ { y with starts := true }.starts = true) := by decide +kernel
theorem meets_ContextSteps_quiet : ∀ q ∈ (st 8).allQueues, q.2.2.ductus = none := by decide
theorem meets_ServiceAndResetSteps_reply : (∃ g, (served.func 0).services = [(0, ⟨0, 0, 0, 1, .vec 0, 0, false⟩)] ∧
    served.group 0 = some g ∧ g.presence = .here ∧ g.partner = none ∧
    ∀ tm, KMap.get served.teams g.team = some tm → tm.queueOf g.core = []) := ⟨_, rfl, rfl, rfl, rfl, by
      intro tm h
      cases h
      rfl⟩
theorem meets_LinkSteps_window : (let s := State.reset
     s.hbmShut 0 = false ∧ 0 ∉ s.heldLines ∧ min 33 (32 - 0 % 32) < 33 ∧ s.closed = false ∧ 0 % 8 = 0 ∧
      (let wr := WindowOp.cas [0, 0, 0, 0, 0, 0, 0, 0] [1, 0, 0, 0, 0, 0, 0, 0]
       isAtomicOp wr = true ∧ ([1, 0, 0, 0, 0, 0, 0, 0] : List Byte).length = 8)) ∧
    (let s := { State.reset with slots := [⟨.refresh, 0, 10, none, true⟩] }
     s.hbmShut 0 = true ∧ 0 ∈ ({ s with heldSteps := [⟨.deviceMemoryWindowAccess 0 0 4 .read, 0, []⟩] } : State).heldLines) ∧
    (let y := { Queue.reset with qbase := 0x800000000000 }
     y.hostRing = true ∧ y.ductus = none) ∧ Queue.reset.hostRing = false := by decide +kernel

/-- A quill context; a group of its team and core waits in DQPOP. -/
def popping (quill : Group → Group) (dq : KMap (List DWord)) : State :=
  { st 8 quill with
    groups := [(0, quill (groupOf 8)), (1, { groupOf 8 with grp := 1, gangs := [{ gangOf 8 with hold := .dqpop (.sca 2) }] })]
    teams := [(0, { teamZero with dq := dq })] }
theorem meets_QueueBlockAndFormResults_serve :
    (∃ i, let s := popping quilled []
      s.issuer = some (is 8 quilled) ∧ s.teamOf (quilled (groupOf 8)) = some { teamZero with dq := [] } ∧ s.storesPending 0 (quilled (groupOf 8)) 1 = [] ∧
      s.popWaiters 0 0 = (1, 0, .sca 2) :: [] ∧ s.issuerAt 1 0 = some i) ∧
    (let s := { st 8 with teams := [(0, { teamZero with dq := [(0, [5])] })] }
     s.issuer = some (is 8) ∧ (groupOf 8).budgetDue = false ∧ (groupOf 8).offCore = false ∧
      s.teamOf (groupOf 8) = some { teamZero with dq := [(0, [5])] } ∧ ({ teamZero with dq := [(0, [5])] } : Team).queueOf 0 = 5 :: [] ∧ s.popWaiters 0 0 = []) :=
  ⟨⟨_, rfl, rfl, rfl, by decide +kernel, rfl⟩, rfl, rfl, rfl, rfl, rfl, by decide +kernel⟩
/-- A flag raised by clause 2, one of whose results is under way, and one raised by clause 3, whose results are all written. -/
def raised (g : Group) : Group := { g with raises := [⟨0, 2, false⟩, ⟨1, 3, false⟩], longs := [⟨1, 2, 1, 1, .result [], 0, []⟩] }
theorem meets_WritebackDelivers_parts : (raised (groupOf 8)).settle.raises = [⟨0, 2, false⟩] ∧ (raised (groupOf 8)).settle.flagClear 0 = false ∧
    (raised (groupOf 8)).settle.flagClear 1 = true ∧ RegWrite.vec 1 0 0 ∉ ([.vec 1 0 5] : List RegWrite) ∧
    (let x : LongOp := ⟨0, 1, 1, 0, .result [.vec 1 0 5], 3, []⟩
     let y : LongOp := ⟨1, 2, 1, 1, .result [.vec 1 0 6], 3, [.vec 1 0 0]⟩
     x.seq < y.seq ∧ y.was = [.vec 1 0 0] ∧ x.kind.writes = some [.vec 1 0 5]) := by decide +kernel
/-- A handler's save area of all four nibs; the first nib's X entry was on its stack, the last nib has lost its threads in the handler. -/
def savedNibs : List SnapNib := (List.range 4).map fun n => ⟨n, 0x1000, 0x1000, 0xFFFF, if n = 0 then [⟨.x, 9, 0x1000, 0, 0⟩] else []⟩
def returning (g : Group) : Group :=
  { g with
    h := true, nibs := g.nibs.take 3 ++ [Nib.dead], gangs := [{ gangOf 8 with nibs := [0, 1, 2] }]
    save := some ⟨0, savedNibs, gangOf 8, ⟨0, 0x1000, savedNibs⟩, [8, 8, 8, 8], 0, 0⟩ }
theorem meets_EretAndHaltResults_place : (let g := returning (groupOf 8)
    (savedNibs.map SnapNib.nib).Nodup ∧ (∀ r ∈ savedNibs, r.nib < g.nibs.length) ∧ (∀ r ∈ savedNibs, r.pc = 0x1000 ∧ r.entry = 0x1000) ∧
    (∀ k ∈ g.gangs, (match k.hold with | .join .. => false | _ => true) = true) ∧
    (0xFFFF : BitVec 16) &&& (g.nib 0).liveMask ≠ 0 ∧ (0xFFFF : BitVec 16) &&& (g.nib 3).liveMask = 0 ∧
    (g.eret 1 0).gangs.map Gang.nibs = [[0, 1, 2]] ∧ ((g.eret 0 0).nib 0).stack = [⟨.x, 9, 0x1000, 0, 0⟩]) := by decide +kernel
/-- The port to device 1 is paused. -/
theorem meets_EngineSteps_links : (∃ r, let s := { stored .created (2 ^ 48) with ports := [(1, { Port.reset with up := true, paused := some 0 })] }
      s.canSend 0 = some r ∧ s.reqPorts r = [1] ∧ (s.port 1).paused ≠ none) ∧
    (let s := { stored (.answered []) (2 ^ 48) with ports := [(1, { Port.reset with up := true, paused := some 0 })] }
     s.linkOut (2 ^ 48) = true) ∧
    (stored (.answered []) 0).answerOut (reqOf (.store [(0, 7)]) 0 (.answered [])) = false ∧
    (stored .fabric (2 ^ 48)).linkOut (2 ^ 48) = false := ⟨⟨_, rfl, by decide +kernel⟩, by decide +kernel⟩
theorem meets_SpeculativeSteps_promote : promotable.mayPromote 0 1 = true ∧ Mem.wf promotable.mem = true ∧
    promotable.shlo % 128 = 0 ∧ promotable.shhi % 128 = 0 ∧
    (promotable.versions.filter fun w => w.duc == 0 && w.k == 1 && promotable.homeOf w.fn (w.line * 128) == promotable.homeOf 0 0) = [⟨0, 1, 0, 0, false, [(0, 7)]⟩] ∧
    ∀ b ∈ ([(0, 7)] : List (Nat × Byte)), b.1 < 128 := by decide +kernel
/-- Name 5's directory line in the sheaf region; its manifest names the line at 0x12000, whose sidecar says so. -/
def memberOf : State :=
  { directory with
    shlo := 0x10000, shhi := 0x20000, shsh := 0x20000
    mem := [(0x10280, 5), (0x10288, 1), (0x10292, 0x12), (0x22880, 5)] }
theorem memOk_memberOf : memberOf.MemOk := by unfold State.MemOk; decide +kernel
theorem meets_SheafAndShreadSteps_members : (let s := memberOf
    let d := s.dirLine 0 5
    let ls := (s.members 0 (s.manifestOf 0 5).1).map Prod.fst
    (s.func 0).sdsize ≠ 0 ∧ (s.manifestOf 0 5).2.1 = 5 ∧ s.nameBusy 0 5 = false ∧ s.inSheafRegion d = true ∧
    (∀ a ∈ ls ++ [d], s.hbmShut a = false ∧ s.linkShut a = false) ∧ s.shlo % 128 = 0 ∧ s.shhi % 128 = 0 ∧
    ls = [0x12000] ∧ s.sidecar 0x12000 0 = 5 ∧
    ∃ a ∈ ls ++ [d], ({ s with slots := [⟨.refresh, 0, 10, none, true⟩] } : State).hbmShut a = true) := by decide +kernel
theorem meets_SheafAndShreadSteps_slot : (let s := shread ⟨[source], [], [], [], false, []⟩
    (s.inSlotNow && s.inChaff none (0x200 / 128)) = false ∧ (if s.lineState 0x200 = 3 then s.hbmShut 0x200 else s.altShut 0x200) = false) := by decide +kernel
/-- Two groups of a team that have ended, paired; beside them a group that runs on, or the quill context of their core. -/
def endedGroup (g : Group) : Group := { g with gangs := [], ended := true, nibs := List.replicate 4 Nib.dead }
def paired (other : Group) : State :=
  { st 8 with groups := [(0, endedGroup { groupOf 8 with partner := some 1 }), (1, endedGroup { groupOf 8 with partner := some 0, grp := 1 }), (2, other)] }
theorem meets_GroupSteps_retire : (let s := paired { groupOf 8 with grp := 2 }
    (∃ g, s.group 0 = some g ∧ g.quill = false ∧ g.partner = some 1 ∧ ∀ e ∈ s.retiring 0 g, s.mayRetire e.1 e.2 = true) ∧
    (∃ x, s.group 1 = some x) ∧ ∃ e ∈ s.groups, e.1 ∉ [0, 1] ∧ e.2.quill = false ∧ e.2.team = 0 ∧ e.2.core = 0) ∧
    (let s := paired (quilled (groupOf 8))
     (∀ e ∈ s.groups, e.1 ∉ [0, 1] → e.2.quill = false → e.2.team ≠ 0) ∧ (∃ l, KMap.get s.launches 0 = some l ∧ l.next = l.teams) ∧
     ∀ e ∈ s.teams, e.1 ≠ 0 → e.2.launch ≠ 0) ∧
    (let s := { st 8 with groups := [(0, endedGroup { groupOf 8 with partner := some 1 }), (1, { groupOf 8 with partner := some 0, grp := 1 })] }
     ∃ g, s.group 0 = some g ∧ ∃ e ∈ s.retiring 0 g, s.mayRetire e.1 e.2 = false) :=
  ⟨⟨⟨_, rfl, by decide +kernel⟩, ⟨_, rfl⟩, by decide +kernel⟩, ⟨by decide +kernel, ⟨_, rfl, rfl⟩, by decide +kernel⟩, ⟨_, rfl, by decide +kernel⟩⟩
theorem meets_CalendarSteps_sweep : (let x : Slot := ⟨.sweep, 7000, 7000 + Config.slotLength .sweep, none, true⟩
    x.on = true ∧ x.stop ≤ (atClock x.stop x).caln ∧ x.ext = none ∧ x.kind = .sweep) := by decide +kernel
theorem meets_BudgetAndAdmissionSteps_pop : (let s := { popping id [] with slices := [(0, ⟨0, 0, 5, 0, none⟩)] }
    KMap.get s.slices 0 = some ⟨0, 0, 5, 0, none⟩ ∧
    (s.groups.flatMap fun e => if e.2.slice = 0 then e.2.gangs.filterMap fun k =>
        match k.hold with | .dqpop _ => some (e.1, k.id) | _ => none else []) = [(1, 0)] ∧
    ((st 8).groups.flatMap fun e => if e.2.slice = 0 then e.2.gangs.filterMap fun k =>
        match k.hold with | .dqpop _ => some (e.1, k.id) | _ => none else []) = []) := by decide +kernel

/-! ### Words that the manual writes out (the chapters named beside each) -/

theorem test_manual_words_memory : Decodes
    [([0xA30800F1, 0x40], .ld4 (.vec 8) (.vec 0) (.lit 0x40)),
     ([0xB0C80000], .bcopy (.sca 8) 0), ([0xA60501F2], .atladd (.vec 5) (.vec 1) .one),
     ([0xB604C802, 0x200], .atom (.vec 4) (.sca 8) (.vec 2) 0x200), ([0xB7F2CA06, 0x100], .ared .one (.sca 10) (.vec 6) 0x100)] := by decide
theorem test_manual_words_integer : Decodes
    [([0x01C8C000], .mov (.sca 8) (.sca 0) 0), ([0x02030102, 0xA], .sel (.vec 3) (.vec 1) (.vec 2) 0xA),
     ([0x1700F3F1, 2], .shl (.vec 0) .tid (.lit 2)), ([0x40C5000C], .bra (.sca 5) 12), ([0x43DE0014], .call (.sca 30) 20),
     ([0x48108003], .trapServiceCall (.vec 16) 0x8003), ([0x4D0504F1, 1], .shflx (.vec 5) (.vec 4) (.lit 1)),
     ([0x50D00000], .ballot (.sca 16) 0 0)] := by decide
theorem test_manual_words_float : Decodes
    [([0x63080203], .ffma (.vec 8) (.vec 2) (.vec 3)), ([0x72010002], .fcmplt 1 (.vec 0) (.vec 2)),
     ([0x80060209], .cvt (.vec 6) (.vec 2) 9), ([0x820C034C], .cvtw (.vec 12) (.vec 3) 0x4C)] := by decide
theorem test_manual_words_system : Decodes
    [([0xD080D805], .mloopQuill (.vec 128) (.sca 24) 5), ([0xD2000010], .bar 0 0 0x10), ([0xD4000011], .barw 0 0 0x11),
     ([0xD6D40031], .barq (.sca 20) 0 0x31)] := by decide

/-! ### One step each, the result from the manual's rule or example -/

/-- R220: a sum wraps. -/
theorem test_add_wraps : vregAfter (exec (.add (.vec 3) (.vec 1) (.vec 2)) (st 8 (vecs [(1, 0x7FFFFFFF), (2, 1)]))) 3 63 = some 0x80000000 := by
  decide +kernel
/-- R220: the negation of the least i32. -/
theorem test_neg_least : vregAfter (exec (.neg (.vec 3) (.vec 1) 0) (st 8 (vecs [(1, 0x80000000)]))) 3 0 = some 0x80000000 := by decide +kernel
/-- R223's example: NOT under i16. -/
theorem test_not_i16 : vregAfter (exec (.not (.vec 3) (.vec 1) 0) (st 0x88 (vecs [(1, 0x000000FF)]))) 3 0 = some 0xFFFFFF00 := by decide +kernel
/-- R225's example: BFX under i32. -/
theorem test_bfx : vregAfter (exec (.bfx (.vec 3) (.vec 1) (.lit 0x0408)) (st 8 (vecs [(1, 0x0F70)]))) 3 0 = some 0xFFFFFFFF := by decide +kernel
/-- R224's example: the thread index shifted 2 places. -/
theorem test_shl_tid : vregAfter (exec (.shl (.vec 3) .tid (.lit 2)) (st 8)) 3 63 = some 252 := by decide +kernel
/-- R31: a thread that fails its guard keeps its register; its neighbour, whose bit of p0 is set, is written. -/
theorem test_guard : (let o := exec (.add (.vec 3) (.vec 1) .one) (st 0 fun g => vecs [(1, 4), (3, 9)] { g with p := [(0, 2)] })
    vregAfter o 3 0 = some 9 ∧ vregAfter o 3 1 = some 5) := by decide +kernel
/-- R220: a destination that is also both sources. -/
theorem test_mul_same : vregAfter (exec (.mul (.vec 1) (.vec 1) (.vec 1)) (st 8 (vecs [(1, 0x10001)]))) 1 0 = some 0x00020001 := by decide +kernel
/-- R223. -/
theorem test_popc : vregAfter (exec (.popc (.vec 3) (.vec 1) 0) (st 8 (vecs [(1, 0xF00F)]))) 3 0 = some 8 := by decide +kernel
/-- R223. -/
theorem test_clz_zero : vregAfter (exec (.clz (.vec 3) (.vec 1) 0) (st 8)) 3 0 = some 32 := by decide +kernel
/-- R239: SHFLX: each thread takes the value of its neighbour in the pair. -/
theorem test_shflx : (let o := exec (.shflx (.vec 5) (.vec 4) (.lit 1)) (st 8 fun g => { g with v := [(4, [10, 11])] })
    vregAfter o 5 0 = some 11 ∧ vregAfter o 5 1 = some 10) := by decide +kernel
/-- 1 + 2 and the largest f32 doubled, to the nearest (R200, R249). -/
theorem test_fadd : vregAfter (exec (.fadd (.vec 3) (.vec 1) (.vec 2)) (st 0x108 (vecs [(1, 0x3F800000), (2, 0x40000000)]))) 3 0 =
    some 0x40400000 := by decide +kernel
theorem test_fadd_overflow : vregAfter (exec (.fadd (.vec 3) (.vec 1) (.vec 1)) (st 0x108 (vecs [(1, 0x7F7FFFFF)]))) 3 0 = some 0x7F800000 := by
  decide +kernel
/-- R250: 3 × 5 + 1, with one rounding; the addend is the destination. -/
theorem test_ffma : vregAfter (exec (.ffma (.vec 3) (.vec 1) (.vec 2)) (st 0x108 (vecs [(1, 0x40400000), (2, 0x40A00000), (3, 0x3F800000)]))) 3 0 =
    some 0x41800000 := by decide +kernel
/-- R253. -/
theorem test_fabs : vregAfter (exec (.fabs (.vec 3) (.vec 1) 0) (st 0x108 (vecs [(1, 0x80000000)]))) 3 0 = some 0 := by decide +kernel
/-- R300 and the wavefront program's clock 11,200: entry 0 is DONE and its successors 1 and 3 have counter 0: TCAU is 0x0110. A FREE
entry is detail 2. -/
theorem test_tcau :
    (after (exec (.taskdone 0 (.sca 2) 0) ((withHandler (st 8)).modTask 0 0 fun t => { t with st := .done, succ := [1, 3] }))).map Group.tcau =
      some 0x0110 ∧
    (after (exec (.taskdone 0 (.sca 2) 0) (withHandler (st 8)))).map Group.tcau = some 0x0210 := by decide +kernel
/-- R298's example: the next refresh at CALN 1,207,100. -/
theorem test_slotq : ({ st 8 with caln := 1207100 } : State).slotq 0 = 0x0000038400000140 := by decide +kernel
/-- R349's example: every cluster is gated, LASTC is 29: cluster 30 resumes first, and after 47 comes 0. -/
def allGated (last : Nat) : State :=
  { State.reset with clusters := (List.range 48).map fun c => (c, { Cluster.reset with gated := true, wanted := true }), lastC := last }
theorem test_resume : (allGated 29).resumeNext = some 30 ∧ (allGated 47).resumeNext = some 0 := by decide +kernel
/-- R22: conditions of a clause: a header's own bit 0; a literal that runs past the end; JOIN not in the first place. -/
theorem test_clause_conditions : clauseBad 0x000FF001 [0x45000000] = some 1 ∧ clauseBad 0x000FF000 [0x100300F1] = some 6 ∧
    clauseBad 0x000FF200 [0x45000000, 0x45000000] = some 7 ∧ clauseBad 0x000FF000 [0x45000000] = none := by decide +kernel
/-- R283: with one arrival outstanding, its completion advances the phase. -/
theorem test_barrier_phase : (((st 8).setBar (.gb 0 0) ⟨64, 63, 0, 65535, 0⟩).barArrive 0 (.gb 0) (.gb 0 0) 1).bar (.gb 0 0) = ⟨64, 0, 0, 0, 0⟩ := by
  decide +kernel
/-- R148: an atomic maximum of i32 compares as signed numbers. -/
theorem test_atomic_max : atomF .i32 2 0xFFFFFFFF 1 0 = 1 ∧ atomF .n32 2 0xFFFFFFFF 1 0 = 0xFFFFFFFF := by decide +kernel
/-- R78, R359: where a register's value lies in a context image. -/
theorem test_image_layout : (let g := { groupOf 8 with v := [(191, List.replicate 64 0x12345678)], s := [(47, 0xAB)], p := [(7, 0x80)], stack := [(3 * 65536 + 5, 9)] }
    g.imageByte 0xCFFF = 0x12 ∧ g.imageByte 0x0978 = 0xAB ∧ g.imageByte 0x09B8 = 0x80 ∧ g.imageByte 0xD10D = 9) ∧
    (ImageField.control 8).offset = 0x0140 := by decide +kernel
/-- R43: bits 63 to 52 equal bit 51. -/
theorem test_canonical : canonical 0x0007FFFFFFFFFFFF = true ∧ canonical 0x0008000000000000 = false ∧ canonical 0xFFF8000000000000 = true := by
  decide

end Sys2Proof.Tests
end

section
/-!
PROOFS. Facts that several statements need: the bytes of a line after a write, and what the service of a write can change besides.
-/

namespace Sys2Proof.AddressSpaces

open Sys2Proof Sys2Proof.Machine Sys2Proof.Claims

/-! ### Reading back writes -/

/-- A byte after a list of writes is that of the last entry that names it. -/
theorem get_writeAt {m : Mem} (hm : Mem.wf m = true) (es : List (Nat × Byte)) (j : Nat) :
    Mem.get (Mem.writeAt m es) j = ((es.reverse.find? fun e => e.1 == j).map Prod.snd).getD (Mem.get m j) := by
  induction es using List.reverseRecOn with
  | nil => rfl
  | append_singleton es e ih =>
    have hlast : Mem.writeAt m (es ++ [e]) = Mem.set (Mem.writeAt m es) e.1 e.2 := by simp [Mem.writeAt]
    rw [hlast, Mem.get_set _ _ _ _ (Mem.wf_writeAt m es hm), List.reverse_concat, List.find?_cons]
    by_cases h : j = e.1
    · simp [h]
    · rw [if_neg h, ih, beq_false_of_ne (Ne.symm h)]

/-- What a cleared stretch of a memory reads as. -/
theorem Mem_get_clear_from (lo : Option Nat) (m : Mem) (l h a : Nat) (hm : Mem.wfFrom lo m = true) :
    Mem.get (Mem.clear m l h) a = if l ≤ a ∧ a < h then 0 else Mem.get m a := by
  induction m generalizing lo with
  | nil => simp [Mem.clear, Mem.get, Mem.unlisted]
  | cons e m ih =>
    obtain ⟨k, b⟩ := e
    obtain ⟨-, -, htail⟩ := (Mem.wfFrom_cons lo k b m).1 hm
    have hrest : Mem.get (Mem.clear m l h) a = if l ≤ a ∧ a < h then 0 else Mem.get m a := ih (some k) htail
    have hstep : Mem.clear ((k, b) :: m) l h = if k < l ∨ h ≤ k then (k, b) :: Mem.clear m l h else Mem.clear m l h := by
      by_cases hk : k < l ∨ h ≤ k <;> simp [Mem.clear, hk]
    have hbelow : a ≤ k → Mem.get m a = 0 := Mem.get_below htail
    have hcleared : a ≤ k → Mem.get (Mem.clear m l h) a = 0 := fun ha => by rw [hrest, hbelow ha, ite_self]
    rw [hstep]
    by_cases hk : k < l ∨ h ≤ k
    · rw [if_pos hk]
      simp only [Mem.get, Mem.unlisted, hrest]
      grind
    · rw [if_neg hk, hrest]
      simp only [Mem.get, Mem.unlisted]
      grind

theorem Mem_get_clear {m : Mem} (hm : Mem.wf m = true) (l h a : Nat) :
    Mem.get (Mem.clear m l h) a = if l ≤ a ∧ a < h then 0 else Mem.get m a := Mem_get_clear_from none m l h a hm

/-- Bytes written one after another, each from its address. -/
theorem get_writeAt_tabulated {m : Mem} (hm : Mem.wf m = true) (a : Nat) (f : Nat → Byte) {n i : Nat} (hi : i < n) :
    Mem.get (Mem.writeAt m ((List.range n).map fun i => (a + i, f (a + i)))) (a + i) = f (a + i) := by
  rw [get_writeAt hm]
  cases hfound : ((List.range n).map fun i => (a + i, f (a + i))).reverse.find? fun e => e.1 == a + i with
  | none =>
    have hnone := List.find?_eq_none.1 hfound (a + i, f (a + i)) (by simpa using hi)
    simp at hnone
  | some e =>
    have hat : e.1 = a + i := by simpa using List.find?_some hfound
    obtain ⟨k, -, rfl⟩ := List.mem_map.1 (List.mem_reverse.1 (List.mem_of_find?_eq_some hfound))
    simpa using congrArg f hat

theorem find?_reverse_shifted (bs : List (Nat × Byte)) (a i : Nat) :
    (((bs.map fun b => (a + b.1, b.2)).reverse.find? fun e => e.1 == a + i).map Prod.snd) =
      (bs.reverse.find? fun b => b.1 == i).map Prod.snd := by
  rw [← List.map_reverse, List.find?_map, Option.map_map]
  have hp : ((fun e : Nat × Byte => e.1 == a + i) ∘ fun b : Nat × Byte => (a + b.1, b.2)) = fun b => b.1 == i := by
    funext b; simp
  rw [hp]
  rfl

/-! ### The bytes of one line -/

theorem localOf_line {i : Nat} (line : Nat) (hi : i < 128) : localOf (line * 128 + i) = localOf (line * 128) + i ∧ localOf (line * 128) % 128 = 0 := by
  unfold localOf; omega

theorem devOf_line {i : Nat} (line : Nat) (hi : i < 128) : devOf (line * 128 + i) = devOf (line * 128) := by
  unfold devOf; omega

theorem isSecondTier_line {i : Nat} (line : Nat) (hi : i < 128) :
    isSecondTier (localOf (line * 128 + i)) = isSecondTier (localOf (line * 128)) := by
  obtain ⟨hl, h0⟩ := localOf_line line hi
  unfold isSecondTier
  rw [hl, Bool.eq_iff_iff]
  simp only [Bool.and_eq_true, decide_eq_true_eq]
  omega

theorem isHbm_line {i : Nat} (line : Nat) (hi : i < 128) : isHbm (line * 128 + i) = isHbm (line * 128) := by
  obtain ⟨hl, h0⟩ := localOf_line line hi
  unfold isHbm
  rw [hl, Bool.eq_iff_iff, decide_eq_true_eq, decide_eq_true_eq]
  omega

theorem bareOf_line {i : Nat} (line : Nat) (hi : i < 128) : bareOf (line * 128 + i) = bareOf (line * 128) + i ∧ bareOf (line * 128) % 128 = 0 := by
  obtain ⟨hl, h0⟩ := localOf_line line hi
  unfold bareOf
  rw [hl]
  split <;> split <;> omega

theorem isHbm_of_secondTier {dpa : Nat} (h : isSecondTier (localOf dpa) = true) : isHbm dpa = false := by
  simp only [isSecondTier, Bool.and_eq_true, decide_eq_true_eq] at h
  simp only [isHbm, decide_eq_false_iff_not]
  omega

section Aligned

variable {s : State} (hlo : s.shlo % 128 = 0) (hhi : s.shhi % 128 = 0)
include hlo

theorem otherSlot_line {i : Nat} (line : Nat) (hi : i < 128) : s.otherSlot (line * 128 + i) = s.otherSlot (line * 128) := by
  obtain ⟨hb, h0⟩ := bareOf_line line hi
  unfold State.otherSlot
  rw [hb]
  omega

include hhi

theorem inSheafRegion_line {i : Nat} (line : Nat) (hi : i < 128) : s.inSheafRegion (line * 128 + i) = s.inSheafRegion (line * 128) := by
  obtain ⟨hb, h0⟩ := bareOf_line line hi
  unfold State.inSheafRegion
  rw [isHbm_line line hi, hb, Bool.eq_iff_iff]
  simp only [Bool.and_eq_true, decide_eq_true_eq]
  refine and_congr (and_congr Iff.rfl ?_) ?_ <;> omega

/-- R155, R156: the bytes of a line stand side by side in its current slot. -/
theorem slotAddr_line {i : Nat} (line : Nat) (hi : i < 128) : s.slotAddr true (line * 128 + i) = s.slotAddr true (line * 128) + i := by
  have hcur : s.curIsOther (line * 128 + i) = s.curIsOther (line * 128) := by
    unfold State.curIsOther State.sidecar State.sidecarAt
    rw [inSheafRegion_line hlo hhi line hi, otherSlot_line hlo line hi]
  unfold State.slotAddr
  rw [hcur, inSheafRegion_line hlo hhi line hi, otherSlot_line hlo line hi]
  split
  · split <;> omega
  · rfl

end Aligned

theorem slotAddr_secondTier {s : State} {dpa : Nat} (h : isSecondTier (localOf dpa) = true) : s.slotAddr true dpa = dpa := by
  have hregion : s.inSheafRegion dpa = false := by simp [State.inSheafRegion, isHbm_of_secondTier h]
  simp [State.slotAddr, hregion]

/-! ### Writes of one line (R72, R74, R156) -/

/-- The memory in which a write of line `line` by owner `o` puts its bytes: a line under another tag is first taken as the owner reads it. -/
def takenLine (s : State) (o line : Nat) : Mem :=
  if s.lineTag line = s.tagOf (devOf (line * 128)) o then s.mem
  else if isSecondTier (localOf (line * 128)) then
    Mem.writeAt s.mem ((List.range 128).map fun i => (line * 128 + i, Config.secondTierByte (line * 128 + i) o))
  else Mem.clear s.mem (s.slotAddr true (line * 128)) (s.slotAddr true (line * 128) + 128)

theorem memPut_mem (s : State) (o line : Nat) (bs : List (Nat × Byte)) :
    (s.memPut o line bs).mem = Mem.writeAt (takenLine s o line) (bs.map fun e => (s.slotAddr true e.1, e.2)) := by
  unfold State.memPut takenLine
  dsimp only
  split
  · rfl
  · split <;> rfl

theorem memPut_lineTag (s : State) (o line : Nat) (bs : List (Nat × Byte)) :
    (s.memPut o line bs).lineTag line = s.tagOf (devOf (line * 128)) o := by
  unfold State.memPut
  dsimp only
  split
  · assumption
  · simp [State.lineTag, KMap.getD_put]

theorem memPut_only (s : State) (o line : Nat) (bs : List (Nat × Byte)) : s.memPut o line bs =
    { s with mem := (s.memPut o line bs).mem, tags := (s.memPut o line bs).tags, tier := (s.memPut o line bs).tier } := by
  unfold State.memPut
  dsimp only
  split <;> rfl

theorem takenLine_wf {s : State} (hm : Mem.wf s.mem = true) (o line : Nat) : Mem.wf (takenLine s o line) = true := by
  unfold takenLine
  split
  · exact hm
  · split
    · exact Mem.wf_writeAt _ _ hm
    · exact Mem.wf_clear _ _ _ hm

/-- R72, R74, R156: a byte of the line that no entry of a write names reads as its owner read it before. -/
theorem takenLine_inside {s : State} (hm : Mem.wf s.mem = true) (hlo : s.shlo % 128 = 0) (hhi : s.shhi % 128 = 0) (o line : Nat) {i : Nat}
    (hi : i < 128) : Mem.get (takenLine s o line) (s.slotAddr true (line * 128) + i) = s.memGet o (line * 128 + i) := by
  have hline : (line * 128 + i) / 128 = line := by omega
  unfold takenLine State.memGet
  rw [hline, devOf_line line hi, isSecondTier_line line hi, slotAddr_line hlo hhi line hi]
  split
  · rfl
  · split
    · rename_i hfar
      rw [slotAddr_secondTier hfar]
      exact get_writeAt_tabulated hm (line * 128) (fun a => Config.secondTierByte a o) hi
    · rw [Mem_get_clear hm, if_pos (by omega)]

theorem takenLine_outside {s : State} (hm : Mem.wf s.mem = true) (o line : Nat) {x : Nat}
    (hx : x < s.slotAddr true (line * 128) ∨ s.slotAddr true (line * 128) + 128 ≤ x) :
    Mem.get (takenLine s o line) x = Mem.get s.mem x := by
  unfold takenLine
  split
  · rfl
  · split
    · rename_i hfar
      rw [slotAddr_secondTier hfar] at hx
      refine Mem.get_writeAt_other _ _ _ hm fun e he => ?_
      obtain ⟨i, hi, rfl⟩ := List.mem_map.1 he
      have := List.mem_range.1 hi
      dsimp only
      omega
    · rw [Mem_get_clear hm, if_neg (by omega)]

/-- R72, R74, R156: what a write of bytes of one line leaves in its current slot, and outside it. -/
theorem memPut_line {s : State} (hm : Mem.wf s.mem = true) (hlo : s.shlo % 128 = 0) (hhi : s.shhi % 128 = 0) (o line : Nat)
    {bs : List (Nat × Byte)} (hbs : ∀ b ∈ bs, b.1 < 128) :
    (∀ i, i < 128 → Mem.get (s.memPut o line (bs.map fun b => (line * 128 + b.1, b.2))).mem (s.slotAddr true (line * 128 + i)) =
      ((bs.reverse.find? fun b => b.1 == i).map Prod.snd).getD (s.memGet o (line * 128 + i))) ∧
    ∀ x, (∀ i, i < 128 → x ≠ s.slotAddr true (line * 128 + i)) →
      Mem.get (s.memPut o line (bs.map fun b => (line * 128 + b.1, b.2))).mem x = Mem.get s.mem x := by
  have hput : (bs.map fun b => (line * 128 + b.1, b.2)).map (fun e => (s.slotAddr true e.1, e.2)) =
      bs.map fun b => (s.slotAddr true (line * 128) + b.1, b.2) := by
    rw [List.map_map]
    exact List.map_congr_left fun b hb => by simp [slotAddr_line hlo hhi line (hbs b hb)]
  rw [memPut_mem, hput]
  refine ⟨fun i hi => ?_, fun x hx => ?_⟩
  · rw [slotAddr_line hlo hhi line hi, get_writeAt (takenLine_wf hm o line), find?_reverse_shifted, takenLine_inside hm hlo hhi o line hi]
  · have hout : x < s.slotAddr true (line * 128) ∨ s.slotAddr true (line * 128) + 128 ≤ x := by
      by_contra hin
      refine hx (x - s.slotAddr true (line * 128)) (by omega) ?_
      rw [slotAddr_line hlo hhi line (by omega)]
      omega
    rw [Mem.get_writeAt_other _ _ _ (takenLine_wf hm o line) fun e he => ?_, takenLine_outside hm o line hout]
    obtain ⟨b, hb, rfl⟩ := List.mem_map.1 he
    have := hbs b hb
    dsimp only
    omega

/-! ### The service of a write (R310, R320) -/

/-- What the service of a write can change: WAITs and ductuses, and, of launches that it refutes, what belongs to them. -/
def OnlyRefutes (s t : State) : Prop :=
  t = { s with
    groups := t.groups, teams := t.teams, slices := t.slices, launches := t.launches, bars := t.bars, oq := t.oq, reserve := t.reserve
    ops := t.ops, reqs := t.reqs, faults := t.faults, passed := t.passed, funcs := t.funcs }

theorem OnlyRefutes.refl (s : State) : OnlyRefutes s s := rfl

theorem OnlyRefutes.trans {s t u : State} (hst : OnlyRefutes s t) (htu : OnlyRefutes t u) : OnlyRefutes s u := by
  unfold OnlyRefutes at *
  exact htu.trans (by rw [hst])

/-- What relates a state to each step of a fold relates it to the whole. -/
theorem foldl_related {α : Type} {R : State → State → Prop} (hrefl : ∀ s, R s s) (htrans : ∀ {s t u}, R s t → R t u → R s u)
    {f : State → α → State} (hf : ∀ s x, R s (f s x)) (l : List α) (s : State) : R s (l.foldl f s) := by
  induction l generalizing s with
  | nil => exact hrefl s
  | cons x l ih => exact htrans (hf s x) (ih _)

theorem removeLaunches_onlyRefutes (s : State) (ls : List Nat) : OnlyRefutes s (s.removeLaunches ls) := rfl

theorem modFunc_onlyRefutes (s : State) (fn : Nat) (f : Func → Func) : OnlyRefutes s (s.modFunc fn f) := rfl

theorem endDuctus_onlyRefutes (s : State) (fn q endc : Nat) : OnlyRefutes s (s.endDuctus fn q endc) := rfl

theorem refute_onlyRefutes (s : State) (fn q d k endc : Nat) : OnlyRefutes s (s.refute fn q d k endc) :=
  (removeLaunches_onlyRefutes s _).trans (endDuctus_onlyRefutes _ fn q endc)

theorem touchKey_onlyRefutes (s : State) (duc : Option Nat) (key : Nat) : OnlyRefutes s (s.touchKey duc key) := by
  refine foldl_related OnlyRefutes.refl OnlyRefutes.trans (fun s q => ?_) _ s
  split
  · exact refute_onlyRefutes s _ _ _ _ _
  · exact OnlyRefutes.refl s

theorem pollWaits_onlyRefutes (s : State) (line : Nat) : OnlyRefutes s (s.pollWaits line) := by
  unfold State.pollWaits
  split <;> rfl

theorem touch_onlyRefutes (s : State) (duc : Option Nat) (l : Loc) : OnlyRefutes s (s.touch duc l) := by
  have hpoll : OnlyRefutes s (match l with | .dpa a => if devOf a = s.devnum then s.pollWaits (a / 128) else s | _ => s) := by
    split
    · split
      · exact pollWaits_onlyRefutes s _
      · exact OnlyRefutes.refl s
    · exact OnlyRefutes.refl s
  unfold State.touch
  dsimp only
  split
  · exact hpoll.trans (touchKey_onlyRefutes _ _ _)
  · exact hpoll

theorem touchLines_onlyRefutes (s : State) (bs : List (Nat × Byte)) : OnlyRefutes s (s.touchLines bs) :=
  foldl_related OnlyRefutes.refl OnlyRefutes.trans (fun s l => touch_onlyRefutes s none (.dpa (l * 128))) _ s

end Sys2Proof.AddressSpaces
end

section
/-!
PROOFS. The state after reset (R55, R62, R67, R115, R306, R307, R337, R341, R343, R345, R360, R369, R379, R386).
-/

namespace Sys2Proof.AddressSpaces

open Sys2Proof Sys2Proof.Machine Sys2Proof.Claims

/-! ### Reset -/

theorem reset_memOk : State.reset.MemOk :=
  ⟨State.reset_mem_wf, rfl, rfl, List.forall_mem_nil _, List.forall_mem_nil _⟩

theorem reset_func (f : Nat) : State.reset.func f = Func.reset f := rfl

theorem reset_queue (f q : Nat) : State.reset.queue f q = Queue.reset := rfl

theorem reset_task (f n : Nat) : (State.reset.func f).task n = Task.reset := rfl

theorem reset_coreReg (c : Nat) : State.reset.coreReg c = CoreReg.reset := rfl

theorem reset_cluster (c : Nat) : State.reset.cluster c = Cluster.reset := rfl

theorem reset_port (p : Nat) : State.reset.port p = Port.reset := rfl

/-- R7: what each register of a function's control page reads as after reset; FQCTL holds its SIZE of 6 (R62), every other one 0. -/
theorem reset_controlRead (f : Nat) :
    ∀ e ∈ ([(0x000, 0), (0x008, 0), (0x010, 6), (0x018, 0), (0x030, 0), (0x038, 0), (0x040, 0), (0x048, 0), (0x050, 0), (0x058, 0),
      (0x060, 0), (0x070, 0), (0x078, 0), (0x080, 0), (0x088, 0), (0x090, 0), (0x098, 0), (0x0A0, 0), (0x0B8, 0)] : List (Nat × Nat)),
      State.reset.controlRead f e.1 = e.2 := by
  simp [State.controlRead, reset_func, Func.reset, bitIf]

/-- Settles O58: the reset state lists nothing, so that each function, queue, task, core, cluster and port reads as its own reset record. -/
theorem resetState : Obligations.ResetState := by
  unfold Obligations.ResetState
  simp only [reset_queue, reset_task, reset_coreReg, reset_cluster, reset_port]
  exact ⟨reset_memOk, rfl, rfl, rfl, rfl, rfl, rfl, rfl, rfl, reset_controlRead, rfl, fun _ _ => ⟨rfl, rfl, rfl, rfl⟩, fun _ _ => rfl,
    fun _ => rfl, fun _ => ⟨rfl, rfl, rfl⟩, fun _ => ⟨rfl, rfl, rfl, rfl, rfl, rfl, rfl⟩, fun _ => rfl⟩

end Sys2Proof.AddressSpaces
end

section
/-!
PROOFS. Fault records, replays, invalidation, routine tables and the automatic return (R54, R56, R61 to R63, R68, R69, R152, R153, R375, R380).
-/

namespace Sys2Proof.AddressSpaces

open Sys2Proof Sys2Proof.Machine Sys2Proof.Claims

/-! ### Host writes behind the window (R375, R378) -/

theorem afterWindow_behind {s : State} (h : s.behindWindow = true) (i : Instr) (t : State) : s.afterWindow i t = s.holdStep ⟨i, 0, []⟩ := by
  simp [State.afterWindow, h]

theorem afterWindow_free {s : State} (he : s.enabled = true) (hw : s.behindWindow = false) (i : Instr) (t : State) :
    s.afterWindow i t = t := by
  simp [State.afterWindow, State.ifEnabled, he, hw]

/-- R375: the four host writes wait behind an access to device memory that a slot holds. -/
theorem exec_behindWindow (fn seq pages : Nat) :
    ∀ i ∈ ([.replayAll fn, .replaySeq fn seq, .invalidateAll fn, .invalidateRange fn pages] : List Instr), ∀ s,
      s.behindWindow = true → exec i s = .next (s.holdStep ⟨i, 0, []⟩) := by
  simp only [List.forall_mem_cons, List.not_mem_nil, false_implies, implies_true, and_true]
  refine ⟨fun s h => ?_, fun s h => ?_, fun s h => ?_, fun s h => ?_⟩ <;> exact congrArg _ (afterWindow_behind h _ _)

/-! ### Fault records (R61, R62) -/

theorem exec_faultRecordWrite_full {s : State} {fn k : Nat} {e : FaultEntry} (hu : s.unrecorded fn = some (k, e))
    (hen : (s.func fn).fqEn = true)
    (hfull : ((s.func fn).fqTail + 1) % 2 ^ (s.func fn).fqSize = (s.func fn).fqHead % 2 ^ (s.func fn).fqSize) :
    exec (.faultRecordWrite fn) s = .next (s.modFunc fn fun f => { f with fqOvf := true }) := by
  show Host.Outcome.next (s.faultRecordWrite fn) = _
  simp only [State.faultRecordWrite, hu, hen, hfull, Bool.not_true, Bool.false_eq_true, if_false, if_true]

theorem exec_faultRecordWrite_room {s : State} {fn k : Nat} {e : FaultEntry} (hu : s.unrecorded fn = some (k, e))
    (hen : (s.func fn).fqEn = true)
    (hroom : ((s.func fn).fqTail + 1) % 2 ^ (s.func fn).fqSize ≠ (s.func fn).fqHead % 2 ^ (s.func fn).fqSize) :
    (let f := s.func fn
     let size := 2 ^ f.fqSize
     let at_ := s.localLocOf fn (bitsOf f.fqbase.toNat 47 6 * 64 + 64 * f.fqTail)
     let bs := (s.faultRecord e f.nextSeq).flatMap fun w => leBytes w 8
     let s1 := (s.poke f.owner at_ ((List.range 64).map fun j => (j, bs.getD j 0))).touch none at_
     let s2 := ({ s1 with faults := KMap.adjust s1.faults k fun e => { e with seq := some f.nextSeq } } : State).modFunc fn fun f =>
      { f with fqTail := (f.fqTail + 1) % size, nextSeq := (f.nextSeq + 1) % 2 ^ 32 }
     exec (.faultRecordWrite fn) s = .next (if f.fqIrq then { s2 with irqs := s2.irqs ++ [.fault fn] } else s2)) := by
  show Host.Outcome.next (s.faultRecordWrite fn) = _
  simp only [State.faultRecordWrite, hu, hen, if_neg hroom, Bool.not_true, Bool.false_eq_true, if_false]

/-! ### Replays (R63) -/

theorem exec_replayAll {s : State} {fn : Nat} (he : s.enabled = true) (hw : s.behindWindow = false) :
    exec (.replayAll fn) s = .next (((s.faults.filter fun e => e.2.fn == fn).map Prod.fst).foldl State.replayEntry s) :=
  congrArg _ (afterWindow_free he hw _ _)

/-- R63: no entry's record carries SEQ. -/
theorem exec_replaySeq_none {s : State} {fn seq : Nat} (he : s.enabled = true) (hw : s.behindWindow = false)
    (h : ∀ e ∈ s.faults, e.2.fn = fn → e.2.seq ≠ some seq) : exec (.replaySeq fn seq) s = .next s := by
  have hk : KMap.findKey s.faults (fun _ e => e.fn == fn && e.seq == some seq) = none := by
    simpa [KMap.findKey] using h
  show Host.Outcome.next (s.afterWindow _ _) = _
  rw [afterWindow_free he hw, hk]

theorem exec_replaySeq_head {s : State} {fn seq f : Nat} {e : FaultEntry} {r : KMap FaultEntry} (he : s.enabled = true)
    (hw : s.behindWindow = false) (hf : s.faults = (f, e) :: r) (hfn : e.fn = fn) (hseq : e.seq = some seq) :
    exec (.replaySeq fn seq) s = .next (s.replayEntry f) := by
  have hk : KMap.findKey s.faults (fun _ e => e.fn == fn && e.seq == some seq) = some f := by
    simp [KMap.findKey, hf, hfn, hseq]
  show Host.Outcome.next (s.afterWindow _ _) = _
  rw [afterWindow_free he hw, hk]

/-! ### Invalidation (R54, R56) -/

/-- R56: what a start of an invalidation leaves: the range registers, BUSY, and no cached translation that it covers. -/
def Invalidated (s : State) (fn : Nat) (pages : Option Nat) (t : State) : Prop :=
  t = { s with funcs := t.funcs, tlb := t.tlb } ∧ (t.func fn).invBusy = true ∧ (t.func fn).invRange = pages.isSome ∧
    (t.func fn).invPages = (pages.getD (s.func fn).invPages) % 2 ^ 32 ∧
    (∀ x ∈ t.tlb, x.fn = fn → (t.func fn).covers x.vpn x.bits = false) ∧
    (∀ x ∈ s.tlb, x.fn ≠ fn → x ∈ t.tlb) ∧ ∀ f, f ≠ fn → t.func f = s.func f

theorem covers_invOps (f : Func) (l : List Nat) (vpn bits : Nat) : ({ f with invOps := l } : Func).covers vpn bits = f.covers vpn bits := rfl

theorem invalidate_idle {s : State} {fn : Nat} (pages : Option Nat) (h : (s.func fn).invBusy = false) :
    Invalidated s fn pages (s.invalidate fn pages) := by
  unfold State.invalidate
  simp only [h, Bool.false_eq_true, if_false]
  generalize hs1 : s.modFunc fn (fun f => { f with invBusy := true, invRange := pages.isSome, invPages := (pages.getD f.invPages) % 2 ^ 32 }) = s1
  generalize List.map Prod.fst _ = used
  have htlb : s1.tlb = s.tlb := by rw [← hs1]; rfl
  have hother : ∀ f, f ≠ fn → s1.func f = s.func f := fun f hf => by rw [← hs1, State.func_modFunc, if_neg hf]
  have hdrop : ∀ f, (s1.dropTlb fn).func f = s1.func f := fun _ => rfl
  refine ⟨?_, ?_, ?_, ?_, ?_, ?_, ?_⟩
  · rw [← hs1]; rfl
  · rw [State.func_modFunc_same, hdrop, ← hs1, State.func_modFunc_same]
  · rw [State.func_modFunc_same, hdrop, ← hs1, State.func_modFunc_same]
  · rw [State.func_modFunc_same, hdrop, ← hs1, State.func_modFunc_same]
  · intro x hx hfn
    rw [State.func_modFunc_same, covers_invOps, hdrop]
    have hx' : x ∈ s1.tlb.filter fun e => !(e.fn == fn && (s1.func fn).covers e.vpn e.bits) := hx
    simpa [hfn] using (List.mem_filter.1 hx').2
  · intro x hx hfn
    show x ∈ s1.tlb.filter fun e => !(e.fn == fn && (s1.func fn).covers e.vpn e.bits)
    simp [List.mem_filter, htlb, hx, hfn]
  · intro f hf
    rw [State.func_modFunc, if_neg hf, hdrop, hother f hf]

theorem exec_invalidateAll {s : State} {fn : Nat} (he : s.enabled = true) (hw : s.behindWindow = false) :
    exec (.invalidateAll fn) s = .next (s.invalidate fn none) := congrArg Host.Outcome.next (afterWindow_free he hw _ _)

theorem exec_invalidateRange {s : State} {fn pages : Nat} (he : s.enabled = true) (hw : s.behindWindow = false) :
    exec (.invalidateRange fn pages) s = .next (s.invalidate fn (some pages)) := congrArg Host.Outcome.next (afterWindow_free he hw _ _)

theorem exec_invalidationComplete {s : State} {fn : Nat} (h : s.invDone fn = true) :
    exec (.invalidationComplete fn) s = .next ((s.dropTlb fn).modFunc fn fun f => { f with invBusy := false, invOps := [] }) :=
  congrArg Host.Outcome.next (if_pos h)

/-! ### The routine table (R152, R153, R380) -/

theorem installDone_only {s : State} {fn : Nat} :
    s.installDone fn = { s with routines := (s.installDone fn).routines, funcs := (s.installDone fn).funcs, meas := (s.installDone fn).meas } := by
  unfold State.installDone
  split <;> rfl

theorem installDone_measure {s : State} {fn : Nat} (h : (s.func fn).aptBusy = true) :
    (s.installDone fn).measure 3 = sha512 (s.measure 3 ++ sha512 (s.tableBytes fn)) := by
  simp only [State.installDone, h, Bool.not_true, Bool.false_eq_true, if_false]
  exact (KMap.getD_put ..).trans (if_pos rfl)

theorem installDone_routines {s : State} {fn k : Nat} (h : (s.func fn).aptBusy = true) (hk : k < 256) (hv : (s.tableEntry fn k).1 = true) :
    ((s.func fn).owner, k, (⟨(s.tableEntry fn k).2.1, (s.tableEntry fn k).2.2⟩ : Routine)) ∈ (s.installDone fn).routines := by
  simp only [State.installDone, h, Bool.not_true, Bool.false_eq_true, if_false]
  refine List.mem_append_right _ (List.mem_map.2 ⟨(k, s.tableEntry fn k), List.mem_filter.2 ⟨?_, hv⟩, rfl⟩)
  exact List.mem_map.2 ⟨k, List.mem_range.2 hk, rfl⟩

theorem installDone_func {s : State} {fn : Nat} (h : (s.func fn).aptBusy = true) :
    ((s.installDone fn).func fn).aptBusy = false ∧
    (((s.installDone fn).func fn).aptErr = true ↔
      (s.func fn).aptErr = true ∨ ∃ k < 256, (s.tableEntry fn k).1 = true ∧ (s.tableEntry fn k).2.1 = false) := by
  simp only [State.installDone, h, Bool.not_true, Bool.false_eq_true, if_false, State.func_modFunc_same, true_and]
  rw [Bool.or_eq_true]
  refine or_congr Iff.rfl ?_
  simp

theorem exec_routineTableInstallDone {s : State} {fn : Nat} (h : (s.func fn).aptBusy = true) : ∃ t, exec (.routineTableInstallDone fn) s = .next t ∧
    t = { s with routines := t.routines, funcs := t.funcs, meas := t.meas } ∧ (t.func fn).aptBusy = false ∧
    t.measure 3 = sha512 (s.measure 3 ++ sha512 (s.tableBytes fn)) ∧
    (∀ k < 256, (s.tableEntry fn k).1 = true →
      ((s.func fn).owner, k, (⟨(s.tableEntry fn k).2.1, (s.tableEntry fn k).2.2⟩ : Routine)) ∈ t.routines) ∧
    ((t.func fn).aptErr = true ↔ (s.func fn).aptErr = true ∨ ∃ k < 256, (s.tableEntry fn k).1 = true ∧ (s.tableEntry fn k).2.1 = false) :=
  ⟨s.installDone fn, rfl, installDone_only, (installDone_func h).1, installDone_measure h, fun _ hk hv => installDone_routines h hk hv,
    (installDone_func h).2⟩

theorem exec_routineTableInstall {s : State} {fn : Nat} (he : s.enabled = true) (h : (s.func fn).aptBusy = false) :
    exec (.routineTableInstall fn) s = .next (s.modFunc fn fun f => { f with aptBusy := true }) := by
  show Host.Outcome.next (s.ifEnabled _) = _
  simp [State.ifEnabled, he, h]

/-! ### The automatic return (R68, R69) -/

theorem exec_contextAutoReturn {s : State} {fn : Nat} (ha : (s.func fn).saved.auto = true) (hg : (s.func fn).ctxGo = false)
    (hr : s.rdy fn = true) (hf : s.returnFits fn = true) (hl : s.leavers fn = []) :
    exec (.contextAutoReturn fn) s = .next (s.switchedIn fn) :=
  congrArg _ (if_pos ⟨ha, by simp [hg], hr, hf, by simp [hl]⟩)

/-- Settles O45: each step is its definition where it is enabled; the range registers, the translation caches and the routine table by the
lemmas above. -/
theorem faultAndInvalidationSteps : Obligations.FaultAndInvalidationSteps := by
  unfold Obligations.FaultAndInvalidationSteps
  refine ⟨⟨fun s fn k e hu hen => ⟨exec_faultRecordWrite_full hu hen, exec_faultRecordWrite_room hu hen⟩,
      fun s fn he hw => exec_replayAll he hw, fun s fn seq he hw h => exec_replaySeq_none he hw h,
      fun s fn seq f e r he hw hf hfn hseq => exec_replaySeq_head he hw hf hfn hseq⟩,
    exec_behindWindow, fun fn pages => ?_, fun s fn h => exec_invalidationComplete h, fun s fn he h => exec_routineTableInstall he h,
    fun s fn h => exec_routineTableInstallDone h, fun s fn ha hg hr hf hl => exec_contextAutoReturn ha hg hr hf hl⟩
  refine List.forall_mem_cons.2 ⟨fun s he hw h => ?_, List.forall_mem_cons.2 ⟨fun s he hw h => ?_, List.forall_mem_nil _⟩⟩
  · exact ⟨_, exec_invalidateAll he hw, invalidate_idle none h⟩
  · exact ⟨_, exec_invalidateRange he hw, invalidate_idle (some pages) h⟩

end Sys2Proof.AddressSpaces
end

section
/-!
PROOFS. EXIT of a predicted launch whose wait finds a failed operation (R64, R234, R319).
-/

namespace Sys2Proof.AddressSpaces

open Sys2Proof Sys2Proof.Machine Sys2Proof.Claims

/-! ### A deferred fault at the last EXIT of a predicted launch -/

/-- R319: a trap that a predicted launch stalls before leaves the failures of its group as they were. -/
theorem takeTrap_stall_failed {s : State} {gid n : Nat} {g : Group} {k : Gang} (r : TrapReq) (hg : s.group gid = some g)
    (hk : g.gang n = some k) (hs : s.speculative g = true) : ((s.takeTrap gid n r).group gid).map Group.failed = some g.failed := by
  rw [State.takeTrap_stall r hg hk hs, State.group_modGroup_same, hg]
  rfl

/-- R64, R319: the last EXIT of a predicted group stalls with the failure still to report. -/
theorem exec_exit_predicted {s : State} {k : Iss} {u : BitVec 24} {f : FailedOp} {r : List FailedOp} (hi : s.Issues k (zero24 u))
    (hlast : k.lastExit = true) (hops : s.opsAll k.gid = []) (hcounts : s.countsZero k.gid = true) (hfailed : k.g.failed = f :: r)
    (hs : s.speculative k.g = true) :
    exec (.exit u) s = .next (s.takeTrap k.gid k.gang.id ⟨f.cause, f.detail, f.info, k.active, f.pc⟩) := by
  refine (State.insn_pass hi _).trans (congrArg Host.Outcome.next ?_)
  simp [hlast, hops, hcounts, State.awaitOps, hfailed, hs]

/-- A group of a predicted launch: its one gang is about to execute EXIT in every thread, and one of its operations has failed. -/
def failingClause : ClauseBuf := ⟨0x1000, 0x000FFE00, [], 0, 0, 8, 1, 0, true⟩
def failingGang : Gang := ⟨[0, 1, 2, 3], 0x1000, some failingClause, .none, 0, 0, 0⟩
def failedCopy : FailedOp := ⟨0, .copy, 1, 5, 0, 0, 0x1000⟩
def failingGroup : Group :=
  { groupStart 0 placedLaunch 0 0 0 0 false ⟨0, 0, 0, 64, 24, 0⟩ 0 0 none with
    clauseSerial := 1, gangs := [failingGang], failed := [failedCopy] }
def predictedExit : State :=
  { State.reset with
    launches := [(0, { placedLaunch with pred := some ⟨0, 1, false, false, false⟩ })], groups := [(0, failingGroup)], cur := some ⟨0, 0⟩ }
def predictedIssuer : Iss := ⟨0, failingGroup, failingGang, failingClause⟩

theorem predictedExit_issues : predictedExit.Issues predictedIssuer (zero24 0) := ⟨rfl, by decide⟩

theorem predictedExit_last : predictedIssuer.lastExit = true := by decide

theorem predictedExit_speculative : predictedExit.speculative predictedIssuer.g = true := rfl

/-- Refutes O9: its clause about an EXIT that ends the last nib takes the failed operation from the group before the deferred fault in every
launch. In a predicted launch, as in the state `predictedExit`, the gang stalls and the failure stays (R319). -/
theorem not_joinExitAndTrapResults : ¬ Obligations.JoinExitAndTrapResults := by
  unfold Obligations.JoinExitAndTrapResults
  rintro ⟨⟨-, -, hwait, -⟩, -⟩
  obtain ⟨-, -, -, hfail⟩ := hwait 0 predictedExit predictedIssuer predictedExit_issues predictedExit_last
  have hclaim := hfail failedCopy [] rfl rfl rfl
  rw [exec_exit_predicted predictedExit_issues predictedExit_last rfl rfl rfl predictedExit_speculative] at hclaim
  have hkept := takeTrap_stall_failed (s := predictedExit) (gid := 0) (n := 0)
    ⟨failedCopy.cause, failedCopy.detail, failedCopy.info, predictedIssuer.active, failedCopy.pc⟩ rfl rfl predictedExit_speculative
  have hfreed := takeTrap_stall_failed
    (s := predictedExit.modGroup 0 fun g => { g with failed := g.failed.filter fun x => x.id ≠ failedCopy.id }) (gid := 0) (n := 0)
    ⟨failedCopy.cause, failedCopy.detail, failedCopy.info, predictedIssuer.active, failedCopy.pc⟩ rfl rfl rfl
  have hsame := hkept.symm.trans ((congrArg (fun t => (State.group t 0).map Group.failed) (Host.Outcome.next.inj hclaim)).trans hfreed)
  exact absurd hsame (by decide)

end Sys2Proof.AddressSpaces
end

section
/-!
PROOFS. Key slots and scrubbing (R70 to R74), start-up (R378, R379), measurements and quotes (R380, R381).
-/

namespace Sys2Proof.AddressSpaces

open Sys2Proof Sys2Proof.Machine Sys2Proof.Claims

/-! ### Bytes -/

theorem leBytes_length (v n : Nat) : (leBytes v n).length = n := by
  induction n generalizing v with
  | zero => rfl
  | succ n ih => simp [leBytes, ih]

/-! ### Keys (R70 to R74) -/

theorem range_find?_lowest {p : Nat → Bool} {n k : Nat} (hk : k < n) (hp : p k = true) (hlow : ∀ j < k, p j = false) :
    (List.range n).find? p = some k := by
  rw [List.find?_range_eq_some]
  exact ⟨hp, List.mem_range.2 hk, fun j hj => by simp [hlow j hj]⟩

theorem exec_keySlotBind_free {s : State} {owner k : Nat} (h : ∀ e ∈ s.keys, e.2.owner = some owner → e.2.retired = true) (hk : k < 63)
    (hfree : (s.keySlot k).free = true) (hlow : ∀ j < k, (s.keySlot j).free = false) :
    exec (.keySlotBind owner) s =
      .next { s with keys := KMap.put s.keys k { KeySlot.reset with owner := some owner }, hostStatus := 0 } := by
  have hnew : (s.keys.any fun e => e.2.owner == some owner && !e.2.retired) = false := by simpa using h
  show Host.Outcome.next _ = _
  rw [if_neg (by simp [hnew]), range_find?_lowest hk hfree hlow]

theorem exec_keySlotBind_none {s : State} {owner : Nat} (h : ∀ e ∈ s.keys, e.2.owner = some owner → e.2.retired = true)
    (hfull : ∀ k < 63, (s.keySlot k).free = false) : exec (.keySlotBind owner) s = .next { s with hostStatus := 2 } := by
  have hnew : (s.keys.any fun e => e.2.owner == some owner && !e.2.retired) = false := by simpa using h
  have hnone : ((List.range 63).find? fun k => (s.keySlot k).free) = none := by simpa using hfull
  show Host.Outcome.next _ = _
  rw [if_neg (by simp [hnew]), hnone]

/-- R73: a slot under which a line is left stays retired. -/
theorem scrubbed_left {s : State} {k line : Nat} (h : (line, k) ∈ s.tags) : s.scrubbed k = s := by
  refine if_neg ?_
  rintro ⟨-, hnone⟩
  have : (s.tags.any fun t => t.2 == k) = true := List.any_eq_true.2 ⟨_, h, by simp⟩
  simp [this] at hnone

theorem exec_keySlotRetire {s : State} {slot o line : Nat} (hs : slot < 63) (ho : (s.keySlot slot).owner = some o)
    (hr : (s.keySlot slot).retired = false) (hl : (line, slot) ∈ s.tags) :
    exec (.keySlotRetire slot) s = .next { s with keys := KMap.put s.keys slot { s.keySlot slot with retired := true } } := by
  have hlive : slot < 63 ∧ (s.keySlot slot).owner.isSome = true ∧ (!(s.keySlot slot).retired) = true := ⟨hs, by simp [ho], by simp [hr]⟩
  exact congrArg Host.Outcome.next ((if_pos hlive).trans (scrubbed_left (line := line) hl))

/-- R73: judging a slot changes key slots and nothing else. -/
theorem scrubbed_only (s : State) (k : Nat) : s.scrubbed k = { s with keys := (s.scrubbed k).keys } := by
  unfold State.scrubbed; split <;> rfl

theorem scrub_unretired {s : State} {line : Nat} (h : (s.keySlot (s.lineTag line)).retired = false) : s.scrub line = s := by
  simp [State.scrub, h]

theorem scrub_hbm {s : State} {line : Nat} (h : (s.keySlot (s.lineTag line)).retired = true)
    (hn : isSecondTier (localOf (line * 128)) = false) :
    s.scrub line = ({ s with mem := Mem.clear s.mem (s.slotAddr true (line * 128)) (s.slotAddr true (line * 128) + 128)
                             tags := KMap.del s.tags line } : State).scrubbed (s.lineTag line) := by
  simp [State.scrub, h, hn]

theorem exec_scrubLine_hbm {s : State} {line : Nat} (hm : s.MemOk) (h : (s.keySlot (s.lineTag line)).retired = true)
    (hn : isSecondTier (localOf (line * 128)) = false) :
    ∃ t, exec (.scrubLine line) s = .next t ∧ t = { s with mem := t.mem, tags := KMap.del s.tags line, keys := t.keys } ∧
      ∀ a, Mem.get t.mem a = if s.slotAddr true (line * 128) ≤ a ∧ a < s.slotAddr true (line * 128) + 128 then 0 else Mem.get s.mem a := by
  refine ⟨_, congrArg Host.Outcome.next (scrub_hbm h hn), ?_, fun a => ?_⟩
  · rw [scrubbed_only]
  · rw [scrubbed_only]
    exact Mem_get_clear hm.1 _ _ a

/-! ### Start-up (R378, R379) -/

/-- A start from a state in which no step is recorded finds none recorded. -/
theorem restarted_unrecorded {s : State} (hd : s.bootDone = 0) (hf : s.bootFail = 0) :
    s.restarted.bootDone = 0 ∧ s.restarted.bootFail = 0 := by
  unfold State.restarted; split
  · exact ⟨rfl, rfl⟩
  · exact ⟨hd, hf⟩

theorem restarted_bootAlt {s : State} (ha : s.bootAlt = 0) : s.restarted.bootAlt = 0 := by
  unfold State.restarted; split
  · rfl
  · exact ha

theorem restarted_empty (s : State) : s.restarted.groups = [] ∧ s.restarted.launches = [] ∧ s.restarted.meas = [] := by
  unfold State.restarted; split <;> exact ⟨rfl, rfl, rfl⟩

/-- R378: the first `n` steps of a start. -/
def bootSteps (b : BootFaults) (s : State) (n : Nat) : State := (List.range n).foldl (State.bootStep b) s

theorem exec_packageStart (p a parts : Nat) (s : State) :
    exec (.packageStart p a parts) s = .next (bootSteps ⟨p, a, parts⟩ s.restarted 10) := rfl

theorem bootSteps_zero (b : BootFaults) (s : State) : bootSteps b s 0 = s := rfl

theorem bootSteps_succ (b : BootFaults) (s : State) (n : Nat) : bootSteps b s (n + 1) = State.bootStep b (bootSteps b s n) n := by
  simp [bootSteps, List.range_succ]

/-- What the work of a step leaves alone: contexts and launches always, and else what belongs to another step. -/
theorem bootWork_frame (s : State) (b : BootFaults) (k : Nat) :
    (s.bootWork b k).groups = s.groups ∧ (s.bootWork b k).launches = s.launches ∧
    (k ≠ 0 → (s.bootWork b k).meas = s.meas) ∧
    (k ≠ 2 → (s.bootWork b k).mem = s.mem ∧ (s.bootWork b k).tags = s.tags ∧ (s.bootWork b k).keys = s.keys) ∧
    (k ≠ 3 → (s.bootWork b k).scratch = s.scratch) ∧ (k ≠ 2 → k ≠ 3 → (s.bootWork b k).islands = s.islands) ∧
    (k ≠ 4 → (s.bootWork b k).clusters = s.clusters) ∧ (k ≠ 8 → (s.bootWork b k).devnum = s.devnum) := by
  unfold State.bootWork State.bootFirmware
  split
  case h_1 => split <;> simp [State.extend]
  case h_7 => split <;> simp
  all_goals simp

theorem bootStep_skipped {s : State} {k : Nat} (b : BootFaults) (h : bootSkips s.bootDone s.bootFail k = true) :
    State.bootStep b s k = if k = 3 ∧ !s.bootDone.getLsbD 3 then { s with scratch := [] } else s := by
  unfold State.bootStep; rw [if_pos h]

/-- R379: BOOTPR's bit for step `k` set, or cleared. -/
def recordBit (x : BitVec 16) (k : Nat) (p : Bool) : BitVec 16 := if p then x ||| 1#16 <<< k else x &&& ~~~(1#16 <<< k)

theorem getLsbD_recordBit (x : BitVec 16) (n : Nat) (p : Bool) {k : Nat} (hk : k < 16) :
    (recordBit x n p).getLsbD k = if k = n then p else x.getLsbD k := by
  have hbit : (1#16 <<< n).getLsbD k = decide (k = n) := by
    rw [BitVec.getLsbD_shiftLeft, BitVec.getLsbD_one, Bool.eq_iff_iff]
    simp
    omega
  cases p
  · simp only [recordBit, Bool.false_eq_true, if_false, BitVec.getLsbD_and, BitVec.getLsbD_not, hk, decide_true, Bool.true_and, hbit]
    split <;> simp [*]
  · simp only [recordBit, if_true, BitVec.getLsbD_or, hbit]
    split <;> simp [*]

/-- R379: a step that is not skipped does its work and is recorded. -/
theorem bootStep_run {s : State} {k : Nat} (b : BootFaults) (h : bootSkips s.bootDone s.bootFail k = false) :
    State.bootStep b s k = { s.bootWork b k with
      bootLast := k
      bootAlt := recordBit s.bootAlt k (b.primary.testBit k && !b.fails k && k != 9)
      bootFail := recordBit s.bootFail k (b.fails k)
      bootDone := recordBit s.bootDone k (!b.fails k) } := by
  unfold State.bootStep
  rw [if_neg (by simp [h])]
  cases b.fails k <;> simp [recordBit]

/-- A part of the state that neither the work of step `k` nor the record of it changes. -/
theorem bootStep_fixes {α : Type} (f : State → α) (b : BootFaults) (s : State) (k : Nat) (hwork : f (s.bootWork b k) = f s)
    (hrecord : ∀ (t : State) (l : Nat) (x y z : BitVec 16), f { t with bootLast := l, bootAlt := x, bootFail := y, bootDone := z } = f t)
    (hscratch : k = 3 → f { s with scratch := [] } = f s) : f (State.bootStep b s k) = f s := by
  cases h : bootSkips s.bootDone s.bootFail k with
  | true =>
    rw [bootStep_skipped b h]
    split
    · exact hscratch (And.left ‹_›)
    · rfl
  | false => rw [bootStep_run b h, hrecord, hwork]

/-- A part of the state that no step from the `m`th on changes is as the first `m` steps left it. -/
theorem bootSteps_fixes {α : Type} (f : State → α) (b : BootFaults) (s : State) {m n : Nat} (hmn : m ≤ n)
    (h : ∀ t k, m ≤ k → f (State.bootStep b t k) = f t) : f (bootSteps b s n) = f (bootSteps b s m) := by
  induction n, hmn using Nat.le_induction with
  | base => rfl
  | succ n hmn ih => rw [bootSteps_succ, h _ _ hmn, ih]

/-! ### The record of a start (R379) -/

/-- R379: BOOTPR records the steps below `n`, and no other as done or failed. -/
def BootRecord (b : BootFaults) (n : Nat) (s : State) : Prop :=
  ∀ k < 10, (k < n → s.bootFail.getLsbD k = b.fails k ∧ s.bootDone.getLsbD k = !b.fails k ∧
      s.bootAlt.getLsbD k = (b.primary.testBit k && !b.fails k && k != 9)) ∧
    (n ≤ k → s.bootDone.getLsbD k = false ∧ s.bootFail.getLsbD k = false)

theorem bootRecord_none {s : State} (b : BootFaults) (hd : s.bootDone = 0) (hf : s.bootFail = 0) : BootRecord b 0 s :=
  fun k _ => ⟨fun h => absurd h (Nat.not_lt_zero k), fun _ => by simp [hd, hf]⟩

theorem BootRecord.runs {b : BootFaults} {n : Nat} {s : State} (h : BootRecord b n s) (hn : n < 10) :
    bootSkips s.bootDone s.bootFail n = false := by
  obtain ⟨hdone, hfail⟩ := (h n hn).2 le_rfl
  simp [bootSkips, hdone, hfail]

theorem BootRecord.step {b : BootFaults} {n : Nat} {s : State} (h : BootRecord b n s) (hn : n < 10) :
    BootRecord b (n + 1) (State.bootStep b s n) := by
  rw [bootStep_run b (h.runs hn)]
  intro k hk
  have hk16 : k < 16 := by omega
  obtain ⟨hbelow, habove⟩ := h k hk
  simp only [getLsbD_recordBit _ _ _ hk16]
  rcases Nat.lt_trichotomy k n with hlt | rfl | hgt
  · exact ⟨fun _ => by simpa only [if_neg (Nat.ne_of_lt hlt)] using hbelow hlt, fun hc => by omega⟩
  · exact ⟨fun _ => by simp only [if_true, and_self], fun hc => by omega⟩
  · exact ⟨fun hc => by omega, fun _ => by simpa only [if_neg (Nat.ne_of_gt hgt)] using habove (by omega)⟩

theorem bootSteps_record {b : BootFaults} {s : State} (h : BootRecord b 0 s) {n : Nat} (hn : n ≤ 10) : BootRecord b n (bootSteps b s n) := by
  induction n with
  | zero => exact h
  | succ n ih => rw [bootSteps_succ]; exact (ih (by omega)).step (by omega)

/-- The step `n` of a start that found nothing recorded does its work. -/
theorem bootSteps_run {b : BootFaults} {s : State} (h : BootRecord b 0 s) {n : Nat} (hn : n < 10) :
    ∃ l x y z, bootSteps b s (n + 1) = { (bootSteps b s n).bootWork b n with bootLast := l, bootAlt := x, bootFail := y, bootDone := z } := by
  rw [bootSteps_succ, bootStep_run b ((bootSteps_record h (Nat.le_of_lt hn)).runs hn)]
  exact ⟨_, _, _, _, rfl⟩

/-! ### What a start leaves -/

theorem bootSteps_resident (b : BootFaults) (s : State) :
    (bootSteps b s 10).groups = s.groups ∧ (bootSteps b s 10).launches = s.launches :=
  ⟨bootSteps_fixes State.groups b s (Nat.zero_le 10) fun t k _ =>
      bootStep_fixes State.groups b t k (bootWork_frame t b k).1 (fun _ _ _ _ _ => rfl) fun _ => rfl,
    bootSteps_fixes State.launches b s (Nat.zero_le 10) fun t k _ =>
      bootStep_fixes State.launches b t k (bootWork_frame t b k).2.1 (fun _ _ _ _ _ => rfl) fun _ => rfl⟩

/-- Step 9 runs at every start: it starts the calendar. -/
theorem bootSteps_last (b : BootFaults) (s : State) : (bootSteps b s 10).caln = 0 ∧ (bootSteps b s 10).bootLast = 9 := by
  rw [bootSteps_succ, bootStep_run b (by simp [bootSkips])]
  exact ⟨rfl, rfl⟩

/-- R380: step 0 measures the firmware that it starts, and no other step measures. -/
theorem bootSteps_meas {b : BootFaults} {s : State} (h : BootRecord b 0 s) : (bootSteps b s 10).meas = (s.bootFirmware b).meas := by
  rw [bootSteps_fixes State.meas b s (m := 1) (by omega) fun t k hk => ?_]
  · obtain ⟨l, x, y, z, hrun⟩ := bootSteps_run h (n := 0) (by omega)
    rw [hrun]
    rfl
  · obtain ⟨-, -, hmeas, -⟩ := bootWork_frame t b k
    exact bootStep_fixes State.meas b t k (hmeas (by omega)) (fun _ _ _ _ _ => rfl) fun _ => rfl

/-- R378: step 2 clears the domain memory with its tags and keys, and step 3 the scratch. -/
theorem bootSteps_memories {b : BootFaults} {s : State} (h : BootRecord b 0 s) :
    (bootSteps b s 10).mem = [] ∧ (bootSteps b s 10).tags = [] ∧ (bootSteps b s 10).keys = [] ∧ (bootSteps b s 10).scratch = [] := by
  obtain ⟨l, x, y, z, hrun⟩ := bootSteps_run h (n := 2) (by omega)
  have hframe : ∀ t k, 3 ≤ k → ((State.bootStep b t k).mem, (State.bootStep b t k).tags, (State.bootStep b t k).keys) = (t.mem, t.tags, t.keys) := by
    intro t k hk
    obtain ⟨-, -, -, hmem, -⟩ := bootWork_frame t b k
    obtain ⟨h1, h2, h3⟩ := hmem (by omega)
    exact bootStep_fixes (fun t => (t.mem, t.tags, t.keys)) b t k (by rw [h1, h2, h3]) (fun _ _ _ _ _ => rfl) fun _ => rfl
  have hmem := bootSteps_fixes (fun t => (t.mem, t.tags, t.keys)) b s (m := 3) (n := 10) (by omega) hframe
  rw [hrun] at hmem
  simp only [State.bootWork, Prod.mk.injEq] at hmem
  refine ⟨hmem.1, hmem.2.1, hmem.2.2, ?_⟩
  obtain ⟨l, x, y, z, hrun⟩ := bootSteps_run h (n := 3) (by omega)
  rw [bootSteps_fixes State.scratch b s (m := 4) (by omega) fun t k hk => ?_, hrun]
  · rfl
  · obtain ⟨-, -, -, -, hscratch, -⟩ := bootWork_frame t b k
    exact bootStep_fixes State.scratch b t k (hscratch (by omega)) (fun _ _ _ _ _ => rfl) fun hk3 => by omega

/-- R378: a start without a failure puts every island in service. -/
theorem bootSteps_islands {b : BootFaults} {s : State} (h : BootRecord b 0 s) (hb : ∀ k, b.fails k = false) :
    (bootSteps b s 10).islands = [0, 1, 2, 3] := by
  obtain ⟨l, x, y, z, hrun2⟩ := bootSteps_run h (n := 2) (by omega)
  obtain ⟨l', x', y', z', hrun3⟩ := bootSteps_run h (n := 3) (by omega)
  rw [bootSteps_fixes State.islands b s (m := 4) (by omega) fun t k hk => ?_, hrun3, hrun2]
  · simp [State.bootWork, hb, List.range_succ]
  · obtain ⟨-, -, -, -, -, hislands, -⟩ := bootWork_frame t b k
    exact bootStep_fixes State.islands b t k (hislands (by omega) (by omega)) (fun _ _ _ _ _ => rfl) fun _ => rfl

theorem bootSteps_devnum {b : BootFaults} {s : State} (h : BootRecord b 0 s) (hb : b.fails 8 = false) :
    (bootSteps b s 10).devnum = Config.deviceNumber % Config.devices := by
  obtain ⟨l, x, y, z, hrun⟩ := bootSteps_run h (n := 8) (by omega)
  rw [bootSteps_fixes State.devnum b s (m := 9) (by omega) fun t k hk => ?_, hrun]
  · simp [State.bootWork, hb]
  · obtain ⟨-, -, -, -, -, -, -, hdevnum⟩ := bootWork_frame t b k
    exact bootStep_fixes State.devnum b t k (hdevnum (by omega)) (fun _ _ _ _ _ => rfl) fun _ => rfl

/-- A map in which each key below `n` has been given a value made from the one it had. -/
theorem getD_foldl_put {α : Type} (f : Nat → α → α) (d : α) (m : KMap α) {n c : Nat} (hc : c < n) :
    ∃ x, KMap.getD ((List.range n).foldl (fun m c => KMap.put m c (f c (KMap.getD m c d))) m) c d = f c x := by
  induction n with
  | zero => exact absurd hc (Nat.not_lt_zero c)
  | succ n ih =>
    rw [List.range_succ, List.foldl_append, List.foldl_cons, List.foldl_nil, KMap.getD_put]
    by_cases h : c = n
    · exact ⟨_, by rw [if_pos h, h]⟩
    · rw [if_neg h]; exact ih (by omega)

/-- R378: step 4 judges each cluster. -/
def bootCluster (b : BootFaults) (c : Nat) (x : Cluster) : Cluster := { x with service := !(b.fails 4 && b.parts.testBit (16 + c)) }

theorem bootWork_clusters (s : State) (b : BootFaults) : (s.bootWork b 4).clusters =
    (List.range 48).foldl (fun m c => KMap.put m c (bootCluster b c (KMap.getD m c Cluster.reset))) s.clusters := by
  simp only [State.bootWork, bootCluster]

theorem bootSteps_service {b : BootFaults} {s : State} (h : BootRecord b 0 s) (hb : b.fails 4 = false) {c : Nat} (hc : c < 48) :
    ((bootSteps b s 10).cluster c).service = true := by
  obtain ⟨l, x, y, z, hrun⟩ := bootSteps_run h (n := 4) (by omega)
  have hclusters : (bootSteps b s 10).clusters = ((bootSteps b s 4).bootWork b 4).clusters := by
    rw [bootSteps_fixes State.clusters b s (m := 5) (by omega) fun t k hk => ?_, hrun]
    obtain ⟨-, -, -, -, -, -, hcl, -⟩ := bootWork_frame t b k
    exact bootStep_fixes State.clusters b t k (hcl (by omega)) (fun _ _ _ _ _ => rfl) fun _ => rfl
  obtain ⟨x, hx⟩ := getD_foldl_put (bootCluster b) Cluster.reset (bootSteps b s 4).clusters hc
  rw [State.cluster, hclusters, bootWork_clusters, hx]
  simp [bootCluster, hb]

/-- R378: nothing fails in a start of which no primary method fails. -/
theorem fails_of_primary {b : BootFaults} {k : Nat} (h : b.primary.testBit k = false) : b.fails k = false := by
  simp [BootFaults.fails, h]

/-! ### Measurements and quotes (R380, R381) -/

theorem measure_extend (s : State) (i j : Nat) (image : List Byte) :
    (s.extend i image).measure j = if j = i then sha512 (s.measure i ++ sha512 image) else s.measure j := by
  rw [State.measure, State.extend, KMap.getD_put]
  rfl

theorem measure_unmeasured {s : State} (h : s.meas = []) (j : Nat) : s.measure j = List.replicate 64 0 := by
  rw [State.measure, h]; rfl

/-- R380: what step 0 leaves in the measurement registers. -/
theorem measure_bootFirmware {s : State} (h : s.meas = []) (b : BootFaults) (j : Nat) : (s.bootFirmware b).measure j =
    (let first (image : List Byte) : List Byte := sha512 (List.replicate 64 0 ++ sha512 image)
     if b.fails 0 then if j = 1 then first Config.managementFirmware else List.replicate 64 0
     else if j = 2 then first Config.homeFirmware
     else if j = 1 then first Config.managementFirmware
     else if j = 0 then first (if b.primary.testBit 0 then Config.recoveryImage else Config.bootFirmware)
     else List.replicate 64 0) := by
  unfold State.bootFirmware
  split <;> simp [measure_extend, measure_unmeasured h]

theorem exec_packageStart_measure {s : State} (hd : s.bootDone = 0) (hf : s.bootFail = 0) (b : BootFaults) (j : Nat) :
    (bootSteps b s.restarted 10).measure j = (s.restarted.bootFirmware b).measure j := by
  obtain ⟨hd', hf'⟩ := restarted_unrecorded hd hf
  rw [State.measure, bootSteps_meas (bootRecord_none b hd' hf')]
  rfl

theorem exec_measurementExtend {s : State} {i : Nat} (image : List Byte) (hi : i < 8) :
    ∃ t, exec (.measurementExtend i image) s = .next t ∧ t = { s with meas := t.meas } ∧
      t.measure i = sha512 (s.measure i ++ sha512 image) ∧ ∀ j, j ≠ i → t.measure j = s.measure j :=
  ⟨s.extend i image, congrArg Host.Outcome.next (if_pos hi), rfl, by simp [measure_extend], fun j hj => by simp [measure_extend, hj]⟩

/-- R381: the eight measurement registers of a quote. -/
theorem quoted_measures_length {s : State} (h : ∀ i < 8, (s.measure i).length = 64) : ((List.range 8).flatMap s.measure).length = 512 := by
  simp [List.range_succ, h]

theorem quoteBody_take (s : State) (nonce : List Byte) (rest : List Byte) :
    (s.quoteBody nonce ++ rest).take 64 = (List.range 64).map (nonce.getD · 0) := by
  simp only [State.quoteBody, List.append_assoc]
  exact List.take_left' (by simp)

/-- R381: the body of a quote before BOOTPR has 576 bytes. -/
theorem quoteBody_drop {s : State} (h : ∀ i < 8, (s.measure i).length = 64) (nonce rest : List Byte) :
    (s.quoteBody nonce ++ rest).drop 576 = leBytes s.bootpr 8 ++ (leBytes s.devnum 2 ++ (List.replicate 6 0 ++ rest)) := by
  simp only [State.quoteBody, List.append_assoc]
  rw [← List.append_assoc]
  exact List.drop_left' (by rw [List.length_append, quoted_measures_length h]; simp)

theorem exec_quoteRequest (s : State) (nonce : List Byte) : ∃ t, exec (.quoteRequest nonce) s = .next t ∧ t = { s with quote := t.quote } ∧
    t.quote.take 64 = (List.range 64).map (nonce.getD · 0) ∧
    ((∀ i < 8, (s.measure i).length = 64) → t.quote.length = 724 ∧
      (t.quote.drop 576).take 8 = leBytes s.bootpr 8 ∧ (t.quote.drop 584).take 2 = leBytes s.devnum 2) := by
  refine ⟨_, rfl, rfl, quoteBody_take s nonce _, fun h => ⟨?_, ?_, ?_⟩⟩
  · simp [State.quoteBody, quoted_measures_length h, leBytes_length]
  · rw [quoteBody_drop h]
    exact List.take_left' (leBytes_length _ _)
  · rw [show 584 = 576 + 8 from rfl, ← List.drop_drop, quoteBody_drop h, List.drop_left' (leBytes_length _ _)]
    exact List.take_left' (leBytes_length _ _)

/-- Settles O52: each step of a start that found nothing recorded runs, so that what one step sets stays as the later ones leave it. -/
theorem keyStartAndMeasureSteps : Obligations.KeyStartAndMeasureSteps := by
  unfold Obligations.KeyStartAndMeasureSteps
  refine ⟨⟨fun s owner h => ⟨fun k hk hfree hlow => exec_keySlotBind_free h hk hfree hlow, exec_keySlotBind_none h⟩,
      fun s slot o line hs ho hr hl => exec_keySlotRetire hs ho hr hl, fun s line h => congrArg Host.Outcome.next (scrub_unretired h),
      fun s line hm h hn => exec_scrubLine_hbm hm h hn⟩, fun s p a parts hd hf _ => ?_, fun s hd hf => ?_, fun s hd hf => ⟨?_, ?_⟩,
    fun s i image hi => exec_measurementExtend image hi, exec_quoteRequest⟩ <;>
    obtain ⟨hd', hf'⟩ := restarted_unrecorded hd hf <;> obtain ⟨hgroups, hlaunches, hmeas⟩ := restarted_empty s
  · have hrecord := bootSteps_record (bootRecord_none ⟨p, a, parts⟩ hd' hf') le_rfl
    obtain ⟨hg, hl⟩ := bootSteps_resident ⟨p, a, parts⟩ s.restarted
    obtain ⟨hcaln, hlast⟩ := bootSteps_last ⟨p, a, parts⟩ s.restarted
    exact ⟨_, exec_packageStart p a parts s, hcaln, hg.trans hgroups, hl.trans hlaunches, hlast, fun k hk => (hrecord k hk).1 hk⟩
  · have hb : ∀ k, (⟨0, 0, 0⟩ : BootFaults).fails k = false := fun k => fails_of_primary (Nat.zero_testBit k)
    have hnone := bootRecord_none ⟨0, 0, 0⟩ hd' hf'
    obtain ⟨hmem, htags, hkeys, hscratch⟩ := bootSteps_memories hnone
    refine ⟨_, exec_packageStart 0 0 0 s, hmem, htags, hkeys, hscratch, bootSteps_islands hnone hb, ?_, ?_, ?_, bootSteps_devnum hnone (hb 8),
      fun c hc => bootSteps_service hnone (hb 4) hc⟩ <;>
      rw [exec_packageStart_measure hd hf, measure_bootFirmware hmeas] <;> simp [hb]
  · refine ⟨_, exec_packageStart 1 0 0 s, ?_⟩
    rw [exec_packageStart_measure hd hf, measure_bootFirmware hmeas]
    simp [BootFaults.fails]
  · refine ⟨_, exec_packageStart 1 1 0 s, ?_, fun j hj => ?_⟩ <;>
      rw [exec_packageStart_measure hd hf, measure_bootFirmware hmeas] <;> simp [BootFaults.fails, *]

end Sys2Proof.AddressSpaces
end

section
/-!
PROOFS. PF, PREAD, PWRITE, PROMOTE and DISCARD (R65, R107, R141, R142, R166, R168, R384).
-/

namespace Sys2Proof.AddressSpaces

open Sys2Proof Sys2Proof.Machine Sys2Proof.Claims

/-! ### PF, PREAD, PWRITE -/

theorem exec_pf (s : State) (fn : Nat) {line : Nat} (hline : line < prefBound) : exec (.pf (prefName fn line)) s = .next (
    if s.hbmShut (line * 128) = true then s.holdStep ⟨.pf (prefName fn line), 0, []⟩
    else if s.poisoned (line * 128) = true then s else s.cacheLine fn (line * 128)) := by
  have hmod : prefName fn line % prefBound = line := by rw [prefName, Nat.mul_comm, Nat.mul_add_mod, Nat.mod_eq_of_lt hline]
  have hdiv : prefName fn line / prefBound = fn := by
    rw [prefName, Nat.mul_comm, Nat.mul_add_div (Nat.zero_lt_of_lt hline), Nat.div_eq_of_lt hline, Nat.add_zero]
  show execPf _ s = _
  simp only [execPf, hmod, hdiv]

theorem preadStep_serves {s : State} {q : Nat} {r : Req} {o : EngOp} {a : Nat} (hs : s.canServe q = some (r, o, a)) (ht : r.tag ≠ none)
    (hh : r.handle = 0) (hw : r.kind.writes = false) : s.preadStep q =
      if s.reqPoisoned r a = true then s.refuse q 5 0 0 else (s.useLines o r a).perform q r o (.dpa a) := by
  simp [State.preadStep, hs, Option.isSome_iff_ne_none.2 ht, hh, hw]

theorem pwriteStep_serves {s : State} {q : Nat} {r : Req} {o : EngOp} {a d j : Nat} (hs : s.canServe q = some (r, o, a))
    (ht : r.tag = some (d, j)) (hh : r.handle = 0) (hw : r.kind.writes = true) : s.pwriteStep q =
      if s.reqPoisoned r a = true then s.refuse q 5 0 0
      else if s.reqRoom r o d j a = true then ((s.useLines o r a).perform q r o (.dpa a)).freeIssuer o else s.stallIssuer o 10 := by
  simp [State.pwriteStep, hs, ht, hh, hw]

/-! ### PROMOTE -/

/-- R87: where lines are homed goes by the device number, the islands in service and the partitions. -/
def SameHomes (s t : State) : Prop := t.devnum = s.devnum ∧ t.islands = s.islands ∧ t.partitions = s.partitions

theorem SameHomes.refl (s : State) : SameHomes s s := ⟨rfl, rfl, rfl⟩

theorem SameHomes.trans {s t u : State} (hst : SameHomes s t) (htu : SameHomes t u) : SameHomes s u :=
  ⟨htu.1.trans hst.1, htu.2.1.trans hst.2.1, htu.2.2.trans hst.2.2⟩

theorem SameHomes.homeOf {s t : State} (h : SameHomes s t) (fn dpa : Nat) : t.homeOf fn dpa = s.homeOf fn dpa := by
  obtain ⟨hdev, hislands, hparts⟩ := h
  simp only [State.homeOf, State.partIslands, State.islandPart, State.fnPart, hdev, hislands, hparts]

theorem memPut_sameHomes (s : State) (o line : Nat) (bs : List (Nat × Byte)) : SameHomes s (s.memPut o line bs) := by
  rw [memPut_only]; exact ⟨rfl, rfl, rfl⟩

theorem OnlyRefutes.sameHomes {s t : State} (h : OnlyRefutes s t) : SameHomes s t := by
  rw [h]; exact ⟨rfl, rfl, rfl⟩

/-- R168: one version enters its line, and the write is served. -/
def promoteVersion (d : Nat) (s : State) (v : Version) : State :=
  (s.memPut (s.func v.fn).owner v.line (v.bytes.map fun b => (v.line * 128 + b.1, b.2))).touch (some d) (.dpa (v.line * 128))

theorem promoteStep_promotes {s : State} {d j : Nat} (h : s.mayPromote d j = true) (home : Nat) : s.promoteStep d j home =
    (let s1 := (s.versions.filter fun v => v.duc == d && v.k == j && s.homeOf v.fn (v.line * 128) == home).foldl (promoteVersion d) s
     { s1 with versions := s1.versions.filter fun v => !(v.duc == d && v.k == j && s.homeOf v.fn (v.line * 128) == home) }) := by
  unfold State.promoteStep
  rw [if_pos h]
  rfl

theorem promoteVersion_sameHomes (d : Nat) (s : State) (v : Version) : SameHomes s (promoteVersion d s v) :=
  (memPut_sameHomes s _ _ _).trans (touch_onlyRefutes _ _ _).sameHomes

/-- R168: PROMOTE frees every version of the prediction at the home. -/
theorem exec_promote_frees {s : State} {d j : Nat} (h : s.mayPromote d j = true) (home : Nat) : ∃ t, exec (.promote d j home) s = .next t ∧
    ∀ v ∈ t.versions, ¬(v.duc = d ∧ v.k = j ∧ t.homeOf v.fn (v.line * 128) = home) := by
  refine ⟨_, congrArg Host.Outcome.next (promoteStep_promotes h home), fun v hv => ?_⟩
  generalize (s.versions.filter fun v => v.duc == d && v.k == j && s.homeOf v.fn (v.line * 128) == home) = vs at hv ⊢
  have hhomes : SameHomes s (vs.foldl (promoteVersion d) s) :=
    foldl_related SameHomes.refl SameHomes.trans (promoteVersion_sameHomes d) vs s
  have hkept := (List.mem_filter.1 hv).2
  rintro ⟨hd, hj, hhome⟩
  have hhome' : s.homeOf v.fn (v.line * 128) = home := (SameHomes.homeOf hhomes _ _).symm.trans hhome
  simp [hd, hj, hhome'] at hkept

/-- R168: a home's one version gives its line's current slot the version's bytes, and no other byte changes. -/
theorem exec_promote_one {s : State} {d j home : Nat} {v : Version} (h : s.mayPromote d j = true)
    (hv : (s.versions.filter fun w => w.duc == d && w.k == j && s.homeOf w.fn (w.line * 128) == home) = [v]) (hm : Mem.wf s.mem = true)
    (hlo : s.shlo % 128 = 0) (hhi : s.shhi % 128 = 0) (hbs : ∀ b ∈ v.bytes, b.1 < 128) :
    ∃ t, exec (.promote d j home) s = .next t ∧
     (let o := (s.func v.fn).owner
      t.lineTag v.line = s.tagOf (devOf (v.line * 128)) o ∧
      (∀ i, i < 128 → Mem.get t.mem (s.slotAddr true (v.line * 128 + i)) =
        ((v.bytes.reverse.find? fun b => b.1 == i).map Prod.snd).getD (s.memGet o (v.line * 128 + i))) ∧
      ∀ x, (∀ i, i < 128 → x ≠ s.slotAddr true (v.line * 128 + i)) → Mem.get t.mem x = Mem.get s.mem x) := by
  have hstep := promoteStep_promotes h home
  rw [hv] at hstep
  have htouch := touch_onlyRefutes (s.memPut (s.func v.fn).owner v.line (v.bytes.map fun b => (v.line * 128 + b.1, b.2))) (some d)
    (.dpa (v.line * 128))
  have hmem : (promoteVersion d s v).mem = (s.memPut (s.func v.fn).owner v.line (v.bytes.map fun b => (v.line * 128 + b.1, b.2))).mem := by
    rw [promoteVersion, htouch]
  have htags : (promoteVersion d s v).tags = (s.memPut (s.func v.fn).owner v.line (v.bytes.map fun b => (v.line * 128 + b.1, b.2))).tags := by
    rw [promoteVersion, htouch]
  obtain ⟨hin, hout⟩ := memPut_line hm hlo hhi (s.func v.fn).owner v.line hbs
  refine ⟨_, congrArg Host.Outcome.next hstep, ?_, fun i hi => ?_, fun x hx => ?_⟩
  · show KMap.getD (promoteVersion d s v).tags v.line 63 = _
    rw [htags]
    exact memPut_lineTag s _ _ _
  · show Mem.get (promoteVersion d s v).mem _ = _
    rw [hmem]
    exact hin i hi
  · show Mem.get (promoteVersion d s v).mem _ = _
    rw [hmem]
    exact hout x hx

/-! ### DISCARD -/

theorem exec_discard {s : State} {d j : Nat} (h : s.mayDiscard d j = true) (home : Nat) : ∃ t, exec (.discard d j home) s = .next t ∧
    t = { s with versions := t.versions } ∧ SameBytes s t ∧
    ∀ v, v ∈ t.versions ↔ v ∈ s.versions ∧ ¬(v.duc = d ∧ v.k = j ∧ s.homeOf v.fn (v.line * 128) = home) := by
  refine ⟨_, congrArg Host.Outcome.next (if_pos h), rfl, fun o l => ?_, fun v => ?_⟩
  · cases l <;> rfl
  · simp [List.mem_filter, imp_iff_not_or, or_assoc]

/-- Settles O40: each step is its definition where it is enabled; PROMOTE by what a write of one line leaves. -/
theorem speculativeSteps : Obligations.SpeculativeSteps := by
  unfold Obligations.SpeculativeSteps
  exact ⟨fun s fn line _ hline => exec_pf s fn hline, fun s q r o a hs ht hh hw => congrArg Host.Outcome.next (preadStep_serves hs ht hh hw),
    fun s q r o a d j hs ht hh hw => congrArg Host.Outcome.next (pwriteStep_serves hs ht hh hw),
    fun s d j home h => exec_promote_frees h home, fun s d j home v h hv hm hlo hhi hbs => exec_promote_one h hv hm hlo hhi hbs,
    fun s d j home h => exec_discard h home⟩

end Sys2Proof.AddressSpaces
end

section
/-!
PROOFS. Switching contexts out and in, and removing a function (R68, R69, R78, R359, R362 to R365).
-/

namespace Sys2Proof.AddressSpaces

open Sys2Proof Sys2Proof.Machine Sys2Proof.Claims

/-! ### Maps -/

theorem get_mapVals {α : Type} (m : KMap α) (f : α → α) (k : Nat) : KMap.get (m.map fun e => (e.1, f e.2)) k = (KMap.get m k).map f := by
  induction m with
  | nil => rfl
  | cons e m ih =>
    obtain ⟨a, x⟩ := e
    simp only [List.map_cons, KMap.get, ih]
    split <;> rfl

theorem get_filterKeys {α : Type} (m : KMap α) (p : Nat → Bool) (k : Nat) :
    KMap.get (m.filter fun e => p e.1) k = if p k then KMap.get m k else none := by
  induction m with
  | nil => simp [KMap.get]
  | cons e m ih =>
    obtain ⟨a, x⟩ := e
    rw [List.filter_cons]
    by_cases hk : k = a
    · subst hk
      cases hp : p k <;> simp [KMap.get, ih, hp]
    · cases hp : p a <;> simp [KMap.get, ih, hk]

/-! ### Switching out (R68, R363) -/

theorem exec_contextSwitchOut {s : State} {fn : Nat} (h : (s.func fn).ctxGo = false) :
    exec (.contextSwitchOut fn) s = .next ((s.leave fn fun _ => true).modFunc fn fun f =>
      { f with ctxGo := true, ctxOp := 1, saved := { f.saved with auto := false } }) :=
  congrArg Host.Outcome.next (if_neg (by simp [h]))

/-- R373: what taking sectors into the landing buffer can change. -/
def OnlyLands (s t : State) : Prop :=
  t = { s with ops := t.ops, nextOp := t.nextOp, sheaves := t.sheaves, reqs := t.reqs, landing := t.landing, landWait := t.landWait }

theorem OnlyLands.refl (s : State) : OnlyLands s s := rfl

theorem OnlyLands.trans {s t u : State} (hst : OnlyLands s t) (htu : OnlyLands t u) : OnlyLands s u := by
  unfold OnlyLands at *
  exact htu.trans (by rw [hst])

theorem landed_onlyLands (s : State) (q : Nat) (r : Req) (o : EngOp) : OnlyLands s (s.landed q r o) := by
  unfold State.landed
  split <;> rfl

theorem landingTake_onlyLands (s : State) (q : Nat) (r : Req) (o : EngOp) (c f : Nat) : OnlyLands s (s.landingTake q r o c f) := by
  unfold State.landingTake
  split
  · have hstage : OnlyLands s (s.setStage q (.landing f)) := rfl
    exact (hstage.trans (landed_onlyLands _ q r o)).trans rfl
  · rfl

theorem landQueued_onlyLands (s : State) : OnlyLands s s.landQueued := by
  refine foldl_related OnlyLands.refl OnlyLands.trans (fun s e => ?_) _ s
  split
  · split
    · exact landingTake_onlyLands s _ _ _ _ _
    · exact OnlyLands.refl s
  · exact OnlyLands.refl s

/-- R363: what a context becomes that has been saved. -/
def savedGroup (g : Group) : Group := { g.reactivateAll with presence := .away }

def vacatedGroup (s : State) (fn : Nat) (g : Group) : Group := if s.fnOf g = fn ∧ g.presence = .leaving then savedGroup g else g

/-- R363: the function's leaving contexts are out, and their units lend nothing. -/
def vacated (s : State) (fn : Nat) : State :=
  { s with
    groups := s.groups.map fun e => (e.1, vacatedGroup s fn e.2)
    reserve := (s.leavers fn).foldl (fun m e => if e.2.quill then m else KMap.put m (8 * e.2.core + e.2.sub) false) s.reserve }

theorem vacated_group (s : State) (fn g : Nat) : (vacated s fn).group g = (s.group g).map (vacatedGroup s fn) :=
  get_mapVals s.groups (vacatedGroup s fn) g

/-- R363: the saved contexts' images are written, and the switch out that was asked for is over. -/
theorem switchedOut_asked {s : State} {fn : Nat} (hgo : (s.func fn).ctxGo = true) (hop : (s.func fn).ctxOp = 1)
    (hd : (s.leavers fn).all s.drained = true) : s.switchedOut fn =
      (((s.leavers fn).foldl (fun s e => s.saveImage e.1) (vacated s fn)).modFunc fn fun f =>
        { f with saved := { f.saved with out := true }, ctxGo := false }).landQueued := by
  simp only [State.switchedOut, hgo, hop, hd, beq_self_eq_true, Bool.and_self, Bool.not_true, Bool.false_eq_true, and_false, or_self,
    if_false, if_true]
  rfl

/-- No ductus is open or kept, and none of the contexts changes. -/
def KeepsGroups (s t : State) : Prop :=
  (∀ q ∈ s.allQueues, q.2.2.ductus = none) → t.groups = s.groups ∧ ∀ q ∈ t.allQueues, q.2.2.ductus = none

theorem KeepsGroups.refl (s : State) : KeepsGroups s s := fun h => ⟨rfl, h⟩

theorem KeepsGroups.trans {s t u : State} (hst : KeepsGroups s t) (htu : KeepsGroups t u) : KeepsGroups s u := fun h =>
  ⟨(htu (hst h).2).1.trans (hst h).1, (htu (hst h).2).2⟩

theorem KeepsGroups.of_same {s t : State} (hg : t.groups = s.groups) (hf : t.funcs = s.funcs) : KeepsGroups s t := fun h =>
  ⟨hg, by rwa [State.allQueues, hf]⟩

theorem pollWaits_keepsGroups (s : State) (line : Nat) : KeepsGroups s (s.pollWaits line) := by
  unfold State.pollWaits
  split
  · refine fun h => ⟨rfl, fun q hq => ?_⟩
    simp only [State.allQueues, List.mem_flatMap, List.mem_map] at hq h
    obtain ⟨-, ⟨f, hf, rfl⟩, b, hb, rfl⟩ := hq
    obtain ⟨y, hy, rfl⟩ := List.mem_map.1 hb
    exact (h (f.1, y.1, y.2) ⟨f, hf, y, hy, rfl⟩ : y.2.ductus = none)
  · exact KeepsGroups.refl s

theorem touchKey_keepsGroups (s : State) (duc : Option Nat) (key : Nat) : KeepsGroups s (s.touchKey duc key) := by
  intro h
  unfold State.touchKey
  rw [List.filterMap_eq_nil_iff.2]
  · exact ⟨rfl, h⟩
  · intro q hq; rw [h q hq]

theorem touch_keepsGroups (s : State) (duc : Option Nat) (l : Loc) : KeepsGroups s (s.touch duc l) := by
  have hpoll : KeepsGroups s (match l with | .dpa a => if devOf a = s.devnum then s.pollWaits (a / 128) else s | _ => s) := by
    split
    · split
      · exact pollWaits_keepsGroups s _
      · exact KeepsGroups.refl s
    · exact KeepsGroups.refl s
  unfold State.touch
  dsimp only
  split
  · exact hpoll.trans (touchKey_keepsGroups _ _ _)
  · exact hpoll

theorem memPutAll_keepsGroups (s : State) (o : Nat) (bs : List (Nat × Byte)) : KeepsGroups s (s.memPutAll o bs) := by
  refine foldl_related KeepsGroups.refl KeepsGroups.trans (fun s e => ?_) bs s
  rw [memPut_only]
  exact KeepsGroups.of_same rfl rfl

theorem touchLines_keepsGroups (s : State) (bs : List (Nat × Byte)) : KeepsGroups s (s.touchLines bs) :=
  foldl_related KeepsGroups.refl KeepsGroups.trans (fun s l => touch_keepsGroups s none (.dpa (l * 128))) _ s

theorem withImages_keepsGroups (s : State) (m : KMap Image) : KeepsGroups s { s with images := m } := KeepsGroups.of_same rfl rfl

theorem saveImage_keepsGroups (s : State) (gid : Nat) : KeepsGroups s (s.saveImage gid) := by
  unfold State.saveImage
  split
  · exact (memPutAll_keepsGroups s _ _).trans ((touchLines_keepsGroups _ _).trans (withImages_keepsGroups _ _))
  · exact KeepsGroups.refl s

/-- R363: outside ductuses, a switch out leaves every context but the leaving ones as it was. -/
theorem switchedOut_groups {s : State} {fn : Nat} (hgo : (s.func fn).ctxGo = true) (hop : (s.func fn).ctxOp = 1)
    (hd : (s.leavers fn).all s.drained = true) (hq : ∀ q ∈ s.allQueues, q.2.2.ductus = none) :
    (s.switchedOut fn).groups = (vacated s fn).groups := by
  have hsaved : KeepsGroups (vacated s fn) ((s.leavers fn).foldl (fun s e => s.saveImage e.1) (vacated s fn)) :=
    foldl_related KeepsGroups.refl KeepsGroups.trans (fun s (e : Nat × Group) => saveImage_keepsGroups s e.1) _ _
  rw [switchedOut_asked hgo hop hd, landQueued_onlyLands]
  exact (hsaved hq).1

/-- R291: a reactivation moves gangs and phase bits, and nothing else of its context. -/
theorem reactivate_only (g : Group) (k : Gang) : g.reactivate k = { g with nibs := (g.reactivate k).nibs, gangs := (g.reactivate k).gangs } := by
  have hnibs : ∀ (ns : List Nat) (f : Nib → Nib) (g : Group),
      ns.foldl (fun g n => g.modNib n f) g = { g with nibs := (ns.foldl (fun g n => g.modNib n f) g).nibs } := by
    intro ns f
    induction ns with
    | nil => intro g; rfl
    | cons n ns ih => intro g; rw [List.foldl_cons, ih]; rfl
  unfold Group.reactivate
  dsimp only
  split
  · split
    · rw [hnibs]; rfl
    · rfl
  · rfl
  · rfl

theorem reactivateAll_skew (g : Group) : g.reactivateAll.skew = g.skew := by
  unfold Group.reactivateAll
  generalize g.gangs = ks
  induction ks generalizing g with
  | nil => rfl
  | cons k ks ih => rw [List.foldl_cons, ih, reactivate_only]

/-- R359: the image of a context is saved from the context as it is saved: what stands for a field looks at no other context. -/
theorem imageValue_vacated {s : State} {fn gid : Nat} {x : Group} (hx : s.group gid = some x) (h : Group) (f : ImageField) :
    (vacated s fn).imageValue gid h f = s.imageValue gid h f := by
  have hcounter : ∀ c, (vacated s fn).counter gid c = s.counter gid c := by
    intro c
    have hskew : ((vacated s fn).group gid).map (fun g => KMap.getD g.skew (classIndex c) 0) =
        (s.group gid).map fun g => KMap.getD g.skew (classIndex c) 0 := by
      rw [vacated_group, hx]
      refine congrArg (fun m => some (KMap.getD m (classIndex c) 0)) ?_
      unfold vacatedGroup
      split
      · exact reactivateAll_skew x
      · rfl
    unfold State.counter
    rw [hskew]
    rfl
  cases f with
  | counts => simp only [State.imageValue, hcounter]
  | _ => rfl

theorem saveImage_image {s : State} {gid : Nat} {g : Group} {m : Image} (hg : s.group gid = some g) (hm : KMap.get s.images gid = some m) :
    KMap.get (s.saveImage gid).images gid = some { m with saved := imageFields.map (s.imageValue gid g) } := by
  simp only [State.saveImage, hg, hm]
  exact KMap.get_put_same _ _ _

theorem mem_leavers {s : State} {fn g : Nat} {x : Group} (h : (g, x) ∈ s.leavers fn) : s.fnOf x = fn ∧ x.presence = .leaving := by
  simpa [State.leavers] using (List.mem_filter.1 h).2

/-- R363, step 4: the one leaving context is saved to its image as it goes out. -/
theorem switchedOut_image {s : State} {fn g : Nat} {x : Group} {m : Image} (hgo : (s.func fn).ctxGo = true) (hop : (s.func fn).ctxOp = 1)
    (hd : (s.leavers fn).all s.drained = true) (hl : s.leavers fn = [(g, x)]) (hg : KMap.get s.groups g = some x)
    (hm : KMap.get s.images g = some m) :
    KMap.get (s.switchedOut fn).images g = some { m with saved := imageFields.map (s.imageValue g (savedGroup x)) } := by
  have hout : (vacated s fn).group g = some (savedGroup x) := by
    obtain ⟨hfn, hp⟩ := mem_leavers (s := s) (fn := fn) (hl ▸ List.mem_singleton_self (g, x))
    have hx : s.group g = some x := hg
    rw [vacated_group, hx, Option.map_some, vacatedGroup, if_pos ⟨hfn, hp⟩]
  have hvalues : imageFields.map (s.imageValue g (savedGroup x)) = imageFields.map ((vacated s fn).imageValue g (savedGroup x)) :=
    List.map_congr_left fun f _ => (imageValue_vacated hg _ f).symm
  rw [switchedOut_asked hgo hop hd, landQueued_onlyLands, hl, hvalues]
  exact saveImage_image hout hm

theorem OnlyLands.func {s t : State} (h : OnlyLands s t) (fn : Nat) : t.func fn = s.func fn := by
  unfold OnlyLands at h
  rw [h]
  rfl

theorem switchedOut_func {s : State} {fn : Nat} (hgo : (s.func fn).ctxGo = true) (hop : (s.func fn).ctxOp = 1)
    (hd : (s.leavers fn).all s.drained = true) : ((s.switchedOut fn).func fn).saved.out = true ∧ ((s.switchedOut fn).func fn).ctxGo = false := by
  rw [switchedOut_asked hgo hop hd, (landQueued_onlyLands _).func, State.func_modFunc_same]
  exact ⟨rfl, rfl⟩

/-- R363: what becomes of each context at the end of a switch out. -/
theorem switchedOut_group {s : State} {fn g : Nat} {x y : Group} (hgo : (s.func fn).ctxGo = true) (hop : (s.func fn).ctxOp = 1)
    (hd : (s.leavers fn).all s.drained = true) (hq : ∀ q ∈ s.allQueues, q.2.2.ductus = none) (hx : s.group g = some x)
    (hy : (s.switchedOut fn).group g = some y) : y = vacatedGroup s fn x := by
  have hvacated : (vacated s fn).group g = some (vacatedGroup s fn x) := by rw [vacated_group, hx]; rfl
  rw [State.group, switchedOut_groups hgo hop hd hq] at hy
  exact Option.some.inj (hy.symm.trans hvacated)

/-! ### Switching in (R69, R364) -/

theorem contextIn_notReady {s : State} {fn : Nat} (hgo : ¬((s.func fn).ctxGo = true ∧ (s.func fn).ctxOp ≠ 2)) (hr : s.rdy fn = false) :
    s.contextIn fn = s.modFunc fn fun f => { f with ctxGo := false, ctxOp := 2 } := by
  unfold State.contextIn
  dsimp only
  rw [if_neg hgo, if_pos (by simp [hr])]

theorem contextIn_ready {s : State} {fn : Nat} (hgo : ¬((s.func fn).ctxGo = true ∧ (s.func fn).ctxOp ≠ 2)) (hr : s.rdy fn = true)
    (hf : s.returnFits fn = true) (hl : s.leavers fn = []) :
    s.contextIn fn = (s.switchedIn fn).modFunc fn fun f => { f with ctxOp := 2 } := by
  unfold State.contextIn
  dsimp only
  rw [if_neg hgo, if_neg (by simp [hr]), if_pos ⟨hf, by simp [hl]⟩]

/-! ### Removing a function (R365) -/

/-- R317, R365: how the steps of a remove move on: no launch and no context appears, a launch keeps its function and its first status (else it
takes that of a remove), an ended context stays ended, and a context that stays keeps its launch. -/
structure Ends (s t : State) : Prop where
  launches : ∀ l y, KMap.get t.launches l = some y → ∃ x, KMap.get s.launches l = some x ∧ y.fn = x.fn ∧
    (y.status = x.status ∨ x.status = none ∧ y.status = some (1, 0, 0xFFFF))
  groups : ∀ e ∈ t.groups, ∃ e' ∈ s.groups, e'.2.launch = e.2.launch ∧ (e'.2.ended = true → e.2.ended = true)
  kept : ∀ e ∈ t.groups, ∀ x, KMap.get s.launches e.2.launch = some x → ∃ y, KMap.get t.launches e.2.launch = some y

theorem Ends.of_same {s t : State} (hl : t.launches = s.launches) (hg : t.groups = s.groups) : Ends s t where
  launches _ y hy := ⟨y, hl ▸ hy, rfl, .inl rfl⟩
  groups e he := ⟨e, hg ▸ he, rfl, id⟩
  kept _ _ x hx := ⟨x, hl ▸ hx⟩

theorem Ends.refl (s : State) : Ends s s := .of_same rfl rfl

theorem Ends.trans {s t u : State} (hst : Ends s t) (htu : Ends t u) : Ends s u where
  launches l z hz := by
    obtain ⟨y, hy, hzf, hzs⟩ := htu.launches l z hz
    obtain ⟨x, hx, hyf, hys⟩ := hst.launches l y hy
    refine ⟨x, hx, hzf.trans hyf, ?_⟩
    rcases hzs with hzs | ⟨hnone, hzs⟩
    · rwa [hzs]
    · refine .inr ⟨?_, hzs⟩
      rcases hys with hys | ⟨-, hys⟩
      · exact hys.symm.trans hnone
      · simp [hnone] at hys
  groups e he := by
    obtain ⟨e₁, he₁, hl₁, hend₁⟩ := htu.groups e he
    obtain ⟨e₀, he₀, hl₀, hend₀⟩ := hst.groups e₁ he₁
    exact ⟨e₀, he₀, hl₀.trans hl₁, hend₁ ∘ hend₀⟩
  kept e he x hx := by
    obtain ⟨e₁, he₁, hl₁, -⟩ := htu.groups e he
    obtain ⟨y, hy⟩ := hst.kept e₁ he₁ x (hl₁ ▸ hx)
    exact htu.kept e he y (hl₁ ▸ hy)

theorem removeLaunches_ends (s : State) (ls : List Nat) : Ends s (s.removeLaunches ls) := by
  have hget : ∀ l, KMap.get (s.removeLaunches ls).launches l = if !ls.contains l then KMap.get s.launches l else none := fun l =>
    get_filterKeys s.launches (fun l => !ls.contains l) l
  refine ⟨fun l y hy => ?_, fun e he => ⟨e, List.mem_of_mem_filter he, rfl, id⟩, fun e he x hx => ⟨x, ?_⟩⟩
  · rw [hget] at hy
    split at hy
    · exact ⟨y, hy, rfl, .inl rfl⟩
    · simp at hy
  · rw [hget, if_pos (List.mem_filter.1 he).2, hx]

theorem refuteAll_ends (s : State) (fn endc : Nat) : Ends s (s.refuteAll fn endc) := by
  refine foldl_related Ends.refl Ends.trans (fun s q => ?_) _ s
  split
  · exact (removeLaunches_ends s _).trans (.of_same rfl rfl)
  · exact .of_same rfl rfl

/-- A step that changes a launch by `f` and every context by `h`. -/
theorem Ends.of_adjust {s t : State} {k : Nat} {f : Launch → Launch} {h : Nat × Group → Nat × Group}
    (hl : t.launches = KMap.adjust s.launches k f) (hg : t.groups = s.groups.map h) (hf : ∀ x, (f x).fn = x.fn ∧
      ((f x).status = x.status ∨ x.status = none ∧ (f x).status = some (1, 0, 0xFFFF)))
    (hh : ∀ e, (h e).2.launch = e.2.launch ∧ (e.2.ended = true → (h e).2.ended = true)) : Ends s t where
  launches l y hy := by
    rw [hl, KMap.get_adjust] at hy
    split at hy
    · rename_i hlk
      subst hlk
      obtain ⟨x, hx, rfl⟩ := Option.map_eq_some_iff.1 hy
      exact ⟨x, hx, hf x⟩
    · exact ⟨y, hy, rfl, .inl rfl⟩
  groups e he := by
    rw [hg] at he
    obtain ⟨e', he', rfl⟩ := List.mem_map.1 he
    exact ⟨e', he', (hh e').1.symm, (hh e').2⟩
  kept e _ x hx := by
    rw [hl, KMap.get_adjust]
    split
    · rename_i hlk
      rw [← hlk, hx]
      exact ⟨f x, rfl⟩
    · exact ⟨x, hx⟩

theorem stopLaunch_ends (s : State) (l : Nat) : Ends s (s.stopLaunch l (1, 0, 0xFFFF)) := by
  refine .of_adjust (f := fun x => { x with status := x.status.orElse fun _ => some (1, 0, 0xFFFF), next := x.teams })
    (h := fun e => if e.2.launch = l then (e.1, e.2.halt) else e) rfl rfl (fun x => ⟨rfl, ?_⟩) fun e => ?_
  · cases x.status <;> simp
  · split <;> simp [Group.halt]

theorem settleLaunch_ends (s : State) (l : Nat) : Ends s (s.settleLaunch l) := by
  unfold State.settleLaunch
  split
  · split
    · exact .of_adjust (f := fun x => { x with ready := true }) (h := id) rfl (List.map_id _).symm (fun x => ⟨rfl, .inl rfl⟩) fun e => ⟨rfl, id⟩
    · exact .refl s
  · exact .refl s

theorem landRelease_ends (s : State) (fn : Nat) : Ends s (s.landRelease fn) := .of_same rfl rfl

theorem modFunc_ends (s : State) (fn : Nat) (f : Func → Func) : Ends s (s.modFunc fn f) := .of_same rfl rfl

/-- The launch, where it is there, has a status, and its contexts have ended. -/
def LaunchOver (s : State) (l : Nat) : Prop :=
  (∀ x, KMap.get s.launches l = some x → x.status.isSome = true) ∧ ∀ e ∈ s.groups, e.2.launch = l → e.2.ended = true

theorem Ends.launchOver {s t : State} (h : Ends s t) {l : Nat} (hs : LaunchOver s l) : LaunchOver t l := by
  refine ⟨fun y hy => ?_, fun e he hel => ?_⟩
  · obtain ⟨x, hx, -, hst | ⟨-, hst⟩⟩ := h.launches l y hy
    · rw [hst]; exact hs.1 x hx
    · rw [hst]; rfl
  · obtain ⟨e', he', hl, hend⟩ := h.groups e he
    exact hend (hs.2 e' he' (hl.trans hel))

theorem stopLaunch_launchOver (s : State) (l : Nat) (st : Nat × Nat × Nat) : LaunchOver (s.stopLaunch l st) l := by
  refine ⟨fun y hy => ?_, fun e he hel => ?_⟩
  · rw [State.stopLaunch, KMap.get_adjust_same] at hy
    obtain ⟨x, -, rfl⟩ := Option.map_eq_some_iff.1 hy
    cases x.status <;> rfl
  · obtain ⟨e', -, rfl⟩ := List.mem_map.1 he
    split at hel
    · rw [if_pos ‹_›]; rfl
    · contradiction

theorem stopLaunches_ends (s : State) (ls : List Nat) : Ends s (ls.foldl (fun s l => s.stopLaunch l (1, 0, 0xFFFF)) s) :=
  foldl_related Ends.refl Ends.trans stopLaunch_ends ls s

theorem stopLaunches_launchOver (s : State) {ls : List Nat} {l : Nat} (h : l ∈ ls) :
    LaunchOver (ls.foldl (fun s l => s.stopLaunch l (1, 0, 0xFFFF)) s) l := by
  induction ls generalizing s with
  | nil => simp at h
  | cons k ls ih =>
    rcases List.mem_cons.1 h with rfl | h
    · exact (stopLaunches_ends _ ls).launchOver (stopLaunch_launchOver s l _)
    · exact ih _ h

/-- R365: a removed function, once its ductuses have ended and its launches `ls` have been stopped. -/
def afterStops (fn : Nat) (ls : List Nat) (s : State) : State :=
  ((ls.foldl State.settleLaunch { s with groups := s.groups.map fun e =>
      (e.1, if s.fnOf e.2 = fn ∧ e.2.presence = .leaving then { e.2 with presence := .here } else e.2) }).landRelease fn).modFunc fn fun f =>
    { f with saved := ⟨false, false⟩, ctxGo := false, ctxOp := 3 }

theorem afterStops_ends (fn : Nat) (ls : List Nat) (s : State) : Ends s (afterStops fn ls s) := by
  have hback : Ends s { s with groups := s.groups.map fun e =>
      (e.1, if s.fnOf e.2 = fn ∧ e.2.presence = .leaving then { e.2 with presence := .here } else e.2) } := by
    refine ⟨fun l y hy => ⟨y, hy, rfl, .inl rfl⟩, fun e he => ?_, fun e _ x hx => ⟨x, hx⟩⟩
    obtain ⟨e', he', rfl⟩ := List.mem_map.1 he
    refine ⟨e', he', ?_⟩
    dsimp only
    split <;> exact ⟨rfl, id⟩
  have hsettled := hback.trans (foldl_related Ends.refl Ends.trans settleLaunch_ends ls _)
  exact (hsettled.trans (landRelease_ends _ fn)).trans (modFunc_ends _ fn _)

/-- The launches that a remove ends. -/
def removedLaunches (s : State) (fn : Nat) : List Nat := ((s.refuteAll fn 5).fnLaunches fn).map Prod.fst

/-- R365: what a remove leaves. -/
def removed (fn : Nat) (s : State) : State :=
  afterStops fn (removedLaunches s fn)
    ((removedLaunches s fn).foldl (fun s l => s.stopLaunch l (1, 0, 0xFFFF)) (s.refuteAll fn 5))

theorem exec_functionRemove {s : State} {fn : Nat} (h : (s.func fn).ctxGo = false) : exec (.functionRemove fn) s = .next (removed fn s) :=
  congrArg Host.Outcome.next (if_neg (by simp [h]))

theorem removed_ends_refuted (fn : Nat) (s : State) : Ends (s.refuteAll fn 5) (removed fn s) :=
  (stopLaunches_ends _ _).trans (afterStops_ends fn _ _)

theorem removed_ends (fn : Nat) (s : State) : Ends s (removed fn s) := (refuteAll_ends s fn 5).trans (removed_ends_refuted fn s)

/-- R365: every launch of the function that is left is over. -/
theorem removed_launchOver {s : State} {fn l : Nat} {x : Launch} (hx : KMap.get (removed fn s).launches l = some x) (hfn : x.fn = fn) :
    LaunchOver (removed fn s) l := by
  obtain ⟨x₀, hx₀, hf₀, -⟩ := (removed_ends_refuted fn s).launches l x hx
  have hmem : l ∈ removedLaunches s fn :=
    List.mem_map_of_mem (f := Prod.fst) (List.mem_filter.2 ⟨KMap.get_mem hx₀, by simp [← hf₀, hfn]⟩)
  exact (afterStops_ends fn _ _).launchOver (stopLaunches_launchOver _ hmem)

theorem removed_status {s : State} {fn l : Nat} {x y : Launch} (hx : KMap.get s.launches l = some x) (hfn : x.fn = fn)
    (hnone : x.status = none) (hy : KMap.get (removed fn s).launches l = some y) : y.status = some (1, 0, 0xFFFF) := by
  obtain ⟨x', hx', hyf, hst⟩ := (removed_ends fn s).launches l y hy
  obtain rfl : x = x' := Option.some.inj (hx.symm.trans hx')
  rcases hst with hst | ⟨-, hst⟩
  · have hover := (removed_launchOver hy (hyf.trans hfn)).1 y hy
    simp [hst, hnone] at hover
  · exact hst

theorem removed_group {s : State} {fn g : Nat} {x : Group} {y : Launch} (hx : KMap.get (removed fn s).groups g = some x)
    (hy : KMap.get s.launches x.launch = some y) (hfn : y.fn = fn) : x.ended = true := by
  obtain ⟨z, hz⟩ := (removed_ends fn s).kept _ (KMap.get_mem hx) y hy
  obtain ⟨y', hy', hzf, -⟩ := (removed_ends fn s).launches _ z hz
  obtain rfl : y = y' := Option.some.inj (hy.symm.trans hy')
  exact (removed_launchOver hz (hzf.trans hfn)).2 _ (KMap.get_mem hx) rfl

/-- Settles O49: each step is its definition's branch; the images are followed through the writes that save them, and a remove through the
relation that its steps keep (`Ends`). -/
theorem contextSteps : Obligations.ContextSteps := by
  unfold Obligations.ContextSteps
  refine ⟨fun s fn h => exec_contextSwitchOut h, fun s fn hgo hop hd => ?_, fun s fn hgo => ?_, fun s fn h => ?_⟩
  · obtain ⟨hout, hover⟩ := switchedOut_func hgo hop hd
    exact ⟨_, rfl, hout, hover, fun hq => ⟨fun g x y hx hy => switchedOut_group hgo hop hd hq hx hy,
      fun g x m hl hg hm => switchedOut_image hgo hop hd hl hg hm⟩⟩
  · exact ⟨fun hr => congrArg Host.Outcome.next (contextIn_notReady hgo hr),
      fun hr hf hl => congrArg Host.Outcome.next (contextIn_ready hgo hr hf hl)⟩
  · exact ⟨_, exec_functionRemove h, fun l x hx hfn => (removed_launchOver hx hfn).1 x hx,
      fun l x y hx hfn hn hy => removed_status hx hfn hn hy, fun g x y hx hy hfn => removed_group hx hy hfn⟩

end Sys2Proof.AddressSpaces
end

section
/-!
PROOFS. The engine steps of plain requests: START, SEND, ARRIVE, SERVE, LAND, RETIRE and PEER_REFUSAL (R58, R64, R104, R117, R125 to R127).
-/

namespace Sys2Proof.AddressSpaces

open Sys2Proof Sys2Proof.Machine Sys2Proof.Claims

/-! ### START (R58, R125) -/

/-- R58: the requests of an operation that paused are walked again. -/
def walkedAgain (s : State) (o : Nat) (x : EngOp) : State :=
  (s.reqs.filter fun e => e.2.pausedIn o).foldl (fun s e => s.walkAgain e.1 x e.2 []) s

/-- R164: what START sets up for an SHREAD, and for no other operation. -/
def freshProgram (x : EngOp) : Option ShProg :=
  match x.kind with
  | .shread .. => some (x.sh.getD ⟨[], [], [], [], false, []⟩)
  | _ => none

theorem walkedAgain_none {s : State} {o : Nat} (x : EngOp) (h : ∀ e ∈ s.reqs, e.2.pausedIn o = false) : walkedAgain s o x = s := by
  rw [walkedAgain, List.filter_eq_nil_iff.2 fun e he => by simp [h e he]]
  rfl

theorem specBlocked_untagged (s : State) (o : EngOp) (ps : List Plan) : s.specBlocked o none ps = none := rfl

theorem startStep_untagged {s : State} {o : Nat} {x : EngOp} {ps : List Plan} (hstart : s.canStart o = some (x, ps)) (htag : s.opTag x = none) :
    s.startStep o = (((walkedAgain s o x).modOp o fun y => { y with sh := freshProgram x }).addPlans o x none ps).dropLacking o := by
  simp only [State.startStep, hstart, htag, specBlocked_untagged]
  rfl

theorem walkAgain_waits {s : State} {x : EngOp} {r : Req} {e : Nat × Nat × Nat} (q : Nat) (he : s.resolve x r.acc r = .error e)
    (hroom : s.faultRoom r.op x r.dst (s.failures x r.acc r) = false) :
    s.walkAgain q x r [] = s.modReq q fun r => { r with stage := .held [] } := by
  simp [State.walkAgain, he, hroom]

theorem addPlans_cons_made {s s1 : State} {o : Nat} {x : EngOp} {p : Plan} (ps : List Plan) (h : s.addPlan o x none p = some s1) :
    s.addPlans o x none (p :: ps) = (s1.modOp o fun y => { y with made := y.made + 1 }).addPlans o x none ps := by
  simp only [State.addPlans, h]

theorem addPlans_cons_paused {s : State} {o : Nat} {x : EngOp} {p : Plan} (ps : List Plan) (h : s.addPlan o x none p = none) :
    s.addPlans o x none (p :: ps) = s := by
  simp only [State.addPlans, h]

/-! ### SEND (R388) -/

theorem sendStep_enabled {s : State} {q : Nat} {r : Req} (h : s.canSend q = some r) :
    s.sendStep q = (s.reqPorts r).foldl State.holdFlit (s.setStage q .fabric) := by
  simp only [State.sendStep, h]

theorem holdFlits_running (s : State) {ps : List Nat} (h : ∀ p ∈ ps, (s.port p).paused = none) : ps.foldl State.holdFlit s = s := by
  induction ps with
  | nil => rfl
  | cons p ps ih =>
    have hp : s.holdFlit p = s := by simp [State.holdFlit, h p]
    rw [List.foldl_cons, hp, ih fun x hx => h x (List.mem_cons_of_mem _ hx)]

theorem holdFlit_paused {s : State} {p : Nat} (h : (s.port p).paused ≠ none) :
    s.holdFlit p = s.modPort p fun x => { x with heldFlits := x.heldFlits + 1 } := by
  simp [State.holdFlit, Option.isSome_iff_ne_none, h]

/-! ### ARRIVE (R47, R64, R125) -/

theorem sectors_any_refused {s : State} {r : Req} {o : EngOp} {l : Loc} : (l :: r.farLoc.toList).any (s.sectorRefused r o) = true ↔
    s.sectorRefused r o l = true ∨ ∃ f, r.farLoc = some f ∧ s.sectorRefused r o f = true := by
  simp [Option.mem_toList]

section Arrive

variable {s : State} {q : Nat} {r : Req} {o : EngOp} {l : Loc} (h : s.canArrive q = some (r, o, l))
include h

theorem arriveStep_readsSheaf (hs : o.readsSheaf r = true) : s.arriveStep q = s.setStage q .queued := by
  simp only [State.arriveStep, h, hs, if_true]

theorem arriveStep_refused (hs : o.readsSheaf r = false) (hr : s.sectorRefused r o l = true ∨ ∃ f, r.farLoc = some f ∧ s.sectorRefused r o f = true) :
    s.arriveStep q = s.refuse q 5 0 0 := by
  simp only [State.arriveStep, h, hs, sectors_any_refused.2 hr, if_true, Bool.false_eq_true, if_false]

end Arrive

section Accepted

variable {s : State} {q : Nat} {r : Req} {o : EngOp} (hs : o.readsSheaf r = false) (hf : ∀ f, r.farLoc = some f → s.sectorRefused r o f = false)

include hf in
theorem sectors_accepted {l : Loc} (hl : s.sectorRefused r o l = false) : (l :: r.farLoc.toList).any (s.sectorRefused r o) = false := by
  rw [← Bool.not_eq_true, sectors_any_refused]
  rintro (hr | ⟨f, hfar, hr⟩)
  · simp [hl] at hr
  · simp [hf f hfar] at hr

include hs hf

theorem arriveStep_place {p : Place} {off : Nat} (h : s.canArrive q = some (r, o, .place p off)) (hl : s.sectorRefused r o (.place p off) = false) :
    s.arriveStep q = if s.farPoisoned r = true then s.refuse q 5 0 0 else (s.useFar o r).perform q r o (.place p off) := by
  simp only [State.arriveStep, h, hs, sectors_accepted hf hl, Bool.false_eq_true, if_false]

theorem arriveStep_host {a : Nat} (h : s.canArrive q = some (r, o, .host a)) (hl : s.sectorRefused r o (.host a) = false) :
    s.arriveStep q = if s.farPoisoned r = true then s.refuse q 5 0 0 else ((s.useFar o r).perform q r o (.host a)).notePosted r o := by
  simp only [State.arriveStep, h, hs, sectors_accepted hf hl, Bool.false_eq_true, if_false]

theorem arriveStep_home {a : Nat} (h : s.canArrive q = some (r, o, .dpa a)) (hl : s.sectorRefused r o (.dpa a) = false)
    (hland : s.landingOf r o a = none) : s.arriveStep q = s.setStage q .queued := by
  simp only [State.arriveStep, h, hs, hland, sectors_accepted hf hl, Bool.false_eq_true, if_false]

end Accepted

/-- R64, R75: what an accepted request to a home is not refused for. -/
theorem sectorRefused_dpa {s : State} {r : Req} {o : EngOp} {a : Nat} (hpeer : devOf a = s.devnum ∨ s.peerRefuses a = false)
    (hin : o.dev = s.devnum ∨ s.inboundRefused r a = false) : s.sectorRefused r o (.dpa a) = false := by
  have hp : (devOf a != s.devnum && s.peerRefuses a) = false := by rcases hpeer with h | h <;> simp [h]
  have hi : (o.dev != s.devnum && s.inboundRefused r a) = false := by rcases hin with h | h <;> simp [h]
  simp only [State.sectorRefused, hp, hi, Bool.or_self]

/-! ### SERVE and PEER_REFUSAL (R64, R125) -/

theorem serveStep_plain {s : State} {q a : Nat} {r : Req} {o : EngOp} (h : s.canServe q = some (r, o, a)) (hh : r.handle = 0) (ht : r.tag = none) :
    s.serveStep q = if s.reqPoisoned r a = true then s.refuse q 5 0 0 else (s.useLines o r a).perform q r o (.dpa a) := by
  simp only [State.serveStep, h]
  exact if_neg (by simp [hh, ht])

theorem exec_peerRefusal {s : State} {q a : Nat} {r : Req} (hr : KMap.get s.reqs q = some r) (hl : r.loc = some (.dpa a)) (hd : devOf a ≠ s.devnum)
    (hout : s.linkOut a = false) (hst : r.stage = .fabric ∨ r.stage = .queued) : exec (.peerRefusal q) s = .next (s.refuse q 5 0 0) := by
  have hunfold : exec (.peerRefusal q) s = execPeerRefusal q s := rfl
  simp only [hunfold, execPeerRefusal, hr, hl, hout, Bool.false_eq_true, if_false]
  rw [if_pos (.inl hd), if_pos hst]

/-! ### LAND (R104, R117, R370) -/

theorem landStep_linkOut {s : State} {q a : Nat} {r : Req} (hr : KMap.get s.reqs q = some r) (hl : r.loc = some (.dpa a))
    (hout : s.linkOut a = true) : s.landStep q = s := by
  have hans : s.answerOut r = true := by simp only [State.answerOut, hl, hout]
  simp only [State.landStep, hr]
  split
  · rw [if_pos hans]
  · rfl

section Land

variable {s : State} {q : Nat} {r : Req} {o : EngOp} {bs : List Byte} (hr : KMap.get s.reqs q = some r) (hst : r.stage = .answered bs)
  (ho : KMap.get s.ops r.op = some o) (hout : s.answerOut r = false)
include hr hst ho hout

theorem landStep_stale (hdev : o.dev = s.devnum) (hgen : r.gen ≠ (s.func o.fn).gen) : s.landStep q = s.setStage q .done := by
  simp only [State.landStep, hr, hst, ho, hout, Bool.false_eq_true, if_false]
  exact if_pos ⟨hdev, hgen⟩

theorem landStep_rmw {th : Nat} {b : EType} {opc x y : Nat} {rep : Bool} {n : Nat} {ty : EType} {opc' : Nat} {hd : DWord} {es : List (Nat × DWord × Nat × Nat)}
    (hgen : r.gen = (s.func o.fn).gen) (hk : r.kind = .rmw th b opc x y rep) (hok : o.kind = .atom (some n) ty opc' hd es) :
    s.landStep q = (s.setStage q .done).regWrites o.gid (vecWrites b (.vec n) th (leVal bs)) := by
  simp only [State.landStep, hr, hst, ho, hout, hk, hok, Bool.false_eq_true, if_false]
  exact if_neg (by simp [hgen])

end Land

/-- An operation whose read `ps` has brought the bytes `bs`. -/
def taken (o : EngOp) (ps : List (Nat × Nat)) (bs : List Byte) : EngOp :=
  { o with buf := Mem.writeAt o.buf (ps.map fun p => (p.2, bs.getD p.1 0)), have_ := o.have_ ++ ps.map Prod.snd }

/-- A read is over, and its operation holds its bytes. -/
def readLanded (s : State) (q : Nat) (r : Req) (o : EngOp) (ps : List (Nat × Nat)) (bs : List Byte) : State :=
  (s.setStage q .done).modOp r.op fun _ => taken o ps bs

theorem readLanded_ops (s : State) (q : Nat) (r : Req) (o : EngOp) (ps : List (Nat × Nat)) (bs : List Byte) (k : Nat) :
    KMap.get (readLanded s q r o ps bs).ops k = if k = r.op then (KMap.get s.ops r.op).map fun _ => taken o ps bs else KMap.get s.ops k := by
  simp only [readLanded, State.modOp, KMap.get_adjust]
  split
  · subst k; rfl
  · rfl

theorem get_taken_buf {o : EngOp} (hm : Mem.wf o.buf = true) (ps : List (Nat × Nat)) (bs : List Byte) (j : Nat) :
    Mem.get (taken o ps bs).buf j = ((ps.reverse.find? fun p => p.2 == j).map fun p => bs.getD p.1 0).getD (Mem.get o.buf j) := by
  rw [taken, get_writeAt hm, ← List.map_reverse, List.find?_map, Option.map_map]
  rfl

theorem bytes_of_response (ps : List (Nat × Nat)) (bs : List Byte) :
    (ps.map fun p => (p.2, bs.getD p.1 0)).map Prod.fst = ps.map Prod.snd := by
  rw [List.map_map]; rfl

section LandRead

variable {s : State} {q : Nat} {r : Req} {o : EngOp} {bs : List Byte} {ps : List (Nat × Nat)} (hr : KMap.get s.reqs q = some r)
  (hst : r.stage = .answered bs) (ho : KMap.get s.ops r.op = some o) (hout : s.answerOut r = false)
  (hgen : ¬(o.dev = s.devnum ∧ r.gen ≠ (s.func o.fn).gen)) (hk : r.kind = .read ps)
include hr hst ho hout hgen hk

/-- R104: a GATHER's bytes go on to its registers. -/
theorem landStep_gather {n : Nat} {ty : EType} {es : List (Nat × DWord)} (hok : o.kind = .gather n ty es) :
    s.landStep q = (readLanded s q r o ps bs).landGather o.gid n ty (taken o ps bs).have_ (taken o ps bs).buf (ps.map Prod.snd) := by
  simp only [State.landStep, hr, hst, ho, hout, hk, hok, if_neg hgen, bytes_of_response, Bool.false_eq_true, if_false, readLanded, taken]

theorem landStep_plainRead (hg : ∀ n ty es, o.kind ≠ .gather n ty es) (hf : ∀ ws, o.kind ≠ .flush ws) :
    s.landStep q = readLanded s q r o ps bs := by
  simp only [State.landStep, hr, hst, ho, hout, hk, if_neg hgen, bytes_of_response, Bool.false_eq_true, if_false]
  rfl

end LandRead

/-- A list of one value, however often, is that value once. -/
theorem nubBy_const {α : Type} [DecidableEq α] {l : List α} {x : α} (hne : l ≠ []) (h : ∀ y ∈ l, y = x) : nubBy l = [x] := by
  have hrest : ∀ m : List α, (∀ y ∈ m, y = x) → m.foldl (fun acc y => if acc.contains y then acc else acc ++ [y]) [x] = [x] := by
    intro m hm
    induction m with
    | nil => rfl
    | cons y m ih =>
      rw [List.foldl_cons, hm y List.mem_cons_self]
      simpa using ih fun z hz => hm z (List.mem_cons_of_mem _ hz)
  cases l with
  | nil => contradiction
  | cons y l =>
    obtain rfl : y = x := h y List.mem_cons_self
    exact hrest l fun z hz => h z (List.mem_cons_of_mem _ hz)

section Gather

variable {s : State} {gid n : Nat} {ty : EType} {got : List Nat} {buf : Mem} {keys : List Nat} {th : Nat} {g : Group}

theorem nubBy_threads (hne : keys ≠ []) (hth : ∀ j ∈ keys, j / 8 = th) : nubBy (keys.map (· / 8)) = [th] :=
  nubBy_const (by simpa using hne) (by simpa using hth)

/-- R104: an element whose bytes have all landed is written whole. -/
theorem landGather_whole (hne : keys ≠ []) (hth : ∀ j ∈ keys, j / 8 = th) (hg : s.group gid = some g)
    (hall : ∀ j < elemBytes ty, 8 * th + j ∈ got) :
    s.landGather gid n ty got buf keys = s.regWrites gid (vecWrites ty (.vec n) th (leVal (Mem.read buf (8 * th) (elemBytes ty)))) := by
  have hwhole : ((List.range (elemBytes ty)).all fun j => got.contains (8 * th + j)) = true := by simpa using hall
  simp only [State.landGather, nubBy_threads hne hth, List.foldl_cons, List.foldl_nil, hg, hwhole, if_true]

/-- R104: a byte of an element that is not whole changes only itself. -/
theorem landGather_byte {j : Nat} (hj : j < 8) (hg : s.group gid = some g) (hlack : ∃ i < elemBytes ty, 8 * th + i ∉ got) :
    s.landGather gid n ty got buf [8 * th + j] = s.regWrite gid (.vec (n + j / 4) th
      (word (setBits (g.vreg (n + j / 4) th).toNat (8 * (j % 4) + 7) (8 * (j % 4)) (Mem.get buf (8 * th + j)).toNat))) := by
  have hpart : ((List.range (elemBytes ty)).all fun j => got.contains (8 * th + j)) = false := by simpa using hlack
  have hdiv : (8 * th + j) / 8 = th := by omega
  have hmod : (8 * th + j) % 8 = j := by omega
  have hth : nubBy ([8 * th + j].map (· / 8)) = [th] := nubBy_threads (by simp) (by simpa using hdiv)
  simp only [State.landGather, hth, List.foldl_cons, List.foldl_nil, hg, hpart, hdiv, hmod, if_true, Bool.false_eq_true, if_false,
    Option.getD_some]

end Gather

/-! ### RETIRE (R125, R290, R348) -/

/-- R290, R291: a gang parked on counter `c`, once the counter is `n`. -/
def settleGang (c : EngClass) (n : Nat) (k : Gang) : Gang :=
  match k.hold with
  | .park (.counter c' m) cont => if c' = c ∧ n ≤ m then { k with hold := .park .ready cont } else k
  | _ => k

def settleGangs (c : EngClass) (n : Nat) (g : Group) : Group := { g with gangs := g.gangs.map (settleGang c n) }

theorem settleParks_eq (s : State) (gid : Nat) (c : EngClass) : s.settleParks gid c = s.modGroup gid (settleGangs c (s.counter gid c)) := rfl

/-- R348: a context takes the cost of an operation. -/
def chargedGroup (cost : Nat) (g : Group) : Group := { g with enrg := g.enrg + dword cost }

theorem addEnergy_group (s : State) (gid cost j : Nat) :
    (s.addEnergy gid cost).group j = if j = gid then (s.group gid).map (chargedGroup cost) else s.group j := by
  unfold State.addEnergy
  split
  · rename_i hnone
    split
    · subst j; simp [hnone]
    · rfl
  · exact State.group_modGroup s gid j (chargedGroup cost)

theorem addEnergy_only (s : State) (gid cost : Nat) :
    s.addEnergy gid cost = { s with groups := (s.addEnergy gid cost).groups, clusters := (s.addEnergy gid cost).clusters } := by
  unfold State.addEnergy
  split <;> rfl

/-- R125: operation `o` is gone, with its requests and its held faults. -/
def withoutOp (s : State) (o : Nat) : State :=
  { s with
    ops := KMap.del s.ops o
    reqs := s.reqs.filter fun e => e.2.op != o
    faults := s.faults.filter fun e => e.2.op != some o
    sheaves := s.sheaves.map fun e => (e.1, { e.2 with writes := e.2.writes.filter (· != o) }) }

theorem withoutOp_opsOf (s : State) (o gid : Nat) (c : EngClass) : (withoutOp s o).opsOf gid c = (s.opsOf gid c).filter (· ≠ o) := by
  simp only [State.opsOf, withoutOp, KMap.del, List.filter_map, List.filter_filter, Function.comp_def]
  exact congrArg (List.map Prod.fst) (List.filter_congr fun e _ => Bool.and_comm _ _)

theorem withoutOp_opsOf_shorter {s : State} {o gid : Nat} {c : EngClass} (h : o ∈ s.opsOf gid c) :
    ((withoutOp s o).opsOf gid c).length < (s.opsOf gid c).length := by
  rw [withoutOp_opsOf]
  exact List.length_filter_lt_length_iff_exists.2 ⟨o, h, by simp⟩

/-- R125: what a retirement leaves that writes no result: the parks on its counter settle, and the context takes its cost. -/
def retired (s : State) (gid : Nat) (c : EngClass) (o cost : Nat) : State := ((withoutOp s o).settleParks gid c).addEnergy gid cost

theorem retireStep_plain {s : State} {gid o : Nat} {c : EngClass} {x : EngOp} {r : List Nat} (hops : s.opsOf gid c = o :: r)
    (ho : KMap.get s.ops o = some x) (hover : s.opOver o x = true) (hfail : x.failed = none) (hsh : x.sh = none)
    (hseal : ∀ e, x.kind ≠ .seal e ∧ x.kind ≠ .abort e) (hloop : ∀ t f b m u j ac fl, x.kind ≠ .mloop t f b m u j ac fl) :
    s.retireStep gid c = retired s gid c o x.cost := by
  simp only [State.retireStep, hops, List.head?_cons, ho, hover, hfail, hsh, Bool.not_true, Bool.false_eq_true, if_false]
  split
  · contradiction
  · exact absurd ‹_› (hseal _).1
  · exact absurd ‹_› (hseal _).2
  · exact absurd ‹_› (hloop _ _ _ _ _ _ _ _)
  · rfl

theorem retired_only (s : State) (gid : Nat) (c : EngClass) (o cost : Nat) : retired s gid c o cost =
    { s with
      ops := (retired s gid c o cost).ops, reqs := (retired s gid c o cost).reqs, faults := (retired s gid c o cost).faults
      sheaves := (retired s gid c o cost).sheaves, groups := (retired s gid c o cost).groups, clusters := (retired s gid c o cost).clusters } := by
  unfold retired
  rw [addEnergy_only]
  rfl

theorem retired_ops (s : State) (gid : Nat) (c : EngClass) (o cost : Nat) : (retired s gid c o cost).ops = KMap.del s.ops o := by
  rw [retired, addEnergy_only]
  rfl

theorem retired_opsOf (s : State) (gid : Nat) (c : EngClass) (o cost : Nat) : (retired s gid c o cost).opsOf gid c = (withoutOp s o).opsOf gid c := by
  rw [State.opsOf, retired_ops]
  rfl

/-- R290, R348: the context's parked gangs settle and it takes the cost; no other context changes. -/
theorem retired_group (s : State) (gid j : Nat) (c : EngClass) (o cost : Nat) : (retired s gid c o cost).group j = if j = gid then
    (s.group gid).map fun g => chargedGroup cost (settleGangs c ((withoutOp s o).counter gid c) g) else s.group j := by
  rw [retired, addEnergy_group, settleParks_eq]
  split
  · rw [State.group_modGroup_same, Option.map_map]
    rfl
  · rw [State.group_modGroup, if_neg ‹_›]
    rfl

theorem retired_counter (s : State) (gid : Nat) (c : EngClass) (o cost : Nat) :
    (retired s gid c o cost).counter gid c = (withoutOp s o).counter gid c := by
  have hskew : ((retired s gid c o cost).group gid).map (fun g => KMap.getD g.skew (classIndex c) 0) =
      ((withoutOp s o).group gid).map fun g => KMap.getD g.skew (classIndex c) 0 := by
    rw [retired_group, if_pos rfl, Option.map_map]
    rfl
  rw [State.counter, State.counter, hskew, retired_opsOf]

/-- Settles O38: each step is its definition's branch; a read's bytes are followed into the buffer and the registers, and a retirement into the
operations and contexts that are left. -/
theorem engineSteps : Obligations.EngineSteps := by
  unfold Obligations.EngineSteps
  have next {s t : State} (h : s = t) : (Host.Outcome.next s : Out) = .next t := congrArg _ h
  refine ⟨fun s o x ps hstart htag => ⟨fun h => walkedAgain_none x h, next (startStep_untagged hstart htag)⟩,
    fun s q x r e he hroom => walkAgain_waits q he hroom, fun s o x p ps s1 h => addPlans_cons_made ps h,
    fun s o x p ps h => addPlans_cons_paused ps h, fun s q r h => ?send,
    fun s q r o a h hs hpeer hin hf hland => next (arriveStep_home hs hf h (sectorRefused_dpa hpeer hin) hland),
    fun s q r o l h => ⟨fun hs => next (arriveStep_readsSheaf h hs), fun hs hr => next (arriveStep_refused h hs hr), fun hs hl hf => ?arrive⟩,
    fun s q r o a h hh ht => next (serveStep_plain h hh ht), fun s q r a hr hl hout => next (landStep_linkOut hr hl hout),
    fun s q r o bs hr hst ho hout hdev hgen => next (landStep_stale hr hst ho hout hdev hgen),
    fun s q r o bs ty opc x y rep n th b h es hr hst ho hout hgen hk hok => next (landStep_rmw hr hst ho hout hgen hk hok),
    fun s q r o bs ps hr hst ho hout hgen hk hm => ?landRead, fun s gid n ty got buf keys th hne hth hsome => ?gather,
    fun s gid c o x r hops ho hover hfail hsh hseal hloop => ?retire,
    fun s q r a hr hl hd hout hst => exec_peerRefusal hr hl hd hout hst⟩
  case send =>
    refine ⟨fun hrun => next ?_, fun p hp hpaused => next ?_⟩
    · rw [sendStep_enabled h, holdFlits_running (s.setStage q .fabric) hrun]
      rfl
    · rw [sendStep_enabled h, hp]
      exact holdFlit_paused hpaused
  case arrive =>
    refine ⟨?_, ?_⟩
    · rintro p off rfl
      exact next (arriveStep_place hs hf h hl)
    · rintro a rfl
      exact next (arriveStep_host hs hf h hl)
  case landRead =>
    have hfresh : ¬(o.dev = s.devnum ∧ r.gen ≠ (s.func o.fn).gen) := fun ⟨hdev, hne⟩ => hgen.elim (· hdev) hne
    refine ⟨readLanded s q r o ps bs, taken o ps bs, ?_, rfl, rfl, fun k hne => ?_, get_taken_buf hm ps bs,
      fun n ty es hok => next (landStep_gather hr hst ho hout hfresh hk hok),
      fun hg hf => next (landStep_plainRead hr hst ho hout hfresh hk hg hf)⟩
    · rw [readLanded_ops, if_pos rfl, ho]; rfl
    · rw [readLanded_ops, if_neg hne]
  case gather =>
    refine ⟨fun hall => ?_, ?_⟩
    · obtain ⟨g, hg⟩ := Option.isSome_iff_exists.1 hsome
      exact landGather_whole hne hth hg hall
    · rintro g j hg rfl hj hlack
      exact landGather_byte hj hg hlack
  case retire =>
    refine ⟨retired s gid c o x.cost, next (retireStep_plain hops ho hover hfail hsh hseal hloop), retired_only s gid c o x.cost, ?_,
      fun p hp => ?_, ?_, fun g y hy => ?_⟩
    · rw [retired_ops, KMap.get_del_same]
    · rw [retired_ops, KMap.get_del_other _ hp]
    · rw [retired_opsOf]
      exact withoutOp_opsOf_shorter (hops ▸ List.mem_cons_self)
    · rw [retired_group, retired_counter]
      by_cases hg : g = gid
      · subst hg
        rw [if_pos rfl, if_pos rfl, hy]
        rfl
      · rw [if_neg hg, if_neg hg, hy]

end Sys2Proof.AddressSpaces
end

section
/-!
PROOFS. The device-memory window, the host stream, Plahoard ports and the inlet (R111, R138, R151, R382, R383, R386 to R388).
-/

namespace Sys2Proof.MemoryHierarchy

open Sys2Proof Sys2Proof.Machine Sys2Proof.Claims Sys2Proof.AddressSpaces

/-! ### The device-memory window (R111, R138, R383) -/

/-- R138: how an access ends whose last sector has performed. -/
def windowDone (got : List Byte) (t : State) (old : List Byte) : WindowOp → State
  | .write _ => { t with hostStatus := 0 }
  | _ => { t with hostRead := got ++ old, hostStatus := 0 }

section Window

variable {s : State} {win : DWord} {got : List Byte} {fn off len : Nat} {wr : WindowOp} (he : s.enabled = true)
include he

/-- R383: an access that leaves the window is an Unsupported Request. -/
theorem windowAccess_outside (htop : s.hbmTop fn < windowLocal win off + windowBytes len wr) :
    s.windowAccess win got fn off len wr = { s with hostStatus := 1, hostRead := [] } := by
  unfold State.windowAccess
  exact (if_neg (by simp [he])).trans (if_pos (.inl htop))

variable (htop : windowLocal win off + windowBytes len wr ≤ s.hbmTop fn) (hok : badAtomicOp wr (windowBytes len wr) (s.windowAt fn win off) = false)
include htop hok

/-- R111, R138: an access that the window holds waits, or its first sector performs and what is left of it is held. -/
theorem windowAccess_inside :
    (let n := windowBytes len wr
     let at_ := s.windowAt fn win off
     let k := min n (32 - at_ % 32)
     let p := s.windowPiece fn at_ k wr
     s.windowAccess win got fn off len wr =
      if n ≠ 0 ∧ (s.hbmShut at_ ∨ s.heldLines.contains (at_ / 128)) ∨ (isAtomicOp wr ∧ s.closed) then
        s.holdStep ⟨.deviceMemoryWindowAccess fn off len wr, win, got⟩
      else if k < n then p.1.holdStep ⟨.deviceMemoryWindowAccess fn (off + k) (n - k) (windowRest k wr), win, got ++ p.2⟩
      else windowDone got p.1 p.2 wr) := by
  have hin : ¬(s.hbmTop fn < windowLocal win off + windowBytes len wr ∨
      badAtomicOp wr (windowBytes len wr) (s.windowAt fn win off) = true) := by simp [hok, htop]
  have hen : ¬(!s.enabled) = true := by simp [he]
  unfold State.windowAccess
  dsimp only
  rw [if_neg hen, if_neg hin]
  generalize s.windowPiece _ _ _ _ = p
  obtain ⟨t, old⟩ := p
  cases wr <;> rfl

/-- R111: an access waits whose line a slot keeps, or that stands behind one that has not performed. -/
theorem windowAccess_waits (hn : windowBytes len wr ≠ 0)
    (hheld : s.hbmShut (s.windowAt fn win off) = true ∨ s.windowAt fn win off / 128 ∈ s.heldLines) :
    s.windowAccess win got fn off len wr = s.holdStep ⟨.deviceMemoryWindowAccess fn off len wr, win, got⟩ := by
  rw [windowAccess_inside he htop hok]
  exact if_pos (.inl ⟨hn, hheld.imp id List.contains_iff_mem.2⟩)

/-- R137, R138: the access goes on in the step: its first sector performs, and what is left of it is held. -/
theorem windowAccess_goesOn
    (hfree : windowBytes len wr = 0 ∨ s.hbmShut (s.windowAt fn win off) = false ∧ s.windowAt fn win off / 128 ∉ s.heldLines)
    (hatomic : isAtomicOp wr = false ∨ s.closed = false) :
    (let n := windowBytes len wr
     let k := min n (32 - s.windowAt fn win off % 32)
     let p := s.windowPiece fn (s.windowAt fn win off) k wr
     s.windowAccess win got fn off len wr =
      if k < n then p.1.holdStep ⟨.deviceMemoryWindowAccess fn (off + k) (n - k) (windowRest k wr), win, got ++ p.2⟩
      else windowDone got p.1 p.2 wr) := by
  intro n k p
  rw [windowAccess_inside he htop hok]
  refine if_neg ?_
  rintro (⟨hn, hheld⟩ | ⟨ha, hc⟩)
  · rcases hfree with h0 | ⟨hshut, hline⟩
    · exact hn h0
    · simp [hshut, hline] at hheld
  · rcases hatomic with h | h <;> simp [h] at ha hc

end Window

section ReadWrite

variable {s : State} {win : DWord} {got : List Byte} {fn off : Nat} (he : s.enabled = true)
include he

theorem windowAccess_read {len : Nat} (htop : windowLocal win off + len ≤ s.hbmTop fn)
    (hfree : len = 0 ∨ s.hbmShut (s.windowAt fn win off) = false ∧ s.windowAt fn win off / 128 ∉ s.heldLines) :
    (let at_ := s.windowAt fn win off
     let k := min len (32 - at_ % 32)
     let used := s.cacheLine fn at_
     let bs := got ++ used.memRead (s.func fn).owner at_ k
     s.windowAccess win got fn off len .read =
      if k < len then used.holdStep ⟨.deviceMemoryWindowAccess fn (off + k) (len - k) .read, win, bs⟩
      else { used with hostRead := bs, hostStatus := 0 }) :=
  windowAccess_goesOn (wr := .read) he htop rfl hfree (.inl rfl)

theorem windowAccess_write {len : Nat} {bs : List Byte} (htop : windowLocal win off + bs.length ≤ s.hbmTop fn)
    (hfree : bs.length = 0 ∨ s.hbmShut (s.windowAt fn win off) = false ∧ s.windowAt fn win off / 128 ∉ s.heldLines) :
    (let at_ := s.windowAt fn win off
     let k := min bs.length (32 - at_ % 32)
     let t := ((s.cacheLine fn at_).memWrite (s.func fn).owner at_ (bs.take k)).touch none (.dpa at_)
     s.windowAccess win got fn off len (.write bs) =
      if k < bs.length then t.holdStep ⟨.deviceMemoryWindowAccess fn (off + k) (bs.length - k) (.write (bs.drop k)), win, got⟩
      else { t with hostStatus := 0 }) := by
  have h := windowAccess_goesOn (len := len) (wr := .write bs) (got := got) he htop rfl hfree (.inl rfl)
  dsimp only [State.windowPiece] at h
  rw [List.append_nil] at h
  exact h

end ReadWrite

/-! ### AtomicOps through the window (R151, log 102) -/

/-- An operand of 4 or 8 aligned bytes lies in one sector. -/
theorem atomic_one_sector {n a : Nat} (hn : n = 4 ∨ n = 8) (ha : a % n = 0) : min n (32 - a % 32) = n := by
  rcases hn with rfl | rfl <;> omega

theorem atomic_wellFormed {wr : WindowOp} {n a : Nat} (hn : n = 4 ∨ n = 8) (ha : a % n = 0)
    (hcas : ∀ cmp x, wr = .cas cmp x → cmp.length = x.length) : badAtomicOp wr n a = false := by
  have hsize : (n == 4 || n == 8) = true := by simpa using hn
  cases wr with
  | cas cmp x => simp [badAtomicOp, hsize, ha, hcas cmp x rfl]
  | _ => simp [badAtomicOp, hsize, ha]

/-- R151: an AtomicOp whose line is free performs in one step: the new value goes to its home and the old one to the host. -/
theorem windowAccess_atomic {s : State} {fn off len n new : Nat} {wr : WindowOp} {win : DWord} (he : s.enabled = true) (hc : s.closed = false)
    (hn : n = 4 ∨ n = 8) (hlen : windowBytes len wr = n) (hal : s.windowAt fn win off % n = 0) (htop : windowLocal win off + n ≤ s.hbmTop fn)
    (hshut : s.hbmShut (s.windowAt fn win off) = false) (hline : s.windowAt fn win off / 128 ∉ s.heldLines)
    (hcas : ∀ cmp x, wr = .cas cmp x → cmp.length = x.length)
    (hnew : windowAtomic n (leVal ((s.cacheLine fn (s.windowAt fn win off)).memRead (s.func fn).owner (s.windowAt fn win off) n)) wr = some new) :
    (let at_ := s.windowAt fn win off
     let used := s.cacheLine fn at_
     s.windowAccess win [] fn off len wr =
      { (used.memWrite (s.func fn).owner at_ (leBytes new n)).touch none (.dpa at_) with
        hostRead := used.memRead (s.func fn).owner at_ n, hostStatus := 0 }) := by
  have hbad : badAtomicOp wr (windowBytes len wr) (s.windowAt fn win off) = false := by rw [hlen, atomic_wellFormed hn hal hcas]
  have h := windowAccess_goesOn (got := []) he (hlen.symm ▸ htop) hbad (.inr ⟨hshut, hline⟩) (.inr hc)
  simp only [hlen, atomic_one_sector hn hal, Nat.lt_irrefl, if_false, List.nil_append] at h
  cases wr with
  | read | write => cases hnew
  | fetchAdd | swap | cas =>
    simp only [State.windowPiece, hnew] at h
    exact h

/-! ### The host stream (R382) -/

/-- A removal of launches takes services from a function, and nothing else. -/
def withoutServices (gids : List Nat) (f : Func) : Func := { f with services := f.services.filter fun x => !gids.contains x.2.gid }

theorem removeLaunches_func (s : State) (ls : List Nat) (fn : Nat) : ∃ gids, (s.removeLaunches ls).func fn = withoutServices gids (s.func fn) := by
  refine ⟨(s.groups.filter fun e => ls.contains e.2.launch).map Prod.fst, ?_⟩
  refine (congrArg (Option.getD · (Func.reset fn)) (get_mapVals s.funcs (withoutServices _) fn)).trans ?_
  unfold State.func KMap.getD
  cases KMap.get s.funcs fn <;> rfl

theorem removeLaunches_streamErr (s : State) (ls : List Nat) (fn : Nat) : ((s.removeLaunches ls).func fn).streamErr = (s.func fn).streamErr := by
  obtain ⟨gids, hfunc⟩ := removeLaunches_func s ls fn
  rw [hfunc]
  rfl

theorem queue_modQueue (s : State) (fn q : Nat) (f : Queue → Queue) : (s.modQueue fn q f).queue fn q = f (s.queue fn q) := by
  simp [State.queue, State.modQueue, Func.queue, KMap.getD_put]

/-- R382: without a ductus, what has arrived and not started goes, and nothing else of the function but services. -/
theorem dropArrived_plain {s : State} {fn q : Nat} (h : (s.queue fn q).ductus = none) :
    ((s.dropArrived fn q).queue fn q).arrived = [] ∧ ((s.dropArrived fn q).func fn).streamErr = (s.func fn).streamErr := by
  simp only [State.dropArrived, h]
  refine ⟨by rw [queue_modQueue], ?_⟩
  rw [State.modQueue, State.func_modFunc_same]
  exact removeLaunches_streamErr s _ fn

/-- R382: the failed packet's report. -/
def streamFailed (s : State) (fn : Nat) : State :=
  { s.modFunc fn fun f => { f with streamErr := true } with irqs := s.irqs ++ [.integrity fn] }

theorem streamFailed_func (s : State) (fn : Nat) : (streamFailed s fn).func fn = { s.func fn with streamErr := true } :=
  State.func_modFunc_same s fn fun f => { f with streamErr := true }

theorem exec_tlpIntegrityFail (s : State) (fn : Nat) : exec (.tlpIntegrityFail fn) s =
    .next (((s.func fn).queues.filter fun q => q.2.hostRing).foldl (fun s q => s.dropArrived fn q.1) (streamFailed s fn)) := rfl

theorem exec_tlpIntegrityFail_noHostRing {s : State} {fn : Nat} (h : ∀ q ∈ (s.func fn).queues, q.2.hostRing = false) :
    exec (.tlpIntegrityFail fn) s = .next (streamFailed s fn) := by
  rw [exec_tlpIntegrityFail, List.filter_eq_nil_iff.2 fun q hq => by simp [h q hq]]
  rfl

theorem exec_tlpIntegrityFail_hostRing {s : State} {fn q : Nat} {y : Queue} (hq : (s.func fn).queues = [(q, y)]) (hring : y.hostRing = true)
    (hd : y.ductus = none) :
    ∃ t, exec (.tlpIntegrityFail fn) s = .next t ∧ (t.queue fn q).arrived = [] ∧ (t.func fn).streamErr = true := by
  have hqueue : (streamFailed s fn).queue fn q = y := by
    simp [State.queue, streamFailed_func, Func.queue, hq, KMap.getD, KMap.get]
  have hdrop := dropArrived_plain (s := streamFailed s fn) (fn := fn) (q := q) (by rw [hqueue, hd])
  have hrings : [(q, y)].filter (fun q => q.2.hostRing) = [(q, y)] := by simp [hring]
  refine ⟨(streamFailed s fn).dropArrived fn q, ?_, hdrop.1, ?_⟩
  · rw [exec_tlpIntegrityFail, hq, hrings]
    rfl
  · rw [hdrop.2, streamFailed_func]

theorem fetchFails_failedStream {s : State} {fn a : Nat} (h : (s.func fn).streamErr = true) (ha : Config.hostWindow ≤ a) :
    s.fetchFails fn a = true := by
  simp [State.fetchFails, h, ha]

/-! ### Links (R387, R388) -/

theorem port_modPort (s : State) (p q : Nat) (f : Port → Port) : (s.modPort p f).port q = if q = p then f (s.port p) else s.port q := by
  simp only [State.port, State.modPort, KMap.getD_put]

theorem exec_pauseFlit {s : State} {p : Nat} (cc : Nat) (h : (s.port p).up = true) :
    exec (.pauseFlit p cc) s = .next (s.modPort p fun x => { x with paused := some (s.caln + cc) }) :=
  congrArg Host.Outcome.next (if_pos h)

/-- R388: the link is late when 1 ms has passed since every announced end. -/
theorem exec_linkDownTimeout_early {s : State} {p e : Nat} (he : e ∈ (s.port p).paused.toList ++ (s.port p).told.toList)
    (h : s.caln < e + 1000000) : exec (.linkDownTimeout p) s = .next s := by
  refine congrArg Host.Outcome.next (if_neg fun hlate => ?_)
  have := List.all_eq_true.1 hlate.2 e he
  simp only [decide_eq_true_eq] at this
  omega

theorem exec_linkDownTimeout_late {s : State} {p : Nat} (hup : (s.port p).up = true)
    (h : ∀ e ∈ (s.port p).paused.toList ++ (s.port p).told.toList, e + 1000000 ≤ s.caln) :
    ∃ t, exec (.linkDownTimeout p) s = .next t ∧ t = { s with ports := t.ports } ∧ (t.port p).up = false ∧ (t.port p).paused = none ∧
      ∀ q, q ≠ p → t.port q = s.port q := by
  refine ⟨_, congrArg Host.Outcome.next (if_pos ⟨hup, List.all_eq_true.2 fun e he => by simpa using h e he⟩), rfl, ?_, ?_, fun q hq => ?_⟩
  · rw [port_modPort, if_pos rfl]
  · rw [port_modPort, if_pos rfl]
  · rw [port_modPort, if_neg hq]

/-! ### The inlet (R386) -/

theorem exec_inletOvertemp {s : State} {n : Nat} (h : s.hotInlet = false) : exec (.inletOvertemp n) s =
    .next (if 45 < n then { s with hotInlet := true, irqs := s.irqs ++ [.thermal] } else s) := by
  show Host.Outcome.next _ = _
  simp [h]

theorem exec_inletTemperatureFall {s : State} {n : Nat} (h : s.hotInlet = true) : exec (.inletTemperatureFall n) s =
    .next (if n < 40 then { s with hotInlet := false, irqs := s.irqs.filter (· != .thermal) } else s) := by
  show Host.Outcome.next _ = _
  simp [h]

/-- Settles O53: an access through the window by the three ways that it can go, an AtomicOp as one that lies in one sector, and the events of
links and inlet each as its definition's branch. -/
theorem linkSteps : Obligations.LinkSteps := by
  unfold Obligations.LinkSteps
  refine ⟨?access, fun s fn off len wr => rfl, fun s h fn off len wr hstep => ?held, fun s fn off len n wr he hc hn hal htop hshut hline => ?atomic,
    ⟨fun s fn h => exec_tlpIntegrityFail_noHostRing h, fun s fn q y hq hring hd => exec_tlpIntegrityFail_hostRing hq hring hd,
      fun s fn a h ha => fetchFails_failedStream h ha, fun s fn key => rfl⟩,
    fun s p cc h => exec_pauseFlit cc h, fun s p => rfl, fun s p => rfl,
    fun s p hup => ⟨fun ⟨e, he, hlt⟩ => exec_linkDownTimeout_early he hlt, fun h => exec_linkDownTimeout_late hup h⟩,
    fun s n h => ⟨fun hn => ?hot, fun hn => ?cool⟩, fun s n h => ⟨fun hn => ?falls, fun hn => ?stays⟩⟩
  case access =>
    rintro s win got fn off len wr he (rfl | ⟨bs, rfl⟩)
    · refine ⟨fun h => windowAccess_outside he h, fun h hn hheld => windowAccess_waits he h rfl hn hheld, fun h hfree => ⟨fun _ => ?_, ?_⟩⟩
      · exact windowAccess_read he h hfree
      · rintro bs ⟨⟩
    · refine ⟨fun h => windowAccess_outside he h, fun h hn hheld => windowAccess_waits he h rfl hn hheld, fun h hfree => ⟨?_, ?_⟩⟩
      · rintro ⟨⟩
      · rintro bs ⟨⟩
        exact windowAccess_write he h hfree
  case held => simp only [State.runHeld, hstep]
  case atomic =>
    have hpow : 256 ^ n = 2 ^ (8 * n) := by rw [Nat.pow_mul]
    refine ⟨?_, ?_, ?_⟩
    · rintro x rfl hx
      exact congrArg Host.Outcome.next (windowAccess_atomic he hc hn hx hal htop hshut hline (by rintro _ _ ⟨⟩) (by rw [← hpow]; rfl))
    · rintro x rfl hx
      exact congrArg Host.Outcome.next (windowAccess_atomic he hc hn hx hal htop hshut hline (by rintro _ _ ⟨⟩) rfl)
    · rintro x y rfl hx hy
      refine congrArg Host.Outcome.next (windowAccess_atomic he hc hn hy hal htop hshut hline ?_ rfl)
      rintro _ _ ⟨⟩
      exact hx.trans hy.symm
  case hot => rw [exec_inletOvertemp h, if_pos hn]
  case cool => rw [exec_inletOvertemp h, if_neg (Nat.not_lt.2 hn)]
  case falls => rw [exec_inletTemperatureFall h, if_pos hn]
  case stays => rw [exec_inletTemperatureFall h, if_neg (Nat.not_lt.2 hn)]

end Sys2Proof.MemoryHierarchy
end

section
/-!
PROOFS. The maintenance calendar: drain windows, slots and their ends, sweeps, overruns and cooldowns (R108 to R114, R135, R343, R386).
-/

namespace Sys2Proof.MemoryHierarchy

open Sys2Proof Sys2Proof.Machine Sys2Proof.Claims Sys2Proof.AddressSpaces

/-! ### The drain window and the start of a slot (R110, R135, R388) -/

theorem upcoming_noSlot {s : State} (h : s.slots = []) : s.upcoming = nextSlot s.caln := by
  simp [State.upcoming, h]

theorem sendPauses_other (s : State) {x : Slot} (h : x.kind ≠ .calibration) : s.sendPauses x = s := by
  unfold State.sendPauses
  split
  · contradiction
  · rfl

theorem exec_drainWindowClose {s : State} {k : SlotKind} {start : Nat} (hs : s.slots = []) (hn : nextSlot s.caln = (k, start))
    (hstart : start ≤ s.caln + 600) :
    exec .drainWindowClose s = .next (({ s with slots := [Slot.ahead k start], closed := true } : State).sendPauses (Slot.ahead k start)) := by
  have hu : s.upcoming = (k, start) := (upcoming_noSlot hs).trans hn
  refine congrArg Host.Outcome.next ?_
  unfold State.drainClose
  rw [hu, hs]
  exact if_pos hstart

theorem exec_slotStart {s : State} {x : Slot} (hs : s.slots = [x]) (hon : x.on = false) (hstart : x.start ≤ s.caln) :
    exec .slotStart s = .next (({ s with slots := [{ x with on := true }] } : State).deferAll x.kind x.start) := by
  refine congrArg Host.Outcome.next ?_
  simp [State.slotStart, hs, hon, hstart]

/-- R112, R135: with nothing in flight and no untaken message, a start sets nothing aside. -/
theorem deferAll_quiet {s : State} (k : SlotKind) (start : Nat) (hr : ∀ e ∈ s.reqs, s.inFlight e.2 = false)
    (hu : ∀ e ∈ s.sheaves, s.untaken e.2 = [] ∧ e.2.late = []) : s.deferAll k start = s := by
  have hreqs : s.reqs.map (fun e => (e.1, if s.inFlight e.2 then { e.2 with deferred := true } else e.2)) = s.reqs := by
    refine (List.map_congr_left fun e he => ?_).trans (List.map_id _)
    rw [hr e he]
    rfl
  have hsheaves : s.sheaves.map (fun e => (e.1, { e.2 with late := s.untaken e.2 })) = s.sheaves := by
    refine (List.map_congr_left fun e he => ?_).trans (List.map_id _)
    obtain ⟨hnone, hlate⟩ := hu e he
    rw [hnone, ← hlate]
    rfl
  have hrecords : (s.reqs.filterMap fun e =>
      if s.inFlight e.2 then (KMap.get s.ops e.2.op).map fun o => s.unitOf e.2 o else none) ++
      (s.sheaves.flatMap fun e => (s.untaken e.2).map fun h => (3, h % 192)) = [] := by
    rw [List.append_eq_nil_iff]
    refine ⟨List.filterMap_eq_nil_iff.2 fun e he => by simp [hr e he], List.flatMap_eq_nil_iff.2 fun e he => by simp [(hu e he).1]⟩
  unfold State.deferAll
  rw [hrecords, hreqs, hsheaves]
  rfl

/-! ### The end of a slot (R109, R111, R114, R135) -/

theorem slotOver_one {s : State} {x : Slot} (hs : s.slots = [x]) (hon : x.on = true) (hstop : x.stop ≤ s.caln) : s.slotOver = some x := by
  simp [State.slotOver, hs, hon, hstop]

theorem hotUpdate_only (s : State) (core : Nat) : s.hotUpdate core = { s with cores := (s.hotUpdate core).cores } := rfl

theorem hotUpdates_only (cs : List Nat) (s : State) : cs.foldl State.hotUpdate s = { s with cores := (cs.foldl State.hotUpdate s).cores } := by
  induction cs generalizing s with
  | nil => rfl
  | cons c cs ih => rw [List.foldl_cons, ih, hotUpdate_only]

theorem factorUpdate_only (s : State) : s.factorUpdate = { s with factor := s.factorUpdate.factor } := by
  unfold State.factorUpdate
  dsimp only
  split
  · rfl
  · split <;> rfl

theorem sweepEnd_only (s : State) : s.sweepEnd = { s with cores := s.sweepEnd.cores, factor := s.sweepEnd.factor, sweeps := s.sweeps + 1 } := by
  unfold State.sweepEnd
  dsimp only
  rw [factorUpdate_only, hotUpdates_only]

/-- The slot's end, once it has been found: the records, then what a sweep does, then the engines open. -/
theorem exec_slotEnd {s : State} {x : Slot} (hs : s.slots = [x]) (hon : x.on = true) (hstop : x.stop ≤ s.caln)
    (hslots : (({ s with slots := [] } : State).extensionEnd x).slots = []) :
    (let s1 := ({ s with slots := [] } : State).extensionEnd x
     exec .slotEnd s = .next (if didSweep x.kind x.start then s1.sweepEnd.openAll else s1.openAll)) := by
  intro s1
  have herase : s.slots.erase x = [] := by simp [hs]
  refine congrArg Host.Outcome.next ?_
  simp only [State.slotEnd, slotOver_one hs hon hstop, herase]
  cases didSweep x.kind x.start
  · exact if_pos (List.isEmpty_iff.2 hslots)
  · refine if_pos (List.isEmpty_iff.2 ?_)
    rw [if_pos rfl, sweepEnd_only]
    exact hslots

theorem locPut_slots (s : State) (o : Nat) (l : Loc) (bs : List (Nat × Byte)) : (s.locPut o l bs).slots = s.slots := by
  cases l with
  | dpa a => rw [State.locPut, memPut_only]
  | place p off => cases p <;> rfl
  | host a => rfl

theorem poke_slots (s : State) (o : Nat) (l : Loc) (bs : List (Nat × Byte)) : (s.poke o l bs).slots = s.slots :=
  foldl_related (R := fun s t => t.slots = s.slots) (fun _ => rfl) (fun h h' => h'.trans h) (fun s _ => locPut_slots s o _ _) bs s

theorem touch_slots (s : State) (duc : Option Nat) (l : Loc) : (s.touch duc l).slots = s.slots := by rw [touch_onlyRefutes]

/-- R115: a record is dropped, or it goes to the log and its line has been written. -/
theorem clog_cases (s : State) (ws : List Nat) : s.clog ws = { s with clogOvf := true } ∨
    ∃ l bs tail irqs, s.clog ws = { (s.poke 0 l bs).touch none l with clogTail := tail, irqs := irqs } := by
  unfold State.clog
  dsimp only
  split
  · exact .inl rfl
  · exact .inr ⟨_, _, _, _, rfl⟩

theorem clog_slots (s : State) (ws : List Nat) : (s.clog ws).slots = s.slots := by
  obtain h | ⟨l, bs, tail, irqs, h⟩ := clog_cases s ws
  · rw [h]
  · rw [h]
    show ((s.poke 0 l bs).touch none l).slots = s.slots
    rw [touch_slots, poke_slots]

theorem extensionEnd_slots (s : State) (x : Slot) : (s.extensionEnd x).slots = s.slots := by
  unfold State.extensionEnd
  split
  · rfl
  · exact clog_slots _ _

/-- R111, R135: what waits at a slot's end is told from the requests, operations and sheaf entries alone. -/
theorem openSteps_of_same {s t : State} (hreqs : t.reqs = s.reqs) (hops : t.ops = s.ops) : t.openSteps = s.openSteps := by
  funext q r
  simp only [State.openSteps, State.sources, hreqs, hops]

/-- R135: what opening the engines leaves, over a state that has the traffic of `s`. -/
theorem openAll_traffic {s t : State} (hreqs : t.reqs = s.reqs) (hops : t.ops = s.ops) (hsheaves : t.sheaves = s.sheaves)
    (hagenda : t.agenda = s.agenda) : t.openAll.closed = false ∧ (∀ e ∈ t.openAll.reqs, e.2.deferred = false) ∧
    t.openAll.agenda = ((s.reqs.filter fun e => e.2.deferred).flatMap fun e => s.openSteps e.1 e.2) ++
      (s.sheaves.flatMap fun e => e.2.late.map fun h => if e.2.aborting then Instr.abort e.1 h else .seal e.1 h) ++ s.agenda := by
  refine ⟨rfl, fun e he => ?_, ?_⟩
  · obtain ⟨e', -, rfl⟩ := List.mem_map.1 he
    rfl
  · unfold State.openAll
    rw [openSteps_of_same hreqs hops, hreqs, hsheaves, hagenda]

/-- R109, R135: the end of a slot that was not extended. -/
theorem exec_slotEnd_plain {s : State} {x : Slot} (hs : s.slots = [x]) (hon : x.on = true) (hstop : x.stop ≤ s.caln) (hext : x.ext = none) :
    (let s1 : State := { s with slots := [], remainder := KMap.del s.remainder (kindIndex x.kind) }
     exec .slotEnd s = .next (if didSweep x.kind x.start then s1.sweepEnd.openAll else s1.openAll)) := by
  have h := exec_slotEnd hs hon hstop (extensionEnd_slots _ x)
  simp only [State.extensionEnd, hext] at h
  exact h

theorem slotEnd_opens {s : State} {x : Slot} (hs : s.slots = [x]) (hon : x.on = true) (hstop : x.stop ≤ s.caln) (hext : x.ext = none) :
    ∃ t, exec .slotEnd s = .next t ∧ t.slots = [] ∧ t.closed = false ∧ (∀ e ∈ t.reqs, e.2.deferred = false) ∧ t.heldSteps = s.heldSteps ∧
      t.agenda = ((s.reqs.filter fun e => e.2.deferred).flatMap fun e => s.openSteps e.1 e.2) ++
        (s.sheaves.flatMap fun e => e.2.late.map fun h => if e.2.aborting then Instr.abort e.1 h else .seal e.1 h) ++ s.agenda := by
  refine ⟨_, exec_slotEnd_plain hs hon hstop hext, ?_⟩
  split
  · rw [sweepEnd_only]
    obtain ⟨hclosed, hreqs, hagenda⟩ := openAll_traffic (s := s) (t := { s with
      slots := [], remainder := KMap.del s.remainder (kindIndex x.kind)
      cores := _, factor := _, sweeps := s.sweeps + 1 }) rfl rfl rfl rfl
    exact ⟨rfl, hclosed, hreqs, rfl, hagenda⟩
  · obtain ⟨hclosed, hreqs, hagenda⟩ := openAll_traffic (s := s) (t := { s with
      slots := [], remainder := KMap.del s.remainder (kindIndex x.kind) }) rfl rfl rfl rfl
    exact ⟨rfl, hclosed, hreqs, rfl, hagenda⟩

/-- R109: the slots that do a sweep's housekeeping. -/
theorem didSweep_iff (k : SlotKind) (start : Nat) : didSweep k start = true ↔
    k = .sweep ∨ (k = .calibration ∧ nextStart .sweep start < start + Config.slotLength .calibration) := by
  cases k <;> simp [didSweep]

/-- R113, R114: what the end of an extension records: the slot's start, kind and the length of the extension, and what is left. -/
theorem overrunRecord_eq (start used left : Nat) (k : SlotKind) : clogRecord start 2 k 0 used left =
    [start, 2 * 2 ^ 56 + ((match k with | .refresh => 0 | .sweep => 1 | .calibration => 2) + 1) * 2 ^ 48 + used % 2 ^ 32, left, 0] := by
  cases k <;> simp [clogRecord, kindIndex]

theorem exec_slotEnd_extended {s : State} {x : Slot} {left : Nat} (hs : s.slots = [x]) (hon : x.on = true) (hstop : x.stop ≤ s.caln)
    (hext : x.ext = some left) :
    exec .slotEnd s = .next (let used := x.stop - (x.start + Config.slotLength x.kind)
      let at_ := match x.kind with | .refresh => 0 | .sweep => 1 | .calibration => 2
      let s1 := ({ s with slots := [], irqs := s.irqs ++ [.calendarFault]
                          remainder := if used = Config.slotLength x.kind then KMap.put s.remainder at_ left
                            else KMap.del s.remainder at_ } : State).clog [x.start, 2 * 2 ^ 56 + (at_ + 1) * 2 ^ 48 + used % 2 ^ 32, left, 0]
      if x.kind = .sweep ∨ (x.kind = .calibration ∧ nextStart .sweep x.start < x.start + Config.slotLength .calibration)
        then s1.sweepEnd.openAll else s1.openAll) := by
  have h := exec_slotEnd hs hon hstop (extensionEnd_slots _ x)
  simp only [State.extensionEnd, hext, overrunRecord_eq, didSweep_iff] at h
  rw [h]
  cases x.kind <;> rfl

/-! ### What a sweep measures (R343, R386) -/

/-- R343: what the readings of a sweep make of a core's registers. -/
def sweptCore (caln : Nat) (c : CoreReg) (temp droop : Nat) : CoreReg :=
  let spent := c.cool.any fun e => decide (e ≤ caln)
  let cool := if spent then none else c.cool
  if c.tth < temp ∨ c.dth < droop then { c with temp := temp, droop := droop, hot := true, cool := none }
  else if c.hot = true ∧ spent = false then
    { c with temp := temp, droop := droop, hot := true
             cool := if temp + 4 ≤ c.tth ∧ droop + 8 ≤ c.dth then some (cool.getD (caln + 128000)) else none }
  else { c with temp := temp, droop := droop, hot := false, cool := cool }

theorem coreReg_modCoreReg (s : State) (n j : Nat) (f : CoreReg → CoreReg) :
    (s.modCoreReg n f).coreReg j = if j = n then f (s.coreReg n) else s.coreReg j := by
  simp only [State.coreReg, State.modCoreReg, KMap.getD_put]

theorem hotUpdate_coreReg (s : State) (core j : Nat) : (s.hotUpdate core).coreReg j = if j = core then
    sweptCore s.caln (s.coreReg core) (Config.sensorTemp core s.sweeps % 256) (Config.sensorDroop core s.sweeps % 256) else s.coreReg j := by
  rw [State.hotUpdate, coreReg_modCoreReg]
  split
  · generalize Config.sensorTemp core s.sweeps % 256 = temp
    generalize Config.sensorDroop core s.sweeps % 256 = droop
    generalize s.coreReg core = c
    obtain ⟨ctemp, cdroop, hot, dth, tth, cool, parkth⟩ := c
    simp only [sweptCore]
    by_cases hcool : temp + 4 ≤ tth ∧ droop + 8 ≤ dth
    · cases cool with
      | none => cases hot <;> simp [hcool]
      | some e => by_cases he : e ≤ s.caln <;> cases hot <;> simp [hcool, he]
    · cases cool with
      | none => cases hot <;> simp [hcool]
      | some e => by_cases he : e ≤ s.caln <;> cases hot <;> simp [hcool, he]
  · rfl

/-- R343: the readings of several cores, each once. -/
theorem hotUpdates_coreReg (cs : List Nat) (hcs : cs.Nodup) (s : State) (core : Nat) : (cs.foldl State.hotUpdate s).coreReg core =
    if core ∈ cs then sweptCore s.caln (s.coreReg core) (Config.sensorTemp core s.sweeps % 256) (Config.sensorDroop core s.sweeps % 256)
    else s.coreReg core := by
  induction cs generalizing s with
  | nil => rfl
  | cons c cs ih =>
    obtain ⟨hnew, hrest⟩ := List.nodup_cons.1 hcs
    have hcaln : (s.hotUpdate c).caln = s.caln := rfl
    have hsweeps : (s.hotUpdate c).sweeps = s.sweeps := rfl
    rw [List.foldl_cons, ih hrest, hotUpdate_coreReg, hcaln, hsweeps]
    by_cases hc : core = c
    · subst hc
      simp [hnew]
    · simp [hc]

theorem sweepEnd_cores (s : State) : s.sweepEnd.cores = ((List.range 192).foldl State.hotUpdate s).cores := by
  show (State.factorUpdate _).cores = _
  rw [factorUpdate_only]

theorem sweepEnd_coreReg (s : State) (core : Nat) : s.sweepEnd.coreReg core = if core < 192 then
    sweptCore s.caln (s.coreReg core) (Config.sensorTemp core s.sweeps % 256) (Config.sensorDroop core s.sweeps % 256)
    else s.coreReg core := by
  have h := hotUpdates_coreReg (List.range 192) List.nodup_range s core
  simp only [List.mem_range] at h
  unfold State.coreReg at h ⊢
  rw [sweepEnd_cores, h]

/-- R386: the refill factor follows the module's power. -/
theorem sweepEnd_factor (s : State) : s.sweepEnd.factor = (let p := Config.modulePower s.sweeps
    if s.mpl < p then max (s.factor - 1) 2 else if 100 * p < 95 * s.mpl then min (s.factor + 1) 8 else s.factor) := by
  unfold State.sweepEnd
  rw [hotUpdates_only]
  dsimp only
  unfold State.factorUpdate
  dsimp only
  split
  · rfl
  · split <;> rfl

/-! ### Overruns and cooldowns (R113, R343) -/

theorem slotLength_pos (k : SlotKind) : 0 < Config.slotLength k := by cases k <;> decide

theorem exec_calendarOverrun {s : State} {x : Slot} {n : Nat} (hs : s.slots = [x]) (hon : x.on = true) (hstop : x.stop ≤ s.caln)
    (hext : x.ext = none) (hn : n ≠ 0) : exec (.calendarOverrun n) s = .next { s with slots := [{ x with
      stop := x.stop + (Config.extension s.turn % Config.slotLength x.kind + 1), ext := some n }] } := by
  refine congrArg Host.Outcome.next ?_
  simp [State.overrun, slotOver_one hs hon hstop, hext, hn, hs, Nat.add_assoc]

theorem exec_cooldownExpiry {s : State} {core at_ : Nat} (hc : (s.coreReg core).cool = some at_) (hle : at_ ≤ s.caln) :
    exec (.cooldownExpiry core) s = .next (s.modCoreReg core fun c => { c with hot := false, cool := none }) := by
  show Host.Outcome.next _ = _
  rw [hc]
  exact congrArg Host.Outcome.next (if_pos hle)

/-- Settles O43: each step with its one slot found, the traffic of a slot's end followed through the sweep and the records, and a sweep's
readings through the cores, each of which is read once. -/
theorem calendarSteps : Obligations.CalendarSteps := by
  unfold Obligations.CalendarSteps
  refine ⟨fun s k start hs hn hstart => ⟨exec_drainWindowClose hs hn hstart, fun hk => ?_⟩,
    fun s x hs hon hstart => ⟨exec_slotStart hs hon hstart, fun hr hu => ?_⟩,
    fun s x hs hon hstop hext => slotEnd_opens hs hon hstop hext,
    fun s x left hs hon hstop hext => exec_slotEnd_extended hs hon hstop hext,
    fun s x hs hon hstop hext hk => ?_,
    fun s => ⟨sweepEnd_only s, fun core hcore => ?_, fun core hcore => ?_, sweepEnd_factor s⟩,
    fun s x n hs hon hstop hext hn => ⟨_, Nat.succ_pos _, Nat.mod_lt _ (slotLength_pos _), exec_calendarOverrun hs hon hstop hext hn⟩,
    fun s core at_ hc hle => ⟨_, exec_cooldownExpiry hc hle, rfl, ?_, fun c hne => ?_⟩⟩
  · rw [exec_drainWindowClose hs hn hstart, sendPauses_other _ hk]
    rfl
  · rw [exec_slotStart hs hon hstart]
    exact congrArg Host.Outcome.next (deferAll_quiet _ _ hr hu)
  · rw [exec_slotEnd_plain hs hon hstop hext, hk]
    rfl
  · rw [sweepEnd_coreReg, if_pos hcore]
    rfl
  · rw [sweepEnd_coreReg, if_neg (Nat.not_lt.2 hcore)]
  · rw [coreReg_modCoreReg, if_pos rfl]
  · rw [coreReg_modCoreReg, if_neg hne]

end Sys2Proof.MemoryHierarchy
end

section
/-!
PROOFS. Budgets, clock gating and resumption, admission (R78, R331 to R336, R344, R349, R386).
-/

namespace Sys2Proof.MemoryHierarchy

open Sys2Proof Sys2Proof.Machine Sys2Proof.Claims Sys2Proof.AddressSpaces

/-! ### Budgets (R335, R336) -/

/-- R335: a context of a slice whose budget has expired. -/
def dueGroup (slice : Nat) (g : Group) : Group := if g.slice = slice ∧ !g.ended then { g with budgetDue := true } else g

/-- R335: the counter is reloaded, and the contexts of the slice are due for the trap. -/
def budgetExpired (s : State) (slice : Nat) (x : Slice) : State :=
  { s with slices := KMap.put s.slices slice { x with left := x.budget }, groups := s.groups.map fun e => (e.1, dueGroup slice e.2) }

theorem budgetExpired_group (s : State) (slice g : Nat) (x : Slice) :
    (budgetExpired s slice x).group g = (s.group g).map (dueGroup slice) := get_mapVals s.groups (dueGroup slice) g

/-- R336: the gangs of one context that are held in DQPOP. -/
def popsIn (e : Nat × Group) : List (Nat × Nat) :=
  e.2.gangs.filterMap fun k => match k.hold with | .dqpop _ => some (e.1, k.id) | _ => none

theorem popsOf_eq (s : State) (slice : Nat) : s.popsOf slice = s.groups.flatMap fun e => if e.2.slice = slice then popsIn e else [] := by
  unfold State.popsOf
  induction s.groups with
  | nil => rfl
  | cons e es ih =>
    rw [List.flatMap_cons, ← ih]
    by_cases h : e.2.slice = slice
    · rw [List.filter_cons_of_pos (by simpa using h), List.flatMap_cons, if_pos h]
      rfl
    · rw [List.filter_cons_of_neg (by simpa using h), if_neg h, List.nil_append]

/-- Being due for the trap moves no context to another slice and holds no gang. -/
theorem popsOf_budgetExpired (s : State) (slice : Nat) (x : Slice) : (budgetExpired s slice x).popsOf slice = s.popsOf slice := by
  have hdue : ∀ g : Group, (dueGroup slice g).slice = g.slice ∧ (dueGroup slice g).gangs = g.gangs := by
    intro g
    unfold dueGroup
    split <;> exact ⟨rfl, rfl⟩
  rw [popsOf_eq, popsOf_eq, budgetExpired, List.flatMap_map]
  refine congrArg (List.flatMap · s.groups) (funext fun e => ?_)
  simp only [popsIn, hdue]

theorem exec_budgetExpiry {s : State} {slice : Nat} {x : Slice} (hx : KMap.get s.slices slice = some x) (hb : x.budget ≠ 0) (hl : x.left = 0) :
    exec (.budgetExpiry slice) s = .next ((s.popsOf slice).foldl (fun s k => s.budgetTrap k.1 k.2) (budgetExpired s slice x)) := by
  rw [← popsOf_budgetExpired s slice x]
  show Host.Outcome.next _ = _
  rw [hx]
  exact congrArg Host.Outcome.next (if_pos ⟨hb, hl⟩)

theorem exec_budgetTrap {s : State} {gid n : Nat} {g : Group} {k : Gang} (hg : s.group gid = some g) (hk : g.gang n = some k)
    (hready : g.budgetReady k = true) (hs : s.speculative g = false) : exec (.budgetTrap gid n) s =
    .next ((s.modGroup gid fun g => { g with budgetDue := false }).takeTrap gid n ⟨0x0F, 0, 0, g.active k, k.nextPc⟩) := by
  refine congrArg Host.Outcome.next ?_
  simp only [State.budgetTrap, hg, hk, hready, hs, if_true, Bool.false_eq_true, if_false]

/-- R335, R336: the holds at which a gang takes the trap. -/
theorem budgetReady_iff (g : Group) (k : Gang) : g.budgetReady k = true ↔ g.budgetDue = true ∧ g.h = false ∧ g.faultParked = false ∧
    g.offCore = false ∧ g.presence = .here ∧ (k.hold = .none ∨ k.hold = .retry ∨ ∃ d, k.hold = .dqpop d) := by
  unfold Group.budgetReady
  cases k.hold <;> simp [and_assoc]

/-! ### Clock gating and resumption (R349) -/

theorem exec_clusterClockGate {s : State} {cl : Nat} (hidle : 64 ≤ (s.cluster cl).idle) (hg : (s.cluster cl).gated = false)
    (hsteps : s.clusterSteps cl = false) :
    exec (.clusterClockGate cl) s = .next (s.modCluster cl fun c => { c with gated := true }) :=
  congrArg Host.Outcome.next (if_pos ⟨hidle, by simp [hg], by simp [hsteps]⟩)

/-- R349: in the window of the last resumption, 8 may come back. -/
theorem exec_clusterResume {s : State} {cl : Nat} (hnext : s.resumeNext = some cl) (hw : s.window = s.caln / 16) :
    exec (.clusterResume cl) s = .next (if s.admitted < 8 then
      { s.modCluster cl fun c => { c with gated := false, wanted := false, idle := 0 } with
        lastC := cl, window := s.caln / 16, admitted := s.admitted + 1 } else s) := by
  refine congrArg Host.Outcome.next ?_
  simp only [hnext, hw, true_and, if_true]

/-! ### Admission (R331 to R334) -/

theorem pickJob_cons_claims {s : State} {die lid : Nat} {l : Launch} {ps : List Places} (r : List (Nat × Launch)) (hc : s.claim die l = ps)
    (hne : ps ≠ []) : s.pickJob die ((lid, l) :: r) = some (lid, l, ps) := by
  subst hc
  rw [State.pickJob, List.findSome?_cons]
  split
  · rename_i hsome
    split at hsome
    · contradiction
    · exact hsome.symm
  · rename_i hnone
    split at hnone
    · contradiction
    · contradiction

theorem pickJob_none {s : State} {die : Nat} {q : List (Nat × Launch)} (h : ∀ e ∈ q, s.claim die e.2 = []) : s.pickJob die q = none := by
  rw [State.pickJob, List.findSome?_eq_none_iff]
  intro e he
  rw [h e he]

/-- R334: the job, if there is one, that was passed over 16 times and could fit. -/
def starvedJobs (s : State) (die : Nat) (q : List (Nat × Launch)) : List (Nat × Launch) :=
  (q.filter fun e => decide (16 ≤ s.passCount die e.1) && s.fitsIdle die e.2).take 1

/-- R334: the jobs of which the engine may take one. -/
def eligibleJobs (s : State) (die : Nat) (q : List (Nat × Launch)) : List (Nat × Launch) :=
  if starvedJobs s die q = [] then q else starvedJobs s die q

theorem eligibleJobs_subset {s : State} {die : Nat} {q : List (Nat × Launch)} {e : Nat × Launch} (he : e ∈ eligibleJobs s die q) : e ∈ q := by
  unfold eligibleJobs at he
  split at he
  · exact he
  · exact List.mem_of_mem_filter (List.mem_of_mem_take he)

/-- R334: the first job comes first where no other has been passed over 16 times. -/
theorem eligibleJobs_head {s : State} {die : Nat} {e : Nat × Launch} {r : List (Nat × Launch)} (h : ∀ e ∈ r, s.passCount die e.1 < 16) :
    ∃ r', eligibleJobs s die (e :: r) = e :: r' := by
  have hrest : (r.filter fun e => decide (16 ≤ s.passCount die e.1) && s.fitsIdle die e.2) = [] := by
    refine List.filter_eq_nil_iff.2 fun e he => ?_
    have := h e he
    simp only [Bool.and_eq_true, decide_eq_true_eq]
    omega
  unfold eligibleJobs starvedJobs
  rw [List.filter_cons, hrest]
  split
  · exact ⟨[], rfl⟩
  · exact ⟨r, rfl⟩

theorem eligibleJobs_starved {s : State} {die : Nat} {e e' : Nat × Launch} (h : s.passCount die e.1 < 16) (h' : 16 ≤ s.passCount die e'.1)
    (hfits : s.fitsIdle die e'.2 = true) : eligibleJobs s die [e, e'] = [e'] := by
  have hno : ¬16 ≤ s.passCount die e.1 := by omega
  have hstarved : starvedJobs s die [e, e'] = [e'] := by simp [starvedJobs, hno, h', hfits]
  simp [eligibleJobs, hstarved]

/-- R334: an engine that finds no teams to claim admits none. -/
theorem admission_noClaim {s : State} {die : Nat} (h : ∀ e ∈ eligibleJobs s die (s.readyQueue (s.islandPart die)), s.claim die e.2 = []) :
    s.admission die = s := by
  have hpick : s.pickJob die (eligibleJobs s die (s.readyQueue (s.islandPart die))) = none := pickJob_none h
  unfold eligibleJobs starvedJobs at hpick
  unfold State.admission
  split
  · rfl
  · dsimp only
    rw [hpick]

/-- R331, R334: the engine admits the first job where it has teams to claim and no other has been passed over 16 times. -/
theorem admission_first {s : State} {die lid : Nat} {l : Launch} {ps : List Places} {r : List (Nat × Launch)} (hhot : s.hotInlet = false)
    (hisle : s.islands.contains die = true) (hq : s.readyQueue (s.islandPart die) = (lid, l) :: r)
    (hr : ∀ e ∈ r, s.passCount die e.1 < 16) (hc : s.claim die l = ps) (hne : ps ≠ []) :
    s.admission die = (s.setPass die lid 0).admitClaim lid l ps := by
  obtain ⟨r', hfirst⟩ := eligibleJobs_head (e := (lid, l)) hr
  have hpick : s.pickJob die (eligibleJobs s die ((lid, l) :: r)) = some (lid, l, ps) := by
    rw [hfirst]
    exact pickJob_cons_claims r' hc hne
  have hopen : ¬(s.hotInlet = true ∨ (!s.islands.contains die) = true) := by rw [hhot, hisle]; simp
  unfold eligibleJobs starvedJobs at hpick
  unfold State.admission
  rw [if_neg hopen]
  dsimp only
  rw [hq, hpick]
  simp

/-- R78: a region of less than 64 KiB holds no image, so that no team is claimed. -/
theorem claim_smallRegion {s : State} (die : Nat) {l : Launch} (h : (s.func l.fn).ctxSize < 65536) : s.claim die l = [] := by
  have hroom : ∀ want, s.imageRoom l.fn l.record.stack want = [] := by
    intro want
    have hunits : (s.func l.fn).ctxSize / 65536 = 0 := Nat.div_eq_of_lt h
    simp [State.imageRoom, hunits, fitImages]
  unfold State.claim
  split
  · rfl
  · unfold State.heldByRegion
    dsimp only
    rw [hroom]
    simp only [List.length_nil, Nat.zero_div, Nat.zero_mul, List.take_zero, ite_self, Nat.le_zero_eq, List.length_eq_zero_iff]
    split
    · assumption
    · rfl

/-- Settles O44: each step is its definition where it is enabled; DQPOP's holds are those from before the expiry, and admission goes by the jobs
among which the engine may choose. -/
theorem budgetAndAdmissionSteps : Obligations.BudgetAndAdmissionSteps := by
  unfold Obligations.BudgetAndAdmissionSteps
  refine ⟨fun s slice x hx hb hl => ⟨budgetExpired s slice x, rfl, KMap.get_put_same _ _ _, fun g y hg => ?due, ?pops⟩,
    fun s gid n g k hg hk hready hs => exec_budgetTrap hg hk hready hs, budgetReady_iff,
    fun s cl hidle hg hsteps => exec_clusterClockGate hidle hg hsteps, fun s cl hnext hw => ⟨fun h => ?resumes, fun h => ?waits⟩,
    fun s die lid l ps r hhot hisle hq hr hc hne => congrArg Host.Outcome.next (admission_first hhot hisle hq hr hc hne),
    fun s die lid l lid' l' hq hpass hstarved hfits hc => congrArg Host.Outcome.next (admission_noClaim ?starved),
    fun s die lid l hq hsize => congrArg Host.Outcome.next (admission_noClaim fun e he => ?small),
    fun s die hhot => congrArg Host.Outcome.next (if_pos (.inl hhot))⟩
  case due =>
    rw [budgetExpired_group, hg]
    simp [dueGroup]
  case pops =>
    have hpops := popsOf_eq s slice
    refine ⟨fun h => ?_, fun gid n h => ?_⟩
    · rw [exec_budgetExpiry hx hb hl, hpops.trans h]
      rfl
    · rw [exec_budgetExpiry hx hb hl, hpops.trans h]
      rfl
  case resumes => rw [exec_clusterResume hnext hw, if_pos h]
  case waits => rw [exec_clusterResume hnext hw, if_neg (Nat.not_lt.2 h)]
  case starved =>
    rw [hq, eligibleJobs_starved hpass hstarved hfits]
    exact List.forall_mem_singleton.2 hc
  case small =>
    have hmem := eligibleJobs_subset he
    rw [hq, List.mem_singleton] at hmem
    rw [hmem]
    exact claim_smallRegion die hsize

end Sys2Proof.MemoryHierarchy
end

section
/-!
PROOFS. Local loads and stores at their issue (R42, R89 to R92, R121, R123).
-/

namespace Sys2Proof.MemoryHierarchy

open Sys2Proof Sys2Proof.Machine Sys2Proof.Claims Sys2Proof.AddressSpaces

/-! ### The issuing context -/

/-- What the state holds of the issuing gang. -/
theorem issuer_context {s : State} {k : Iss} (h : s.issuer = some k) :
    s.group k.gid = some k.g ∧ k.g.gang k.gang.id = some k.gang ∧ k.gang.clause = some k.cl := by
  obtain ⟨⟨n, -, hgang⟩, hg, hcl⟩ := State.issuer_some h
  have hid : k.gang.id = n := by simpa using List.find?_some hgang
  exact ⟨hg, hid ▸ hgang, hcl⟩

/-- A change of one context that leaves its spill stack alone changes no byte. -/
theorem modGroup_sameBytes (s : State) (gid : Nat) {f : Group → Group} (hf : ∀ g, (f g).stack = g.stack) : SameBytes s (s.modGroup gid f) := by
  intro o l
  cases l with
  | dpa a => rfl
  | host a => rfl
  | place p off =>
    cases p with
    | team tm c => rfl
    | scratch d => rfl
    | stack g t =>
      simp only [State.locGet, State.placeGet, State.group_modGroup]
      by_cases hg : g = gid
      · subst hg
        rw [if_pos rfl]
        cases s.group g with
        | none => rfl
        | some x => simp only [Option.map_some, hf]
      · rw [if_neg hg]

/-- The issuing context becomes what a change makes of it, and nothing else changes. -/
theorem modIss_became {s : State} {k : Iss} {f : Group → Group} (hg : s.group k.gid = some k.g) (hf : ∀ g, (f g).stack = g.stack) :
    Became s k (f k.g) (s.modIss k f) := by
  refine ⟨⟨rfl, modGroup_sameBytes s k.gid hf, fun g hne => ?_⟩, ?_⟩
  · exact (State.group_modGroup s k.gid g f).trans (if_neg hne)
  · rw [State.modIss, State.group_modGroup_same, hg]
    rfl

/-- R12, R21: a long-latency result comes under way in the issuing context. -/
theorem addLong_flies {s : State} {k : Iss} (h : s.issuer = some k) (kind : LongKind) : Flies s k kind (s.addLong k kind) := by
  obtain ⟨hg, hgang, hcl⟩ := issuer_context h
  have hmod := modIss_became (f := fun g =>
    let ord := match g.gang k.gang.id with
      | some k => (match k.clause with | some c => c.longs + 1 | none => 1)
      | none => 1
    let g1 : Group := { g with
      longs := g.longs ++ [⟨g.nextSeq, k.cl.serial, ord, g.nextSeq, kind, 0, kind.targets.map (RegWrite.now k.g)⟩], nextSeq := g.nextSeq + 1 }
    g1.modGang k.gang.id fun k => { k with clause := k.clause.map fun c => { c with longs := c.longs + 1 } }) hg fun _ => rfl
  simp only [hgang, hcl] at hmod
  exact hmod

/-- R318: a launch that is not predicted has no watch set. -/
theorem watch_unpredicted {s : State} {g : Group} (keys : List Nat) (h : s.speculative g = false) : s.watch g keys = some s := by
  have hpred : s.predOf g = none := by
    unfold State.speculative at h
    unfold State.predOf
    cases hl : s.launchOf g with
    | none => rfl
    | some l =>
      cases hp : l.pred with
      | none => simp [hp]
      | some p => simp_all
  simp only [State.watch, hpred]

/-! ### Loads (R89 to R91) -/

/-- The checks of a load of `n` elements, in the order of R35. -/
def loadChks (n : Nat) (d base off : Opnd) (k : Iss) : List Chk :=
  [typeChk (byteTy k.ty), quillChk k (uniform d [base, off]), runChk k 1 d k.ty n, pairedChk 2 d base, srcChk k 2 base false false,
    pairedChk 3 d off, srcChk k 3 off false false]

section Load

variable {s : State} {k : Iss} {n : Nat} {d base off : Opnd} (hi : s.Issues k (loadChks n d base off k))
include hi

theorem loadN_outOfBounds (hbad : s.outOfBounds k (k.accessThreads (Opnd.isSca d)) (k.localAddr base off) (n * elemBytes k.ty) ≠ []) :
    s.loadN n d base off = .next (s.trapOn k 4 1 (k.blame (Opnd.isSca d)
      (s.outOfBounds k (k.accessThreads (Opnd.isSca d)) (k.localAddr base off) (n * elemBytes k.ty)))) :=
  (State.insn_pass hi _).trans (congrArg Host.Outcome.next (if_pos hbad))

/-- R91, R123: a load in bounds is under way with the pieces of every element. -/
theorem loadN_flies (hbad : s.outOfBounds k (k.accessThreads (Opnd.isSca d)) (k.localAddr base off) (n * elemBytes k.ty) = [])
    (hs : s.speculative k.g = false) : ∃ t, s.loadN n d base off = .next t ∧
    Flies s k (.load d k.ty ((k.accessThreads (Opnd.isSca d)).flatMap fun th => (List.range n).flatMap fun j =>
      s.piecesOf k th j (k.localAddr base off th + j * elemBytes k.ty) (elemBytes k.ty))) t := by
  refine ⟨_, (State.insn_pass hi _).trans (congrArg Host.Outcome.next ?_), addLong_flies hi.1 _⟩
  simp only [hbad, ne_eq, not_true_eq_false, if_false, watch_unpredicted _ hs]

end Load

/-! ### Stores (R92, R121) -/

/-- The checks of a store of `n` elements, in the order of R35. -/
def storeChks (n : Nat) (x base off : Opnd) (k : Iss) : List Chk :=
  [typeChk (byteTy k.ty), quillChk k (Opnd.isUni x && Opnd.isUni base && Opnd.isUni off), dataChk k x n, srcChk k 2 base false false,
    srcChk k 3 off false false]

/-- R42, R92: a store stands for all its threads at once. -/
def storeUniform (x base off : Opnd) (k : Iss) : Bool := Opnd.isUni x && Opnd.isUni base && Opnd.isUni off && (k.g.quill || k.space != 3)

/-- R92: the threads that store. -/
def storeThreads (x base off : Opnd) (k : Iss) : List Nat :=
  if storeUniform x base off k then (if k.g.quill || k.run != 0 then [0] else []) else threadsOf k.run

/-- R121: pieces enter the FIFO one after another, numbered on from the context's issue order. -/
theorem storeEntries_eq (ps : List (Place × List (Nat × Byte))) (seq : Nat) :
    ((List.range ps.length).map fun j => let p := ps.getD j (.scratch 0, []); (⟨seq + j, .store p.1 p.2⟩ : FifoEntry)) =
      (ps.zipIdx seq).map fun p => ⟨p.2, .store p.1.1 p.1.2⟩ := by
  refine List.ext_getElem (by simp) fun j h₁ h₂ => ?_
  have hj : j < ps.length := by simpa using h₁
  simp [hj]

theorem pushStores_became {s : State} {k : Iss} (hg : s.group k.gid = some k.g) (ps : List (Place × List (Nat × Byte))) :
    Became s k { k.g with
      fifo := k.g.fifo ++ (ps.zipIdx k.g.nextSeq).map fun p => ⟨p.2, .store p.1.1 p.1.2⟩, nextSeq := k.g.nextSeq + ps.length }
      (s.pushStores k ps) := by
  rw [← storeEntries_eq]
  exact modIss_became (f := fun g => { g with
    fifo := g.fifo ++ (List.range ps.length).map fun j => let p := ps.getD j (.scratch 0, []); ⟨g.nextSeq + j, .store p.1 p.2⟩
    nextSeq := g.nextSeq + ps.length }) hg fun _ => rfl

section Store

variable {s : State} {k : Iss} {n : Nat} {x base off : Opnd} (hi : s.Issues k (storeChks n x base off k))
include hi

theorem storeN_outOfBounds (hbad : s.outOfBounds k (storeThreads x base off k) (k.localAddr base off) (n * elemBytes k.ty) ≠ []) :
    s.storeN n x base off = .next (s.trapOn k 4 1 (k.blameRun (storeUniform x base off k)
      (s.outOfBounds k (storeThreads x base off k) (k.localAddr base off) (n * elemBytes k.ty)))) :=
  (State.insn_pass hi _).trans (congrArg Host.Outcome.next (if_pos hbad))

variable (hbad : s.outOfBounds k (storeThreads x base off k) (k.localAddr base off) (n * elemBytes k.ty) = [])
include hbad

/-- R319: a predicted launch does not store to scratch. -/
theorem storeN_stalls (hs : s.speculative k.g = true ∧ k.space = 2 ∧ storeThreads x base off k ≠ []) :
    s.storeN n x base off = .next (s.stall k 3) :=
  (State.insn_pass hi _).trans (congrArg Host.Outcome.next ((if_neg (not_not_intro hbad)).trans (if_pos hs)))

/-- R92, R121: the stored pieces enter the FIFO, in thread order. -/
theorem storeN_enters (hs : ¬(s.speculative k.g = true ∧ k.space = 2 ∧ storeThreads x base off k ≠ [])) :
    (let ps := (storeThreads x base off k).flatMap fun th => s.storePieces k x n th (k.localAddr base off th)
     ∃ t, s.storeN n x base off = .next t ∧ Became s k { k.g with
      fifo := k.g.fifo ++ (ps.zipIdx k.g.nextSeq).map fun p => ⟨p.2, .store p.1.1 p.1.2⟩, nextSeq := k.g.nextSeq + ps.length } t) :=
  ⟨_, (State.insn_pass hi _).trans (congrArg Host.Outcome.next ((if_neg (not_not_intro hbad)).trans (if_neg hs))),
    pushStores_became (issuer_context hi.1).1 _⟩

end Store

theorem exec_load : ∀ e ∈ ([(.ld, 1), (.ld2, 2), (.ld4, 4)] : List ((Opnd → Opnd → Opnd → Instr) × Nat)), ∀ d base off s,
    exec (e.1 d base off) s = s.loadN e.2 d base off := by
  simp only [List.forall_mem_cons, List.not_mem_nil, false_implies, implies_true, and_true]
  exact ⟨fun _ _ _ _ => rfl, fun _ _ _ _ => rfl, fun _ _ _ _ => rfl⟩

theorem exec_store : ∀ e ∈ ([(.st, 1), (.st2, 2), (.st4, 4)] : List ((Opnd → Opnd → Opnd → Instr) × Nat)), ∀ x base off s,
    exec (e.1 x base off) s = s.storeN e.2 x base off := by
  simp only [List.forall_mem_cons, List.not_mem_nil, false_implies, implies_true, and_true]
  exact ⟨fun _ _ _ _ => rfl, fun _ _ _ _ => rfl, fun _ _ _ _ => rfl⟩

/-- Settles O17: the clauses hold for a load and for a store of any number of elements, of which each instruction fixes one. -/
theorem loadsAndStoresIssue : Obligations.LoadsAndStoresIssue := by
  unfold Obligations.LoadsAndStoresIssue
  refine ⟨fun e he d base off s k hi => ?load, fun e he x base off s k hi => ?store⟩
  case load =>
    rw [exec_load e he]
    exact ⟨fun hbad => loadN_outOfBounds hi hbad, fun hbad hs => loadN_flies hi hbad hs⟩
  case store =>
    rw [exec_store e he]
    exact ⟨fun hbad => storeN_outOfBounds hi hbad, fun hbad hs => storeN_stalls hi hbad hs, fun hbad hs => storeN_enters hi hbad hs⟩

end Sys2Proof.MemoryHierarchy
end

section
/-!
PROOFS. A GATHER that waits for its issue as the first instruction of its clause (R23, R103, R125).
-/

namespace Sys2Proof.MemoryHierarchy

open Sys2Proof Sys2Proof.Machine Sys2Proof.Claims

/-! ### A GATHER whose ISSUE is not enabled -/

/-- R23, R125: until its ISSUE is enabled, a GATHER of canonical addresses leaves its gang at it, and the clause that it begins has not read
its form. -/
theorem exec_gather_unissued {s : State} {k : Iss} {n : Nat} {base off : Opnd} (hi : s.Issues k [typeChk (byteTy k.ty), quillChk k false,
      vecChk k 1 (.vec n) (wide k.ty), baseChk 2 base, offChk k 3 off])
    (hbad : k.nonCanonical (k.virtAddr base off) = []) (hwait : s.canIssue k .gather = false) :
    exec (.gather (.vec n) base off) s = .next (s.unissued k) := by
  refine (State.insn_pass hi _).trans (congrArg Host.Outcome.next ?_)
  simp only [hbad, State.issueWhenReady, hwait, ne_eq, not_true_eq_false, if_false, Bool.false_eq_true]

/-- A group of 64 threads in the first instruction of a clause, which has read its form; one of its stores to scratch has not left. -/
def firstClause : ClauseBuf := ⟨0x1000, 0x000FFE00, [], 0, 0, 8, 1, 0, true⟩
def firstGang : Gang := ⟨[0, 1, 2, 3], 0x1000, some firstClause, .none, 0, 0, 0⟩
def storingGroup : Group :=
  { groupStart 0 placedLaunch 0 0 0 0 false ⟨0, 0, 0, 64, 24, 0⟩ 0 0 none with
    clauseSerial := 1, gangs := [firstGang], nextSeq := 1, fifo := [⟨0, .store (.scratch 0) [(0, 1)]⟩] }
def gatherBehindStore : State := { State.reset with launches := [(0, placedLaunch)], groups := [(0, storingGroup)], cur := some ⟨0, 0⟩ }
def firstIssuer : Iss := ⟨0, storingGroup, firstGang, firstClause⟩

theorem gatherBehindStore_issues : gatherBehindStore.Issues firstIssuer [typeChk (byteTy firstIssuer.ty), quillChk firstIssuer false,
    vecChk firstIssuer 1 (.vec 0) (wide firstIssuer.ty), baseChk 2 .zero, offChk firstIssuer 3 .zero] := ⟨rfl, by decide⟩

theorem gatherBehindStore_canonical : firstIssuer.nonCanonical (firstIssuer.virtAddr .zero .zero) = [] :=
  List.filter_eq_nil_iff.2 fun _ _ => by
    have haddr : ∀ th, firstIssuer.virtAddr .zero .zero th = 0 := fun _ => rfl
    rw [haddr]
    decide

theorem gatherBehindStore_waits : gatherBehindStore.canIssue firstIssuer .gather = false := rfl

/-- Whether the clauses of group 0 have read their forms. -/
def formsRead (s : State) : Option (List (Option Bool)) := (s.group 0).map fun g => g.gangs.map fun k => k.clause.map ClauseBuf.formed

/-- Refutes O22: its clauses on an issue that waits say that the gang retries, which keeps the form that its clause has read. In the state
`gatherBehindStore` the GATHER is the first instruction of its clause and waits for a store to leave; the clause has then not read its form
(R23), and it reads it when the GATHER is issued again. -/
theorem not_engineOperationsIssue : ¬ Obligations.EngineOperationsIssue := by
  unfold Obligations.EngineOperationsIssue
  rintro ⟨-, ⟨hgather, -, -⟩, -⟩
  obtain ⟨-, -, hretries⟩ := hgather 0 .zero .zero gatherBehindStore firstIssuer gatherBehindStore_issues
  have hclaim := hretries gatherBehindStore_canonical gatherBehindStore_waits
  rw [exec_gather_unissued gatherBehindStore_issues gatherBehindStore_canonical gatherBehindStore_waits] at hclaim
  have hread : formsRead (gatherBehindStore.unissued firstIssuer) = formsRead (gatherBehindStore.retry firstIssuer) :=
    congrArg formsRead (Host.Outcome.next.inj hclaim)
  have hunread : formsRead (gatherBehindStore.unissued firstIssuer) = some [some false] := rfl
  have hkept : formsRead (gatherBehindStore.retry firstIssuer) = some [some true] := rfl
  rw [hunread, hkept] at hread
  exact absurd hread (by decide)

end Sys2Proof.MemoryHierarchy
end

section
/-!
PROOFS. GROUP_RETIRE: which contexts go, and what the last of a team leaves behind (R84, R175, R184, R188, R234, R338, R339).
-/

namespace Sys2Proof.MemoryHierarchy

open Sys2Proof Sys2Proof.Machine Sys2Proof.Claims Sys2Proof.AddressSpaces

/-! ### The contexts that go -/

/-- The state without the contexts `gone`, which retire with `g`. -/
def withoutContexts (s : State) (gone : List Nat) (g : Group) : State :=
  { s with
    groups := s.groups.filter fun e => !gone.contains e.1
    faults := s.faults.filter fun e => e.2.op.isSome || !gone.contains e.2.gid
    bars := s.bars.filter fun b => match b.1 with | .gb k _ => !gone.contains k | _ => true
    reserve := if g.quill then s.reserve else KMap.put s.reserve (8 * g.core + g.sub) false }

theorem withoutContexts_mem (s : State) (gone : List Nat) (g : Group) (e : Nat × Group) :
    e ∈ (withoutContexts s gone g).groups ↔ e ∈ s.groups ∧ e.1 ∉ gone := by
  simp [withoutContexts, List.mem_filter]

theorem withoutContexts_group (s : State) (gone : List Nat) (g : Group) (m : Nat) :
    (withoutContexts s gone g).group m = if m ∈ gone then none else s.group m := by
  refine (get_filterKeys s.groups (fun n => !gone.contains n) m).trans ?_
  by_cases h : m ∈ gone <;> simp [h, State.group]

/-- R184: the other context of a pair retires with its partner. -/
theorem retiring_partner {s : State} {gid p : Nat} {g x : Group} (hp : g.partner = some p) (hx : s.group p = some x) (hne : p ≠ gid) :
    (p, x) ∈ s.retiring gid g := by
  have hfam : p ∈ s.family gid g := by
    simp only [State.family, hp]
    exact List.mem_map.mpr ⟨(p, x), List.mem_filter.mpr ⟨KMap.get_mem hx, by simp⟩, rfl⟩
  refine List.mem_cons_of_mem _ (List.mem_filterMap.mpr ⟨p, List.mem_filter.mpr ⟨hfam, by simpa using hne⟩, ?_⟩)
  rw [hx]
  rfl

/-! ### The last group of a team on a core -/

/-- R84, R188: what the end of a team on a core makes of a context: its quill context stops. -/
def haltQuill (team core : Nat) (y : Group) : Group := if y.quill ∧ y.team = team ∧ y.core = core then y.halt else y

theorem haltQuill_quill (team core : Nat) (y : Group) : (haltQuill team core y).quill = y.quill := by
  unfold haltQuill; split <;> rfl

theorem haltQuill_team (team core : Nat) (y : Group) : (haltQuill team core y).team = y.team := by
  unfold haltQuill; split <;> rfl

theorem haltQuill_other {team core : Nat} {y : Group} (h : y.quill = false ∨ y.team ≠ team) : haltQuill team core y = y := by
  refine if_neg ?_
  rintro ⟨hq, ht, -⟩
  rcases h with h | h
  · rw [h] at hq; cases hq
  · exact h ht

/-- A group of the team is left on the core. -/
def TeamOnCore (s : State) (team core : Nat) : Prop := ∃ e ∈ s.groups, e.2.quill = false ∧ e.2.team = team ∧ e.2.core = core

theorem leaveCore_kept {s : State} {team core : Nat} (h : TeamOnCore s team core) : s.leaveCore team core = s := by
  obtain ⟨e, he, hq, ht, hc⟩ := h
  exact if_pos (List.any_eq_true.mpr ⟨e, he, by simp [hq, ht, hc]⟩)

theorem leaveCore_last {s : State} {team core : Nat} (h : ¬ TeamOnCore s team core) : s.leaveCore team core =
    { s with
      groups := s.groups.map fun e => (e.1, haltQuill team core e.2)
      teams := KMap.adjust s.teams team fun t => { t with cores := t.cores.filter (· != core), dq := KMap.del t.dq core } } := by
  have hnone : ¬ (s.groups.any fun e => !e.2.quill && e.2.team == team && e.2.core == core) = true := by
    intro ha
    obtain ⟨e, he, hb⟩ := List.any_eq_true.mp ha
    simp only [Bool.and_eq_true, Bool.not_eq_true', beq_iff_eq] at hb
    exact h ⟨e, he, hb.1.1, hb.1.2, hb.2⟩
  have hmap : (s.groups.map fun e => if e.2.quill ∧ e.2.team = team ∧ e.2.core = core then (e.1, e.2.halt) else e) =
      s.groups.map fun e => (e.1, haltQuill team core e.2) := by
    refine List.map_congr_left fun e _ => ?_
    unfold haltQuill
    split <;> rfl
  rw [← hmap]
  exact if_neg hnone

theorem leaveCore_only (s : State) (team core : Nat) : s.leaveCore team core =
    { s with groups := (s.leaveCore team core).groups, teams := (s.leaveCore team core).teams } := by
  by_cases h : TeamOnCore s team core
  · rw [leaveCore_kept h]
  · rw [leaveCore_last h]

theorem leaveCore_launches (s : State) (team core : Nat) : (s.leaveCore team core).launches = s.launches := by rw [leaveCore_only]

theorem leaveCore_group (s : State) (team core m : Nat) : (s.leaveCore team core).group m = s.group m ∨
    (s.leaveCore team core).group m = (s.group m).map (haltQuill team core) := by
  by_cases h : TeamOnCore s team core
  · rw [leaveCore_kept h]; exact .inl rfl
  · rw [leaveCore_last h]; exact .inr (get_mapVals s.groups (haltQuill team core) m)

/-! ### The last group of a team -/

/-- A group of the team is left. -/
def TeamLives (s : State) (team : Nat) : Prop := ∃ e ∈ s.groups, e.2.quill = false ∧ e.2.team = team

theorem TeamLives.of_leaveCore {s : State} {team core : Nat} (h : TeamLives (s.leaveCore team core) team) : TeamLives s team := by
  by_cases hc : TeamOnCore s team core
  · rwa [leaveCore_kept hc] at h
  · rw [leaveCore_last hc] at h
    obtain ⟨e, he, hq, ht⟩ := h
    obtain ⟨x, hx, rfl⟩ := List.mem_map.mp he
    exact ⟨x, hx, (haltQuill_quill team core x.2).symm.trans hq, (haltQuill_team team core x.2).symm.trans ht⟩

theorem leaveTeam_kept {s : State} {team launch slice : Nat} (h : TeamLives s team) : s.leaveTeam team launch slice = s := by
  obtain ⟨e, he, hq, ht⟩ := h
  exact if_pos (List.any_eq_true.mpr ⟨e, he, by simp [hq, ht]⟩)

theorem settleLaunch_only (s : State) (l : Nat) : s.settleLaunch l =
    { s with launches := (s.settleLaunch l).launches, sheaves := (s.settleLaunch l).sheaves } := by
  unfold State.settleLaunch
  split
  · split <;> rfl
  · rfl

theorem settleLaunch_launch {s : State} {l : Nat} {x : Launch} (hx : KMap.get s.launches l = some x) :
    ∃ y, KMap.get (s.settleLaunch l).launches l = some y ∧ y.retired = x.retired ∧ y.ender = x.ender ∧
      (x.next = x.teams → (∀ t ∈ s.teams, t.2.launch ≠ l) → y.ready = true) := by
  simp only [State.settleLaunch, hx]
  split
  · exact ⟨{ x with ready := true }, by rw [KMap.get_adjust_same, hx]; rfl, rfl, rfl, fun _ _ => rfl⟩
  · next h =>
    refine ⟨x, hx, rfl, rfl, fun hn ht => absurd ⟨hn, ?_⟩ h⟩
    simpa [List.any_eq_false] using ht

/-- The state in which the launch settles once its team has retired. -/
def teamRetired (s : State) (team launch slice : Nat) : State :=
  { s with
    teams := KMap.del s.teams team
    bars := s.bars.filter fun b => match b.1 with | .tb t _ => t != team | _ => true
    slices := if (KMap.del s.teams team).any fun t => t.2.slice == slice then s.slices else KMap.del s.slices slice
    launches := KMap.adjust s.launches launch fun l => { l with retired := l.retired + 1 } }

theorem teamRetired_launch (s : State) (team launch slice : Nat) : KMap.get (teamRetired s team launch slice).launches launch =
    (KMap.get s.launches launch).map fun l => { l with retired := l.retired + 1 } :=
  KMap.get_adjust_same s.launches launch fun l => { l with retired := l.retired + 1 }

theorem leaveTeam_last {s : State} {team launch slice : Nat} (h : ¬ TeamLives s team) :
    s.leaveTeam team launch slice = (teamRetired s team launch slice).settleLaunch launch := by
  refine if_neg fun ha => ?_
  obtain ⟨e, he, hb⟩ := List.any_eq_true.mp ha
  simp only [Bool.and_eq_true, Bool.not_eq_true', beq_iff_eq] at hb
  exact h ⟨e, he, hb.1, hb.2⟩

theorem leaveTeam_only (s : State) (team launch slice : Nat) : s.leaveTeam team launch slice =
    { s with
      teams := (s.leaveTeam team launch slice).teams, bars := (s.leaveTeam team launch slice).bars
      slices := (s.leaveTeam team launch slice).slices, launches := (s.leaveTeam team launch slice).launches
      sheaves := (s.leaveTeam team launch slice).sheaves } := by
  by_cases h : TeamLives s team
  · rw [leaveTeam_kept h]
  · rw [leaveTeam_last h, settleLaunch_only]; rfl

/-! ### GROUP_RETIRE -/

/-- R339: the state without the contexts that retire with `g`, which ends its launch on its sub-core as far as it is known. -/
def retiredContexts (s : State) (gid : Nat) (g : Group) : State :=
  (withoutContexts s ((s.retiring gid g).map Prod.fst) g).modLaunch g.launch fun l => { l with ender := g.issuer }

theorem retiredContexts_launch (s : State) (gid : Nat) (g : Group) : KMap.get (retiredContexts s gid g).launches g.launch =
    (KMap.get s.launches g.launch).map fun l => { l with ender := g.issuer } :=
  KMap.get_adjust_same s.launches g.launch fun l => { l with ender := g.issuer }

theorem groupRetire_eq {s : State} {gid : Nat} {g : Group} (hg : s.group gid = some g) : s.groupRetire gid =
    if !(s.retiring gid g).all (fun e => s.mayRetire e.1 e.2) then s
    else if g.quill then withoutContexts s ((s.retiring gid g).map Prod.fst) g
    else ((retiredContexts s gid g).leaveCore g.team g.core).leaveTeam g.team g.launch g.slice := by
  unfold State.groupRetire
  rw [hg]
  rfl

theorem exec_groupRetire_stays {s : State} {gid : Nat} {g : Group} (hg : s.group gid = some g)
    (h : ∃ e ∈ s.retiring gid g, s.mayRetire e.1 e.2 = false) : exec (.groupRetire gid) s = .next s := by
  obtain ⟨e, he, hm⟩ := h
  have hnot : (!(s.retiring gid g).all fun e => s.mayRetire e.1 e.2) = true := by
    rw [Bool.not_eq_true', List.all_eq_false]
    exact ⟨e, he, by simp [hm]⟩
  exact congrArg Host.Outcome.next ((groupRetire_eq hg).trans (if_pos hnot))

section
variable {s : State} {gid : Nat} {g : Group} (hg : s.group gid = some g) (hall : ∀ e ∈ s.retiring gid g, s.mayRetire e.1 e.2 = true)

include hg hall

theorem groupRetire_all : s.groupRetire gid =
    if g.quill then withoutContexts s ((s.retiring gid g).map Prod.fst) g
    else ((retiredContexts s gid g).leaveCore g.team g.core).leaveTeam g.team g.launch g.slice := by
  refine (groupRetire_eq hg).trans (if_neg ?_)
  rw [List.all_eq_true.mpr hall]
  decide

theorem exec_groupRetire_quill (hq : g.quill = true) :
    exec (.groupRetire gid) s = .next (withoutContexts s ((s.retiring gid g).map Prod.fst) g) :=
  congrArg Host.Outcome.next ((groupRetire_all hg hall).trans (if_pos hq))

theorem exec_groupRetire_group (hq : g.quill = false) : exec (.groupRetire gid) s =
    .next (((retiredContexts s gid g).leaveCore g.team g.core).leaveTeam g.team g.launch g.slice) :=
  congrArg Host.Outcome.next ((groupRetire_all hg hall).trans (if_neg (by simp [hq])))

end

/-! ### What a group that is not a quill context leaves -/

/-- The state after the group that retires, with the contexts that go with it. -/
def groupGone (s : State) (gid : Nat) (g : Group) : State :=
  ((retiredContexts s gid g).leaveCore g.team g.core).leaveTeam g.team g.launch g.slice

section
variable (s : State) (gid : Nat) (g : Group)

theorem groupGone_group (m : Nat) : (groupGone s gid g).group m = ((retiredContexts s gid g).leaveCore g.team g.core).group m := by
  unfold groupGone
  rw [leaveTeam_only]
  rfl

theorem retiredContexts_group (m : Nat) :
    (retiredContexts s gid g).group m = if m ∈ (s.retiring gid g).map Prod.fst then none else s.group m :=
  withoutContexts_group s _ g m

theorem retiredContexts_teamOnCore : TeamOnCore (retiredContexts s gid g) g.team g.core ↔
    ∃ e ∈ s.groups, e.1 ∉ (s.retiring gid g).map Prod.fst ∧ e.2.quill = false ∧ e.2.team = g.team ∧ e.2.core = g.core := by
  unfold TeamOnCore retiredContexts
  simp only [State.modLaunch_groups, withoutContexts_mem, and_assoc]

theorem retiredContexts_teamLives : TeamLives (retiredContexts s gid g) g.team ↔
    ∃ e ∈ s.groups, e.1 ∉ (s.retiring gid g).map Prod.fst ∧ e.2.quill = false ∧ e.2.team = g.team := by
  unfold TeamLives retiredContexts
  simp only [State.modLaunch_groups, withoutContexts_mem, and_assoc]

theorem groupGone_gone {m : Nat} (hm : m ∈ (s.retiring gid g).map Prod.fst) : (groupGone s gid g).group m = none := by
  have hr : (retiredContexts s gid g).group m = none := (retiredContexts_group s gid g m).trans (if_pos hm)
  rw [groupGone_group]
  rcases leaveCore_group (retiredContexts s gid g) g.team g.core m with h | h <;> rw [h, hr]
  rfl

theorem groupGone_kept {m : Nat} {y : Group} (hm : m ∉ (s.retiring gid g).map Prod.fst) (hy : s.group m = some y)
    (hk : y.quill = false ∨ y.team ≠ g.team) : (groupGone s gid g).group m = some y := by
  have hr : (retiredContexts s gid g).group m = some y := ((retiredContexts_group s gid g m).trans (if_neg hm)).trans hy
  rw [groupGone_group]
  rcases leaveCore_group (retiredContexts s gid g) g.team g.core m with h | h <;> rw [h, hr]
  rw [Option.map_some, haltQuill_other hk]

theorem groupGone_memories : (groupGone s gid g).mem = s.mem ∧ (groupGone s gid g).scratch = s.scratch ∧ (groupGone s gid g).host = s.host ∧
    (groupGone s gid g).reserve = if g.quill then s.reserve else KMap.put s.reserve (8 * g.core + g.sub) false := by
  unfold groupGone
  rw [leaveTeam_only, leaveCore_only]
  exact ⟨rfl, rfl, rfl, rfl⟩

/-- A team that keeps a group on the core loses the contexts that go, and nothing more. -/
theorem groupGone_teamStays
    (h : ∃ e ∈ s.groups, e.1 ∉ (s.retiring gid g).map Prod.fst ∧ e.2.quill = false ∧ e.2.team = g.team ∧ e.2.core = g.core) :
    groupGone s gid g = retiredContexts s gid g := by
  have hcore := (retiredContexts_teamOnCore s gid g).mpr h
  have hteam : TeamLives (retiredContexts s gid g) g.team := by
    obtain ⟨e, he, hq, ht, -⟩ := hcore
    exact ⟨e, he, hq, ht⟩
  rw [groupGone, leaveCore_kept hcore, leaveTeam_kept hteam]

/-- R188: the last group of the team on its core stops the quill context there. -/
theorem groupGone_quill (h : ∀ e ∈ s.groups, e.1 ∉ (s.retiring gid g).map Prod.fst → e.2.quill = false → e.2.team = g.team → e.2.core ≠ g.core)
    {m : Nat} {y : Group} (hm : m ∉ (s.retiring gid g).map Prod.fst) (hy : s.group m = some y) (hq : y.quill = true) (ht : y.team = g.team)
    (hc : y.core = g.core) : (groupGone s gid g).group m = some y.halt := by
  have hlast : ¬ TeamOnCore (retiredContexts s gid g) g.team g.core := fun hon => by
    obtain ⟨e, he, hne, hq, ht, hc⟩ := (retiredContexts_teamOnCore s gid g).mp hon
    exact h e he hne hq ht hc
  have hr : (retiredContexts s gid g).group m = some y := ((retiredContexts_group s gid g m).trans (if_neg hm)).trans hy
  rw [groupGone_group, leaveCore_last hlast]
  refine (get_mapVals _ (haltQuill g.team g.core) m).trans ?_
  rw [show KMap.get (retiredContexts s gid g).groups m = some y from hr, Option.map_some, haltQuill, if_pos ⟨hq, ht, hc⟩]

/-- R335, R338: the last group of the team retires the team, and settles its launch. -/
theorem groupGone_teamRetires (h : ∀ e ∈ s.groups, e.1 ∉ (s.retiring gid g).map Prod.fst → e.2.quill = false → e.2.team ≠ g.team) :
    KMap.get (groupGone s gid g).teams g.team = none ∧ ∀ l, KMap.get s.launches g.launch = some l →
      ∃ y, KMap.get (groupGone s gid g).launches g.launch = some y ∧ y.retired = l.retired + 1 ∧ y.ender = g.issuer ∧
        (l.next = l.teams → (∀ e ∈ s.teams, e.1 ≠ g.team → e.2.launch ≠ g.launch) → y.ready = true) := by
  have hdead : ¬ TeamLives (retiredContexts s gid g) g.team := fun hl => by
    obtain ⟨e, he, hne, hq, ht⟩ := (retiredContexts_teamLives s gid g).mp hl
    exact h e he hne hq ht
  have hlast : ¬ TeamOnCore (retiredContexts s gid g) g.team g.core := fun ⟨e, he, hq, ht, _⟩ => hdead ⟨e, he, hq, ht⟩
  have hgone : groupGone s gid g =
      (teamRetired ((retiredContexts s gid g).leaveCore g.team g.core) g.team g.launch g.slice).settleLaunch g.launch :=
    leaveTeam_last fun hl => hdead hl.of_leaveCore
  rw [hgone]
  refine ⟨?_, fun l hl => ?_⟩
  · rw [settleLaunch_only]
    exact KMap.get_del_same _ _
  · have hx : KMap.get (teamRetired ((retiredContexts s gid g).leaveCore g.team g.core) g.team g.launch g.slice).launches g.launch =
        some { l with ender := g.issuer, retired := l.retired + 1 } := by
      rw [teamRetired_launch, leaveCore_launches, retiredContexts_launch, hl]
      rfl
    obtain ⟨y, hy, hretired, hender, hready⟩ := settleLaunch_launch hx
    refine ⟨y, hy, hretired, hender, fun hnext hteams => hready hnext fun t ht => ?_⟩
    rw [leaveCore_last hlast] at ht
    obtain ⟨ht, hne⟩ := List.mem_filter.mp ht
    obtain ⟨x, hxm, rfl⟩ := List.mem_map.mp ht
    have hkey : x.1 ≠ g.team := by
      intro hk
      simp [hk] at hne
    rw [if_neg hkey]
    exact hteams x hxm hkey

end

end Sys2Proof.MemoryHierarchy
end

section
/-!
PROOFS. REORD_COMPLETE with one participant: the order of R190, and what moves with a thread (R189, R190, R243, R244).
-/

namespace Sys2Proof.MemoryHierarchy

open Sys2Proof Sys2Proof.Machine Sys2Proof.Claims Sys2Proof.AddressSpaces

/-! ### Stable sorting -/

/-- Lower keys first, and of equal keys the lower place first. -/
def KeyThenPlace {α : Type} (key place : α → Nat) (a b : α) : Prop := key a < key b ∨ key a = key b ∧ place a < place b

theorem insertBy_perm {α : Type} (key : α → Nat) (x : α) (l : List α) : (insertBy key x l).Perm (x :: l) := by
  induction l with
  | nil => exact .refl _
  | cons y l ih =>
    rw [insertBy]
    split
    · exact .refl _
    · exact (ih.cons y).trans (.swap x y l)

theorem insertBy_pairwise {α : Type} {key place : α → Nat} {x : α} {l : List α} (hl : l.Pairwise (KeyThenPlace key place))
    (hx : ∀ y ∈ l, place y < place x) : (insertBy key x l).Pairwise (KeyThenPlace key place) := by
  induction l with
  | nil => exact List.pairwise_singleton _ _
  | cons y l ih =>
    obtain ⟨hy, hl⟩ := List.pairwise_cons.mp hl
    rw [insertBy]
    split
    · next hlt =>
      refine List.pairwise_cons.mpr ⟨fun z hz => .inl ?_, List.pairwise_cons.mpr ⟨hy, hl⟩⟩
      rcases List.mem_cons.mp hz with rfl | hz
      · exact hlt
      · rcases hy z hz with h | ⟨h, -⟩
        · exact hlt.trans h
        · rwa [← h]
    · next hge =>
      refine List.pairwise_cons.mpr ⟨fun z hz => ?_, ih hl fun z hz => hx z (List.mem_cons_of_mem _ hz)⟩
      rcases List.mem_cons.mp ((insertBy_perm key x l).mem_iff.mp hz) with rfl | hz
      · have hplace := hx y List.mem_cons_self
        unfold KeyThenPlace
        omega
      · exact hy z hz

theorem sortBy_foldl_perm {α : Type} (key : α → Nat) (l acc : List α) :
    (l.foldl (fun acc x => insertBy key x acc) acc).Perm (acc ++ l) := by
  induction l generalizing acc with
  | nil => rw [List.append_nil]; exact .refl _
  | cons x l ih =>
    refine (ih _).trans ?_
    exact ((insertBy_perm key x acc).append_right l).trans List.perm_middle.symm

theorem sortBy_perm {α : Type} (key : α → Nat) (l : List α) : (sortBy key l).Perm l := sortBy_foldl_perm key l []

theorem sortBy_foldl_pairwise {α : Type} {key place : α → Nat} {l acc : List α} (hl : l.Pairwise fun a b => place a < place b)
    (hacc : acc.Pairwise (KeyThenPlace key place)) (hlt : ∀ a ∈ acc, ∀ b ∈ l, place a < place b) :
    (l.foldl (fun acc x => insertBy key x acc) acc).Pairwise (KeyThenPlace key place) := by
  induction l generalizing acc with
  | nil => exact hacc
  | cons x l ih =>
    obtain ⟨hx, hl⟩ := List.pairwise_cons.mp hl
    refine ih hl (insertBy_pairwise hacc fun y hy => hlt y hy x List.mem_cons_self) fun a ha b hb => ?_
    rcases List.mem_cons.mp ((insertBy_perm key x acc).mem_iff.mp ha) with rfl | ha
    · exact hx b hb
    · exact hlt a ha b (List.mem_cons_of_mem _ hb)

/-- A list in the order of its places is sorted by key and then by place. -/
theorem sortBy_pairwise {α : Type} {key place : α → Nat} {l : List α} (hl : l.Pairwise fun a b => place a < place b) :
    (sortBy key l).Pairwise (KeyThenPlace key place) := sortBy_foldl_pairwise hl .nil (by simp)

/-! ### Masks -/

theorem maskOf_foldl_getLsbD (ts : List Nat) (m : BitVec 64) {t : Nat} (ht : t < 64) :
    (ts.foldl (fun m t => m ||| (1#64 <<< t)) m).getLsbD t = (m.getLsbD t || decide (t ∈ ts)) := by
  induction ts generalizing m with
  | nil => simp
  | cons x ts ih =>
    have hbit : (1#64 <<< x).getLsbD t = decide (t = x) := by
      rw [BitVec.getLsbD_shiftLeft, BitVec.getLsbD_one]
      rw [Bool.eq_iff_iff]
      simp only [Bool.and_eq_true, Bool.not_eq_true', decide_eq_true_eq, decide_eq_false_iff_not]
      omega
    rw [List.foldl_cons, ih, BitVec.getLsbD_or, hbit, Bool.or_assoc]
    simp only [List.mem_cons, Bool.decide_or]

/-- The mask of the threads that satisfy a test. -/
theorem maskOf_filter_getLsbD (p : Nat → Bool) {t : Nat} (ht : t < 64) : (maskOf ((List.range 64).filter p)).getLsbD t = p t := by
  rw [maskOf, maskOf_foldl_getLsbD _ _ ht]
  simp [List.mem_filter, ht]

theorem nibBits_nibPart_getLsbD (n : Nat) (m : BitVec 64) {t : Nat} (ht : t < 64) :
    (nibBits n (nibPart n m)).getLsbD t = (decide (t / 16 = n) && m.getLsbD t) := by
  simp only [nibBits, nibPart, BitVec.getLsbD_shiftLeft, BitVec.getLsbD_setWidth, BitVec.getLsbD_ushiftRight]
  by_cases hn : t / 16 = n
  · have hlow : ¬ t < 16 * n := by omega
    have hhigh : t - 16 * n < 16 := by omega
    have hwide : t - 16 * n < 64 := by omega
    have hplace : 16 * n + (t - 16 * n) = t := by omega
    simp [ht, hn, hlow, hhigh, hwide, hplace]
  · have hout : t < 16 * n ∨ ¬ t - 16 * n < 16 := by omega
    rcases hout with h | h <;> simp [h, hn]

/-- R169: four nibs hold the 64 bits of a mask. -/
theorem nibParts_join (m : BitVec 64) : (List.range 4).foldl (fun a n => a ||| nibBits n (nibPart n m)) 0 = m := by
  refine BitVec.eq_of_getLsbD_eq fun t ht => ?_
  have hr : List.range 4 = [0, 1, 2, 3] := rfl
  simp only [hr, List.foldl_cons, List.foldl_nil, BitVec.getLsbD_or, nibBits_nibPart_getLsbD _ _ ht]
  have hnib : t / 16 = 0 ∨ t / 16 = 1 ∨ t / 16 = 2 ∨ t / 16 = 3 := by omega
  rcases hnib with h | h | h | h <;> simp [h]

/-! ### The order of R190 -/

/-- The 64 threads of a participant, each with its key. -/
def moversOf (g : Group) (keys : List Nat) : List Mover := (List.range 64).map fun t => ⟨g, t, keys.getD t 0, g.liveAll.getLsbD t⟩

/-- R190: the threads of a single participant in their new order. -/
def moverOrder (g : Group) (keys : List Nat) : List Mover :=
  sortBy Mover.key ((moversOf g keys).filter Mover.live) ++ (moversOf g keys).filter fun m => !m.live

/-- The thread that moves to position `p`. -/
def movedFrom (g : Group) (keys : List Nat) (p : Nat) : Nat := ((moverOrder g keys).getD p ⟨g, p, 0, false⟩).t

section
variable (g : Group) (keys : List Nat)

theorem moverOrder_perm : (moverOrder g keys).Perm (moversOf g keys) :=
  ((sortBy_perm Mover.key _).append_right _).trans (List.filter_append_perm Mover.live _)

theorem moverOrder_length : (moverOrder g keys).length = 64 := by
  rw [(moverOrder_perm g keys).length_eq]
  simp [moversOf]

theorem mem_moverOrder {m : Mover} : m ∈ moverOrder g keys ↔ ∃ t < 64, ⟨g, t, keys.getD t 0, g.liveAll.getLsbD t⟩ = m := by
  rw [(moverOrder_perm g keys).mem_iff]
  simp [moversOf]

theorem moverOrder_getD {p : Nat} (hp : p < 64) : movedFrom g keys p < 64 ∧ (moverOrder g keys).getD p ⟨g, p, 0, false⟩ =
    ⟨g, movedFrom g keys p, keys.getD (movedFrom g keys p) 0, g.liveAll.getLsbD (movedFrom g keys p)⟩ := by
  have hlen : p < (moverOrder g keys).length := by rw [moverOrder_length]; exact hp
  have hat : (moverOrder g keys).getD p ⟨g, p, 0, false⟩ = (moverOrder g keys)[p] := List.getD_eq_getElem _ _ hlen
  obtain ⟨t, ht, hm⟩ := (mem_moverOrder g keys).mp (List.getElem_mem hlen)
  have hfrom : movedFrom g keys p = t := by rw [movedFrom, hat, ← hm]
  rw [hfrom, hat, hm]
  exact ⟨ht, rfl⟩

theorem moversOf_pairwise : (moversOf g keys).Pairwise fun a b => a.t < b.t :=
  List.pairwise_map.mpr List.pairwise_lt_range

/-- R190: what the order says of an earlier and a later mover. -/
def MovesBefore (a b : Mover) : Prop :=
  (a.live = false → b.live = false ∧ a.t < b.t) ∧ (a.live = true → b.live = true → KeyThenPlace Mover.key Mover.t a b)

theorem moverOrder_pairwise : (moverOrder g keys).Pairwise MovesBefore := by
  have hlive : ∀ m ∈ sortBy Mover.key ((moversOf g keys).filter Mover.live), m.live = true := fun m hm =>
    (List.mem_filter.mp ((sortBy_perm Mover.key _).mem_iff.mp hm)).2
  have hdead : ∀ m ∈ (moversOf g keys).filter (fun m => !m.live), m.live = false := fun m hm => by
    simpa using (List.mem_filter.mp hm).2
  refine List.pairwise_append.mpr ⟨?_, ?_, fun a ha b hb => ?_⟩
  · refine (sortBy_pairwise ((moversOf_pairwise g keys).filter _)).imp_of_mem fun {a b} ha _ hab => ?_
    exact ⟨fun h => absurd (hlive a ha) (by simp [h]), fun _ _ => hab⟩
  · refine ((moversOf_pairwise g keys).filter _).imp_of_mem fun {a b} ha hb hab => ?_
    exact ⟨fun _ => ⟨hdead b hb, hab⟩, fun h => absurd (hdead a ha) (by simp [h])⟩
  · exact ⟨fun h => absurd (hlive a ha) (by simp [h]), fun _ h => absurd (hdead b hb) (by simp [h])⟩

/-- R190: the new order is as `Reordered` says. -/
theorem movedFrom_reordered : Reordered g keys (movedFrom g keys) := by
  refine ⟨fun p hp => (moverOrder_getD g keys hp).1, fun t ht => ?_, fun p q hpq hq => ?_⟩
  · obtain ⟨p, hp, hm⟩ := List.mem_iff_getElem.mp ((mem_moverOrder g keys).mpr ⟨t, ht, rfl⟩)
    refine ⟨p, by rwa [moverOrder_length] at hp, ?_⟩
    rw [movedFrom, List.getD_eq_getElem _ _ hp, hm]
  · have hlen : q < (moverOrder g keys).length := by rw [moverOrder_length]; exact hq
    have hbefore := List.pairwise_iff_getElem.mp (moverOrder_pairwise g keys) p q (hpq.trans hlen) hlen hpq
    rw [← List.getD_eq_getElem _ ⟨g, p, 0, false⟩ (hpq.trans hlen), ← List.getD_eq_getElem _ ⟨g, q, 0, false⟩ hlen,
      (moverOrder_getD g keys (hpq.trans hq)).2, (moverOrder_getD g keys hq).2] at hbefore
    exact hbefore

end

/-! ### What moves with a thread (R189) -/

/-- A register map with the registers of a list replaced. -/
theorem getD_foldl_putAll {α : Type} (f : Nat → α) (d : α) (ns : List Nat) (m : KMap α) (k : Nat) :
    KMap.getD (ns.foldl (fun m n => KMap.put m n (f n)) m) k d = if k ∈ ns then f k else KMap.getD m k d := by
  induction ns generalizing m with
  | nil => simp
  | cons n ns ih =>
    rw [List.foldl_cons, ih, KMap.getD_put]
    by_cases hk : k = n <;> by_cases hm : k ∈ ns <;> simp [hk, hm]

theorem getD_mapRange {α : Type} (f : Nat → α) (d : α) {n t : Nat} (ht : t < n) : ((List.range n).map f).getD t d = f t := by
  simp [List.getD, ht]

theorem get_mapKeys {α : Type} (f : Nat → α) {ns : List Nat} {k : Nat} (hk : k ∈ ns) :
    KMap.get (ns.map fun n => (n, f n)) k = some (f k) := by
  induction ns with
  | nil => exact absurd hk List.not_mem_nil
  | cons n ns ih =>
    rw [List.map_cons, KMap.get]
    by_cases h : k = n
    · rw [if_pos h, h]
    · rw [if_neg h]
      exact ih ((List.mem_cons.mp hk).resolve_left h)

theorem getD_mapKeys {α : Type} (f : Nat → α) (d : α) {n k : Nat} (hk : k < n) :
    KMap.getD ((List.range n).map fun n => (n, f n)) k d = f k := by
  rw [KMap.getD, get_mapKeys f (List.mem_range.mpr hk), Option.getD_some]

/-- The live threads of a group whose nibs hold the parts of a mask. -/
theorem liveAll_of_nibs {g : Group} {m : BitVec 64} (h : ∀ n < 4, (g.nib n).liveMask = nibPart n m) : g.liveAll = m := by
  have hr : List.range 4 = [0, 1, 2, 3] := rfl
  rw [Group.liveAll]
  refine Eq.trans ?_ (nibParts_join m)
  simp only [hr, List.foldl_cons, List.foldl_nil, h 0 (by decide), h 1 (by decide), h 2 (by decide), h 3 (by decide)]

section
variable (g : Group) (mask : BitVec 24) (keys : List Nat)

/-- The participant with its threads in their new order. -/
def movedGroup : Group := g.takeMovers mask (moverOrder g keys)

theorem movedGroup_vreg (n : Nat) {t : Nat} (ht : t < 64) : (movedGroup g mask keys).vreg n t =
    if n < 192 ∧ mask.getLsbD (n / 8) = true then g.vreg n (movedFrom g keys t) else g.vreg n t := by
  simp only [movedGroup, Group.takeMovers, Group.vreg]
  rw [getD_foldl_putAll]
  simp only [List.mem_filter, List.mem_range]
  split
  · rw [getD_mapRange _ _ ht, (moverOrder_getD g keys ht).2]
  · rfl

theorem movedGroup_pred {n t : Nat} (hn : n < 8) (ht : t < 64) :
    ((movedGroup g mask keys).pred n).getLsbD t = (g.pred n).getLsbD (movedFrom g keys t) := by
  simp only [movedGroup, Group.takeMovers, Group.pred]
  rw [getD_mapKeys _ _ hn, maskOf_filter_getLsbD _ ht, (moverOrder_getD g keys ht).2]

theorem movedGroup_flags {t : Nat} (ht : t < 64) : (movedGroup g mask keys).flagsOf t = g.flagsOf (movedFrom g keys t) := by
  simp only [movedGroup, Group.takeMovers, Group.flagsOf]
  rw [getD_mapRange _ _ ht, (moverOrder_getD g keys ht).2]

theorem movedGroup_launched {t : Nat} (ht : t < 64) :
    (movedGroup g mask keys).launched.getLsbD t = g.launched.getLsbD (movedFrom g keys t) := by
  simp only [movedGroup, Group.takeMovers]
  rw [maskOf_filter_getLsbD _ ht, (moverOrder_getD g keys ht).2]

theorem movedGroup_liveAll {t : Nat} (ht : t < 64) :
    (movedGroup g mask keys).liveAll.getLsbD t = g.liveAll.getLsbD (movedFrom g keys t) := by
  have hlive : (movedGroup g mask keys).liveAll =
      maskOf ((List.range 64).filter fun t => ((moverOrder g keys).getD t ⟨g, t, 0, false⟩).live) := by
    refine liveAll_of_nibs fun n hn => ?_
    simp only [movedGroup, Group.takeMovers, Group.nib]
    rw [getD_mapRange _ _ hn]
    rfl
  rw [hlive, maskOf_filter_getLsbD _ ht, (moverOrder_getD g keys ht).2]

end

/-! ### What a participant goes on with (R244) -/

theorem openRegion_only (g : Group) (n : Nat) (a : DWord) : g.openRegion n a =
    { g with gangs := (g.openRegion n a).gangs, snaps := (g.openRegion n a).snaps, nextSnap := (g.openRegion n a).nextSnap } := by
  unfold Group.openRegion
  split <;> rfl

theorem endIfDone_only (g : Group) : g.endIfDone = { g with gangs := g.endIfDone.gangs, ended := g.endIfDone.ended } := by
  unfold Group.endIfDone
  split <;> rfl

theorem addGang_only (g : Group) (k : Gang) : g.addGang k = { g with gangs := (g.addGang k).gangs } := by
  unfold Group.addGang
  split <;> rfl

/-- The participant goes on: its gangs and snapshots change, and whether it has ended. -/
theorem afterReord_only (g : Group) : g.afterReord =
    { g with gangs := g.afterReord.gangs, snaps := g.afterReord.snaps, nextSnap := g.afterReord.nextSnap, ended := g.afterReord.ended } := by
  unfold Group.afterReord
  split
  · rfl
  · rw [endIfDone_only, openRegion_only, addGang_only]

/-! ### REORD_COMPLETE of one participant -/

section
variable {s : State} {gid : Nat} {g : Group} {mask : BitVec 24} {keys : List Nat}

theorem reordComplete_one (hg : s.group gid = some g) (hp : s.reordParties g = [(gid, g)]) (hh : g.reordHold = some (mask, keys))
    (hq : s.reordQuiet gid g = true) (hpres : g.presence = .here) :
    s.reordComplete gid = s.setGroup gid (movedGroup g mask keys).afterReord := by
  have hready : ¬ ([(gid, g)] = ([] : List (Nat × Group)) ∨
      (!([(gid, g)] : List (Nat × Group)).all fun e => s.reordQuiet e.1 e.2 && e.2.presence == .here) = true) := by
    simp [hq, hpres]
  have hall : (moverOrder g keys).take 64 = moverOrder g keys := List.take_of_length_le (moverOrder_length g keys).le
  simp only [State.reordComplete, hg, hp]
  rw [if_neg hready]
  have hr : List.range ([(gid, g)] : List (Nat × Group)).length = [0] := rfl
  simp only [hr, List.flatMap_cons, List.flatMap_nil, List.append_nil, List.findSome?_cons, List.map_cons, List.map_nil, List.foldl_cons,
    List.foldl_nil, hh, Option.map_some, Option.getD_some, List.getD_cons_zero, Nat.mul_zero, List.drop_zero]
  exact congrArg (fun ms => s.setGroup gid (g.takeMovers mask ms).afterReord) hall

/-- A context that becomes another of the same spill stack changes nothing else. -/
theorem setGroup_inContexts {h : Group} (hg : s.group gid = some g) (hstack : h.stack = g.stack) :
    InContexts s (s.setGroup gid h) (· = gid) := by
  refine ⟨rfl, fun o l => ?_, fun m hm => (State.group_setGroup s gid m h).trans (if_neg hm)⟩
  cases l with
  | dpa a => rfl
  | host a => rfl
  | place p off =>
    cases p with
    | team tm c => rfl
    | scratch d => rfl
    | stack m t =>
      simp only [State.locGet, State.placeGet, State.group_setGroup]
      by_cases hm : m = gid
      · simp only [hm, if_true, hg, hstack]
      · rw [if_neg hm]

/-- What the completion of a REORD of one participant leaves. -/
theorem exec_reordComplete_one (hg : s.group gid = some g) (hp : s.reordParties g = [(gid, g)]) (hh : g.reordHold = some (mask, keys))
    (hq : s.reordQuiet gid g = true) (hpres : g.presence = .here) :
    ∃ t, exec (.reordComplete gid) s = .next t ∧ InContexts s t (· = gid) ∧ ∃ h from_, t.group gid = some h ∧ Reordered g keys from_ ∧
      (∀ n th, th < 64 → h.vreg n th = if n < 192 ∧ mask.getLsbD (n / 8) = true then g.vreg n (from_ th) else g.vreg n th) ∧
      (∀ n th, n < 8 → th < 64 → (h.pred n).getLsbD th = (g.pred n).getLsbD (from_ th)) ∧
      ∀ th, th < 64 → h.flagsOf th = g.flagsOf (from_ th) ∧ h.liveAll.getLsbD th = g.liveAll.getLsbD (from_ th) ∧
        h.launched.getLsbD th = g.launched.getLsbD (from_ th) := by
  refine ⟨_, congrArg Host.Outcome.next (reordComplete_one hg hp hh hq hpres), setGroup_inContexts hg ?_, _, movedFrom g keys,
    State.group_setGroup_same _ _ _, movedFrom_reordered g keys, ?_⟩
  · rw [afterReord_only]; rfl
  · rw [afterReord_only]
    exact ⟨fun n th hth => movedGroup_vreg g mask keys n hth, fun n th hn hth => movedGroup_pred g mask keys hn hth, fun th hth =>
      ⟨movedGroup_flags g mask keys hth, movedGroup_liveAll g mask keys hth, movedGroup_launched g mask keys hth⟩⟩

end

end Sys2Proof.MemoryHierarchy
end

section
/-!
PROOFS. Matrix steps, register lines, register grants and reactivation, and O42 with them (R79, R81, R274, R290, R293).
-/

namespace Sys2Proof.MemoryHierarchy

open Sys2Proof Sys2Proof.Machine Sys2Proof.Claims Sys2Proof.AddressSpaces

/-! ### MATRIX_STEP -/

/-- R274: the group of a unit's operation is the group that its number names. -/
theorem unitOp_group {s : State} {u id tg : Nat} {o : EngOp} {g : Group} (h : s.unitOp u = some (id, o, tg, g)) : s.group tg = some g := by
  obtain ⟨e, -, he⟩ := List.exists_of_findSome?_eq_some h
  split at he
  · cases he
  · split at he
    · split at he
      · next hg =>
        split at he
        · cases he; exact hg
        · cases he
      · cases he
    · cases he

/-- R274: the unit fetches a line of the fragment that is not present. -/
theorem exec_matrixStep_absent {s : State} {u id tg fr n l : Nat} {o : EngOp} {g : Group} {r : List Nat} (h : s.unitOp u = some (id, o, tg, g))
    (hk : (∃ w, o.kind = .mzero fr n w) ∨ ∃ t0 b m te j ac fl, o.kind = .mloop t0 fr b m te j ac fl ∧ b.regs = n)
    (ha : s.fragAbsent tg g fr n = l :: r) : exec (.matrixStep u) s = .next (s.fillLine tg l) := by
  show Host.Outcome.next (s.matrixUnit u) = _
  rcases hk with ⟨w, hk⟩ | ⟨t0, b, m, te, j, ac, fl, hk, rfl⟩
  · simp only [State.matrixUnit, h, hk, ha]
  · simp only [State.matrixUnit, h, hk, ha]

/-- R274: what the unit does with the outcome of step `j`: a header fault, or the accumulator and the flags of the step. -/
def matrixStepped (s : State) (id tg fr : Nat) (b : MatBlk) (m : RMode) (te : Bool) (j : Nat) (fl : List Flags) :
    Except Nat (List (List Nat) × List Flags) → State
  | .error d => s.failOp id 0x0D d j
  | .ok (acc, f) => (s.writeFragment tg b fr acc).modOp id fun o =>
      { o with kind := .mloop tg fr b m te (j + 1) acc ((List.range 64).map fun r => fl.getD r 0 ||| f.getD r 0) }

theorem exec_matrixStep_mloop {s : State} {u id tg t0 fr j : Nat} {o : EngOp} {g : Group} {b : MatBlk} {m : RMode} {te : Bool}
    {ac : List (List Nat)} {fl : List Flags} (h : s.unitOp u = some (id, o, tg, g)) (hk : o.kind = .mloop t0 fr b m te j ac fl)
    (ha : s.fragAbsent tg g fr b.regs = []) : exec (.matrixStep u) s =
      .next (matrixStepped s id tg fr b m te j fl (s.matCompute g b m te j (if j = 0 then g.fragment b fr else ac))) := by
  show Host.Outcome.next (s.matrixUnit u) = _
  simp only [State.matrixUnit, h, hk, ha]
  cases s.matCompute g b m te j (if j = 0 then g.fragment b fr else ac) with
  | error d => rfl
  | ok r => rfl

/-- R185: a write of the same values in every thread to a register of a context. -/
theorem writeV_all {s : State} {gid : Nat} {g : Group} (hg : s.group gid = some g) (n : Nat) (w : Word) :
    ∃ h, (s.writeV gid n fun _ => some w).group gid = some h ∧ ∀ r th, th < 64 → h.vreg r th = if r = n then w else g.vreg r th := by
  have hset : ∀ (x : Group) r th, th < 64 → (x.setV n fun _ => some w).vreg r th = if r = n then w else x.vreg r th :=
    fun x r th hth => by rw [Group.vreg_setV x n r th _ hth, Option.getD_some]
  have hone := State.group_setGroup_same s gid (g.setV n fun _ => some w)
  simp only [State.writeV, hg]
  split
  · split
    · next p _ _ =>
      by_cases hp : gid = p
      · refine ⟨(g.setV n fun _ => some w).setV n fun _ => some w, by rw [← hp, State.group_modGroup_same, hone]; rfl, fun r th hth => ?_⟩
        rw [hset _ r th hth, hset g r th hth]
        split <;> rfl
      · exact ⟨_, by rw [State.group_modGroup, if_neg hp, hone], hset g⟩
    · exact ⟨_, hone, hset g⟩
  · exact ⟨_, hone, hset g⟩

/-- R274: an MZERO clears the registers of its fragment. -/
theorem zeroed_group {s : State} {gid fr : Nat} {g : Group} (hg : s.group gid = some g) (n : Nat) :
    ∃ h, ((List.range n).foldl (fun s r => s.writeV gid (fr + r) fun _ => some 0) s).group gid = some h ∧
      ∀ r th, th < 64 → h.vreg r th = if fr ≤ r ∧ r < fr + n then 0 else g.vreg r th := by
  induction n with
  | zero => exact ⟨g, hg, fun r th _ => by rw [if_neg (by omega)]⟩
  | succ n ih =>
    obtain ⟨h, hh, hv⟩ := ih
    obtain ⟨h', hh', hv'⟩ := writeV_all hh (fr + n) 0
    refine ⟨h', by rw [List.range_succ, List.foldl_append]; exact hh', fun r th hth => ?_⟩
    rw [hv' r th hth, hv r th hth]
    by_cases hr : r = fr + n
    · rw [if_pos hr, if_pos (by omega)]
    · rw [if_neg hr]
      exact if_congr (by omega) rfl rfl

theorem exec_matrixStep_mzero {s : State} {u id tg fr n w : Nat} {o : EngOp} {g : Group} (h : s.unitOp u = some (id, o, tg, g))
    (hk : o.kind = .mzero fr n w) (ha : s.fragAbsent tg g fr n = []) : ∃ t, exec (.matrixStep u) s = .next t ∧
      ∃ h, t.group tg = some h ∧ ∀ r th, th < 64 → h.vreg r th = if fr ≤ r ∧ r < fr + n then 0 else g.vreg r th := by
  obtain ⟨x, hx, hv⟩ := zeroed_group (fr := fr) (unitOp_group h) n
  have hexec : exec (.matrixStep u) s =
      .next (((List.range n).foldl (fun s r => s.writeV tg (fr + r) fun _ => some 0) s).modOp id fun o => { o with swept := true }) := by
    show Host.Outcome.next (s.matrixUnit u) = _
    simp only [State.matrixUnit, h, hk, ha]
  exact ⟨_, hexec, x, hx, hv⟩

/-! ### REGISTER_LINE_FILL -/

theorem cacheUnit_of_same {g h : Group} (hcore : h.core = g.core) (hsub : h.sub = g.sub) : h.cacheUnit = g.cacheUnit := by
  rw [Group.cacheUnit, Group.cacheUnit, hcore, hsub]

theorem setLine_unit (g : Group) (line : Nat) (bs : List Byte) : (g.setLine line bs).cacheUnit = g.cacheUnit := by
  unfold Group.setLine
  extract_lets val half o
  clear_value val half o
  split
  · rfl
  · split
    · rfl
    · split
      · rfl
      · split
        · rfl
        · split
          · exact cacheUnit_of_same rfl rfl
          · exact cacheUnit_of_same rfl rfl

theorem enterLine_group (s : State) (gid : Nat) (g : Group) (line : Nat) (d : Bool) (m : Nat) :
    (s.enterLine gid g line d).group m = s.group m := rfl

theorem cacheLine_group (s : State) (fn a m : Nat) : (s.cacheLine fn a).group m = s.group m := by
  rw [State.cacheLine_only]
  rfl

theorem cacheLine_func (s : State) (fn a m : Nat) : (s.cacheLine fn a).func m = s.func m := by
  rw [State.cacheLine_only]
  rfl

/-- R79: a line that was entered is present. -/
theorem enterLine_here {g h : Group} (s : State) (gid line : Nat) (d : Bool) (hu : h.cacheUnit = g.cacheUnit) :
    (s.enterLine gid g line d).lineHere gid h line = true := by
  simp [State.lineHere, State.unitLines, State.enterLine, hu, KMap.getD_put]

section
variable {s : State} {gid line : Nat} {g : Group} {im : Image} (hg : s.group gid = some g) (him : KMap.get s.images gid = some im)
  (hq : g.quill = false) (hp : g.presence = .here) (hl : g.hasLine line = true) (hn : s.lineHere gid g line = false)

include hg him

theorem fillLine_shut (hs : s.hbmShut (s.lineAt g im line) = true) : s.fillLine gid line = s := by
  simp only [State.fillLine, hg, him]
  exact if_pos (.inr (.inr (.inr (.inr hs))))

/-- R79: the state in which a line that was written back has been read from its image. -/
def lineRead (s : State) (gid line : Nat) (g : Group) (im : Image) : State :=
  let s2 := s.cacheLine (s.fnOf g) (s.lineAt g im line)
  s2.modGroup gid fun g' => g'.setLine line (s2.memRead (s2.func (s.fnOf g)).owner (s.lineAt g im line) 128)

omit him in
theorem lineRead_group : (lineRead s gid line g im).group gid =
    some (g.setLine line ((s.cacheLine (s.fnOf g) (s.lineAt g im line)).memRead (s.func (s.fnOf g)).owner (s.lineAt g im line) 128)) := by
  refine (State.group_modGroup_same _ gid _).trans ?_
  rw [cacheLine_group, hg, cacheLine_func, Option.map_some]

include hq hp hl hn

theorem fillLine_enters (hs : s.hbmShut (s.lineAt g im line) = false) (hroom : (s.unitLines g.cacheUnit).length < Config.registerLines) :
    s.fillLine gid line = (if im.back.contains line then lineRead s gid line g im else s).enterLine gid g line false := by
  simp only [State.fillLine, hg, him, State.lineRoom_free _ hroom]
  rw [if_neg (by simp [hq, hp, hl, hn, hs])]
  rfl

theorem exec_registerLineFill (hs : s.hbmShut (s.lineAt g im line) = false) (hroom : (s.unitLines g.cacheUnit).length < Config.registerLines) :
    ∃ t h, exec (.registerLineFill gid line) s = .next t ∧ t.group gid = some h ∧ t.lineHere gid h line = true ∧
      (line ∉ im.back → t = { s with regLines := t.regLines } ∧ h = g) ∧
      (line ∈ im.back → h = g.setLine line ((s.cacheLine (s.fnOf g) (s.lineAt g im line)).memRead
        (s.func (s.fnOf g)).owner (s.lineAt g im line) 128)) := by
  have hfill : exec (.registerLineFill gid line) s = _ := congrArg Host.Outcome.next (fillLine_enters hg him hq hp hl hn hs hroom)
  by_cases hb : line ∈ im.back
  · rw [if_pos (List.contains_iff_mem.mpr hb)] at hfill
    refine ⟨_, g.setLine line ((s.cacheLine (s.fnOf g) (s.lineAt g im line)).memRead (s.func (s.fnOf g)).owner (s.lineAt g im line) 128), hfill, ?_,
      enterLine_here _ gid line false (setLine_unit _ _ _), fun h => absurd hb h, fun _ => rfl⟩
    exact (enterLine_group _ gid g line false gid).trans (lineRead_group hg)
  · rw [if_neg (by simpa using hb)] at hfill
    exact ⟨_, g, hfill, hg, enterLine_here s gid line false rfl, fun _ => ⟨rfl, rfl⟩, fun h => absurd h hb⟩

end

/-! ### PARK_REACTIVATE -/

/-- R290: the gang goes on at its continuation. -/
def resumed (cont : DWord) (k : Gang) : Gang := { k with hold := .none, pc := cont, clause := none }

theorem gang_id {g : Group} {n : Nat} {k : Gang} (hk : g.gang n = some k) : k.id = n := by simpa using List.find?_some hk

theorem exec_parkReactivate {s : State} {gid n : Nat} {g : Group} {k : Gang} (hg : s.group gid = some g) (hp : g.presence = .here)
    (hk : g.gang n = some k) : exec (.parkReactivate gid n) s = .next (s.setGroup gid (g.reactivate k)) := by
  show execParkReactivate gid n s = _
  simp only [execParkReactivate, hg, hk]
  rw [if_neg (fun h => h hp)]

theorem reactivate_ready {g : Group} {n : Nat} {k : Gang} {cont : DWord} (hk : g.gang n = some k) (hh : k.hold = .park .ready cont) :
    g.reactivate k = g.modGang n (resumed cont) := by
  simp only [Group.reactivate, hh, gang_id hk]
  rfl

/-- R285: the phase bit of a barrier toggles. -/
def toggled (c : BarCode) (y : Nib) : Nib := { y with phase := y.phase ^^^ (1#32 <<< c.bit) }

theorem listModify_eq_modify {α : Type} (f : α → α) (l : List α) (n : Nat) : listModify f l n = l.modify n f := by
  induction l generalizing n with
  | nil => rw [listModify, List.modify_nil]
  | cons x l ih =>
    cases n with
    | zero => rfl
    | succ n => rw [listModify, ih, List.modify_succ_cons]

theorem modNib_length (g : Group) (n : Nat) (f : Nib → Nib) : (g.modNib n f).nibs.length = g.nibs.length := by
  simp [Group.modNib, listModify_eq_modify]

theorem nib_modNib (g : Group) (n : Nat) (f : Nib → Nib) {j : Nat} (hj : j < g.nibs.length) :
    (g.modNib n f).nib j = if j = n then f (g.nib j) else g.nib j := by
  simp only [Group.modNib, Group.nib, listModify_eq_modify]
  rw [List.getD_eq_getElem _ _ (by simpa using hj), List.getD_eq_getElem _ _ hj, List.getElem_modify]
  exact if_congr eq_comm rfl rfl

/-- A change of each of some nibs, once. -/
theorem nib_modNibs (f : Nib → Nib) {ns : List Nat} (hns : ns.Nodup) (g : Group) {j : Nat} (hj : j < g.nibs.length) :
    (ns.foldl (fun g n => g.modNib n f) g).nib j = if j ∈ ns then f (g.nib j) else g.nib j := by
  induction ns generalizing g with
  | nil => simp
  | cons n ns ih =>
    obtain ⟨hn, hns⟩ := List.nodup_cons.mp hns
    rw [List.foldl_cons, ih hns _ (by rwa [modNib_length]), nib_modNib g n f hj]
    by_cases h : j = n
    · subst h; simp [hn]
    · simp [h]

theorem modNibs_only (f : Nib → Nib) (ns : List Nat) (g : Group) :
    ns.foldl (fun g n => g.modNib n f) g = { g with nibs := (ns.foldl (fun g n => g.modNib n f) g).nibs } := by
  induction ns generalizing g with
  | nil => rfl
  | cons n ns ih => rw [List.foldl_cons, ih]; rfl

theorem mem_eachNib {k : Gang} {j : Nat} : j ∈ k.eachNib ↔ j < 4 ∧ j ∈ k.nibs := by simp [Gang.eachNib, List.mem_filter]

theorem eachNib_nodup (k : Gang) : k.eachNib.Nodup := List.nodup_range.filter _

/-- R285, R290: a gang that a barrier released goes on with the phase bits of its nibs toggled. -/
theorem reactivate_met {g : Group} {n : Nat} {k : Gang} {b : Byte} {c : BarCode} {cont : DWord} (hk : g.gang n = some k)
    (hh : k.hold = .park (.met b) cont) (hc : barCode b = some c) :
    g.reactivate k = (k.eachNib.foldl (fun g n => g.modNib n (toggled c)) g).modGang n (resumed cont) := by
  simp only [Group.reactivate, hh, hc, gang_id hk]
  rfl

theorem reactivate_met_nibs {g : Group} {n : Nat} {k : Gang} {b : Byte} {c : BarCode} {cont : DWord} (hk : g.gang n = some k)
    (hh : k.hold = .park (.met b) cont) (hc : barCode b = some c) :
    g.reactivate k = { g with nibs := (g.reactivate k).nibs, gangs := (g.modGang n (resumed cont)).gangs } ∧
      ∀ j < g.nibs.length, (g.reactivate k).nib j = if j < 4 ∧ j ∈ k.nibs then toggled c (g.nib j) else g.nib j := by
  rw [reactivate_met hk hh hc]
  refine ⟨?_, fun j hj => ?_⟩
  · rw [modNibs_only]; rfl
  · refine (nib_modNibs (toggled c) (eachNib_nodup k) g hj).trans ?_
    simp only [mem_eachNib]

/-! ### REGGET_GRANT -/

theorem exec_reggetGrant {s : State} {u gid n : Nat} {d : Opnd} {want : BitVec 24} {r : List (Nat × Nat × Opnd × BitVec 24)} {i : Iss}
    (hw : s.reggetWaiters u = (gid, n, d, want) :: r) (hfree : blockCount want ≤ s.blocksFree (u / 8) (u % 8)) (hi : s.issuerAt gid n = some i) :
    exec (.reggetGrant u) s = .next (s.grantBlocks i d want) := by
  show Host.Outcome.next (s.reggetStep u) = _
  simp only [State.reggetStep, hw, if_pos hfree, hi]

/-! ### O42 -/

/-- Settles O42, clause by clause: what the matrix unit does, which line is filled, who is granted its blocks, the order of R190 as a stable
sort of one participant's threads, how a parked gang goes on, and what the last contexts of a core and of a team leave behind. -/
theorem groupSteps : Obligations.GroupSteps := by
  unfold Obligations.GroupSteps
  refine ⟨?_, ?_, ?_, ?_, ?_, ?_, ?_, ?_, ?_, ?_, ?_, ?_, ?_⟩
  · intro s u id o tg g fr b m te j ac fl t0 hu hk ha
    exact exec_matrixStep_mloop hu hk ha
  · intro s u id o tg g fr n w hu hk ha
    exact exec_matrixStep_mzero hu hk ha
  · intro s u id o tg g fr n l r hu hk ha
    exact exec_matrixStep_absent hu hk ha
  · intro s gid line g im hg him hq hp hl hn
    exact ⟨fun hs => congrArg Host.Outcome.next (fillLine_shut hg him hs), exec_registerLineFill hg him hq hp hl hn⟩
  · intro s gid line g hg h
    exact congrArg Host.Outcome.next (State.fillLine_same hg h)
  · intro s u gid n d want r i hw hfree hi
    exact exec_reggetGrant hw hfree hi
  · intro s gid g mask keys hg hp hh hq hpres
    exact exec_reordComplete_one hg hp hh hq hpres
  · intro s gid n g k cont hg hp hk hh
    rw [exec_parkReactivate hg hp hk, reactivate_ready hk hh]
    rfl
  · intro s gid n g k b c cont hg hp hk hh hc
    obtain ⟨honly, hnibs⟩ := reactivate_met_nibs hk hh hc
    exact ⟨_, g.reactivate k, exec_parkReactivate hg hp hk, rfl, honly, hnibs⟩
  · intro s gid g hg hall hq
    refine ⟨_, exec_groupRetire_quill hg hall hq, ?_, withoutContexts_mem s _ g⟩
    rw [withoutContexts, if_pos hq]
  · intro s gid g hg h
    exact exec_groupRetire_stays hg h
  · intro s gid g p x _ hp hx hne
    exact retiring_partner hp hx hne
  · intro s gid g hg hq hall
    obtain ⟨hmem, hscratch, hhost, hreserve⟩ := groupGone_memories s gid g
    refine ⟨groupGone s gid g, exec_groupRetire_group hg hall hq, fun m => groupGone_gone s gid g, fun m y => groupGone_kept s gid g, ?_,
      hmem, hscratch, hhost, fun hstays => ?_, fun hlast m y hm hy hyq => groupGone_quill s gid g hlast hm hy hyq,
      fun hlast => groupGone_teamRetires s gid g hlast⟩
    · rw [hreserve, if_neg (by simp [hq]), KMap.get_put_same]
    · rw [groupGone_teamStays s gid g hstays]
      exact ⟨rfl, rfl⟩

end Sys2Proof.MemoryHierarchy
end

section
/-!
PROOFS. The local steps: a load's piece, a store's way from its FIFO to its place, and a local atomic (R121 to R124); and why O19 fails of a
state whose list of contexts names one number twice.
-/

namespace Sys2Proof.Ordering

open Sys2Proof Sys2Proof.Machine Sys2Proof.Claims

/-! ### DRAIN, PROPAGATE and ATL -/

/-- R122: the head of the FIFO leaves it: for the team memory of its own core at once, for any other place by the core's queue. -/
theorem exec_drain {s : State} {gid seq : Nat} {g : Group} {p : Place} {bs : List (Nat × Byte)}
    (h : s.drainHead gid = some (g, seq, p, bs)) : exec (.drain gid) s =
      .next (let s1 := s.modGroup gid fun g => { g with fifo := g.fifo.drop 1 }
        if p = .team g.team g.core then s1.placePut p bs
        else { s1 with oq := KMap.put s1.oq g.core (KMap.getD s1.oq g.core [] ++ [⟨gid, seq, p, bs⟩]) }) := by
  show Host.Outcome.next (s.drainStep gid) = _
  simp only [State.drainStep, h]

/-- R122: the head of a core's queue reaches its place. -/
theorem exec_propagate {s : State} {core : Nat} {e : OqEntry} {r : List OqEntry} (h : KMap.getD s.oq core [] = e :: r) :
    exec (.propagate core) s =
      .next ((({ s with oq := KMap.put s.oq core r } : State).placePut e.place e.bytes).touch none (.place e.place 0)) := by
  show Host.Outcome.next (s.propagateStep core) = _
  simp only [State.propagateStep, h]

/-- R124: a local atomic at the head of the FIFO, with nothing of its context in the core's queue, reads and writes its place at once. -/
theorem exec_atl {s : State} {gid j opc seq : Nat} {g : Group} {l : LongOp} {d : Opnd} {ty : EType} {ps : List LPiece} {p : LPiece}
    {r : List FifoEntry} (hg : s.group gid = some g) (hnext : g.nextAccess = some (l, j)) (hk : l.kind = .atomic d ty opc ps)
    (hp : ps[j]? = some p) (hf : g.fifo = ⟨seq, .atl l.id j⟩ :: r) (hoq : ∀ x ∈ KMap.getD s.oq g.core [], x.gid ≠ gid) :
    exec (.atl gid) s = .next (
      let old := (List.range p.len).map fun i => s.placeGet p.place (p.off + i)
      let new := leBytes (atomF ty opc (leVal old) p.x p.y) p.len
      ((s.placePut p.place ((List.range p.len).map fun i => (p.off + i, new.getD i 0))).modGroup gid fun g =>
        { g.fillPiece l.id j old with fifo := g.fifo.drop 1 }).touch none (.place p.place p.off)) := by
  have hhead : g.fifo.head? = some ⟨seq, .atl l.id j⟩ := by rw [hf, List.head?_cons]
  have hqueue : ((KMap.getD s.oq g.core []).any fun x => x.gid == gid) = false := by simpa using hoq
  show Host.Outcome.next (s.atlStep gid) = _
  simp only [State.atlStep, hg, hnext, hhead, hk, hqueue, List.getD_eq_getElem?_getD, hp, Option.getD_some]
  exact congrArg Host.Outcome.next (if_pos ⟨trivial, rfl⟩)

/-! ### LOAD -/

/-- R123: the next access of the group `g` that the number names is a load: its piece takes what `g`'s older stores, the core's queue and the
place give. -/
theorem exec_load_reads {s : State} {gid j : Nat} {g : Group} {l : LongOp} {d : Opnd} {ty : EType} {ps : List LPiece} {p : LPiece}
    (hg : s.group gid = some g) (hnext : g.nextAccess = some (l, j)) (hk : l.kind = .load d ty ps) (hp : ps[j]? = some p) :
    exec (.load gid) s = .next (s.modGroup gid fun h => h.fillPiece l.id j
      ((List.range p.len).map fun i => s.loadByte g l.seq p.place (p.off + i))) := by
  show Host.Outcome.next (s.loadStep gid) = _
  simp only [State.loadStep, hg, hnext, hk, List.getD_eq_getElem?_getD, hp, Option.getD_some]

/-- Where each key is listed once, a change at a key is that of the value which reading gives. -/
theorem adjust_of_nodup {α : Type} {m : KMap α} {k : Nat} {x : α} (hm : (KMap.keys m).Nodup) (hx : KMap.get m k = some x) (f : α → α → α) :
    (KMap.adjust m k fun y => f y y) = KMap.adjust m k fun y => f x y := by
  refine List.map_congr_left fun e he => ?_
  split
  · next hk =>
    obtain rfl : e = (k, x) := (List.inj_on_of_nodup_map hm) he (KMap.get_mem hx) hk
    rfl
  · rfl

/-- R123: the LOAD of O19 where the state lists each context once. -/
theorem exec_load_of_nodup {s : State} {gid j : Nat} {g : Group} {l : LongOp} {d : Opnd} {ty : EType} {ps : List LPiece} {p : LPiece}
    (hs : (KMap.keys s.groups).Nodup) (hg : s.group gid = some g) (hnext : g.nextAccess = some (l, j)) (hk : l.kind = .load d ty ps)
    (hp : ps[j]? = some p) : exec (.load gid) s = .next (s.modGroup gid fun g => g.fillPiece l.id j
      ((List.range p.len).map fun i => s.loadByte g l.seq p.place (p.off + i))) := by
  rw [exec_load_reads hg hnext hk hp, State.modGroup, State.modGroup]
  rw [adjust_of_nodup hs hg fun g h => h.fillPiece l.id j ((List.range p.len).map fun i => s.loadByte g l.seq p.place (p.off + i))]

/-- A byte of scratch that a group loads; a second group stands behind it under the same number, whose older store to that byte has not left
its FIFO. -/
def loadingOp : LongOp := ⟨0, 1, 1, 1, .load (.vec 0) .n8 [⟨0, 0, 0, .scratch 0, 0, 1, 0, 0, none⟩], 0, []⟩
def loadingGroup : Group := { groupStart 0 placedLaunch 0 0 0 0 false ⟨0, 0, 0, 64, 24, 0⟩ 0 0 none with longs := [loadingOp], nextSeq := 2 }
def listedTwice : State :=
  { State.reset with groups := [(0, loadingGroup), (0, { loadingGroup with fifo := [⟨0, .store (.scratch 0) [(0, 5)]⟩] })] }

/-- The bytes that the pieces of every listed group's accesses have. -/
def bytesLoaded (s : State) : List (List (Option (List Byte))) :=
  s.groups.map fun e => e.2.longs.flatMap fun l => l.kind.pieces.map LPiece.got

/-- Refutes O19: its LOAD clause lets every group that `groups` lists under the number read through a FIFO of its own, where the step reads
through the FIFO of the first, which the number names. In `listedTwice`, whose list names context 0 twice, the step gives both groups the byte
0 of scratch, and the clause gives the second one its own store's 5. Where each context is listed once, the clause holds
(`exec_load_of_nodup`), and the other three hold of every state (`exec_drain`, `exec_propagate`, `exec_atl`). -/
theorem not_localSteps : ¬ Obligations.LocalSteps := by
  unfold Obligations.LocalSteps
  rintro ⟨hload, -, -, -⟩
  have hclaim := hload listedTwice 0 loadingGroup loadingOp 0 (.vec 0) .n8 _ _ rfl rfl rfl rfl
  rw [exec_load_reads (s := listedTwice) (gid := 0) (g := loadingGroup) (l := loadingOp) rfl rfl rfl rfl] at hclaim
  have hbytes := congrArg bytesLoaded (Host.Outcome.next.inj hclaim)
  exact absurd hbytes (by decide)

end Sys2Proof.Ordering
end

section
/-!
PROOFS. What an issue leaves (R118, R125, R132).
-/

namespace Sys2Proof.Ordering

open Sys2Proof Sys2Proof.Machine Sys2Proof.Claims Sys2Proof.MemoryHierarchy

/-- A value at a key that was not listed is one more of those that a test picks, if it picks it. -/
theorem filter_put_length {α : Type} {m : KMap α} {k : Nat} (x : α) (p : Nat × α → Bool) (h : KMap.get m k = none) :
    ((KMap.put m k x).filter p).length = (m.filter p).length + if p (k, x) = true then 1 else 0 := by
  induction m with
  | nil => by_cases hp : p (k, x) = true <;> simp [KMap.put, hp]
  | cons e m ih =>
    obtain ⟨a, y⟩ := e
    have hne : k ≠ a := by rintro rfl; simp [KMap.get] at h
    have hrest : KMap.get m k = none := by simpa [KMap.get, hne] using h
    rw [KMap.put, if_neg hne]
    by_cases hlt : k < a
    · rw [if_pos hlt, List.filter_cons]
      by_cases hp : p (k, x) = true <;> simp [hp]
    · rw [if_neg hlt, List.filter_cons, List.filter_cons]
      by_cases hp : p (a, y) = true
      · rw [if_pos hp, if_pos hp, List.length_cons, List.length_cons, ih hrest, Nat.add_right_comm]
      · rw [if_neg hp, if_neg hp, ih hrest]

/-- R118: the operation that an issue enters. -/
def issuedOp (s : State) (k : Iss) (c : EngClass) (kind : OpKind) (bar : Option BarKey) : EngOp :=
  { gid := k.gid, cls := c, ord := k.g.nextOrd c, kind := kind, pc := k.pc, started := false, failed := none, buf := [], have_ := [],
    bar := bar, sh := none, fn := s.fnOf k.g, optag := (s.func (s.fnOf k.g)).nextOptag, swept := false, nib := k.gang.id, dev := s.devnum,
    made := 0, cost := 0 }

/-- The issuing context counts one more issue of the class. -/
def countIssue (c : EngClass) (g : Group) : Group := { g with issued := KMap.put g.issued (classIndex c) (g.nextOrd c) }

section Issue

variable (s : State) (k : Iss) (c : EngClass) (kind : OpKind) (bar : Option BarKey)

theorem issueOp_ops : (s.issueOp k c kind bar).ops = KMap.put s.ops s.nextOp (issuedOp s k c kind bar) := rfl

theorem issueOp_groups : (s.issueOp k c kind bar).groups = (s.modGroup k.gid (countIssue c)).groups := rfl

theorem issueOp_only : s.issueOp k c kind bar =
    { s with ops := (s.issueOp k c kind bar).ops, nextOp := s.nextOp + 1, funcs := (s.issueOp k c kind bar).funcs,
             groups := (s.issueOp k c kind bar).groups } := rfl

theorem issueOp_group (g : Nat) : (s.issueOp k c kind bar).group g = (s.modGroup k.gid (countIssue c)).group g := by
  rw [State.group, issueOp_groups, State.group]

/-- R118: an issue touches no byte. -/
theorem issueOp_sameBytes : SameBytes s (s.issueOp k c kind bar) := fun o l => by
  have hgroup : SameBytes s (s.modGroup k.gid (countIssue c)) := modGroup_sameBytes s k.gid fun _ => rfl
  rw [← hgroup o l]
  cases l with
  | dpa a => rfl
  | place p off => cases p <;> rfl
  | host a => rfl

variable {s k c}

/-- R132: the class has one more operation. -/
theorem issueOp_opsOf_length (hnew : KMap.get s.ops s.nextOp = none) :
    ((s.issueOp k c kind bar).opsOf k.gid c).length = (s.opsOf k.gid c).length + 1 := by
  rw [State.opsOf, State.opsOf, List.length_map, List.length_map, issueOp_ops, filter_put_length _ _ hnew]
  simp [issuedOp]

/-- R132: a counter that no image has restored counts the operations of its class. -/
theorem counter_of_no_skew {g : Group} {gid : Nat} (hg : s.group gid = some g) (hskew : KMap.getD g.skew (classIndex c) 0 = 0) :
    s.counter gid c = (s.opsOf gid c).length := by
  simp only [State.counter, hg, Option.map_some, hskew]

end Issue

/-- Settles O21, field by field: an issue puts one operation at a number that none had, and the context counts it. -/
theorem issueLeaves : Obligations.IssueLeaves := by
  unfold Obligations.IssueLeaves
  intro s k c kind bar hi hnew
  obtain ⟨hg, -, -⟩ := issuer_context hi
  have hgroup : (s.issueOp k c kind bar).group k.gid = some (countIssue c k.g) := by
    rw [issueOp_group, State.group_modGroup_same, hg, Option.map_some]
  refine ⟨issueOp_only s k c kind bar, issueOp_sameBytes s k c kind bar, issueOp_opsOf_length kind bar hnew, fun hskew => ?counter,
    fun o ho => ?others, ⟨issuedOp s k c kind bar, ?new, rfl, rfl, rfl, rfl, rfl, rfl, rfl⟩, ⟨_, hgroup, rfl⟩, fun g hne => ?contexts⟩
  case counter =>
    rw [counter_of_no_skew hgroup hskew, counter_of_no_skew hg hskew, issueOp_opsOf_length kind bar hnew]
  case others => rw [issueOp_ops, KMap.get_put_other _ _ ho]
  case new => rw [issueOp_ops, KMap.get_put_same]
  case contexts => rw [issueOp_group, State.group_modGroup, if_neg hne]

end Sys2Proof.Ordering
end

section
/-!
PROOFS. FENCE, FWAIT and WAITC (R129 to R132).
-/

namespace Sys2Proof.Ordering

open Sys2Proof Sys2Proof.Machine Sys2Proof.Claims Sys2Proof.AddressSpaces Sys2Proof.MemoryHierarchy

/-! ### What a wait does (R59, R352) -/

section Wait

variable {s : State} {k : Iss} {ops : List Nat} {failed : List FailedOp} {after : State → State}

/-- A wait that covers nothing is over. -/
theorem awaitOps_over (hops : ops = []) (hfailed : failed = []) : s.awaitOps k ops failed after = after s := by
  subst hops hfailed
  rfl

/-- A wait for operations of which none is held holds the gang. -/
theorem awaitOps_holds (hops : ops ≠ []) (hheld : ∀ o ∈ ops, s.isHeld o = false) : s.awaitOps k ops failed after = s.retry k := by
  have hnone : ops.any s.isHeld = false := by simpa using hheld
  simp only [State.awaitOps, hnone, Bool.false_eq_true, if_false, if_pos hops]

end Wait

/-! ### FENCE -/

/-- An element of a list in which one has been set. -/
theorem getD_listSet {α : Type} (d x : α) (l : List α) (k j : Nat) : (listSet d x l k).getD j d = if j = k then x else l.getD j d := by
  induction l, k using listSet.induct generalizing j with
  | case1 => cases j <;> simp [listSet]
  | case2 i ih => cases j with
    | zero => simp [listSet]
    | succ j => simpa [listSet] using ih j
  | case3 y l => cases j <;> simp [listSet]
  | case4 y l i ih => cases j with
    | zero => simp [listSet]
    | succ j => simpa [listSet] using ih j

/-- Two changes of one context are one. -/
theorem modGroup_modGroup (s : State) (gid : Nat) (f h : Group → Group) : (s.modGroup gid f).modGroup gid h = s.modGroup gid fun g => h (f g) := by
  have hadjust : KMap.adjust (KMap.adjust s.groups gid f) gid h = KMap.adjust s.groups gid fun g => h (f g) := by
    rw [KMap.adjust, KMap.adjust, KMap.adjust, List.map_map]
    refine List.map_congr_left fun e _ => ?_
    by_cases he : e.1 = gid <;> simp [he]
  simp only [State.modGroup, hadjust]

/-- R130: the fence in slot `j`, and its token in scalar `n`. -/
def fenced (n j : Nat) (f : FenceSlot) (g : Group) : Group :=
  { g with fences := listSet ⟨0, 0, [], [], []⟩ f g.fences j, s := KMap.put g.s n (dword (f.serial * 256 + j)) }

theorem fenced_fence (n j : Nat) (f : FenceSlot) (g : Group) (i : Nat) : (fenced n j f g).fence i = if i = j then f else g.fence i :=
  getD_listSet _ _ _ _ _

theorem fenced_sreg (n j : Nat) (f : FenceSlot) (g : Group) (m : Nat) :
    (fenced n j f g).sreg m = if m = n then dword (f.serial * 256 + j) else g.sreg m := by
  simp only [Group.sreg, fenced, KMap.getD_put]

/-- The checks of FENCE, FWAIT and WAITC, in the order of R35. -/
def fenceChks (n : Nat) (scope mask : Byte) (k : Iss) : List Chk :=
  [quillOpnds k [.sca n], scaChk 1 (.sca n), failIf (decide (6 < scope.toNat)) 2 2,
    failIf (decide (mask.toNat = 0) || decide (32 ≤ mask.toNat)) 2 3]
def fwaitChks (n : Nat) (u : BitVec 16) (k : Iss) : List Chk :=
  [quillOpnds k [.sca n], scaChk 1 (.sca n),
    failIf (decide (bitsOf (k.g.sreg n).toNat 63 16 ≠ 0) || decide (bitsOf (k.g.sreg n).toNat 7 3 ≠ 0)) 2 1] ++ zero16 u
def waitcChks (cls : Byte) (n : BitVec 16) : List Chk := [failIf (decide (3 < cls.toNat)) 2 1, failIf (decide (63 < n.toNat)) 2 2]

/-- R130: a FENCE that did not have to wait takes the lowest slot whose fence has completed. -/
theorem exec_fence {s : State} {k : Iss} {n j : Nat} {scope mask : Byte} (hi : s.Issues k (fenceChks n scope mask k)) (hh : k.gang.hold = .none)
    (hj : j < 8) (hdone : s.fenceDone k.gid k.g (k.g.fence j) = true) (hlow : ∀ i < j, s.fenceDone k.gid k.g (k.g.fence i) = false) :
    exec (.fence (.sca n) scope mask) s = .next
      (let f := s.covered k.gid k.g scope.toNat mask.toNat (((k.g.fence j).serial + 1) % 256)
       let u := s.modIss k (fenced n j f)
       if scope.toNat = 6 then u.flush k.gid k.g f.ops else u) := by
  have hslot : ((List.range 8).find? fun i => s.fenceDone k.gid k.g (k.g.fence i)) = some j := range_find?_lowest hj hdone hlow
  have hwaited : k.waited = false := by rw [Iss.waited, hh]; rfl
  refine (State.insn_pass hi _).trans (congrArg Host.Outcome.next ?_)
  simp only [hslot, hwaited, Bool.false_eq_true, if_false, ne_eq, not_true_eq_false, State.writeS_eq, State.modIss, modGroup_modGroup]
  rfl

/-! ### FWAIT -/

section Fwait

variable {s : State} {k : Iss} {n : Nat} {u : BitVec 16} (hi : s.Issues k (fwaitChks n u k))
include hi

/-- R131: a token of another fence than the one in its slot is of one that has completed. -/
theorem exec_fwait_other (hser : (k.g.fence (bitsOf (k.g.sreg n).toNat 2 0)).serial ≠ bitsOf (k.g.sreg n).toNat 15 8) :
    exec (.fwait (.sca n) u) s = .next s :=
  (State.insn_pass hi _).trans (congrArg Host.Outcome.next (if_neg hser))

theorem exec_fwait_this (hser : (k.g.fence (bitsOf (k.g.sreg n).toNat 2 0)).serial = bitsOf (k.g.sreg n).toNat 15 8) :
    exec (.fwait (.sca n) u) s = .next
      (let f := k.g.fence (bitsOf (k.g.sreg n).toNat 2 0)
       s.awaitOps k (f.ops.filter s.opPending) (k.g.failed.filter fun x => f.ops.contains x.id) fun s =>
        if s.fenceDone k.gid k.g f then s else s.retry k) :=
  (State.insn_pass hi _).trans (congrArg Host.Outcome.next (if_pos hser))

/-- R131: a fence that has completed, no operation of which has its failure still to report, holds nothing. -/
theorem exec_fwait_done (hdone : s.fenceDone k.gid k.g (k.g.fence (bitsOf (k.g.sreg n).toNat 2 0)) = true)
    (hfailed : ∀ x ∈ k.g.failed, x.id ∉ (k.g.fence (bitsOf (k.g.sreg n).toNat 2 0)).ops) : exec (.fwait (.sca n) u) s = .next s := by
  by_cases hser : (k.g.fence (bitsOf (k.g.sreg n).toNat 2 0)).serial = bitsOf (k.g.sreg n).toNat 15 8
  · have hops : (k.g.fence (bitsOf (k.g.sreg n).toNat 2 0)).ops.any s.opPending = false := by
      simp only [State.fenceDone, Bool.and_eq_true, Bool.not_eq_true'] at hdone
      obtain ⟨⟨⟨hops, -⟩, -⟩, -⟩ := hdone
      exact hops
    rw [exec_fwait_this hi hser]
    dsimp only
    rw [awaitOps_over (by simpa using hops) (by simpa using hfailed), if_pos hdone]
  · exact exec_fwait_other hi hser

/-- R131: an operation that the fence covers and that has still to perform holds the gang. -/
theorem exec_fwait_holds (hser : (k.g.fence (bitsOf (k.g.sreg n).toNat 2 0)).serial = bitsOf (k.g.sreg n).toNat 15 8)
    (hops : (k.g.fence (bitsOf (k.g.sreg n).toNat 2 0)).ops.any s.opPending = true)
    (hheld : ∀ o ∈ (k.g.fence (bitsOf (k.g.sreg n).toNat 2 0)).ops, s.isHeld o = false) :
    exec (.fwait (.sca n) u) s = .next (s.retry k) := by
  rw [exec_fwait_this hi hser]
  exact congrArg Host.Outcome.next (awaitOps_holds (by simpa using hops) fun o ho => hheld o (List.mem_of_mem_filter ho))

end Fwait

/-! ### WAITC -/

section Waitc

variable {s : State} {k : Iss} {c : EngClass} {cls : Byte} {n : BitVec 16} (hc : classOf cls.toNat = some c) (hi : s.Issues k (waitcChks cls n))
include hc hi

theorem exec_waitc : exec (.waitc cls n) s = .next
    (if s.opsOf k.gid c = [] ∧ n.toNat < s.counter k.gid c then s.retry k
     else s.awaitOps k ((s.opsOf k.gid c).take (s.counter k.gid c - n.toNat))
      (k.g.failed.filter fun f => f.cls == c && decide (f.ord + n.toNat ≤ KMap.getD k.g.issued (classIndex c) 0)) fun s => s) := by
  refine (State.insn_pass hi _).trans (congrArg Host.Outcome.next ?_)
  simp only [hc]

theorem exec_waitc_over (hn : s.counter k.gid c ≤ n.toNat) (hfailed : k.g.failed = []) : exec (.waitc cls n) s = .next s := by
  rw [exec_waitc hc hi, if_neg (by omega), hfailed, awaitOps_over (by rw [Nat.sub_eq_zero_of_le hn, List.take_zero]) List.filter_nil]

theorem exec_waitc_holds (hn : n.toNat < s.counter k.gid c) (hheld : ∀ o ∈ s.opsOf k.gid c, s.isHeld o = false) :
    exec (.waitc cls n) s = .next (s.retry k) := by
  rw [exec_waitc hc hi]
  by_cases hops : s.opsOf k.gid c = []
  · rw [if_pos ⟨hops, hn⟩]
  · have hsome : (s.opsOf k.gid c).take (s.counter k.gid c - n.toNat) ≠ [] := by
      rw [Ne, List.take_eq_nil_iff]
      exact fun h => h.elim (by omega) hops
    rw [if_neg fun h => hops h.1, awaitOps_holds hsome fun o ho => hheld o (List.mem_of_mem_take ho)]

end Waitc

/-- Settles O23, instruction by instruction: the slot that a FENCE takes, and for FWAIT and WAITC whether what they cover is empty. -/
theorem orderingResults : Obligations.OrderingResults := by
  unfold Obligations.OrderingResults
  refine ⟨?fence, ?fwait, ?waitc⟩
  case fence =>
    intro n scope mask s k j hi hh hj hdone hlow
    have hbecame := modIss_became (f := fenced n j (s.covered k.gid k.g scope.toNat mask.toNat (((k.g.fence j).serial + 1) % 256)))
      (issuer_context hi.1).1 fun _ => rfl
    have hslot := (fenced_fence n j (s.covered k.gid k.g scope.toNat mask.toNat (((k.g.fence j).serial + 1) % 256)) k.g j).trans (if_pos rfl)
    refine ⟨_, _, ?_, hbecame, rfl, hslot, fun i hne => (fenced_fence n j _ k.g i).trans (if_neg hne), fun m => fenced_sreg n j _ k.g m⟩
    rw [hslot]
    exact exec_fence hi hh hj hdone hlow
  case fwait =>
    exact fun n u s k hi => ⟨exec_fwait_other hi, exec_fwait_done hi, exec_fwait_holds hi⟩
  case waitc =>
    exact fun cls n c s k hc hi => ⟨exec_waitc_over hc hi, exec_waitc_holds hc hi⟩

end Sys2Proof.Ordering
end

section
/-!
PROOFS. TASKQ, TASKDONE and SIGNAL behind everything that their context issued (R129, R299, R300, R303).
-/

namespace Sys2Proof.Ordering

open Sys2Proof Sys2Proof.Machine Sys2Proof.Claims

/-! ### The release condition -/

section Released

variable {s : State} {k : Iss} {sys : Bool} {after : State → State} (hq : Quiet s k)
include hq

theorem released_quiet : s.released k sys after = if sys = true ∧ k.g.hostWrites ≠ [] then
    (if s.flushing k.gid then s else s.flush k.gid k.g (k.g.hostWrites.map Prod.fst)).retry k else after s := by
  obtain ⟨hops, hfailed, hstores, hloads⟩ := hq
  rw [State.released, awaitOps_over hops hfailed, if_neg (by simp [hstores, hloads])]

/-- R299, R300: at device scope host-window writes are waited for no further. -/
theorem released_device : s.released k false after = after s := by
  rw [released_quiet hq, if_neg (by simp)]

theorem released_system (hw : k.g.hostWrites = []) : s.released k sys after = after s := by
  rw [released_quiet hq, if_neg fun h => h.2 hw]

/-- R129: at system scope a flushing read is posted behind host-window writes that none has followed. -/
theorem released_flushes (hw : k.g.hostWrites ≠ []) (hf : s.flushing k.gid = false) :
    s.released k true after = (s.flush k.gid k.g (k.g.hostWrites.map Prod.fst)).retry k := by
  rw [released_quiet hq, if_pos ⟨rfl, hw⟩, hf]
  rfl

end Released

/-! ### TASKQ (R299) -/

theorem bitsOf_eq (x hi lo : Nat) : bitsOf x hi lo = x / 2 ^ lo % 2 ^ (hi + 1 - lo) := by rw [bitsOf, Nat.shiftRight_eq_div_pow]

/-- The checks of TASKQ, TASKDONE and SIGNAL, in the order of R35. -/
def taskqChks (n : Nat) (u : BitVec 16) (k : Iss) : List Chk := [quillOpnds k [.sca n], taskBlkChk (.sca n)] ++ zero16 u
def taskdoneChks (ua : Byte) (x : Opnd) (u : Byte) (k : Iss) : List Chk :=
  [quillOpnds k [x], zeroChk 1 ua, failIf (!Opnd.isUni x) 2 2, valueChk 2 x (decide (4095 < (k.uni64 x).toNat)), zeroChk 3 u,
    litChk x (decide (4095 < (k.uni64 x).toNat))]
def signalChks (n : Nat) (v : Opnd) (op : Byte) (k : Iss) : List Chk :=
  [quillOpnds k [.sca n, v], scaChk 1 (.sca n), failIf (!Opnd.isUni v) 2 2,
    failIf (decide (bitsOf op.toNat 6 2 ≠ 0) || op.toNat % 4 == 3) 2 3]

theorem exec_taskq {s : State} {k : Iss} {n : Nat} {u : BitVec 16} (hi : s.Issues k (taskqChks n u k)) (hs : s.speculative k.g = false)
    (hq : Quiet s k) (hrsvd : (k.g.sreg (n + 1)).toNat / 2 ^ 36 = 0) (htask : (k.g.sreg (n + 1)).toNat % 2 ^ 16 < 4096)
    (hsucc : ∀ x ∈ taskSucc (k.g.sreg (n + 1)).toNat (k.g.sreg (n + 2)).toNat, x < 4096) : exec (.taskq (.sca n) u) s = .next
      (let w1 := (k.g.sreg (n + 1)).toNat
       let st := ((s.func (s.fnOf k.g)).task (w1 % 2 ^ 16)).st
       if st = .free ∨ st = .done then
         s.taskQueue (s.fnOf k.g) (w1 % 2 ^ 16) (w1 / 2 ^ 16 % 2 ^ 16) (taskSucc w1 (k.g.sreg (n + 2)).toNat) (k.g.sreg n) (k.g.sreg (n + 3))
       else s.trap k 6 16) := by
  have htop : bitsOf (k.g.sreg (n + 1)).toNat 63 36 = 0 := by rw [bitsOf_eq, hrsvd, Nat.zero_mod]
  have hlow : bitsOf (k.g.sreg (n + 1)).toNat 15 0 = (k.g.sreg (n + 1)).toNat % 2 ^ 16 := by rw [bitsOf_eq, Nat.pow_zero, Nat.div_one]
  have hmid : bitsOf (k.g.sreg (n + 1)).toNat 31 16 = (k.g.sreg (n + 1)).toNat / 2 ^ 16 % 2 ^ 16 := bitsOf_eq _ _ _
  have hall : ((taskSucc (k.g.sreg (n + 1)).toNat (k.g.sreg (n + 2)).toNat).any fun x => decide (4095 < x)) = false := by
    simpa [Nat.lt_succ_iff] using fun x hx => Nat.le_of_lt_succ (hsucc x hx)
  refine (State.insn_pass hi _).trans (congrArg Host.Outcome.next ?_)
  simp only [scaNo, hs, htop, hlow, hmid, hall, Bool.false_eq_true, if_false, ne_eq, not_true_eq_false, false_or, or_false]
  rw [if_neg (Nat.not_lt.2 (Nat.le_of_lt_succ htask)), released_device hq]

/-! ### TASKDONE (R300) -/

theorem exec_taskdone {s : State} {k : Iss} {x : Opnd} {ua u : Byte} (hi : s.Issues k (taskdoneChks ua x u k)) (hs : s.speculative k.g = false)
    (hq : Quiet s k) : exec (.taskdone ua x u) s = .next (match s.taskDone (s.fnOf k.g) (k.uni64 x).toNat with
      | .ok t => t
      | .error d => s.trap k 0x10 d) := by
  refine (State.insn_pass hi _).trans (congrArg Host.Outcome.next ?_)
  exact (if_neg (by simp [hs])).trans (released_device hq)

/-! ### SIGNAL (R303) -/

section Signal

variable {s : State} {k : Iss} {n : Nat} {v : Opnd} {op : Byte} (hi : s.Issues k (signalChks n v op k)) (hs : s.speculative k.g = false)
include hi hs

theorem exec_signal : exec (.signal (.sca n) v op) s = .next
    (if !canonical (k.g.sreg n).toNat then s.trap k 4 2
     else if (k.g.sreg n).toNat % 8 ≠ 0 then s.trap k 4 5
     else s.released k true fun s =>
       s.issueWhenReady k .atomic (.signal (k.g.sreg n) (k.uni64 v) (op.toNat % 4) (op.getLsbD 7)) none) :=
  (State.insn_pass hi _).trans (congrArg Host.Outcome.next (if_neg (by simp [hs])))

theorem exec_signal_nonCanonical (hc : canonical (k.g.sreg n).toNat = false) : exec (.signal (.sca n) v op) s = .next (s.trap k 4 2) := by
  rw [exec_signal hi hs, hc]
  rfl

variable (hc : canonical (k.g.sreg n).toNat = true)
include hc

theorem exec_signal_misaligned (ha : (k.g.sreg n).toNat % 8 ≠ 0) : exec (.signal (.sca n) v op) s = .next (s.trap k 4 5) := by
  rw [exec_signal hi hs, if_neg (by simp [hc]), if_pos ha]

variable (ha : (k.g.sreg n).toNat % 8 = 0) (hq : Quiet s k)
include ha hq

theorem exec_signal_flushes (hw : k.g.hostWrites ≠ []) (hf : s.flushing k.gid = false) :
    exec (.signal (.sca n) v op) s = .next ((s.flush k.gid k.g (k.g.hostWrites.map Prod.fst)).retry k) := by
  rw [exec_signal hi hs, if_neg (by simp [hc]), if_neg (not_not_intro ha), released_flushes hq hw hf]

theorem exec_signal_issues (hw : k.g.hostWrites = []) (hready : s.canIssue k .atomic = true) : exec (.signal (.sca n) v op) s =
    .next (s.issueOp k .atomic (.signal (k.g.sreg n) (k.uni64 v) (op.toNat % 4) (op.getLsbD 7)) none) := by
  rw [exec_signal hi hs, if_neg (by simp [hc]), if_neg (not_not_intro ha), released_system hq hw, State.issueWhenReady, if_pos hready]

end Signal

/-- Settles O31: with everything performed, the release condition lets each of the three take its step. -/
theorem taskAndSignalResults : Obligations.TaskAndSignalResults := by
  unfold Obligations.TaskAndSignalResults
  refine ⟨?taskq, ?taskdone, ?signal⟩
  case taskq =>
    intro n u s k hi hs hq w1 succ task fn hrsvd htask hsucc
    have hstep := exec_taskq hi hs hq hrsvd htask hsucc
    exact ⟨fun hst => hstep.trans (congrArg Host.Outcome.next (if_pos hst)),
      fun hfree hdone => hstep.trans (congrArg Host.Outcome.next (if_neg (not_or.2 ⟨hfree, hdone⟩)))⟩
  case taskdone =>
    exact fun ua x u s k hi hs hq => exec_taskdone hi hs hq
  case signal =>
    exact fun n v op s k hi hs => ⟨exec_signal_nonCanonical hi hs, exec_signal_misaligned hi hs, exec_signal_flushes hi hs,
      exec_signal_issues hi hs⟩

end Sys2Proof.Ordering
end

section
/-!
PROOFS. Sheaf writes, seals and aborts at one home, and the steps of an SHREAD (R139, R140, R161 to R164).
-/

namespace Sys2Proof.Ordering

open Sys2Proof Sys2Proof.Machine Sys2Proof.Claims Sys2Proof.AddressSpaces

/-! ### SWRITE (R161) -/

section Swrite

variable {s : State} {q a i : Nat} {r : Req} {o : EngOp} {e : SheafEntry} (hs : s.canServe q = some (r, o, a)) (hh : r.handle ≠ 0)
  (he : s.sheafOf r.handle = some (i, e)) (hregion : s.inSheafRegion a = true)
  (hname : ¬(bitsOf (s.sidecar a 0) 31 0 ≠ 0 ∧ bitsOf (s.sidecar a 0) 31 0 ≠ e.name))

/-- R161: the pending version stands open, and the sheaf's entry names its line. -/
def pendingOpened (s : State) (r : Req) (a i : Nat) (e : SheafEntry) : State :=
  { s.openPending r.owner a i e.serial with
    sheaves := KMap.adjust (s.openPending r.owner a i e.serial).sheaves i fun e =>
      { e with lines := if e.lines.contains (a / 128) then e.lines else e.lines ++ [a / 128] } }

include hs hh he hregion hname

theorem exec_swrite_store {bs : List (Nat × Byte)} (hk : r.kind = .store bs) : exec (.swrite q) s =
    .next (((pendingOpened s r a i e).pendingWrite a bs).setStage q .done) := by
  show Host.Outcome.next (s.swriteStep q) = _
  simp only [State.swriteStep, hs, he, hregion, hk, if_neg hh, if_neg hname, Bool.not_true, Bool.false_eq_true, if_false]
  rfl

theorem exec_swrite_write {ps : List (Nat × Nat)} (hk : r.kind = .write ps) : exec (.swrite q) s =
    .next ((((pendingOpened s r a i e).pendingWrite a (ps.map fun p => (p.1, Mem.get o.buf p.2))).countBytes o
      (nubBy (ps.map Prod.fst)).length).setStage q .done) := by
  show Host.Outcome.next (s.swriteStep q) = _
  simp only [State.swriteStep, hs, he, hregion, hk, if_neg hh, if_neg hname, Bool.not_true, Bool.false_eq_true, if_false]
  rfl

end Swrite

/-! ### SEAL_MANIFEST_WRITE, SEAL and ABORT (R162, R163) -/

theorem exec_sealManifestWrite {s : State} {x : Nat} {e : SheafEntry} (hx : KMap.get s.sheaves x = some e) (hc : e.closing = true)
    (ha : e.aborting = false) (hsent : e.sent = false) (hw : s.writesOver e = true) (hcl : s.closed = false) (hb : e.broken = false) :
    exec (.sealManifestWrite x) s = .next (
      let s1 := (s.openPending (s.func e.fn).owner e.man x e.serial).pendingWrite e.man ((List.range 128).map fun j => (j, e.manifest.getD j 0))
      { s1 with sheaves := KMap.adjust s1.sheaves x fun e => { e with sent := true, homes := s.sheafHomes e } }) := by
  show Host.Outcome.next (s.manifestStep x) = _
  simp only [State.manifestStep, hx, hc, ha, hsent, hw, hcl, hb]
  rfl

theorem exec_seal {s : State} {x home : Nat} {e : SheafEntry} (hx : KMap.get s.sheaves x = some e) (hsent : e.sent = true)
    (ha : e.aborting = false) (hhome : home ∈ e.homes)
    (hshut : s.homeShut home ((s.sealMembers e home).map Prod.fst ++ if s.homeOf e.fn e.man = home then [e.man] else []) = false) :
    exec (.seal x home) s = .next (
      let s1 := (s.sealMembers e home).foldl (fun s m => (s.sealLine x e m.1 m.2.1 m.2.2).touch none (.dpa m.1)) s
      (if s.homeOf e.fn e.man = home then (s1.sealLine x e e.man 0 0).touch none (.dpa e.man) else s1).homeDone x home) := by
  show Host.Outcome.next (s.sealStep x home) = _
  simp only [State.sealStep, hx, beq_iff_eq]
  rw [if_pos ⟨hsent, by simp [ha], by simpa using hhome, by simp [hshut]⟩]

/-- A fold of sidecar writes leaves the sheaf table. -/
theorem putSidecars_sheaves (f : State → Nat → Nat) (w : Nat) (as : List Nat) (s : State) :
    (as.foldl (fun s a => s.putSidecar a w (f s a)) s).sheaves = s.sheaves := by
  induction as generalizing s with
  | nil => rfl
  | cons a as ih => rw [List.foldl_cons, ih]; rfl

theorem exec_abort {s : State} {x home : Nat} {e0 : SheafEntry} (hx : KMap.get s.sheaves x = some e0) :
    (let e := s.abortEntry e0
     let as := (e.lines.map (· * 128)).filter fun a => s.homeOf e.fn a == home
     e.closing = true → e.aborting = true → s.writesOver e = true → home ∈ e.homes → s.homeShut home (as ++ [e.man]) = false →
     exec (.abort x home) s = .next (({ (as.filter fun a => s.pendingOf a x e.serial).foldl
       (fun s a => s.putSidecar a 2 (setBits (s.sidecar a 2) 19 18 0)) s with sheaves := KMap.put s.sheaves x e } : State).homeDone x home)) := by
  intro e as hc ha hw hhome hshut
  show Host.Outcome.next (s.abortStep x home) = _
  simp only [State.abortStep, hx]
  rw [if_pos ⟨ha, hc, hw, by simpa using hhome, by simpa using hshut⟩, putSidecars_sheaves]

/-! ### LOOK, LIST and FETCH (R140, R164) -/

theorem exec_shreadLook {s : State} {op line q a : Nat} {o : EngOp} {r : Req} {p : ShProg} (ho : KMap.get s.ops op = some o)
    (hq : s.shReq op line = some (q, r)) (hp : o.sh = some p) (hnew : (p.lines.any fun x => x.source && x.addr == line) = false)
    (hl : r.loc = some (.dpa a)) (hshut : s.hbmShut a = false) (hpeer : s.peerPauses a = false)
    (hchaff : (s.inSlotNow && s.inChaff r.tag (a / 128)) = false) : exec (.shreadLook op line) s = .next (
      if s.shRefused a = true then s.refuse q 5 0 0 else if s.inSheafRegion a = true ∧ bitsOf (s.sidecar a 0) 31 0 ≠ 0 then
        (s.cacheLine o.fn a).modSh op fun p => { p with lines := p.lines ++ [⟨line, true, bitsOf (s.sidecar a 0) 63 32, bitsOf (s.sidecar a 0) 31 0,
          bitsOf (s.sidecar a 1) 59 7 * 128, s.lineState a, s.reqRead r (.dpa a) 128, none⟩] }
      else ((s.cacheLine o.fn a).shDeliver q r (s.reqRead r (.dpa a) 128)).modSh op fun p =>
        { p with plain := true, lines := p.lines ++ [⟨line, true, 0, 0, 0, 0, [], none⟩] }) := by
  have hstands : ¬(s.hbmShut a = true ∨ s.peerPauses a = true ∨ s.inSlotNow = true ∧ s.inChaff r.tag (a / 128) = true) := by
    simpa [hshut, hpeer] using hchaff
  show Host.Outcome.next (s.lookStep op line) = _
  simp only [State.lookStep, hq, ho, Option.bind_some, hp, hnew, hl, if_neg hstands, Bool.false_eq_true, if_false, Option.elim_some]

section List

variable {s : State} {op line man : Nat} {o : EngOp} {p : ShProg} (ho : KMap.get s.ops op = some o) (hp : o.sh = some p)
  (hlooked : s.shLooked op p = true) (hasked : s.shAsked op (line * 128) none = true) (hshut : s.hbmShut (line * 128) = false)
  (hpeer : s.peerPauses (line * 128) = false)
  (hman : p.openGroups.find? (fun m => (s.shToList o.fn p m).contains line) = some man)
include ho hp hlooked hasked hshut hpeer hman

theorem exec_shreadList_refused (hr : s.shRefused (line * 128) = true)
    (hchaff : line = man / 128 ∧ s.inSlotNow = true → s.inChaff (s.opTag o) line = false) :
    exec (.shreadList op line) s = .next (s.shGroupRefused op man p) := by
  have hstands : ¬(line = man / 128 ∧ s.inSlotNow = true ∧ s.inChaff (s.opTag o) line = true) := fun ⟨hl, hn, hc⟩ => by
    simp [hchaff ⟨hl, hn⟩] at hc
  show Host.Outcome.next (s.listStep op line) = _
  simp only [State.listStep, ho, hp, hlooked, hasked, hshut, hpeer, hman, hr, if_neg hstands, Bool.not_true, Bool.false_eq_true, or_self, if_false,
    if_true]

/-- R164: outside a prediction the line joins what its group has seen, and the last of them leads to the comparison. -/
theorem exec_shreadList_lists (hr : s.shRefused (line * 128) = false) (htag : s.opTag o = none) :
    exec (.shreadList op line) s = .next (s.listLine op o p man line) := by
  have hstands : ¬(line = man / 128 ∧ s.inSlotNow = true ∧ s.inChaff none line = true) := fun ⟨_, _, hc⟩ => Bool.noConfusion hc
  show Host.Outcome.next (s.listStep op line) = _
  simp only [State.listStep, ho, hp, hlooked, hasked, hshut, hpeer, hman, hr, if_neg hstands, htag, Bool.not_true, Bool.false_eq_true, or_self,
    if_false]

end List

theorem opRead_untagged {s : State} {o : EngOp} (htag : s.opTag o = none) (a n : Nat) : s.opRead o a n = s.memRead (s.func o.fn).owner a n := by
  rw [State.opRead, htag]

section Fetch

variable {s : State} {op line q a : Nat} {o : EngOp} {r : Req} {p : ShProg} {x : Seen} (ho : KMap.get s.ops op = some o)
  (hq : s.shReq op line = some (q, r)) (hp : o.sh = some p) (hl : r.loc = some (.dpa a))
  (hx : p.lines.find? (fun x => x.source && x.addr == line && x.name != 0) = some x)
include ho hq hp hl hx

theorem exec_shreadFetch_other (hver : x.ver ≠ p.lowest x.man + 1) : exec (.shreadFetch op line) s = .next s := by
  show Host.Outcome.next (s.fetchStep op line) = _
  simp only [State.fetchStep, ho, hq, hp, hl, hx]
  rw [if_neg fun ⟨_, _, _, _, h, _⟩ => hver h]

variable (hopen : x.man ∈ p.openGroups) (hlisted : s.shToList o.fn p x.man = []) (hlooked : s.shLooked op p = true) (hgot : x.got = none)
  (hasked : s.shAsked op a (some (line * 128)) = true) (hshut : (if s.lineState a = 3 then s.hbmShut a else s.altShut a) = false)
  (hpeer : s.peerPauses a = false) (hver : x.ver = p.lowest x.man + 1)
include hopen hlisted hlooked hgot hasked hshut hpeer hver

theorem exec_shreadFetch : exec (.shreadFetch op line) s = .next (
    if s.shRefused a = true then s.shGroupRefused op x.man p
    else if bitsOf (s.sidecar a 0) 63 32 = x.ver ∧ (s.lineState a = 1 ∨ s.lineState a = 3) then
      ((if s.lineState a = 3 then s.cacheLine o.fn a else s.cacheAlternate a).modSh op fun p => { p with lines := p.lines.map fun y =>
        if y.source && y.addr == line then
          { y with got := some ((List.range 128).map fun j =>
            if s.lineTag (a / 128) == s.tagOf (devOf a) r.owner then Mem.get s.mem (s.slotAddr (s.lineState a == 3) (a + j)) else 0) }
        else y }).shCompare op x.man
    else s.shRestart op x.man p) := by
  show Host.Outcome.next (s.fetchStep op line) = _
  simp only [State.fetchStep, ho, hq, hp, hl, hx]
  rw [if_pos ⟨by simpa using hopen, hlisted, hlooked, by simp [hgot], hver, hasked, by simpa using hshut, by simp [hpeer]⟩]

theorem exec_shreadFetch_refused (hr : s.shRefused a = true) : exec (.shreadFetch op line) s = .next (s.shGroupRefused op x.man p) := by
  rw [exec_shreadFetch ho hq hp hl hx hopen hlisted hlooked hgot hasked hshut hpeer hver, if_pos hr]

theorem exec_shreadFetch_restarts (hr : s.shRefused a = false)
    (hmoved : bitsOf (s.sidecar a 0) 63 32 ≠ x.ver ∨ (s.lineState a ≠ 1 ∧ s.lineState a ≠ 3)) :
    exec (.shreadFetch op line) s = .next (s.shRestart op x.man p) := by
  rw [exec_shreadFetch ho hq hp hl hx hopen hlisted hlooked hgot hasked hshut hpeer hver, if_neg (by simp [hr]),
    if_neg fun ⟨hv, hst⟩ => hmoved.elim (fun h => h hv) fun ⟨h1, h3⟩ => hst.elim h1 h3]

/-- R164: the retained copy of the right version is kept, as its owner reads it. -/
theorem exec_shreadFetch_keeps (hr : s.shRefused a = false) (hsame : bitsOf (s.sidecar a 0) 63 32 = x.ver)
    (hst : s.lineState a = 1 ∨ s.lineState a = 3) (hown : s.lineTag (a / 128) = s.tagOf (devOf a) r.owner) :
    exec (.shreadFetch op line) s = .next (
      ((if s.lineState a = 3 then s.cacheLine o.fn a else s.cacheAlternate a).modSh op fun p => { p with lines := p.lines.map fun y =>
        if y.source = true ∧ y.addr = line then
          { y with got := some ((List.range 128).map fun j => Mem.get s.mem (s.slotAddr (s.lineState a == 3) (a + j))) }
        else y }).shCompare op x.man) := by
  rw [exec_shreadFetch ho hq hp hl hx hopen hlisted hlooked hgot hasked hshut hpeer hver, if_neg (by simp [hr]), if_pos ⟨hsame, hst⟩]
  simp only [hown, beq_self_eq_true, if_true, Bool.and_eq_true, beq_iff_eq]

end Fetch

/-! ### The comparison and the delivery (R164) -/

section Compare

variable {s : State} {op man : Nat} {o : EngOp} {p : ShProg} (ho : KMap.get s.ops op = some o) (hp : o.sh = some p)

/-- R164: what an SHREAD has seen of a group. -/
def seenOf (p : ShProg) (man : Nat) : List Seen := p.lines.filter fun x => x.name != 0 && x.man == man

include ho hp

theorem shCompare_eq : s.shCompare op man =
    if (seenOf p man).any fun x => decide (p.lowest man + 1 < x.ver) then s.shRestart op man p
    else if (seenOf p man).any fun x => x.source && x.ver == p.lowest man + 1 && x.got.isNone then s
    else ((s.shGroup op p man).foldl (fun s x => s.shDeliver x.1 x.2.1 (x.2.2.got.getD x.2.2.data)) s).modSh op fun p' =>
      { p' with delivered := KMap.put p'.delivered man (p.lowest man) } := by
  simp only [State.shCompare, ho, Option.bind_some, hp]
  rfl

theorem shCompare_newer (h : ∃ x ∈ seenOf p man, p.lowest man + 1 < x.ver) : s.shCompare op man = s.shRestart op man p := by
  rw [shCompare_eq ho hp, if_pos (by simpa using h)]

variable (hold : ∀ x ∈ seenOf p man, x.ver ≤ p.lowest man + 1)
include hold

theorem shCompare_waits (h : ∃ x ∈ seenOf p man, x.source = true ∧ x.ver = p.lowest man + 1 ∧ x.got = none) : s.shCompare op man = s := by
  rw [shCompare_eq ho hp, if_neg (by simpa using hold), if_pos (by simpa [and_assoc] using h)]

theorem shCompare_delivers (h : ∀ x ∈ seenOf p man, x.source = true → x.ver = p.lowest man + 1 → x.got ≠ none) : s.shCompare op man =
    ((s.shGroup op p man).foldl (fun s e => s.shDeliver e.1 e.2.1 (e.2.2.got.getD e.2.2.data)) s).modSh op fun p' =>
      { p' with delivered := KMap.put p'.delivered man (p.lowest man) } := by
  rw [shCompare_eq ho hp, if_neg (by simpa using hold), if_neg (by simpa using h)]

end Compare

/-- R164: delivered data ends the request of its source line as a response does that has landed. -/
theorem shDeliver_read {s : State} {q : Nat} {r : Req} {ps : List (Nat × Nat)} (hk : r.kind = .read ps) (bs : List Byte) :
    s.shDeliver q r bs = (s.setStage q .done).modOp r.op fun o => taken o ps bs := by
  simp only [State.shDeliver, hk, bytes_of_response]
  rfl

theorem shDeliver_delivers {s : State} {q : Nat} {r : Req} {o : EngOp} {ps : List (Nat × Nat)} {bs : List Byte} (hk : r.kind = .read ps)
    (ho : KMap.get s.ops r.op = some o) (hm : Mem.wf o.buf = true) : ∃ o1, KMap.get (s.shDeliver q r bs).ops r.op = some o1 ∧
      o1 = { o with buf := o1.buf, have_ := o.have_ ++ ps.map Prod.snd } ∧
      s.shDeliver q r bs = { s.modReq q (fun r => { r with stage := .done, deferred := false }) with ops := (s.shDeliver q r bs).ops } ∧
      ∀ j, Mem.get o1.buf j = ((ps.reverse.find? fun p => p.2 == j).map fun p => bs.getD p.1 0).getD (Mem.get o.buf j) := by
  rw [shDeliver_read hk]
  have hget : KMap.get ((s.setStage q .done).modOp r.op fun o => taken o ps bs).ops r.op = some (taken o ps bs) := by
    rw [State.modOp, KMap.get_adjust_same]
    exact congrArg (Option.map fun o => taken o ps bs) ho
  exact ⟨taken o ps bs, hget, rfl, rfl, get_taken_buf hm ps bs⟩

end Sys2Proof.Ordering
end

section
/-!
PROOFS. SDFREE: the sidecars of a name's members and of its directory line, and the line itself, become zero (R157); and O41.
-/

namespace Sys2Proof.Ordering

open Sys2Proof Sys2Proof.Machine Sys2Proof.Claims Sys2Proof.AddressSpaces

/-! ### Zeros in memory -/

theorem leBytes_zero (n : Nat) : leBytes 0 n = List.replicate n 0 := by
  induction n with
  | zero => rfl
  | succ n ih => rw [leBytes, Nat.zero_div, ih]; rfl

theorem leVal_zeros {bs : List Byte} (h : ∀ b ∈ bs, b = 0) : leVal bs = 0 := by
  induction bs with
  | nil => rfl
  | cons b bs ih =>
    obtain ⟨rfl, hrest⟩ := List.forall_mem_cons.1 h
    rw [leVal, ih hrest]
    rfl

theorem get_write_zeros {m : Mem} (hm : Mem.wf m = true) (a n x : Nat) :
    Mem.get (Mem.write m a (List.replicate n 0)) x = if a ≤ x ∧ x < a + n then 0 else Mem.get m x := by
  induction n generalizing m a with
  | zero => rw [if_neg (by omega)]; rfl
  | succ n ih =>
    have hstep : Mem.write m a (List.replicate (n + 1) 0) = Mem.write (Mem.set m a 0) (a + 1) (List.replicate n 0) := rfl
    rw [hstep, ih (Mem.wf_set m a 0 hm), Mem.get_set m a x 0 hm]
    by_cases hx : x = a
    · rw [if_pos hx, ite_self, if_pos (by omega)]
    · rw [if_neg hx]
      exact if_congr (by omega) rfl rfl

/-- State `t` is `s` with zeros for some of the bytes that `Z` names: the rest of the memory, and of the machine but tags, stays. -/
structure Zeroes (Z : Nat → Prop) (s t : State) : Prop where
  only : t = { s with mem := t.mem, tags := t.tags, tier := t.tier }
  wf : Mem.wf t.mem = true
  zero : ∀ x, Mem.get s.mem x = 0 → Mem.get t.mem x = 0
  outside : ∀ x, ¬ Z x → Mem.get t.mem x = Mem.get s.mem x

section

variable {Z : Nat → Prop} {s t u : State}

theorem Zeroes.refl (hm : Mem.wf s.mem = true) : Zeroes Z s s := ⟨rfl, hm, fun _ h => h, fun _ _ => rfl⟩

theorem Zeroes.trans (hst : Zeroes Z s t) (htu : Zeroes Z t u) : Zeroes Z s u where
  only := htu.only.trans (by rw [hst.only])
  wf := htu.wf
  zero := fun x h => htu.zero x (hst.zero x h)
  outside := fun x h => (htu.outside x h).trans (hst.outside x h)

theorem Zeroes.mono {Y : Nat → Prop} (h : Zeroes Y s t) (hY : ∀ x, Y x → Z x) : Zeroes Z s t :=
  ⟨h.only, h.wf, h.zero, fun x hx => h.outside x (mt (hY x) hx)⟩

theorem Zeroes.sidecarAt (h : Zeroes Z s t) (a : Nat) : t.sidecarAt a = s.sidecarAt a := by rw [h.only]; rfl

theorem Zeroes.inSheafRegion (h : Zeroes Z s t) (a : Nat) : t.inSheafRegion a = s.inSheafRegion a := by rw [h.only]; rfl

theorem Zeroes.tagOf (h : Zeroes Z s t) (dev o : Nat) : t.tagOf dev o = s.tagOf dev o := by rw [h.only]; rfl

theorem Zeroes.bounds (h : Zeroes Z s t) : t.shlo = s.shlo ∧ t.shhi = s.shhi := by rw [h.only]; exact ⟨rfl, rfl⟩

end

/-! ### Sidecars (R156) -/

/-- The byte address lies in the sidecar of the line of `a`. -/
def InSidecar (s : State) (a x : Nat) : Prop := s.sidecarAt a ≤ x ∧ x < s.sidecarAt a + 32

/-- The sidecar of the line of `a` is zero. -/
def SidecarZero (s : State) (a : Nat) : Prop := ∀ x, InSidecar s a x → Mem.get s.mem x = 0

theorem SidecarZero.sidecar {s : State} {a w : Nat} (h : SidecarZero s a) (hw : w < 4) : s.sidecar a w = 0 := by
  refine leVal_zeros fun b hb => ?_
  obtain ⟨i, hi, rfl⟩ := List.mem_map.1 hb
  have hi8 : i < 8 := List.mem_range.1 hi
  exact h _ ⟨by omega, by omega⟩

theorem Zeroes.inSidecar {Z : Nat → Prop} {s t : State} {a x : Nat} (h : Zeroes Z s t) : InSidecar t a x ↔ InSidecar s a x := by
  rw [InSidecar, h.sidecarAt, InSidecar]

theorem SidecarZero.of_zeroes {Z : Nat → Prop} {s t : State} {a : Nat} (h : SidecarZero s a) (hst : Zeroes Z s t) : SidecarZero t a :=
  fun x hx => hst.zero x (h x (hst.inSidecar.1 hx))

/-- The first `n` words of a sidecar are cleared. -/
def clearWords (s : State) (a n : Nat) : State := (List.range n).foldl (fun s w => s.putSidecar a w 0) s

theorem clearWords_succ (s : State) (a n : Nat) : clearWords s a (n + 1) = (clearWords s a n).putSidecar a n 0 := by
  rw [clearWords, List.range_succ, List.foldl_append]
  rfl

theorem clearWords_only (s : State) (a n : Nat) : clearWords s a n = { s with mem := (clearWords s a n).mem } := by
  induction n with
  | zero => rfl
  | succ n ih => rw [clearWords_succ, ih]; rfl

theorem clearWords_mem (s : State) (a n : Nat) :
    (clearWords s a (n + 1)).mem = Mem.write (clearWords s a n).mem (s.sidecarAt a + 8 * n) (List.replicate 8 0) := by
  have hat : (clearWords s a n).sidecarAt a = s.sidecarAt a := by rw [clearWords_only]; rfl
  rw [clearWords_succ, State.putSidecar, hat, Mem.writeVal, leBytes_zero]

theorem clearWords_get {s : State} (hm : Mem.wf s.mem = true) (a n : Nat) : Mem.wf (clearWords s a n).mem = true ∧
    ∀ x, Mem.get (clearWords s a n).mem x = if s.sidecarAt a ≤ x ∧ x < s.sidecarAt a + 8 * n then 0 else Mem.get s.mem x := by
  induction n with
  | zero => exact ⟨hm, fun x => by rw [if_neg (by omega)]; rfl⟩
  | succ n ih =>
    obtain ⟨hwf, hget⟩ := ih
    rw [clearWords_mem]
    refine ⟨Mem.wf_write _ _ _ hwf, fun x => ?_⟩
    rw [get_write_zeros hwf, hget x]
    by_cases hx : s.sidecarAt a + 8 * n ≤ x ∧ x < s.sidecarAt a + 8 * n + 8
    · rw [if_pos hx, if_pos (by omega)]
    · rw [if_neg hx]
      exact if_congr (by omega) rfl rfl

theorem clearSidecar_zeroes {s : State} (hm : Mem.wf s.mem = true) (a : Nat) :
    Zeroes (InSidecar s a) s (s.clearSidecar a) ∧ SidecarZero (s.clearSidecar a) a := by
  obtain ⟨hwf, hget⟩ := clearWords_get hm a 4
  have heq : s.clearSidecar a = clearWords s a 4 := rfl
  have hzeroes : Zeroes (InSidecar s a) s (clearWords s a 4) :=
    ⟨(clearWords_only s a 4).trans (by rw [clearWords_only]), hwf, fun x hx => by rw [hget, hx, ite_self], fun x hx => (hget x).trans (if_neg hx)⟩
  rw [heq]
  exact ⟨hzeroes, fun x hx => (hget x).trans (if_pos (hzeroes.inSidecar.1 hx))⟩

/-- R157: the sidecars of several lines are cleared. -/
theorem clearSidecars_zeroes {Z : Nat → Prop} {s : State} (hm : Mem.wf s.mem = true) (as : List Nat)
    (hZ : ∀ a ∈ as, ∀ x, InSidecar s a x → Z x) :
    Zeroes Z s (as.foldl State.clearSidecar s) ∧ ∀ a ∈ as, SidecarZero (as.foldl State.clearSidecar s) a := by
  induction as generalizing s with
  | nil => exact ⟨Zeroes.refl hm, fun a ha => absurd ha List.not_mem_nil⟩
  | cons b as ih =>
    obtain ⟨hone, hzero⟩ := clearSidecar_zeroes hm b
    obtain ⟨hrest, hzeros⟩ := ih hone.wf fun a ha x hx => hZ a (List.mem_cons_of_mem _ ha) x (hone.inSidecar.1 hx)
    rw [List.foldl_cons]
    exact ⟨(hone.mono (hZ b List.mem_cons_self)).trans hrest, List.forall_mem_cons.2 ⟨hzero.of_zeroes hrest, hzeros⟩⟩

/-! ### The directory line (R72, R155, R157) -/

section Line

variable {s : State} {line : Nat} (hm : Mem.wf s.mem = true) (hlo : s.shlo % 128 = 0) (hhi : s.shhi % 128 = 0)
  (hregion : s.inSheafRegion (line * 128) = true) (hside : SidecarZero s (line * 128))

include hlo hhi hside in
/-- R156: a line whose sidecar is zero stands in its own slot. -/
theorem slotAddr_of_sidecarZero {i : Nat} (hi : i < 128) : s.slotAddr true (line * 128 + i) = line * 128 + i := by
  have hcur : s.curIsOther (line * 128) = false := by
    rw [State.curIsOther, hside.sidecar (by omega), Nat.zero_testBit, Bool.and_false]
  rw [slotAddr_line hlo hhi line hi, State.slotAddr, hcur, if_neg Bool.false_ne_true]

/-- The bytes of a line. -/
def InLine (line x : Nat) : Prop := line * 128 ≤ x ∧ x < line * 128 + 128

include hregion in
theorem memGet_foreign {i o : Nat} (hi : i < 128) (htag : s.lineTag line ≠ s.tagOf (devOf (line * 128)) o) : s.memGet o (line * 128 + i) = 0 := by
  have hdiv : (line * 128 + i) / 128 = line := by omega
  have hnear : isSecondTier (localOf (line * 128)) = false := by
    by_contra h
    have hfar : s.inSheafRegion (line * 128) = false := by
      rw [State.inSheafRegion, isHbm_of_secondTier (by simpa using h), Bool.false_and, Bool.false_and]
    exact Bool.noConfusion (hfar.symm.trans hregion)
  rw [State.memGet, hdiv, devOf_line line hi, if_neg htag, isSecondTier_line line hi, hnear, if_neg Bool.false_ne_true]

include hm hlo hhi hregion hside

/-- R72: a zero written to a byte of the line: other bytes of the line stay, or become zero with the line's owner. -/
theorem memPut_zero {i o : Nat} (hi : i < 128) : Zeroes (InLine line) s (s.memPut o line [(line * 128 + i, 0)]) ∧
    Mem.get (s.memPut o line [(line * 128 + i, 0)]).mem (line * 128 + i) = 0 := by
  obtain ⟨hin, hout⟩ := memPut_line (bs := [(i, 0)]) hm hlo hhi o line (by simpa using hi)
  simp only [List.map_cons, List.map_nil, List.reverse_singleton] at hin hout
  have houtside : ∀ x, ¬ InLine line x → Mem.get (s.memPut o line [(line * 128 + i, 0)]).mem x = Mem.get s.mem x := fun x hx =>
    hout x fun j hj hxj => hx (by rw [slotAddr_of_sidecarZero hlo hhi hside hj] at hxj; rw [InLine]; omega)
  refine ⟨⟨memPut_only s o line _, ?_, fun x hx => ?_, houtside⟩, ?_⟩
  · rw [memPut_mem]
    exact Mem.wf_writeAt _ _ (takenLine_wf hm o line)
  · by_cases hxl : InLine line x
    · obtain ⟨j, rfl⟩ := Nat.exists_eq_add_of_le hxl.1
      have hj : j < 128 := by have := hxl.2; omega
      have hread : s.memGet o (line * 128 + j) = 0 := by
        by_cases htag : s.lineTag line = s.tagOf (devOf (line * 128)) o
        · have hdiv : (line * 128 + j) / 128 = line := by omega
          rw [State.memGet, hdiv, devOf_line line hj, if_pos htag, slotAddr_of_sidecarZero hlo hhi hside hj, hx]
        · exact memGet_foreign hregion hj htag
      rw [← slotAddr_of_sidecarZero hlo hhi hside hj, hin j hj, hread]
      by_cases hij : i = j <;> simp [hij]
    · rw [houtside x hxl, hx]
  · have hbyte := hin i hi
    rw [slotAddr_of_sidecarZero hlo hhi hside hi] at hbyte
    simpa using hbyte

/-- R157: zeros written to the bytes of the line at offsets `is`: they are zero, and the line has its owner's tag. -/
theorem memPuts_zero (o : Nat) (is : List Nat) (his : ∀ i ∈ is, i < 128) :
    (let t := is.foldl (fun s i => s.memPut o line [(line * 128 + i, 0)]) s
     Zeroes (InLine line) s t ∧ (∀ i ∈ is, Mem.get t.mem (line * 128 + i) = 0) ∧
      (is ≠ [] → t.lineTag line = s.tagOf (devOf (line * 128)) o)) := by
  induction is using List.reverseRecOn with
  | nil => exact ⟨Zeroes.refl hm, fun i hi => absurd hi List.not_mem_nil, fun h => absurd rfl h⟩
  | append_singleton is i ih =>
    obtain ⟨hbefore, hzeros, -⟩ := ih fun j hj => his j (List.mem_append_left _ hj)
    rw [List.foldl_append, List.foldl_cons, List.foldl_nil]
    generalize is.foldl (fun s i => s.memPut o line [(line * 128 + i, 0)]) s = u at hbefore hzeros ⊢
    obtain ⟨hshlo, hshhi⟩ := hbefore.bounds
    obtain ⟨hput, hzero⟩ := memPut_zero (o := o) hbefore.wf (hshlo ▸ hlo) (hshhi ▸ hhi) ((hbefore.inSheafRegion _).trans hregion)
      (hside.of_zeroes hbefore) (his i (List.mem_append_right _ List.mem_cons_self))
    refine ⟨hbefore.trans hput, fun j hj => ?_, fun _ => (memPut_lineTag u o line _).trans (hbefore.tagOf _ o)⟩
    rcases List.mem_append.1 hj with hj | hj
    · exact hput.zero _ (hzeros j hj)
    · rw [List.mem_singleton.1 hj]
      exact hzero

end Line

/-- A line's write, byte by byte. -/
theorem memWrite_line (s : State) (o line : Nat) (bs : List Byte) (hbs : bs.length ≤ 128) : s.memWrite o (line * 128) bs =
    (List.range bs.length).foldl (fun s i => s.memPut o line [(line * 128 + i, bs.getD i 0)]) s := by
  rw [State.memWrite, State.memPutAll, List.foldl_map]
  refine List.foldl_ext _ _ _ fun t i hi => ?_
  have hdiv : (line * 128 + i) / 128 = line := by
    have := List.mem_range.1 hi
    omega
  rw [hdiv]

section Line

variable {s : State} {line o : Nat} (hm : Mem.wf s.mem = true) (hlo : s.shlo % 128 = 0) (hhi : s.shhi % 128 = 0)
  (hregion : s.inSheafRegion (line * 128) = true) (hside : SidecarZero s (line * 128))
include hm hlo hhi hregion hside

/-- R157: a line of zeros, written over a line whose sidecar is zero, reads as zeros, and what was zero stays so. -/
theorem memWrite_zeros : Zeroes (InLine line) s (s.memWrite o (line * 128) (List.replicate 128 0)) ∧
    (s.memWrite o (line * 128) (List.replicate 128 0)).memRead o (line * 128) 128 = List.replicate 128 0 := by
  have hfold : s.memWrite o (line * 128) (List.replicate 128 0) =
      (List.range 128).foldl (fun s i => s.memPut o line [(line * 128 + i, 0)]) s := by
    rw [memWrite_line s o line _ (by simp), List.length_replicate]
    exact List.foldl_ext _ _ _ fun t i hi => by rw [List.getD_replicate _ (List.mem_range.1 hi)]
  obtain ⟨hzeroes, hzero, htag⟩ := memPuts_zero hm hlo hhi hregion hside o (List.range 128) fun i hi => List.mem_range.1 hi
  rw [← hfold] at hzeroes hzero htag
  generalize s.memWrite o (line * 128) (List.replicate 128 0) = t at hzeroes hzero htag ⊢
  refine ⟨hzeroes, List.eq_replicate_iff.2 ⟨by rw [State.memRead, List.length_map, List.length_range], fun b hb => ?_⟩⟩
  obtain ⟨i, hi, rfl⟩ := List.mem_map.1 hb
  have hi128 : i < 128 := List.mem_range.1 hi
  have hdiv : (line * 128 + i) / 128 = line := by omega
  obtain ⟨hshlo, hshhi⟩ := hzeroes.bounds
  rw [State.memGet, hdiv, devOf_line line hi128, if_pos ((htag (by simp)).trans (hzeroes.tagOf _ o).symm),
    slotAddr_of_sidecarZero (hshlo ▸ hlo) (hshhi ▸ hhi) (hside.of_zeroes hzeroes) hi128, hzero i hi]

end Line

/-! ### SDFREE (R157) -/

section Sdfree

variable (s : State) (fn name : Nat)

/-- R157: the members that a name's manifest lists. -/
def memberLines : List Nat := (s.members fn (s.manifestOf fn name).1).map Prod.fst

theorem exec_sdfree : exec (.sdfree fn name) s = .next (
    if (s.func fn).sdsize = 0 ∨ name = 0 ∨ (s.manifestOf fn name).2.1 ≠ name ∨ s.nameBusy fn name = true then s
    else if (memberLines s fn name ++ [s.dirLine fn name]).any (fun a => s.hbmShut a || s.linkShut a) = true then
      s.holdStep ⟨.sdfree fn name, 0, []⟩
    else s.freeName fn name (memberLines s fn name)) := rfl

/-- R157: directory lines are lines. -/
theorem dirLine_aligned : ∃ line, s.dirLine fn name = line * 128 := by
  have hdvd : 128 ∣ s.dirLine fn name := by
    simp only [State.dirLine, State.dpaOf, State.keyIn]
    generalize name % 2 ^ (s.func fn).sdsize = j
    split <;> omega
  obtain ⟨line, hline⟩ := hdvd
  exact ⟨line, hline.trans (Nat.mul_comm _ _)⟩

/-- R157: in the sheaf region a directory line's sidecar is cleared as a member's is. -/
theorem freeName_inRegion (ls : List Nat) (h : s.inSheafRegion (s.dirLine fn name) = true) : s.freeName fn name ls =
    (((ls ++ [s.dirLine fn name]).foldl State.clearSidecar s).memWrite (s.func fn).owner (s.dirLine fn name) (List.replicate 128 0)).touchLines
      ((ls ++ [s.dirLine fn name]).map fun a => (a, 0)) := by
  rw [State.freeName, List.foldl_append, List.foldl_cons, List.foldl_nil, if_pos h]

/-- R157: a name without members, whose directory line has no sidecar. -/
theorem freeName_noMembers (h : s.inSheafRegion (s.dirLine fn name) = false) : s.freeName fn name [] =
    (s.memWrite (s.func fn).owner (s.dirLine fn name) (List.replicate 128 0)).touchLines [(s.dirLine fn name, 0)] := by
  rw [State.freeName, h, if_neg Bool.false_ne_true, List.foldl_nil, List.nil_append, List.map_singleton]

/-- What lies in the sidecar of one of some lines, or in the directory line. -/
def Freed (as : List Nat) (x : Nat) : Prop :=
  (∃ a ∈ as, InSidecar s a x) ∨ (s.dirLine fn name ≤ x ∧ x < s.dirLine fn name + 128)

variable {s fn name}

theorem onlyRefutes_sidecar {t : State} (h : OnlyRefutes s t) (a w : Nat) : t.sidecar a w = s.sidecar a w := by rw [h]; rfl

theorem onlyRefutes_memRead {t : State} (h : OnlyRefutes s t) (o a n : Nat) : t.memRead o a n = s.memRead o a n := by rw [h]; rfl

theorem onlyRefutes_mem {t : State} (h : OnlyRefutes s t) : t.mem = s.mem := by rw [h]

/-- R157: what freeing a name leaves of the memory. -/
theorem freeName_frees {ls : List Nat} (hm : Mem.wf s.mem = true) (hregion : s.inSheafRegion (s.dirLine fn name) = true)
    (hlo : s.shlo % 128 = 0) (hhi : s.shhi % 128 = 0) :
    (let as := ls ++ [s.dirLine fn name]
     let t := s.freeName fn name ls
     (∀ a ∈ as, ∀ w < 4, t.sidecar a w = 0) ∧ t.memRead (s.func fn).owner (s.dirLine fn name) 128 = List.replicate 128 0 ∧
      ∀ x, ¬ Freed s fn name as x → Mem.get t.mem x = Mem.get s.mem x) := by
  intro as t
  obtain ⟨line, hline⟩ := dirLine_aligned s fn name
  obtain ⟨hclear, hsides⟩ := clearSidecars_zeroes (Z := Freed s fn name as) hm as fun a ha x hx => .inl ⟨a, ha, hx⟩
  have hside := hsides _ (List.mem_append_right ls List.mem_cons_self)
  obtain ⟨hshlo, hshhi⟩ := hclear.bounds
  obtain ⟨hwrite, hread⟩ := memWrite_zeros (line := line) (o := (s.func fn).owner) hclear.wf (hshlo ▸ hlo) (hshhi ▸ hhi)
    ((hclear.inSheafRegion _).trans (hline ▸ hregion)) (hline ▸ hside)
  rw [← hline] at hwrite hread
  have htouch : OnlyRefutes _ t := freeName_inRegion s fn name ls hregion ▸ touchLines_onlyRefutes _ _
  have hall : Zeroes (Freed s fn name as) s _ := hclear.trans (hwrite.mono fun x hx => .inr (by rwa [hline]))
  refine ⟨fun a ha w hw => ?_, (onlyRefutes_memRead htouch _ _ _).trans hread, fun x hx => ?_⟩
  · rw [onlyRefutes_sidecar htouch]
    exact ((hsides a ha).of_zeroes hwrite).sidecar hw
  · rw [onlyRefutes_mem htouch, hall.outside x hx]

theorem exec_sdfree_stays (h : (s.func fn).sdsize = 0 ∨ name = 0 ∨ (s.manifestOf fn name).2.1 ≠ name ∨ s.nameBusy fn name = true) :
    exec (.sdfree fn name) s = .next s := by
  rw [exec_sdfree, if_pos h]

variable (hsize : (s.func fn).sdsize ≠ 0) (hname : name ≠ 0) (hheld : (s.manifestOf fn name).2.1 = name) (hbusy : s.nameBusy fn name = false)
include hsize hname hheld hbusy

theorem exec_sdfree_waits (h : ∃ a ∈ memberLines s fn name ++ [s.dirLine fn name], s.hbmShut a = true ∨ s.linkShut a = true) :
    exec (.sdfree fn name) s = .next (s.holdStep ⟨.sdfree fn name, 0, []⟩) := by
  rw [exec_sdfree, if_neg (by simp [hsize, hname, hheld, hbusy]), if_pos (by rw [List.any_eq_true]; simpa only [Bool.or_eq_true] using h)]

theorem exec_sdfree_frees (h : ∀ a ∈ memberLines s fn name ++ [s.dirLine fn name], s.hbmShut a = false ∧ s.linkShut a = false) :
    exec (.sdfree fn name) s = .next (s.freeName fn name (memberLines s fn name)) := by
  have hopen : ((memberLines s fn name ++ [s.dirLine fn name]).any fun a => s.hbmShut a || s.linkShut a) = false :=
    List.any_eq_false.2 fun a ha => by simp [h a ha]
  rw [exec_sdfree, if_neg (by simp [hsize, hname, hheld, hbusy]), if_neg (by simp only [hopen, Bool.false_eq_true, not_false_eq_true])]

end Sdfree

/-- Settles O41, step by step: each is its definition where it is enabled; SDFREE by following zeros through the sidecars and the directory
line, and a delivery as the landing of a read. -/
theorem sheafAndShreadSteps : Obligations.SheafAndShreadSteps := by
  unfold Obligations.SheafAndShreadSteps
  refine ⟨⟨?swrite, ?manifestWrite, ?sealAtHome, ?abortAtHome, ?sdfree⟩, ?look, ?list, ?fetch, ?compare, ?deliver⟩
  case swrite =>
    intro s q r o a i e hs hh he hregion hname
    have hadmitted : ¬(bitsOf (s.sidecar a 0) 31 0 ≠ 0 ∧ bitsOf (s.sidecar a 0) 31 0 ≠ e.name) := fun ⟨h0, hne⟩ => hname.elim h0 hne
    exact ⟨fun bs hk => exec_swrite_store hs hh he hregion hadmitted hk, fun ps hk => exec_swrite_write hs hh he hregion hadmitted hk⟩
  case manifestWrite => exact fun s x e hx hc ha hsent hw hcl hb => exec_sealManifestWrite hx hc ha hsent hw hcl hb
  case sealAtHome => exact fun s x e home hx hsent ha hhome hshut => exec_seal hx hsent ha hhome hshut
  case abortAtHome => exact fun s x e0 home hx => exec_abort hx
  case sdfree =>
    refine fun s fn name => ⟨exec_sdfree_stays, fun hsize hname hheld hbusy =>
      ⟨exec_sdfree_waits hsize hname hheld hbusy, fun hopen => ⟨fun hnone hout => ?_, fun hm hin hlo hhi => ?_⟩⟩⟩
    · rw [exec_sdfree_frees hsize hname hheld hbusy hopen, memberLines, hnone, freeName_noMembers s fn name hout]
    · obtain ⟨hsides, hread, hkept⟩ := freeName_frees (ls := memberLines s fn name) hm.1 hin hlo hhi
      refine ⟨_, exec_sdfree_frees hsize hname hheld hbusy hopen, fun a ha _ => hsides a ha, hread, fun x hmembers hline => hkept x ?_⟩
      rintro (⟨a, ha, hlow, hhigh⟩ | ⟨hlow, hhigh⟩)
      · have := hmembers a ha
        omega
      · omega
  case look =>
    exact fun s op o line q r p a ho hq hp hnew hl hshut hpeer hchaff => exec_shreadLook ho hq hp hnew hl hshut hpeer hchaff
  case list =>
    refine fun s op line o p man ho hp hlooked hasked hshut hpeer hman =>
      ⟨exec_shreadList_refused ho hp hlooked hasked hshut hpeer hman, fun hr htag => ?_⟩
    rw [exec_shreadList_lists ho hp hlooked hasked hshut hpeer hman hr htag, State.listLine, opRead_untagged htag]
  case fetch =>
    intro s op line o q r p x a ho hq hp hl hx hopen hlisted hlooked hgot hasked hshut hpeer
    exact ⟨exec_shreadFetch_other ho hq hp hl hx,
      exec_shreadFetch_restarts ho hq hp hl hx hopen hlisted hlooked hgot hasked hshut hpeer,
      exec_shreadFetch_refused ho hq hp hl hx hopen hlisted hlooked hgot hasked hshut hpeer,
      exec_shreadFetch_keeps ho hq hp hl hx hopen hlisted hlooked hgot hasked hshut hpeer⟩
  case compare =>
    exact fun s op man o p ho hp => ⟨shCompare_newer ho hp, shCompare_waits ho hp, shCompare_delivers ho hp⟩
  case deliver => exact fun s q r o ps bs hk ho hm => shDeliver_delivers hk ho hm

end Sys2Proof.Ordering
end

section
/-!
PROOFS. Local atomics at their issue (R143 to R146).
-/

namespace Sys2Proof.Atomics

open Sys2Proof Sys2Proof.Machine Sys2Proof.Claims Sys2Proof.MemoryHierarchy

/-! ### Local atomics -/

/-- The checks of a local atomic, in the order of R35. -/
def atlChks (opc : Nat) (d addr x : Opnd) (k : Iss) : List Chk :=
  [typeChk (atomTy opc k.ty), quillChk k (uniform d [addr, x]), dstChk k 1 d (wide k.ty), pairedChk 2 d addr, srcChk k 2 addr false false,
    pairedChk 3 d x, atlChk k (opc == 7) x]

/-- R143: the threads that perform. -/
def atlThreads (d addr x : Opnd) (k : Iss) : List Nat :=
  if uniform d [addr, x] then (if k.g.quill || k.run != 0 then [0] else []) else threadsOf k.run

/-- R145: the threads whose element crosses 32 bytes. -/
def atlCrossing (d addr x : Opnd) (k : Iss) : List Nat :=
  (atlThreads d addr x k).filter fun th => decide (32 < k.src .n32 addr th % 32 + elemBytes k.ty)

/-- R143, R146: the threads' pieces, each with what its operation takes. -/
def atlPieces (s : State) (opc : Nat) (d addr x : Opnd) (k : Iss) : List LPiece :=
  (atlThreads d addr x k).flatMap fun th => (s.piecesOf k th 0 (k.src .n32 addr th) (elemBytes k.ty)).map fun p =>
    { p with x := k.src k.ty x th, y := if opc = 7 then k.src k.ty (elemOpnd k.ty x 1) th else 0 }

/-- R121: the pieces of operation `l` enter the FIFO of their context. -/
def enterAtl (l n : Nat) (g : Group) : Group := { g with fifo := g.fifo ++ (List.range n).map fun j => ⟨l, .atl l j⟩ }

section Atl

variable {s : State} {k : Iss} {opc : Nat} {d addr x : Opnd} (hi : s.Issues k (atlChks opc d addr x k))
include hi

/-- R143: no atomic is performed in the spill stack. -/
theorem atlOp_spillStack (hspace : k.space = 3) (hts : atlThreads d addr x k ≠ []) :
    s.atlOp opc d addr x = .next (s.trapOn k 4 4 (k.blameRun (uniform d [addr, x]) (atlThreads d addr x k))) :=
  (State.insn_pass hi _).trans (congrArg Host.Outcome.next (if_pos ⟨hspace, hts⟩))

variable (hspace : k.space ≠ 3)
include hspace

theorem atlOp_crosses (hcross : atlCrossing d addr x k ≠ []) :
    s.atlOp opc d addr x = .next (s.trapOn k 4 3 (k.blameRun (uniform d [addr, x]) (atlCrossing d addr x k))) :=
  (State.insn_pass hi _).trans (congrArg Host.Outcome.next ((if_neg fun h => hspace h.1).trans (if_pos hcross)))

variable (hcross : atlCrossing d addr x k = [])
include hcross

theorem atlOp_outOfBounds (hbad : s.outOfBounds k (atlThreads d addr x k) (k.src .n32 addr) (elemBytes k.ty) ≠ []) :
    s.atlOp opc d addr x = .next (s.trapOn k 4 1 (k.blameRun (uniform d [addr, x])
      (s.outOfBounds k (atlThreads d addr x k) (k.src .n32 addr) (elemBytes k.ty)))) :=
  (State.insn_pass hi _).trans (congrArg Host.Outcome.next
    ((if_neg fun h => hspace h.1).trans ((if_neg (not_not_intro hcross)).trans (if_pos hbad))))

/-- R143: an atomic in bounds comes under way, and its pieces enter the FIFO. -/
theorem atlOp_enters (hbad : s.outOfBounds k (atlThreads d addr x k) (k.src .n32 addr) (elemBytes k.ty) = [])
    (hs : s.speculative k.g = false) : s.atlOp opc d addr x = .next
      ((s.addLong k (.atomic d k.ty opc (atlPieces s opc d addr x k))).modGroup k.gid
        (enterAtl k.g.nextSeq (atlPieces s opc d addr x k).length)) :=
  (State.insn_pass hi _).trans (congrArg Host.Outcome.next
    ((if_neg fun h => hspace h.1).trans ((if_neg (not_not_intro hcross)).trans ((if_neg (not_not_intro hbad)).trans
      (if_neg (by simp [hs]))))))

end Atl

theorem exec_atl : ∀ e ∈ ([(.atladd, 0), (.atlmin, 1), (.atlmax, 2), (.atland, 3), (.atlor, 4), (.atlxor, 5), (.atlxch, 6), (.atlcas, 7)] :
    List ((Opnd → Opnd → Opnd → Instr) × Nat)), ∀ d addr x s, exec (e.1 d addr x) s = s.atlOp e.2 d addr x := by
  simp only [List.forall_mem_cons, List.not_mem_nil, false_implies, implies_true, and_true]
  exact ⟨fun _ _ _ _ => rfl, fun _ _ _ _ => rfl, fun _ _ _ _ => rfl, fun _ _ _ _ => rfl, fun _ _ _ _ => rfl, fun _ _ _ _ => rfl,
    fun _ _ _ _ => rfl, fun _ _ _ _ => rfl⟩

/-- Settles O18: one local atomic for every operation code, its faults in the order of log 92. -/
theorem localAtomicsIssue : Obligations.LocalAtomicsIssue := by
  unfold Obligations.LocalAtomicsIssue
  intro e he d addr x s k hi
  rw [exec_atl e he]
  exact ⟨fun hspace hts => atlOp_spillStack hi hspace hts, fun hspace hcross => atlOp_crosses hi hspace hcross,
    fun hspace hcross hbad => atlOp_outOfBounds hi hspace hcross hbad,
    fun hspace hcross hbad hs => ⟨_, _, addLong_flies hi.1 _, atlOp_enters hi hspace hcross hbad hs, rfl⟩⟩

end Sys2Proof.Atomics
end

section
/-!
PROOFS. The sheaf instructions SHOPEN, SHVER, SHSEAL and SHABORT at their issue (R158 to R165).
-/

namespace Sys2Proof.Atomics

open Sys2Proof Sys2Proof.Machine Sys2Proof.Claims Sys2Proof.MemoryHierarchy Sys2Proof.Ordering

/-! ### The instructions -/

/-- The checks of SHOPEN and SHVER, in the order of R35. -/
def nameChks (n : Nat) (name : Opnd) (u : Byte) (k : Iss) : List Chk := [quillOpnds k [.sca n, name], scaChk 1 (.sca n), nameChk 2 name, zeroChk 3 u]

/-- The checks of SHSEAL and SHABORT, in the order of R35. -/
def handleChks (h : Opnd) (u : BitVec 16) (k : Iss) : List Chk := [quillOpnds k [h], scaChk 1 h] ++ zero16 u

section Named

variable {s : State} {k : Iss} {n : Nat} {name : Opnd} {u : Byte} (hi : s.Issues k (nameChks n name u k)) (hclosed : s.closed = false)
include hi hclosed

theorem exec_shopen_refused (hs : s.speculative k.g = false) {d : Nat} (h : s.shopen k.g (k.uni32 name) = .error d) :
    exec (.shopen (.sca n) name u) s = .next (s.trap k 9 d) := by
  refine (State.insn_pass hi _).trans (congrArg Host.Outcome.next ((if_neg (by simp [hs])).trans ((if_neg (by simp [hclosed])).trans ?_)))
  rw [h]

theorem exec_shopen_opens (hs : s.speculative k.g = false) {s1 : State} {h : DWord} (hok : s.shopen k.g (k.uni32 name) = .ok (s1, h)) :
    exec (.shopen (.sca n) name u) s = .next (s1.heldResult k (.sca n) h) := by
  refine (State.insn_pass hi _).trans (congrArg Host.Outcome.next ((if_neg (by simp [hs])).trans ((if_neg (by simp [hclosed])).trans ?_)))
  rw [hok]

theorem exec_shver_noDirectory (hsize : (s.func (s.fnOf k.g)).sdsize = 0) : exec (.shver (.sca n) name u) s = .next (s.trap k 9 9) :=
  (State.insn_pass hi _).trans (congrArg Host.Outcome.next ((if_neg (by simp [hclosed])).trans (if_pos hsize)))

/-- R318: outside a prediction SHVER watches no line. -/
theorem exec_shver (hsize : (s.func (s.fnOf k.g)).sdsize ≠ 0) (hs : s.speculative k.g = false) :
    exec (.shver (.sca n) name u) s = .next (s.heldResult k (.sca n) (s.shver k.g (k.uni32 name))) := by
  refine (State.insn_pass hi _).trans (congrArg Host.Outcome.next ((if_neg (by simp [hclosed])).trans ((if_neg hsize).trans ?_)))
  rw [watch_unpredicted _ hs]

end Named

/-- R160, R165: the result is under way, and the gang waits for it. -/
theorem heldResult_flies {s : State} {k : Iss} (h : s.issuer = some k) (n : Nat) (v : DWord) : ∃ u, Flies s k (.result [.sca n v]) u ∧
    s.heldResult k (.sca n) v = u.modGroup k.gid fun g => g.modGang k.gang.id fun x => { x with hold := .result k.g.nextSeq } :=
  ⟨_, addLong_flies h _, rfl⟩

/-- SHSEAL and SHABORT, each with the operation that it issues and whether it aborts. -/
def closers : List ((Opnd → BitVec 16 → Instr) × (Nat → OpKind) × Bool) := [(.shseal, .seal, false), (.shabort, .abort, true)]

/-- R162, R163: what a close of entry `x` leaves: its operation issued, the entry closing. -/
def closing (s : State) (k : Iss) (kind : OpKind) (aborting : Bool) (x : Nat) : State :=
  { s.issueOp k .atomic kind none with sheaves := KMap.adjust (s.issueOp k .atomic kind none).sheaves x fun y =>
      { y with open_ := false, closing := true, aborting := aborting, closer := some s.nextOp } }

section Close

variable {s : State} {k : Iss} {h : Opnd}

theorem exec_closer {u : BitVec 16} (hi : s.Issues k (handleChks h u k)) :
    ∀ e ∈ closers, exec (e.1 h u) s = .next (s.closeSheaf k h e.2.2) := by
  rw [closers, List.forall_mem_cons, List.forall_mem_singleton]
  exact ⟨State.insn_pass hi _, State.insn_pass hi _⟩

variable (hs : s.speculative k.g = false)
include hs

theorem closeSheaf_invalid (aborting : Bool) (hentry : s.handleEntry (s.fnOf k.g) (k.uni64 h) = none) :
    s.closeSheaf k h aborting = s.trap k 9 1 := by
  rw [State.closeSheaf, if_neg (by simp [hs]), hentry]

theorem closeSheaf_closes {x : Nat} (hentry : s.handleEntry (s.fnOf k.g) (k.uni64 h) = some x) (hready : s.canIssue k .atomic = true) :
    ∀ e ∈ closers, s.closeSheaf k h e.2.2 = closing s k (e.2.1 x) e.2.2 x := by
  have hclose (aborting : Bool) : s.closeSheaf k h aborting = closing s k (if aborting then .abort x else .seal x) aborting x := by
    rw [State.closeSheaf, if_neg (by simp [hs]), hentry]
    exact if_pos hready
  rw [closers, List.forall_mem_cons, List.forall_mem_singleton]
  exact ⟨hclose false, hclose true⟩

end Close

/-! ### Handles (R159) -/

/-- R159: the fields of a handle read as they were written. -/
theorem handleOf_fields {gen dev idx : Nat} (ser : Nat) (hgen : gen < 256) (hdev : dev < 4096) (hidx : idx < 4096) :
    (let n := (handleOf gen dev idx ser).toNat
     bitsOf n 63 56 = gen ∧ bitsOf n 55 44 = dev ∧ bitsOf n 43 32 = idx ∧ bitsOf n 31 0 = ser % 2 ^ 32) := by
  have hn : (handleOf gen dev idx ser).toNat = gen * 2 ^ 56 + dev * 2 ^ 44 + idx * 2 ^ 32 + ser % 2 ^ 32 := by
    rw [handleOf, BitVec.toNat_ofNat]
    omega
  simp only [hn, bitsOf_eq]
  omega

/-- R159: the handle of an open entry of its function names it. -/
theorem handleEntry_handleOf {s : State} {fn idx : Nat} {e : SheafEntry} (he : KMap.get s.sheaves idx = some e) (hopen : e.open_ = true)
    (hfn : e.fn = fn) (hser : e.serial < 2 ^ 32) (hidx : idx < 4096) (hdev : s.devnum < 4096) (hgen : (s.func fn).gen < 256) :
    s.handleEntry fn (handleOf (s.func fn).gen s.devnum idx e.serial) = some idx := by
  obtain ⟨hgenBits, hdevBits, hidxBits, hserBits⟩ := handleOf_fields e.serial hgen hdev hidx
  rw [Nat.mod_eq_of_lt hser] at hserBits
  rw [State.handleEntry, hidxBits]
  simp only [he]
  exact if_pos ⟨hopen, hserBits.symm, hgenBits, hfn, hdevBits⟩

/-! ### What SHOPEN leaves (R160) -/

theorem freeEntry_lt {s : State} {i : Nat} (h : s.freeEntry = some i) : i < 4096 := by
  unfold State.freeEntry at h
  exact List.mem_range.1 (List.mem_of_find?_eq_some h)

/-- R160: the function has a directory, and its line for the name is free or the name's own. -/
def MayOpen (s : State) (fn name : Nat) : Prop :=
  (s.func fn).sdsize ≠ 0 ∧ ¬(name = 0 ∨ ((s.manifestOf fn name).2.1 ≠ 0 ∧ (s.manifestOf fn name).2.1 ≠ name))

/-- R160: the entry of a sheaf just opened. -/
structure FreshSheaf (fn name : Nat) (e : SheafEntry) : Prop where
  isOpen : e.open_ = true
  fn_eq : e.fn = fn
  name_eq : e.name = name
  serial_lt : e.serial < 2 ^ 32
  noLines : e.lines = []
  noWrites : e.writes = []

/-- R160: SHOPEN that gives a handle has taken a free entry, and only that. -/
theorem shopen_ok {s t : State} {g : Group} {name : Nat} {h : DWord} (hopen : s.shopen g name = .ok (t, h)) :
    MayOpen s (s.fnOf g) name ∧ ∃ i e, s.freeEntry = some i ∧ FreshSheaf (s.fnOf g) name e ∧
      t = { s with sheaves := KMap.put s.sheaves i e } ∧ h = handleOf (s.func (s.fnOf g)).gen s.devnum i e.serial := by
  unfold State.shopen at hopen
  dsimp only at hopen
  split at hopen
  · cases hopen
  next hsize =>
  split at hopen
  · cases hopen
  next hname =>
  split at hopen
  · cases hopen
  split at hopen
  · cases hopen
  split at hopen
  · cases hopen
  next i hfree =>
  split at hopen
  · cases hopen
  cases hopen
  exact ⟨⟨hsize, hname⟩, i, _, hfree, ⟨rfl, rfl, rfl, Nat.mod_lt _ (by decide), rfl, rfl⟩, rfl, rfl⟩

/-- R160: a name that has an open entry is not opened again. -/
theorem shopen_busy {s : State} {g : Group} {name : Nat} (hmay : MayOpen s (s.fnOf g) name) (hbusy : s.nameBusy (s.fnOf g) name = true) :
    s.shopen g name = .error 3 :=
  (if_neg hmay.1).trans ((if_neg hmay.2).trans (if_pos hbusy))

/-- R160: a name is busy while an entry of it is open. -/
theorem nameBusy_of_open {s : State} {fn name i : Nat} {e : SheafEntry} (he : KMap.get s.sheaves i = some e) (hfresh : FreshSheaf fn name e) :
    s.nameBusy fn name = true := by
  rw [State.nameBusy, List.any_eq_true]
  exact ⟨(i, e), KMap.get_mem he, by simp [hfresh.fn_eq, hfresh.name_eq, hfresh.isOpen]⟩

/-- The sheaf table is no byte of memory. -/
theorem withSheaves_sameBytes (s : State) (m : KMap SheafEntry) : SameBytes s { s with sheaves := m } := fun o l => by
  cases l with
  | dpa a => rfl
  | place p off => cases p <;> rfl
  | host a => rfl

/-- The directory is read from memory, not from the sheaf table. -/
theorem manifestOf_withSheaves (s : State) (m : KMap SheafEntry) (fn name : Nat) :
    State.manifestOf { s with sheaves := m } fn name = s.manifestOf fn name := by
  have hread (o a n : Nat) : State.memRead { s with sheaves := m } o a n = s.memRead o a n := rfl
  rw [State.manifestOf, hread]
  rfl

theorem mayOpen_withSheaves {s : State} {fn name : Nat} (m : KMap SheafEntry) (h : MayOpen s fn name) :
    MayOpen { s with sheaves := m } fn name := by
  rw [MayOpen, manifestOf_withSheaves]
  exact h

/-- R159, R160: the handle that SHOPEN gives is valid, its sheaf has no member, and the name is open. -/
theorem shopen_opens {s t : State} {g : Group} {name : Nat} {h : DWord} (hopen : s.shopen g name = .ok (t, h)) (hdev : s.devnum < 4096)
    (hgen : (s.func (s.fnOf g)).gen < 256) :
    (∃ x e, t.handleEntry (t.fnOf g) h = some x ∧ KMap.get t.sheaves x = some e ∧ e.name = name ∧ e.lines = [] ∧ e.writes = []) ∧
      t.shopen g name = .error 3 ∧ SameBytes s t ∧ t = { s with sheaves := t.sheaves } := by
  obtain ⟨hmay, i, e, hfree, hfresh, rfl, rfl⟩ := shopen_ok hopen
  have he : KMap.get (KMap.put s.sheaves i e) i = some e := KMap.get_put_same _ _ _
  refine ⟨⟨i, e, ?valid, he, hfresh.name_eq, hfresh.noLines, hfresh.noWrites⟩, ?again, withSheaves_sameBytes s _, rfl⟩
  case valid => exact handleEntry_handleOf he hfresh.isOpen hfresh.fn_eq hfresh.serial_lt (freeEntry_lt hfree) hdev hgen
  case again => exact shopen_busy (mayOpen_withSheaves _ hmay) (nameBusy_of_open he hfresh)

/-- Settles O24: SHOPEN and SHVER give results that the gang waits for, SHSEAL and SHABORT issue the close; the sheaf that SHOPEN opens is
followed through the entry that it takes. -/
theorem sheafResults : Obligations.SheafResults := by
  unfold Obligations.SheafResults
  refine ⟨⟨?shopen, ?shver, ?close⟩, fun s g name t h hopen hdev hgen => shopen_opens hopen hdev hgen⟩
  case shopen =>
    intro n name u s k hi hs hclosed
    refine ⟨fun d herror => exec_shopen_refused hi hclosed hs herror, fun s1 h hok => ?_⟩
    obtain ⟨-, i, e, -, -, rfl, -⟩ := shopen_ok hok
    obtain ⟨u1, hflies, hheld⟩ := heldResult_flies (s := { s with sheaves := KMap.put s.sheaves i e }) hi.1 n h
    exact ⟨u1, hflies, (exec_shopen_opens hi hclosed hs hok).trans (congrArg Host.Outcome.next hheld)⟩
  case shver =>
    intro n name u s k hi hs hclosed
    refine ⟨fun hsize => exec_shver_noDirectory hi hclosed hsize, fun hsize => ?_⟩
    obtain ⟨u1, hflies, hheld⟩ := heldResult_flies hi.1 n (s.shver k.g (k.uni32 name))
    exact ⟨u1, hflies, by rw [exec_shver hi hclosed hsize hs, hheld]⟩
  case close =>
    intro e he h u s k hi hs
    rw [exec_closer hi e he]
    exact ⟨fun hentry => congrArg Host.Outcome.next (closeSheaf_invalid hs e.2.2 hentry),
      fun x hentry hready => congrArg Host.Outcome.next (closeSheaf_closes hs hentry hready e he)⟩

end Sys2Proof.Atomics
end

section
/-!
PROOFS. What the operations over nibs and gangs change (R171 to R174): nibs one by one, the gang that is added, held nibs that merge.
-/

namespace Sys2Proof.ExecutionModel

open Sys2Proof Sys2Proof.Machine Sys2Proof.MemoryHierarchy

/-! ### Nibs -/

/-- The nibs alone say what nib `n` is. -/
theorem nib_congr {g h : Group} (hnibs : h.nibs = g.nibs) (n : Nat) : h.nib n = g.nib n := by rw [Group.nib, hnibs, Group.nib]

theorem nib_beyond {g : Group} {n : Nat} (hn : g.nibs.length ≤ n) : g.nib n = Nib.dead := List.getD_eq_default _ _ hn

theorem nib_modNib_other (g : Group) {n j : Nat} (f : Nib → Nib) (hj : j ≠ n) : (g.modNib n f).nib j = g.nib j := by
  rcases Nat.lt_or_ge j g.nibs.length with hin | hout
  · rw [nib_modNib g n f hin, if_neg hj]
  · rw [nib_beyond hout, nib_beyond (by rwa [modNib_length])]

section ModNibs

variable {α : Type} (key : α → Nat) (F : α → Nib → Nib)

/-- Nibs change one after another: nib `key a` by `F a`. -/
def modNibs (g : Group) (l : List α) : Group := l.foldl (fun g a => g.modNib (key a) (F a)) g

theorem modNibs_cons (g : Group) (a : α) (l : List α) : modNibs key F g (a :: l) = modNibs key F (g.modNib (key a) (F a)) l := rfl

theorem modNibs_onlyNibs (g : Group) (l : List α) : modNibs key F g l = { g with nibs := (modNibs key F g l).nibs } := by
  induction l generalizing g with
  | nil => rfl
  | cons a l ih => rw [modNibs_cons, ih]; rfl

/-- The nibs alone decide what becomes of them. -/
theorem modNibs_congr {g h : Group} (hnibs : h.nibs = g.nibs) (l : List α) : (modNibs key F h l).nibs = (modNibs key F g l).nibs := by
  induction l generalizing g h with
  | nil => exact hnibs
  | cons a l ih => exact ih (congrArg (listModify (F a) · (key a)) hnibs)

theorem modNibs_length (g : Group) (l : List α) : (modNibs key F g l).nibs.length = g.nibs.length := by
  induction l generalizing g with
  | nil => rfl
  | cons a l ih => rw [modNibs_cons, ih, modNib_length]

theorem nib_modNibs_other (g : Group) {l : List α} {j : Nat} (hj : j ∉ l.map key) : (modNibs key F g l).nib j = g.nib j := by
  induction l generalizing g with
  | nil => rfl
  | cons a l ih =>
    obtain ⟨hja, hjl⟩ := not_or.mp (mt List.mem_cons.mpr hj)
    rw [modNibs_cons, ih _ hjl, nib_modNib_other g _ hja]

/-- A nib that one element names changes as that element says. -/
theorem nib_modNibs_mem {g : Group} {l : List α} (hl : (l.map key).Nodup) {a : α} (ha : a ∈ l) (hin : key a < g.nibs.length) :
    (modNibs key F g l).nib (key a) = F a (g.nib (key a)) := by
  induction l generalizing g with
  | nil => cases ha
  | cons b l ih =>
    obtain ⟨hb, hl⟩ := List.nodup_cons.mp hl
    rw [modNibs_cons]
    rcases List.mem_cons.mp ha with rfl | ha
    · rw [nib_modNibs_other key F _ hb, nib_modNib g _ _ hin, if_pos rfl]
    · have hne : key a ≠ key b := fun h => hb (h ▸ List.mem_map_of_mem ha)
      rw [ih hl ha (by rwa [modNib_length]), nib_modNib_other g _ hne]

end ModNibs

/-! ### Live threads (R172) -/

/-- The threads of an entry, which are live though they are masked. -/
def entryLive (e : DivEntry) : BitVec 16 := match e.kind with | .x => 0 | .p => e.mask | .w => e.mask

/-- The threads of the entries of a stack. -/
def stackLive : List DivEntry → BitVec 16
  | [] => 0
  | e :: r => entryLive e ||| stackLive r

@[simp] theorem stackLive_nil : stackLive [] = 0#16 := rfl
@[simp] theorem stackLive_cons (e : DivEntry) (r : List DivEntry) : stackLive (e :: r) = entryLive e ||| stackLive r := rfl

theorem entryLive_x {e : DivEntry} (h : e.kind = .x) : entryLive e = 0#16 := by simp [entryLive, h]
theorem entryLive_p {e : DivEntry} (h : e.kind = .p) : entryLive e = e.mask := by simp [entryLive, h]
theorem entryLive_w {e : DivEntry} (h : e.kind = .w) : entryLive e = e.mask := by simp [entryLive, h]

/-- The live threads of a nib are its active ones and those of its entries. -/
theorem liveMask_eq (n : Nib) : n.liveMask = n.mask ||| stackLive n.stack := by
  obtain ⟨live, mask, stack, phase⟩ := n
  show stack.foldl _ mask = mask ||| stackLive stack
  induction stack generalizing mask with
  | nil => simp
  | cons e r ih =>
    rw [List.foldl_cons, ih, stackLive_cons, ← BitVec.or_assoc]
    cases he : e.kind <;> simp [entryLive, he]

/-- An active thread is live. -/
theorem liveMask_ne_zero {n : Nib} (h : n.mask ≠ 0) : n.liveMask ≠ 0 := fun h0 =>
  h (BitVec.or_eq_zero_iff.mp ((liveMask_eq n).symm.trans h0)).1

/-- Every nib of `h` has the live threads that it has in `g`. -/
def SameLive (g h : Group) : Prop := ∀ n, (h.nib n).liveMask = (g.nib n).liveMask

theorem SameLive.trans {g h i : Group} (hgh : SameLive g h) (hhi : SameLive h i) : SameLive g i := fun n => (hhi n).trans (hgh n)

theorem sameLive_of_nibs {g h : Group} (hnibs : h.nibs = g.nibs) : SameLive g h := fun n => congrArg Nib.liveMask (nib_congr hnibs n)

/-- Changes that keep the live threads of each nib that they name, once, keep those of every nib. -/
theorem sameLive_modNibs {α : Type} {key : α → Nat} {F : α → Nib → Nib} {g : Group} {l : List α} (hl : (l.map key).Nodup)
    (hF : ∀ a ∈ l, (F a (g.nib (key a))).liveMask = (g.nib (key a)).liveMask) : SameLive g (modNibs key F g l) := fun n => by
  by_cases hn : n ∈ l.map key
  · obtain ⟨a, ha, rfl⟩ := List.mem_map.mp hn
    rcases Nat.lt_or_ge (key a) g.nibs.length with hin | hout
    · rw [nib_modNibs_mem key F hl ha hin, hF a ha]
    · rw [nib_beyond hout, nib_beyond (by rwa [modNibs_length])]
  · rw [nib_modNibs_other key F g hn]

/-! ### Gangs -/

@[simp] theorem addGang_nibs (g : Group) (k : Gang) : (g.addGang k).nibs = g.nibs := by rw [addGang_only]

theorem mem_addGang {g : Group} {k x : Gang} : x ∈ (g.addGang k).gangs ↔ x ∈ g.gangs ∨ k.nibs ≠ [] ∧ x = k := by
  unfold Group.addGang
  split
  · next h => simp [h]
  · next h => rw [(insertBy_perm Gang.id k g.gangs).mem_iff, List.mem_cons]; simp [h, or_comm]

/-- Gangs that are added leave the nibs. -/
theorem addGangs_nibs {α : Type} (k : α → Gang) (l : List α) (g : Group) : (l.foldl (fun g a => g.addGang (k a)) g).nibs = g.nibs :=
  List.foldlRecOn l _ (motive := fun h => h.nibs = g.nibs) rfl fun h hh a _ => (addGang_nibs h (k a)).trans hh

/-- `h` is `g` with its nibs among gangs in another way; nothing else of the group changed. -/
def Regrouped (g h : Group) : Prop := h = { g with nibs := h.nibs, gangs := h.gangs, snaps := h.snaps, raises := h.raises }

theorem Regrouped.refl (g : Group) : Regrouped g g := rfl

theorem Regrouped.trans {g h i : Group} (hgh : Regrouped g h) (hhi : Regrouped h i) : Regrouped g i := by
  rw [Regrouped, hhi, hgh]

theorem addGang_regrouped (g : Group) (k : Gang) : Regrouped g (g.addGang k) := by
  rw [Regrouped, addGang_only]

theorem modNibs_regrouped {α : Type} (key : α → Nat) (F : α → Nib → Nib) (g : Group) (l : List α) : Regrouped g (modNibs key F g l) := by
  rw [Regrouped, modNibs_onlyNibs]

theorem gcSnaps_regrouped (g : Group) : Regrouped g g.gcSnaps := rfl

/-- Steps that each regroup a group regroup it together. -/
theorem foldl_regrouped {α : Type} {f : Group → α → Group} (hf : ∀ g a, Regrouped g (f g a)) (l : List α) (g : Group) :
    Regrouped g (l.foldl f g) :=
  List.foldlRecOn l f (motive := Regrouped g) (.refl g) fun h hh a _ => hh.trans (hf h a)

/-! ### Held nibs that merge (R174) -/

/-- R174: the X entry on top of a merging nib is popped. -/
def popped (x : Nib) : Nib := { x with stack := x.stack.drop 1 }

/-- What a merge can do: nothing, or, all of them having arrived, pop an entry from each and regroup them. -/
theorem mergeAt_cases (g : Group) (a : DWord) (num : BitVec 16) : g.mergeAt a num = g ∨
    (∀ n ∈ g.holders num, g.arrivedAt a num n = true) ∧ Regrouped g (g.mergeAt a num) ∧
      (g.mergeAt a num).nibs = (modNibs id (fun _ => popped) g (g.holders num)).nibs := by
  unfold Group.mergeAt
  dsimp only
  split
  case isFalse => exact .inl rfl
  case isTrue h =>
    refine .inr ⟨List.all_eq_true.mp h.2, ?_, ?_⟩
    · refine Regrouped.trans (Regrouped.trans (Regrouped.trans ?_ (modNibs_regrouped id (fun _ => popped) _ _)) (addGang_regrouped _ _))
        (gcSnaps_regrouped _)
      rfl
    · refine (addGang_nibs _ _).trans (modNibs_congr id (fun _ => popped) ?_ _)
      rfl

theorem mergeAt_regrouped (g : Group) (a : DWord) (num : BitVec 16) : Regrouped g (g.mergeAt a num) := by
  rcases mergeAt_cases g a num with h | ⟨-, h, -⟩
  · rw [h]; exact .refl g
  · exact h

/-- The JOIN and the number that a gang is held for. -/
def joinHold (k : Gang) : Option (DWord × BitVec 16) := match k.hold with | .join a n => some (a, n) | _ => none

theorem joinHold_none {k : Gang} (h : ∀ a n, k.hold ≠ .join a n) : joinHold k = none := by
  unfold joinHold
  split
  · next a n hjoin => exact absurd hjoin (h a n)
  · rfl

theorem mergeAll_eq (g : Group) : g.mergeAll = (g.gangs.filterMap joinHold).foldl (fun g h => g.mergeAt h.1 h.2) g := rfl

theorem mergeAll_regrouped (g : Group) : Regrouped g g.mergeAll := by
  rw [mergeAll_eq]
  exact foldl_regrouped (fun h (e : DWord × BitVec 16) => mergeAt_regrouped h e.1 e.2) _ g

/-- An X entry holds no thread. -/
theorem popped_liveMask {g : Group} {a : DWord} {num : BitVec 16} {n : Nat} (h : g.arrivedAt a num n = true) :
    (popped (g.nib n)).liveMask = (g.nib n).liveMask := by
  have htop := (Bool.and_eq_true_iff.mp h).1
  rw [liveMask_eq, liveMask_eq, popped]
  cases hstack : (g.nib n).stack with
  | nil => simp
  | cons e r =>
    have hx : e.kind = .x := by simp [hstack] at htop; exact htop.1
    simp [entryLive_x hx]

theorem holders_nodup (g : Group) (num : BitVec 16) : (g.holders num).Nodup := List.nodup_range.filter _

theorem mergeAt_sameLive (g : Group) (a : DWord) (num : BitVec 16) : SameLive g (g.mergeAt a num) := by
  rcases mergeAt_cases g a num with h | ⟨harrived, -, hnibs⟩
  · rw [h]; exact fun _ => rfl
  · refine SameLive.trans (sameLive_modNibs (key := id) (by simpa using holders_nodup g num) fun n hn => ?_) (sameLive_of_nibs hnibs)
    exact popped_liveMask (harrived n hn)

theorem mergeAll_sameLive (g : Group) : SameLive g g.mergeAll := by
  rw [mergeAll_eq]
  exact List.foldlRecOn _ _ (motive := SameLive g) (fun _ => rfl) fun h hh e _ => hh.trans (mergeAt_sameLive h e.1 e.2)

/-- A group without a nib held at a join has nothing to merge. -/
theorem mergeAll_noJoin {g : Group} (h : ∀ k ∈ g.gangs, ∀ a n, k.hold ≠ .join a n) : g.mergeAll = g := by
  rw [mergeAll_eq, List.filterMap_eq_nil_iff.mpr fun k hk => joinHold_none (h k hk)]
  rfl

end Sys2Proof.ExecutionModel
end

section
/-!
PROOFS. BRD and JOIN keep the live threads of every nib (R172 to R174).
-/

namespace Sys2Proof.ExecutionModel

open Sys2Proof Sys2Proof.Machine Sys2Proof.Claims Sys2Proof.MemoryHierarchy

/-! ### BRD (R173) -/

/-- R173: what the split pushes on nib `n`. -/
def splitNib (k : Iss) (target join : DWord) (n : Nat) (x : Nib) : Nib :=
  let st : List DivEntry := ⟨.x, k.g.fresh, join, 0, 0⟩ :: x.stack
  if k.taken n ≠ 0 ∧ k.falling n ≠ 0 then { x with stack := ⟨.p, k.g.fresh, join, target, k.taken n⟩ :: st, mask := k.falling n }
  else { x with stack := st }

theorem split_group {s : State} {k : Iss} (hg : s.group k.gid = some k.g) (target join : DWord) :
    ∃ h, (s.split k target join).group k.gid = some h ∧ h.nibs = (modNibs id (splitNib k target join) k.g k.gang.eachNib).nibs := by
  refine ⟨_, (State.group_modGroup_same _ _ _).trans (congrArg (Option.map _) hg), ?_⟩
  refine (addGang_nibs _ _).trans ((addGang_nibs _ _).trans (modNibs_congr id (splitNib k target join) ?_ _))
  rfl

/-- The active threads of a nib are its taken and its falling ones. -/
theorem falling_or_taken (k : Iss) (n : Nat) : k.falling n ||| k.taken n = (k.g.nib n).mask := by
  ext j
  simp only [Iss.falling, Iss.taken, BitVec.getElem_or, BitVec.getElem_and, BitVec.getElem_not]
  cases (nibPart n k.guard)[j] <;> simp

theorem splitNib_liveMask (k : Iss) (target join : DWord) (n : Nat) :
    (splitNib k target join n (k.g.nib n)).liveMask = (k.g.nib n).liveMask := by
  rw [liveMask_eq, liveMask_eq, splitNib]
  split
  · rw [stackLive_cons, stackLive_cons, entryLive_p rfl, entryLive_x rfl, BitVec.zero_or, ← BitVec.or_assoc, falling_or_taken]
  · rw [stackLive_cons, entryLive_x rfl, BitVec.zero_or]

theorem split_sameLive {s : State} {k : Iss} (hg : s.group k.gid = some k.g) (target join : DWord) :
    ∃ h, (s.split k target join).group k.gid = some h ∧ SameLive k.g h := by
  obtain ⟨h, hh, hnibs⟩ := split_group hg target join
  refine ⟨h, hh, SameLive.trans (sameLive_modNibs (key := id) ?_ fun n _ => splitNib_liveMask k target join n) (sameLive_of_nibs hnibs)⟩
  simpa using eachNib_nodup k.gang

/-! ### JOIN (R174) -/

/-- The loop of R174 moves threads between the mask and the entries. -/
theorem joinNib_live (a : DWord) (m : BitVec 16) (st : List DivEntry) :
    (joinNib a m st).1 ||| stackLive (joinNib a m st).2.1 = m ||| stackLive st := by
  induction st generalizing m with
  | nil => rfl
  | cons e r ih =>
    rw [joinNib]
    split
    · rfl
    · split
      case h_1 hp =>
        rw [stackLive_cons, stackLive_cons, entryLive_w rfl, entryLive_p hp, ← BitVec.or_assoc, ← BitVec.or_assoc, BitVec.or_comm e.mask]
      case h_2 hw => rw [ih, stackLive_cons, entryLive_w hw, BitVec.or_assoc]
      case h_3 => rfl

theorem join_liveMask (x : Nib) (a : DWord) : (x.join a).1.liveMask = x.liveMask := by
  rw [liveMask_eq, liveMask_eq]
  exact joinNib_live a x.mask x.stack

theorem joins_nodup (k : Iss) : (k.joins.map Prod.fst).Nodup := by
  have hfst : k.joins.map Prod.fst = k.gang.eachNib := by simp [Iss.joins, Function.comp_def]
  exact hfst ▸ eachNib_nodup k.gang

/-- The gangs that a JOIN forms leave the nibs as the loop of R174 has left them. -/
theorem joinGang_nibs (k : Iss) (g : Group) : (k.joinGang g).nibs = (modNibs Prod.fst (fun o _ => o.2.1) g k.joins).nibs := by
  refine List.foldlRecOn k.joins _ (motive := fun h : Group => h.nibs = (modNibs Prod.fst (fun o _ => o.2.1) g k.joins).nibs) ?_ fun h hh o _ => ?_
  · exact (addGangs_nibs _ _ _).trans (addGang_nibs _ _)
  · split
    · exact (addGang_nibs _ _).trans hh
    · exact hh

theorem joinGang_sameLive (k : Iss) : SameLive k.g (k.joinGang k.g) := by
  refine SameLive.trans (sameLive_modNibs (joins_nodup k) fun o ho => ?_) (sameLive_of_nibs (joinGang_nibs k k.g))
  obtain ⟨n, -, rfl⟩ := List.mem_map.mp ho
  exact join_liveMask (k.g.nib n) k.cl.addr

theorem joinStep_sameLive {s : State} {k : Iss} (hg : s.group k.gid = some k.g) :
    ∃ h, (s.joinStep k).group k.gid = some h ∧ SameLive k.g h := by
  unfold State.joinStep
  split
  · exact ⟨k.g, hg, fun _ => rfl⟩
  · refine ⟨(k.joinGang k.g).mergeAll, ?_, (joinGang_sameLive k).trans (mergeAll_sameLive _)⟩
    show (s.modGroup k.gid fun g => (k.joinGang g).mergeAll).group k.gid = _
    rw [State.group_modGroup_same, hg]
    rfl

/-! ### O8 -/

/-- Settles O8: a split moves the taken threads of a nib into a P entry, the loop of a JOIN moves them between mask and entries, and a merge
pops X entries only, which hold none. -/
theorem divergenceKeepsThreads : Obligations.DivergenceKeepsThreads := by
  unfold Obligations.DivergenceKeepsThreads
  refine ⟨fun s k a b g h n hi hg hh => ?split, fun s k g h n hi hg hh => ?join⟩
  case split =>
    have hk := (issuer_context hi).1
    obtain ⟨x, hx, hlive⟩ := split_sameLive hk a b
    cases hg.symm.trans hk
    cases hh.symm.trans hx
    exact hlive n
  case join =>
    have hk := (issuer_context hi).1
    obtain ⟨x, hx, hlive⟩ := joinStep_sameLive hk
    cases hg.symm.trans hk
    cases hh.symm.trans hx
    exact hlive n

end Sys2Proof.ExecutionModel
end

section
/-!
PROOFS. The return from a handler (R301, R354, R355, R180) and the end of a launch by HALT (R302).
-/

namespace Sys2Proof.ExecutionModel

open Sys2Proof Sys2Proof.Machine Sys2Proof.Claims Sys2Proof.MemoryHierarchy Sys2Proof.AddressSpaces Sys2Proof.Ordering

/-! ### Recorded nibs -/

/-- A recorded nib gives a nib its mask and its stack. -/
def putRecord (r : SnapNib) (x : Nib) : Nib := { x with mask := r.mask, stack := r.stack }

/-- The nibs take what is recorded of them. -/
def placed (g : Group) (rs : List SnapNib) : Group := modNibs SnapNib.nib putRecord g rs

theorem placed_regrouped (g : Group) (rs : List SnapNib) : Regrouped g (placed g rs) := modNibs_regrouped _ _ g rs

theorem placed_gangs (g : Group) (rs : List SnapNib) : (placed g rs).gangs = g.gangs := by rw [placed, modNibs_onlyNibs]

theorem placed_length (g : Group) (rs : List SnapNib) : (placed g rs).nibs.length = g.nibs.length := modNibs_length _ _ g rs

theorem nib_placed {g : Group} {rs : List SnapNib} (hrs : (rs.map SnapNib.nib).Nodup) {r : SnapNib} (hr : r ∈ rs) (hin : r.nib < g.nibs.length) :
    (placed g rs).nib r.nib = putRecord r (g.nib r.nib) := nib_modNibs_mem _ _ hrs hr hin

theorem nib_placed_other (g : Group) {rs : List SnapNib} {n : Nat} (hn : n ∉ rs.map SnapNib.nib) : (placed g rs).nib n = g.nib n :=
  nib_modNibs_other _ _ g hn

/-! ### A snapshot restored (R180) -/

/-- The recorded nibs that are restored, without the threads that have exited since. -/
def restored (g : Group) (p : Snapshot) (nibs : List Nat) : List SnapNib :=
  (p.nibs.filter fun r => nibs.contains r.nib).map fun r => r.without (g.nib r.nib).liveMask

theorem mem_restored {g : Group} {p : Snapshot} {nibs : List Nat} {r : SnapNib} (hr : r ∈ p.nibs) (hn : r.nib ∈ nibs) :
    r.without (g.nib r.nib).liveMask ∈ restored g p nibs :=
  List.mem_map.mpr ⟨r, List.mem_filter.mpr ⟨hr, by simpa using hn⟩, rfl⟩

theorem restored_nodup {p : Snapshot} (hp : (p.nibs.map SnapNib.nib).Nodup) (g : Group) (nibs : List Nat) :
    ((restored g p nibs).map SnapNib.nib).Nodup := by
  have hmap : (restored g p nibs).map SnapNib.nib = (p.nibs.filter fun r => nibs.contains r.nib).map SnapNib.nib := by
    rw [restored, List.map_map]
    rfl
  rw [hmap]
  exact hp.sublist (List.filter_sublist.map _)

/-- Those of them with a live thread. -/
def restoredAlive (g : Group) (p : Snapshot) (nibs : List Nat) : List SnapNib :=
  (restored g p nibs).filter fun r => ((placed g (restored g p nibs)).nib r.nib).liveMask != 0

/-- The gang of those recorded at entry `e`, and the one of a nib recorded at a JOIN. -/
def gangAt (p : Snapshot) (last : Nat) (rs : List SnapNib) (e : DWord) : Gang :=
  ⟨sortBy id ((rs.filter fun r => r.entry == e).map SnapNib.nib), e, none, .none, p.id, last, 0⟩

def gangAtJoin (p : Snapshot) (last : Nat) (r : SnapNib) : Gang :=
  ⟨[r.nib], r.pc, none, match r.stack.head? with | some e => .join r.pc e.number | none => .none, p.id, last, 0⟩

theorem restoreSnap_eq (g : Group) (p : Snapshot) (nibs : List Nat) (last : Nat) : g.restoreSnap p nibs last =
    let entered := (restoredAlive g p nibs).filter fun r => r.pc == r.entry
    ((restoredAlive g p nibs).filter fun r => r.pc != r.entry).foldl (fun h r => h.addGang (gangAtJoin p last r))
      ((nubBy (entered.map SnapNib.entry)).foldl (fun h e => h.addGang (gangAt p last entered e)) (placed g (restored g p nibs))) := rfl

theorem restoreSnap_regrouped (g : Group) (p : Snapshot) (nibs : List Nat) (last : Nat) : Regrouped g (g.restoreSnap p nibs last) := by
  rw [restoreSnap_eq]
  exact ((placed_regrouped g _).trans (foldl_regrouped (fun h _ => addGang_regrouped h _) _ _)).trans
    (foldl_regrouped (fun h _ => addGang_regrouped h _) _ _)

/-- The gang that the restored nibs form, where the snapshot records every nib at its entry. -/
def entryGang (g : Group) (p : Snapshot) (nibs : List Nat) (last : Nat) : Gang := gangAt p last (restoredAlive g p nibs) p.entry

section AtEntry

variable {p : Snapshot} (hp : ∀ r ∈ p.nibs, r.pc = p.entry ∧ r.entry = p.entry)
include hp

theorem restored_atEntry {g : Group} {nibs : List Nat} {r : SnapNib} (hr : r ∈ restoredAlive g p nibs) : r.pc = p.entry ∧ r.entry = p.entry := by
  obtain ⟨q, hq, rfl⟩ := List.mem_map.mp (List.mem_of_mem_filter hr)
  exact hp q (List.mem_of_mem_filter hq)

/-- R180: a snapshot of nibs at its entry gives them one gang. -/
theorem restoreSnap_atEntry (g : Group) (nibs : List Nat) (last : Nat) :
    g.restoreSnap p nibs last = (placed g (restored g p nibs)).addGang (entryGang g p nibs last) := by
  have hentered : ((restoredAlive g p nibs).filter fun r => r.pc == r.entry) = restoredAlive g p nibs :=
    List.filter_eq_self.mpr fun r hr => by simp [restored_atEntry hp hr]
  have hjoined : ((restoredAlive g p nibs).filter fun r => r.pc != r.entry) = [] :=
    List.filter_eq_nil_iff.mpr fun r hr => by simp [restored_atEntry hp hr]
  rw [restoreSnap_eq, hentered, hjoined, List.foldl_nil]
  by_cases hnone : restoredAlive g p nibs = []
  · simp [hnone, nubBy, Group.addGang, entryGang, gangAt, sortBy]
  · have hentries : nubBy ((restoredAlive g p nibs).map SnapNib.entry) = [p.entry] := by
      refine nubBy_const (by simpa using hnone) fun e he => ?_
      obtain ⟨r, hr, rfl⟩ := List.mem_map.mp he
      exact (restored_atEntry hp hr).2
    rw [hentries]
    rfl

/-- A nib that the snapshot records is as recorded, without the threads that have exited since. -/
theorem nib_restoreSnap (hnodup : (p.nibs.map SnapNib.nib).Nodup) {g : Group} {nibs : List Nat} (last : Nat) {r : SnapNib} (hr : r ∈ p.nibs)
    (hn : r.nib ∈ nibs) (hin : r.nib < g.nibs.length) :
    (g.restoreSnap p nibs last).nib r.nib = putRecord (r.without (g.nib r.nib).liveMask) (g.nib r.nib) := by
  rw [restoreSnap_atEntry hp, nib_congr (addGang_nibs _ _)]
  exact nib_placed (restored_nodup hnodup g nibs) (mem_restored hr hn) hin

/-- Such a nib goes on at the entry if an active thread is left to it. -/
theorem restoreSnap_goesOn (hnodup : (p.nibs.map SnapNib.nib).Nodup) {g : Group} {nibs : List Nat} (last : Nat) {r : SnapNib} (hr : r ∈ p.nibs)
    (hn : r.nib ∈ nibs) (hin : r.nib < g.nibs.length) (hmask : r.mask &&& (g.nib r.nib).liveMask ≠ 0) :
    entryGang g p nibs last ∈ (g.restoreSnap p nibs last).gangs ∧ r.nib ∈ (entryGang g p nibs last).nibs := by
  have hplaced := nib_placed (restored_nodup hnodup g nibs) (mem_restored hr hn) hin
  have halive : r.without (g.nib r.nib).liveMask ∈ restoredAlive g p nibs := by
    refine List.mem_filter.mpr ⟨mem_restored hr hn, bne_iff_ne.mpr ?_⟩
    exact hplaced ▸ liveMask_ne_zero hmask
  have hmem : r.nib ∈ (entryGang g p nibs last).nibs := by
    refine (sortBy_perm id _).mem_iff.mpr (List.mem_map.mpr ⟨_, List.mem_filter.mpr ⟨halive, beq_iff_eq.mpr ?_⟩, rfl⟩)
    exact (restored_atEntry hp halive).2
  exact ⟨restoreSnap_atEntry hp g nibs last ▸ mem_addGang.mpr (.inr ⟨List.ne_nil_of_mem hmem, rfl⟩), hmem⟩

theorem restoreSnap_noJoin {g : Group} (hg : ∀ k ∈ g.gangs, ∀ a n, k.hold ≠ .join a n) (nibs : List Nat) (last : Nat) :
    ∀ k ∈ (g.restoreSnap p nibs last).gangs, ∀ a n, k.hold ≠ .join a n := by
  intro k hk a n
  rw [restoreSnap_atEntry hp] at hk
  rcases mem_addGang.mp hk with hk | ⟨-, rfl⟩
  · exact hg k (placed_gangs g _ ▸ hk) a n
  · exact nofun

end AtEntry

/-! ### The return (R301, R355) -/

section Return

variable (g : Group) (sv : SaveArea) (mode last : Nat)

/-- R355: the nibs that leave whatever gang holds them: the saved ones, and under mode 0 those that share their snapshot. -/
def leaving : List Nat :=
  let own := sv.nibs.map SnapNib.nib
  if mode = 0 then own ++ ((g.gangs.filter fun k => k.snap == sv.snap.id).flatMap Gang.nibs).filter fun n => !own.contains n else own

/-- R355: the context out of the handler, its gangs aside. -/
def outOfHandler : Group :=
  let out : Group := { g with h := false, save := none, forms := sv.forms }
  if g.quill then { out with s := KMap.put (KMap.put g.s 46 sv.s46) 47 sv.s47 } else out

/-- R355: the gangs without the nibs that leave. -/
def gangsLeft : List Gang :=
  (g.gangs.map fun k => { k with nibs := k.nibs.filter fun n => !(leaving g sv mode).contains n }).filter fun k => k.nibs ≠ []

/-- R355, log 13: the saved nibs without the threads that exited in the handler. -/
def savedLeft : List SnapNib := sv.nibs.map fun r => { r with mask := r.mask &&& (g.nib r.nib).liveMask }

/-- R355: the context with the saved snapshot among its own; the nibs that leave stand in no gang yet. -/
def leftGangs : Group :=
  { outOfHandler g sv with
    gangs := gangsLeft g sv mode
    snaps := if g.snaps.any fun p => p.id == sv.snap.id then g.snaps else g.snaps ++ [sv.snap] }

/-- R355: the same with its saved nibs as they were saved. -/
def savedPlaced : Group := placed (leftGangs g sv mode) (savedLeft g sv)

/-- R355, mode 1: the gang that the saved nibs with active threads form at the clause after the one that trapped. -/
def nextGang : Gang :=
  ⟨sortBy id (((savedLeft g sv).filter fun r => r.mask != 0).map SnapNib.nib),
    match sv.gang.clause with | some c => c.after | none => sv.gang.pc, none, .none, sv.snap.id, last, 0⟩

/-- R175, R355: a saved nib without an active thread unwinds. -/
def unwindSaved (h : Group) (r : SnapNib) : Group :=
  let u := unwind (h.nib r.nib).stack
  let h1 := h.modNib r.nib fun x => { x with mask := u.1, stack := u.2.1 }
  match u.2.2 with
  | some a => h1.addGang ⟨[r.nib], a, none, .none, sv.snap.id, last, 0⟩
  | none => h1

/-- R355, mode 1: the saved nibs without an active thread, which unwind. -/
def savedEmpty : List SnapNib := (savedLeft g sv).filter fun r => r.mask == 0

end Return

section Returning

variable {g : Group} {sv : SaveArea} (hsave : g.save = some sv) (mode last : Nat)

include hsave in
/-- R355: under mode 0 the snapshot is restored; under mode 1 the saved nibs go on at the next clause, or unwind. -/
theorem eret_eq : g.eret mode last =
    if mode = 0 then ((savedPlaced g sv mode).restoreSnap sv.snap (leaving g sv mode) last).mergeAll.gcSnaps
    else (savedEmpty g sv).foldl (unwindSaved sv last) ((savedPlaced g sv mode).addGang (nextGang g sv last)) := by
  unfold Group.eret
  rw [hsave]
  cases hq : g.quill <;> simp only [savedPlaced, leftGangs, outOfHandler, hq] <;> rfl

theorem unwindSaved_regrouped (h : Group) (r : SnapNib) : Regrouped h (unwindSaved sv last h r) := by
  unfold unwindSaved
  dsimp only
  split
  · refine Regrouped.trans ?_ (addGang_regrouped _ _)
    rfl
  · rfl

theorem savedPlaced_regrouped : Regrouped (outOfHandler g sv) (savedPlaced g sv mode) := by
  refine Regrouped.trans ?_ (placed_regrouped _ _)
  rfl

include hsave in
/-- The frame of a return: the handler is left, and the nibs are regrouped. -/
theorem eret_regrouped : Regrouped (outOfHandler g sv) (g.eret mode last) := by
  refine (savedPlaced_regrouped mode).trans ?_
  rw [eret_eq hsave]
  split
  · exact ((restoreSnap_regrouped _ _ _ _).trans (mergeAll_regrouped _)).trans (gcSnaps_regrouped _)
  · exact (addGang_regrouped _ _).trans (foldl_regrouped (unwindSaved_regrouped last) _ _)

/-! ### What a return changes beside the nibs -/

theorem outOfHandler_only : outOfHandler g sv = { g with h := false, save := none, forms := sv.forms, s := (outOfHandler g sv).s } := by
  unfold outOfHandler
  dsimp only
  split <;> rfl

theorem leftGangs_nibs : (leftGangs g sv mode).nibs = g.nibs := by rw [leftGangs, outOfHandler_only]

/-- R354: a quill context takes back s46 and s47, where its trap has been reported. -/
theorem outOfHandler_sreg (n : Nat) : (outOfHandler g sv).sreg n =
    if g.quill = true ∧ n = 46 then sv.s46 else if g.quill = true ∧ n = 47 then sv.s47 else g.sreg n := by
  rw [outOfHandler]
  cases hq : g.quill
  · simp [Group.sreg]
  · simp only [if_true, Group.sreg, KMap.getD_put, true_and]
    rcases eq_or_ne n 46 with rfl | h46
    · rfl
    · rw [if_neg h46, if_neg h46]

include hsave in
theorem eret_sreg (n : Nat) : (g.eret mode last).sreg n =
    if g.quill = true ∧ n = 46 then sv.s46 else if g.quill = true ∧ n = 47 then sv.s47 else g.sreg n := by
  have hframe := eret_regrouped hsave mode last
  rw [Regrouped] at hframe
  rw [hframe]
  exact outOfHandler_sreg n

/-- What a return keeps, and what it takes from the save area. -/
def ReturnFrame (g : Group) (sv : SaveArea) (t : Group) : Prop :=
  t.h = false ∧ t.save = none ∧ t.forms = sv.forms ∧ t.v = g.v ∧ t.p = g.p ∧ t.xflg = g.xflg ∧ t.stack = g.stack ∧
    t.trpc = g.trpc ∧ t.tcau = g.tcau

include hsave in
theorem eret_frame : ReturnFrame g sv (g.eret mode last) := by
  have hframe := eret_regrouped hsave mode last
  rw [Regrouped, outOfHandler_only] at hframe
  rw [hframe]
  exact ⟨rfl, rfl, rfl, rfl, rfl, rfl, rfl, rfl, rfl⟩

/-! ### The saved nibs -/

theorem savedLeft_nibs : (savedLeft g sv).map SnapNib.nib = sv.nibs.map SnapNib.nib := by
  rw [savedLeft, List.map_map]
  rfl

theorem savedPlaced_length : (savedPlaced g sv mode).nibs.length = g.nibs.length := by
  rw [savedPlaced, placed_length, leftGangs_nibs]

theorem savedPlaced_gangs : (savedPlaced g sv mode).gangs = gangsLeft g sv mode := placed_gangs _ _

/-- R355: a saved nib has its saved stack, and those of its saved threads that live. -/
theorem nib_savedPlaced (hnodup : (sv.nibs.map SnapNib.nib).Nodup) {r : SnapNib} (hr : r ∈ sv.nibs) (hin : r.nib < g.nibs.length) :
    (savedPlaced g sv mode).nib r.nib = { g.nib r.nib with mask := r.mask &&& (g.nib r.nib).liveMask, stack := r.stack } := by
  have hleft : { r with mask := r.mask &&& (g.nib r.nib).liveMask } ∈ savedLeft g sv := List.mem_map_of_mem hr
  refine (nib_placed (savedLeft_nibs ▸ hnodup) hleft ?_).trans ?_
  · rwa [leftGangs_nibs]
  · rw [nib_congr (leftGangs_nibs mode)]; rfl

theorem nib_savedPlaced_other {n : Nat} (hn : n ∉ sv.nibs.map SnapNib.nib) : (savedPlaced g sv mode).nib n = g.nib n :=
  (nib_placed_other _ (savedLeft_nibs ▸ hn)).trans (nib_congr (leftGangs_nibs mode) n)

/-- A gang of which no nib leaves stays as it is. -/
theorem mem_gangsLeft {x : Gang} (hx : x ∈ g.gangs) (hne : x.nibs ≠ []) (hstay : ∀ n ∈ x.nibs, n ∉ leaving g sv mode) :
    x ∈ gangsLeft g sv mode := by
  have hsame : { x with nibs := x.nibs.filter fun n => !(leaving g sv mode).contains n } = x := by
    rw [List.filter_eq_self.mpr fun n hn => by simpa using hstay n hn]
  exact List.mem_filter.mpr ⟨List.mem_map.mpr ⟨x, hx, hsame⟩, by simpa using hne⟩

/-- What leaves a gang does not change what it is held for. -/
theorem gangsLeft_noJoin (hg : ∀ k ∈ g.gangs, ∀ a n, k.hold ≠ .join a n) : ∀ k ∈ gangsLeft g sv mode, ∀ a n, k.hold ≠ .join a n := by
  intro k hk
  obtain ⟨x, hx, rfl⟩ := List.mem_map.mp (List.mem_of_mem_filter hk)
  exact hg x hx

/-! ### Mode 1: on at the next clause -/

theorem mem_nextGang {n : Nat} : n ∈ (nextGang g sv last).nibs ↔ ∃ q ∈ sv.nibs, q.nib = n ∧ q.mask &&& (g.nib q.nib).liveMask ≠ 0 := by
  refine (sortBy_perm id _).mem_iff.trans (List.mem_map.trans ⟨?_, ?_⟩)
  · rintro ⟨r, hr, rfl⟩
    obtain ⟨hr, hmask⟩ := List.mem_filter.mp hr
    obtain ⟨q, hq, rfl⟩ := List.mem_map.mp hr
    exact ⟨q, hq, rfl, bne_iff_ne.mp hmask⟩
  · rintro ⟨q, hq, rfl, hmask⟩
    exact ⟨_, List.mem_filter.mpr ⟨List.mem_map_of_mem hq, bne_iff_ne.mpr hmask⟩, rfl⟩

/-- A saved nib with an active thread is not among those that unwind. -/
theorem active_not_savedEmpty (hnodup : (sv.nibs.map SnapNib.nib).Nodup) {r : SnapNib} (hr : r ∈ sv.nibs)
    (hmask : r.mask &&& (g.nib r.nib).liveMask ≠ 0) : r.nib ∉ (savedEmpty g sv).map SnapNib.nib := by
  intro hn
  obtain ⟨e, he, hnib⟩ := List.mem_map.mp hn
  obtain ⟨he, hempty⟩ := List.mem_filter.mp he
  obtain ⟨q, hq, rfl⟩ := List.mem_map.mp he
  cases List.inj_on_of_nodup_map hnodup hq hr hnib
  exact hmask (beq_iff_eq.mp hempty)

theorem savedEmpty_saved {n : Nat} (hn : n ∈ (savedEmpty g sv).map SnapNib.nib) : n ∈ sv.nibs.map SnapNib.nib :=
  savedLeft_nibs ▸ List.map_subset SnapNib.nib (List.filter_subset_self _) hn

theorem unwindSaved_keeps (h : Group) (r : SnapNib) :
    (∀ x ∈ h.gangs, x ∈ (unwindSaved sv last h r).gangs) ∧ ∀ n ≠ r.nib, (unwindSaved sv last h r).nib n = h.nib n := by
  unfold unwindSaved
  dsimp only
  split
  · exact ⟨fun x hx => mem_addGang.mpr (.inl hx), fun n hn => (nib_congr (addGang_nibs _ _) n).trans (nib_modNib_other h _ hn)⟩
  · exact ⟨fun x hx => hx, fun n hn => nib_modNib_other h _ hn⟩

/-- Nibs that unwind leave every gang that there is, and the other nibs. -/
theorem unwindAll_keeps (l : List SnapNib) (h : Group) : (∀ x ∈ h.gangs, x ∈ (l.foldl (unwindSaved sv last) h).gangs) ∧
    ∀ n ∉ l.map SnapNib.nib, (l.foldl (unwindSaved sv last) h).nib n = h.nib n := by
  refine List.foldlRecOn l (unwindSaved sv last)
    (motive := fun t => (∀ x ∈ h.gangs, x ∈ t.gangs) ∧ ∀ n ∉ l.map SnapNib.nib, t.nib n = h.nib n)
    ⟨fun x hx => hx, fun n _ => rfl⟩ fun t ht r hr => ?_
  obtain ⟨hgangs, hnibs⟩ := unwindSaved_keeps (sv := sv) last t r
  exact ⟨fun x hx => hgangs x (ht.1 x hx), fun n hn => (hnibs n fun h => hn (h ▸ List.mem_map_of_mem hr)).trans (ht.2 n hn)⟩

include hsave in
theorem nib_eret_next {n : Nat} (hn : n ∉ (savedEmpty g sv).map SnapNib.nib) : (g.eret 1 last).nib n = (savedPlaced g sv 1).nib n := by
  rw [eret_eq hsave, if_neg (by decide), (unwindAll_keeps last _ _).2 n hn, nib_congr (addGang_nibs _ _)]

include hsave in
theorem mem_eret_next {x : Gang} (hx : x ∈ gangsLeft g sv 1 ∨ (nextGang g sv last).nibs ≠ [] ∧ x = nextGang g sv last) :
    x ∈ (g.eret 1 last).gangs := by
  rw [eret_eq hsave, if_neg (by decide)]
  exact (unwindAll_keeps last _ _).1 x (mem_addGang.mpr (savedPlaced_gangs (g := g) (sv := sv) 1 ▸ hx))

/-! ### Mode 0: on at the region entry -/

theorem saved_leaving {q : SnapNib} (hq : q ∈ sv.nibs) : q.nib ∈ leaving g sv 0 := List.mem_append_left _ (List.mem_map_of_mem hq)

include hsave in
/-- Where no nib is held at a join, a return to the region entry is the restoration of the saved snapshot. -/
theorem eret_atEntry (hp : ∀ r ∈ sv.snap.nibs, r.pc = sv.snap.entry ∧ r.entry = sv.snap.entry)
    (hjoin : ∀ k ∈ g.gangs, ∀ a n, k.hold ≠ .join a n) :
    g.eret 0 last = ((savedPlaced g sv 0).restoreSnap sv.snap (leaving g sv 0) last).gcSnaps := by
  have hnone : ∀ k ∈ (savedPlaced g sv 0).gangs, ∀ a n, k.hold ≠ .join a n :=
    savedPlaced_gangs (g := g) (sv := sv) 0 ▸ gangsLeft_noJoin 0 hjoin
  rw [eret_eq hsave, if_pos rfl, mergeAll_noJoin (restoreSnap_noJoin hp hnone _ last)]

end Returning

/-! ### O34 -/

theorem exec_eret {s : State} {k : Iss} {ua ub mode : Byte}
    (hi : s.Issues k [failIf (!k.g.h) 1 5, zeroChk 1 ua, zeroChk 2 ub, failIf (decide (1 < mode.toNat)) 2 3]) :
    exec (.eret ua ub mode) s = .next (if k.g.handlerFlags then s.retry k else s.modIss k fun g => g.eret mode.toNat s.turn) :=
  State.insn_pass (c := fun i => [failIf (!i.g.h) 1 5, zeroChk 1 ua, zeroChk 2 ub, failIf (decide (1 < mode.toNat)) 2 3]) hi _

/-- A return leaves the spill stack. -/
theorem eret_stack (g : Group) (mode last : Nat) : (g.eret mode last).stack = g.stack := by
  cases hsave : g.save with
  | none => rw [Group.eret, hsave]
  | some sv =>
    obtain ⟨-, -, -, -, -, -, hstack, -, -⟩ := eret_frame hsave mode last
    exact hstack

theorem exec_halt {s : State} {k : Iss} {ua : Byte} {code : BitVec 16} (hi : s.Issues k [zeroChk 1 ua]) (hs : s.speculative k.g = false)
    (hops : (s.opsAll k.gid).filter s.isHeld = []) (hfailed : k.g.failed = []) :
    exec (.halt ua code) s = .next (s.stopLaunch k.g.launch (1, 0, code.toNat)) := by
  refine (State.insn_pass (c := fun _ => [zeroChk 1 ua]) hi _).trans (congrArg Host.Outcome.next ?_)
  rw [if_neg (by simp [hs]), State.atWait, awaitOps_over hops hfailed]

/-- Settles O34: ERET and HALT by their meanings; the frame of the return by `eret_regrouped`; mode 1 by the saved nibs that are placed and the
gang that they form; mode 0 as the restoration of the saved snapshot. -/
theorem eretAndHaltResults : Obligations.EretAndHaltResults := by
  unfold Obligations.EretAndHaltResults
  refine ⟨?eret, ?frame, ?next, ?entry, fun ua code s k hi hs hops hfailed => exec_halt hi hs hops hfailed⟩
  case eret =>
    intro ua ub mode s k hi
    rw [exec_eret hi]
    refine ⟨fun hflags => by rw [if_pos hflags], fun hflags => ⟨_, by rw [if_neg (by simp [hflags])], ?_⟩⟩
    exact modIss_became (f := fun g => g.eret mode.toNat s.turn) (issuer_context hi.1).1 fun g => eret_stack g _ _
  case frame =>
    intro g sv mode last hsave
    obtain ⟨hh, hnone, hforms, hv, hp, hxflg, hstack, htrpc, htcau⟩ := eret_frame hsave mode last
    exact ⟨hh, hnone, hforms, hv, hp, hxflg, hstack, htrpc, htcau, eret_sreg hsave mode last⟩
  case next =>
    intro g sv last hsave hnodup hin
    refine ⟨fun r hr hmask => ⟨?_, nextGang g sv last, ?_, ?_, rfl, rfl, rfl, rfl, fun n => mem_nextGang last⟩,
      fun n hn => ?_, fun x hx hne hout => ?_⟩
    · rw [nib_eret_next hsave last (active_not_savedEmpty hnodup hr hmask), nib_savedPlaced 1 hnodup hr (hin r hr)]
    · exact mem_eret_next hsave last (.inr ⟨List.ne_nil_of_mem ((mem_nextGang last).mpr ⟨r, hr, rfl, hmask⟩), rfl⟩)
    · exact (mem_nextGang last).mpr ⟨r, hr, rfl, hmask⟩
    · rw [nib_eret_next hsave last fun h => hn (savedEmpty_saved h), nib_savedPlaced_other 1 hn]
    · exact mem_eret_next hsave last (.inl (mem_gangsLeft 1 hx hne hout))
  case entry =>
    intro g sv last hsave hnodup hin hsnap hp hjoin
    rw [eret_atEntry hsave last hp hjoin]
    intro _ q hq r hr hrq
    have hleaves : r.nib ∈ leaving g sv 0 := hrq ▸ saved_leaving hq
    have hplaced := nib_savedPlaced 0 hnodup hq (hin q hq)
    have hlength : r.nib < (savedPlaced g sv 0).nibs.length := by rw [savedPlaced_length, hrq]; exact hin q hq
    have hnib := nib_restoreSnap hp hsnap last hr hleaves hlength
    have hgoes := restoreSnap_goesOn hp hsnap last hr hleaves hlength
    rw [hrq, hplaced] at hnib hgoes
    rw [hrq]
    exact ⟨hnib, fun hmask => ⟨_, (hgoes hmask).1, (hgoes hmask).2, rfl, rfl, rfl, rfl⟩⟩

end Sys2Proof.ExecutionModel
end

section
/-!
PROOFS. What an instruction's result leaves: the registers that it writes, the partner's window registers with them, and the flags that its
threads raise (R19, R185, R204).
-/

namespace Sys2Proof.NumberFormats

open Sys2Proof Sys2Proof.Machine Sys2Proof.Claims

/-! ### The frame of several updates -/

theorem inContexts_mono {s t : State} {p q : Nat → Prop} (h : InContexts s t p) (hpq : ∀ j, p j → q j) : InContexts s t q := by
  obtain ⟨hrest, hbytes, hother⟩ := h
  exact ⟨hrest, hbytes, fun j hj => hother j fun hp => hj (hpq j hp)⟩

theorem inContexts_trans {s t u : State} {p : Nat → Prop} (hst : InContexts s t p) (htu : InContexts t u p) : InContexts s u p := by
  obtain ⟨hrest, hbytes, hother⟩ := hst
  obtain ⟨hrest', hbytes', hother'⟩ := htu
  refine ⟨?_, fun o l => (hbytes' o l).trans (hbytes o l), fun j hj => (hother' j hj).trans (hother j hj)⟩
  rw [hrest] at hrest'
  exact hrest'

theorem inContexts_other {s t : State} {p : Nat → Prop} (h : InContexts s t p) {j : Nat} (hj : ¬ p j) : t.group j = s.group j := by
  obtain ⟨-, -, hother⟩ := h
  exact hother j hj

theorem inContexts_refl (s : State) (p : Nat → Prop) : InContexts s s p := ⟨rfl, fun _ _ => rfl, fun _ _ => rfl⟩

theorem modGroup_inContexts (s : State) (gid : Nat) {f : Group → Group} (hf : ∀ g, (f g).stack = g.stack) :
    InContexts s (s.modGroup gid f) (· = gid) :=
  ⟨rfl, MemoryHierarchy.modGroup_sameBytes s gid hf, fun j hj => (State.group_modGroup s gid j f).trans (if_neg hj)⟩

/-! ### Vector registers of one context -/

/-- Context `h` is `g` but for its vector registers: register `n` of thread `th` holds what `F n th` makes of its old value. -/
def Relaned (g h : Group) (F : Nat → Nat → Word → Word) : Prop :=
  h = { g with v := h.v } ∧ ∀ n th, th < 64 → h.vreg n th = F n th (g.vreg n th)

/-- Register `n` takes `f th` in the threads where it is given. -/
def setLane (n : Nat) (f : Nat → Option Word) (m th : Nat) (old : Word) : Word := if m = n then (f th).getD old else old

theorem relaned_setV (g : Group) (n : Nat) (f : Nat → Option Word) : Relaned g (g.setV n f) (setLane n f) := by
  refine ⟨rfl, fun m th hth => ?_⟩
  rw [Group.vreg_setV g n m th f hth, setLane]
  split
  · next hm => rw [hm]
  · rfl

theorem relaned_trans {g h x : Group} {F G : Nat → Nat → Word → Word} (hgh : Relaned g h F) (hhx : Relaned h x G) :
    Relaned g x fun n th old => G n th (F n th old) := by
  obtain ⟨hrest, hlane⟩ := hgh
  obtain ⟨hrest', hlane'⟩ := hhx
  refine ⟨?_, fun n th hth => by rw [hlane' n th hth, hlane n th hth]⟩
  rw [hrest] at hrest'
  exact hrest'

theorem relaned_congr {g h : Group} {F G : Nat → Nat → Word → Word} (hgh : Relaned g h F)
    (hFG : ∀ n th old, th < 64 → F n th old = G n th old) : Relaned g h G := by
  obtain ⟨hrest, hlane⟩ := hgh
  exact ⟨hrest, fun n th hth => (hlane n th hth).trans (hFG n th _ hth)⟩

/-- R185: what a write to the registers of a context makes of its partner's: the window registers alone take it. -/
def inWindow (g : Group) (F : Nat → Nat → Word → Word) (n th : Nat) (old : Word) : Word := if g.windowFrom ≤ n then F n th old else old

/-- A context that differs in vector registers alone keeps its partner and its window. -/
theorem relaned_partner {g h : Group} {F : Nat → Nat → Word → Word} (hgh : Relaned g h F) :
    h.partner = g.partner ∧ h.windowFrom = g.windowFrom := by
  rw [hgh.1]
  exact ⟨rfl, rfl⟩

/-! ### Vector registers of a context and of its partner -/

/-- The registers of context `gid`, which is `g`, take what `F` makes of them, with the partner's window registers; nothing else changes. -/
def LanesWritten (s : State) (gid : Nat) (g : Group) (F : Nat → Nat → Word → Word) (t : State) : Prop :=
  InContexts s t (fun j => j = gid ∨ g.partner = some j) ∧ (∃ h, t.group gid = some h ∧ Relaned g h F) ∧
  ∀ p x, g.partner = some p → p ≠ gid → s.group p = some x → ∃ y, t.group p = some y ∧ Relaned x y (inWindow g F)

theorem lanesWritten_congr {s t : State} {gid : Nat} {g : Group} {F G : Nat → Nat → Word → Word} (h : LanesWritten s gid g F t)
    (hFG : ∀ n th old, th < 64 → F n th old = G n th old) : LanesWritten s gid g G t := by
  obtain ⟨hframe, ⟨h, hh, hlanes⟩, hpartner⟩ := h
  refine ⟨hframe, ⟨h, hh, relaned_congr hlanes hFG⟩, fun p x hp hne hx => ?_⟩
  obtain ⟨y, hy, hlanes⟩ := hpartner p x hp hne hx
  refine ⟨y, hy, relaned_congr hlanes fun n th old hth => ?_⟩
  rw [inWindow, inWindow, hFG n th old hth]

theorem lanesWritten_trans {s t u : State} {gid : Nat} {g : Group} {F G : Nat → Nat → Word → Word} (hst : LanesWritten s gid g F t)
    (htu : ∀ h, t.group gid = some h → LanesWritten t gid h G u) : LanesWritten s gid g (fun n th old => G n th (F n th old)) u := by
  obtain ⟨hframe, ⟨h, hh, hlanes⟩, hpartner⟩ := hst
  obtain ⟨hframe', ⟨h', hh', hlanes'⟩, hpartner'⟩ := htu h hh
  obtain ⟨hsame, hwindow⟩ := relaned_partner hlanes
  rw [hsame] at hframe' hpartner'
  refine ⟨inContexts_trans hframe hframe', ⟨h', hh', relaned_trans hlanes hlanes'⟩, fun p x hp hne hx => ?_⟩
  obtain ⟨y, hy, hxy⟩ := hpartner p x hp hne hx
  obtain ⟨z, hz, hyz⟩ := hpartner' p y hp hne hy
  refine ⟨z, hz, relaned_congr (relaned_trans hxy hyz) fun n th old _ => ?_⟩
  rw [inWindow, inWindow, inWindow, hwindow]
  split <;> rfl

/-- R185: a register outside the window, or of a context without a partner, is the context's alone. -/
theorem writeV_alone {s : State} {gid n : Nat} {g : Group} (hg : s.group gid = some g) (f : Nat → Option Word)
    (hout : ∀ p, g.partner = some p → ¬ g.windowFrom ≤ n) : s.writeV gid n f = s.setGroup gid (g.setV n f) := by
  unfold State.writeV
  cases hp : g.partner with
  | none => simp only [hg, hp]
  | some p => simp only [hg, hp, hout p hp, if_false]

theorem writeV_shared {s : State} {gid n p : Nat} {g : Group} (hg : s.group gid = some g) (f : Nat → Option Word)
    (hp : g.partner = some p) (hw : g.windowFrom ≤ n) :
    s.writeV gid n f = (s.setGroup gid (g.setV n f)).modGroup p fun x => x.setV n f := by
  unfold State.writeV
  simp only [hg, hp, hw, if_true]

theorem setLane_idem (n : Nat) (f : Nat → Option Word) (m th : Nat) (old : Word) :
    setLane n f m th (setLane n f m th old) = setLane n f m th old := by
  unfold setLane
  split
  · cases f th <;> rfl
  · rfl

theorem inWindow_setLane (g : Group) (n : Nat) (f : Nat → Option Word) (m th : Nat) (old : Word) :
    inWindow g (setLane n f) m th old = if g.windowFrom ≤ n then setLane n f m th old else old := by
  unfold inWindow setLane
  by_cases hm : m = n
  · rw [hm]
  · simp only [if_neg hm, ite_self]

/-- A write to one vector register. -/
theorem writeV_lanes {s : State} {gid : Nat} {g : Group} (hg : s.group gid = some g) (n : Nat) (f : Nat → Option Word) :
    LanesWritten s gid g (setLane n f) (s.writeV gid n f) := by
  have hset := relaned_setV g n f
  have hown : InContexts s (s.setGroup gid (g.setV n f)) (fun j => j = gid ∨ g.partner = some j) :=
    inContexts_mono (MemoryHierarchy.setGroup_inContexts hg rfl) fun _ => .inl
  have hone := State.group_setGroup_same s gid (g.setV n f)
  have hother : ∀ j, j ≠ gid → (s.setGroup gid (g.setV n f)).group j = s.group j := fun j hj =>
    (State.group_setGroup s gid j _).trans (if_neg hj)
  by_cases hshared : ∃ p, g.partner = some p ∧ g.windowFrom ≤ n
  · obtain ⟨q, hq, hw⟩ := hshared
    rw [writeV_shared hg f hq hw]
    refine ⟨inContexts_trans hown (inContexts_mono (modGroup_inContexts _ q fun _ => rfl) fun j hj => .inr (hj ▸ hq)), ?_,
      fun p x hp hne hx => ?_⟩
    · by_cases hself : gid = q
      · exact ⟨_, by rw [← hself, State.group_modGroup_same, hone, Option.map_some],
          relaned_congr (relaned_trans hset (relaned_setV _ n f)) fun m th old _ => setLane_idem n f m th old⟩
      · exact ⟨_, by rw [State.group_modGroup, if_neg hself, hone], hset⟩
    · obtain rfl : q = p := Option.some.inj (hq.symm.trans hp)
      exact ⟨_, by rw [State.group_modGroup_same, hother q hne, hx, Option.map_some],
        relaned_congr (relaned_setV x n f) fun m th old _ => by rw [inWindow_setLane, if_pos hw]⟩
  · have hout : ∀ p, g.partner = some p → ¬ g.windowFrom ≤ n := fun p hp hw => hshared ⟨p, hp, hw⟩
    rw [writeV_alone hg f hout]
    exact ⟨hown, ⟨_, hone, hset⟩, fun p x hp hne hx =>
      ⟨x, (hother p hne).trans hx, rfl, fun m th _ => by rw [inWindow_setLane, if_neg (hout p hp)]⟩⟩

/-- R19: results per thread. -/
theorem putVec_lanes {s : State} {k : Iss} {g : Group} (hg : s.group k.gid = some g) (ty : EType) (d : Opnd) (f : Nat → Nat) :
    LanesWritten s k.gid g (lane k ty d false f) (s.putVec k.gid ty d k.run f) := by
  cases d with
  | vec r =>
    have hrun (th : Nat) (hth : th < 64) : ((List.range 64).map fun t =>
        if k.run.getLsbD t then some (extendTo ty (max 32 (widthOf ty)) (f t)) else none).getD th none =
        if k.run.getLsbD th then some (extendTo ty (max 32 (widthOf ty)) (f th)) else none := by
      simp [List.getD, hth]
    simp only [State.putVec]
    by_cases hw : widthOf ty = 64
    · rw [if_pos hw]
      refine lanesWritten_congr (lanesWritten_trans (writeV_lanes hg _ _) fun h hh => writeV_lanes hh _ _) fun n th old hth => ?_
      simp only [setLane, lane, hrun th hth]
      by_cases ht : k.run.getLsbD th
      · by_cases hn : n = r
        · simp [ht, hn, hw]
        · by_cases hn' : n = r + 1 <;> simp [ht, hn, hn', hw]
      · simp [ht]
    · rw [if_neg hw]
      refine lanesWritten_congr (writeV_lanes hg _ _) fun n th old hth => ?_
      simp only [setLane, lane, hrun th hth, hw]
      by_cases ht : k.run.getLsbD th <;> simp [ht]
  | _ => exact ⟨inContexts_refl s _, ⟨g, hg, rfl, fun _ _ _ => rfl⟩, fun p x _ _ hx => ⟨x, hx, rfl, fun n th _ => (ite_self _).symm⟩⟩

/-! ### Flags -/

/-- R204: every thread of the issuing context holds the flags `fl` with those that it held; nothing else changed. -/
def Raised (s : State) (k : Iss) (fl : Nat → Flags) (u : State) : Prop :=
  InContexts s u (· = k.gid) ∧
  ∃ h, u.group k.gid = some h ∧ h = { k.g with xflg := h.xflg } ∧ ∀ th, th < 64 → h.flagsOf th = k.g.flagsOf th ||| fl th

theorem raised_noFlags {s : State} {k : Iss} (hg : s.group k.gid = some k.g) : Raised s k noFlags s :=
  ⟨inContexts_refl s _, k.g, hg, rfl, fun _ _ => BitVec.or_zero.symm⟩

theorem flagsOf_orFlags (g : Group) (f : Nat → Flags) {th : Nat} (hth : th < 64) : (g.orFlags f).flagsOf th = g.flagsOf th ||| f th := by
  simp [Group.flagsOf, Group.orFlags, List.getD, hth]

theorem orFlags_raised {s : State} {k : Iss} (hg : s.group k.gid = some k.g) (f : Nat → Flags) :
    Raised s k f (s.modIss k fun g => g.orFlags f) := by
  obtain ⟨hframe, hgroup⟩ := MemoryHierarchy.modIss_became (f := fun g => g.orFlags f) hg fun _ => rfl
  exact ⟨hframe, _, hgroup, rfl, fun th hth => flagsOf_orFlags k.g f hth⟩

theorem raised_congr {s u : State} {k : Iss} {f f' : Nat → Flags} (h : Raised s k f u) (hf : ∀ th, th < 64 → f th = f' th) :
    Raised s k f' u := by
  obtain ⟨hframe, x, hx, hrest, hflags⟩ := h
  exact ⟨hframe, x, hx, hrest, fun th hth => hf th hth ▸ hflags th hth⟩

/-! ### Results -/

section
variable {s u : State} {k : Iss} {fl : Nat → Flags} (hu : Raised s k fl u) (ty : EType) (d : Opnd) (f : Nat → Nat)
include hu

/-- R19: a result per thread, of an instruction whose threads have raised their flags. -/
theorem putVec_wrote : Wrote s k ty d false f fl (u.putVec k.gid ty d k.run f) := by
  obtain ⟨hframe, x, hx, hrest, hflags⟩ := hu
  obtain ⟨hstep, ⟨h, hh, hsame, hlanes⟩, hpart⟩ := putVec_lanes hx ty d f
  have hpartner : x.partner = k.g.partner := by rw [hrest]
  have hwindow : x.windowFrom = k.g.windowFrom := by rw [hrest]; rfl
  have hsreg : ∀ n, x.sreg n = k.g.sreg n := fun n => by rw [hrest]; rfl
  have hvreg : ∀ n th, x.vreg n th = k.g.vreg n th := fun n th => by rw [hrest]; rfl
  rw [hpartner] at hstep hpart
  refine ⟨inContexts_trans (inContexts_mono hframe fun _ => .inl) hstep, ⟨h, hh, ?_, fun n => ?_, fun n th hth => ?_, fun th hth => ?_⟩,
    fun p y hp hne hy => ?_⟩
  · rw [hsame, hrest]
  · rw [hsame, if_neg (by simp)]
    exact hsreg n
  · rw [hlanes n th hth, hvreg]
  · rw [hsame]
    exact hflags th hth
  · obtain ⟨z, hz, hsame, hlanes⟩ := hpart p y hp hne ((inContexts_other hframe hne).trans hy)
    exact ⟨z, hz, hsame, fun n th hth => by rw [hlanes n th hth, inWindow, hwindow]⟩

end

/-- A uniform result: scalars and flags of the issuing context alone have changed. -/
theorem wrote_of_scalars {s t : State} {k : Iss} {x : Group} {ty : EType} {d : Opnd} {f : Nat → Nat} {fl : Nat → Flags}
    (hframe : InContexts s t (· = k.gid)) (hx : t.group k.gid = some x) (hrest : x = { k.g with s := x.s, xflg := x.xflg })
    (hsreg : ∀ n, x.sreg n = if d = .sca n then dword (extendTo ty 64 (f 0)) else k.g.sreg n)
    (hflags : ∀ th, th < 64 → x.flagsOf th = k.g.flagsOf th ||| fl th) : Wrote s k ty d true f fl t := by
  have hlane : ∀ n th old, lane k ty d true f n th old = old := fun n th old => by cases d <;> simp [lane]
  refine ⟨inContexts_mono hframe fun _ => .inl, ⟨x, hx, by rw [hrest], fun n => by simpa using hsreg n, fun n th _ => ?_, hflags⟩,
    fun p y _ hne hy => ⟨y, (inContexts_other hframe hne).trans hy, rfl, fun n th _ => by rw [hlane, ite_self]⟩⟩
  rw [hlane, hrest]
  rfl

section
variable {s u : State} {k : Iss} {fl : Nat → Flags} (hu : Raised s k fl u) (ty : EType) (d : Opnd) (f : Nat → Nat)
include hu

/-- R19: one result, of a uniform instruction. -/
theorem putSca_wrote : Wrote s k ty d true f fl (u.putSca k.gid ty d (f 0)) := by
  obtain ⟨hframe, x, hx, hrest, hflags⟩ := hu
  have hsreg : ∀ n, x.sreg n = k.g.sreg n := fun n => by rw [hrest]; rfl
  cases d with
  | sca r =>
    have hwrite : (u.writeS k.gid r (dword (extendTo ty 64 (f 0)))).group k.gid =
        some { x with s := KMap.put x.s r (dword (extendTo ty 64 (f 0))) } := by
      rw [State.writeS_eq, State.group_modGroup_same, hx, Option.map_some]
    refine wrote_of_scalars (inContexts_trans hframe (modGroup_inContexts u k.gid fun _ => rfl)) hwrite (by rw [hrest]) (fun n => ?_) hflags
    simp only [Group.sreg, KMap.getD_put, Opnd.sca.injEq, eq_comm (a := r)]
    exact if_congr Iff.rfl rfl (hsreg n)
  | _ => exact wrote_of_scalars hframe hx (by rw [hrest]) (fun n => by simpa using hsreg n) hflags

/-- R19: the results of an instruction. -/
theorem put_wrote (uni : Bool) : Wrote s k ty d uni f fl (u.put k ty d uni f) := by
  cases uni with
  | false => exact putVec_wrote hu ty d f
  | true => exact putSca_wrote hu ty d f

end

/-- The results that an instruction leaves are those of the threads that write. -/
theorem wrote_congr {s t : State} {k : Iss} {ty : EType} {d : Opnd} {uni : Bool} {f f' : Nat → Nat} {fl : Nat → Flags}
    (h : Wrote s k ty d uni f fl t) (hone : uni = true → f 0 = f' 0)
    (heach : uni = false → ∀ th, th < 64 → k.run.getLsbD th = true → f th = f' th) : Wrote s k ty d uni f' fl t := by
  have hlane : ∀ n th old, th < 64 → lane k ty d uni f n th old = lane k ty d uni f' n th old := by
    intro n th old hth
    cases d with
    | vec r =>
      unfold lane
      by_cases hw : uni = false ∧ k.run.getLsbD th = true
      · simp only [if_pos hw, heach hw.1 th hth hw.2]
      · simp only [if_neg hw]
    | _ => rfl
  obtain ⟨hframe, ⟨x, hx, hrest, hsreg, hvreg, hflags⟩, hpartner⟩ := h
  refine ⟨hframe, ⟨x, hx, hrest, fun n => (hsreg n).trans ?_, fun n th hth => (hvreg n th hth).trans (hlane n th _ hth), hflags⟩,
    fun p y hp hne hy => ?_⟩
  · split
    · next hn => rw [hone hn.1]
    · rfl
  · obtain ⟨z, hz, hzrest, hzlane⟩ := hpartner p y hp hne hy
    exact ⟨z, hz, hzrest, fun n th hth => by rw [hzlane n th hth, hlane n th _ hth]⟩

end Sys2Proof.NumberFormats
end

section
/-!
PROOFS. Floating instructions: the flags that their threads raise, whether an enabled exception traps, and what is delivered where none does
(R203 to R205, R246 to R248).
-/

namespace Sys2Proof.NumberFormats

open Sys2Proof Sys2Proof.Machine Sys2Proof.Claims

/-! ### Threads and checks -/

theorem mem_threadsOf {m : BitVec 64} {th : Nat} : th ∈ threadsOf m ↔ th < 64 ∧ m.getLsbD th = true := by
  simp [threadsOf]

theorem maskOf_getLsbD (ts : List Nat) {th : Nat} (hth : th < 64) : (maskOf ts).getLsbD th = decide (th ∈ ts) := by
  rw [maskOf, MemoryHierarchy.maskOf_foldl_getLsbD _ _ hth]
  simp

theorem firstChk_passes {cs : List Chk} (h : firstChk cs = none) {c : Chk} (hc : c ∈ cs) : c = none := by
  induction cs with
  | nil => cases hc
  | cons x cs ih =>
    cases x with
    | some y => cases h
    | none =>
      rcases List.mem_cons.mp hc with rfl | hc
      · rfl
      · exact ih h hc

/-- R187: where an instruction that a quill context executes only if `available` passes its checks. -/
theorem available_of_issues {s : State} {k : Iss} {cs : List Chk} {available : Bool} (hi : s.Issues k cs) (hc : quillChk k available ∈ cs)
    (hquill : k.g.quill = true) : available = true := by
  have hpass := firstChk_passes hi.2 hc
  simpa [quillChk, failIf, hquill] using hpass

theorem foldl_or_getLsbD {α : Type} {w : Nat} (l : List α) (g : α → BitVec w) (m : BitVec w) (j : Nat) :
    (l.foldl (fun m x => m ||| g x) m).getLsbD j = (m.getLsbD j || l.any fun x => (g x).getLsbD j) := by
  induction l generalizing m with
  | nil => simp
  | cons x l ih => rw [List.foldl_cons, ih, BitVec.getLsbD_or, List.any_cons, Bool.or_assoc]

/-! ### The threads that perform -/

/-- R246: outside a quill context, every performing thread, with the one result of a uniform operation or with its own. -/
theorem fpPerformed_threads {k : Iss} (hquill : k.g.quill = false) (uni : Bool) (f : Nat → FRes) : fpPerformed k uni f =
    (threadsOf (if uni then k.active else k.run)).map fun th => (th, f (if uni then 0 else th)) := by
  unfold fpPerformed fpThreads
  cases uni <;> simp [hquill]

theorem fpPerformed_quill {k : Iss} (hquill : k.g.quill = true) (uni : Bool) (f : Nat → FRes) : fpPerformed k uni f = [(0, f 0)] := by
  simp [fpPerformed, hquill]

theorem mem_performing {k : Iss} {uni : Bool} {th : Nat} :
    th ∈ threadsOf (if uni then k.active else k.run) ↔ th < 64 ∧ performs k uni th = true := by
  rw [mem_threadsOf]
  cases uni <;> rfl

theorem fpRaised_of_performs {k : Iss} {uni : Bool} {f : Nat → FRes} {th : Nat} (hquill : k.g.quill = false) (hth : th < 64)
    (hp : performs k uni th = true) : fpRaised k uni f th = (f (if uni then 0 else th)).2 := by
  simp [fpRaised, hquill, hth, hp]

theorem fpRaised_idle {k : Iss} {uni : Bool} {f : Nat → FRes} {th : Nat} (hp : ¬ (th < 64 ∧ performs k uni th = true)) :
    fpRaised k uni f th = 0 := by
  unfold fpRaised
  rw [if_neg hp, ite_self]

/-! ### Flags -/

/-- The flags of one thread among those of the threads `ts`. -/
theorem foldl_flags (ts : List Nat) (r : Nat → FRes) (th : Nat) (m : Flags) :
    (ts.map fun u => (u, r u)).foldl (fun m p => if p.1 = th then m ||| p.2.2 else m) m = if th ∈ ts then m ||| (r th).2 else m := by
  induction ts generalizing m with
  | nil => simp
  | cons u ts ih =>
    rw [List.map_cons, List.foldl_cons, ih]
    by_cases hu : u = th
    · subst hu
      simp [BitVec.or_assoc]
    · simp [hu, Ne.symm hu]

/-- R204, R246: the threads of the issuing context hold the flags that they raised; a quill context holds none. -/
theorem fpFlags_raised {s : State} {k : Iss} (hg : s.group k.gid = some k.g) (uni : Bool) (f : Nat → FRes) :
    Raised s k (fpRaised k uni f) (s.fpFlags k (fpPerformed k uni f)) := by
  unfold State.fpFlags
  cases hquill : k.g.quill with
  | true => exact raised_congr (raised_noFlags hg) fun th _ => by simp [noFlags, fpRaised, hquill]
  | false =>
    refine raised_congr (orFlags_raised hg _) fun th hth => ?_
    rw [fpPerformed_threads hquill, foldl_flags _ fun th => f (if uni then 0 else th)]
    by_cases hp : performs k uni th = true
    · rw [if_pos (mem_performing.mpr ⟨hth, hp⟩), fpRaised_of_performs hquill hth hp]
      exact BitVec.zero_or
    · rw [if_neg fun h => hp (mem_performing.mp h).2, fpRaised_idle fun h => hp h.2]

/-! ### Traps -/

/-- R205: a performing thread traps when it raises an enabled exception. -/
theorem mem_trappers {k : Iss} {uni : Bool} {f : Nat → FRes} (hquill : k.g.quill = false) {r : Nat × FRes} :
    r ∈ trappers k (fpPerformed k uni f) ↔
      r.1 < 64 ∧ r.2 = f (if uni then 0 else r.1) ∧ performs k uni r.1 = true ∧ fpRaised k uni f r.1 &&& k.enables ≠ 0 := by
  obtain ⟨th, x⟩ := r
  simp only [trappers, fpPerformed_threads hquill, List.mem_filter, List.mem_map, mem_performing, Prod.mk.injEq, decide_eq_true_eq]
  constructor
  · rintro ⟨⟨_, ⟨hth, hp⟩, rfl, rfl⟩, htrap⟩
    exact ⟨hth, rfl, hp, fpRaised_of_performs hquill hth hp ▸ htrap⟩
  · rintro ⟨hth, rfl, hp, htrap⟩
    exact ⟨⟨th, ⟨hth, hp⟩, rfl, rfl⟩, fpRaised_of_performs hquill hth hp ▸ htrap⟩

theorem raised_performs {k : Iss} {uni : Bool} {f : Nat → FRes} {th : Nat} (h : fpRaised k uni f th &&& k.enables ≠ 0) :
    th < 64 ∧ performs k uni th = true := by
  by_contra hp
  exact h (by rw [fpRaised_idle hp]; exact BitVec.zero_and)

/-- Thread `th` is among the trapping threads. -/
theorem mem_trapping {k : Iss} {uni : Bool} {f : Nat → FRes} (hquill : k.g.quill = false) {th : Nat} :
    th ∈ (trappers k (fpPerformed k uni f)).map Prod.fst ↔ fpRaised k uni f th &&& k.enables ≠ 0 := by
  rw [List.mem_map]
  constructor
  · rintro ⟨r, hr, rfl⟩
    obtain ⟨-, -, -, htrap⟩ := (mem_trappers hquill).mp hr
    exact htrap
  · intro h
    obtain ⟨hth, hp⟩ := raised_performs h
    exact ⟨(th, f (if uni then 0 else th)), (mem_trappers hquill).mpr ⟨hth, rfl, hp, h⟩, rfl⟩

/-- R205: no thread traps exactly when no enabled exception is raised. -/
theorem trappers_nil_iff (k : Iss) (uni : Bool) (f : Nat → FRes) : trappers k (fpPerformed k uni f) = [] ↔ FpQuiet k uni f := by
  unfold FpQuiet
  cases hquill : k.g.quill with
  | true => simp [trappers, fpPerformed_quill hquill]
  | false =>
    rw [if_neg Bool.false_ne_true, ← List.map_eq_nil_iff (f := Prod.fst), List.eq_nil_iff_forall_not_mem]
    refine ⟨fun h th _ => not_not.mp fun hne => h th ((mem_trapping hquill).mpr hne), fun h th hmem => ?_⟩
    have hne := (mem_trapping hquill).mp hmem
    exact hne (h th (raised_performs hne).1)

/-- The detail of the trap holds the enabled flags that the trapping threads raised. -/
theorem trapDetail_testBit {k : Iss} {uni : Bool} {f : Nat → FRes} (hquill : k.g.quill = false) (j : Nat) :
    ((trappers k (fpPerformed k uni f)).foldl (fun m r => m ||| (r.2.2 &&& k.enables)) 0).toNat.testBit j = true ↔
      ∃ th < 64, (fpRaised k uni f th &&& k.enables).getLsbD j = true := by
  have hfold := foldl_or_getLsbD (trappers k (fpPerformed k uni f)) (fun r => r.2.2 &&& k.enables) 0 j
  rw [BitVec.testBit_toNat, hfold]
  simp only [BitVec.ofNat_eq_ofNat, BitVec.getLsbD_zero, Bool.false_or, List.any_eq_true]
  constructor
  · rintro ⟨⟨th, x⟩, hr, hj⟩
    obtain ⟨hth, hx, hp, -⟩ := (mem_trappers hquill).mp hr
    refine ⟨th, hth, ?_⟩
    rw [fpRaised_of_performs hquill hth hp, ← hx]
    exact hj
  · rintro ⟨th, hth, hj⟩
    have hne : fpRaised k uni f th &&& k.enables ≠ 0 := fun h => by simp [h] at hj
    obtain ⟨-, hp⟩ := raised_performs hne
    refine ⟨(th, f (if uni then 0 else th)), (mem_trappers hquill).mpr ⟨hth, rfl, hp, hne⟩, ?_⟩
    rw [fpRaised_of_performs hquill hth hp] at hj
    exact hj

/-- R205, R246: the trap that the results of the performing threads take. -/
theorem fpTrap_floatTrapped {s : State} {k : Iss} (hg : s.group k.gid = some k.g) (uni : Bool) (f : Nat → FRes) :
    FloatTrapped s k uni f (.next (s.fpTrap k (fpPerformed k uni f))) := by
  refine ⟨s.fpFlags k (fpPerformed k uni f), _, _, rfl, fun hquill => ⟨if_pos hquill, ?_⟩, fun hquill => ?_⟩
  · by_cases hone : (f 0).2 &&& k.enables = 0
    · rw [(trappers_nil_iff k uni f).mpr (by rwa [FpQuiet, if_pos hquill]), hone]
      rfl
    · have htrap : trappers k (fpPerformed k uni f) = [(0, f 0)] := by
        rw [fpPerformed_quill hquill]
        exact List.filter_cons_of_pos (decide_eq_true hone)
      rw [htrap]
      exact congrArg BitVec.toNat BitVec.zero_or
  · obtain ⟨hframe, hheld⟩ := fpFlags_raised hg uni f
    refine ⟨hframe, hheld, fun th hth => ?_, trapDetail_testBit hquill⟩
    rw [maskOf_getLsbD _ hth]
    exact decide_eq_decide.mpr (mem_trapping hquill)

section
variable {s : State} {k : Iss} {uni : Bool} {f : Nat → FRes}

theorem fpStore_traps (hq : ¬ FpQuiet k uni f) (store : State → (Nat → Nat) → State) :
    s.fpStore k uni f store = s.fpTrap k (fpPerformed k uni f) := if_pos fun h => hq ((trappers_nil_iff k uni f).mp h)

theorem fpPut_traps (hq : ¬ FpQuiet k uni f) (ty : EType) (d : Opnd) : s.fpPut k ty d uni f = s.fpTrap k (fpPerformed k uni f) :=
  fpStore_traps hq _

theorem fpLong_traps (hq : ¬ FpQuiet k uni f) (ty : EType) (d : Opnd) : s.fpLong k ty d uni f = s.fpTrap k (fpPerformed k uni f) :=
  if_pos fun h => hq ((trappers_nil_iff k uni f).mp h)

/-- An instruction that passes its checks and comes to an enabled exception. -/
theorem insn_floatTrapped {chk : Iss → List Chk} {body : Iss → State} (hi : s.Issues k (chk k))
    (hbody : body k = s.fpTrap k (fpPerformed k uni f)) : FloatTrapped s k uni f (s.insn chk body) := by
  rw [State.insn_pass hi, hbody]
  exact fpTrap_floatTrapped (MemoryHierarchy.issuer_context hi.1).1 uni f

end

/-! ### Delivery -/

/-- What the store of a floating instruction is given: in each performing thread its result, or the one result of a uniform operation. -/
def delivered (k : Iss) (uni : Bool) (f : Nat → FRes) : Nat → Nat :=
  let rs := fpPerformed k uni f
  let vs := (List.range 64).map fun t => ((rs.find? fun r => r.1 == t).map fun r => r.2.1).getD 0
  if uni then fun _ => (rs.head?.map fun r => r.2.1).getD ((f 0).1) else fun t => vs.getD t 0

theorem fpStore_quiet {k : Iss} {uni : Bool} {f : Nat → FRes} (hq : FpQuiet k uni f) (s : State) (store : State → (Nat → Nat) → State) :
    s.fpStore k uni f store = store (s.fpFlags k (fpPerformed k uni f)) (delivered k uni f) :=
  if_neg (not_not.mpr ((trappers_nil_iff k uni f).mpr hq))

theorem delivered_uniform (k : Iss) (f : Nat → FRes) (th : Nat) : delivered k true f th = (f 0).1 := by
  cases hquill : k.g.quill with
  | true => simp [delivered, fpPerformed_quill hquill]
  | false =>
    simp only [delivered, fpPerformed_threads hquill, if_true, List.head?_map]
    cases (threadsOf k.active).head? <;> rfl

/-- The entry of one thread among those of the threads `ts`. -/
theorem find?_thread {ts : List Nat} {th : Nat} (h : th ∈ ts) (r : Nat → FRes) :
    (ts.map fun u => (u, r u)).find? (fun p => p.1 == th) = some (th, r th) := by
  induction ts with
  | nil => cases h
  | cons u ts ih =>
    by_cases hu : u = th
    · simp [hu]
    · rw [List.map_cons, List.find?_cons_of_neg (by simpa using hu)]
      exact ih ((List.mem_cons.mp h).resolve_left fun heq => hu heq.symm)

theorem delivered_thread {k : Iss} (hquill : k.g.quill = false) (f : Nat → FRes) {th : Nat} (hth : th < 64)
    (hrun : k.run.getLsbD th = true) : delivered k false f th = (f th).1 := by
  have hmem : th ∈ threadsOf k.run := mem_threadsOf.mpr ⟨hth, hrun⟩
  simp only [delivered, fpPerformed_threads hquill, Bool.false_eq_true, if_false]
  simp only [List.getD, List.getElem?_map, List.getElem?_range hth, Option.map_some, Option.getD_some, find?_thread hmem f]

section
variable {s : State} {k : Iss} {uni : Bool} {f : Nat → FRes}

/-- R247: the results and the flags of a floating instruction that raises no enabled exception. -/
theorem fpPut_wrote (hg : s.group k.gid = some k.g) (hquill : k.g.quill = true → uni = true) (hq : FpQuiet k uni f) (ty : EType) (d : Opnd) :
    Wrote s k ty d uni (fun th => (f th).1) (fpRaised k uni f) (s.fpPut k ty d uni f) := by
  rw [State.fpPut, fpStore_quiet hq]
  refine wrote_congr (put_wrote (fpFlags_raised hg uni f) ty d _ uni) (fun huni => ?_) fun huni th hth hrun => ?_
  · subst huni
    exact delivered_uniform k f 0
  · subst huni
    exact delivered_thread (Bool.not_eq_true _ ▸ fun h => Bool.false_ne_true (hquill h)) f hth hrun

/-- An instruction that passes its checks, one of which keeps it from a quill context unless it is uniform. -/
theorem insn_fpPut_wrote {chk : Iss → List Chk} {ty : Iss → EType} {d : Opnd} {f : Iss → Nat → FRes} (hi : s.Issues k (chk k))
    (hquill : quillChk k uni ∈ chk k) (hq : FpQuiet k uni (f k)) :
    ∃ t, s.insn chk (fun i => s.fpPut i (ty i) d uni (f i)) = .next t ∧
      Wrote s k (ty k) d uni (fun th => (f k th).1) (fpRaised k uni (f k)) t :=
  ⟨_, State.insn_pass hi _, fpPut_wrote (MemoryHierarchy.issuer_context hi.1).1 (available_of_issues hi hquill) hq _ _⟩

end

end Sys2Proof.NumberFormats
end

section
/-!
PROOFS. The floating instructions: their results where no enabled exception is raised, and their traps where one is (R246 to R262).
-/

namespace Sys2Proof.NumberFormats

open Sys2Proof Sys2Proof.Machine Sys2Proof.Claims

/-! ### Values (R215) -/

theorem widthOf_pos (ty : EType) : 0 < widthOf ty := by cases ty <;> decide

/-- R215: val of a pattern. -/
theorem val_eq_valOf (ty : EType) (x : Nat) : val ty x = valOf ty x := by
  have hhalf : 2 ^ widthOf ty = 2 * 2 ^ (widthOf ty - 1) := by
    rw [← pow_succ', Nat.sub_add_cancel (widthOf_pos ty)]
  unfold val valOf
  cases isSigned ty with
  | false => simp
  | true =>
    simp only [if_true, BitVec.toInt_eq_toNat_cond, BitVec.toNat_ofNat, Bool.true_and, decide_eq_true_eq]
    by_cases hneg : 2 ^ (widthOf ty - 1) ≤ x % 2 ^ widthOf ty
    · rw [if_neg (by omega), if_pos hneg]
    · rw [if_pos (by omega), if_neg hneg]

/-! ### The instructions of the tables -/

theorem exec_floatOps {e : (Opnd → Opnd → Opnd → Instr) × (Iss → Nat → Nat → Nat → FRes)} (he : e ∈ floatOps) (d a b : Opnd) (s : State) :
    exec (e.1 d a b) s = s.fp3 d a b e.2 := by
  simp only [floatOps, List.mem_cons, List.not_mem_nil, or_false] at he
  rcases he with rfl | rfl | rfl | rfl | rfl | rfl | rfl | rfl | rfl | rfl <;> rfl

theorem exec_floatOneOps {e : (Opnd → Opnd → Byte → Instr) × (Iss → Nat → FRes)} (he : e ∈ floatOneOps) (d a : Opnd) (u : Byte) (s : State) :
    exec (e.1 d a u) s = s.fp2 d a u e.2 := by
  simp only [floatOneOps, List.mem_cons, List.not_mem_nil, or_false] at he
  rcases he with rfl | rfl | rfl <;> rfl

theorem exec_floatLongOps {e : (Opnd → Opnd → Byte → Instr) × (Iss → Nat → FRes)} (he : e ∈ floatLongOps) (d a : Opnd) (u : Byte)
    (s : State) : exec (e.1 d a u) s = s.fpL d a u e.2 := by
  simp only [floatLongOps, List.mem_cons, List.not_mem_nil, or_false] at he
  rcases he with rfl | rfl | rfl | rfl | rfl | rfl | rfl <;> rfl

theorem exec_floatCompareOps {e : (Byte → Opnd → Opnd → Instr) × Bool × (Option Int → Bool)} (he : e ∈ floatCompareOps) (d : Byte)
    (a b : Opnd) (s : State) : exec (e.1 d a b) s = s.fcmp d a b e.2.1 e.2.2 := by
  simp only [floatCompareOps, List.mem_cons, List.not_mem_nil, or_false] at he
  rcases he with rfl | rfl | rfl | rfl <;> rfl

theorem exec_pairOps {e : (Opnd → Opnd → Opnd → Instr) × (Iss → Nat → Nat → Nat → FRes)} (he : e ∈ pairOps) (d a b : Opnd) (s : State) :
    exec (e.1 d a b) s = s.pair2 d a b e.2 := by
  simp only [pairOps, List.mem_cons, List.not_mem_nil, or_false] at he
  rcases he with rfl | rfl | rfl <;> rfl

theorem exec_dotOps {e : (Opnd → Opnd → Opnd → Instr) × Nat × (EType → Bool)} (he : e ∈ dotOps) (d a b : Opnd) (s : State) :
    exec (e.1 d a b) s = s.pdot d a b e.2.1 e.2.2 := by
  simp only [dotOps, List.mem_cons, List.not_mem_nil, or_false] at he
  rcases he with rfl | rfl | rfl <;> rfl

/-- R241: the reductions and their operators. -/
def reductions : List ((Opnd → Opnd → Byte → Instr) × RedOp) := [(.gredadd, .add), (.gredmin, .min), (.gredmax, .max)]

theorem exec_reductions {e : (Opnd → Opnd → Byte → Instr) × RedOp} (he : e ∈ reductions) (d a : Opnd) (u : Byte) (s : State) :
    exec (e.1 d a u) s = s.gred d a u e.2 := by
  simp only [reductions, List.mem_cons, List.not_mem_nil, or_false] at he
  rcases he with rfl | rfl | rfl <;> rfl

theorem exec_fscale (d a b : Opnd) (s : State) : exec (.fscale d a b) s =
    s.insn (fun i => aluChk i (fpTy i.ty) d [(2, a, true), (3, b, false)]) fun i => s.fpPut i i.ty d (uniform d [a, b]) fun t =>
      fpScale i.ty i.mode i.teuf (i.src i.ty a t) (val .i32 (i.src .i32 b t)) := by
  simp only [val_eq_valOf]
  rfl

/-- R254: the flags of a compare. -/
theorem flIf_anySnan (c : Bool) (ty : EType) (x y : Nat) : flIf (c || anySnan [(ty, x), (ty, y)]) flNV =
    if c || ((fval ty x).isSnan || (fval ty y).isSnan) then flNV else 0 := by
  simp [flIf, anySnan]

theorem quillChk_mem_aluChk (k : Iss) (ok : Bool) (d : Opnd) (srcs : List (Nat × Opnd × Bool)) :
    quillChk k (uniform d (srcs.map fun x => x.2.1)) ∈ aluChk k ok d srcs := by simp [aluChk]

/-! ### O12 -/

/-- Settles O12: the instructions of each shape deliver through `State.fpPut`, whose results are those of `insn_fpPut_wrote`. -/
theorem floatResults : Obligations.FloatResults := by
  unfold Obligations.FloatResults
  refine ⟨?three, ?two, ?scale⟩
  case three =>
    intro e he d a b s k hi f uni hq
    rw [exec_floatOps he]
    exact insn_fpPut_wrote hi (quillChk_mem_aluChk ..) hq
  case two =>
    intro e he d a u s k hi f uni hq
    rw [exec_floatOneOps he]
    exact insn_fpPut_wrote hi (List.mem_append_left _ (quillChk_mem_aluChk ..)) hq
  case scale =>
    intro d a b s k hi f uni hq
    rw [exec_fscale]
    exact insn_fpPut_wrote hi (quillChk_mem_aluChk ..) hq

/-! ### Reductions and scans -/

/-- R238: a cross-lane operation does not run in a quill context: its threads are those that perform. -/
theorem crossLane_performed {k : Iss} (hquill : k.g.quill = false) (f : Nat → FRes) :
    fpPerformed k false f = (threadsOf k.run).map fun th => (th, f th) := fpPerformed_threads hquill false f

theorem not_quill {s : State} {k : Iss} {cs : List Chk} (hi : s.Issues k cs) (hc : quillChk k false ∈ cs) : k.g.quill = false :=
  Bool.not_eq_true _ ▸ fun h => Bool.false_ne_true (available_of_issues hi hc h)

theorem gred_traps {s : State} {k : Iss} {d a : Opnd} {u : Byte} {op : RedOp} (hi : s.Issues k [typeChk (redTy k.ty), quillChk k false,
      dstChk k 1 d (wide k.ty), srcChk k 2 a (wide k.ty) (k.ty == .f64), zeroChk 3 u])
    (hq : ¬ FpQuiet k false fun _ => k.reduce op ((threadsOf k.run).map (k.src k.ty a))) :
    FloatTrapped s k false (fun _ => k.reduce op ((threadsOf k.run).map (k.src k.ty a))) (s.gred d a u op) := by
  have hrs := crossLane_performed (not_quill hi (by simp)) fun _ => k.reduce op ((threadsOf k.run).map (k.src k.ty a))
  refine insn_floatTrapped (chk := fun i => [typeChk (redTy i.ty), quillChk i false, dstChk i 1 d (wide i.ty),
    srcChk i 2 a (wide i.ty) (i.ty == .f64), zeroChk 3 u]) hi ?_
  rw [hrs]
  exact if_pos fun h => hq ((trappers_nil_iff _ _ _).mp (hrs ▸ h))

/-- R242: what a scan comes to in thread `th`: the reduction over the threads up to it, or before it. -/
def scanned (k : Iss) (o : RedOp) (op : Byte) (a : Opnd) (th : Nat) : FRes :=
  k.reduce o (((threadsOf k.run).filter fun u => if op.getLsbD 2 then u < th else u ≤ th).map (k.src k.ty a))

theorem scan_results (k : Iss) (o : RedOp) (op : Byte) (a : Opnd) :
    (((threadsOf k.run).map fun t => (t, k.src k.ty a t)).map fun p => (p.1, k.reduce o
      ((((threadsOf k.run).map fun t => (t, k.src k.ty a t)).filter fun q => if op.getLsbD 2 then q.1 < p.1 else q.1 ≤ p.1).map Prod.snd))) =
    (threadsOf k.run).map fun th => (th, scanned k o op a th) := by
  simp only [List.map_map, List.filter_map, scanned]
  rfl

theorem gscan_traps {s : State} {k : Iss} {d a : Opnd} {op : Byte} {o : RedOp} (ho : scanOp op = some o)
    (hi : s.Issues k [typeChk (redTy k.ty), quillChk k false, vecChk k 1 d (wide k.ty), srcChk k 2 a (wide k.ty) (k.ty == .f64),
      failIf (scanOp op == none || decide (8 ≤ op.toNat)) 2 3])
    (hq : ¬ FpQuiet k false (scanned k o op a)) : FloatTrapped s k false (scanned k o op a) (exec (.gscan d a op) s) := by
  have hrs := crossLane_performed (not_quill hi (by simp)) (scanned k o op a)
  refine insn_floatTrapped (chk := fun i => [typeChk (redTy i.ty), quillChk i false, vecChk i 1 d (wide i.ty),
    srcChk i 2 a (wide i.ty) (i.ty == .f64), failIf (scanOp op == none || decide (8 ≤ op.toNat)) 2 3]) hi ?_
  simp only [ho, scan_results]
  rw [hrs]
  exact if_pos fun h => hq ((trappers_nil_iff _ _ _).mp (hrs ▸ h))

/-! ### O16 -/

/-- Settles O16: each instruction's body takes the trap of what its threads performed, which `fpTrap_floatTrapped` describes. -/
theorem floatTraps : Obligations.FloatTraps := by
  unfold Obligations.FloatTraps
  refine ⟨⟨?three, ?two, ?scale, ?div, ?compare⟩, ⟨?cvt, ?cvtn, ?cvtw, ?pair, ?dot⟩, ?reduce, ?scan⟩
  case three =>
    intro e he d a b s k hi f hq
    rw [exec_floatOps he]
    exact insn_floatTrapped hi (fpPut_traps hq _ _)
  case two =>
    intro e he d a u s k hi f hq
    rcases List.mem_append.mp he with he | he
    · rw [exec_floatOneOps he]
      exact insn_floatTrapped hi (fpPut_traps hq _ _)
    · rw [exec_floatLongOps he]
      exact insn_floatTrapped hi (fpLong_traps hq _ _)
  case scale =>
    intro d a b s k hi f hq
    rw [exec_fscale]
    exact insn_floatTrapped hi (fpPut_traps hq _ _)
  case div => exact fun d a b s k hi hq => insn_floatTrapped hi (fpLong_traps hq _ _)
  case compare =>
    intro e he d a b s k hi c snan f uni hq
    rw [exec_floatCompareOps he]
    unfold State.fcmp
    simp only [flIf_anySnan]
    exact insn_floatTrapped hi (fpStore_traps hq _)
  case cvt => exact fun d a c s k hi hq => insn_floatTrapped hi (fpPut_traps hq _ _)
  case cvtn => exact fun d a c s k hi hq => insn_floatTrapped hi (fpStore_traps hq _)
  case cvtw => exact fun d a c s k hi hq => insn_floatTrapped hi (fpPut_traps hq _ _)
  case pair =>
    intro e he d a b s k hi half f hq
    rw [exec_pairOps he]
    exact insn_floatTrapped hi (fpPut_traps hq _ _)
  case dot =>
    intro e he d a b s k hi hfloat f hq
    rw [exec_dotOps he]
    refine insn_floatTrapped hi ?_
    simp only [hfloat, Bool.false_eq_true, if_false]
    exact fpPut_traps hq _ _
  case reduce =>
    intro e he d a u s k hi f hq
    rw [exec_reductions he]
    exact gred_traps hi hq
  case scan => exact fun d a op o s k ho hi hq => gscan_traps ho hi hq

end Sys2Proof.NumberFormats
end

section
/-!
PROOFS. The integer patterns of R215 to R225: wrap and sat, the extension of a pattern, logic, shifts, fields and counts. Each operation of
the model, which works on natural numbers, is the manual's on a bit vector of the type's width.
-/

namespace Sys2Proof.IntegerControl

open Sys2Proof Sys2Proof.Machine Sys2Proof.Claims Sys2Proof.NumberFormats

/-! ### Values and ranges (R215) -/

theorem valOf_eq_val (ty : EType) : valOf ty = val ty := (funext (val_eq_valOf ty)).symm

theorem wrapT_eq_wrap (ty : EType) (v : Int) : wrapT ty v = wrap ty v := (BitVec.toNat_ofInt v).symm

theorem satT_eq_sat (ty : EType) (v : Int) : satT ty v = sat ty v := by
  unfold satT sat minOf maxOf
  simp only [wrapT_eq_wrap]
  cases isSigned ty <;> simp

theorem wrapSat_eq (k : Iss) (v : Int) : k.wrapSat v = wrapOrSat k.sat k.ty v := by
  rw [Iss.wrapSat, wrapOrSat, satT_eq_sat, wrapT_eq_wrap]

/-- A pattern is recovered from its value. -/
theorem wrap_val (ty : EType) (x : Nat) : wrap ty (val ty x) = x % 2 ^ widthOf ty := by
  unfold wrap val
  cases isSigned ty with
  | true => simp
  | false => rw [if_neg Bool.false_ne_true, BitVec.ofInt_natCast, BitVec.ofNat_toNat, BitVec.setWidth_eq, BitVec.toNat_ofNat]

theorem wrap_val_of_lt {ty : EType} {x : Nat} (hx : x < 2 ^ widthOf ty) : wrap ty (val ty x) = x := by
  rw [wrap_val, Nat.mod_eq_of_lt hx]

theorem two_pow_width (ty : EType) : 2 ^ widthOf ty = 2 * 2 ^ (widthOf ty - 1) := by
  rw [← pow_succ', Nat.sub_add_cancel (widthOf_pos ty)]

/-- The value of a pattern lies in the type's range. -/
theorem val_mem_range (ty : EType) (x : Nat) : minOf ty ≤ val ty x ∧ val ty x ≤ maxOf ty := by
  have hlt : x % 2 ^ widthOf ty < 2 ^ widthOf ty := Nat.mod_lt _ (Nat.two_pow_pos _)
  have hhalf := two_pow_width ty
  rw [val_eq_valOf]
  unfold valOf minOf maxOf
  cases isSigned ty with
  | false => simp; omega
  | true =>
    simp only [Bool.true_and, decide_eq_true_eq, if_true]
    split <;> omega

/-- A value of the type's range is recovered from its pattern. -/
theorem val_wrap {ty : EType} {v : Int} (hmin : minOf ty ≤ v) (hmax : v ≤ maxOf ty) : val ty (wrap ty v) = v := by
  have hhalf := two_pow_width ty
  have hpos := widthOf_pos ty
  unfold wrap val
  rw [BitVec.ofNat_toNat, BitVec.setWidth_eq]
  unfold minOf at hmin
  unfold maxOf at hmax
  cases hs : isSigned ty with
  | false =>
    simp only [hs, Bool.false_eq_true, if_false] at hmin hmax ⊢
    rw [BitVec.toNat_ofInt, Int.emod_eq_of_lt hmin (by omega), Int.toNat_of_nonneg hmin]
  | true =>
    simp only [hs, if_true] at hmin hmax ⊢
    rw [BitVec.toInt_ofInt, Int.bmod_eq_of_le (by omega) (by omega)]

/-! ### Logic (R223) -/

theorem bits_toNat {ty : EType} {x : Nat} (hx : x < 2 ^ widthOf ty) : (bits ty x).toNat = x := by
  rw [bits, BitVec.toNat_ofNat, Nat.mod_eq_of_lt hx]

theorem bits_getLsbD {ty : EType} {x : Nat} (hx : x < 2 ^ widthOf ty) (j : Nat) : (bits ty x).getLsbD j = x.testBit j := by
  rw [← BitVec.testBit_toNat, bits_toNat hx]

theorem notT_eq (ty : EType) (x : Nat) : notT ty x = (~~~(bits ty x)).toNat := by
  rw [notT, BitVec.toNat_not, bits, BitVec.toNat_ofNat]

section
variable {ty : EType} {x y : Nat} (hx : x < 2 ^ widthOf ty)
include hx

theorem andn_eq_bits (y : Nat) : x &&& notT ty y = (bits ty x &&& ~~~(bits ty y)).toNat := by
  rw [BitVec.toNat_and, bits_toNat hx, notT_eq]

variable (hy : y < 2 ^ widthOf ty)
include hy

theorem and_eq_bits : x &&& y = (bits ty x &&& bits ty y).toNat := by rw [BitVec.toNat_and, bits_toNat hx, bits_toNat hy]

theorem or_eq_bits : x ||| y = (bits ty x ||| bits ty y).toNat := by rw [BitVec.toNat_or, bits_toNat hx, bits_toNat hy]

theorem xor_eq_bits : x ^^^ y = (bits ty x ^^^ bits ty y).toNat := by rw [BitVec.toNat_xor, bits_toNat hx, bits_toNat hy]

end

/-! ### Shifts (R224) -/

/-- A shift by more than the width gives the same as one by the width. -/
theorem div_two_pow_min {w y : Nat} (hy : y < 2 ^ w) (c : Nat) : y / 2 ^ min c w = y / 2 ^ c := by
  rcases le_total c w with hc | hc
  · rw [min_eq_left hc]
  · rw [min_eq_right hc, Nat.div_eq_of_lt hy, Nat.div_eq_of_lt (hy.trans_le (Nat.pow_le_pow_right (by omega) hc))]

section
variable {ty : EType} {x : Nat} (hx : x < 2 ^ widthOf ty) (c : Nat)
include hx

theorem shlT_eq : shlT ty x c = (bits ty x <<< c).toNat := by
  rw [shlT, BitVec.toNat_shiftLeft, bits_toNat hx, Nat.shiftLeft_eq]
  split
  · next hc => exact (Nat.mod_eq_zero_of_dvd (Dvd.dvd.mul_left (Nat.pow_dvd_pow 2 hc) x)).symm
  · rfl

theorem shrT_eq : shrT ty x c = (bits ty x >>> c).toNat := by
  rw [shrT, BitVec.toNat_ushiftRight, bits_toNat hx, Nat.shiftRight_eq_div_pow]
  split
  · next hc => exact (Nat.div_eq_of_lt (hx.trans_le (Nat.pow_le_pow_right (by omega) hc))).symm
  · rfl

theorem shraT_eq : shraT ty x c = ((bits ty x).sshiftRight c).toNat := by
  have hmsb : (bits ty x).msb = x.testBit (widthOf ty - 1) := by rw [BitVec.msb_eq_getLsbD_last, bits_getLsbD hx]
  have hsplit : 2 ^ widthOf ty = 2 ^ min c (widthOf ty) * 2 ^ (widthOf ty - min c (widthOf ty)) := by
    rw [← pow_add, Nat.add_sub_cancel' (min_le_right _ _)]
  cases hneg : x.testBit (widthOf ty - 1) with
  | false =>
    rw [BitVec.toNat_sshiftRight_of_msb_false (hmsb.trans hneg), bits_toNat hx, Nat.shiftRight_eq_div_pow]
    simp only [shraT, hneg, Bool.false_eq_true, if_false, div_two_pow_min hx c, Nat.add_zero]
  | true =>
    rw [BitVec.toNat_sshiftRight_of_msb_true (hmsb.trans hneg), bits_toNat hx, Nat.shiftRight_eq_div_pow,
      ← div_two_pow_min (w := widthOf ty) (by omega) c]
    have hy : (2 ^ widthOf ty - 1 - x) / 2 ^ min c (widthOf ty) = 2 ^ (widthOf ty - min c (widthOf ty)) - (x / 2 ^ min c (widthOf ty) + 1) := by
      rw [← Nat.mul_sub_div _ _ _ (hsplit ▸ hx), ← hsplit, Nat.sub_sub, Nat.add_comm 1 x]
    have hle : x / 2 ^ min c (widthOf ty) < 2 ^ (widthOf ty - min c (widthOf ty)) := Nat.div_lt_of_lt_mul (hsplit ▸ hx)
    have htop : 2 ^ (widthOf ty - min c (widthOf ty)) ≤ 2 ^ widthOf ty := Nat.pow_le_pow_right (by omega) (Nat.sub_le _ _)
    rw [hy]
    simp only [shraT, hneg, if_true]
    generalize x / 2 ^ min c (widthOf ty) = q at hle ⊢
    generalize 2 ^ (widthOf ty - min c (widthOf ty)) = p at hle htop ⊢
    omega

theorem rotlT_eq : rotlT ty x c = ((bits ty x).rotateLeft c).toNat := by
  have hk : c % widthOf ty < widthOf ty := Nat.mod_lt _ (widthOf_pos ty)
  have hsplit : 2 ^ widthOf ty = 2 ^ (widthOf ty - c % widthOf ty) * 2 ^ (c % widthOf ty) := by
    rw [← pow_add, Nat.sub_add_cancel hk.le]
  have hlow : x / 2 ^ (widthOf ty - c % widthOf ty) < 2 ^ (c % widthOf ty) := Nat.div_lt_of_lt_mul (hsplit ▸ hx)
  rw [rotlT, BitVec.toNat_rotateLeft, bits_toNat hx, Nat.shiftLeft_eq, Nat.shiftRight_eq_div_pow, hsplit, Nat.mul_mod_mul_right,
    Nat.mul_comm _ (2 ^ (c % widthOf ty)), Nat.two_pow_add_eq_or_of_lt hlow]

end

/-! ### Bit fields (R225) -/

theorem bitsOf_pos (c : Nat) : bitsOf c 7 0 = fieldPos c := by simp [bitsOf, fieldPos]

theorem bitsOf_len (ty : EType) (c : Nat) : min (bitsOf c 15 8) (widthOf ty) = fieldLen ty c := by
  rw [fieldLen, bitsOf, Nat.shiftRight_eq_div_pow]
  rfl

/-- The signed value of the low bits of a value. -/
theorem bmod_two_pow_succ (v : Int) (n : Nat) :
    v.bmod (2 ^ (n + 1)) = if v % 2 ^ (n + 1) < 2 ^ n then v % 2 ^ (n + 1) else v % 2 ^ (n + 1) - 2 ^ (n + 1) := by
  rw [Int.bmod_def]
  push_cast
  rw [show ((2 : Int) ^ (n + 1) + 1) / 2 = 2 ^ n by rw [pow_succ]; omega]

/-- The sign of an `n + 1`-bit pattern. -/
theorem testBit_top_iff {f n : Nat} (hf : f < 2 ^ (n + 1)) : f.testBit n = true ↔ 2 ^ n ≤ f := by
  constructor
  · exact fun h => Nat.ge_two_pow_of_testBit h
  · exact fun h => Nat.testBit_of_two_pow_le_and_two_pow_add_one_gt h hf

section
variable {ty : EType} {n f : Nat} (hn : n ≤ widthOf ty) (hf : f < 2 ^ n)
include hn hf

/-- A narrow pattern extended with zeros. -/
theorem wrapT_low : wrapT ty f = f := by
  have hle : 2 ^ n ≤ 2 ^ widthOf ty := Nat.pow_le_pow_right (by omega) hn
  rw [wrapT, Int.emod_eq_of_lt (by omega) (by omega), Int.toNat_natCast]

/-- A narrow pattern extended with ones. -/
theorem wrapT_negative : wrapT ty (f - (2 ^ n : Nat)) = f + 2 ^ widthOf ty - 2 ^ n := by
  have hle : 2 ^ n ≤ 2 ^ widthOf ty := Nat.pow_le_pow_right (by omega) hn
  rw [wrapT, ← Int.add_emod_right, Int.emod_eq_of_lt (by omega) (by omega)]
  omega

end

theorem bfxT_eq (ty : EType) (x c : Nat) : bfxT ty x c = wrap ty (
    if isSigned ty then (val ty x / 2 ^ fieldPos c).bmod (2 ^ fieldLen ty c) else val ty x / 2 ^ fieldPos c % 2 ^ fieldLen ty c) := by
  have hle : fieldLen ty c ≤ widthOf ty := min_le_right _ _
  unfold bfxT
  simp only [bitsOf_len, bitsOf_pos, valOf_eq_val, ← wrapT_eq_wrap]
  push_cast
  generalize val ty x / 2 ^ fieldPos c = v
  generalize fieldLen ty c = n at hle
  cases n with
  | zero => simp [wrapT]
  | succ n =>
    obtain ⟨f, hf⟩ := Int.eq_ofNat_of_zero_le (Int.emod_nonneg v (show (2 : Int) ^ (n + 1) ≠ 0 by positivity))
    have hlt : f < 2 ^ (n + 1) := by
      zify
      exact hf ▸ Int.emod_lt_of_pos v (by positivity)
    rw [bmod_two_pow_succ, hf, Int.toNat_natCast, if_neg (Nat.succ_ne_zero n)]
    cases isSigned ty with
    | false => exact (wrapT_low hle hlt).symm
    | true =>
      simp only [Bool.true_and, Nat.add_sub_cancel, testBit_top_iff hlt, if_true]
      by_cases hneg : f < 2 ^ n
      · rw [if_neg (by omega), if_pos (by exact_mod_cast hneg), wrapT_low hle hlt]
      · rw [if_pos (by omega), if_neg (by exact_mod_cast hneg)]
        exact_mod_cast (wrapT_negative hle hlt).symm

/-- Bits `p` to `p + n - 1` of `z` replaced by the low bits of `x`. -/
theorem testBit_setField (z x p n j : Nat) : (z - (z / 2 ^ p % 2 ^ n) * 2 ^ p + (x % 2 ^ n) * 2 ^ p).testBit j =
    if p ≤ j ∧ j < p + n then x.testBit (j - p) else z.testBit j := by
  have hz : z = 2 ^ p * (2 ^ n * (z / 2 ^ p / 2 ^ n) + z / 2 ^ p % 2 ^ n) + z % 2 ^ p := by
    rw [Nat.div_add_mod, Nat.div_add_mod]
  have hfield : z - (z / 2 ^ p % 2 ^ n) * 2 ^ p + (x % 2 ^ n) * 2 ^ p =
      2 ^ p * (2 ^ n * (z / 2 ^ p / 2 ^ n) + x % 2 ^ n) + z % 2 ^ p := by
    rw [Nat.mul_comm _ (2 ^ p), Nat.mul_comm _ (2 ^ p), Nat.mul_add]
    rw [Nat.mul_add] at hz
    omega
  rw [hfield, Nat.testBit_two_pow_mul_add _ (Nat.mod_lt _ (Nat.two_pow_pos p)), Nat.testBit_two_pow_mul_add _ (Nat.mod_lt _ (Nat.two_pow_pos n))]
  by_cases hp : j < p
  · simp [hp, Nat.testBit_mod_two_pow]
  · by_cases hn : j - p < n
    · simp [hp, hn, Nat.testBit_mod_two_pow, show p ≤ j ∧ j < p + n by omega]
    · simp [hp, hn, Nat.testBit_div_two_pow, show ¬ (p ≤ j ∧ j < p + n) by omega, show j - p - n + n + p = j by omega]

/-- Where the position lies at or beyond the width no bit is replaced (log 137). -/
theorem bfiT_eq {ty : EType} {z : Nat} (hz : z < 2 ^ widthOf ty) (x c : Nat) : bfiT ty z x c =
    ((bits ty z &&& ~~~(BitVec.ofNat (widthOf ty) (2 ^ fieldLen ty c - 1) <<< fieldPos c)) |||
      ((bits ty x <<< fieldPos c) &&& (BitVec.ofNat (widthOf ty) (2 ^ fieldLen ty c - 1) <<< fieldPos c))).toNat := by
  refine Nat.eq_of_testBit_eq fun j => ?_
  have hmodel : (bfiT ty z x c).testBit j =
      if fieldPos c ≤ j ∧ j < widthOf ty ∧ j < fieldPos c + fieldLen ty c then x.testBit (j - fieldPos c) else z.testBit j := by
    unfold bfiT
    simp only [bitsOf_pos]
    by_cases hw : widthOf ty ≤ fieldPos c
    · rw [if_pos hw, if_neg (by omega)]
    · rw [if_neg hw, testBit_setField, fieldLen, bitsOf, Nat.shiftRight_eq_div_pow]
      refine if_congr ?_ rfl rfl
      change _ ∧ _ < _ + min (c / 2 ^ 8 % 256) _ ↔ _ ∧ _ ∧ _ < _ + min (c / 256 % 256) _
      omega
  rw [hmodel, BitVec.testBit_toNat]
  simp only [BitVec.getLsbD_or, BitVec.getLsbD_and, BitVec.getLsbD_not, BitVec.getLsbD_shiftLeft, bits, BitVec.getLsbD_ofNat,
    Nat.testBit_two_pow_sub_one]
  by_cases hj : j < widthOf ty
  · by_cases hp : j < fieldPos c
    · simp [hj, hp, show ¬ fieldPos c ≤ j by omega]
    · by_cases hn : j - fieldPos c < fieldLen ty c
      · simp [hj, hp, hn, show fieldPos c ≤ j ∧ j < fieldPos c + fieldLen ty c by omega, show j - fieldPos c < widthOf ty by omega]
      · simp [hj, hp, hn, show ¬ (fieldPos c ≤ j ∧ j < fieldPos c + fieldLen ty c) by omega]
  · have hzero : z.testBit j = false := Nat.testBit_lt_two_pow (hz.trans_le (Nat.pow_le_pow_right (by omega) (by omega)))
    simp [hj, hzero]

/-! ### Counts and reversal (R223) -/

/-- A run of places that a property holds at, counted. -/
theorem length_takeWhile_range {p : Nat → Bool} {n m : Nat} (hm : m ≤ n) (hbefore : ∀ j < m, p j = true) (hstop : m < n → p m = false) :
    ((List.range n).takeWhile p).length = m := by
  obtain ⟨r, rfl⟩ := Nat.exists_eq_add_of_le hm
  have hall : ∀ j ∈ List.range m, p j = true := fun j hj => hbefore j (List.mem_range.mp hj)
  rw [List.range_add, List.takeWhile_append_of_pos hall]
  cases r with
  | zero => simp
  | succ r => simp [List.range_succ_eq_map, hstop]

theorem popCount_eq (x n : Nat) : popCount x n = ((List.range n).filter fun j => x.testBit j).length := by
  induction n with
  | zero => rfl
  | succ n ih =>
    rw [popCount, ih, List.range_succ, List.filter_append, List.length_append, Nat.add_comm]
    cases h : x.testBit n <;> simp [h]

/-- What the count of trailing zeros from place `k` finds: the first set bit, or the end. -/
theorem trailingZeros_spec (x n k : Nat) : k ≤ trailingZeros x n k ∧ trailingZeros x n k ≤ k + n ∧
    (∀ j, k ≤ j → j < trailingZeros x n k → x.testBit j = false) ∧
    (trailingZeros x n k < k + n → x.testBit (trailingZeros x n k) = true) := by
  induction n generalizing k with
  | zero => exact ⟨le_refl k, le_refl k, fun j hk hj => absurd hj (Nat.not_lt.mpr hk), fun h => absurd h (Nat.lt_irrefl k)⟩
  | succ n ih =>
    rw [trailingZeros]
    split
    · next hk => exact ⟨le_refl k, by omega, fun j hkj hj => absurd hj (Nat.not_lt.mpr hkj), fun _ => hk⟩
    · next hk =>
      obtain ⟨hlow, hhigh, hzero, hset⟩ := ih (k + 1)
      refine ⟨by omega, by omega, fun j hkj hj => ?_, fun h => hset (by omega)⟩
      rcases Nat.eq_or_lt_of_le hkj with rfl | hlt
      · exact Bool.not_eq_true _ ▸ hk
      · exact hzero j hlt hj

/-- Reversing the low `n` bits one at a time. -/
theorem foldl_reversed_bits (x : Nat) {w n : Nat} (hn : n ≤ w) :
    (List.range n).foldl (fun r k => r + if x.testBit k then 2 ^ (w - 1 - k) else 0) 0 = 2 ^ (w - n) * (BitVec.ofNat n x).reverse.toNat := by
  induction n with
  | zero => simp [BitVec.reverse, Nat.mod_one]
  | succ n ih =>
    have hlow : (BitVec.ofNat (n + 1) x).truncate n = BitVec.ofNat n x := by simp
    have hmsb : (BitVec.ofNat (n + 1) x).msb = x.testBit n := by
      rw [BitVec.msb_eq_getLsbD_last, BitVec.getLsbD_ofNat, Nat.add_sub_cancel]
      simp
    have hpow : 2 ^ (w - n) = 2 ^ (w - (n + 1)) * 2 := by rw [← pow_succ]; congr 1; omega
    rw [List.range_succ, List.foldl_append, ih (by omega), BitVec.reverse, BitVec.toNat_concat, hlow, hmsb, hpow]
    cases h : x.testBit n <;> simp [h, Nat.sub_sub, Nat.add_comm 1 n, Nat.mul_add, Nat.mul_assoc, Nat.mul_comm 2]

theorem lt_two_pow_bitLen (x : Nat) : x < 2 ^ bitLen x := by
  unfold bitLen
  split
  · next h => rw [h]; exact Nat.one_pos
  · exact Nat.lt_log2_self

theorem bitLen_le {x w : Nat} (hx : x < 2 ^ w) : bitLen x ≤ w := by
  unfold bitLen
  split
  · exact Nat.zero_le w
  · next h => exact (Nat.log2_lt h).mpr hx

/-- The highest set bit. -/
theorem testBit_bitLen {x : Nat} (h : 0 < bitLen x) : x.testBit (bitLen x - 1) = true := by
  unfold bitLen at h ⊢
  split at h
  · exact absurd h (Nat.lt_irrefl 0)
  · next hx => rw [if_neg hx, Nat.add_sub_cancel, Nat.testBit_log2 hx]

section
variable {ty : EType} {x : Nat} (hx : x < 2 ^ widthOf ty)
include hx

theorem popCount_bits : popCount x (widthOf ty) = ((List.range (widthOf ty)).filter fun j => (bits ty x).getLsbD j).length := by
  simp only [popCount_eq, bits_getLsbD hx]

theorem trailingZeros_bits :
    trailingZeros x (widthOf ty) 0 = ((List.range (widthOf ty)).takeWhile fun j => !(bits ty x).getLsbD j).length := by
  obtain ⟨-, hhigh, hzero, hset⟩ := trailingZeros_spec x (widthOf ty) 0
  rw [Nat.zero_add] at hhigh hset
  refine (length_takeWhile_range hhigh (fun j hj => ?_) fun hlt => ?_).symm
  · rw [bits_getLsbD hx, hzero j (Nat.zero_le j) hj, Bool.not_false]
  · rw [bits_getLsbD hx, hset hlt, Bool.not_true]

theorem leadingZeros_bits :
    widthOf ty - bitLen x = ((List.range (widthOf ty)).takeWhile fun j => !(bits ty x).getMsbD j).length := by
  have hlen : bitLen x ≤ widthOf ty := bitLen_le hx
  refine (length_takeWhile_range (Nat.sub_le _ _) (fun j hj => ?_) fun hlt => ?_).symm
  · rw [BitVec.getMsbD, bits_getLsbD hx, Nat.testBit_lt_two_pow ((lt_two_pow_bitLen x).trans_le (Nat.pow_le_pow_right (by omega) (by omega)))]
    simp
  · rw [BitVec.getMsbD, bits_getLsbD hx, show widthOf ty - 1 - (widthOf ty - bitLen x) = bitLen x - 1 by omega, testBit_bitLen (by omega)]
    simp [hlt]

end

theorem brevT_eq (ty : EType) (x : Nat) : brevT (widthOf ty) x = (bits ty x).reverse.toNat := by
  rw [brevT, foldl_reversed_bits x le_rfl, Nat.sub_self, pow_zero, Nat.one_mul, bits]

end Sys2Proof.IntegerControl
end

section
/-!
PROOFS. What an integer, predicate or cross-lane instruction leaves when its checks pass: results, predicates, scalars and selected
destinations, none of them with a flag (R19, R31, R226).
-/

namespace Sys2Proof.IntegerControl

open Sys2Proof Sys2Proof.Machine Sys2Proof.Claims Sys2Proof.NumberFormats

/-! ### What the checks say -/

theorem failIf_none {b : Bool} {x d : Nat} (h : failIf b x d = none) : b = false := by
  cases b with
  | false => rfl
  | true => cases h

section
variable {s : State} {k : Iss} {cs : List Chk} (hi : s.Issues k cs)
include hi

theorem issues_group : s.group k.gid = some k.g := (MemoryHierarchy.issuer_context hi.1).1

/-- R29: the type is one that the instruction accepts. -/
theorem issues_type {ok : Bool} (hc : typeChk ok ∈ cs) : ok = true := by
  simpa using failIf_none (firstChk_passes hi.2 hc)

/-- R226: the destination selector names a predicate or a scalar. -/
theorem issues_selected {d : Byte} (hc : failIf (selOf d == .bad) 2 1 ∈ cs) : selOf d ≠ .bad := by
  simpa using failIf_none (firstChk_passes hi.2 hc)

end

/-- R16, R215: what an operand supplies is a pattern of the type. -/
theorem src_lt (k : Iss) {ty : EType} (hint : isInt ty = true) (o : Opnd) (th : Nat) : k.src ty o th < 2 ^ widthOf ty := by
  have hmod (x : Nat) : x % 2 ^ widthOf ty < 2 ^ widthOf ty := Nat.mod_lt _ (Nat.two_pow_pos _)
  cases o with
  | vec n =>
    simp only [Iss.src]
    split
    · next hw =>
      have hlow := (k.g.vreg n th).isLt
      have hhigh := (k.g.vreg (n + 1) th).isLt
      rw [hw]
      omega
    · exact hmod _
  | sca n => exact hmod _
  | zero => exact Nat.two_pow_pos _
  | one =>
    rw [show k.src ty .one th = 1 from if_pos hint]
    exact Nat.one_lt_two_pow (widthOf_pos ty).ne'
  | tid =>
    rw [show k.src ty .tid th = th % 2 ^ widthOf ty from if_pos hint]
    exact hmod _
  | lit l => exact hmod _
  | res c => exact Nat.two_pow_pos _

/-! ### Predicates -/

/-- The threads of a mask that a condition holds for. -/
theorem maskOf_filter_threads (m : BitVec 64) (f : Nat → Bool) {th : Nat} (hth : th < 64) :
    (maskOf ((threadsOf m).filter f)).getLsbD th = (m.getLsbD th && f th) := by
  rw [maskOf_getLsbD _ hth, Bool.eq_iff_iff]
  simp [List.mem_filter, mem_threadsOf, hth]

section
variable {s : State} {k : Iss} (hg : s.group k.gid = some k.g)
include hg

/-- R31, R229: a predicate takes a result in the threads of a mask. -/
theorem writeP_wroteP {n : Nat} {m res : BitVec 64} {f : Nat → Bool} (hres : ∀ th, th < 64 → m.getLsbD th = true → res.getLsbD th = f th) :
    WroteP s k n m f noFlags (s.writeP k.gid n m res) := by
  obtain ⟨hframe, hgroup⟩ := MemoryHierarchy.modIss_became
    (f := fun g => { g with p := KMap.put g.p n ((g.pred n &&& ~~~m) ||| (res &&& m)) }) hg fun _ => rfl
  refine ⟨hframe, _, hgroup, rfl, fun j hj => ?_, fun th hth => ?_, fun th _ => BitVec.or_zero.symm⟩
  · simp [Group.pred, KMap.getD_put, hj]
  · cases hm : m.getLsbD th with
    | false =>
      simp only [Group.pred, KMap.getD_put, if_true, BitVec.getLsbD_or, BitVec.getLsbD_and, BitVec.getLsbD_not, hm, hth]
      simp
    | true => simp [Group.pred, KMap.getD_put, hm, hres th hth hm]

/-- A scalar takes 64 bits. -/
theorem writeS_wroteS (n : Nat) (v : DWord) : WroteS s k n v noFlags (s.writeS k.gid n v) := by
  obtain ⟨hframe, hgroup⟩ := MemoryHierarchy.modIss_became (f := fun g => { g with s := KMap.put g.s n v }) hg fun _ => rfl
  exact ⟨hframe, _, hgroup, rfl, fun j => by simp only [Group.sreg, KMap.getD_put], fun th _ => BitVec.or_zero.symm⟩

/-- R240: a selected destination: a predicate takes the condition in the passing threads, a scalar takes the value. -/
theorem putVote_told {d : Byte} (hd : selOf d ≠ .bad) (v : DWord) (f : Nat → Bool) : Told s k d f v noFlags (s.putVote k d v f) := by
  unfold Told State.putVote
  cases hsel : selOf d with
  | pred n =>
    refine writeP_wroteP hg fun th hth hrun => ?_
    rw [maskOf_filter_threads _ _ hth, hrun, Bool.true_and]
  | sca n => exact writeS_wroteS hg n v
  | bad => exact absurd hsel hd

end

/-- R226: the result of a compare is a vote of the value 1 or 0. -/
theorem putSel_eq_putVote (s : State) (k : Iss) (d : Byte) (f : Nat → Bool) : s.putSel k d f = s.putVote k d (if f 0 then 1 else 0) f := by
  unfold State.putSel State.putVote
  cases selOf d <;> rfl

/-! ### Instructions -/

section
variable {s : State} {k : Iss} {chk : Iss → List Chk} (hi : s.Issues k (chk k))
include hi

/-- R19: an instruction that delivers a result. -/
theorem insn_put_wrote {ty : Iss → EType} {d : Opnd} {uni : Bool} {f : Iss → Nat → Nat} {r : Nat → Nat} (hr : ∀ th, f k th = r th) :
    ∃ t, s.insn chk (fun i => s.put i (ty i) d uni (f i)) = .next t ∧ Wrote s k (ty k) d uni r noFlags t :=
  ⟨_, State.insn_pass hi _, funext hr ▸ put_wrote (raised_noFlags (issues_group hi)) (ty k) d (f k) uni⟩

/-- R19: an instruction that delivers a result in each passing thread. -/
theorem insn_putVec_wrote {ty : Iss → EType} {d : Opnd} {f : Iss → Nat → Nat} {r : Nat → Nat} (hr : ∀ th, f k th = r th) :
    ∃ t, s.insn chk (fun i => s.putVec i.gid (ty i) d i.run (f i)) = .next t ∧ Wrote s k (ty k) d false r noFlags t :=
  ⟨_, State.insn_pass hi _, funext hr ▸ putVec_wrote (raised_noFlags (issues_group hi)) (ty k) d (f k)⟩

/-- R31: an instruction that writes a predicate. -/
theorem insn_writeP_wroteP {n : Nat} {m res : Iss → BitVec 64} {f : Nat → Bool}
    (hres : ∀ th, th < 64 → (m k).getLsbD th = true → (res k).getLsbD th = f th) :
    ∃ t, s.insn chk (fun i => s.writeP i.gid n (m i) (res i)) = .next t ∧ WroteP s k n (m k) f noFlags t :=
  ⟨_, State.insn_pass hi _, writeP_wroteP (issues_group hi) hres⟩

end

end Sys2Proof.IntegerControl
end

section
/-!
PROOFS. Integer arithmetic, logic, shifts and bit fields (R220 to R225).
-/

namespace Sys2Proof.IntegerControl

open Sys2Proof Sys2Proof.Machine Sys2Proof.Claims Sys2Proof.NumberFormats

theorem isInt_of_intTy {ty : EType} (h : intTy ty = true) : isInt ty = true := by
  rw [intTy, Bool.and_eq_true] at h
  exact h.1

theorem typeChk_mem_aluChk (k : Iss) (ok : Bool) (d : Opnd) (srcs : List (Nat × Opnd × Bool)) : typeChk ok ∈ aluChk k ok d srcs :=
  List.mem_append_left _ List.mem_cons_self

/-! ### Three operands -/

/-- On patterns of the form's type the meaning `f` of an instruction OP d, a, b is what the manual says; `typed` says that b is a pattern of that
type too. -/
def Computes (typed : Bool) (f : Iss → Nat → Nat → Nat → Nat) (r : EType → Bool → Nat → Nat → Nat → Nat) : Prop :=
  ∀ (k : Iss) (z x y : Nat), z < 2 ^ widthOf k.ty → x < 2 ^ widthOf k.ty → (typed = true → y < 2 ^ widthOf k.ty) →
    f k z x y = r k.ty k.sat z x y

theorem int3_wrote {s : State} {k : Iss} {d a b : Opnd} {typed : Bool} {f : Iss → Nat → Nat → Nat → Nat}
    {r : EType → Bool → Nat → Nat → Nat → Nat} (hi : s.Issues k (aluChk k (intTy k.ty) d [(2, a, true), (3, b, typed)]))
    (hf : Computes typed f r) : ∃ t, s.int3 d a b typed f = .next t ∧ Wrote s k k.ty d (uniform d [a, b])
      (fun th => r k.ty k.sat (k.src k.ty d th) (k.src k.ty a th) (k.src (if typed then k.ty else .n32) b th)) noFlags t := by
  have hint := isInt_of_intTy (issues_type hi (typeChk_mem_aluChk ..))
  refine insn_put_wrote hi fun th => hf k _ _ _ (src_lt k hint d th) (src_lt k hint a th) fun ht => ?_
  rw [if_pos ht]
  exact src_lt k hint b th

theorem min_computes : Computes true (fun i _ x y => if valOf i.ty y < valOf i.ty x then y else x)
    fun ty _ _ x y => wrap ty (min (val ty x) (val ty y)) := by
  intro k z x y _ hx hy
  simp only [valOf_eq_val]
  split
  · next h => rw [min_eq_right h.le, wrap_val_of_lt (hy rfl)]
  · next h => rw [min_eq_left (not_lt.mp h), wrap_val_of_lt hx]

theorem max_computes : Computes true (fun i _ x y => if valOf i.ty x < valOf i.ty y then y else x)
    fun ty _ _ x y => wrap ty (max (val ty x) (val ty y)) := by
  intro k z x y _ hx hy
  simp only [valOf_eq_val]
  split
  · next h => rw [max_eq_right h.le, wrap_val_of_lt (hy rfl)]
  · next h => rw [max_eq_left (not_lt.mp h), wrap_val_of_lt hx]

theorem wrap_computes (g : Int → Int → Int) : Computes true (fun i _ x y => wrapT i.ty (g (valOf i.ty x) (valOf i.ty y)))
    fun ty _ _ x y => wrap ty (g (val ty x) (val ty y)) :=
  fun _ _ _ _ _ _ _ => by simp only [wrapT_eq_wrap, valOf_eq_val]

theorem sat_computes (g : Int → Int → Int) : Computes true (fun i _ x y => satT i.ty (g (valOf i.ty x) (valOf i.ty y)))
    fun ty _ _ x y => sat ty (g (val ty x) (val ty y)) :=
  fun _ _ _ _ _ _ _ => by simp only [satT_eq_sat, valOf_eq_val]

theorem mulh_computes : Computes true (fun i _ x y => wrapT i.ty (valOf i.ty x * valOf i.ty y / ((2 ^ widthOf i.ty : Nat) : Int)))
    fun ty _ _ x y => wrap ty (val ty x * val ty y / 2 ^ widthOf ty) :=
  fun _ _ _ _ _ _ _ => by
    simp only [wrapT_eq_wrap, valOf_eq_val]
    push_cast
    rfl

theorem mad_computes : Computes true (fun i z x y => i.wrapSat (valOf i.ty z + valOf i.ty x * valOf i.ty y))
    fun ty st z x y => wrapOrSat st ty (val ty z + val ty x * val ty y) :=
  fun _ _ _ _ _ _ _ => by simp only [wrapSat_eq, valOf_eq_val]

theorem exec_intOps {e : (Opnd → Opnd → Opnd → Instr) × (EType → Bool → Nat → Nat → Nat → Nat)} (he : e ∈ intOps) (d a b : Opnd)
    (s : State) : ∃ f, exec (e.1 d a b) s = s.int3 d a b true f ∧ Computes true f e.2 := by
  simp only [intOps, List.mem_cons, List.not_mem_nil, or_false] at he
  rcases he with rfl | rfl | rfl | rfl | rfl | rfl | rfl | rfl | rfl | rfl | rfl | rfl | rfl
  · exact ⟨_, (rfl : _ = execAdd d a b s), wrap_computes (· + ·)⟩
  · exact ⟨_, (rfl : _ = execSub d a b s), wrap_computes (· - ·)⟩
  · exact ⟨_, (rfl : _ = execMul d a b s), wrap_computes (· * ·)⟩
  · exact ⟨_, (rfl : _ = execMulh d a b s), mulh_computes⟩
  · exact ⟨_, (rfl : _ = execMad d a b s), mad_computes⟩
  · exact ⟨_, (rfl : _ = execMin d a b s), min_computes⟩
  · exact ⟨_, (rfl : _ = execMax d a b s), max_computes⟩
  · exact ⟨_, (rfl : _ = execAdds d a b s), sat_computes (· + ·)⟩
  · exact ⟨_, (rfl : _ = execSubs d a b s), sat_computes (· - ·)⟩
  · exact ⟨_, (rfl : _ = execAnd d a b s), fun k z x y _ hx hy => and_eq_bits hx (hy rfl)⟩
  · exact ⟨_, (rfl : _ = execOr d a b s), fun k z x y _ hx hy => or_eq_bits hx (hy rfl)⟩
  · exact ⟨_, (rfl : _ = execXor d a b s), fun k z x y _ hx hy => xor_eq_bits hx (hy rfl)⟩
  · exact ⟨_, (rfl : _ = execAndn d a b s), fun k z x y _ hx _ => andn_eq_bits hx y⟩

/-- Settles O1: each instruction's meaning computes what the table gives (`exec_intOps`), and a result is delivered as `int3_wrote` says. -/
theorem integerResults : Obligations.IntegerResults := by
  unfold Obligations.IntegerResults
  intro e he d a b s k hi
  obtain ⟨f, hexec, hf⟩ := exec_intOps he d a b s
  rw [hexec]
  exact int3_wrote (r := e.2) hi hf

theorem exec_shiftOps {e : (Opnd → Opnd → Opnd → Instr) × (EType → Nat → Nat → Nat → Nat)} (he : e ∈ shiftOps) (d a b : Opnd)
    (s : State) : ∃ f, exec (e.1 d a b) s = s.int3 d a b false f ∧ Computes false f fun ty _ => e.2 ty := by
  simp only [shiftOps, List.mem_cons, List.not_mem_nil, or_false] at he
  rcases he with rfl | rfl | rfl | rfl | rfl | rfl
  · exact ⟨_, (rfl : _ = execShl d a b s), fun k z x c _ hx _ => shlT_eq hx c⟩
  · exact ⟨_, (rfl : _ = execShr d a b s), fun k z x c _ hx _ => shrT_eq hx c⟩
  · exact ⟨_, (rfl : _ = execShra d a b s), fun k z x c _ hx _ => shraT_eq hx c⟩
  · exact ⟨_, (rfl : _ = execRotl d a b s), fun k z x c _ hx _ => rotlT_eq hx c⟩
  · exact ⟨_, (rfl : _ = execBfx d a b s), fun k z x c _ _ _ => bfxT_eq k.ty x c⟩
  · exact ⟨_, (rfl : _ = execBfi d a b s), fun k z x c hz _ _ => bfiT_eq hz x c⟩

/-- Settles O2: the shifts and the fields compute what the table gives (`exec_shiftOps`), with b read as n32. -/
theorem shiftAndFieldResults : Obligations.ShiftAndFieldResults := by
  unfold Obligations.ShiftAndFieldResults
  intro e he d a b s k hi
  obtain ⟨f, hexec, hf⟩ := exec_shiftOps he d a b s
  rw [hexec]
  exact int3_wrote (r := fun ty _ => e.2 ty) hi hf

/-! ### Two operands -/

theorem exec_oneOps {e : (Opnd → Opnd → Byte → Instr) × (EType → Bool → Nat → Nat)} (he : e ∈ oneOps) (d a : Opnd) (u : Byte)
    (s : State) : ∃ f, exec (e.1 d a u) s = s.int2 d a u f ∧ ∀ (k : Iss) (x : Nat), x < 2 ^ widthOf k.ty → f k x = e.2 k.ty k.sat x := by
  simp only [oneOps, List.mem_cons, List.not_mem_nil, or_false] at he
  rcases he with rfl | rfl | rfl | rfl | rfl | rfl | rfl
  · exact ⟨_, (rfl : _ = execNeg d a u s), fun k x _ => by simp only [wrapSat_eq, valOf_eq_val]⟩
  · exact ⟨_, (rfl : _ = execAbs d a u s), fun k x _ => by simp only [wrapSat_eq, valOf_eq_val, Int.natCast_natAbs]⟩
  · exact ⟨_, (rfl : _ = execNot d a u s), fun k x _ => notT_eq k.ty x⟩
  · exact ⟨_, (rfl : _ = execPopc d a u s), fun k x hx => popCount_bits hx⟩
  · exact ⟨_, (rfl : _ = execClz d a u s), fun k x hx => leadingZeros_bits hx⟩
  · exact ⟨_, (rfl : _ = execCtz d a u s), fun k x hx => trailingZeros_bits hx⟩
  · exact ⟨_, (rfl : _ = execBrev d a u s), fun k x _ => brevT_eq k.ty x⟩

/-- Settles O3: the instructions OP d, a compute what the table gives (`exec_oneOps`) and deliver it by `insn_put_wrote`. -/
theorem oneSourceIntegerResults : Obligations.OneSourceIntegerResults := by
  unfold Obligations.OneSourceIntegerResults
  intro e he d a u s k hi
  obtain ⟨f, hexec, hf⟩ := exec_oneOps he d a u s
  have hint := isInt_of_intTy (issues_type hi (List.mem_append_left _ (typeChk_mem_aluChk ..)))
  rw [hexec]
  exact insn_put_wrote hi fun th => hf k _ (src_lt k hint a th)

/-! ### MADW, ADDC, SUBB -/

/-- R222: the exact sum or difference of the operands in thread `th`, with the carry or the borrow that p7 holds. -/
def chained (k : Iss) (f : Int → Int → Int → Int) (a b : Opnd) (th : Nat) : Int :=
  f (k.src k.ty a th) (k.src k.ty b th) (if (k.g.pred 7).getLsbD th then 1 else 0)

theorem carryOp_wrote {s : State} {k : Iss} {d a b : Opnd} (f : Int → Int → Int → Int)
    (hi : s.Issues k [typeChk (k.ty == .i32 || k.ty == .n32 || k.ty == .i64 || k.ty == .n64), quillChk k false, failIf (Opnd.isSca d) 2 1,
      dstChk k 1 d (wide k.ty), srcChk k 2 a (wide k.ty) false, srcChk k 3 b (wide k.ty) false]) :
    ∃ u h t, s.carryOp d a b f = .next t ∧ Wrote s k k.ty d false (fun th => wrap k.ty (chained k f a b th)) noFlags u ∧
      u.group k.gid = some h ∧ WroteP u { k with g := h } 7 k.run
        (fun th => decide (chained k f a b th < 0) || decide (2 ^ widthOf k.ty ≤ chained k f a b th)) noFlags t := by
  have hwrote := putVec_wrote (raised_noFlags (issues_group hi)) k.ty d fun th => wrapT k.ty (chained k f a b th)
  obtain ⟨h, hh⟩ : ∃ h, (s.putVec k.gid k.ty d k.run fun th => wrapT k.ty (chained k f a b th)).group k.gid = some h := by
    obtain ⟨-, ⟨h, hh, -⟩, -⟩ := hwrote
    exact ⟨h, hh⟩
  refine ⟨_, h, _, State.insn_pass hi _, ?_, hh, writeP_wroteP (k := { k with g := h }) hh fun th hth hrun => ?_⟩
  · simpa only [wrapT_eq_wrap] using hwrote
  · rw [maskOf_filter_threads _ _ hth, hrun, Bool.true_and]
    push_cast
    rfl

/-- Settles O4: MADW by `insn_put_wrote` in the accumulator's type, ADDC and SUBB by `carryOp_wrote`. -/
theorem carryAndWideResults : Obligations.CarryAndWideResults := by
  unfold Obligations.CarryAndWideResults
  constructor
  case left =>
    intro d a b s k hi
    refine insn_put_wrote (ty := fun i => madwTy i.ty) hi fun th => ?_
    simp only [satT_eq_sat, wrapT_eq_wrap, valOf_eq_val]
    rfl
  case right =>
    intro e he d a b s k hi
    simp only [List.mem_cons, List.not_mem_nil, or_false] at he
    rcases he with rfl | rfl
    · exact carryOp_wrote (fun x y c => x + y + c) hi
    · exact carryOp_wrote (fun x y c => x - y - c) hi

end Sys2Proof.IntegerControl
end

section
/-!
PROOFS. Moves, selection, compares, addresses and predicates (R218, R219, R226 to R229).
-/

namespace Sys2Proof.IntegerControl

open Sys2Proof Sys2Proof.Machine Sys2Proof.Claims Sys2Proof.NumberFormats

/-! ### MOV, SEL, compares -/

theorem movedSca_eq (k : Iss) (a : Opnd) : k.movedSca a = match a with | .one => dword (oneOf k.ty) | _ => k.uni64 a := by
  cases a <;> rfl

/-- R219: the predicate that SEL reads, in one thread. -/
theorem selector_getLsbD (k : Iss) (ctl : Word) {th : Nat} (hth : th < 64) :
    (k.selector ctl).getLsbD th = ((k.g.pred (ctl.toNat % 8)).getLsbD th != ctl.getLsbD 3) := by
  rw [Iss.selector, BitVec.testBit_toNat]
  cases ctl.getLsbD 3 with
  | false => simp
  | true => rw [if_pos rfl, BitVec.getLsbD_xor, BitVec.getLsbD_allOnes, decide_eq_true hth]

theorem exec_compareOps {e : (Byte → Opnd → Opnd → Instr) × (Int → Int → Bool)} (he : e ∈ compareOps) (d : Byte) (a b : Opnd)
    (s : State) : exec (e.1 d a b) s = s.icmp d a b e.2 := by
  simp only [compareOps, List.mem_cons, List.not_mem_nil, or_false] at he
  have hne : (fun x y : Int => x != y) = fun x y => decide (x ≠ y) := by
    funext x y
    rw [Bool.eq_iff_iff]
    simp
  rcases he with rfl | rfl | rfl | rfl
  · rfl
  · rw [hne]
    rfl
  · rfl
  · rfl

/-- Settles O5: each body is a delivery of `putVec`, `writeS` or `putSel`, in the values that the statement names. -/
theorem moveAndCompareResults : Obligations.MoveAndCompareResults := by
  unfold Obligations.MoveAndCompareResults
  refine ⟨⟨?mov, ?sel⟩, ?compare⟩
  case mov =>
    intro d a u s k hi
    refine ⟨_, State.insn_pass hi _, ?_⟩
    have hg := issues_group hi
    cases d with
    | sca n => exact movedSca_eq k a ▸ writeS_wroteS hg n _
    | _ => exact putVec_wrote (raised_noFlags hg) _ _ _
  case sel =>
    intro d a b ctl s k hi
    refine ⟨_, State.insn_pass hi _, wrote_congr (putVec_wrote (raised_noFlags (issues_group hi)) _ d _) (fun h => nomatch h)
      fun _ th hth _ => ?_⟩
    simp only [selector_getLsbD k ctl hth]
  case compare =>
    intro e he d a b s k hi
    rw [exec_compareOps he]
    refine ⟨_, State.insn_pass hi _, ?_⟩
    rw [putSel_eq_putVote]
    simp only [valOf_eq_val]
    exact putVote_told (issues_group hi) (issues_selected hi (by simp [cmpChk])) _ _

/-! ### LEA, MOVP and the predicate instructions -/

theorem plogic_wroteP {s : State} {k : Iss} {d p q : Byte} {f : BitVec 64 → BitVec 64 → BitVec 64} {g : Bool → Bool → Bool}
    (hi : s.Issues k [quillChk k false, predChk 1 d, predChk 2 p, predChk 3 q])
    (hf : ∀ x y th, th < 64 → (f x y).getLsbD th = g (x.getLsbD th) (y.getLsbD th)) :
    ∃ t, s.plogic d p q f = .next t ∧ WroteP s k d.toNat k.run
      (fun th => g ((k.g.pred p.toNat).getLsbD th) ((k.g.pred q.toNat).getLsbD th)) noFlags t :=
  insn_writeP_wroteP hi fun th hth _ => hf _ _ th hth

/-- R229: the predicate that PMOV forms from an operand, in one thread. -/
theorem asPred_getLsbD (k : Iss) (a : Opnd) {th : Nat} (hth : th < 64) : (k.asPred a).getLsbD th = match a with
    | .vec n => k.g.vreg n th != 0
    | .tid => th != 0
    | _ => (k.uni64 a).getLsbD th := by
  cases a with
  | vec n =>
    rw [Iss.asPred, MemoryHierarchy.maskOf_filter_getLsbD _ hth, Bool.eq_iff_iff]
    simp
  | tid =>
    rw [Iss.asPred, BitVec.getLsbD_not, BitVec.getLsbD_one, Bool.eq_iff_iff]
    simp [hth]
  | _ => rfl

/-- Settles O6: each body writes a register or a predicate, whose value in one thread is the one that the statement names. -/
theorem addressAndPredicateResults : Obligations.AddressAndPredicateResults := by
  unfold Obligations.AddressAndPredicateResults
  refine ⟨⟨?lea, ?movp⟩, ?plogic, ?pnot, ?pset, ?pmov⟩
  case lea =>
    intro d a b s k hi
    refine ⟨_, State.insn_pass hi _, ?_⟩
    have hg := issues_group hi
    cases d with
    | sca n => exact writeS_wroteS hg n _
    | _ => exact putVec_wrote (raised_noFlags hg) _ _ _
  case movp =>
    intro d p u s k hi
    refine ⟨_, State.insn_pass hi _, ?_⟩
    have hg := issues_group hi
    cases d with
    | sca n => exact writeS_wroteS hg n _
    | _ => exact putVec_wrote (raised_noFlags hg) _ _ _
  case plogic =>
    intro e he d p q s k hi
    simp only [List.mem_cons, List.not_mem_nil, or_false] at he
    rcases he with rfl | rfl | rfl
    · exact plogic_wroteP hi fun x y th _ => BitVec.getLsbD_and
    · exact plogic_wroteP hi fun x y th _ => BitVec.getLsbD_or
    · exact plogic_wroteP hi fun x y th _ => BitVec.getLsbD_xor
  case pnot =>
    exact fun d p u s k hi => insn_writeP_wroteP hi fun th hth _ => by rw [BitVec.getLsbD_not, decide_eq_true hth, Bool.true_and]
  case pset =>
    intro d v s k hi
    have hle : v.toNat ≤ 1 := by simpa using failIf_none (firstChk_passes hi.2 (c := failIf (decide (1 < v.toNat)) 2 2) (by simp))
    refine insn_writeP_wroteP hi fun th hth _ => ?_
    have hv : v = 0 ∨ v = 1 := by bv_omega
    rcases hv with rfl | rfl
    · simp
    · rw [if_pos (by decide), BitVec.getLsbD_allOnes, decide_eq_true hth, beq_self_eq_true]
  case pmov =>
    exact fun d a u s k hi => insn_writeP_wroteP hi fun th hth _ => asPred_getLsbD k a hth

end Sys2Proof.IntegerControl
end

section
/-!
PROOFS. Shuffles, votes, MATCHV, ELECT, reductions, scans and REORD (R238 to R244).
-/

namespace Sys2Proof.IntegerControl

open Sys2Proof Sys2Proof.Machine Sys2Proof.Claims Sys2Proof.NumberFormats

/-! ### Shuffles, votes, MATCHV, ELECT -/

theorem exec_shuffleOps {e : (Opnd → Opnd → Opnd → Instr) × (Nat → Nat → Nat)} (he : e ∈ shuffleOps) (d a b : Opnd) (s : State) :
    exec (e.1 d a b) s = s.shuffle d a b e.2 := by
  simp only [shuffleOps, List.mem_cons, List.not_mem_nil, or_false] at he
  rcases he with rfl | rfl | rfl | rfl <;> rfl

/-- A mask meets a condition in none of its threads. -/
theorem and_eq_zero_iff (c x : BitVec 64) : c &&& x = 0 ↔ ∀ th ∈ threadsOf c, x.getLsbD th = false := by
  rw [BitVec.eq_of_getLsbD_eq_iff]
  refine forall_congr' fun th => ?_
  rw [mem_threadsOf, BitVec.getLsbD_and, BitVec.ofNat_eq_ofNat, BitVec.getLsbD_zero, Bool.and_eq_false_imp, and_imp]

/-- R240: the condition holds in every contributing thread. -/
theorem votea_eq (c x : BitVec 64) : (c &&& ~~~x == 0) = (threadsOf c).all fun th => x.getLsbD th := by
  rw [Bool.eq_iff_iff, beq_iff_eq, List.all_eq_true, and_eq_zero_iff]
  refine forall₂_congr fun th hth => ?_
  rw [BitVec.getLsbD_not, decide_eq_true (mem_threadsOf.mp hth).1, Bool.true_and, Bool.not_eq_false']

/-- R240: the condition holds in some contributing thread. -/
theorem votey_eq (c x : BitVec 64) : (c &&& x != 0) = (threadsOf c).any fun th => x.getLsbD th := by
  rw [Bool.eq_iff_iff, bne_iff_ne, List.any_eq_true, ne_eq, and_eq_zero_iff]
  simp

theorem exec_votea (d p u : Byte) (s : State) : exec (.votea d p u) s = s.vote d p u fun c x => c &&& ~~~x == 0 := rfl

theorem exec_votey (d p u : Byte) (s : State) : exec (.votey d p u) s = s.vote d p u fun c x => c &&& x != 0 := rfl

theorem vote_told {s : State} {k : Iss} {d p u : Byte} {f g : BitVec 64 → BitVec 64 → Bool}
    (hi : s.Issues k [quillChk k false, failIf (selOf d == .bad) 2 1, predChk 2 p, zeroChk 3 u]) (hf : ∀ c x, f c x = g c x) :
    ∃ t, s.vote d p u f = .next t ∧
      Told s k d (fun _ => g k.run (k.g.pred p.toNat)) (if g k.run (k.g.pred p.toNat) then 1 else 0) noFlags t := by
  refine ⟨_, State.insn_pass hi _, ?_⟩
  rw [hf]
  exact putVote_told (issues_group hi) (issues_selected hi (by simp)) _ _

/-- The 64 bits of a scalar are stored whole. -/
theorem putSca_n64 (s : State) (gid n : Nat) (v : DWord) : s.putSca gid .n64 (.sca n) v.toNat = s.writeS gid n v := by
  have hv : extendTo .n64 64 v.toNat = v.toNat := Nat.mod_eq_of_lt v.isLt
  rw [State.putSca, hv, dword, BitVec.ofNat_toNat, BitVec.setWidth_eq]

/-- R240: the contributing threads whose value is that of thread `th`. -/
def matching (k : Iss) (a : Opnd) (th : Nat) : BitVec 64 :=
  maskOf (((((threadsOf k.run).map fun t => (t, k.src k.ty a t)).filter fun p => p.2 == k.src k.ty a th)).map Prod.fst)

theorem matching_getLsbD (k : Iss) (a : Opnd) (th : Nat) {o : Nat} (ho : o < 64) :
    (matching k a th).getLsbD o = (k.run.getLsbD o && k.src k.ty a o == k.src k.ty a th) := by
  have hsame : ((((threadsOf k.run).map fun t => (t, k.src k.ty a t)).filter fun p => p.2 == k.src k.ty a th)).map Prod.fst =
      (threadsOf k.run).filter fun t => k.src k.ty a t == k.src k.ty a th := by
    rw [List.filter_map, List.map_map]
    exact List.map_id _
  rw [matching, hsame, maskOf_filter_threads _ _ ho]

/-- Settles O10: shuffles and MATCHV deliver a value in each thread, the others write a selected destination or a scalar. -/
theorem shuffleAndVoteResults : Obligations.ShuffleAndVoteResults := by
  unfold Obligations.ShuffleAndVoteResults
  refine ⟨?shuffle, ?vote, ?ballot, ?matchv, ?elect⟩
  case shuffle =>
    intro e he d a b s k hi
    rw [exec_shuffleOps he]
    exact insn_putVec_wrote (ty := fun i => moveTy i.ty) hi fun _ => rfl
  case vote =>
    intro e he d p u s k hi
    simp only [List.mem_cons, List.not_mem_nil, or_false] at he
    rcases he with rfl | rfl
    · rw [exec_votea]
      exact vote_told hi votea_eq
    · rw [exec_votey]
      exact vote_told hi votey_eq
  case ballot =>
    intro n p u s k hi
    exact ⟨_, State.insn_pass hi _, putSca_n64 s k.gid n _ ▸ writeS_wroteS (issues_group hi) n _⟩
  case matchv =>
    intro d a u s k hi
    exact ⟨_, matching k a, State.insn_pass hi _, putVec_wrote (raised_noFlags (issues_group hi)) _ _ _,
      fun th o _ ho => matching_getLsbD k a th ho⟩
  case elect =>
    intro d u s k hi
    have hd := issues_selected hi (d := d) (by simp)
    refine ⟨_, State.insn_pass hi _, ?_⟩
    cases (threadsOf k.run).head? with
    | none => exact putVote_told (issues_group hi) hd _ _
    | some r => exact putVote_told (issues_group hi) hd _ _

/-! ### Integer reductions (R241) -/

section
variable {k : Iss} (hint : isInt k.ty = true)
include hint

theorem reduce_add (vs : List Nat) : k.reduce .add vs = (wrapOrSat k.sat k.ty (vs.map (val k.ty)).sum, 0) := by
  simp only [Iss.reduce, hint, if_true, valOf_eq_val, wrapSat_eq, List.sum_eq_foldl]

theorem reduce_min (vs : List Nat) : k.reduce .min vs = (wrap k.ty ((vs.map (val k.ty)).foldl min (maxOf k.ty)), 0) := by
  simp only [Iss.reduce, hint, if_true, valOf_eq_val, wrapT_eq_wrap]

theorem reduce_max (vs : List Nat) : k.reduce .max vs = (wrap k.ty ((vs.map (val k.ty)).foldl max (minOf k.ty)), 0) := by
  simp only [Iss.reduce, hint, if_true, valOf_eq_val, wrapT_eq_wrap]

variable {vs : List Nat} (hne : vs ≠ [])
include hne

/-- The least value is that of a contributing thread, and no thread's is less. -/
theorem reduce_min_least : (∃ x ∈ vs, val k.ty (k.reduce .min vs).1 = val k.ty x) ∧
    ∀ x ∈ vs, val k.ty (k.reduce .min vs).1 ≤ val k.ty x := by
  have hxs : vs.map (val k.ty) ≠ [] := mt List.map_eq_nil_iff.mp hne
  obtain ⟨x, hx, hleast⟩ := List.mem_map.mp (List.min_mem hxs)
  obtain ⟨hlow, hhigh⟩ := val_mem_range k.ty x
  have hvalue : val k.ty (k.reduce .min vs).1 = val k.ty x := by
    rw [reduce_min hint, List.foldl_min_eq_min hxs, ← hleast, min_eq_right hhigh, val_wrap hlow hhigh]
  refine ⟨⟨x, hx, hvalue⟩, fun y hy => ?_⟩
  rw [hvalue, hleast]
  exact List.min_le_of_mem (List.mem_map_of_mem hy)

/-- The greatest value is that of a contributing thread, and no thread's is greater. -/
theorem reduce_max_greatest : (∃ x ∈ vs, val k.ty (k.reduce .max vs).1 = val k.ty x) ∧
    ∀ x ∈ vs, val k.ty x ≤ val k.ty (k.reduce .max vs).1 := by
  have hxs : vs.map (val k.ty) ≠ [] := mt List.map_eq_nil_iff.mp hne
  obtain ⟨x, hx, hgreatest⟩ := List.mem_map.mp (List.max_mem hxs)
  obtain ⟨hlow, hhigh⟩ := val_mem_range k.ty x
  have hvalue : val k.ty (k.reduce .max vs).1 = val k.ty x := by
    rw [reduce_max hint, List.foldl_max_eq_max hxs, ← hgreatest, max_eq_right hlow, val_wrap hlow hhigh]
  refine ⟨⟨x, hx, hvalue⟩, fun y hy => ?_⟩
  rw [hvalue, hgreatest]
  exact List.le_max_of_mem (List.mem_map_of_mem hy)

end

/-! ### Reductions and scans that raise no enabled exception -/

theorem gred_wrote {s : State} {k : Iss} {d a : Opnd} {u : Byte} {op : RedOp} (hi : s.Issues k [typeChk (redTy k.ty), quillChk k false,
      dstChk k 1 d (wide k.ty), srcChk k 2 a (wide k.ty) (k.ty == .f64), zeroChk 3 u])
    (hq : FpQuiet k false fun _ => k.reduce op ((threadsOf k.run).map (k.src k.ty a))) :
    ∃ t, s.gred d a u op = .next t ∧ Wrote s k k.ty d (Opnd.isSca d) (fun _ => (k.reduce op ((threadsOf k.run).map (k.src k.ty a))).1)
      (fpRaised k false fun _ => k.reduce op ((threadsOf k.run).map (k.src k.ty a))) t := by
  have hrs := crossLane_performed (not_quill hi (by simp)) fun _ => k.reduce op ((threadsOf k.run).map (k.src k.ty a))
  refine ⟨_, State.insn_pass hi _, ?_⟩
  dsimp only
  rw [← hrs, if_neg (not_not.mpr ((trappers_nil_iff _ _ _).mpr hq))]
  exact put_wrote (fpFlags_raised (issues_group hi) false _) _ _ _ _

theorem gscan_wrote {s : State} {k : Iss} {d a : Opnd} {op : Byte} {o : RedOp} (ho : scanOp op = some o)
    (hi : s.Issues k [typeChk (redTy k.ty), quillChk k false, vecChk k 1 d (wide k.ty), srcChk k 2 a (wide k.ty) (k.ty == .f64),
      failIf (scanOp op == none || decide (8 ≤ op.toNat)) 2 3])
    (hq : FpQuiet k false (scanned k o op a)) :
    ∃ t, exec (.gscan d a op) s = .next t ∧
      Wrote s k k.ty d false (fun th => (scanned k o op a th).1) (fpRaised k false (scanned k o op a)) t := by
  have hrs := crossLane_performed (not_quill hi (by simp)) (scanned k o op a)
  refine ⟨_, State.insn_pass hi _, ?_⟩
  simp only [ho, scan_results]
  rw [← hrs, if_neg (not_not.mpr ((trappers_nil_iff _ _ _).mpr hq))]
  refine wrote_congr (putVec_wrote (fpFlags_raised (issues_group hi) false _) _ _ _) (fun h => nomatch h) fun _ th hth hrun => ?_
  rw [hrs, find?_thread (mem_threadsOf.mpr ⟨hth, hrun⟩)]
  rfl

/-- Settles O11: `gred_wrote` and `gscan_wrote` deliver, `reduce_add`, `reduce_min_least` and `reduce_max_greatest` say what, and REORD changes its
gang alone. -/
theorem reductionAndReordResults : Obligations.ReductionAndReordResults := by
  unfold Obligations.ReductionAndReordResults
  refine ⟨⟨?reduce, ?scan⟩, ?integer, ?reord⟩
  case reduce =>
    intro e he d a u s k hi r hq
    rw [exec_reductions he]
    exact gred_wrote hi hq
  case scan => exact fun d a op o s k ho hi hq => gscan_wrote ho hi hq
  case integer =>
    intro k vs hint
    refine ⟨reduce_add hint vs, fun hvs => ?_, fun hne => ⟨(reduce_min_least hint hne).1, (reduce_max_greatest hint hne).1⟩, fun x hx => ?_⟩
    · subst hvs
      exact ⟨reduce_min hint [], reduce_max hint []⟩
    · have hne := List.ne_nil_of_mem hx
      exact ⟨(reduce_min_least hint hne).2 x hx, (reduce_max_greatest hint hne).2 x hx⟩
  case reord =>
    exact fun u key mask s k hi => ⟨_, State.insn_pass hi _, MemoryHierarchy.modIss_became (issues_group hi) fun _ => rfl⟩

end Sys2Proof.IntegerControl
end

section
/-!
PROOFS. Sign operations, conversions and packed instructions: their results where no enabled exception is raised (R253, R258 to R262). The
sign operations raise none at all.
-/

namespace Sys2Proof.NumberFormats

open Sys2Proof Sys2Proof.Machine Sys2Proof.Claims Sys2Proof.IntegerControl

/-! ### Sign and magnitude (R253) -/

/-- A vector of the type's width is a sign above the magnitude of `x` when its top bit is that sign and its other bits are those of `x`. -/
theorem toNat_eq_sign_add_mag {ty : EType} {v : BitVec (widthOf ty)} {neg : Bool} {x : Nat} (htop : v.getLsbD (widthOf ty - 1) = neg)
    (hlow : ∀ j < widthOf ty - 1, v.getLsbD j = x.testBit j) : v.toNat = signBit ty neg + magBits ty x := by
  have hsign : signBit ty neg = 2 ^ (widthOf ty - 1) * neg.toNat := by cases neg <;> simp [signBit]
  refine Nat.eq_of_testBit_eq fun j => ?_
  rw [hsign, magBits, Nat.testBit_two_pow_mul_add _ (Nat.mod_lt _ (Nat.two_pow_pos _)), BitVec.testBit_toNat]
  rcases lt_trichotomy j (widthOf ty - 1) with hj | rfl | hj
  · simp [hj, hlow j hj]
  · rw [if_neg (lt_irrefl _), htop, Nat.sub_self, Nat.testBit_bool_toNat]
    simp
  · rw [if_neg hj.not_gt, BitVec.getLsbD_of_ge _ _ (by omega), Nat.testBit_bool_toNat]
    simp [Nat.sub_ne_zero_of_lt hj]

/-- A pattern, of any number, below the width of the type. -/
theorem bits_getLsbD_of_lt {ty : EType} {j : Nat} (hj : j < widthOf ty) (x : Nat) : (bits ty x).getLsbD j = x.testBit j := by
  rw [bits, BitVec.getLsbD_ofNat, decide_eq_true hj, Bool.true_and]

/-- The vector of the sign bit alone. -/
theorem signMask_getLsbD (ty : EType) (j : Nat) : (BitVec.twoPow (widthOf ty) (widthOf ty - 1)).getLsbD j = decide (widthOf ty - 1 = j) := by
  rw [BitVec.getLsbD_twoPow, decide_eq_true (Nat.sub_one_lt (widthOf_pos ty).ne'), Bool.true_and]

section
variable (ty : EType) (x y : Nat)

/-- FABS: the sign bit is cleared. -/
theorem clearSign_eq : magBits ty x = (bits ty x &&& ~~~(BitVec.twoPow _ (widthOf ty - 1))).toNat := by
  rw [toNat_eq_sign_add_mag (neg := false) (x := x)]
  · exact (Nat.zero_add _).symm
  · rw [BitVec.getLsbD_and, BitVec.getLsbD_not, signMask_getLsbD]
    simp
  · intro j hj
    rw [BitVec.getLsbD_and, BitVec.getLsbD_not, signMask_getLsbD, bits_getLsbD_of_lt (by omega)]
    simp [hj.ne', show j < widthOf ty by omega]

/-- FNEG: the sign bit is flipped. -/
theorem flipSign_eq : signBit ty (!signOf ty x) + magBits ty x = (bits ty x ^^^ BitVec.twoPow _ (widthOf ty - 1)).toNat := by
  have hpos := widthOf_pos ty
  refine (toNat_eq_sign_add_mag ?_ fun j hj => ?_).symm
  · rw [BitVec.getLsbD_xor, signMask_getLsbD, bits_getLsbD_of_lt (by omega), decide_eq_true rfl, Bool.xor_true, signOf]
  · rw [BitVec.getLsbD_xor, signMask_getLsbD, bits_getLsbD_of_lt (by omega), decide_eq_false hj.ne', Bool.xor_false]

/-- FCPSGN: the sign bit is that of `y`. -/
theorem copySign_eq : signBit ty (signOf ty y) + magBits ty x =
    ((bits ty x &&& ~~~(BitVec.twoPow _ (widthOf ty - 1))) ||| (bits ty y &&& BitVec.twoPow _ (widthOf ty - 1))).toNat := by
  have hpos := widthOf_pos ty
  refine (toNat_eq_sign_add_mag ?_ fun j hj => ?_).symm
  · simp only [BitVec.getLsbD_or, BitVec.getLsbD_and, BitVec.getLsbD_not, signMask_getLsbD, bits_getLsbD_of_lt (Nat.sub_one_lt hpos.ne')]
    simp [signOf]
  · have hlt : j < widthOf ty := by omega
    simp only [BitVec.getLsbD_or, BitVec.getLsbD_and, BitVec.getLsbD_not, signMask_getLsbD, bits_getLsbD_of_lt hlt]
    simp [hj.ne', hlt]

end

/-! ### Instructions that raise no flag -/

theorem fpRaised_noFlags {k : Iss} {uni : Bool} {f : Nat → FRes} (hf : ∀ th, (f th).2 = 0) : fpRaised k uni f = noFlags := by
  funext th
  simp [fpRaised, hf, noFlags]

theorem fpQuiet_noFlags {k : Iss} {uni : Bool} {f : Nat → FRes} (hf : ∀ th, (f th).2 = 0) : FpQuiet k uni f := by
  simp [FpQuiet, fpRaised_noFlags hf, hf, noFlags]

/-- R253: an instruction that raises no flag never traps. -/
theorem insn_fpPut_wrote_noFlags {s : State} {k : Iss} {uni : Bool} {chk : Iss → List Chk} {ty : Iss → EType} {d : Opnd}
    {f : Iss → Nat → FRes} {r : Nat → Nat} (hi : s.Issues k (chk k)) (hquill : quillChk k uni ∈ chk k) (hf : ∀ th, f k th = (r th, 0)) :
    ∃ t, s.insn chk (fun i => s.fpPut i (ty i) d uni (f i)) = .next t ∧ Wrote s k (ty k) d uni r noFlags t := by
  have hflags : ∀ th, (f k th).2 = 0 := fun th => by rw [hf]
  obtain ⟨t, ht, hwrote⟩ := insn_fpPut_wrote (ty := ty) (d := d) (f := f) hi hquill (fpQuiet_noFlags hflags)
  refine ⟨t, ht, ?_⟩
  rw [fpRaised_noFlags hflags] at hwrote
  simpa only [hf] using hwrote

/-- Settles O13: no sign operation raises a flag (`insn_fpPut_wrote_noFlags`), and the model's sign above the magnitude of a is the pattern
with the sign bit alone moved. -/
theorem signOperationResults : Obligations.SignOperationResults := by
  unfold Obligations.SignOperationResults
  refine ⟨fun d a u s k hi => ⟨?abs, ?neg⟩, fun d a b s k hi => ?copy⟩
  case abs =>
    exact insn_fpPut_wrote_noFlags hi (List.mem_append_left _ (quillChk_mem_aluChk ..)) fun th => congrArg (·, 0) (clearSign_eq ..)
  case neg =>
    exact insn_fpPut_wrote_noFlags hi (List.mem_append_left _ (quillChk_mem_aluChk ..)) fun th => congrArg (·, 0) (flipSign_eq ..)
  case copy => exact insn_fpPut_wrote_noFlags hi (quillChk_mem_aluChk ..) fun th => congrArg (·, 0) (copySign_eq ..)

/-! ### CVTN (R259) -/

/-- A floating instruction whose thread `th` writes what `g th` makes of its result. -/
theorem fpStore_put_wrote {s : State} {k : Iss} {uni : Bool} {f : Nat → FRes} (hg : s.group k.gid = some k.g)
    (hquill : k.g.quill = true → uni = true) (hq : FpQuiet k uni f) (ty : EType) (d : Opnd) (g : Nat → Nat → Nat) :
    Wrote s k ty d uni (fun th => g th (f th).1) (fpRaised k uni f)
      (s.fpStore k uni f fun u v => u.put k ty d uni fun th => g th (v th)) := by
  rw [fpStore_quiet hq]
  refine wrote_congr (put_wrote (fpFlags_raised hg uni f) ty d _ uni) (fun huni => ?_) fun huni th hth hrun => ?_
  · subst huni
    rw [delivered_uniform]
  · subst huni
    rw [delivered_thread (Bool.not_eq_true _ ▸ fun h => Bool.false_ne_true (hquill h)) f hth hrun]

/-! ### Dot products of integers (R262) -/

/-- The model's running sum is the accumulator with the exact sum of the products. -/
theorem dotInt_eq (k : Iss) (acc : Nat) (xs ys : List Nat) : k.dotInt acc xs ys =
    (wrapOrSat k.sat .i32 (val .i32 acc + ((xs.zip ys).map fun p => val k.ty p.1 * val k.ty p.2).sum), 0) := by
  have hsum (l : List (Nat × Nat)) (c : Int) :
      l.foldl (fun c p => c + val k.ty p.1 * val k.ty p.2) c = c + (l.map fun p => val k.ty p.1 * val k.ty p.2).sum := by
    induction l generalizing c with
    | nil => simp
    | cons p l ih => rw [List.foldl_cons, ih, List.map_cons, List.sum_cons, Int.add_assoc]
  simp only [Iss.dotInt, valOf_eq_val, satT_eq_sat, wrapT_eq_wrap, hsum]
  rfl

/-- Settles O15: the conversions and the packed instructions deliver as `insn_fpPut_wrote` says, the integer dot products after `dotInt_eq`;
CVTN puts its result into the packed word (`fpStore_put_wrote`). -/
theorem conversionAndPackedResults : Obligations.ConversionAndPackedResults := by
  unfold Obligations.ConversionAndPackedResults
  refine ⟨⟨?cvt, ?cvtn, ?cvtw⟩, ?pair, ?dot⟩
  case cvt => exact fun d a c s k hi hq => insn_fpPut_wrote hi (by simp) hq
  case cvtn =>
    intro d a c s k hi f uni hq
    have huni : k.g.quill = true → uni = true := available_of_issues hi (by simp [uni])
    exact ⟨_, State.insn_pass hi _, fpStore_put_wrote (issues_group hi) huni hq .n32 d fun th =>
      putElem (widthOf k.ty) (cvtIdx c) (k.src .n32 d th)⟩
  case cvtw => exact fun d a c s k hi hq => insn_fpPut_wrote hi (by simp) hq
  case pair =>
    intro e he d a b s k hi half f uni hq
    rw [exec_pairOps he]
    exact insn_fpPut_wrote hi (by simp) hq
  case dot =>
    intro e he d a b s k hi xs ys total f uni hq
    rw [exec_dotOps he]
    unfold State.pdot
    simp only [dotInt_eq]
    exact insn_fpPut_wrote hi (by simp) hq

end Sys2Proof.NumberFormats
end

section
/-!
PROOFS. Class changes of a cluster (R341, R342), collective stalls and withdrawn members (R373, R374).
-/

namespace Sys2Proof.Scheduling

open Sys2Proof Sys2Proof.Machine Sys2Proof.Claims Sys2Proof.AddressSpaces

/-! ### Class changes (R341, R342) -/

/-- R342: a team that is resident on a core of the cluster holds the operating point. -/
theorem clusterHeld_iff (s : State) (cl : Nat) : s.clusterHeld cl = true ↔ ∃ e ∈ s.groups, e.2.core / 4 = cl ∧ e.2.presence ≠ .away := by
  simp [State.clusterHeld]

theorem exec_operatingPointMove_held {s : State} {cl : Nat} (h : s.clusterHeld cl = true) : exec (.operatingPointMove cl) s = .next s :=
  congrArg Host.Outcome.next (if_neg fun hmoves => by simp [h] at hmoves)

theorem exec_operatingPointMove_moves {s : State} {cl : Nat} (hchg : (s.cluster cl).chg = true) (hmoved : (s.cluster cl).moved = false)
    (h : s.clusterHeld cl = false) : exec (.operatingPointMove cl) s = .next (s.modCluster cl fun c =>
      { c with moved := true, vstep := s.classSteps.getD c.cls 9 }) :=
  congrArg Host.Outcome.next (if_pos ⟨hchg, by simp [hmoved], by simp [h]⟩)

/-! ### Withdrawn members (R374) -/

theorem unparkAll_collectives (s : State) : s.unparkAll.collectives = s.collectives := by
  refine foldl_related (R := fun s t => t.collectives = s.collectives) (fun _ => rfl) (fun hst htu => htu.trans hst) (fun s gid => ?_) _ s
  unfold State.unpark
  split
  · split <;> rfl
  · rfl

/-- R374: the collective without a member and its landing ranges. -/
def withoutMember (x : Collective) (dev fn : Nat) : Collective :=
  { members := x.members.filter (· != (dev, fn)), ranges := x.ranges.filter fun y => !(y.1 == dev && y.2.1 == fn) }

theorem withdrawn_collective {s : State} {c : Nat} {x : Collective} (h : KMap.get s.collectives c = some x) (dev fn : Nat) :
    KMap.get (s.withdrawn c dev fn).collectives c = some (withoutMember x dev fn) := by
  simp only [State.withdrawn, h, unparkAll_collectives, KMap.get_put_same]
  rfl

theorem mem_withoutMember (x : Collective) (dev fn : Nat) : (∀ m, m ∈ (withoutMember x dev fn).members ↔ m ∈ x.members ∧ m ≠ (dev, fn)) ∧
    ∀ r, r ∈ (withoutMember x dev fn).ranges ↔ r ∈ x.ranges ∧ ¬(r.1 = dev ∧ r.2.1 = fn) := by
  simp [withoutMember, imp_iff_not_or]

/-- Settles O51: each step is its own definition in the case that the clause names; that a withdrawn member is gone from its collective
survives the contexts that go on (`unparkAll_collectives`). -/
theorem classAndCollectiveSteps : Obligations.ClassAndCollectiveSteps := by
  unfold Obligations.ClassAndCollectiveSteps
  refine ⟨?request, ?move, ?complete, ?stall, ?withdrawn, ?unknown⟩
  case request =>
    intro s cl v hchg
    refine ⟨_, rfl, rfl, ?_⟩
    rw [State.cluster_modCluster_same]
    simp only [hchg, Bool.false_eq_true, if_false]
  case move =>
    intro s cl hchg hmoved
    refine ⟨fun hheld => exec_operatingPointMove_held ((clusterHeld_iff s cl).2 hheld), fun hempty => ?_⟩
    refine exec_operatingPointMove_moves hchg hmoved (Bool.eq_false_iff.2 fun hheld => ?_)
    obtain ⟨e, he, hcl, -⟩ := (clusterHeld_iff s cl).1 hheld
    exact hempty e he hcl
  case complete =>
    exact fun s cl hchg hmoved => congrArg Host.Outcome.next (if_pos ⟨hchg, hmoved⟩)
  case stall =>
    exact fun s c fn h => ⟨_, _, congrArg Host.Outcome.next (if_pos h), rfl⟩
  case withdrawn =>
    intro s c dev fn x hx
    exact ⟨_, withoutMember x dev fn, rfl, withdrawn_collective hx dev fn, mem_withoutMember x dev fn⟩
  case unknown =>
    intro s c dev fn h
    refine congrArg Host.Outcome.next ?_
    simp only [State.withdrawn, h]

end Sys2Proof.Scheduling
end

section
/-!
PROOFS. The rules that a run of LAUNCH commands is found to follow give back its arguments (R316, R317).
-/

namespace Sys2Proof.FrontEnd

open Sys2Proof Sys2Proof.Machine Sys2Proof.Claims

/-- All values are there exactly when each is. -/
theorem allSome_eq_some {α : Type} {xs : List (Option α)} {ys : List α} (h : allSome xs = some ys) : xs = ys.map some := by
  induction xs generalizing ys with
  | nil => cases h; rfl
  | cons x xs ih =>
    cases x with
    | none => cases h
    | some x =>
      obtain ⟨zs, hzs, rfl⟩ := Option.map_eq_some_iff.1 h
      rw [ih hzs, List.map_cons]

/-- A list whose values repeat after `p` places has at each place the value at that place modulo `p`. -/
theorem getD_mod_of_periodic {xs : List DWord} {p : Nat} (hp : 0 < p)
    (hrep : ∀ k < xs.length, k < p ∨ xs.getD k 0 = xs.getD (k - p) 0) {k : Nat} (hk : k < xs.length) :
    xs.getD k 0 = xs.getD (k % p) 0 := by
  induction k using Nat.strong_induction_on with
  | _ k ih =>
    rcases Nat.lt_or_ge k p with hlt | hge
    · rw [Nat.mod_eq_of_lt hlt]
    · rw [(hrep k hk).resolve_left (by omega), ih (k - p) (by omega) (by omega), ← Nat.mod_eq_sub_mod hge]

/-- R316: a rule that a list of values fits gives back each of them. -/
theorem ruleOf_at {xs : List DWord} {r : ArgRule} (h : ruleOf xs = some r) {k : Nat} (hk : k < xs.length) : r.at k = xs.getD k 0 := by
  unfold ruleOf at h
  dsimp only at h
  split at h
  · rename_i hconst
    cases h
    exact (eq_of_beq (List.all_eq_true.1 hconst k (List.mem_range.2 hk))).symm
  · split at h
    · rename_i haff
      cases h
      exact (eq_of_beq (List.all_eq_true.1 haff k (List.mem_range.2 hk))).symm
    · obtain ⟨p, hfind, rfl⟩ := Option.map_eq_some_iff.1 h
      have hmem := List.mem_of_find?_eq_some hfind
      have hpos : 0 < p := by simp at hmem; omega
      have hcyc := List.find?_some hfind
      simp only [Bool.and_eq_true, decide_eq_true_eq, List.all_eq_true, List.mem_range, Bool.or_eq_true, beq_iff_eq] at hcyc
      obtain ⟨hlen, hrep⟩ := hcyc
      have htake : (xs.take p).length = p := List.length_take_of_le (by omega)
      rw [getD_mod_of_periodic hpos hrep hk]
      show (xs.take p).getD (k % (xs.take p).length) 0 = _
      rw [htake]
      simp [List.getD_eq_getElem?_getD, Nat.mod_lt k hpos]

/-- R315, R316: the rules of a run begin with one for each argument of its last command, found from all its commands. -/
theorem rulesOf_rule {run : List Cmd} {rs : List ArgRule} (h : rulesOf run = some rs) : ∃ c ∈ run, ∀ i < Cmd.argc c,
    ∃ r, rs[i]? = some r ∧ ruleOf (run.map fun x => Cmd.arg x i) = some r := by
  unfold rulesOf at h
  split at h
  · cases h
  · rename_i c hlast
    split at h
    · cases h
    · split at h
      · cases h
      · rename_i ys hys
        split at h
        · cases h
        · cases h
          refine ⟨c, List.mem_of_getLast? hlast, fun i hi => ?_⟩
          have hat := congrArg (·[i]?) (allSome_eq_some hys)
          simp only [List.getElem?_map, List.getElem?_range hi, Option.map_some] at hat
          cases hy : ys[i]? with
          | none => rw [hy] at hat; cases hat
          | some r =>
            rw [hy] at hat
            refine ⟨r, ?_, Option.some.inj hat⟩
            rw [List.getElem?_append_left (List.getElem?_eq_some_iff.1 hy).1, hy]

/-- Settles O48: argument `i` of the run's launches is a list of values, and its rule gives each of them back (`ruleOf_at`). -/
theorem rulesGiveBackTheRun : Obligations.RulesGiveBackTheRun := by
  unfold Obligations.RulesGiveBackTheRun
  intro run rs k i c hrules hk hargc hi
  obtain ⟨last, hlast, hrule⟩ := rulesOf_rule hrules
  obtain ⟨r, hr, hfits⟩ := hrule i (hargc last hlast ▸ hi)
  have hlen : k < run.length := (List.getElem?_eq_some_iff.1 hk).1
  refine ⟨r, hr, (ruleOf_at hfits (by simpa using hlen)).trans ?_⟩
  simp [List.getD_eq_getElem?_getD, hk]

end Sys2Proof.FrontEnd
end

section
/-!
PROOFS. Barriers: what a completion step does, an arrival and a change of the byte count (R283, R284, R288).
-/

namespace Sys2Proof.SyncSystem

open Sys2Proof Sys2Proof.Machine Sys2Proof.Claims Sys2Proof.AddressSpaces Sys2Proof.MemoryHierarchy

/-! ### Reading a barrier back -/

theorem find?_key_map {α β : Type} [DecidableEq α] {f : α × β → α × β} (hf : ∀ e, (f e).1 = e.1) (l : List (α × β)) (j : α) :
    (l.map f).find? (fun e => e.1 == j) = (l.find? fun e => e.1 == j).map f := by
  rw [List.find?_map]
  exact congrArg (fun p => (l.find? p).map f) (funext fun e => by simp [hf])

theorem bar_setBar (s : State) (k j : BarKey) (b : Bar) : (s.setBar k b).bar j = if j = k then b else s.bar j := by
  unfold State.setBar State.bar
  split
  · rename_i hany
    rw [find?_key_map (fun e => by split <;> simp_all)]
    split
    · subst j
      have hfound : (s.bars.find? fun e => e.1 == k).isSome = true := List.find?_isSome.2 (List.any_eq_true.1 hany)
      obtain ⟨x, hx⟩ := Option.isSome_iff_exists.1 hfound
      have hxk : x.1 = k := by simpa using List.find?_some hx
      simp [hx, hxk]
    · rename_i hjk
      cases hx : s.bars.find? fun e => e.1 == j with
      | none => rfl
      | some x =>
        have hxj : x.1 = j := by simpa using List.find?_some hx
        simp [hxj, hjk]
  · rename_i hnone
    rw [List.find?_append]
    split
    · subst j
      have hfind : s.bars.find? (fun e => e.1 == k) = none := List.find?_eq_none.2 fun e he hk => hnone (List.any_eq_true.2 ⟨e, he, hk⟩)
      simp [hfind]
    · rename_i hjk
      have hkj : (k == j) = false := by simpa using Ne.symm hjk
      simp [hkj]

theorem setBar_only (s : State) (k : BarKey) (b : Bar) : s.setBar k b = { s with bars := (s.setBar k b).bars } := by
  unfold State.setBar
  split <;> rfl

/-! ### The completion step (R284) -/

/-- R284: the phase is complete; `fell` says that C has just become 0 from another value. -/
def Completes (b : Bar) (fell : Bool) : Prop := (b.a = b.e ∧ 0 < b.e ∧ b.c = 0) ∨ (b.e = 0 ∧ fell = true ∧ b.c = 0)

/-- R284: a barrier after its completion step. -/
def advanced (b : Bar) : Bar := { b with p := (b.p + 1) % 65536, a := 0, e := b.e - b.late, late := 0 }

/-- R285: context `e` after the completion step of barrier `k`: for each code by which it names the barrier its gangs are released. -/
def releasedBy (s : State) (k : BarKey) (e : Nat × Group) (codes : List Byte) : Group :=
  codes.foldl (fun g code => match barCode code with
    | some c => if s.barKey e.1 e.2 c = k then g.released c code else g
    | none => g) e.2

theorem barCheck_stays {s : State} {k : BarKey} {fell : Bool} (h : ¬ Completes (s.bar k) fell) : s.barCheck k fell = s := if_neg h

theorem barCheck_completes {s : State} {k : BarKey} {fell : Bool} (h : Completes (s.bar k) fell) : s.barCheck k fell =
    { s.setBar k (advanced (s.bar k)) with groups := s.groups.map fun e => (e.1, releasedBy s k e allBarCodes) } := by
  have hgroups : (s.setBar k (advanced (s.bar k))).groups = s.groups := by rw [setBar_only]
  rw [← hgroups]
  exact if_pos h

theorem barCheck_bar (s : State) (k : BarKey) (fell : Bool) : (Completes (s.bar k) fell → (s.barCheck k fell).bar k = advanced (s.bar k)) ∧
    (¬ Completes (s.bar k) fell → (s.barCheck k fell).bar k = s.bar k) ∧ ∀ j, j ≠ k → (s.barCheck k fell).bar j = s.bar j := by
  refine ⟨fun h => ?_, fun h => by rw [barCheck_stays h], fun j hj => ?_⟩
  · rw [barCheck_completes h]
    exact (bar_setBar s k k _).trans (if_pos rfl)
  · by_cases h : Completes (s.bar k) fell
    · rw [barCheck_completes h]
      exact (bar_setBar s k j _).trans (if_neg hj)
    · rw [barCheck_stays h]

/-! ### O27 -/

/-- R283: where the phase still needs all the threads of `m`, an arrival counts each of them, and completion is judged. -/
theorem barArrive_counts {s : State} {gid : Nat} {c : BarCode} {key : BarKey} {m : BitVec 64}
    (h : (threadsOf m).length ≤ (s.bar key).e - (s.bar key).a) : ∃ u : State, u.bars = s.bars ∧ s.barArrive gid c key m =
      (u.setBar key { s.bar key with a := (s.bar key).a + (threadsOf m).length }).barCheck key false := by
  refine ⟨s.modGroup gid fun g => { g with
    arrived := KMap.put g.arrived c.bit (KMap.getD g.arrived c.bit 0 ||| maskOf (threadsOf m)) }, rfl, ?_⟩
  simp only [State.barArrive, List.take_of_length_le h]

theorem bar_of_bars {s u : State} (h : u.bars = s.bars) (j : BarKey) : u.bar j = s.bar j := by rw [State.bar, h, State.bar]

/-- Settles O27: the arrival has counted its threads when the completion step is judged (`barArrive_counts`, `barCheck_bar`). -/
theorem barrierPhases : Obligations.BarrierPhases := by
  unfold Obligations.BarrierPhases
  intro s gid c key m b n b1 hpos hroom
  obtain ⟨u, hu, harrive⟩ := barArrive_counts (s := s) (gid := gid) (c := c) (key := key) (m := m) (show n ≤ b.e - b.a by omega)
  obtain ⟨hcomplete, hstay, hother⟩ := barCheck_bar (u.setBar key { b with a := b.a + n }) key false
  rw [bar_setBar, if_pos rfl] at hcomplete hstay
  refine ⟨fun ⟨hall, hc⟩ => ?_, fun hnot => ?_, fun other hne => ?_⟩
  · exact (congrArg (State.bar · key) harrive).trans (hcomplete (.inl ⟨hall, hpos, hc⟩))
  · refine (congrArg (State.bar · key) harrive).trans (hstay ?_)
    rintro (⟨hall, -, hc⟩ | ⟨-, hfell, -⟩)
    · exact hnot ⟨hall, hc⟩
    · exact Bool.false_ne_true hfell
  · rw [harrive, hother other hne, bar_setBar, if_neg hne, bar_of_bars hu]

end Sys2Proof.SyncSystem
end

section
/-!
PROOFS. Bytes that stay when contexts change; the byte count of a barrier, and waiting on one (R284, R285, R288).
-/

namespace Sys2Proof.SyncSystem

open Sys2Proof Sys2Proof.Machine Sys2Proof.Claims Sys2Proof.AddressSpaces Sys2Proof.MemoryHierarchy Sys2Proof.ExecutionModel

/-! ### Changes of many contexts -/

theorem get_mapEntries {α : Type} (m : KMap α) (f : Nat × α → α) (k : Nat) :
    KMap.get (m.map fun e => (e.1, f e)) k = (KMap.get m k).map fun x => f (k, x) := by
  induction m with
  | nil => rfl
  | cons e m ih =>
    obtain ⟨a, x⟩ := e
    simp only [List.map_cons, KMap.get, ih]
    split
    · subst k; rfl
    · rfl

/-- Where memories, teams and what places a byte stay, and each context keeps its spill stack, no byte changes. -/
theorem sameBytes_of_stacks {s t : State} (hdomain : ∀ o a, t.memGet o a = s.memGet o a)
    (hlocal : t.scratch = s.scratch ∧ t.host = s.host ∧ t.teams = s.teams)
    (hstack : ∀ g, (t.group g).map Group.stack = (s.group g).map Group.stack) : SameBytes s t := by
  obtain ⟨hscratch, hhost, hteams⟩ := hlocal
  intro o l
  cases l with
  | dpa a => exact hdomain o a
  | host a => rw [State.locGet, hhost, State.locGet]
  | place p off =>
    cases p with
    | team tm c => simp only [State.locGet, State.placeGet, hteams]
    | scratch d => simp only [State.locGet, State.placeGet, hscratch]
    | stack g th =>
      have h := hstack g
      simp only [State.locGet, State.placeGet]
      cases hs : s.group g <;> cases ht : t.group g <;> simp_all

/-! ### The contexts after a completion step (R285) -/

/-- A gang after the completion step of the barrier with code `b`. -/
def freed (b : Byte) (k : Gang) : Gang :=
  match k.hold with
  | .barrier b' => if b' = b then { k with hold := .none } else k
  | .park (.barrier b') cont => if b' = b then { k with hold := .park (.met b) cont } else k
  | _ => k

theorem released_only (g : Group) (c : BarCode) (b : Byte) : g.released c b =
    { g with nibs := (g.released c b).nibs, gangs := g.gangs.map (freed b), arrived := (g.released c b).arrived } := by
  unfold Group.released
  dsimp only
  rw [modNibs_only]
  rfl

/-- A gang that holds for a barrier after a completion step held for it before, and not by the code of the step. -/
theorem freed_barrier {b b' : Byte} {k : Gang} (h : (freed b k).hold = .barrier b') : k.hold = .barrier b' ∧ b' ≠ b := by
  unfold freed at h
  split at h
  · split at h
    · cases h
    · rename_i hk hne
      rw [hk] at h
      cases h
      exact ⟨hk, hne⟩
  · split at h
    · cases h
    · rename_i hk _
      rw [hk] at h
      cases h
  · rename_i hnot _
    exact absurd h (hnot b')

theorem releasedBy_stack (s : State) (k : BarKey) (e : Nat × Group) (codes : List Byte) : (releasedBy s k e codes).stack = e.2.stack := by
  refine List.foldlRecOn codes _ (motive := fun h : Group => h.stack = e.2.stack) rfl fun h hh code _ => ?_
  split
  · split
    · rw [released_only]; exact hh
    · exact hh
  · exact hh

/-- Some step of a fold makes what the later ones keep. -/
theorem foldl_establishes {α β : Type} {P : β → Prop} {f : β → α → β} (hkeep : ∀ y x, P y → P (f y x)) {a : α} (hmake : ∀ y, P (f y a))
    {l : List α} (ha : a ∈ l) (y : β) : P (l.foldl f y) := by
  obtain ⟨l₁, l₂, rfl⟩ := List.append_of_mem ha
  rw [List.foldl_append, List.foldl_cons]
  exact List.foldlRecOn l₂ f (hmake _) fun z hz x _ => hkeep z x hz

/-- R285: no gang of the context holds any longer for a barrier that a code names for it. -/
theorem releasedBy_no_hold {s : State} {k : BarKey} {e : Nat × Group} {codes : List Byte} {code : Byte} {c : BarCode} (hmem : code ∈ codes)
    (hc : barCode code = some c) (hkey : s.barKey e.1 e.2 c = k) : ∀ z ∈ (releasedBy s k e codes).gangs, z.hold ≠ .barrier code := by
  have hfreed : ∀ (g : Group) (c' : BarCode) (b : Byte), (∀ z ∈ g.gangs, z.hold ≠ .barrier code) ∨ b = code →
      ∀ z ∈ (g.released c' b).gangs, z.hold ≠ .barrier code := by
    intro g c' b hg z hz hhold
    rw [released_only] at hz
    obtain ⟨y, hy, rfl⟩ := List.mem_map.1 hz
    obtain ⟨hbefore, hne⟩ := freed_barrier hhold
    exact hg.elim (fun h => h y hy hbefore) fun h => hne h.symm
  refine foldl_establishes (P := fun g : Group => ∀ z ∈ g.gangs, z.hold ≠ .barrier code) (fun g b hg => ?_) (fun g => ?_) hmem e.2
  · split
    · split
      · exact hfreed g _ b (.inl hg)
      · exact hg
    · exact hg
  · simp only [hc, if_pos hkey]
    exact hfreed g c code (.inr rfl)

theorem mem_allBarCodes {b : Byte} {c : BarCode} (h : barCode b = some c) : b ∈ allBarCodes := by
  have hb : byte b.toNat = b := by simp
  refine List.mem_map.2 ⟨b.toNat, ?_, hb⟩
  unfold barCode at h
  simp only [List.mem_append, List.mem_map, List.mem_range]
  dsimp only at h
  split at h
  · exact .inl (.inl (.inl ‹_›))
  split at h
  · cases h
  split at h
  · exact .inl (.inl (.inr ⟨b.toNat - 0x10, by omega, by omega⟩))
  split at h
  · exact .inl (.inr ⟨b.toNat - 0x20, by omega, by omega⟩)
  split at h
  · cases h
  split at h
  · exact .inr ⟨b.toNat - 0x30, by omega, by omega⟩
  · cases h

/-- The completion step changes barriers and contexts, and no byte. -/
theorem barCheck_frame (s : State) (k : BarKey) (fell : Bool) :
    s.barCheck k fell = { s with bars := (s.barCheck k fell).bars, groups := (s.barCheck k fell).groups } ∧ SameBytes s (s.barCheck k fell) := by
  by_cases h : Completes (s.bar k) fell
  · rw [barCheck_completes h, setBar_only]
    refine ⟨rfl, sameBytes_of_stacks (fun o a => rfl) ⟨rfl, rfl, rfl⟩ fun g => ?_⟩
    rw [State.group, get_mapEntries, State.group]
    cases KMap.get s.groups g with
    | none => rfl
    | some x => exact congrArg some (releasedBy_stack s k (g, x) allBarCodes)
  · rw [barCheck_stays h]
    exact ⟨rfl, fun _ _ => rfl⟩

/-! ### The byte count (R284, R288) -/

theorem setBar_sameBytes (s : State) (k : BarKey) (b : Bar) : SameBytes s (s.setBar k b) := by
  rw [setBar_only]
  exact sameBytes_of_stacks (fun _ _ => rfl) ⟨rfl, rfl, rfl⟩ fun _ => rfl

theorem setBar_barKey (s : State) (k : BarKey) (b : Bar) (gid : Nat) (g : Group) (c : BarCode) :
    (s.setBar k b).barKey gid g c = s.barKey gid g c := by
  rw [setBar_only]
  rfl

theorem setBar_groups (s : State) (k : BarKey) (b : Bar) : (s.setBar k b).groups = s.groups := by rw [setBar_only]

theorem barBytes_countsBytes (s : State) (key : BarKey) (d : Int) : CountsBytes s key d (s.barBytes key d) := by
  unfold CountsBytes
  intro b c completes
  have hbytes : s.barBytes key d = (s.setBar key { b with c := c }).barCheck key (decide (b.c ≠ 0)) := rfl
  have hbar : (s.setBar key { b with c := c }).bar key = { b with c := c } := (bar_setBar s key key _).trans (if_pos rfl)
  have hiff : Completes ((s.setBar key { b with c := c }).bar key) (decide (b.c ≠ 0)) ↔ completes := by
    rw [hbar]
    simp [Completes, completes]
  obtain ⟨hadvance, hstay, hother⟩ := barCheck_bar (s.setBar key { b with c := c }) key (decide (b.c ≠ 0))
  obtain ⟨honly, hsame⟩ := barCheck_frame (s.setBar key { b with c := c }) key (decide (b.c ≠ 0))
  rw [hbytes]
  refine ⟨?_, fun o l => (hsame o l).trans (setBar_sameBytes s key _ o l), fun other hne => ?_, fun hnot => ?_, fun hcomplete => ⟨?_, ?_⟩⟩
  · rw [honly, setBar_only]
  · rw [hother other hne, bar_setBar, if_neg hne]
  · exact ⟨by rw [barCheck_stays (mt hiff.1 hnot), setBar_groups], (hstay (mt hiff.1 hnot)).trans hbar⟩
  · rw [hadvance (hiff.2 hcomplete), hbar]
    rfl
  · intro g x y hx hy code cd hcd hkey
    have hgroup : some (releasedBy (s.setBar key { b with c := c }) key (g, x) allBarCodes) = some y := by
      rw [← hy, barCheck_completes (hiff.2 hcomplete), State.group, get_mapEntries, setBar_groups, ← State.group, hx]
      rfl
    obtain rfl := Option.some.inj hgroup
    exact releasedBy_no_hold (mem_allBarCodes hcd) hcd ((setBar_barKey s key _ g x cd).trans hkey)

/-! ### Waiting (R285) -/

/-- R285, R290: the context of a gang that waits on a barrier which the nibs in `goes` may pass. -/
def waitedAt (g : Group) (gang : Gang) (c : BarCode) (goes : Nat → Bool) (hold : Hold) (onward : Option DWord) : Group :=
  let cl : Option ClauseBuf := match onward with | some _ => none | none => gang.clause
  let toggledNibs := (gang.eachNib.filter goes).foldl (fun g n => g.modNib n (toggled c)) g
  ((toggledNibs.dropGang gang.id).addGang { gang with nibs := gang.eachNib.filter goes, pc := onward.getD gang.pc, clause := cl }).addGang
    { gang with nibs := gang.eachNib.filter fun n => !goes n, hold := hold, clause := cl }

theorem barWait_eq {s : State} {k : Iss} {g : Group} {gang : Gang} (hg : s.group k.gid = some g) (hgang : g.gang k.gang.id = some gang)
    (c : BarCode) (hold : Hold) (onward : Option DWord) :
    s.barWait k c hold onward = s.setGroup k.gid (waitedAt g gang c (s.barOpen g c (s.barKey k.gid k.g c)) hold onward) := by
  simp only [State.barWait, hg, hgang]
  cases onward <;> rfl

section
variable (g : Group) (gang : Gang) (c : BarCode) (goes : Nat → Bool) (hold : Hold) (onward : Option DWord)

theorem waitedAt_only : waitedAt g gang c goes hold onward =
    { g with nibs := (waitedAt g gang c goes hold onward).nibs, gangs := (waitedAt g gang c goes hold onward).gangs } := by
  unfold waitedAt
  dsimp only
  rw [addGang_only, addGang_only, modNibs_only]
  rfl

theorem waitedAt_stack : (waitedAt g gang c goes hold onward).stack = g.stack := by rw [waitedAt_only]

theorem mem_waitedAt (x : Gang) : x ∈ (waitedAt g gang c goes hold onward).gangs ↔ (x ∈ g.gangs ∧ x.id ≠ gang.id) ∨ (x.nibs ≠ [] ∧
    (let cl : Option ClauseBuf := match onward with | some _ => none | none => gang.clause
     x = { gang with nibs := gang.eachNib.filter goes, pc := onward.getD gang.pc, clause := cl } ∨
     x = { gang with nibs := gang.eachNib.filter fun n => !goes n, hold := hold, clause := cl })) := by
  have hdrop : ∀ h : Group, x ∈ (h.dropGang gang.id).gangs ↔ x ∈ h.gangs ∧ x.id ≠ gang.id := fun h => by simp [Group.dropGang]
  unfold waitedAt
  dsimp only
  rw [mem_addGang, mem_addGang, hdrop, modNibs_only]
  constructor
  · rintro ((h | ⟨hne, rfl⟩) | ⟨hne, rfl⟩)
    · exact .inl h
    · exact .inr ⟨hne, .inl rfl⟩
    · exact .inr ⟨hne, .inr rfl⟩
  · rintro (h | ⟨hne, rfl | rfl⟩)
    · exact .inl (.inl h)
    · exact .inl (.inr ⟨hne, rfl⟩)
    · exact .inr ⟨hne, rfl⟩

theorem nib_waitedAt {n : Nat} (hn : n < g.nibs.length) : (waitedAt g gang c goes hold onward).nib n =
    if n < 4 ∧ n ∈ gang.nibs ∧ goes n = true then toggled c (g.nib n) else g.nib n := by
  have hnibs : (waitedAt g gang c goes hold onward).nibs = ((gang.eachNib.filter goes).foldl (fun g n => g.modNib n (toggled c)) g).nibs := by
    unfold waitedAt
    dsimp only
    rw [addGang_nibs, addGang_nibs]
    rfl
  rw [nib_congr hnibs, nib_modNibs (toggled c) ((eachNib_nodup gang).filter _) g hn]
  simp only [List.mem_filter, mem_eachNib, and_assoc]

end

theorem barWait_waitsAt (s : State) (k : Iss) (c : BarCode) (hold : Hold) (onward : Option DWord) :
    WaitsAt s k c hold onward (s.barWait k c hold onward) := by
  intro g gang hg hgang goes cl
  refine ⟨waitedAt g gang c goes hold onward, ?_, ⟨waitedAt_only g gang c goes hold onward, mem_waitedAt g gang c goes hold onward⟩,
    fun n hn => nib_waitedAt g gang c goes hold onward hn⟩
  rw [barWait_eq hg hgang]
  exact ⟨setGroup_inContexts hg (waitedAt_stack g gang c _ hold onward), State.group_setGroup_same s k.gid _⟩

end Sys2Proof.SyncSystem
end

section
/-!
PROOFS. The barrier instructions and PARK (R286 to R290).
-/

namespace Sys2Proof.SyncSystem

open Sys2Proof Sys2Proof.Machine Sys2Proof.Claims Sys2Proof.MemoryHierarchy Sys2Proof.Ordering Sys2Proof.IntegerControl

/-! ### What the instructions share -/

section
variable {s : State} {k : Iss} {c : BarCode} {arrives : Bool} {after : State → State}

theorem barUse_disabled (h : s.barEnabled k.g c = false) : s.barUse k c arrives after = s.trap k 0x0E 1 := if_pos (by simp [h])

theorem barUse_stranger (h : s.barEnabled k.g c = true) (hm : s.barMember k.g c = false) : s.barUse k c true after = s.trap k 0x0E 2 :=
  (if_neg (by simp [h])).trans (if_pos (by simp [hm]))

theorem barUse_admitted (h : s.barEnabled k.g c = true) (hm : arrives = true → s.barMember k.g c = true) : s.barUse k c arrives after = after s :=
  (if_neg (by simp [h])).trans (if_neg fun hbad => by simp [hm hbad.1] at hbad)

/-- R59, R352: a wait with no held and no failed operation goes on. -/
theorem atWait_over (hheld : (s.opsAll k.gid).filter s.isHeld = []) (hfailed : k.g.failed = []) : s.atWait k after = after s :=
  awaitOps_over hheld hfailed

/-- R134, R286: with its stores performed a gang arrives; an arrival in excess is the misuse fault. -/
theorem arriveAt_performed (h : s.storesPending k.gid k.g c.scope = []) : s.arriveAt k c after =
    (let key := s.barKey k.gid k.g c
     let s1 := s.barArrive k.gid c key k.active
     if (s.bar key).e - (s.bar key).a < (threadsOf k.active).length then (if s.speculative k.g then s else s1).trap k 0x0E 3
     else after s1) := by
  refine (if_neg (not_not_intro h)).trans ?_
  dsimp only
  by_cases hroom : (threadsOf k.active).length ≤ (s.bar (s.barKey k.gid k.g c)).e - (s.bar (s.barKey k.gid k.g c)).a
  · rw [if_pos hroom, if_neg (Nat.not_lt_of_le hroom)]
  · rw [if_neg hroom, if_pos (Nat.lt_of_not_le hroom)]

end

/-! ### BAR, BARA, BARW, BARX, BARQ -/

/-- The checks of the barrier instructions, in the order of R35. -/
def barChks (ua ub b : Byte) (k : Iss) : List Chk := [quillChk k false, zeroChk 1 ua, zeroChk 2 ub, codeChk 3 b, failIf k.masked 0x0A 2]
def baraChks (ua ub b : Byte) (k : Iss) : List Chk := [quillChk k false, zeroChk 1 ua, zeroChk 2 ub, codeChk 3 b]
def barxChks (ua : Byte) (n : Opnd) (b : Byte) (k : Iss) : List Chk :=
  [quillOpnds k [n], zeroChk 1 ua, failIf (!Opnd.isUni n) 2 2, valueChk 2 n (decide (0x7FFFFFFF < k.uni32 n)), failIf (!isTeamBar b) 2 3,
    litChk n (decide (0x7FFFFFFF < k.uni32 n))]

section
variable {s : State} {k : Iss} {b : Byte} {c : BarCode} (hc : barCode b = some c)
include hc

/-- What BAR, which arrives, and BARW, which does not, come to once their checks pass. -/
theorem exec_barWaits {e : (Byte → Byte → Byte → Instr) × Bool}
    (he : e ∈ ([(.bar, true), (.barw, false)] : List ((Byte → Byte → Byte → Instr) × Bool)))
    {ua ub : Byte} (hi : s.Issues k (barChks ua ub b k)) : exec (e.1 ua ub b) s = .next (s.barUse k c e.2 fun s => s.atWait k fun s =>
      if e.2 then s.arriveAt k c fun s => s.barWait k c (.barrier b) none else s.barWait k c (.barrier b) none) := by
  simp only [List.mem_cons, List.not_mem_nil, or_false] at he
  rcases he with rfl | rfl <;> refine (State.insn_pass hi _).trans (congrArg Host.Outcome.next ?_) <;> simp [hc]

theorem exec_bara {ua ub : Byte} (hi : s.Issues k (baraChks ua ub b k)) :
    exec (.bara ua ub b) s = .next (s.barUse k c true fun s => s.arriveAt k c fun s => s) :=
  (State.insn_pass hi _).trans (congrArg Host.Outcome.next (by simp only [hc]))

theorem exec_barx {ua : Byte} {n : Opnd} (hi : s.Issues k (barxChks ua n b k)) (hen : s.barEnabled k.g c = true) :
    exec (.barx ua n b) s = .next (let key := s.barKey k.gid k.g c
      if 2147483647 < (s.bar key).c + (k.uni32 n : Int) then s.trap k 0x0E 4 else s.barBytes key (k.uni32 n)) :=
  (State.insn_pass hi _).trans (congrArg Host.Outcome.next (by simp only [hc]; exact barUse_admitted hen (by simp)))

end

/-! ### O26 -/

/-- Settles O26: each instruction is its use of the barrier behind its checks; what waiting and a change of the byte count leave is
`barWait_waitsAt` and `barBytes_countsBytes`. -/
theorem barrierAndParkResults : Obligations.BarrierAndParkResults := by
  unfold Obligations.BarrierAndParkResults
  refine ⟨⟨?waits, ?bara, ?barx⟩, barWait_waitsAt, barBytes_countsBytes, ?barq, ?parkBarrier, ?parkCounter⟩
  case waits =>
    intro e he ua ub b c s k hc hi
    rw [exec_barWaits hc he hi]
    refine ⟨fun hoff => congrArg _ (barUse_disabled hoff), fun hon harr hout => congrArg _ ?_,
      fun hon hin hheld hfailed hstores => congrArg _ ?_⟩
    · rw [harr]
      exact barUse_stranger hon hout
    · rw [barUse_admitted hon hin, atWait_over hheld hfailed, arriveAt_performed hstores]
      cases e.2 <;> simp
  case bara =>
    intro ua ub b c s k hc hi hon hin hstores
    rw [exec_bara hc hi, barUse_admitted hon fun _ => hin, arriveAt_performed hstores]
  case barx =>
    intro ua n b c s k hc hi hon
    have hexec := exec_barx hc hi hon
    intro key
    split
    · exact hexec.trans (congrArg _ (if_pos ‹_›))
    · exact ⟨_, hexec.trans (congrArg _ (if_neg ‹_›)), barBytes_countsBytes s _ _⟩
  case barq =>
    intro n ub b c s k hc hi
    refine ⟨_, (State.insn_pass hi _).trans (congrArg Host.Outcome.next (by simp only [hc]; rfl)), ?_⟩
    have hval : dword (s.barq k c) = if s.barEnabled k.g c then
        let x := s.bar (s.barKey k.gid k.g c)
        dword ((BitVec.ofInt 32 x.c).toNat * 2 ^ 32 + x.p % 2 * 2 ^ 31 +
          (if !k.g.quill && (k.g.nib k.gang.id).phase.getLsbD c.bit then 2 ^ 30 else 0) + (x.e - x.a) % 2 ^ 30)
      else 0 := by
      unfold State.barq
      split <;> rfl
    exact hval ▸ writeS_wroteS (issues_group hi) n (dword (s.barq k c))
  case parkBarrier =>
    intro u off cond c s k hc hi
    have hexec : exec (.parkBarrier u off cond) s = .next (s.barUse k c false fun s => s.atWait k fun s => s.barWait k c
        (.park (.barrier (byte cond.toNat)) (k.target off.toInt)) (some (k.target off.toInt))) :=
      (State.insn_pass hi _).trans (congrArg Host.Outcome.next (by simp only [hc]))
    rw [hexec]
    refine ⟨fun hoff => congrArg _ (barUse_disabled hoff), fun hon hheld hfailed => congrArg _ ?_⟩
    rw [barUse_admitted hon (by simp), atWait_over hheld hfailed]
    rfl
  case parkCounter =>
    intro u off cond c s k hc hi hheld hfailed at_ n
    have hexec : exec (.parkCounter u off cond) s = .next (if s.counter k.gid c ≤ n then s.goTo k at_
        else s.modGang k fun x => { x with hold := .park (.counter c n) at_, clause := none }) :=
      (State.insn_pass hi _).trans (congrArg Host.Outcome.next (by simp only [hc]; exact atWait_over hheld hfailed))
    refine ⟨_, hexec, ?_⟩
    split
    · exact modIss_became (issues_group hi) fun _ => rfl
    · exact modIss_became (issues_group hi) fun _ => rfl

end Sys2Proof.SyncSystem
end

section
/-!
PROOFS. MLOOP and MZERO (R272, R273, R278, R280).
-/

namespace Sys2Proof.MatrixUnit

open Sys2Proof Sys2Proof.Machine Sys2Proof.Claims Sys2Proof.MemoryHierarchy Sys2Proof.IntegerControl

/-! ### The checks of MLOOP -/

/-- Field A passes on a vector register only (R273). -/
theorem fragChk_vec {k : Iss} {o : Opnd} {regs : Nat} {skip : Bool} (h : fragChk k o regs skip = none) : ∃ n, o = .vec n := by
  cases o with
  | vec n => exact ⟨n, rfl⟩
  | _ => cases h

/-- Field B passes on a scalar only (R94). -/
theorem sbChk_sca {fld : Nat} {o : Opnd} (h : sbChk fld o = none) : ∃ n, o = .sca n := by
  cases o with
  | sca n => exact ⟨n, rfl⟩
  | _ => cases h

/-- R187, R278: what fields A and B may name in any context, a quill context admits. -/
theorem quillMloopChk_passes {k : Iss} {frag blk : Opnd} {regs fld : Nat} {skip : Bool} (ha : fragChk k frag regs skip = none)
    (hb : sbChk fld blk = none) : quillMloopChk k frag blk = none := by
  obtain ⟨n, rfl⟩ := fragChk_vec ha
  obtain ⟨m, rfl⟩ := sbChk_sca hb
  simp [quillMloopChk, quillOpnds, failIf]

/-! ### MLOOP -/

/-- The checks of MLOOP that O25 names. -/
def mloopChks (s : State) (k : Iss) (frag blk : Opnd) (grp : Nat) : List Chk :=
  let b := k.matBlk (scaNo blk)
  [fragChk k frag b.regs (b.shape == 3), sbChk 2 blk, s.mloopGrpChk k frag b grp]

section
variable {s : State} {k : Iss} {frag blk : Opnd} {grp : Nat}

theorem issues_mloop (hi : s.Issues k (mloopChks s k frag blk grp)) : s.Issues k (quillMloopChk k frag blk :: mloopChks s k frag blk grp) := by
  obtain ⟨hissuer, hchk⟩ := hi
  have hfield : ∀ c ∈ mloopChks s k frag blk grp, c = none := fun c hc => NumberFormats.firstChk_passes hchk hc
  refine ⟨hissuer, ?_⟩
  rw [quillMloopChk_passes (hfield _ List.mem_cons_self) (hfield _ (List.mem_cons_of_mem _ List.mem_cons_self))]
  exact hchk

variable (hi : s.Issues k (mloopChks s k frag blk grp))
include hi

theorem mloopIssue_badBlock {d : Nat} (hbad : (k.matBlk (scaNo blk)).bad = some d) : s.mloopIssue frag blk grp = .next (s.trap k 6 d) :=
  (State.insn_pass (issues_mloop hi) _).trans (congrArg Host.Outcome.next (by simp only [hbad]))

theorem mloopIssue_outOfBounds (hbad : (k.matBlk (scaNo blk)).bad = none) (hout : s.matOut k.g (k.matBlk (scaNo blk)) = true) :
    s.mloopIssue frag blk grp = .next (s.trap k 4 1) :=
  (State.insn_pass (issues_mloop hi) _).trans (congrArg Host.Outcome.next (by simp only [hbad]; exact if_pos hout))

theorem mloopIssue_issues (hbad : (k.matBlk (scaNo blk)).bad = none) (hout : s.matOut k.g (k.matBlk (scaNo blk)) = false)
    (hspec : s.speculative k.g = false) (hcan : s.canIssue k .matrix = true) {tg : Nat} {x : Group} (htarget : s.mloopTarget k grp = some (tg, x)) :
    s.mloopIssue frag blk grp = .next (s.issueOp k .matrix (.mloop tg (fragNo frag) (k.matBlk (scaNo blk)) k.mode k.teuf 0 [] []) none) := by
  refine (State.insn_pass (issues_mloop hi) _).trans (congrArg Host.Outcome.next ?_)
  simp only [hbad, hout, watch_unpredicted _ hspec, htarget]
  exact if_pos hcan

end

/-! ### O25 -/

/-- Settles O25: MLOOP past its checks is one of three outcomes, MZERO the first of its conditions that holds. -/
theorem matrixIssue : Obligations.MatrixIssue := by
  unfold Obligations.MatrixIssue
  refine ⟨?mloop, ?mzero⟩
  case mloop =>
    intro frag blk c e he s k hi b i grp
    have hexec : exec i s = s.mloopIssue frag blk grp := by
      simp only [List.mem_cons, List.not_mem_nil, or_false] at he
      rcases he with rfl | rfl <;> rfl
    rw [hexec]
    exact ⟨fun d hbad => mloopIssue_badBlock hi hbad, fun hbad hout => mloopIssue_outOfBounds hi hbad hout,
      fun hbad hout hspec hcan tg x htarget => mloopIssue_issues hi hbad hout hspec hcan htarget⟩
  case mzero =>
    intro frag blk u s k hi b
    have hexec : exec (.mzero frag blk u) s = .next (if b.rsvd then s.trap k 6 11 else if b.shape = 3 then s.trap k 6 12
        else if !b.accShape then s.trap k 6 13 else s.issueWhenReady k .matrix (.mzero (fragNo frag) b.regs b.widthIndex) none) :=
      State.insn_pass hi _
    rw [hexec]
    refine ⟨fun hr => ?_, fun hr hshape => ?_, fun hr hshape hacc => ?_, fun hr hshape hacc hcan => ?_⟩
    · rw [if_pos hr]
    · rw [if_neg (by simp [hr]), if_pos hshape]
    · rw [if_neg (by simp [hr]), if_neg hshape, if_pos (by simp [hacc])]
    · rw [if_neg (by simp [hr]), if_neg hshape, if_neg (by simp [hacc]), State.issueWhenReady, if_pos hcan]

end Sys2Proof.MatrixUnit
end

section
/-!
PROOFS. Traps that no handler takes (R302, R312, R314, R319, R356).
-/

namespace Sys2Proof.FaultsPreemption

open Sys2Proof Sys2Proof.Machine Sys2Proof.Claims Sys2Proof.MemoryHierarchy Sys2Proof.SyncSystem

/-! ### The end of a launch (R302) -/

theorem group_stopLaunch (s : State) (l : Nat) (status : Nat × Nat × Nat) (gid : Nat) :
    (s.stopLaunch l status).group gid = (s.group gid).map fun g => if g.launch = l then g.halt else g := by
  have hmap : (s.stopLaunch l status).groups = s.groups.map fun e => (e.1, if e.2.launch = l then e.2.halt else e.2) :=
    List.map_congr_left fun e _ => by split <;> rfl
  rw [State.group, hmap]
  exact get_mapEntries s.groups (fun e => if e.2.launch = l then e.2.halt else e.2) gid

theorem stopLaunch_launch (s : State) (l : Nat) (status : Nat × Nat × Nat) : KMap.get (s.stopLaunch l status).launches l =
    (KMap.get s.launches l).map fun x => { x with status := x.status.orElse fun _ => some status, next := x.teams } := by
  rw [State.stopLaunch, KMap.get_adjust_same]

/-- The stop of a launch changes no byte. -/
theorem stopLaunch_sameBytes (s : State) (l : Nat) (status : Nat × Nat × Nat) : SameBytes s (s.stopLaunch l status) := by
  refine sameBytes_of_stacks (fun _ _ => rfl) ⟨rfl, rfl, rfl⟩ fun gid => ?_
  rw [group_stopLaunch]
  cases s.group gid with
  | none => rfl
  | some g => simp only [Option.map_some]; split <;> rfl

/-! ### The trap registers of a context that ends (R356, log 37) -/

/-- A context at whose gang `k` a trap ends the launch. -/
def marked (k : Gang) (r : TrapReq) (g : Group) : Group := if g.quill then g else g.recordTrap k r

theorem marked_only (k : Gang) (r : TrapReq) (g : Group) :
    marked k r g =
      { g with
        tcau := (marked k r g).tcau, trpc := (marked k r g).trpc, tmsk := (marked k r g).tmsk
        tnib := (marked k r g).tnib, trgn := (marked k r g).trgn } := by
  unfold marked
  split <;> rfl

theorem halt_of_stopped {s : State} {l : Nat} {status : Nat × Nat × Nat} {gid : Nat} {x : Group}
    (hx : (s.stopLaunch l status).group gid = some x) (hl : x.launch = l) : x.gangs = [] ∧ x.ended = true ∧ x.stopped = true := by
  rw [group_stopLaunch] at hx
  obtain ⟨g, -, rfl⟩ := Option.map_eq_some_iff.1 hx
  split at hl
  · rw [if_pos ‹_›]
    exact ⟨rfl, rfl, rfl⟩
  · exact absurd hl ‹_›

/-! ### O33 -/

/-- R312, R356: an unhandled trap ends the launch. -/
theorem takeTrap_issuer_ends {s : State} {k : Iss} {l : Launch} (r : TrapReq) (hi : s.issuer = some k) (hl : s.launchOf k.g = some l)
    (hs : s.speculative k.g = false) (ht : l.record.traph = 0 ∨ k.g.h = true) :
    s.takeTrap k.gid k.gang.id r = (s.modGroup k.gid (marked k.gang r)).stopLaunch k.g.launch (r.endStatus k.g.h) :=
  let ⟨hg, hgang, _⟩ := issuer_context hi
  State.takeTrap_end r hg hgang hl hs ht

theorem endStatus_eq (r : TrapReq) (h : Bool) : r.endStatus h = (let code := r.cause % 256 + (r.detail % 256) * 256
    if r.cause = 5 ∧ r.detail = 1 ∧ h = false then (5, 1, code) else (2, 0, code)) := by
  unfold TrapReq.endStatus
  simp only [Bool.not_eq_true']

/-- Settles O33: the trap is the stop of the launch over the marked context (`takeTrap_issuer_ends`); under prediction it is a stall. -/
theorem trapWithoutHandler : Obligations.TrapWithoutHandler := by
  unfold Obligations.TrapWithoutHandler
  refine ⟨?ends, ?stalls⟩
  case ends =>
    intro s k l r hi hl hs ht
    obtain ⟨hg, -, -⟩ := issuer_context hi
    have hstack : ∀ g, (marked k.gang r g).stack = g.stack := fun g => by rw [marked_only]
    have hlaunch : (marked k.gang r k.g).launch = k.g.launch := by rw [marked_only]
    rw [takeTrap_issuer_ends r hi hl hs ht]
    refine ⟨⟨{ l with status := l.status.orElse fun _ => some (r.endStatus k.g.h), next := l.teams }, ?_, rfl, ?_⟩,
      fun g x hx hxl => halt_of_stopped hx hxl, fun hq => ⟨(marked k.gang r k.g).halt, ?_, ?_⟩, fun o b => ?_⟩
    · exact (stopLaunch_launch _ _ _).trans (congrArg _ hl)
    · cases l.status with
      | none => exact congrArg some (endStatus_eq r k.g.h)
      | some y => rfl
    · rw [group_stopLaunch, State.group_modGroup_same, hg]
      exact congrArg some (if_pos hlaunch)
    · rw [marked, if_neg (by simp [hq])]
      exact ⟨rfl, rfl⟩
    · exact (stopLaunch_sameBytes _ _ _ o b).trans (modGroup_sameBytes s k.gid hstack o b)
  case stalls =>
    intro s k r hi hs
    obtain ⟨hg, hgang, -⟩ := issuer_context hi
    rw [State.takeTrap_stall r hg hgang hs]
    exact modIss_became hg fun _ => rfl

end Sys2Proof.FaultsPreemption
end

section
/-!
PROOFS. Predictions: comparing, starting, promoting and cutting over (R315 to R322).
-/

namespace Sys2Proof.FrontEnd

open Sys2Proof Sys2Proof.Machine Sys2Proof.Claims Sys2Proof.MemoryHierarchy

/-! ### PREDICTION_COMPARE (R315, R321) -/

/-- R315: the ductus that a run of LAUNCH commands ending in `c` forms under rules `rs`; `endc` is what the last one ended by. -/
def formed (s : State) (run : List Cmd) (c : Cmd) (rs : List ArgRule) (endc : Nat) : Ductus :=
  { d := s.nextDuc, template := c, rules := rs, nextK := run.length, oldK := run.length, conf := 0, watch := [], endc := endc, open_ := true }

section
variable {s : State} {fn q : Nat} {c : Cmd} (hlast : (s.queue fn q).arrived.getLast? = some c)
include hlast

theorem predictionCompare_ductusRead (hkind : Cmd.kind c = 5) : s.predictionCompare fn q = s := by
  simp only [State.predictionCompare, hlast]
  exact if_pos (.inr hkind)

variable (hkind : Cmd.kind c ≠ 5) (hnew : (s.queue fn q).compared = false)
include hkind hnew

/-- R315: without a ductus a command joins the run. -/
theorem predictionCompare_joins (hduc : (s.queue fn q).ductus = none)
    (hrules : (s.queue fn q).inf = false ∨ rulesOf (extendRun (s.queue fn q).run c) = none) : s.predictionCompare fn q =
      (s.modQueue fn q fun y => { y with compared := true }).modQueue fn q fun y => { y with run := extendRun (s.queue fn q).run c } := by
  have hnone : (if (s.queue fn q).inf then rulesOf (extendRun (s.queue fn q).run c) else none) = none := by
    rcases hrules with h | h
    · rw [h]; rfl
    · rw [h, ite_self]
  simp only [State.predictionCompare, hlast]
  rw [if_neg (by simp [hkind, hnew])]
  simp only [hduc, hnone]

/-- R315, R316: a run that fits rules forms a ductus. -/
theorem predictionCompare_forms (hduc : (s.queue fn q).ductus = none) (hinf : (s.queue fn q).inf = true) {rs : List ArgRule}
    (hrules : rulesOf (extendRun (s.queue fn q).run c) = some rs) : s.predictionCompare fn q =
      { s.modQueue fn q fun y => { y with compared := true } with nextDuc := s.nextDuc + 1 }.modQueue fn q fun y =>
        { y with run := [], ductus := some (formed s (extendRun (s.queue fn q).run c) c rs 0) } := by
  simp only [State.predictionCompare, hlast]
  rw [if_neg (by simp [hkind, hnew])]
  simp only [hduc, hinf, if_true, hrules]
  rfl

/-- R321: a command that matches confirms the oldest prediction. -/
theorem predictionCompare_confirms {x : Ductus} (hduc : (s.queue fn q).ductus = some x) (hopen : x.open_ = true) {l k : Nat}
    {r : List (Nat × Nat)} (hpreds : s.openPreds x.d = (l, k) :: r) (hmatch : x.matches k (s.func fn) c = true) :
    s.predictionCompare fn q = (s.modQueue fn q fun y => { y with compared := true }).confirm fn q l c := by
  have hfirst : ((s.modQueue fn q fun y => { y with compared := true }).openPreds x.d).head? = some (l, k) :=
    (congrArg List.head? hpreds).trans rfl
  simp only [State.predictionCompare, hlast]
  rw [if_neg (by simp [hkind, hnew])]
  simp only [hduc]
  rw [if_neg (by simp [hopen])]
  simp only [hfirst, hmatch, if_true]

end

theorem confirm_launches (s : State) (fn q l : Nat) (c : Cmd) : (s.confirm fn q l c).launches = KMap.adjust s.launches l fun y =>
    { y with tag := Cmd.tag c, caddr := Cmd.word c 1, pred := y.pred.map fun p => { p with confirmed := true } } := rfl

/-! ### PREDICTION_START (R317, R318) -/

theorem watchAdd_only (s : State) (d : Nat) (keys : List Nat) : s.watchAdd d keys = { s with funcs := (s.watchAdd d keys).funcs } := by
  unfold State.watchAdd
  split <;> rfl

/-- R318: a prediction's record is read, where nothing stops it, and its line joins the watch set. -/
theorem predRecord_read {s : State} {fn d k : Nat} {c : Cmd} {a key : Nat} {r : LaunchRec} (hgood : Cmd.bad c (s.func fn) = none)
    (ha : s.translate fn (Cmd.recordAt c (s.func fn)).toNat 0 = .ok a) (hkey : (s.locOf fn a).watchKey s.devnum = some key)
    (hroom : s.watchRoom d [key] = true)
    (hr : s.readRecord (some (d, k)) fn (Cmd.recordAt c (s.func fn)) (Cmd.tgrp c) (Cmd.teams c) = .ok r) :
    s.predRecord fn d k c = .ok (r, s.watchAdd d [key]) := by
  simp only [State.predRecord, hgood, ha, hkey, hroom, hr]
  rfl

/-- R329: a prediction whose start was enabled first, or that no arrival stands against, starts first. -/
theorem startFirst_of {s : State} {fn q : Nat} {y : Queue} {x : Ductus} (hduc : y.ductus = some x) (hmay : s.mayPredict fn q y x = true)
    (h : y.starts = true ∨ y.pending = false) : s.startFirst fn q y = true := by
  have harrives : (y.starts || !s.arrives fn y) = true := by
    rcases h with h | h
    · rw [h]; rfl
    · simp [State.arrives, h]
  rw [State.startFirst, hduc, harrives]
  simp [hmay]

/-- R317: the launch that starts as prediction NEXTK. -/
def predicted (s : State) (fn q : Nat) (x : Ductus) (key : Nat) (r : LaunchRec) : State :=
  (s.watchAdd x.d [key]).startLaunch (.queue fn q) fn r ((List.range 12).map fun i => Cmd.arg (x.command x.nextK) i) 0 0
    (Cmd.teams (x.command x.nextK)) (some ⟨x.d, x.nextK, false, false, false⟩) 0

theorem predictionStart_starts {s : State} {fn q : Nat} {x : Ductus} {key : Nat} {r : LaunchRec} (hduc : (s.queue fn q).ductus = some x)
    (hfirst : s.startFirst fn q (s.queue fn q) = true) (henabled : s.enabled = true) (hslot : s.inSlotNow = false)
    (hrecord : s.predRecord fn x.d x.nextK (x.command x.nextK) = .ok (r, s.watchAdd x.d [key])) :
    s.predictionStart fn q = (predicted s fn q x key r).modQueue fn q fun y => { y with starts := false, ductus := y.ductus.map fun z =>
      { z with nextK := z.nextK + 1, oldK := if (s.openPreds x.d).isEmpty then z.nextK else z.oldK } } := by
  simp only [State.predictionStart, hduc]
  rw [if_neg (by simp [hfirst, henabled, hslot])]
  simp only [hrecord]
  rfl

theorem predicted_launch (s : State) (fn q : Nat) (x : Ductus) (key : Nat) (r : LaunchRec) :
    (predicted s fn q x key r).nextLaunch = s.nextLaunch + 1 ∧ ∃ l, KMap.get (predicted s fn q x key r).launches s.nextLaunch = some l ∧
      l.record = r ∧ l.job = .queue fn q ∧ l.teams = Cmd.teams (x.command x.nextK) ∧ l.pred = some ⟨x.d, x.nextK, false, false, false⟩ ∧
      l.args = (List.range 12).map fun i => Cmd.arg (x.command x.nextK) i := by
  rw [predicted, watchAdd_only]
  exact ⟨rfl, _, KMap.get_put_same _ _ _, rfl, rfl, rfl, rfl, rfl⟩

/-! ### LAUNCH_PROMOTION and CUT_OVER (R322) -/

theorem execLaunchPromotion_only {s : State} {fn q l : Nat} {x : Launch} {p : Pred} (hlaunches : s.queueLaunches fn q = [(l, x)])
    (hpred : x.pred = some p) (hnot : p.promoted = false) (hcut : p.cutting = false) (hquiet : s.launchQuiet l x = true)
    (hmay : s.mayPromote p.duc p.k = true) : exec (.launchPromotion fn q) s = .next (s.promoteNext l p.duc p.k) := by
  refine congrArg Host.Outcome.next ?_
  simp [hlaunches, hpred, hnot, sortBy, insertBy, hquiet, hcut, hmay]

/-! ### O47 -/

/-- Settles O47: each step is the one outcome of its conditions. -/
theorem predictionSteps : Obligations.PredictionSteps := by
  unfold Obligations.PredictionSteps
  refine ⟨?ductusRead, ?joins, ?forms, ?confirms, ?starts, ?promotes, ?cutOver⟩
  case ductusRead => exact fun s fn q c hlast hkind => congrArg Host.Outcome.next (predictionCompare_ductusRead hlast hkind)
  case joins =>
    intro s fn q c hlast hkind hnew hduc hrules
    refine ⟨_, congrArg Host.Outcome.next (predictionCompare_joins hlast hkind hnew hduc hrules), rfl, ?_⟩
    rw [queue_modQueue, queue_modQueue]
  case forms =>
    intro s fn q c rs hlast hkind hnew hduc hinf hrules
    exact ⟨_, _, congrArg Host.Outcome.next (predictionCompare_forms hlast hkind hnew hduc hinf hrules),
      congrArg Queue.ductus (queue_modQueue _ fn q _), rfl, rfl, rfl, rfl, rfl⟩
  case confirms =>
    intro s fn q c x l k r hlast hkind hnew hduc hopen hpreds hmatch
    refine ⟨_, congrArg Host.Outcome.next (predictionCompare_confirms hlast hkind hnew hduc hopen hpreds hmatch), rfl, ?_⟩
    rw [confirm_launches, KMap.get_adjust_same]
    rfl
  case starts =>
    rintro s fn q _ x r key rfl hduc hmay henabled hslot hfirst c hgood a ha hkey hroom hr
    have hstart := predictionStart_starts hduc (startFirst_of hduc hmay hfirst) henabled hslot (predRecord_read hgood ha hkey hroom hr)
    obtain ⟨hnext, l, hl, hfields⟩ := predicted_launch s fn q x key r
    exact ⟨_, l, congrArg Host.Outcome.next hstart, hl, hnext, hfields⟩
  case promotes => exact fun s fn q l x p hl hp hnot hcut hquiet hmay => execLaunchPromotion_only hl hp hnot hcut hquiet hmay
  case cutOver =>
    intro s l x p hl hp
    refine ⟨fun hcut hmay => congrArg Host.Outcome.next ?_, fun hcut hmay => congrArg Host.Outcome.next ?_⟩
    · simp [hl, hp, hcut, hmay]
    · simp [hl, hp, hcut, hmay]

end Sys2Proof.FrontEnd
end

section
/-!
PROOFS. Service requests and replies, and the reset of a function (R360, R361, R370, R371).
-/

namespace Sys2Proof.FaultsPreemption

open Sys2Proof Sys2Proof.Machine Sys2Proof.Claims Sys2Proof.MemoryHierarchy Sys2Proof.AddressSpaces

/-! ### Register writes of a context without a partner -/

/-- A context after one register write. -/
def regWritten (g : Group) : RegWrite → Group
  | .vec n t w => g.setV n fun u => if u = t then some w else none
  | .sca n w => { g with s := KMap.put g.s n w }
  | .flags t f => g.orFlags fun u => if u = t then f else 0

theorem regWritten_only (g : Group) (w : RegWrite) : regWritten g w =
    { g with v := (regWritten g w).v, s := (regWritten g w).s, xflg := (regWritten g w).xflg } := by
  cases w <;> rfl

theorem regWrite_outside (s : State) (gid : Nat) (w : RegWrite) : ∃ gs, s.regWrite gid w = { s with groups := gs } := by
  cases w with
  | vec n t w => exact State.writeV_outside s gid n _
  | _ => exact ⟨_, rfl⟩

theorem group_regWrite {s : State} {gid : Nat} {g : Group} (hg : s.group gid = some g) (hp : g.partner = none) (w : RegWrite) :
    (s.regWrite gid w).group gid = some (regWritten g w) := by
  cases w with
  | vec n t w =>
    rw [State.regWrite, NumberFormats.writeV_alone hg _ (by simp [hp])]
    exact State.group_setGroup_same s gid _
  | sca n w => rw [State.regWrite, State.writeS, State.group_modGroup_same, hg]; rfl
  | flags t f => rw [State.regWrite, State.group_modGroup_same, hg]; rfl

theorem regWrites_outside (s : State) (gid : Nat) (ws : List RegWrite) : ∃ gs, s.regWrites gid ws = { s with groups := gs } := by
  refine List.foldlRecOn ws _ (motive := fun t : State => ∃ gs, t = { s with groups := gs }) ⟨s.groups, rfl⟩ ?_
  rintro _ ⟨gs, rfl⟩ w -
  exact regWrite_outside _ gid w

theorem group_regWrites {s : State} {gid : Nat} {g : Group} (hg : s.group gid = some g) (hp : g.partner = none) (ws : List RegWrite) :
    (s.regWrites gid ws).group gid = some (ws.foldl regWritten g) := by
  induction ws generalizing s g with
  | nil => exact hg
  | cons w ws ih => exact ih (group_regWrite hg hp w) (by rw [regWritten_only]; exact hp)

theorem regWritten_team (g : Group) (ws : List RegWrite) : (ws.foldl regWritten g).team = g.team ∧ (ws.foldl regWritten g).core = g.core := by
  refine List.foldlRecOn ws regWritten (motive := fun h => h.team = g.team ∧ h.core = g.core) ⟨rfl, rfl⟩ fun h hh w _ => ?_
  rw [regWritten_only]
  exact hh

/-! ### Reading registers back -/

theorem sreg_regWritten (g : Group) (w : RegWrite) (j : Nat) : (regWritten g w).sreg j = match w with
    | .sca n x => if j = n then x else g.sreg j
    | _ => g.sreg j := by
  cases w with
  | sca n x => exact KMap.getD_put g.s n j x 0
  | _ => rfl

theorem vreg_regWritten (g : Group) (w : RegWrite) (j th : Nat) (hth : th < 64) : (regWritten g w).vreg j th = match w with
    | .vec n t x => if j = n ∧ th = t then x else g.vreg j th
    | _ => g.vreg j th := by
  cases w with
  | vec n t x =>
    rw [regWritten, Group.vreg_setV _ _ _ _ _ hth]
    by_cases hj : j = n
    · subst hj
      by_cases ht : th = t <;> simp [ht]
    · simp [hj]
  | _ => rfl

/-- Where every write of scalar `j` writes `x`, the scalar is `x` when there is one, and stays when there is none. -/
theorem sreg_regWrites {ws : List RegWrite} {j : Nat} {x : DWord} (hall : ∀ y, .sca j y ∈ ws → y = x) (g : Group) :
    (ws.foldl regWritten g).sreg j = if .sca j x ∈ ws then x else g.sreg j := by
  induction ws generalizing g with
  | nil => simp
  | cons w ws ih =>
    rw [List.foldl_cons, ih (fun y hy => hall y (List.mem_cons_of_mem _ hy)), sreg_regWritten]
    cases w with
    | sca n y =>
      by_cases hn : j = n
      · subst hn
        obtain rfl := hall y List.mem_cons_self
        simp
      · simp [hn]
    | _ => simp

theorem vreg_regWrites {ws : List RegWrite} {j th : Nat} {x : Word} (hth : th < 64) (hall : ∀ y, .vec j th y ∈ ws → y = x) (g : Group) :
    (ws.foldl regWritten g).vreg j th = if .vec j th x ∈ ws then x else g.vreg j th := by
  induction ws generalizing g with
  | nil => simp
  | cons w ws ih =>
    rw [List.foldl_cons, ih (fun y hy => hall y (List.mem_cons_of_mem _ hy)), vreg_regWritten _ _ _ _ hth]
    cases w with
    | vec n t y =>
      by_cases hn : j = n ∧ th = t
      · obtain ⟨rfl, rfl⟩ := hn
        obtain rfl := hall y List.mem_cons_self
        simp
      · have hne : RegWrite.vec j th x ≠ .vec n t y := fun h => by cases h; exact hn ⟨rfl, rfl⟩
        simp [hne, hn]
    | _ => simp

/-- R237: a reply to a scalar block rewrites scalars `n` to `n` + 7. -/
theorem sreg_replyWrites (g : Group) (mask : BitVec 64) (n : Nat) (read : Nat → Nat → Nat) (j : Nat) :
    ((replyWrites mask (.sca n) read).foldl regWritten g).sreg j =
      if n ≤ j ∧ j < n + 8 then dword (read (0x100 + 8 * (j - n)) 8) else g.sreg j := by
  have hmem (y : DWord) : .sca j y ∈ replyWrites mask (.sca n) read ↔ (n ≤ j ∧ j < n + 8) ∧ y = dword (read (0x100 + 8 * (j - n)) 8) := by
    simp only [replyWrites, List.mem_map, List.mem_range, RegWrite.sca.injEq]
    constructor
    · rintro ⟨r, hr, rfl, rfl⟩
      exact ⟨by omega, by rw [Nat.add_sub_cancel_left]⟩
    · rintro ⟨hj, rfl⟩
      exact ⟨j - n, by omega, by omega, rfl⟩
  rw [sreg_regWrites fun y hy => ((hmem y).1 hy).2]
  simp only [hmem, and_true]

/-- R237: a reply to a vector block rewrites registers `n` to `n` + 7 of the threads of `mask`. -/
theorem vreg_replyWrites (g : Group) (mask : BitVec 64) (n : Nat) (read : Nat → Nat → Nat) (j : Nat) {th : Nat} (hth : th < 64) :
    ((replyWrites mask (.vec n) read).foldl regWritten g).vreg j th =
      if n ≤ j ∧ j < n + 8 ∧ mask.getLsbD th = true then word (read (0x100 + 32 * th + 4 * (j - n)) 4) else g.vreg j th := by
  have hmem (y : Word) : .vec j th y ∈ replyWrites mask (.vec n) read ↔
      (n ≤ j ∧ j < n + 8 ∧ mask.getLsbD th = true) ∧ y = word (read (0x100 + 32 * th + 4 * (j - n)) 4) := by
    simp only [replyWrites, List.mem_flatMap, List.mem_map, List.mem_range, RegWrite.vec.injEq, NumberFormats.mem_threadsOf]
    constructor
    · rintro ⟨t, ⟨-, ht⟩, r, hr, rfl, rfl, rfl⟩
      exact ⟨⟨by omega, by omega, ht⟩, by rw [Nat.add_sub_cancel_left]⟩
    · rintro ⟨⟨hn, hj, ht⟩, rfl⟩
      exact ⟨th, ⟨hth, ht⟩, j - n, by omega, by omega, rfl, rfl⟩
  rw [vreg_regWrites hth fun y hy => ((hmem y).1 hy).2]
  simp only [hmem, and_true]

/-! ### Service requests (R360, R361) -/

/-- Where a decision queue is empty no DQPOP takes from it. -/
theorem servePops_empty {s : State} {team core : Nat} (h : ∀ t, KMap.get s.teams team = some t → t.queueOf core = []) :
    s.servePops team core = s := by
  have hone : s.serveOnePop team core = s := by
    unfold State.serveOnePop
    split
    · rfl
    · rename_i t ht
      simp only [h t ht]
  exact List.foldlRecOn _ _ (motive := fun t => t = s) rfl fun t ht _ _ => by rw [ht]; exact hone

/-- R361: the context that a reply resumes. -/
def resumed (v : Service) (g : Group) : Group := { g with offCore := false }.modGang v.gang fun k => { k with hold := .none }

/-- R361: the register writes of the reply to a request, read from its entry. -/
def replyOf (s : State) (fn : Nat) (v : Service) : List RegWrite :=
  replyWrites v.mask v.blk fun off n => leVal (s.peek (s.func fn).owner ((s.ringEntry fn v.idx).plus off) n)

theorem sreg_replyOf {s : State} {fn n : Nat} {v : Service} (hblk : v.blk = .sca n) (g : Group) (j : Nat) :
    (resumed v ((replyOf s fn v).foldl regWritten g)).sreg j = if n ≤ j ∧ j < n + 8
      then dword (leVal (s.peek (s.func fn).owner ((s.ringEntry fn v.idx).plus (0x100 + 8 * (j - n))) 8)) else g.sreg j := by
  have hstay : ∀ h, (resumed v h).sreg j = h.sreg j := fun _ => rfl
  rw [hstay, replyOf, hblk]
  exact sreg_replyWrites g v.mask n _ j

theorem vreg_replyOf {s : State} {fn n : Nat} {v : Service} (hblk : v.blk = .vec n) (g : Group) (j : Nat) {th : Nat} (hth : th < 64) :
    (resumed v ((replyOf s fn v).foldl regWritten g)).vreg j th = if n ≤ j ∧ j < n + 8 ∧ v.mask.getLsbD th = true
      then word (leVal (s.peek (s.func fn).owner ((s.ringEntry fn v.idx).plus (0x100 + 32 * th + 4 * (j - n))) 4)) else g.vreg j th := by
  have hstay : ∀ h, (resumed v h).vreg j th = h.vreg j th := fun _ => rfl
  rw [hstay, replyOf, hblk]
  exact vreg_replyWrites g v.mask n _ j hth

/-- R361: a reply to a context with no partner, for which no decision waits. -/
theorem applyReply_alone {s : State} {fn key : Nat} {v : Service} {g : Group} (hv : KMap.get (s.func fn).services key = some v)
    (hg : s.group v.gid = some g) (hp : g.partner = none) (hq : ∀ tm, KMap.get s.teams g.team = some tm → tm.queueOf g.core = []) :
    s.applyReply fn key = ((s.regWrites v.gid (replyOf s fn v)).modFunc fn fun x =>
      { x with services := KMap.del x.services key }).modGroup v.gid (resumed v) := by
  obtain ⟨gs, hgs⟩ := regWrites_outside s v.gid (replyOf s fn v)
  obtain ⟨hteam, hcore⟩ := regWritten_team g (replyOf s fn v)
  unfold State.applyReply
  simp only [hv]
  split
  · rename_i h hh
    rw [State.group_modGroup_same] at hh
    obtain ⟨y, hy, rfl⟩ := Option.map_eq_some_iff.1 hh
    obtain rfl := Option.some.inj ((group_regWrites hg hp (replyOf s fn v)).symm.trans hy)
    refine servePops_empty fun t ht => ?_
    change KMap.get (s.regWrites v.gid (replyOf s fn v)).teams _ = some t at ht
    rw [hgs] at ht
    exact (congrArg t.queueOf hcore).trans (hq t ((congrArg (KMap.get s.teams) hteam).symm.trans ht))
  · rfl

/-- R360: a write of SRDONE for an entry that waits for no reply. -/
theorem execServiceReply_unasked {s : State} {fn idx : Nat} (h : ∀ e ∈ (s.func fn).services, e.2.idx = idx → e.2.replied = true) :
    exec (.serviceReply fn idx) s = .next (s.modFunc fn fun x => { x with srErr := true }) := by
  have hnone : (s.func fn).serviceAt idx = none := List.find?_eq_none.2 fun e he => by simpa using h e he
  refine congrArg Host.Outcome.next ?_
  simp only [hnone]

/-- R361: the reply to the only request, of a context that is in. -/
theorem execServiceReply_only {s : State} {fn key : Nat} {v : Service} {g : Group} (hs : (s.func fn).services = [(key, v)])
    (hr : v.replied = false) (hg : s.group v.gid = some g) (hhere : g.presence = .here) :
    exec (.serviceReply fn v.idx) s = .next (s.applyReply fn key) := by
  have hsome : (s.func fn).serviceAt v.idx = some (key, v) := by simp [Func.serviceAt, hs, hr]
  refine congrArg Host.Outcome.next ?_
  simp only [hsome, hg]
  exact if_neg (by simp [hhere])

/-! ### The reset of a function (R370, R371) -/

/-- What a refusal changes: requests, operations and sheaves. -/
def OnlyRefuses (s t : State) : Prop := t = { s with reqs := t.reqs, ops := t.ops, sheaves := t.sheaves }

theorem OnlyRefuses.refl (s : State) : OnlyRefuses s s := rfl

theorem OnlyRefuses.trans {s t u : State} (hst : OnlyRefuses s t) (htu : OnlyRefuses t u) : OnlyRefuses s u := by
  unfold OnlyRefuses at *
  exact htu.trans (by rw [hst])

theorem breakSheaf_onlyRefuses (s : State) (h : DWord) : OnlyRefuses s (s.breakSheaf h) := by
  unfold State.breakSheaf
  split <;> rfl

theorem refuse_onlyRefuses (s : State) (q cause detail info : Nat) : OnlyRefuses s (s.refuse q cause detail info) := by
  have hfail : ∀ o, OnlyRefuses s ((s.setStage q .refused).failOp o cause detail info) := fun _ => rfl
  unfold State.refuse
  split
  · rfl
  · dsimp only
    split
    · rfl
    · split
      · exact hfail _
      · exact (hfail _).trans (breakSheaf_onlyRefuses _ _)

theorem failLander_onlyRefuses (s : State) (q : Nat) : OnlyRefuses s (s.failLander q) := by
  unfold State.failLander
  split
  · split <;> rfl
  · rfl

/-- R374: refusing what the landing buffer holds leaves functions, launches and the calendar alone. -/
theorem refuseHeld_leaves (s : State) (fn : Nat) :
    (s.refuseHeld fn).funcs = s.funcs ∧ (s.refuseHeld fn).launches = s.launches ∧ (s.refuseHeld fn).caln = s.caln := by
  have hfold := foldl_related OnlyRefuses.refl OnlyRefuses.trans
    (fun s q => (refuse_onlyRefuses s q 5 1 0).trans (failLander_onlyRefuses _ q))
    ((s.landing.filter fun e => e.2.2 == fn).map Prod.fst ++ (s.landWait.filter fun e => e.2.2.1 == fn).map Prod.fst)
    { s with landing := s.landing.filter fun e => e.2.2 != fn, landWait := s.landWait.filter fun e => e.2.2.1 != fn }
  unfold State.refuseHeld
  dsimp only
  rw [hfold]
  exact ⟨rfl, rfl, rfl⟩

/-- R371: the launches of the function go. -/
theorem dropLaunches_launches (s : State) (fn : Nat) : ∀ e ∈ (s.dropLaunches fn).launches, e.2.fn ≠ fn := by
  intro e he hfn
  obtain ⟨hmem, hkept⟩ := List.mem_filter.1 he
  have hgone : e.1 ∈ (s.fnLaunches fn).map Prod.fst := List.mem_map.2 ⟨e, List.mem_filter.2 ⟨hmem, by simp [hfn]⟩, rfl⟩
  simp [hgone] at hkept

/-- R371: of a function the removal of its launches takes services alone. -/
theorem dropLaunches_func (s : State) (fn : Nat) : ∃ gids, (s.dropLaunches fn).func fn = withoutServices gids (s.func fn) :=
  removeLaunches_func s _ fn

/-- R370: nothing that a function sent is abroad: its reset is complete. -/
theorem resetDone_complete {s : State} {fn at_ : Nat} (hreset : (s.func fn).resetting = some at_) (habroad : ∀ e ∈ s.reqs, e.2.abroad = false) :
    ((s.resetDone fn).func fn).resetting = none := by
  unfold State.resetDone
  simp only [hreset]
  rw [if_neg, State.func_modFunc_same]
  rintro ⟨hany, -⟩
  obtain ⟨e, he, hbad⟩ := List.any_eq_true.1 hany
  simp [habroad e he] at hbad

/-! ### O50 -/

/-- Settles O50: a reply is its register writes (`applyReply_alone`), and a reset keeps of the function what `Func.afterReset` keeps. -/
theorem serviceAndResetSteps : Obligations.ServiceAndResetSteps := by
  unfold Obligations.ServiceAndResetSteps
  refine ⟨?post, fun s fn idx h => execServiceReply_unasked h, ?reply, ?reset, ?complete⟩
  case post =>
    intro s gid g k blk code hg hcaller hhere
    refine ⟨fun hfull => congrArg Host.Outcome.next ?_, fun hroom => congrArg Host.Outcome.next ?_⟩
    · simp only [hg, hcaller]
      exact if_pos (.inl hfull)
    · simp only [hg, hcaller]
      exact if_neg fun h => h.elim hroom (absurd hhere)
  case reply =>
    rintro s fn _ key v g hs rfl hr hg hhere hp hq
    have hv : KMap.get (s.func fn).services key = some v := by simp [hs, KMap.get]
    obtain ⟨gs, hgs⟩ := regWrites_outside s v.gid (replyOf s fn v)
    refine ⟨_, resumed v ((replyOf s fn v).foldl regWritten g),
      (execServiceReply_only hs hr hg hhere).trans (congrArg _ (applyReply_alone hv hg hp hq)), ?_, ?_, rfl, ?_, fun n hblk j => ?_,
      fun n hblk j th hth => ?_⟩
    · rw [hgs]
      rfl
    · rw [State.group_modGroup_same]
      exact congrArg (Option.map (resumed v)) (group_regWrites hg hp _)
    · have hfunc : ∀ u : State, (u.modGroup v.gid (resumed v)).func fn = u.func fn := fun _ => rfl
      have hregs : (s.regWrites v.gid (replyOf s fn v)).func fn = s.func fn := by rw [hgs]; rfl
      rw [hfunc, State.func_modFunc_same, hregs, hs]
      simp [KMap.del]
    · exact sreg_replyOf hblk g j
    · exact vreg_replyOf hblk g j hth
  case reset =>
    intro s fn
    obtain ⟨hfuncs, hlaunches, hcaln⟩ := refuseHeld_leaves (s.dropLaunches fn) fn
    obtain ⟨gids, hgone⟩ := dropLaunches_func s fn
    have hfunc : ((s.dropLaunches fn).refuseHeld fn).func fn = withoutServices gids (s.func fn) := by
      rw [← hgone, State.func, hfuncs, State.func]
    have hafter := State.func_modFunc_same ((s.dropLaunches fn).refuseHeld fn) fn fun f => f.afterReset fn ((s.dropLaunches fn).refuseHeld fn).caln
    rw [hfunc] at hafter
    refine ⟨_, rfl, (congrArg Func.gen hafter).trans rfl, (congrArg Func.owner hafter).trans rfl,
      (congrArg Func.resetting hafter).trans (congrArg some hcaln),
      (congrArg Func.ttbase hafter).trans rfl, fun e he => dropLaunches_launches s fn e (hlaunches ▸ he), fun e he => ?_⟩
    simpa using (List.mem_filter.1 he).2
  case complete => exact fun s fn at_ hreset habroad => ⟨_, rfl, resetDone_complete hreset habroad⟩

end Sys2Proof.FaultsPreemption
end

section
/-!
PROOFS. The end of a task's launch: the entry, its successors and TFAIL (R299, R300, R338).
-/

namespace Sys2Proof.FrontEnd

open Sys2Proof Sys2Proof.Machine Sys2Proof.Claims Sys2Proof.MemoryHierarchy

/-! ### Entries of the task table -/

theorem task_modTask (s : State) (fn n m : Nat) (f : Task → Task) :
    ((s.modTask fn n f).func fn).task m = if m = n then f ((s.func fn).task n) else (s.func fn).task m := by
  simp [State.modTask, Func.task, KMap.getD_put]

theorem func_taskFail (s : State) (fn n stat : Nat) :
    (s.taskFail fn n stat).func fn = { s.func fn with tfail := dword (2 ^ 63 + stat % 256 * 2 ^ 16 + n) } :=
  State.func_modFunc_same s fn fun f => { f with tfail := dword (2 ^ 63 + stat % 256 * 2 ^ 16 + n) }

theorem task_taskFail (s : State) (fn n stat m : Nat) : ((s.taskFail fn n stat).func fn).task m = (s.func fn).task m := by
  rw [func_taskFail]
  rfl

/-- R338: an entry whose launch ended badly. -/
def failedEntry (use : Nat) (t : Task) : Task := if t.use = use ∧ (t.st = .running ∨ t.st = .ready) then { t with st := .done, ctr := 0 } else t

theorem task_taskBadEnd (s : State) (fn n stat use m : Nat) : ((s.taskBadEnd fn n stat use).func fn).task m =
    if m = n then failedEntry use ((s.func fn).task n) else (s.func fn).task m := by
  rw [State.taskBadEnd, task_taskFail, task_modTask]
  rfl

/-! ### The successors of a task (R299, R300) -/

/-- A start of task `n` changes that entry alone, whose counter stays or becomes 0. -/
theorem task_startTask (s : State) (fn n : Nat) : ∃ f : Task → Task, (∀ t, (f t).ctr = t.ctr ∨ (f t).ctr = 0) ∧
    ∀ m, ((s.startTask fn n).func fn).task m = if m = n then f ((s.func fn).task n) else (s.func fn).task m := by
  have hready := fun m => task_modTask s fn n m fun t => { t with st := .ready }
  unfold State.startTask
  dsimp only
  split
  · exact ⟨fun t => { t with st := .ready }, fun _ => .inl rfl, hready⟩
  · split
    · exact ⟨fun t => { t with st := .ready }, fun _ => .inl rfl, hready⟩
    · refine ⟨fun t => failedEntry ((s.func fn).task n).use { t with st := .ready }, fun t => ?_, fun m => ?_⟩
      · dsimp only [failedEntry]
        split
        · exact .inr rfl
        · exact .inl rfl
      · rw [task_taskBadEnd, hready, hready, if_pos rfl]
        split <;> rfl

/-- R300: a task that another waits for is done: the counter of entry `m` falls, and at 0 it starts. -/
def countDown (fn : Nat) (s : State) (m : Nat) : State :=
  let s2 := s.modTask fn m fun t => { t with ctr := t.ctr - 1 }
  let u := (s2.func fn).task m
  if u.ctr = 0 ∧ u.st = .waiting then s2.startTask fn m else s2

theorem task_countDown (s : State) (fn n : Nat) :
    (((countDown fn s n).func fn).task n).ctr = ((s.func fn).task n).ctr - 1 ∧
    (0 < ((s.func fn).task n).ctr - 1 → (((countDown fn s n).func fn).task n).st = ((s.func fn).task n).st) ∧
    ∀ m, m ≠ n → ((countDown fn s n).func fn).task m = (s.func fn).task m := by
  have hdown := fun m => task_modTask s fn n m fun t => { t with ctr := t.ctr - 1 }
  obtain ⟨f, hf, hstart⟩ := task_startTask (s.modTask fn n fun t => { t with ctr := t.ctr - 1 }) fn n
  unfold countDown
  dsimp only
  rw [hdown n, if_pos rfl]
  split
  · rename_i hzero
    refine ⟨?_, fun hpos => absurd hzero.1 (Nat.ne_of_gt hpos), fun m hm => ?_⟩
    · rw [hstart, if_pos rfl, hdown, if_pos rfl]
      exact (hf _).elim id fun h => h.trans hzero.1.symm
    · rw [hstart, if_neg hm, hdown, if_neg hm]
  · refine ⟨?_, fun _ => ?_, fun m hm => ?_⟩
    · rw [hdown, if_pos rfl]
    · rw [hdown, if_pos rfl]
    · rw [hdown, if_neg hm]

/-- R300: each successor slot that names entry `m` takes one from its counter; above 0 it does not start, and unnamed it stays. -/
theorem task_countDowns (fn : Nat) (succ : List Nat) (s : State) (m : Nat) :
    (((succ.foldl (countDown fn) s).func fn).task m).ctr = ((s.func fn).task m).ctr - (succ.filter (· == m)).length ∧
    (0 < ((s.func fn).task m).ctr - (succ.filter (· == m)).length →
      (((succ.foldl (countDown fn) s).func fn).task m).st = ((s.func fn).task m).st) ∧
    (m ∉ succ → ((succ.foldl (countDown fn) s).func fn).task m = (s.func fn).task m) := by
  induction succ generalizing s with
  | nil => simp
  | cons n succ ih =>
    obtain ⟨hctr, hst, hother⟩ := task_countDown s fn n
    obtain ⟨ihctr, ihst, ihother⟩ := ih (countDown fn s n)
    rw [List.foldl_cons]
    by_cases hm : m = n
    · subst m
      have hcount : ((n :: succ).filter (· == n)).length = (succ.filter (· == n)).length + 1 := by simp
      rw [hctr] at ihctr ihst
      rw [hcount]
      exact ⟨by omega, fun hpos => (ihst (by omega)).trans (hst (by omega)), fun hn => absurd List.mem_cons_self hn⟩
    · have hcount : (n :: succ).filter (· == m) = succ.filter (· == m) := List.filter_cons_of_neg (by simpa using Ne.symm hm)
      rw [hother m hm] at ihctr ihst ihother
      rw [hcount]
      exact ⟨ihctr, ihst, fun hn => ihother (mt (List.mem_cons_of_mem n) hn)⟩

/-! ### TASKDONE of a RUNNING entry (R300) -/

section
variable {s : State} {fn n : Nat} (hrun : ((s.func fn).task n).st = .running)
include hrun

theorem taskDone_short (h : ∃ m ∈ ((s.func fn).task n).succ,
    ((s.func fn).task m).ctr < (((s.func fn).task n).succ.filter (· == m)).length) : s.taskDone fn n = .error 1 := by
  obtain ⟨m, hm, hlt⟩ := h
  refine (if_neg (by simp [hrun])).trans (if_pos ?_)
  exact List.any_eq_true.2 ⟨m, hm, decide_eq_true hlt⟩

theorem taskDone_counts (h : ∀ m ∈ ((s.func fn).task n).succ,
    (((s.func fn).task n).succ.filter (· == m)).length ≤ ((s.func fn).task m).ctr) : s.taskDone fn n =
      .ok (((s.func fn).task n).succ.foldl (countDown fn) (s.modTask fn n fun t => { t with st := .done, ctr := 0 })) := by
  refine (if_neg (by simp [hrun])).trans ((if_neg ?_).trans (congrArg Except.ok ?_))
  · intro hany
    obtain ⟨m, hm, hlt⟩ := List.any_eq_true.1 hany
    exact absurd (of_decide_eq_true hlt) (Nat.not_lt_of_le (h m hm))
  · rw [if_neg (by simp [hrun])]
    rfl

end

/-! ### TASK_LAUNCH_END (R338) -/

theorem status_code_zero {st : Option (Nat × Nat × Nat)} (h : st = none ∨ ∃ c i, st = some (0, c, i)) : (st.getD (0, 0, 0)).1 = 0 := by
  rcases h with h | ⟨c, i, h⟩ <;> rw [h] <;> rfl

/-- R338: the launch has gone. -/
def withoutLaunch (s : State) (l : Nat) : State :=
  { s with
    launches := KMap.del s.launches l, bars := s.bars.filter fun b => !b.1.of [] [] [l], passed := s.passed.filter fun p => p.2.1 != l }

/-- R338: a RUNNING entry whose launch ended with status 0. -/
def afterLaunch (s : State) (fn n : Nat) : State :=
  match s.taskDone fn n with
  | .ok t => t
  | .error _ => (s.modTask fn n fun t => { t with st := .done, ctr := 0 }).taskFail fn n 7

theorem afterLaunch_ok {s t : State} {fn n : Nat} (h : s.taskDone fn n = .ok t) : afterLaunch s fn n = t := by
  simp only [afterLaunch, h]

theorem afterLaunch_error {s : State} {fn n d : Nat} (h : s.taskDone fn n = .error d) :
    afterLaunch s fn n = (s.modTask fn n fun t => { t with st := .done, ctr := 0 }).taskFail fn n 7 := by
  simp only [afterLaunch, h]

section
variable {s : State} {l fn n : Nat} {x : Launch} (hl : KMap.get s.launches l = some x) (hjob : x.job = .task fn n) (hover : s.launchOver l x = true)
include hl hjob hover

theorem taskLaunchEnd_bad {st c i : Nat} (hst : x.status = some (st, c, i)) (hbad : st ≠ 0) :
    exec (.taskLaunchEnd l) s = .next ((withoutLaunch s l).taskBadEnd fn n st x.use) := by
  refine congrArg Host.Outcome.next ?_
  simp only [hl, hjob, hover, hst]
  exact if_pos hbad

variable (hst : x.status = none ∨ ∃ c i, x.status = some (0, c, i))
include hst

/-- The status is 0: what becomes of the entry is decided by the entry. -/
theorem taskLaunchEnd_stays (h : ((s.func fn).task n).st ≠ .running ∨ ((s.func fn).task n).use ≠ x.use) :
    exec (.taskLaunchEnd l) s = .next (withoutLaunch s l) := by
  have hzero := status_code_zero hst
  refine congrArg Host.Outcome.next ?_
  simp only [hl, hjob, hover, hzero, Bool.not_true, Bool.false_eq_true, if_false, ne_eq, not_true_eq_false]
  exact if_pos h

variable (hrun : ((s.func fn).task n).st = .running) (huse : ((s.func fn).task n).use = x.use)
include hrun huse

/-- R338: the step of TASKDONE, or STAT 7 where it would fault. -/
theorem taskLaunchEnd_steps : exec (.taskLaunchEnd l) s = .next (afterLaunch (withoutLaunch s l) fn n) := by
  have hzero := status_code_zero hst
  refine congrArg Host.Outcome.next ?_
  simp only [hl, hjob, hover, hzero, Bool.not_true, Bool.false_eq_true, if_false, ne_eq, not_true_eq_false]
  exact if_neg (not_or.2 ⟨not_not_intro hrun, not_not_intro huse⟩)

end

end Sys2Proof.FrontEnd
end

section
/-!
PROOFS. Doorbells, the arrival of a command, and the commands (R306 to R312, R327, R330, R338).
-/

namespace Sys2Proof.FrontEnd

open Sys2Proof Sys2Proof.Machine Sys2Proof.Claims Sys2Proof.MemoryHierarchy Sys2Proof.AddressSpaces

/-! ### Words of a command -/

theorem leVal_lt (bs : List Byte) : leVal bs < 256 ^ bs.length := by
  induction bs with
  | nil => exact Nat.one_pos
  | cons b bs ih =>
    have hb := b.isLt
    rw [List.length_cons, leVal, Nat.pow_succ]
    omega

theorem dword_wordAt (bs : List Byte) (k : Nat) : (dword (wordAt bs k)).toNat = leVal ((bs.drop (8 * k)).take 8) := by
  refine (BitVec.toNat_ofNat _ _).trans (Nat.mod_eq_of_lt ?_)
  exact Nat.lt_of_lt_of_le (leVal_lt _) (Nat.pow_le_pow_right (by decide) (List.length_take_le 8 _) : _ ≤ 256 ^ 8)

/-- R308: the command in 128 bytes of a slot. -/
def commandOf (bs : List Byte) : Cmd := (List.range 16).map fun k => dword (wordAt bs k)

theorem word_commandOf (bs : List Byte) {k : Nat} (hk : k < 16) :
    (Cmd.word (commandOf bs) k).toNat = leVal ((bs.drop (8 * k)).take 8) := by
  have hword : Cmd.word (commandOf bs) k = dword (wordAt bs k) := by simp [Cmd.word, commandOf, List.getD, hk]
  rw [hword, dword_wordAt]

/-! ### Registers of a queue and arrival (R306 to R308) -/

theorem queue_modFunc (s : State) (fn q : Nat) {f : Func → Func} (hf : ∀ x, (f x).queues = x.queues) :
    (s.modFunc fn f).queue fn q = s.queue fn q := by
  rw [State.queue, State.func_modFunc_same, Func.queue, hf, State.queue, Func.queue]

/-- R308: a command has arrived, and is executed or compared next. -/
def withArrived (s : State) (fn q : Nat) (cmd : Cmd) : State :=
  let s1 := s.modQueue fn q fun x => { x with qhead := (x.qhead + 1) % 2 ^ x.size, arrived := x.arrived ++ [cmd], compared := false }
  { s1 with agenda := (if Cmd.kind cmd = 5 then .ductusRead fn q else .predictionCompare fn q) :: s1.agenda }

theorem queue_withArrived (s : State) (fn q : Nat) (cmd : Cmd) : (withArrived s fn q cmd).queue fn q =
    { s.queue fn q with
      qhead := ((s.queue fn q).qhead + 1) % 2 ^ (s.queue fn q).size, arrived := (s.queue fn q).arrived ++ [cmd], compared := false } :=
  queue_modQueue s fn q fun x => { x with qhead := (x.qhead + 1) % 2 ^ x.size, arrived := x.arrived ++ [cmd], compared := false }

section
variable {s : State} {fn q : Nat} (henabled : s.enabled = true)
include henabled

theorem qctlWrite_plain (v : Nat) (hduc : (s.queue fn q).ductus = none) : exec (.qctlWrite fn q v) s = .next (s.modQueue fn q fun x =>
    { x with
      inf := v.testBit 24, depth := min 16 (bitsOf v 20 16), en := v.testBit 8
      size := if 4 ≤ bitsOf v 4 0 ∧ bitsOf v 4 0 ≤ 16 then bitsOf v 4 0 else x.size }) := by
  refine congrArg Host.Outcome.next ((if_pos henabled).trans ?_)
  unfold State.qctlWrite
  simp only [hduc]

variable (hen : (s.queue fn q).en = true)
  (hring : (s.queue fn q).qhead % 2 ^ (s.queue fn q).size ≠ (s.queue fn q).qtail % 2 ^ (s.queue fn q).size)
  (hcompared : (s.queue fn q).arrived = [] ∨ (s.queue fn q).compared = true) (hwindow : s.behindWindow = false)
  (hstarts : (s.queue fn q).starts = false)
include hen hring hcompared hwindow hstarts

/-- R308: where an arrival stands against nothing else, the fetch of the slot at QHEAD decides. -/
theorem commandArrival_fetches : s.commandArrival fn q = (
    let y := s.queue fn q
    let a := bitsOf y.qbase.toNat 47 7 * 128 + 128 * y.qhead
    if s.fetchFails fn a then s.fetchFailed fn q
    else if s.locShut (s.localLocOf fn a) then s
    else withArrived s fn q (commandOf (s.peek (s.func fn).owner (s.localLocOf fn a) 128))) := by
  have hpending : (s.queue fn q).pending = true := by simp [Queue.pending, hen, hring]
  have hgoes : ¬ (!(s.queue fn q).pending ∨ !s.enabled ∨ ((s.queue fn q).arrived ≠ [] ∧ !(s.queue fn q).compared) ∨ s.behindWindow) := by
    rcases hcompared with h | h <;> simp [hpending, henabled, hwindow, h]
  exact (if_neg hgoes).trans (if_neg (by simp [hstarts]))

theorem commandArrival_fails (hfails : s.fetchFails fn (bitsOf (s.queue fn q).qbase.toNat 47 7 * 128 + 128 * (s.queue fn q).qhead) = true)
    (hduc : (s.queue fn q).ductus = none) : s.commandArrival fn q =
      ({ s with irqs := s.irqs ++ [.queueError fn] } : State).modQueue fn q fun x => { x with en := false, ferr := true } := by
  rw [commandArrival_fetches henabled hen hring hcompared hwindow hstarts]
  refine (if_pos hfails).trans ?_
  simp only [State.fetchFailed, hduc]

theorem commandArrival_arrives {a : Nat} (ha : a = bitsOf (s.queue fn q).qbase.toNat 47 7 * 128 + 128 * (s.queue fn q).qhead)
    (hfetched : s.fetchFails fn a = false) (hshut : s.locShut (s.localLocOf fn a) = false) :
    s.commandArrival fn q = withArrived s fn q (commandOf (s.peek (s.func fn).owner (s.localLocOf fn a) 128)) := by
  subst ha
  rw [commandArrival_fetches henabled hen hring hcompared hwindow hstarts]
  exact (if_neg (by simp [hfetched])).trans (if_neg (by simp [hshut]))

end

theorem ringOk_fetchFails {s : State} {fn a : Nat} (h : s.ringOk fn a = false) : s.fetchFails fn a = true := by
  simp [State.fetchFails, h]

/-- R111, R375: without the device enabled none of the accesses to a queue has an effect. -/
theorem queueAccess_disabled {fn q v : Nat} {i : Instr}
    (hi : i ∈ ([.queueDoorbell fn q v, .qctlWrite fn q v, .qstatRead fn q, .commandArrival fn q] : List Instr)) {s : State}
    (h : s.enabled = false) : exec i s = .next s := by
  have hoff : ∀ t, s.ifEnabled t = s := fun t => if_neg (by simp [h])
  simp only [List.mem_cons, List.not_mem_nil, or_false] at hi
  rcases hi with rfl | rfl | rfl | rfl
  · exact congrArg Host.Outcome.next (hoff _)
  · exact congrArg Host.Outcome.next (hoff _)
  · exact congrArg Host.Outcome.next (hoff _)
  · exact congrArg Host.Outcome.next (if_pos (.inr (.inl (by simp [h]))))

/-! ### LAUNCH, COPY, SIGNAL and WAIT (R308, R310) -/

/-- R310: the operation of a COPY command. -/
def copyOp (s : State) (fn q : Nat) (b : CopyBlk) : EngOp :=
  { gid := queueGid fn q, cls := .copy, ord := 0, kind := if b.op = .copyr then .copyr b else .copy b, pc := 0, started := false
    failed := none, buf := [], have_ := [], bar := none, sh := none, fn := fn, optag := (s.func fn).nextOptag, swept := false, nib := 0
    dev := s.devnum, made := 0, cost := 0 }

/-- R310: the operation of a COPY has been issued. -/
def copyIssued (s : State) (fn q : Nat) (b : CopyBlk) : State :=
  { s with ops := KMap.put s.ops s.nextOp (copyOp s fn q b), nextOp := s.nextOp + 1 }.modFunc fn fun f =>
    { f with nextOptag := (f.nextOptag + 1) % 2 ^ 32 }

theorem queue_copyIssued (s : State) (fn q : Nat) (b : CopyBlk) : (copyIssued s fn q b).queue fn q = s.queue fn q := queue_modFunc _ fn q fun _ => rfl

section
variable {s : State} {fn q : Nat} {c : Cmd} (hhead : (s.queue fn q).head = some c) (hgood : Cmd.bad c (s.func fn) = none)
include hhead hgood

theorem execLaunch_starts (hkind : Cmd.kind c = 1) (hnone : s.queueLaunches fn q = []) {r : LaunchRec}
    (hshut : s.virtShut fn (Cmd.recordAt c (s.func fn)).toNat 0 256 = false)
    (hr : s.readRecord none fn (Cmd.recordAt c (s.func fn)) (Cmd.tgrp c) (Cmd.teams c) = .ok r) :
    exec (.launch fn q) s = .next ((s.startLaunch (.queue fn q) fn r ((List.range 12).map fun i => Cmd.arg c i) (Cmd.tag c) (Cmd.word c 1)
      (Cmd.teams c) none 0).take fn q c fun y => { y with launchId := some s.nextLaunch }) := by
  refine congrArg Host.Outcome.next ?_
  simp only [State.launchCommand, hhead]
  rw [if_neg (by simp [hkind])]
  simp [hnone, sortBy, hgood, hshut, hr]

theorem copyCommand_starts (hkind : Cmd.kind c = 2) :
    s.copyCommand fn q = (copyIssued s fn q (Cmd.blk c)).take fn q c fun y => { y with opId := some s.nextOp } := by
  simp only [State.copyCommand, hhead]
  rw [if_neg (by simp [hkind])]
  simp only [hgood]
  rfl

theorem execSignalCommand_performs (hkind : Cmd.kind c = 3) {a l : Nat} (ha : s.translate fn (Cmd.w c 2) 2 = .ok a)
    (hloc : s.locOf fn a = .dpa l) (hread : s.readRefused fn (.dpa l) = false) (hshut : s.locShut (.dpa l) = false) (hclosed : s.closed = false) :
    exec (.signalCommand fn q) s = .next (
      let new := leBytes (signalF (bitsOf (Cmd.w c 4) 1 0) (leVal (s.peek (s.func fn).owner (.dpa l) 8)) (Cmd.w c 3)) 8
      let s1 := (s.poke (s.func fn).owner (.dpa l) ((List.range 8).map fun j => (j, new.getD j 0))).touch none (.dpa l)
      (if (Cmd.w c 4).testBit 7 then { s1 with irqs := s1.irqs ++ [.signal fn] } else s1).take fn q c fun y =>
        { y with outcome := some (0, 0, 0) }) := by
  refine congrArg Host.Outcome.next ?_
  simp only [State.signalCommand, hhead]
  rw [if_neg (by simp [hkind])]
  simp only [hgood, ha, hloc]
  rw [if_neg (by simp [hshut, hclosed]), if_neg (by simp [hread])]

theorem execWaitCommand_begins (hkind : Cmd.kind c = 4) : exec (.waitCommand fn q) s = .next (s.take fn q c fun y =>
    { y with wait := some ⟨false, Cmd.word c 2, Cmd.word c 3, bitsOf (Cmd.w c 4) 1 0, bitsOf (Cmd.w c 4) 63 32, s.caln⟩ }) := by
  refine congrArg Host.Outcome.next ?_
  simp only [State.waitCommand, hhead]
  rw [if_neg (by simp [hkind])]
  simp only [hgood]

end

/-! ### The poll and the timeout of a WAIT (R310) -/

section
variable {s : State} {fn q : Nat} {w : WaitSt} (hwait : (s.queue fn q).wait = some w)
include hwait

theorem execWaitPollRead_hit (hhit : w.hit = true) : exec (.waitPollRead fn q) s = .next (s.waitEnds fn q (0, 0, 0)) := by
  refine congrArg Host.Outcome.next ?_
  simp only [hwait]
  exact if_pos hhit

theorem execWaitPollRead_holds {a : Nat} (ha : s.translate fn w.addr.toNat 0 = .ok a) (hread : s.readRefused fn (s.locOf fn a) = false)
    (hshut : s.locShut (s.locOf fn a) = false) (hholds : w.holds (leVal (s.peek (s.func fn).owner (s.locOf fn a) 8)) = true) :
    exec (.waitPollRead fn q) s = .next (s.waitEnds fn q (0, 0, 0)) := by
  by_cases hhit : w.hit = true
  · exact execWaitPollRead_hit hwait hhit
  · refine congrArg Host.Outcome.next ?_
    simp only [hwait]
    refine (if_neg hhit).trans ?_
    simp only [ha, hshut, hread, hholds]
    rfl

theorem execWaitTimeout_eq (hhit : w.hit = false) : exec (.waitTimeout fn q) s = .next (
    if w.timeout ≠ 0 ∧ w.since + 1000 * w.timeout ≤ s.caln then s.waitEnds fn q (6, 0, 0) else s) := by
  refine congrArg Host.Outcome.next ?_
  simp only [hwait, hhit]
  rw [Bool.not_false]
  simp only [true_and]

end

/-! ### DUCTUS-READ (R327) -/

theorem execDuctusRead_reads {s : State} {fn q a : Nat} {c : Cmd} (hlast : (s.queue fn q).arrived.getLast? = some c) (hkind : Cmd.kind c = 5)
    (hnew : (s.queue fn q).compared = false) (hgood : Cmd.bad c (s.func fn) = none) (ha : s.translate fn (Cmd.w c 2) 1 = .ok a)
    (hopen : ∀ x ∈ (s.locOf fn a).span 256, s.locShut x = false) (hwrite : s.locRefused fn (s.locOf fn a) = false) :
    exec (.ductusRead fn q) s = .next (((s.poke (s.func fn).owner (s.locOf fn a)
      ((List.range 256).map fun j => (j, (s.ductusRecord fn q).getD j 0))).touchSpan none (s.locOf fn a) 256).modQueue fn q fun y =>
        { y with arrived := y.arrived.dropLast, compared := true, records := y.records ++ [(c, 0, 0, 0)] }) := by
  have hshut : s.virtShut fn (Cmd.w c 2) 1 256 = false := by
    simp only [State.virtShut, ha]
    exact List.any_eq_false.2 fun x hx => by simp [hopen x hx]
  refine congrArg Host.Outcome.next ?_
  simp only [State.ductusRead, hlast]
  rw [if_neg (by simp [hkind, hnew, hshut])]
  simp only [hgood, ha]
  rw [if_neg (by simp [hwrite])]

theorem ruleWords_length (rs : List ArgRule) (i : Nat) : (ruleWords rs i).length = rs.length := by
  induction rs generalizing i with
  | nil => rfl
  | cons r rs ih => simp [ruleWords, ih]

theorem flatMap_leBytes_length {α : Type} (l : List α) (f : α → Nat) (n : Nat) : (l.flatMap fun x => leBytes (f x) n).length = l.length * n := by
  simp [List.length_flatMap, leBytes_length, List.map_const']

/-- R327: 40 bytes of header, 24 of rules and 192 of pool. -/
theorem ductusRecord_length {s : State} {fn q : Nat} (h : ∀ x, (s.queue fn q).ductus = some x → x.rules.length = 12) :
    (s.ductusRecord fn q).length = 256 := by
  unfold State.ductusRecord
  dsimp only
  split
  · exact leBytes_length _ 256
  · rename_i x hx
    rw [List.length_append, List.length_append, flatMap_leBytes_length, flatMap_leBytes_length, flatMap_leBytes_length, ruleWords_length, h x hx,
      List.length_range]
    rfl

/-! ### Completion records (R312) -/

theorem execCompletionRecordWrite_writes {s : State} {fn q : Nat} {c : Cmd} {o : Nat × Nat × Nat} (hrecords : (s.queue fn q).records = [])
    (hcurrent : (s.queue fn q).current = some c) (hlaunch : (s.queue fn q).launchId = none)
    (hdone : s.commandDone (s.queue fn q) = some o) (hshut : s.virtShut fn (Cmd.w c 1) 1 16 = false) :
    exec (.completionRecordWrite fn q) s = .next ((s.writeRecord fn q c o).modQueue fn q fun y =>
      { y with current := none, launchId := none, opId := none, outcome := none }) := by
  refine congrArg Host.Outcome.next ?_
  simp only [State.completionWrite, hrecords, hcurrent, hdone, hlaunch]
  exact if_neg (by simp [hshut])

theorem writeRecord_writes {s : State} {fn q : Nat} {c : Cmd} {o : Nat × Nat × Nat} {a : Nat} (haddr : Cmd.w c 1 ≠ 0)
    (haligned : misaligned (Cmd.word c 1) 16 = false) (ha : s.translate fn (Cmd.w c 1) 1 = .ok a)
    (hwrite : s.locRefused fn (s.locOf fn a) = false) : s.writeRecord fn q c o = (
      let bs := leBytes (Cmd.tag c * 2 ^ 32 + o.2.2 % 65536 * 2 ^ 16 + o.2.1 % 256 * 2 ^ 8 + o.1 % 256) 8 ++ leBytes s.caln 8
      (s.poke (s.func fn).owner (s.locOf fn a) ((List.range 16).map fun j => (j, bs.getD j 0))).touch none (s.locOf fn a)) := by
  have hword : Cmd.word c 1 ≠ 0 := fun h => haddr (by rw [Cmd.w, h]; rfl)
  have ha' : s.translate fn (Cmd.word c 1).toNat 1 = .ok a := ha
  refine (if_neg hword).trans ((if_neg (by simp [haligned])).trans ?_)
  simp only [ha']
  exact if_neg (by simp [hwrite])

end Sys2Proof.FrontEnd
end

section
/-!
PROOFS. The command front end's steps together (R300, R306 to R312, R327, R330, R338).
-/

namespace Sys2Proof.FrontEnd

open Sys2Proof Sys2Proof.Machine Sys2Proof.Claims Sys2Proof.MemoryHierarchy

/-- Settles O46: each step under its conditions; the end of a task's launch is the step of TASKDONE (`task_countDowns`) or a failure. -/
theorem commandSteps : Obligations.CommandSteps := by
  unfold Obligations.CommandSteps
  refine ⟨⟨?doorbell, ?qctl, ?qstat, ?disabled, ?arrival, ?ring, ?launch, ?copy, ?signal, ?wait⟩, ?hit, ?poll, ?timeout, ?ductusRead, ?record,
    ?completion, ?writeRecord, ?taskFailed, ?taskOver⟩
  case doorbell => exact fun s fn q v henabled => congrArg Host.Outcome.next (if_pos henabled)
  case qctl => exact fun s fn q v henabled hduc => qctlWrite_plain henabled v hduc
  case qstat => exact fun s fn q henabled => congrArg Host.Outcome.next (if_pos henabled)
  case disabled => exact fun fn q v i hi s h => queueAccess_disabled hi h
  case arrival =>
    intro s fn q hen henabled hring hcompared hwindow hstarts
    refine ⟨fun hfails hduc => congrArg Host.Outcome.next (commandArrival_fails henabled hen hring hcompared hwindow hstarts hfails hduc),
      fun hfetched hshut => ?_⟩
    have harrives := commandArrival_arrives henabled hen hring hcompared hwindow hstarts rfl hfetched hshut
    exact ⟨_, _, congrArg Host.Outcome.next harrives, by simp [commandOf], fun k hk => word_commandOf _ hk, queue_withArrived s fn q _⟩
  case ring => exact fun s fn a h => ringOk_fetchFails h
  case launch => exact fun s fn q c r hhead hkind hnone hgood hshut hr => execLaunch_starts hhead hgood hkind hnone hshut hr
  case copy =>
    intro s fn q c hhead hkind hgood _
    refine ⟨_, copyOp s fn q (Cmd.blk c), congrArg Host.Outcome.next (copyCommand_starts hhead hgood hkind), rfl, KMap.get_put_same _ _ _, rfl, rfl,
      rfl, rfl, ?_⟩
    rw [State.take, queue_modQueue, queue_copyIssued]
  case signal =>
    exact fun s fn q c a l hhead hkind hgood ha hloc hread hshut hclosed =>
      execSignalCommand_performs hhead hgood hkind ha hloc hread hshut hclosed
  case wait => exact fun s fn q c hhead hkind hgood => execWaitCommand_begins hhead hgood hkind
  case hit => exact fun s fn q w hwait hhit => execWaitPollRead_hit hwait hhit
  case poll =>
    rintro s fn q w a _ hwait ha rfl hread hshut hholds
    exact execWaitPollRead_holds hwait ha hread hshut hholds
  case timeout =>
    intro s fn q w hwait hhit
    rw [execWaitTimeout_eq hwait hhit]
    exact ⟨fun hset hdue => congrArg Host.Outcome.next (if_pos ⟨hset, hdue⟩), fun h => congrArg Host.Outcome.next (if_neg (by omega))⟩
  case ductusRead =>
    rintro s fn q c a _ hlast hkind hnew hgood ha rfl hopen hwrite
    exact execDuctusRead_reads hlast hkind hnew hgood ha hopen hwrite
  case record => exact fun s fn q h => ductusRecord_length h
  case completion =>
    exact fun s fn q c o hrecords hcurrent hlaunch hdone hshut => execCompletionRecordWrite_writes hrecords hcurrent hlaunch hdone hshut
  case writeRecord => exact fun s fn q c o a haddr haligned ha hwrite => writeRecord_writes haddr haligned ha hwrite
  case taskFailed =>
    intro s l x fn n hl hjob hover hst
    have htask := task_taskBadEnd (withoutLaunch s l) fn n 2 x.use
    refine ⟨_, taskLaunchEnd_bad hl hjob hover hst (by decide), KMap.get_del_same _ _, congrArg Func.tfail (func_taskFail _ fn n 2),
      List.mem_append_right _ List.mem_cons_self, fun m hm => (htask m).trans (if_neg hm), fun h => ?_, fun huse hrun => ?_⟩
    · refine ((htask n).trans (if_pos rfl)).trans (if_neg ?_)
      rintro ⟨huse, hst⟩
      rcases h with h | h
      · exact h huse
      · change ((s.func fn).task n).st = _ ∨ ((s.func fn).task n).st = _ at hst
        simp [h] at hst
    · exact ((htask n).trans (if_pos rfl)).trans (if_pos ⟨huse, .inl hrun⟩)
  case taskOver =>
    intro s l x fn n hl hjob hover hst gone e slots
    refine ⟨fun h => taskLaunchEnd_stays hl hjob hover hst h, fun hrun huse hshort => ?_, fun hrun huse hcounts hself => ?_⟩
    · have hstep := afterLaunch_error (taskDone_short (s := withoutLaunch s l) hrun hshort)
      have htask := fun m => (task_taskFail ((withoutLaunch s l).modTask fn n fun t => { t with st := .done, ctr := 0 }) fn n 7 m).trans
        (task_modTask (withoutLaunch s l) fn n m fun t => { t with st := .done, ctr := 0 })
      exact ⟨_, (taskLaunchEnd_steps hl hjob hover hst hrun huse).trans (congrArg _ hstep), rfl, congrArg Func.tfail (func_taskFail _ fn n 7),
        (htask n).trans (if_pos rfl), fun m hm => (htask m).trans (if_neg hm)⟩
    · have hdone := taskDone_counts (s := withoutLaunch s l) hrun hcounts
      have hstep := (taskLaunchEnd_steps hl hjob hover hst hrun huse).trans (congrArg _ (afterLaunch_ok hdone))
      have hmod := fun m => task_modTask (withoutLaunch s l) fn n m fun t => { t with st := .done, ctr := 0 }
      have hfold := task_countDowns fn e.succ ((withoutLaunch s l).modTask fn n fun t => { t with st := .done, ctr := 0 })
      refine ⟨_, hstep, hdone, ?_, fun m hm => ?_⟩
      · obtain ⟨-, -, hother⟩ := hfold n
        exact (hother hself).trans ((hmod n).trans (if_pos rfl))
      · obtain ⟨hctr, hst, hother⟩ := hfold m
        rw [hmod m, if_neg hm] at hctr hst hother
        refine ⟨hctr, fun h => ?_⟩
        rcases h with hpos | hnone
        · exact hst hpos
        · refine congrArg Task.st (hother fun hmem => ?_)
          exact absurd (List.mem_filter.2 ⟨hmem, by simp⟩) (List.eq_nil_of_length_eq_zero hnone ▸ List.not_mem_nil)

end Sys2Proof.FrontEnd
end
